-- ==== Sys2Proof/Word.lean ====
section
/-!
DEFINITION. The data sizes of R4 (00_scope.md), scope codes, and the shape of a sparse table of words.
-/
namespace Sys2Proof

/-- 8 bits (R4). -/
abbrev Byte := BitVec 8
/-- 16 bits (R4). -/
abbrev Half := BitVec 16
/-- 32 bits (R4); an instruction word is one word. -/
abbrev Word := BitVec 32
/-- 64 bits (R4). -/
abbrev DWord := BitVec 64
/-- One bit for each of the 32 lanes of a group (R66): bit i stands for lane i. -/
abbrev LaneMask := BitVec 32

/-- A sparse table of `w`-bit words by a natural number key. Its canonical form: keys strictly rise and no
listed word is zero, so an unlisted key reads zero and equal tables are equal lists. -/
abbrev SMap (w : Nat) := List (Nat × BitVec w)

end Sys2Proof
end

