-- ==== Sys2Proof/Machine/Sparse.lean ====
section
/-!
DEFINITION. Sparse tables in canonical form, and little-endian byte strings (R3, 00_scope.md).
-/
namespace Sys2Proof

/-- The word a key holds; an unlisted key reads zero. -/
def SMap.get {w : Nat} : SMap w → Nat → BitVec w
  | [], _ => 0
  | (a, b) :: m, k => if k < a then 0 else if k = a then b else SMap.get m k

/-- The table with `k` holding `x`: the form stays canonical, so writing zero removes the entry. -/
def SMap.set {w : Nat} : SMap w → Nat → BitVec w → SMap w
  | [], k, x => if x = 0 then [] else [(k, x)]
  | (a, b) :: m, k, x =>
    if k < a then (if x = 0 then (a, b) :: m else (k, x) :: (a, b) :: m)
    else if k = a then (if x = 0 then m else (k, x) :: m)
    else (a, b) :: SMap.set m k x

/-- Every key is above `lo`, keys strictly rise, and no word is zero. -/
def SMap.wfFrom {w : Nat} (lo : Nat) : SMap w → Bool
  | [] => true
  | (a, b) :: m => decide (lo ≤ a) && decide (b ≠ 0) && SMap.wfFrom (a + 1) m

/-- The canonical form: keys strictly rise and no word is zero. -/
def SMap.wf {w : Nat} (m : SMap w) : Bool := SMap.wfFrom 0 m

/-- Writes consecutive keys. -/
def SMap.setRun {w : Nat} (m : SMap w) (k : Nat) : List (BitVec w) → SMap w
  | [] => m
  | x :: xs => SMap.setRun (SMap.set m k x) (k + 1) xs

/-- Reads consecutive keys. -/
def SMap.getRun {w : Nat} (m : SMap w) (k n : Nat) : List (BitVec w) :=
  (List.range n).map fun i => SMap.get m (k + i)

/-- The entries with a key in `[a, a + n)`, and those with none. -/
def SMap.within {w : Nat} (m : SMap w) (a n : Nat) : SMap w := m.filter fun e => a ≤ e.1 && e.1 < a + n
def SMap.without {w : Nat} (m : SMap w) (a n : Nat) : SMap w := m.filter fun e => !(a ≤ e.1 && e.1 < a + n)

/-- The words of `n` keys from `src` copied to the keys from `dst`. -/
def SMap.copyRange {w : Nat} (m : SMap w) (src n dst : Nat) : SMap w :=
  (SMap.within m src n).foldl (fun m' e => SMap.set m' (e.1 - src + dst) e.2) (SMap.without m dst n)

/-- The number a byte string holds, lowest byte first (R3). -/
def leNat : List Byte → Nat
  | [] => 0
  | b :: bs => b.toNat + 256 * leNat bs

/-- The low `n` bytes of a number, lowest first (R3). -/
def leBytes : Nat → Nat → List Byte
  | 0, _ => []
  | n + 1, x => BitVec.ofNat 8 x :: leBytes n (x / 256)

/-- Bits [hi:lo] of a number. -/
def bits (x hi lo : Nat) : Nat := x / 2 ^ lo % 2 ^ (hi + 1 - lo)

/-- The lanes of a mask in increasing lane number (R151). -/
def laneList (m : LaneMask) : List Nat := (List.range 32).filter fun i => m.getLsbD i

/-- The mask of a list of lanes. -/
def laneMask (l : List Nat) : LaneMask := BitVec.ofNat 32 (l.foldl (fun a i => a ||| 2 ^ i) 0)

/-- The mask of the lanes where a condition holds. -/
def maskOf (f : Nat → Bool) : LaneMask := laneMask ((List.range 32).filter f)

/-- Whether two byte ranges of one space meet. -/
def overlaps (a n b m : Nat) : Bool := decide (a < b + m) && decide (b < a + n)

end Sys2Proof
end

