-- ==== Sys2Proof/Syntax.lean ====
section
/-!
DEFINITION. The machine's steps as syntax: `Instr` has one constructor per row of the opcode table. Fetched
instructions carry the fields of their words (R175 to R177, 06_encoding.md); stream commands, management
commands and events carry the operands that the rule named beside each constructor gives them.
-/
namespace Sys2Proof

/-- The guard fields G and N of word 0 (R175, R183): predicate 7 means always. -/
structure Guard where
  pred : BitVec 3
  neg : Bool
deriving DecidableEq, Repr

/-- A one-word form (R177): word 0's fields but P, L and OP, which the constructor stands for. -/
structure Short where
  g : Guard
  d : BitVec 8
  a : BitVec 8
  f : BitVec 3
deriving DecidableEq, Repr

/-- An immediate-32 form (R177): word 0's fields and the 32-bit immediate of word 1. -/
structure Imm where
  g : Guard
  d : BitVec 8
  a : BitVec 8
  f : BitVec 3
  imm : Word
deriving DecidableEq, Repr

/-- A long form (R176): word 0's fields and those of word 1, by the names of R175 and R176. -/
structure Long where
  g : Guard
  d : BitVec 8
  a : BitVec 8
  f : BitVec 3
  b : BitVec 8
  c : BitVec 8
  la : BitVec 4
  m : BitVec 4
  ka : Bool
  kb : Bool
  kc : Bool
  x : Bool
  xi : BitVec 2
  h : BitVec 2
deriving DecidableEq, Repr

/-- A stream command (R82, 03_execution.md): C0 less its OPC, which the constructor stands for, and C1 to C3.
`rsv` holds C0[31:19] above C0[15:10]. -/
structure Command where
  arg1 : Word
  rsv : BitVec 19
  sub : BitVec 3
  irq : Bool
  wait : Bool
  c1 : DWord
  c2 : DWord
  c3 : DWord
deriving DecidableEq, Repr

/-- A management command as written to MCMD (R435, R436, 17_platform.md), less its OP. -/
structure MCmd where
  arg : Word
  ctx : BitVec 4
deriving DecidableEq, Repr

/-- The operations of R275 (09_isa_memory.md). -/
inductive AtomOp | add | min | max | and | or | xor | exch | cas
deriving DecidableEq, Repr

/-- The operand types of R275. -/
inductive AtomTy | i32 | n32 | i64 | n64 | f32 | f64 | b32 | b64
deriving DecidableEq, Repr

/-- What the patrol scrubber finds when it reads a stripe row of one stack (R399 to R401): nothing, an error
that the sector code corrects, or a half-unit (0 or 1) that it can only detect. -/
inductive ScrubFinding | clean | corrected | lostHalf (half : Nat)
deriving DecidableEq, Repr

/-- The conditions of R404 under which a stack is declared LOST, less the interface timeout and the host's
request, which are rows of their own; trainFailure is R404's failure to train. -/
inductive LossReason | trainFailure | cwdRate | thermalTrip
deriving DecidableEq, Repr

/-- The states of a UALink port (R412). -/
inductive PortState | up | slow | down
deriving DecidableEq, Repr

/-- What a request of a peer to this device's memory asks for (R323, R415): physical addresses. -/
inductive PeerAsk
  | read (size : Nat)
  | write (data : List Byte)
  | atomic (op : AtomOp) (ty : AtomTy) (operand : DWord) (newValue : DWord)
deriving DecidableEq, Repr

/-- A read, write or atomic request of a peer (R323, R325, R413): its sender, tag, job and address. -/
structure PeerReq where
  source : BitVec 10
  tag : Nat
  job : Half
  pa : Nat
  ask : PeerAsk
deriving DecidableEq, Repr

/-- The result of a group that LONG_LATENCY_RESULT acts on, and which of its accesses it performs. -/
structure ResultPart where
  result : Nat
  access : Nat
deriving DecidableEq, Repr

/-- One lane's part of a coll packet (R328): lane number, offset in the 256-byte region, data. -/
structure LanePart where
  lane : Nat
  offset : Nat
  data : DWord
deriving DecidableEq, Repr

/-- A coll packet of KIND 8, 9 or 11 as it arrives at this device (R326, R328). -/
structure CollPacket where
  source : BitVec 10
  tag : Nat
  job : Half
  ctl : BitVec 8
  base : DWord
  parts : List LanePart
deriving DecidableEq, Repr

/-- A collective chunk packet of KIND 0 to 5 (R325 to R327): sending device, tag and job; the fields of its header, but for
the kind and for BYTES, which is the payload's length; whether poison came with it (R416); and its payload. -/
structure Chunk where
  source : BitVec 10
  tag : Nat
  job : Half
  commId : Half
  seq : Half
  chunk : BitVec 24
  dtype : BitVec 4
  fromRank : BitVec 10
  stepNo : BitVec 10
  xw : BitVec 2
  poison : Bool
  payload : List Byte
deriving DecidableEq, Repr

/-- A response to one of this device's fabric requests (R415): the bytes asked for, or a failure response, or a
poisoned one (R406). -/
inductive Response
  | data (bytes : List Byte)
  | failure
  | poisoned
deriving DecidableEq, Repr

/-- The AtomicOps of the host link (R342). -/
inductive HostAtomic | fetchAdd | swap | cas
deriving DecidableEq, Repr

/-- One constructor per row of spec/opcode_table.json. -/
inductive Instr where
  -- Lane pipe, OP 0x00 to 0x27 (R202 to R221)
  | nop (i : Short)
  | iadd (i : Long)
  | isub (i : Long)
  | imul (i : Long)
  | imad (i : Long)
  | imulhi (i : Long)
  | imin (i : Long)
  | imax (i : Long)
  | iabs (i : Long)
  | and (i : Long)
  | or (i : Long)
  | xor (i : Long)
  | andn (i : Long)
  | shl (i : Long)
  | shr (i : Long)
  | sar (i : Long)
  | fsh (i : Long)
  | popc (i : Long)
  | clz (i : Long)
  | ctz (i : Long)
  | brev (i : Long)
  | bfx (i : Long)
  | bfi (i : Long)
  | perm (i : Long)
  | lea (i : Long)
  | icmp (i : Long)
  | sel (i : Long)
  | mov (i : Long)
  | icvt (i : Long)
  | plop (i : Long)
  | setx (i : Long)
  | addx (i : Long)
  | movi (i : Imm)
  | iaddi (i : Imm)
  | imuli (i : Imm)
  | iandi (i : Imm)
  | iori (i : Imm)
  | ixori (i : Imm)
  | icmpi (i : Imm)
  | setxi (i : Imm)
  -- Lane pipe, OP 0x28 to 0x4F (R237 to R265)
  | fadd (i : Long)
  | fsub (i : Long)
  | fmul (i : Long)
  | ffma (i : Long)
  | fdiv (i : Long)
  | fsqrt (i : Long)
  | fmin (i : Long)
  | fmax (i : Long)
  | fsgn (i : Long)
  | fcmp (i : Long)
  | frcp (i : Long)
  | frsq (i : Long)
  | fexp2 (i : Long)
  | flog2 (i : Long)
  | fsin (i : Long)
  | fcos (i : Long)
  | fclass (i : Long)
  | fcvt (i : Long)
  | f2i (i : Long)
  | i2f (i : Long)
  | frnd (i : Long)
  | bmax (i : Long)
  | bscale (i : Long)
  | bquant (i : Long)
  | bdequant (i : Long)
  | bnf (i : Long)
  | unpk (i : Long)
  | lxch (i : Long)
  | lpred (i : Long)
  | lred (i : Long)
  | lscan (i : Long)
  -- Lane pipe, OP 0x50 to 0x5D (R266 to R277, R289 to R295, R222)
  | ld (i : Long)
  | st (i : Long)
  | lds (i : Long)
  | sts (i : Long)
  | stm (i : Long)
  | atom (i : Long)
  | atoms (i : Long)
  | red (i : Long)
  | reds (i : Long)
  | gath (i : Long)
  | spawn (i : Long)
  | done (i : Short)
  | collPut (i : Long)
  | collGet (i : Long)
  | collRed (i : Long)
  | lsr (i : Short)
  -- Group pipe, OP 0x00 to 0x1B (R223 to R227)
  | gnop (i : Short)
  | gadd (i : Long)
  | gsub (i : Long)
  | gmul (i : Long)
  | gmad (i : Long)
  | gmin (i : Long)
  | gmax (i : Long)
  | gand (i : Long)
  | gor (i : Long)
  | gxor (i : Long)
  | gshl (i : Long)
  | gshr (i : Long)
  | gsar (i : Long)
  | gpopc (i : Long)
  | gclz (i : Long)
  | gbfx (i : Long)
  | gbfi (i : Long)
  | gcmp (i : Long)
  | gsel (i : Long)
  | gmov (i : Long)
  | gplop (i : Long)
  | gsr (i : Short)
  | gsw (i : Short)
  | gmovi (i : Imm)
  | gaddi (i : Imm)
  | gandi (i : Imm)
  | gcmpi (i : Imm)
  -- Control flow (R228 to R236)
  | br (i : Imm)
  | brx (i : Short)
  | call (i : Imm)
  | ret (i : Short)
  | join (i : Imm)
  | exit (i : Short)
  | trap (i : Short)
  -- Group-pipe memory and engines (R266 to R296, R334)
  | gld (i : Long)
  | gst (i : Long)
  | gbarInit (i : Long)
  | gbarArrive (i : Long)
  | gbarExpect (i : Long)
  | gbarExpa (i : Long)
  | gbarWait (i : Long)
  | gbarTry (i : Long)
  | fence (i : Short)
  | drain (i : Long)
  | cpyaB2t (i : Long)
  | cpyaT2b (i : Long)
  | cpyaB2b (i : Long)
  | cpyaFlat (i : Long)
  | dinv (i : Long)
  | dinvAll (i : Long)
  | pub (i : Long)
  | gcollAr (i : Long)
  | gcollRs (i : Long)
  | gcollAg (i : Long)
  -- Matrix engine (R297 to R320)
  | conv (i : Long)
  | convDis (i : Long)
  | mma (i : Long)
  | mmaSp (i : Long)
  | prune (i : Long)
  | pruneT (i : Long)
  | accZero (i : Long)
  | accLd (i : Long)
  | accSt (i : Long)
  | accAdd (i : Long)
  | mcommit (i : Short)
  | mwait (i : Short)
  -- Split logic and results (R77, R78, R187)
  | splitMerge (team grp : Nat)
  | holdTimeout (team grp split : Nat)
  | longLatencyResult (team grp : Nat) (part : ResultPart)
  -- Stream commands (R83), executed by the command processor for the issuing stream
  | nopCommand (c : Command)
  | launch (c : Command)
  | launchi (c : Command)
  | loop (c : Command)
  | branch (c : Command)
  | waitph (c : Command)
  | waitphPoll (stream : Nat)
  | signal (c : Command)
  | publish (c : Command)
  | hcopy (c : Command)
  | hcopyComplete (stream : Nat)
  | fenceCommand (c : Command)
  | seed (c : Command)
  | stop (c : Command)
  -- Placement, spawning, grids (R85 to R95): the core is the distributor's choice
  | teamPlacement (core : Nat)
  | spawnedGroupStart (core : Nat) (entry : DWord)
  | gridComplete (grid : Nat)
  -- Copies (R132, R133)
  | permitGrant (copy : Nat)
  | tileLanding (copy tile : Nat)
  | copyCredit (copy tile : Nat)
  -- Matrix engine events (R301, R316)
  | matrixOpStart (core : Nat)
  | matrixOpComplete (core op : Nat)
  | convocationEnd (team : Nat) (tag : BitVec 4)
  -- Traps and faults (R98, R368, R371, R378)
  | timerTrap (team : Nat)
  | handlerEntry (team : Nat)
  | teamResume (team : Nat)
  | fqansRetry (seq : BitVec 63)
  | fqansFail (seq : BitVec 63)
  | contextDrainComplete (ctx : BitVec 4)
  | preemptDeadline (ctx : BitVec 4)
  -- Management commands (R436)
  | create (m : MCmd)
  | destroy (m : MCmd)
  | key (m : MCmd)
  | inval (m : MCmd)
  | preempt (m : MCmd)
  | restore (m : MCmd)
  | freset (m : MCmd)
  | retain (m : MCmd)
  | unretain (m : MCmd)
  | retentionComplete (band : BitVec 4)
  | reshape (m : MCmd)
  | lose (m : MCmd)
  | topo (m : MCmd)
  | attest (m : MCmd)
  | wreset (m : MCmd)
  | update (m : MCmd)
  -- Register writes of the host (R435, R438, R439)
  | start (stream : BitVec 6) (value : DWord)
  | irqClear (value : DWord)
  | eqptrHead (value : DWord)
  | fqptrHead (value : DWord)
  | pcapWrite (value : DWord)
  | tmoutWrite (value : DWord)
  | rmctlGo (value : DWord)
  | registerWrite (offset : BitVec 16) (value : DWord)
  -- Resets, power and heat (R428 to R431)
  | powerStep (up : Bool)
  | dieThermalLimit (die : BitVec 2)
  | dieThermalTrip (die : BitVec 2)
  -- Memory reliability (R118 to R121, R399 to R411)
  | stackLost (stack : Nat) (why : LossReason)
  | stackTimeout (stack : Nat)
  | patrolScrub (stack row : Nat) (finding : ScrubFinding)
  | journalApply (stack idx : Nat)
  | writeBack (line : Nat)
  | capacityPackageLost (package : Nat)
  -- Fabric (R323 to R329, R412 to R417)
  | portStateChange (port : Nat) (state : PortState)
  | peerTimeout (tag : Nat)
  | peerAccessRequest (r : PeerReq)
  | peerResponse (tag : Nat) (r : Response)
  | put (p : CollPacket)
  | get (p : CollPacket)
  | getResponse (tag : Nat) (data : List DWord)
  | remoteReduction (p : CollPacket)
  | forward (c : Chunk)
  | addAndForward (c : Chunk)
  | final (c : Chunk)
  | scaleMax (c : Chunk)
  | plan (c : Chunk)
  | chunkCredit (c : Chunk)
  | collectiveComplete (id : Nat)
  | collectiveTimeout (id : Nat)
  -- Host link (R140, R160, R342 to R344, R398, R418, R419)
  | hostBar2Read (pa size : Nat)
  | hostBar2Write (pa : Nat) (data : List Byte) (poisoned : Bool)
  | hostAtomicop (pa : Nat) (op : HostAtomic) (wide : Bool) (operand newValue : DWord)
  | fetchaddComplete (id : Nat)
  -- Firmware (R421) and the remaining steps
  | cpRestart (die : BitVec 2) (why : BitVec 4)
  | cpWatchdog (die : BitVec 2)
  | storePerformed (team grp idx : Nat)
  | undefinedEncoding (cause : BitVec 8)
  | reservedCommand (c : Command)
  | hostLineOwnership (line : Nat) (take : Bool) (data : List Byte)
  -- Events without operands (R420, R421, R430; R342, R418, R419; R409)
  | reshapeComplete
  | coldReset
  | hostLinkDown
  | hostLinkUp
  | rootFirmwareFault
  | hostCompletionTimeout
deriving DecidableEq, Repr

end Sys2Proof
end

