-- ==== Sys2Proof/Machine/Forms.lean ====
section
/-!
DEFINITION. What each field of each fetched instruction may hold (R177 to R186 and the entries of chapters 07
to 10), as one `Form` per instruction. From a form follow the encoding checks of R362 and R363, the registers an
instruction names (R70, R188), and whether it is long-latency (R186).
-/
namespace Sys2Proof

/-- What an 8-bit operand field names (R179, R180). A count is in 32-bit lane registers or in group registers. -/
inductive Slot
  /-- Reserved: zero (R178). -/
  | zero
  /-- `n` consecutive lane registers, the first a multiple of `align` (R179, R269). -/
  | lane (n align : Nat)
  /-- A source: lane registers as `lane n n`, or a group register when its K bit is 1 (R180). -/
  | src (n : Nat)
  /-- The compare and new values of .cas: two operands of `n` lane registers, or g(B) and g(B + 1) (R275). -/
  | srcPair (n : Nat)
  /-- `n` consecutive group registers, named without a K bit (R180). -/
  | group (n : Nat)
  /-- A group register that is read, and the one after it only when the instruction needs it (R306, R312, R319). -/
  | groupNext
  /-- A group register whose K bit the entry fixes at 1 (R265, R289). -/
  | groupK
  /-- A lane register run whose K bit the entry fixes at 0 (R289). -/
  | laneK (n : Nat)
  /-- A lane predicate in bits [2:0]; [7:3] zero (R179). -/
  | pred
  /-- A group predicate in bits [2:0]; [7:3] zero (R179). -/
  | qpred
  /-- An index register in bits [1:0]; [7:2] zero (R179). -/
  | idx
  /-- An immediate whose bits outside `used` are zero and whose K bit is zero (R180). -/
  | imm (used : BitVec 8)
  /-- An accumulator tile (R179); alignment is checked with the region (R305). -/
  | tile
  /-- A special register number (R192). -/
  | sreg
deriving DecidableEq, Repr

/-- A register as the lookahead rule names it (R188): predicates and index registers count. -/
inductive Reg
  | v (n : Nat)
  | g (n : Nat)
  | p (n : Nat)
  | q (n : Nat)
  | x (n : Nat)
deriving DecidableEq, Repr

/-- Predicate 7 names no register (R191). -/
def Reg.named : Reg → Bool
  | .p n | .q n => n ≠ 7
  | .v _ | .g _ | .x _ => true

/-- Which operand X may index (R182). -/
inductive XUse | none | a | d
deriving DecidableEq, Repr

/-- One instruction's use of its fields. `bad` says that a field holds a value its entry reserves as a value
(0x02, R362), `rsv` that a field its entry reserves is not zero (0x03, R363). -/
structure Form where
  d : Slot
  a : Slot
  b : Slot
  c : Slot
  la : Bool
  xUse : XUse
  bad : Bool
  rsv : Bool
  extra : List Reg
deriving DecidableEq, Repr

/-- The fields of a one-word form, every field of word 1 zero (R178). -/
def Short.toLong (i : Short) : Long :=
  { g := i.g, d := i.d, a := i.a, f := i.f, b := 0, c := 0, la := 0, m := 0, ka := false, kb := false,
    kc := false, x := false, xi := 0, h := 0 }

/-- The fields of word 0 of an immediate-32 form (R177: word 1 holds none of the fields of R176). -/
def Imm.toLong (i : Imm) : Long :=
  Short.toLong { g := i.g, d := i.d, a := i.a, f := i.f }

/-- Lane registers of an operand of the integer type of code `m` (R184, R203). -/
def intRegs (m : BitVec 4) : Nat := if m = 2 ∨ m = 3 ∨ m = 9 then 2 else 1

/-- Lane registers of an operand of the floating-point type of code `m` (R184). -/
def fpRegs (m : BitVec 4) : Nat := if m = 0 then 2 else 1

/-- Whether an integer type code is one of the 32-bit and 64-bit types (R203). -/
def wideTypes (m : BitVec 4) : Bool := m ≤ 3 || m = 8 || m = 9

/-- Lane registers of an atomic operand (R275). -/
def atomRegs (ty : BitVec 3) : Nat := if ty = 2 ∨ ty = 3 ∨ ty = 5 ∨ ty = 7 then 2 else 1

/-- The allowed pairs of TYPE and OP (R275). -/
def atomPair (ty op : BitVec 3) : Bool :=
  if op ≤ 2 then ty ≤ 5 else 6 ≤ ty

/-- The TYPE and OP fields of a control byte (R267). -/
def ctlType (c : BitVec 8) : BitVec 3 := c.extractLsb' 3 3
def ctlOp (c : BitVec 8) : BitVec 3 := c.extractLsb' 0 3
/-- The ORD field of a control byte: 0 relaxed, 1 .acq, 2 .rel, 3 .ar (R267). -/
def ctlOrd (c : BitVec 8) : BitVec 2 := c.extractLsb' 6 2

/-- A control byte's qualifier is not one of those allowed, or its scope code is 12 to 15 (R150, R362). -/
def badOrder (c : BitVec 8) (m : BitVec 4) (acq rel ar : Bool) : Bool :=
  12 ≤ m || (ctlOrd c = 1 && !acq) || (ctlOrd c = 2 && !rel) || (ctlOrd c = 3 && !ar)

/-- The common shape: only the named slots are used, and F, M and H are reserved. -/
def plainForm (i : Long) (d a b c : Slot) : Form :=
  { d := d, a := a, b := b, c := c, la := false, xUse := .none, bad := false,
    rsv := i.f ≠ 0 || i.m ≠ 0 || i.h ≠ 0, extra := [] }

/-- A lane long form of chapters 07 and 08: M is checked by `mOk`, the F bits of `fRsv` are reserved, source A may
be indexed. -/
def laneForm (i : Long) (mOk : Bool) (fRsv : BitVec 3) (d a b c : Slot) : Form :=
  { d := d, a := a, b := b, c := c, la := false, xUse := .a, bad := !mOk,
    rsv := i.f &&& fRsv ≠ 0 || i.h ≠ 0, extra := [] }

/-- A group long form of R223. -/
def groupForm (i : Long) (mOk : Bool) (fRsv : BitVec 3) (d a b c : Slot) : Form :=
  { laneForm i mOk fRsv d a b c with xUse := .none }

/-- Shift forms (R208): the amount is source B, or the immediate C when F[0] is 1. -/
def shiftForm (i : Long) (group : Bool) : Form :=
  let n := intRegs i.m
  let imm := i.f.getLsbD 0
  if group then
    groupForm i (wideTypes i.m) 6 (.group 1) (.group 1) (if imm then .zero else .group 1)
      (if imm then .imm 0xFF else .zero)
  else
    laneForm i (i.m ≤ 9) 6 (.lane n n) (.src n) (if imm then .zero else .src 1)
      (if imm then .imm 0xFF else .zero)

/-- Bit-field forms (R211): pos and len are B and C, immediates when F[1] is 1. -/
def fieldForm (i : Long) (group : Bool) (fRsv : BitVec 3) : Form :=
  let n := intRegs i.m
  let imm := i.f.getLsbD 1
  if group then
    groupForm i (wideTypes i.m) fRsv (.group 1) (.group 1) (if imm then .imm 0xFF else .group 1)
      (if imm then .imm 0xFF else .group 1)
  else
    laneForm i (wideTypes i.m) fRsv (.lane n n) (.src n) (if imm then .imm 0xFF else .src 1)
      (if imm then .imm 0xFF else .src 1)

/-- Floating-point arithmetic (R242): F[1:0] the mode, F[2] the flush bit, reserved as a value with .f64. -/
def fpForm (i : Long) (fRsv : BitVec 3) (nsrc : Nat) (la : Bool) : Form :=
  let n := fpRegs i.m
  { laneForm i (i.m ≤ 3) fRsv (.lane n n) (.src n) (if 2 ≤ nsrc then .src n else .zero)
      (if 3 ≤ nsrc then .src n else .zero) with
    la := la, bad := !(i.m ≤ 3) || (i.f.getLsbD 2 && i.m = 0) }

/-- The transcendentals (R247). -/
def transForm (i : Long) (fRsv : BitVec 3) : Form :=
  let n := fpRegs i.m
  { laneForm i (i.m ≤ 1) fRsv (.lane n n) (.src n) .zero .zero with
    la := true, bad := !(i.m ≤ 1) || (i.f.getLsbD 2 && i.m = 0) }

/-- An MX element format code (R184). -/
def isMx (m : BitVec 4) : Bool := 5 ≤ m && m ≤ 10

/-- Whether `sel` is an element number of an operand of format `m` (R240). DESIGN CHOICE: where R250 does not give the cause, in f2i,
i2f and bnf, one that is none raises 0x03 (assumption log 75). -/
def selOk (m : BitVec 4) (sel : BitVec 2) : Bool :=
  if isMx m then true else if m = 2 || m = 3 then sel ≤ 1 else sel = 0

/-- Whether an operand of format `m` is narrow: a packed 16-bit or an MX element (R240). -/
def isNarrow (m : BitVec 4) : Bool := isMx m || m = 2 || m = 3

/-- fcvt (R250). -/
def fcvtForm (i : Long) : Form :=
  let dst := i.c.extractLsb' 0 4
  let sel := i.c.extractLsb' 5 2
  let selBad := (isNarrow i.m && !selOk i.m sel) || (isNarrow dst && !selOk dst sel) ||
    (!isNarrow i.m && !isNarrow dst && sel ≠ 0)
  { laneForm i true 0 (.lane (fpRegs dst) (fpRegs dst)) (.src (fpRegs i.m))
      (if i.f = 4 then .src 1 else .zero) (.imm 0x7F) with
    bad := !(i.m ≤ 10) || !(dst ≤ 10) || 5 ≤ i.f || selBad }

/-- lred and lscan (R261, R262): whether the operation `op` takes the type `m`. -/
def reduceOk (op : BitVec 8) (m : BitVec 4) : Bool :=
  if op ≤ 2 then m ≤ 3 else if op ≤ 5 then m = 8 || m = 9 else op ≤ 8 && m ≤ 1

/-- Lane registers of lred's operand: the M class is the operation's (R237). -/
def reduceRegs (op : BitVec 8) (m : BitVec 4) : Nat := if op ≤ 5 then intRegs m else fpRegs m

/-- Loads and stores of R269: `nd` lane registers of data by width code. -/
def widthRegs (f : BitVec 3) : Nat := if f = 5 then 2 else if f = 6 then 4 else 1

/-- The loads and stores on the lane pipe (R266, R271, R272). -/
def memForm (i : Long) (global load : Bool) : Form :=
  { d := .lane (widthRegs i.f) (widthRegs i.f), a := .src (if global then 2 else 1), b := .imm 0xFF, c := .imm 0xC0,
    la := load, xUse := .none,
    bad := i.f = 7 || (!load && (i.f = 1 || i.f = 3)) || badOrder i.c i.m load (!load) false ||
      (global && !load && i.h = 1),
    rsv := !global && i.h ≠ 0, extra := [] }

/-- Atomics and reductions (R266, R274, R275). -/
def atomForm (i : Long) (global returns : Bool) : Form :=
  let n := atomRegs (ctlType i.c)
  let op := ctlOp i.c
  { d := if returns then .lane n n else .zero, a := .src (if global then 2 else 1),
    b := if op = 7 then .srcPair n else .src n, c := .imm 0xFF, la := returns, xUse := .none,
    bad := !atomPair (ctlType i.c) op || (!returns && 6 ≤ op) || 12 ≤ i.m,
    rsv := i.f ≠ 0 || i.h ≠ 0, extra := [] }

/-- coll (R294): `form` is the F value its row has. coll.get is the returning coll of R150 (assumption log 67). -/
def collForm (i : Long) (form : BitVec 3) : Form :=
  let n := atomRegs (ctlType i.c)
  let pairBad := if form = 2 then !atomPair (ctlType i.c) (ctlOp i.c) || 6 ≤ ctlOp i.c
    else !(6 ≤ ctlType i.c) || ctlOp i.c ≠ 0
  { d := .lane n n, a := .src 2, b := .src 1, c := .imm 0xFF, la := form = 1, xUse := .none,
    bad := i.f ≠ form || pairBad || badOrder i.c i.m (form ≠ 0) true (form ≠ 0),
    rsv := i.h ≠ 0, extra := [] }

/-- gld and gst (R266, R267, R269). -/
def gmemForm (i : Long) (load : Bool) : Form :=
  let scr := i.c.getLsbD 0
  { d := .group 1, a := .group 1, b := .imm 0xFF, c := .imm 0xC1, la := load, xUse := .none,
    bad := 6 ≤ i.f || (!load && (i.f = 1 || i.f = 3)) || badOrder i.c i.m load (!load) false ||
      (!load && !scr && i.h = 1),
    rsv := scr && i.h ≠ 0, extra := [] }

/-- gbar (R279): which of gD and gB the function uses, and its qualifiers. -/
def gbarForm (i : Long) (fn : BitVec 3) (useD useB acq rel : Bool) : Form :=
  { d := if useD then .group 1 else .zero, a := .group 1, b := if useB then .group 1 else .zero, c := .imm 0xC0,
    la := false, xUse := .none, bad := i.f ≠ fn || badOrder i.c i.m acq rel false, rsv := i.h ≠ 0, extra := [] }

/-- cpya (R285): `nb` group registers from gB; M names the spaces in the .flat shape alone. -/
def cpyaForm (i : Long) (shape : BitVec 3) (nb : Nat) : Form :=
  { d := .group 1, a := .group 1, b := .group nb, c := .group 1, la := false, xUse := .none,
    bad := i.f.extractLsb' 0 2 ≠ shape.extractLsb' 0 2 || i.h = 1,
    rsv := i.f.getLsbD 2 || (if shape = 3 then 4 ≤ i.m else i.m ≠ 0), extra := [] }

/-- gcoll (R296). -/
def gcollForm (i : Long) (op : BitVec 3) : Form :=
  { plainForm i .zero (.group 1) .zero .zero with
    bad := i.f.extractLsb' 0 2 ≠ op.extractLsb' 0 2, rsv := i.f.getLsbD 2 || i.m ≠ 0 || i.h ≠ 0 }

/-- The pairs of A and B formats that may be multiplied (R302). -/
def mmaPair (a b : BitVec 4) : Bool :=
  (5 ≤ a && a ≤ 9 && 5 ≤ b && b ≤ 9) || (a = b && (a = 10 || a = 2 || a = 3 || a = 4 || a = 0))

/-- mma and mma.sp (R302, R312). The A registers are counted at issue (R306); a binary64 A is even. -/
def mmaForm (i : Long) (sparse : Bool) : Form :=
  { d := .tile, a := .lane 0 (if i.m = 0 then 2 else 1), b := if sparse then .groupNext else .group 1, c := .imm 0x1F,
    la := false, xUse := .none,
    bad := !mmaPair i.m (i.c.extractLsb' 0 4) || (sparse && (i.m = 0 || i.m = 4)) || 2 ≤ i.h,
    rsv := i.f.getLsbD 2 || (i.m = 0 && i.c.getLsbD 4), extra := [] }

/-- Registers of a dense A fragment of format `m` (R302): element registers and scale register. -/
def denseRegs (m : BitVec 4) : Nat :=
  if m = 5 || m = 6 || m = 10 then 9 else if m = 7 || m = 8 then 7 else if m = 9 then 5 else 16

/-- M for a code MC of R307; 0 for the invalid code 3. -/
def groupOf (mc : BitVec 2) : Nat := if mc = 0 then 4 else if mc = 1 then 8 else if mc = 2 then 16 else 0

/-- log2 of M (R308). -/
def idxBits (mc : BitVec 2) : Nat := if mc = 0 then 2 else if mc = 1 then 3 else 4

/-- Bits per element of a format (R126, R184). -/
def fmtBits (m : BitVec 4) : Nat :=
  if m = 0 then 64 else if m = 1 || m = 4 then 32 else if m = 2 || m = 3 then 16
  else if m = 7 || m = 8 then 6 else if m = 9 then 4 else 8

/-- Registers P + Q + s of a packed fragment (R306, R308) with N and MC, KEPT taken as 32 N / M. -/
def packedRegs (m : BitVec 4) (n : Nat) (mc : BitVec 2) : Nat :=
  let kept := 32 * n / groupOf mc
  (kept * fmtBits m + 31) / 32 + (kept * idxBits mc + 31) / 32 + (if isMx m then 1 else 0)

/-- Whether N and MC are values prune takes (R311, R373). -/
def pruneArgsOk (m : BitVec 4) (n : Nat) (mc : BitVec 2) : Bool :=
  mc ≠ 3 && 1 ≤ n && n ≤ groupOf mc && (m = 2 || m = 3 || isMx m)

/-- prune and prune.t (R311); an N, MC or format outside R311 raises 0x19 at issue, not here (R373).
DESIGN CHOICE: with such operands one register each of D and A counts for the budget (assumption log 75). -/
def pruneForm (i : Long) (t : Bool) : Form :=
  let n := (i.c.extractLsb' 0 5).toNat
  let mc := i.c.extractLsb' 5 2
  let ok := pruneArgsOk i.m n mc
  { d := .lane (if ok then packedRegs i.m n mc else 1) 1, a := .lane (if ok then denseRegs i.m else 1) 1, b := .group 1,
    c := .imm 0x7F, la := false, xUse := .none, bad := i.f.getLsbD 0 ≠ t || i.m = 1 || 11 ≤ i.m,
    rsv := i.f.getLsbD 1 || i.f.getLsbD 2 || i.h ≠ 0, extra := [] }

/-- The memory formats of acc by function and kind (R319); kind 0 FP32, 1 FP40, 2 binary64. -/
def accFmtOk (fn : BitVec 3) (kind fmt : BitVec 4) : Bool :=
  if fn = 1 then
    if kind = 0 then fmt = 1 else if kind = 1 then fmt = 1 || fmt = 14 else fmt = 0
  else if fn = 2 then
    if kind = 0 then fmt ≤ 10 else if kind = 1 then fmt ≤ 10 || fmt = 14 else fmt ≤ 1
  else if kind = 2 then fmt = 0 else fmt = 1

/-- acc (R319): `fn` is 0 .zero, 1 .ld, 2 .st, 3 .add. -/
def accForm (i : Long) (fn : BitVec 3) : Form :=
  let kind := i.m &&& 3
  let fmt := i.c.extractLsb' 0 4
  let mode := i.c.extractLsb' 4 3
  let mem := fn ≠ 0
  { d := .tile, a := if mem then .group 1 else .zero,
    b := if fn = 2 then .group 2 else if mem then .groupNext else .zero,
    c := if fn = 0 then .zero else if fn = 1 then .imm 0x0F else if fn = 2 then .imm 0xFF else .imm 0x7F,
    la := false, xUse := .none,
    bad := i.f.extractLsb' 0 2 ≠ fn.extractLsb' 0 2 || kind = 3 || (mem && !accFmtOk fn kind fmt) ||
      (fn = 2 && 5 ≤ mode) || (fn = 3 && 4 ≤ mode),
    rsv := i.f.getLsbD 2 || i.m.getLsbD 3 || (fn = 0 && i.m.getLsbD 2) || i.h ≠ 0, extra := [] }

/-- The lane condition of br and exit (R229). -/
def condForm (i : Long) : Form :=
  let c := i.f.getLsbD 0
  { plainForm i .zero (if c then .pred else .zero) .zero .zero with
    rsv := i.f.getLsbD 2 || (!c && i.f.getLsbD 1) }

/-- Special registers of 64 bits (R192, R222): DEVCLK, CTXCLK, TIMER, SRSEED, TRAPPC. -/
def sregWide (n : BitVec 8) : Bool := n = 11 || n = 12 || n = 13 || n = 14 || n = 17

/-- A lane immediate-32 form with a 32-bit or 64-bit result (R219). -/
def immForm (i : Imm) (useA : Bool) : Form :=
  let n := if i.f.getLsbD 0 then 2 else 1
  { plainForm i.toLong (.lane n n) (if useA then .lane n n else .zero) .zero .zero with
    rsv := i.f &&& 6 ≠ 0 }

/-- The fields of a fetched instruction, on which pipe it issues, and their use; `none` for the rows that are not
fetched from memory. DESIGN CHOICE: F[0] of setxi, for which R219 gives no form, is a field that it does not use, so 1 raises 0x03
(assumption log 75). -/
def Instr.form : Instr → Option (Bool × Long × Form)
  | .nop i => some (true, i.toLong, plainForm i.toLong .zero .zero .zero .zero)
  | .iadd i | .isub i => some (true, i, laneForm i (i.m ≤ 7) 6 (.lane (intRegs i.m) (intRegs i.m)) (.src (intRegs i.m)) (.src (intRegs i.m)) .zero)
  | .imul i => some (true, i, laneForm i (i.m ≤ 5) 7 (.lane (intRegs i.m) (intRegs i.m)) (.src (intRegs i.m)) (.src (intRegs i.m)) .zero)
  | .imad i => some (true, i, laneForm i (i.m ≤ 3) 7 (.lane (intRegs i.m) (intRegs i.m)) (.src (intRegs i.m)) (.src (intRegs i.m)) (.src (intRegs i.m)))
  | .imulhi i => some (true, i, laneForm i (i.m ≤ 3) 7 (.lane (intRegs i.m) (intRegs i.m)) (.src (intRegs i.m)) (.src (intRegs i.m)) .zero)
  | .imin i | .imax i => some (true, i, laneForm i (i.m ≤ 7) 7 (.lane (intRegs i.m) (intRegs i.m)) (.src (intRegs i.m)) (.src (intRegs i.m)) .zero)
  | .iabs i => some (true, i, laneForm i (i.m = 0 || i.m = 2 || i.m = 4 || i.m = 6) 6 (.lane (intRegs i.m) (intRegs i.m)) (.src (intRegs i.m)) .zero .zero)
  | .and i | .or i | .xor i | .andn i => some (true, i, laneForm i (i.m ≤ 9) 7 (.lane (intRegs i.m) (intRegs i.m)) (.src (intRegs i.m)) (.src (intRegs i.m)) .zero)
  | .shl i | .shr i | .sar i => some (true, i, shiftForm i false)
  | .fsh i => some (true, i, laneForm i (i.m = 8) 0 (.lane 1 1) (.src 1) (.src 1) (if i.f.getLsbD 1 then .imm 0xFF else .src 1))
  | .popc i | .clz i | .ctz i => some (true, i, laneForm i (wideTypes i.m) 7 (.lane 1 1) (.src (intRegs i.m)) .zero .zero)
  | .brev i => some (true, i, laneForm i (wideTypes i.m) 7 (.lane (intRegs i.m) (intRegs i.m)) (.src (intRegs i.m)) .zero .zero)
  | .bfx i => some (true, i, fieldForm i false 4)
  | .bfi i => some (true, i, fieldForm i false 5)
  | .perm i => some (true, i, laneForm i (i.m = 8) 7 (.lane 1 1) (.src 1) (.src 1) (.src 1))
  | .lea i => some (true, i, laneForm i (i.m ≤ 1) 0 (.lane 2 2) (.src 2) (.src 1) .zero)
  | .icmp i => some (true, i, laneForm i (wideTypes i.m && i.f ≠ 7) 0 .pred (.src (intRegs i.m)) (.src (intRegs i.m)) .zero)
  | .sel i => some (true, i, laneForm i (wideTypes i.m) 7 (.lane (intRegs i.m) (intRegs i.m)) (.src (intRegs i.m)) (.src (intRegs i.m)) .pred)
  | .mov i =>
    some (true, i, { laneForm i (wideTypes i.m && (i.x || !i.f.getLsbD 0)) 6 (.lane (intRegs i.m) (intRegs i.m)) (.src (intRegs i.m)) .zero .zero with
      xUse := if i.f.getLsbD 0 then .d else .a })
  | .icvt i => some (true, i, laneForm i (i.m ≤ 3 && i.c ≤ 3) 6 (.lane (intRegs (i.c.extractLsb' 0 4)) (intRegs (i.c.extractLsb' 0 4))) (.src (intRegs i.m)) .zero (.imm 0xFF))
  | .plop i => some (true, i, { plainForm i .pred .pred .pred (.imm 0xFF) with rsv := i.m ≠ 0 || i.h ≠ 0, extra := [.p i.f.toNat] })
  | .setx i => some (true, i, { plainForm i .idx (.src 1) .zero .zero with xUse := .a, rsv := i.f &&& 6 ≠ 0 || i.m ≠ 0 || i.h ≠ 0 })
  | .addx i =>
    some (true, i, { plainForm i .idx .idx (if i.f.getLsbD 0 then .zero else .src 1) (if i.f.getLsbD 0 then .imm 0xFF else .zero) with
      rsv := i.f &&& 6 ≠ 0 || i.m ≠ 0 || i.h ≠ 0 })
  | .movi i => some (true, i.toLong, immForm i false)
  | .iaddi i | .imuli i | .iandi i | .iori i | .ixori i => some (true, i.toLong, immForm i true)
  | .icmpi i => some (true, i.toLong, { plainForm i.toLong .pred (.lane 1 1) .zero .zero with bad := i.f = 7, rsv := false })
  | .setxi i => some (true, i.toLong, { plainForm i.toLong .idx .zero .zero .zero with rsv := i.f ≠ 0 || i.imm.extractLsb' 16 16 ≠ 0 })
  | .fadd i | .fsub i | .fmul i => some (true, i, fpForm i 0 2 false)
  | .ffma i => some (true, i, fpForm i 0 3 false)
  | .fdiv i => some (true, i, fpForm i 0 2 true)
  | .fsqrt i => some (true, i, fpForm i 0 1 true)
  | .fmin i | .fmax i => some (true, i, fpForm i 2 2 false)
  | .fsgn i =>
    some (true, i, laneForm i (i.m ≤ 3 && i.f.extractLsb' 0 2 ≠ 3) 4 (.lane (fpRegs i.m) (fpRegs i.m)) (.src (fpRegs i.m)) (.src (fpRegs i.m)) .zero)
  | .fcmp i =>
    some (true, i, laneForm i ((i.m = 0 || i.m = 1 || i.m = 4) && !(i.f.getLsbD 2 && i.m = 0)) 0 .pred (.src (fpRegs i.m)) (.src (fpRegs i.m)) (.imm 7))
  | .frcp i => some (true, i, transForm i 0)
  | .frsq i | .fexp2 i | .flog2 i | .fsin i | .fcos i => some (true, i, transForm i 3)
  | .fclass i => some (true, i, laneForm i (i.m ≤ 4) 7 (.lane 1 1) (.src (fpRegs i.m)) .zero .zero)
  | .fcvt i => some (true, i, fcvtForm i)
  | .f2i i =>
    let dst := i.c.extractLsb' 0 4
    some (true, i, { laneForm i (i.m ≤ 3 && dst ≤ 3) 4 (.lane (intRegs dst) (intRegs dst)) (.src (fpRegs i.m)) .zero (.imm 0x3F) with
      rsv := i.f &&& 4 ≠ 0 || i.h ≠ 0 || !selOk i.m (i.c.extractLsb' 4 2) })
  | .i2f i =>
    let dst := i.c.extractLsb' 0 4
    some (true, i, { laneForm i (i.m ≤ 3 && dst ≤ 3) 4 (.lane (fpRegs dst) (fpRegs dst)) (.src (intRegs i.m)) .zero (.imm 0x3F) with
      rsv := i.f &&& 4 ≠ 0 || i.h ≠ 0 || !selOk dst (i.c.extractLsb' 4 2) })
  | .frnd i => some (true, i, fpForm i 0 1 false)
  | .bmax i => some (true, i, laneForm i (i.m ≤ 1) 7 (.group 1) (.src (fpRegs i.m)) .zero .zero)
  | .bscale i => some (true, i, laneForm i (i.m ≤ 1 && isMx (i.c.extractLsb' 0 4)) 6 (.group 1) (.src (fpRegs i.m)) .zero (.imm 0x0F))
  | .bquant i =>
    some (true, i, { laneForm i (isMx i.m && i.f ≤ 4) 0 (.lane 1 1) (.src (if i.c.getLsbD 0 then 2 else 1)) (.src 1) (.imm 0x3F) with
      extra := [.p (i.c.extractLsb' 3 3).toNat] })
  | .bdequant i =>
    let n := if i.c.getLsbD 0 then 2 else 1
    some (true, i, laneForm i (isMx i.m) 7 (.lane n n) (.src 1) (.src 1) (.imm 7))
  | .bnf i =>
    some (true, i, { laneForm i (i.m ≤ 10) 7 .qpred (.src (fpRegs i.m)) (if isMx i.m then .src 1 else .zero) (.imm 3) with
      rsv := i.f ≠ 0 || i.h ≠ 0 || !selOk i.m (i.c.extractLsb' 0 2) })
  | .unpk i =>
    some (true, i, { plainForm i (.lane (i.f.toNat + 1) 1) .groupK .zero .qpred with la := true, rsv := i.m ≠ 0 || i.h ≠ 0 })
  | .lxch i =>
    let n := intRegs i.m
    let rev := i.f.extractLsb' 0 2 = 2
    some (true, i, { laneForm i ((i.m = 8 || i.m = 9) && i.c.extractLsb' 0 3 ≤ 5) 0 (.lane n n) (.src n)
        (if rev then .zero else if i.f.getLsbD 2 then .imm 0xFF else .src 1) (.imm 7) with
      rsv := i.h ≠ 0 || (decide rev && i.f.getLsbD 2) })
  | .lpred i =>
    some (true, i, { plainForm i (if i.f.extractLsb' 0 2 = 2 then .group 1 else .qpred) .pred .zero .zero with
      bad := i.f.extractLsb' 0 2 = 3, rsv := i.m ≠ 0 || i.h ≠ 0 })
  | .lred i =>
    some (true, i, { laneForm i (reduceOk i.c i.m) 0 (.group 1) (.src (reduceRegs i.c i.m)) .zero (.imm 0xFF) with
      rsv := i.h ≠ 0 || (if i.c = 6 then i.f.getLsbD 2 else i.f ≠ 0) })
  | .lscan i =>
    some (true, i, laneForm i (i.c ≤ 5 && reduceOk i.c i.m) 6 (.lane (intRegs i.m) (intRegs i.m)) (.src (intRegs i.m)) .zero (.imm 0xFF))
  | .ld i => some (true, i, memForm i true true)
  | .st i => some (true, i, memForm i true false)
  | .lds i => some (true, i, memForm i false true)
  | .sts i => some (true, i, memForm i false false)
  | .stm i =>
    let scr := i.f.getLsbD 0
    some (true, i, { plainForm i (.lane 2 2) (.src (if scr then 1 else 2)) (.src 1) (.imm 0xC0) with
      bad := badOrder i.c i.m false true false || (!scr && i.h = 1), rsv := i.f &&& 6 ≠ 0 || (scr && i.h ≠ 0) })
  | .atom i => some (true, i, atomForm i true true)
  | .atoms i => some (true, i, atomForm i false true)
  | .red i => some (true, i, atomForm i true false)
  | .reds i => some (true, i, atomForm i false false)
  | .gath i =>
    let n := if i.f.getLsbD 0 then 2 else 1
    some (true, i, { plainForm i (.lane n n) .groupK (.laneK 3) .pred with la := true, rsv := i.f &&& 6 ≠ 0 || i.m ≠ 0 })
  | .spawn i => some (true, i, plainForm i .pred (.src 2) (.src 1) (.src 1))
  | .done i => some (true, i.toLong, plainForm i.toLong .zero .zero .zero .zero)
  | .collPut i => some (true, i, collForm i 0)
  | .collGet i => some (true, i, collForm i 1)
  | .collRed i => some (true, i, collForm i 2)
  | .lsr i =>
    let n := if sregWide i.a then 2 else 1
    some (true, i.toLong, plainForm i.toLong (.lane n n) .sreg .zero .zero)
  | .gnop i => some (false, i.toLong, plainForm i.toLong .zero .zero .zero .zero)
  | .gadd i | .gsub i => some (false, i, groupForm i (wideTypes i.m) 6 (.group 1) (.group 1) (.group 1) .zero)
  | .gmul i | .gmin i | .gmax i | .gand i | .gor i | .gxor i => some (false, i, groupForm i (wideTypes i.m) 7 (.group 1) (.group 1) (.group 1) .zero)
  | .gmad i => some (false, i, groupForm i (wideTypes i.m) 7 (.group 1) (.group 1) (.group 1) (.group 1))
  | .gshl i | .gshr i | .gsar i => some (false, i, shiftForm i true)
  | .gpopc i | .gclz i => some (false, i, groupForm i (wideTypes i.m) 7 (.group 1) (.group 1) .zero .zero)
  | .gbfx i => some (false, i, fieldForm i true 4)
  | .gbfi i => some (false, i, fieldForm i true 5)
  | .gcmp i => some (false, i, groupForm i (wideTypes i.m && i.f ≠ 7) 0 .qpred (.group 1) (.group 1) .zero)
  | .gsel i => some (false, i, plainForm i (.group 1) (.group 1) (.group 1) .qpred)
  | .gmov i => some (false, i, groupForm i (i.m = 8 || i.m = 9) 7 (.group 1) (.group 1) .zero .zero)
  | .gplop i => some (false, i, { plainForm i .qpred .qpred .qpred (.imm 0xFF) with rsv := i.m ≠ 0 || i.h ≠ 0, extra := [.q i.f.toNat] })
  | .gsr i => some (false, i.toLong, plainForm i.toLong (.group 1) .sreg .zero .zero)
  | .gsw i => some (false, i.toLong, plainForm i.toLong .sreg (.group 1) .zero .zero)
  | .gmovi i => some (false, i.toLong, { plainForm i.toLong (.group 1) .zero .zero .zero with rsv := i.f &&& 6 ≠ 0 })
  | .gaddi i | .gandi i => some (false, i.toLong, plainForm i.toLong (.group 1) (.group 1) .zero .zero)
  | .gcmpi i => some (false, i.toLong, { plainForm i.toLong .qpred (.group 1) .zero .zero with bad := i.f = 7, rsv := false })
  | .br i => some (false, i.toLong, condForm i.toLong)
  | .brx i | .ret i => some (false, i.toLong, plainForm i.toLong .zero (.lane 2 2) .zero .zero)
  | .call i => some (false, i.toLong, plainForm i.toLong (.lane 2 2) .zero .zero .zero)
  | .join i => some (false, i.toLong, plainForm i.toLong .zero .zero .zero .zero)
  | .exit i => some (false, i.toLong, condForm i.toLong)
  | .trap i => some (false, i.toLong, plainForm i.toLong .zero (.imm 0xFF) .zero .zero)
  | .gld i => some (false, i, gmemForm i true)
  | .gst i => some (false, i, gmemForm i false)
  | .gbarInit i => some (false, i, gbarForm i 0 false true false false)
  | .gbarArrive i => some (false, i, gbarForm i 1 true false false true)
  | .gbarExpect i => some (false, i, gbarForm i 2 true true false true)
  | .gbarExpa i => some (false, i, gbarForm i 3 true true false true)
  | .gbarWait i => some (false, i, gbarForm i 4 false true true false)
  | .gbarTry i => some (false, i, gbarForm i 5 true true true false)
  | .fence i =>
    some (false, i.toLong, { plainForm i.toLong .zero (.imm 0x0F) .zero .zero with bad := 12 ≤ i.a.extractLsb' 0 4 })
  | .drain i => some (false, i, { plainForm i .zero .zero .zero .zero with bad := i.f.extractLsb' 0 2 = 3, rsv := i.f.getLsbD 2 || i.m ≠ 0 || i.h ≠ 0 })
  | .cpyaB2t i => some (false, i, cpyaForm i 0 2)
  | .cpyaT2b i => some (false, i, cpyaForm i 1 2)
  | .cpyaB2b i => some (false, i, cpyaForm i 2 4)
  | .cpyaFlat i => some (false, i, cpyaForm i 3 1)
  | .dinv i => some (false, i, { plainForm i .zero (.group 1) .zero .zero with bad := i.f.getLsbD 0 })
  | .dinvAll i => some (false, i, { plainForm i .zero .zero .zero .zero with bad := !i.f.getLsbD 0, rsv := i.f &&& 6 ≠ 0 || i.m ≠ 0 || i.h ≠ 0 })
  | .pub i => some (false, i, { plainForm i (.group 1) (.group 1) .zero .zero with la := true })
  | .gcollAr i => some (false, i, gcollForm i 0)
  | .gcollRs i => some (false, i, gcollForm i 1)
  | .gcollAg i => some (false, i, gcollForm i 2)
  | .conv i =>
    some (false, i, { plainForm i (.group 1) .zero .zero (.imm 0x0F) with bad := i.f.extractLsb' 0 2 = 3, rsv := i.f.getLsbD 2 || i.m ≠ 0 || i.h ≠ 0 })
  | .convDis i =>
    some (false, i, { plainForm i .zero .zero .zero .zero with bad := i.f.extractLsb' 0 2 ≠ 3, rsv := i.f.getLsbD 2 || i.m ≠ 0 || i.h ≠ 0 })
  | .mma i => some (false, i, mmaForm i false)
  | .mmaSp i => some (false, i, mmaForm i true)
  | .prune i => some (false, i, pruneForm i false)
  | .pruneT i => some (false, i, pruneForm i true)
  | .accZero i => some (false, i, accForm i 0)
  | .accLd i => some (false, i, accForm i 1)
  | .accSt i => some (false, i, accForm i 2)
  | .accAdd i => some (false, i, accForm i 3)
  | .mcommit i => some (false, i.toLong, plainForm i.toLong (.group 1) .zero .zero .zero)
  | .mwait i => some (false, i.toLong, plainForm i.toLong .zero (.group 1) .zero .zero)
  | _ => none

/-- A slot's field holds a value that R179 or its entry reserves as a value: cause 0x02 (R362). -/
def Slot.bad (s : Slot) (n : BitVec 8) (k : Bool) : Bool :=
  match s with
  | .zero | .pred | .qpred | .idx => false
  | .lane _ al => n.toNat % (max al 1) ≠ 0
  | .src c => if k then 64 ≤ n else n.toNat % c ≠ 0
  | .srcPair c => if k then 63 ≤ n else n.toNat % c ≠ 0
  | .group c => 64 < n.toNat + c
  | .groupNext => 63 ≤ n
  | .groupK => !k || 64 ≤ n
  | .laneK _ => k
  | .imm _ => k
  | .tile => 32 ≤ n
  | .sreg => 19 ≤ n

/-- A slot's field is reserved and not zero: cause 0x03 (R363). -/
def Slot.rsv (s : Slot) (n : BitVec 8) (k : Bool) : Bool :=
  match s with
  | .zero => n ≠ 0 || k
  | .pred | .qpred => n.extractLsb' 3 5 ≠ 0 || k
  | .idx => n.extractLsb' 2 6 ≠ 0 || k
  | .imm used => n &&& ~~~used ≠ 0
  | .src _ | .srcPair _ | .groupK | .laneK _ => false
  | .lane _ _ | .group _ | .groupNext | .tile | .sreg => k

/-- X on an instruction that does not take it, or with KA = 1 (R182, R362). -/
def xBad (i : Long) (u : XUse) : Bool := i.x && (u = .none || i.ka)

/-- The cause an instruction's encoding raises: 0x02 by R362, else 0x03 by R363, else none. -/
def Instr.encodingCause (i : Instr) : Option (BitVec 8) :=
  match i.form with
  | none => none
  | some (_, f, fm) =>
    if (f.g.pred = 7 && f.g.neg) || fm.bad || xBad f fm.xUse || fm.d.bad f.d false || fm.a.bad f.a f.ka ||
        fm.b.bad f.b f.kb || fm.c.bad f.c f.kc then some 0x02
    else if fm.rsv || (!fm.la && f.la ≠ 0) || (!f.x && f.xi ≠ 0) || fm.d.rsv f.d false || fm.a.rsv f.a f.ka ||
        fm.b.rsv f.b f.kb || fm.c.rsv f.c f.kc then some 0x03
    else none

/-- gsr of LANEID, and gsw to a register that takes no write (R192, R362): cause 0x02 beside the encoding's own. -/
def Instr.sregBad : Instr → Bool
  | .gsr i => i.a = 0
  | .gsw i => i.d ≠ 13 && i.d ≠ 17
  | _ => false

/-- The lane registers of a slot. -/
def Slot.regs (sl : Slot) (n : Nat) (k : Bool) : List Reg :=
  match sl with
  | .zero | .imm _ | .tile | .sreg => []
  | .lane c _ | .laneK c => (List.range c).map fun i => .v (n + i)
  | .src c => if k then [.g n] else (List.range c).map fun i => .v (n + i)
  | .srcPair c => if k then [.g n, .g (n + 1)] else (List.range (2 * c)).map fun i => .v (n + i)
  | .group c => (List.range c).map fun i => .g (n + i)
  | .groupK | .groupNext => [.g n]
  | .pred => [.p (n % 8)]
  | .qpred => [.q (n % 8)]
  | .idx => [.x (n % 4)]

/-- The width in lane registers of a slot's operand. -/
def Slot.count : Slot → Nat
  | .lane c _ | .laneK c | .src c => c
  | _ => 1

/-- The length in bytes of an instruction of one word or two (R177). -/
def Instr.oneWord : Instr → Bool
  | .nop _ | .lsr _ | .done _ | .gnop _ | .gsr _ | .gsw _ | .brx _ | .ret _ | .exit _ | .trap _ | .fence _
  | .mcommit _ | .mwait _ => true
  | _ => false
def Instr.length (i : Instr) : Nat := if i.oneWord then 4 else 8

end Sys2Proof
end

