-- ==== Sys2Proof/WellFormed.lean ====
section
/-!
DEFINITION. Which instructions are well formed: those that no encoding check refuses (R362, R363), and for stream
commands those whose reserved fields are zero (R82, R387).
-/
namespace Sys2Proof

/-- F holds the value that selects the constructor, where one OP has several forms (07_isa_group_integer.md,
09_isa_memory.md, 10_matrix.md). -/
def Instr.selects : Instr → Bool
  | .collPut i => (i.f.extractLsb' 0 3).toNat = 0
  | .collGet i => (i.f.extractLsb' 0 3).toNat = 1
  | .collRed i => (i.f.extractLsb' 0 3).toNat = 2
  | .gbarInit i => (i.f.extractLsb' 0 3).toNat = 0
  | .gbarArrive i => (i.f.extractLsb' 0 3).toNat = 1
  | .gbarExpect i => (i.f.extractLsb' 0 3).toNat = 2
  | .gbarExpa i => (i.f.extractLsb' 0 3).toNat = 3
  | .gbarWait i => (i.f.extractLsb' 0 3).toNat = 4
  | .gbarTry i => (i.f.extractLsb' 0 3).toNat = 5
  | .cpyaB2t i => (i.f.extractLsb' 0 2).toNat = 0
  | .cpyaT2b i => (i.f.extractLsb' 0 2).toNat = 1
  | .cpyaB2b i => (i.f.extractLsb' 0 2).toNat = 2
  | .cpyaFlat i => (i.f.extractLsb' 0 2).toNat = 3
  | .dinv i => (i.f.extractLsb' 0 1).toNat = 0
  | .dinvAll i => (i.f.extractLsb' 0 1).toNat = 1
  | .gcollAr i => (i.f.extractLsb' 0 2).toNat = 0
  | .gcollRs i => (i.f.extractLsb' 0 2).toNat = 1
  | .gcollAg i => (i.f.extractLsb' 0 2).toNat = 2
  | .conv i => (i.f.extractLsb' 0 2).toNat = 0 || (i.f.extractLsb' 0 2).toNat = 1 || (i.f.extractLsb' 0 2).toNat = 2
  | .convDis i => (i.f.extractLsb' 0 2).toNat = 3
  | .prune i => (i.f.extractLsb' 0 1).toNat = 0
  | .pruneT i => (i.f.extractLsb' 0 1).toNat = 1
  | .accZero i => (i.f.extractLsb' 0 2).toNat = 0
  | .accLd i => (i.f.extractLsb' 0 2).toNat = 1
  | .accSt i => (i.f.extractLsb' 0 2).toNat = 2
  | .accAdd i => (i.f.extractLsb' 0 2).toNat = 3
  | _ => true

/-- A fetched instruction is well formed when it is what its OP and F name and its encoding raises neither 0x02 nor 0x03. -/
def Instr.wellFormed (i : Instr) : Bool := i.selects && i.form.isSome && i.encodingCause = none

/-- A command's RSV fields are zero and its SUB is one its row in R83 gives. -/
def Command.wellFormed (c : Command) (subs : Nat) : Bool := c.rsv = 0 && c.sub.toNat < subs

end Sys2Proof
end

