-- ==== Sys2Proof/Decode.lean ====
section
/-!
DEFINITION. The decoder and the encoder of fetched instructions (R174 to R178, R193, R194, 06_encoding.md), of stream
commands (R82, R83, 03_execution.md) and of register writes to BAR 0 (R435, R436, 17_platform.md). Decoding is total:
words that are no instruction decode to `undefinedEncoding` with the cause that R362 or R363 gives them.
-/
namespace Sys2Proof

/-- What an instruction's words hold beside P, L and OP, by its length class (R177). -/
inductive Words
  | one (i : Short)
  | imm (i : Imm)
  | long (i : Long)
deriving DecidableEq, Repr

/-- The guard fields of word 0 (R175). -/
def guardOf (w : Word) : Guard := { pred := w.extractLsb' 20 3, neg := w.getLsbD 19 }

def shortOf (w : Word) : Short :=
  { g := guardOf w, d := w.extractLsb' 11 8, a := w.extractLsb' 3 8, f := w.extractLsb' 0 3 }

def immOf (w v : Word) : Imm :=
  { g := guardOf w, d := w.extractLsb' 11 8, a := w.extractLsb' 3 8, f := w.extractLsb' 0 3, imm := v }

/-- Word 1 of a long form (R176). -/
def longOf (w v : Word) : Long :=
  { g := guardOf w, d := w.extractLsb' 11 8, a := w.extractLsb' 3 8, f := w.extractLsb' 0 3,
    b := v.extractLsb' 24 8, c := v.extractLsb' 16 8, la := v.extractLsb' 12 4, m := v.extractLsb' 8 4,
    ka := v.getLsbD 7, kb := v.getLsbD 6, kc := v.getLsbD 5, x := v.getLsbD 4, xi := v.extractLsb' 2 2,
    h := v.extractLsb' 0 2 }

/-- The one-word forms of R177 by pipe and OP (R193, R194). -/
def buildOne (p : Bool) (op : Nat) (i : Short) : Option Instr :=
  match p, op with
  | false, 0x00 => some (.nop i)
  | false, 0x5B => some (.done i)
  | false, 0x5D => some (.lsr i)
  | true, 0x00 => some (.gnop i)
  | true, 0x15 => some (.gsr i)
  | true, 0x16 => some (.gsw i)
  | true, 0x21 => some (.brx i)
  | true, 0x23 => some (.ret i)
  | true, 0x25 => some (.exit i)
  | true, 0x26 => some (.trap i)
  | true, 0x2B => some (.fence i)
  | true, 0x36 => some (.mcommit i)
  | true, 0x37 => some (.mwait i)
  | _, _ => none

/-- The immediate-32 forms of R177. -/
def buildImm (p : Bool) (op : Nat) (i : Imm) : Option Instr :=
  match p, op with
  | false, 0x20 => some (.movi i)
  | false, 0x21 => some (.iaddi i)
  | false, 0x22 => some (.imuli i)
  | false, 0x23 => some (.iandi i)
  | false, 0x24 => some (.iori i)
  | false, 0x25 => some (.ixori i)
  | false, 0x26 => some (.icmpi i)
  | false, 0x27 => some (.setxi i)
  | true, 0x18 => some (.gmovi i)
  | true, 0x19 => some (.gaddi i)
  | true, 0x1A => some (.gandi i)
  | true, 0x1B => some (.gcmpi i)
  | true, 0x20 => some (.br i)
  | true, 0x22 => some (.call i)
  | true, 0x24 => some (.join i)
  | _, _ => none

/-- The forms that F selects under one OP. -/
def buildColl (i : Long) : Option Instr :=
  match (i.f.extractLsb' 0 3).toNat with
  | 0 => some (.collPut i)
  | 1 => some (.collGet i)
  | 2 => some (.collRed i)
  | _ => none

/-- The forms that F selects under one OP. -/
def buildGbar (i : Long) : Option Instr :=
  match (i.f.extractLsb' 0 3).toNat with
  | 0 => some (.gbarInit i)
  | 1 => some (.gbarArrive i)
  | 2 => some (.gbarExpect i)
  | 3 => some (.gbarExpa i)
  | 4 => some (.gbarWait i)
  | 5 => some (.gbarTry i)
  | _ => none

/-- The forms that F selects under one OP. -/
def buildCpya (i : Long) : Option Instr :=
  match (i.f.extractLsb' 0 2).toNat with
  | 0 => some (.cpyaB2t i)
  | 1 => some (.cpyaT2b i)
  | 2 => some (.cpyaB2b i)
  | 3 => some (.cpyaFlat i)
  | _ => none

/-- The forms that F selects under one OP. -/
def buildDinv (i : Long) : Option Instr :=
  match (i.f.extractLsb' 0 1).toNat with
  | 0 => some (.dinv i)
  | 1 => some (.dinvAll i)
  | _ => none

/-- The forms that F selects under one OP. -/
def buildGcoll (i : Long) : Option Instr :=
  match (i.f.extractLsb' 0 2).toNat with
  | 0 => some (.gcollAr i)
  | 1 => some (.gcollRs i)
  | 2 => some (.gcollAg i)
  | _ => none

/-- The forms that F selects under one OP. -/
def buildConv (i : Long) : Option Instr :=
  match (i.f.extractLsb' 0 2).toNat with
  | 0 => some (.conv i)
  | 1 => some (.conv i)
  | 2 => some (.conv i)
  | 3 => some (.convDis i)
  | _ => none

/-- The forms that F selects under one OP. -/
def buildPrune (i : Long) : Option Instr :=
  match (i.f.extractLsb' 0 1).toNat with
  | 0 => some (.prune i)
  | 1 => some (.pruneT i)
  | _ => none

/-- The forms that F selects under one OP. -/
def buildAcc (i : Long) : Option Instr :=
  match (i.f.extractLsb' 0 2).toNat with
  | 0 => some (.accZero i)
  | 1 => some (.accLd i)
  | 2 => some (.accSt i)
  | 3 => some (.accAdd i)
  | _ => none

/-- The long forms of the lane pipe (R193). -/
def buildLane (op : Nat) (i : Long) : Option Instr :=
  match op with
  | 0x01 => some (.iadd i)
  | 0x02 => some (.isub i)
  | 0x03 => some (.imul i)
  | 0x04 => some (.imad i)
  | 0x05 => some (.imulhi i)
  | 0x06 => some (.imin i)
  | 0x07 => some (.imax i)
  | 0x08 => some (.iabs i)
  | 0x09 => some (.and i)
  | 0x0A => some (.or i)
  | 0x0B => some (.xor i)
  | 0x0C => some (.andn i)
  | 0x0D => some (.shl i)
  | 0x0E => some (.shr i)
  | 0x0F => some (.sar i)
  | 0x10 => some (.fsh i)
  | 0x11 => some (.popc i)
  | 0x12 => some (.clz i)
  | 0x13 => some (.ctz i)
  | 0x14 => some (.brev i)
  | 0x15 => some (.bfx i)
  | 0x16 => some (.bfi i)
  | 0x17 => some (.perm i)
  | 0x18 => some (.lea i)
  | 0x19 => some (.icmp i)
  | 0x1A => some (.sel i)
  | 0x1B => some (.mov i)
  | 0x1C => some (.icvt i)
  | 0x1D => some (.plop i)
  | 0x1E => some (.setx i)
  | 0x1F => some (.addx i)
  | 0x28 => some (.fadd i)
  | 0x29 => some (.fsub i)
  | 0x2A => some (.fmul i)
  | 0x2B => some (.ffma i)
  | 0x2C => some (.fmin i)
  | 0x2D => some (.fmax i)
  | 0x2E => some (.fsgn i)
  | 0x2F => some (.fcmp i)
  | 0x30 => some (.fdiv i)
  | 0x31 => some (.fsqrt i)
  | 0x32 => some (.frcp i)
  | 0x33 => some (.frsq i)
  | 0x34 => some (.fexp2 i)
  | 0x35 => some (.flog2 i)
  | 0x36 => some (.fsin i)
  | 0x37 => some (.fcos i)
  | 0x38 => some (.fclass i)
  | 0x39 => some (.fcvt i)
  | 0x3A => some (.f2i i)
  | 0x3B => some (.i2f i)
  | 0x3C => some (.frnd i)
  | 0x40 => some (.bmax i)
  | 0x41 => some (.bscale i)
  | 0x42 => some (.bquant i)
  | 0x43 => some (.bdequant i)
  | 0x44 => some (.bnf i)
  | 0x45 => some (.unpk i)
  | 0x48 => some (.lxch i)
  | 0x49 => some (.lpred i)
  | 0x4A => some (.lred i)
  | 0x4B => some (.lscan i)
  | 0x50 => some (.ld i)
  | 0x51 => some (.st i)
  | 0x52 => some (.lds i)
  | 0x53 => some (.sts i)
  | 0x54 => some (.stm i)
  | 0x55 => some (.atom i)
  | 0x56 => some (.atoms i)
  | 0x57 => some (.red i)
  | 0x58 => some (.reds i)
  | 0x59 => some (.gath i)
  | 0x5A => some (.spawn i)
  | 0x5C => buildColl i
  | _ => none

/-- The long forms of the group pipe (R194). -/
def buildGroup (op : Nat) (i : Long) : Option Instr :=
  match op with
  | 0x01 => some (.gadd i)
  | 0x02 => some (.gsub i)
  | 0x03 => some (.gmul i)
  | 0x04 => some (.gmad i)
  | 0x05 => some (.gmin i)
  | 0x06 => some (.gmax i)
  | 0x07 => some (.gand i)
  | 0x08 => some (.gor i)
  | 0x09 => some (.gxor i)
  | 0x0A => some (.gshl i)
  | 0x0B => some (.gshr i)
  | 0x0C => some (.gsar i)
  | 0x0D => some (.gpopc i)
  | 0x0E => some (.gclz i)
  | 0x0F => some (.gbfx i)
  | 0x10 => some (.gbfi i)
  | 0x11 => some (.gcmp i)
  | 0x12 => some (.gsel i)
  | 0x13 => some (.gmov i)
  | 0x14 => some (.gplop i)
  | 0x28 => some (.gld i)
  | 0x29 => some (.gst i)
  | 0x2C => some (.drain i)
  | 0x2F => some (.pub i)
  | 0x32 => some (.mma i)
  | 0x33 => some (.mmaSp i)
  | 0x2A => buildGbar i
  | 0x2D => buildCpya i
  | 0x2E => buildDinv i
  | 0x30 => buildGcoll i
  | 0x31 => buildConv i
  | 0x34 => buildPrune i
  | 0x35 => buildAcc i
  | _ => none

/-- The instruction that pipe, OP and fields name, before the checks of R362 and R363. -/
def build (p : Bool) (op : Nat) : Words → Option Instr
  | .one i => buildOne p op i
  | .imm i => buildImm p op i
  | .long i => if p then buildGroup op i else buildLane op i

/-- Whether an OP belongs to the immediate-32 class (R177). -/
def immClass (p : Bool) (op : Nat) : Bool :=
  if p then [0x18, 0x19, 0x1A, 0x1B, 0x20, 0x22, 0x24].contains op else decide (0x20 ≤ op) && decide (op ≤ 0x27)

/-- The fields by the class that L and OP give; word 1 is read only when L is 1 (R174, R177, R362). -/
def wordsOf (w v : Word) : Words :=
  if w.getLsbD 30 then (if immClass (w.getLsbD 31) (w.extractLsb' 23 7).toNat then .imm (immOf w v) else .long (longOf w v))
  else .one (shortOf w)

/-- Decodes word 0 and, where L is 1, word 1. -/
def decode (w v : Word) : Instr :=
  match build (w.getLsbD 31) (w.extractLsb' 23 7).toNat (wordsOf w v) with
  | none => .undefinedEncoding 0x02
  | some i => match i.encodingCause with
    | none => i
    | some c => .undefinedEncoding (if i.sregBad then 0x02 else c)

/-- Decodes an instruction's words, word 0 first. -/
def decodeWords : List Word → Instr
  | [w] => decode w 0
  | [w, v] => decode w v
  | _ => .undefinedEncoding 0x02

/-- Decodes the bytes at an instruction's address, lowest first (R3, R174). -/
def decodeBytes (l : List Byte) : Instr :=
  decode (BitVec.ofNat 32 (leNat (l.take 4))) (BitVec.ofNat 32 (leNat ((l.drop 4).take 4)))

/-- The instruction that the decoder reads from bits numbered as the opcode table numbers them; none where it names a
cause instead. -/
def decodeTableWord (nbits w : Nat) : Option Instr :=
  match decodeBytes (leBytes 8 (w % 2 ^ nbits)) with
  | .undefinedEncoding _ => none
  | i => some i

/-! ### The encoder -/

/-- Word 0 of R175. -/
def word0 (p l : Bool) (op : BitVec 7) (g : Guard) (d a : BitVec 8) (f : BitVec 3) : Word :=
  BitVec.ofNat 32 (p.toNat * 2 ^ 31 + l.toNat * 2 ^ 30 + op.toNat * 2 ^ 23 + g.pred.toNat * 2 ^ 20 + g.neg.toNat * 2 ^ 19 +
    d.toNat * 2 ^ 11 + a.toNat * 2 ^ 3 + f.toNat)

/-- Word 1 of R176. -/
def word1 (i : Long) : Word :=
  BitVec.ofNat 32 (i.b.toNat * 2 ^ 24 + i.c.toNat * 2 ^ 16 + i.la.toNat * 2 ^ 12 + i.m.toNat * 2 ^ 8 + i.ka.toNat * 2 ^ 7 +
    i.kb.toNat * 2 ^ 6 + i.kc.toNat * 2 ^ 5 + i.x.toNat * 2 ^ 4 + i.xi.toNat * 2 ^ 2 + i.h.toNat)

/-- Pipe, OP and fields of a fetched instruction; none for the other rows. -/
def Instr.parts : Instr → Option (Bool × BitVec 7 × Words)
  | .nop i => some (false, 0x00, .one i)
  | .done i => some (false, 0x5B, .one i)
  | .lsr i => some (false, 0x5D, .one i)
  | .movi i => some (false, 0x20, .imm i)
  | .iaddi i => some (false, 0x21, .imm i)
  | .imuli i => some (false, 0x22, .imm i)
  | .iandi i => some (false, 0x23, .imm i)
  | .iori i => some (false, 0x24, .imm i)
  | .ixori i => some (false, 0x25, .imm i)
  | .icmpi i => some (false, 0x26, .imm i)
  | .setxi i => some (false, 0x27, .imm i)
  | .iadd i => some (false, 0x01, .long i)
  | .isub i => some (false, 0x02, .long i)
  | .imul i => some (false, 0x03, .long i)
  | .imad i => some (false, 0x04, .long i)
  | .imulhi i => some (false, 0x05, .long i)
  | .imin i => some (false, 0x06, .long i)
  | .imax i => some (false, 0x07, .long i)
  | .iabs i => some (false, 0x08, .long i)
  | .and i => some (false, 0x09, .long i)
  | .or i => some (false, 0x0A, .long i)
  | .xor i => some (false, 0x0B, .long i)
  | .andn i => some (false, 0x0C, .long i)
  | .shl i => some (false, 0x0D, .long i)
  | .shr i => some (false, 0x0E, .long i)
  | .sar i => some (false, 0x0F, .long i)
  | .fsh i => some (false, 0x10, .long i)
  | .popc i => some (false, 0x11, .long i)
  | .clz i => some (false, 0x12, .long i)
  | .ctz i => some (false, 0x13, .long i)
  | .brev i => some (false, 0x14, .long i)
  | .bfx i => some (false, 0x15, .long i)
  | .bfi i => some (false, 0x16, .long i)
  | .perm i => some (false, 0x17, .long i)
  | .lea i => some (false, 0x18, .long i)
  | .icmp i => some (false, 0x19, .long i)
  | .sel i => some (false, 0x1A, .long i)
  | .mov i => some (false, 0x1B, .long i)
  | .icvt i => some (false, 0x1C, .long i)
  | .plop i => some (false, 0x1D, .long i)
  | .setx i => some (false, 0x1E, .long i)
  | .addx i => some (false, 0x1F, .long i)
  | .fadd i => some (false, 0x28, .long i)
  | .fsub i => some (false, 0x29, .long i)
  | .fmul i => some (false, 0x2A, .long i)
  | .ffma i => some (false, 0x2B, .long i)
  | .fmin i => some (false, 0x2C, .long i)
  | .fmax i => some (false, 0x2D, .long i)
  | .fsgn i => some (false, 0x2E, .long i)
  | .fcmp i => some (false, 0x2F, .long i)
  | .fdiv i => some (false, 0x30, .long i)
  | .fsqrt i => some (false, 0x31, .long i)
  | .frcp i => some (false, 0x32, .long i)
  | .frsq i => some (false, 0x33, .long i)
  | .fexp2 i => some (false, 0x34, .long i)
  | .flog2 i => some (false, 0x35, .long i)
  | .fsin i => some (false, 0x36, .long i)
  | .fcos i => some (false, 0x37, .long i)
  | .fclass i => some (false, 0x38, .long i)
  | .fcvt i => some (false, 0x39, .long i)
  | .f2i i => some (false, 0x3A, .long i)
  | .i2f i => some (false, 0x3B, .long i)
  | .frnd i => some (false, 0x3C, .long i)
  | .bmax i => some (false, 0x40, .long i)
  | .bscale i => some (false, 0x41, .long i)
  | .bquant i => some (false, 0x42, .long i)
  | .bdequant i => some (false, 0x43, .long i)
  | .bnf i => some (false, 0x44, .long i)
  | .unpk i => some (false, 0x45, .long i)
  | .lxch i => some (false, 0x48, .long i)
  | .lpred i => some (false, 0x49, .long i)
  | .lred i => some (false, 0x4A, .long i)
  | .lscan i => some (false, 0x4B, .long i)
  | .ld i => some (false, 0x50, .long i)
  | .st i => some (false, 0x51, .long i)
  | .lds i => some (false, 0x52, .long i)
  | .sts i => some (false, 0x53, .long i)
  | .stm i => some (false, 0x54, .long i)
  | .atom i => some (false, 0x55, .long i)
  | .atoms i => some (false, 0x56, .long i)
  | .red i => some (false, 0x57, .long i)
  | .reds i => some (false, 0x58, .long i)
  | .gath i => some (false, 0x59, .long i)
  | .spawn i => some (false, 0x5A, .long i)
  | .gnop i => some (true, 0x00, .one i)
  | .gsr i => some (true, 0x15, .one i)
  | .gsw i => some (true, 0x16, .one i)
  | .brx i => some (true, 0x21, .one i)
  | .ret i => some (true, 0x23, .one i)
  | .exit i => some (true, 0x25, .one i)
  | .trap i => some (true, 0x26, .one i)
  | .fence i => some (true, 0x2B, .one i)
  | .mcommit i => some (true, 0x36, .one i)
  | .mwait i => some (true, 0x37, .one i)
  | .gmovi i => some (true, 0x18, .imm i)
  | .gaddi i => some (true, 0x19, .imm i)
  | .gandi i => some (true, 0x1A, .imm i)
  | .gcmpi i => some (true, 0x1B, .imm i)
  | .br i => some (true, 0x20, .imm i)
  | .call i => some (true, 0x22, .imm i)
  | .join i => some (true, 0x24, .imm i)
  | .gadd i => some (true, 0x01, .long i)
  | .gsub i => some (true, 0x02, .long i)
  | .gmul i => some (true, 0x03, .long i)
  | .gmad i => some (true, 0x04, .long i)
  | .gmin i => some (true, 0x05, .long i)
  | .gmax i => some (true, 0x06, .long i)
  | .gand i => some (true, 0x07, .long i)
  | .gor i => some (true, 0x08, .long i)
  | .gxor i => some (true, 0x09, .long i)
  | .gshl i => some (true, 0x0A, .long i)
  | .gshr i => some (true, 0x0B, .long i)
  | .gsar i => some (true, 0x0C, .long i)
  | .gpopc i => some (true, 0x0D, .long i)
  | .gclz i => some (true, 0x0E, .long i)
  | .gbfx i => some (true, 0x0F, .long i)
  | .gbfi i => some (true, 0x10, .long i)
  | .gcmp i => some (true, 0x11, .long i)
  | .gsel i => some (true, 0x12, .long i)
  | .gmov i => some (true, 0x13, .long i)
  | .gplop i => some (true, 0x14, .long i)
  | .gld i => some (true, 0x28, .long i)
  | .gst i => some (true, 0x29, .long i)
  | .drain i => some (true, 0x2C, .long i)
  | .pub i => some (true, 0x2F, .long i)
  | .mma i => some (true, 0x32, .long i)
  | .mmaSp i => some (true, 0x33, .long i)
  | .collPut i => some (false, 0x5C, .long i)
  | .collGet i => some (false, 0x5C, .long i)
  | .collRed i => some (false, 0x5C, .long i)
  | .gbarInit i => some (true, 0x2A, .long i)
  | .gbarArrive i => some (true, 0x2A, .long i)
  | .gbarExpect i => some (true, 0x2A, .long i)
  | .gbarExpa i => some (true, 0x2A, .long i)
  | .gbarWait i => some (true, 0x2A, .long i)
  | .gbarTry i => some (true, 0x2A, .long i)
  | .cpyaB2t i => some (true, 0x2D, .long i)
  | .cpyaT2b i => some (true, 0x2D, .long i)
  | .cpyaB2b i => some (true, 0x2D, .long i)
  | .cpyaFlat i => some (true, 0x2D, .long i)
  | .dinv i => some (true, 0x2E, .long i)
  | .dinvAll i => some (true, 0x2E, .long i)
  | .gcollAr i => some (true, 0x30, .long i)
  | .gcollRs i => some (true, 0x30, .long i)
  | .gcollAg i => some (true, 0x30, .long i)
  | .conv i => some (true, 0x31, .long i)
  | .convDis i => some (true, 0x31, .long i)
  | .prune i => some (true, 0x34, .long i)
  | .pruneT i => some (true, 0x34, .long i)
  | .accZero i => some (true, 0x35, .long i)
  | .accLd i => some (true, 0x35, .long i)
  | .accSt i => some (true, 0x35, .long i)
  | .accAdd i => some (true, 0x35, .long i)
  | _ => none

/-- The words of a fetched instruction, word 0 first (R174 to R177); none for the other rows. -/
def encode (i : Instr) : List Word :=
  match i.parts with
  | some (p, op, .one s) => [word0 p false op s.g s.d s.a s.f]
  | some (p, op, .imm s) => [word0 p true op s.g s.d s.a s.f, s.imm]
  | some (p, op, .long s) => [word0 p true op s.g s.d s.a s.f, word1 s]
  | none => []

/-! ### Stream commands -/

/-- The fields of a command record (R82). -/
def commandOf (c0 c1 c2 c3 : DWord) : Command :=
  { arg1 := c0.extractLsb' 32 32, rsv := c0.extractLsb' 19 13 ++ c0.extractLsb' 10 6, sub := c0.extractLsb' 16 3,
    irq := c0.getLsbD 9, wait := c0.getLsbD 8, c1 := c1, c2 := c2, c3 := c3 }

/-- R83: the command of an OPC and SUB; a reserved OPC, SUB or CMP is a reserved command. -/
def decodeCommand (c0 c1 c2 c3 : DWord) : Instr :=
  let c := commandOf c0 c1 c2 c3
  match (c0.extractLsb' 0 8).toNat with
  | 0x00 => if c.sub = 0 then .nopCommand c else .reservedCommand c
  | 0x01 => if c.sub = 0 then .launch c else .reservedCommand c
  | 0x02 => if c.sub = 0 then .launchi c else .reservedCommand c
  | 0x03 => if c.sub = 0 then .loop c else .reservedCommand c
  | 0x04 => if c.sub ≤ 4 then .branch c else .reservedCommand c
  | 0x05 => if c.sub ≤ 3 then .waitph c else .reservedCommand c
  | 0x06 => if c.sub ≤ 1 then .signal c else .reservedCommand c
  | 0x07 => if c.sub = 0 then .publish c else .reservedCommand c
  | 0x08 => if c.sub ≤ 1 then .hcopy c else .reservedCommand c
  | 0x09 => if c.sub = 0 then .fenceCommand c else .reservedCommand c
  | 0x0A => if c.sub = 0 then .seed c else .reservedCommand c
  | 0x0B => if c.sub = 0 then .stop c else .reservedCommand c
  | _ => .reservedCommand c

/-! ### Register writes -/

/-- The operands of a management command as written to MCMD (R435, R436). -/
def mcmdOf (v : DWord) : MCmd := { arg := v.extractLsb' 32 32, ctx := v.extractLsb' 8 4 }

/-- R435, R436: what a write of a dword to a BAR 0 offset is. A write that is no row of its own is a register write. -/
def decodeBar0 (off : BitVec 16) (v : DWord) : Instr :=
  let m := mcmdOf v
  match off.toNat with
  | 0x0018 => .irqClear v
  | 0x0020 => match (v.extractLsb' 0 8).toNat with
    | 0x01 => .create m
    | 0x02 => .destroy m
    | 0x03 => .key m
    | 0x04 => .inval m
    | 0x05 => .preempt m
    | 0x06 => .restore m
    | 0x07 => .freset m
    | 0x08 => .retain m
    | 0x09 => .unretain m
    | 0x0A => .reshape m
    | 0x0B => .lose m
    | 0x0C => .topo m
    | 0x0D => .attest m
    | 0x0E => .wreset m
    | 0x0F => .update m
    | _ => .registerWrite off v
  | 0x0048 => .eqptrHead v
  | 0x0058 => .fqptrHead v
  | 0x0060 => if v.getLsbD 63 then .fqansFail (v.extractLsb' 0 63) else .fqansRetry (v.extractLsb' 0 63)
  | 0x0080 => .pcapWrite v
  | 0x0098 => .tmoutWrite v
  | 0x0808 => if v.getLsbD 63 then .rmctlGo v else .registerWrite off v
  | n =>
    if 0x1000 ≤ n && n < 0x1800 && n % 32 = 0 then .start (BitVec.ofNat 6 ((n - 0x1000) / 32)) v
    else .registerWrite off v

end Sys2Proof
end

