-- ==== Sys2Proof/Machine/Crypto.lean ====
section
/-!
DEFINITION. AES-256 in XTS mode as IEEE Std 1619 defines it, on one 128-byte line (R112, 04_memory.md). The cipher
itself is taken from that standard and FIPS 197 (assumption log 13).
-/
namespace Sys2Proof.Machine

/-- Multiplication by x in AES's field. -/
def gfDouble (a : Byte) : Byte := (a <<< 1) ^^^ (if a.getLsbD 7 then 0x1B else 0)

/-- Multiplication in AES's field: the sum of `a` doubled k times over the bits k of `b` below `n`. -/
def gfMul (a : Byte) : Nat → Byte → Byte
  | 0, _ => 0
  | n + 1, b => (if b.getLsbD 0 then a else 0) ^^^ gfMul (gfDouble a) n (b >>> 1)

/-- The inverse, a to the power 254; zero for zero. -/
def gfInv (a : Byte) : Byte :=
  let a2 := gfMul a 8 a
  let a3 := gfMul a2 8 a
  let a6 := gfMul a3 8 a3
  let a12 := gfMul a6 8 a6
  let a15 := gfMul a12 8 a3
  let a30 := gfMul a15 8 a15
  let a60 := gfMul a30 8 a30
  let a120 := gfMul a60 8 a60
  let a126 := gfMul a120 8 a6
  let a127 := gfMul a126 8 a
  gfMul a127 8 a127

/-- The S-box of FIPS 197. -/
def aesSub (a : Byte) : Byte :=
  let b := gfInv a
  b ^^^ b.rotateLeft 1 ^^^ b.rotateLeft 2 ^^^ b.rotateLeft 3 ^^^ b.rotateLeft 4 ^^^ 0x63

/-- The inverse S-box. -/
def aesUnsub (a : Byte) : Byte :=
  gfInv (a.rotateLeft 1 ^^^ a.rotateLeft 3 ^^^ a.rotateLeft 6 ^^^ 0x05)

def xorBytes (a b : List Byte) : List Byte := List.zipWith (· ^^^ ·) a b

/-- Byte r + 4c of the state moves between columns by its row. -/
def aesShift (l : List Byte) (back : Bool) : List Byte :=
  (List.range 16).map fun k =>
    let r := k % 4
    let c := k / 4
    l.getD (r + 4 * ((if back then c + 4 - r else c + r) % 4)) 0

/-- Each column times the matrix whose first row is (m0, m1, m2, m3), rows rotated. -/
def aesMix (l : List Byte) (m : List Byte) : List Byte :=
  (List.range 16).map fun k =>
    let r := k % 4
    let c := k / 4
    (List.range 4).foldl (fun acc j => acc ^^^ gfMul (l.getD (4 * c + j) 0) 8 (m.getD ((j + 4 - r) % 4) 0)) 0

/-- Key expansion of FIPS 197 for 256-bit keys: words as 4-byte lists, newest first. -/
def aesExpand : Nat → Byte → List (List Byte) → List (List Byte)
  | 0, _, ws => ws
  | n + 1, rc, ws =>
    let i := ws.length
    let t := ws.headD []
    let prev := ws.getD 7 []
    let t' := if i % 8 = 0 then xorBytes ((t.drop 1 ++ t.take 1).map aesSub) [rc, 0, 0, 0]
      else if i % 8 = 4 then t.map aesSub else t
    aesExpand n (if i % 8 = 0 then gfDouble rc else rc) (xorBytes prev t' :: ws)

/-- The fifteen round keys of a 32-byte key. -/
def aesKeys (key : List Byte) : List (List Byte) :=
  let ws := (aesExpand 52 1 ((List.range 8).map fun i => (key.drop (4 * (7 - i))).take 4)).reverse
  (List.range 15).map fun r => ((ws.drop (4 * r)).take 4).flatten

def aesEncrypt (key block : List Byte) : List Byte :=
  let ks := aesKeys key
  let st := (List.range 13).foldl (fun b r =>
    xorBytes (aesMix (aesShift (b.map aesSub) false) [2, 3, 1, 1]) (ks.getD (r + 1) [])) (xorBytes block (ks.getD 0 []))
  xorBytes (aesShift (st.map aesSub) false) (ks.getD 14 [])

def aesDecrypt (key block : List Byte) : List Byte :=
  let ks := aesKeys key
  let st := (List.range 13).foldl (fun b r =>
    aesMix (xorBytes ((aesShift b true).map aesUnsub) (ks.getD (13 - r) [])) [14, 11, 13, 9]) (xorBytes block (ks.getD 14 []))
  xorBytes ((aesShift st true).map aesUnsub) (ks.getD 0 [])

/-- The tweak of the next block: a 128-bit little-endian value doubled in XTS's field. -/
def xtsNext (t : List Byte) : List Byte :=
  let x := leNat t * 2
  leBytes 16 ((x % 2 ^ 128) ^^^ (if 2 ^ 128 ≤ x then 0x87 else 0))

/-- The blocks of a line, each under its tweak. -/
def xtsBlocks (f : List Byte → List Byte) : Nat → List Byte → List Byte → List Byte
  | 0, _, _ => []
  | n + 1, t, l => xorBytes (f (xorBytes (l.take 16) t)) t ++ xtsBlocks f n (xtsNext t) (l.drop 16)

/-- R112: a 128-byte line under a 64-byte key pair, the line number as tweak. -/
def xtsLine (encrypt : Bool) (keys : List Byte) (line : Nat) (l : List Byte) : List Byte :=
  let k1 := keys.take 32
  let t := aesEncrypt (keys.drop 32) (leBytes 16 line)
  xtsBlocks (if encrypt then aesEncrypt k1 else aesDecrypt k1) 8 t l

end Sys2Proof.Machine
end

