-- ==== Sys2Proof/Config.lean ====
section
/-!
DEFINITION. What the spec leaves to the part, to its surroundings, or open: constants with no body, so that nothing
can be proved of their values (assumption log 2).
-/
namespace Sys2Proof.Config

/-- The free values: the k-th free value of a run, as a natural number cut to the width asked for. -/
opaque free : Nat → Nat

/-- The ordering code fused into the dies (R1, R435): 0 QJH12-M, 1 QJH12-P, 2 QJH12-K. -/
opaque orderingCode : Fin 3

/-- Whether the integrator of a QJH12-K fitted all twelve stacks (R2, R427). -/
opaque stacksFitted : Bool

/-- Whether the integrator of a QJH12-P or QJH12-K fitted the host link and the UALink ports (R2). -/
opaque hostLinkFitted : Bool
opaque portsFitted : Bool

/-- Whether the integrator fitted the capacity tier of a QJH12-P or QJH12-K (R2, R427). -/
opaque capacityFitted : Bool

/-- Size in bytes of the SPI flash, which every part carries (R427). -/
def flashSize : Nat := 2 ^ 26

/-- The firmware image in the flash as the part is delivered (R420). -/
opaque flashImage : List Byte

/-- Whether an image passes the ML-DSA-65 check of R420 and R432 under the key in mask ROM. -/
opaque imageVerifies : List Byte → Bool

/-- Digests of the boot ROM, and of the root and command-processor firmware of an image (R433), 32 bytes each. -/
opaque romDigest : List Byte
opaque rootDigest : List Byte → List Byte
opaque cpDigest : List Byte → List Byte

/-- The ML-DSA-65 signature of the device identity key over a report's first 256 bytes, and its public key (R433). -/
opaque attestSignature : List Byte → List Byte
opaque identityKey : List Byte

/-- The port sets that TOPO reads from host memory at an address (R324, R436): their layout there is not stated. -/
opaque portSets : List (Nat × Byte) → Nat → List (Nat × List Nat)

/-- What the planners of a pod pick for some chunks of a collective outside deterministic mode (R337, R338): from the devices of the
pod and a number that stands for the communicator, the collective, its ranks and the chunks. All ranks pick the same. -/
opaque planPick : List Nat → Nat → Nat

end Sys2Proof.Config
end

