-- ==== Sys2Proof/Machine/State.lean ====
section
/-!
DEFINITION. The machine's state as plain data: every piece of state the spec names (INVENTORY.md, State, gives the
rule of each and its reset value), and the state right after cold reset.
-/
namespace Sys2Proof.Machine

/-- Why the machine stops. -/
inductive Fault
  /-- Raised by every meaning of a fetched instruction or a stream command that is run while no split or stream is
  issuing it. Safe: the hardware has no such step, since an instruction is always some split's or some stream's. -/
  | noIssuer
deriving DecidableEq, Repr

/-- Why an instruction has no meaning here. -/
inductive Refusal
  /-- Raised by an arm of the dispatch whose instruction has no meaning yet. Safe: nothing is claimed of it. -/
  | notModelled (mnemonic : String)
deriving DecidableEq, Repr

/-- The key of a page or line: context and slot, or none for plaintext (R112). -/
abbrev KeyTag := Option (Nat × Nat)

/-- Where lines of a page may be kept (R108, R113, R115): in an L1 and at the home slices; at the home slices only (a LOC 1
page of the own DEVICEID); nowhere (UC). -/
inductive Caching | full | home | none
deriving DecidableEq, Repr

/-- A place that holds bytes, by its point of coherence (R142). Scratchpads are named by the team's `uid`; `remote` is an address
of coll, which the peer translates (R294). -/
inductive Loc
  | mem (pa : Nat) (key : KeyTag) (caching : Caching)
  | peer (dev pa : Nat)
  | remote (dev va : Nat)
  | host (pa : Nat)
  | window (pa : Nat)
  | scr (team off : Nat)
deriving DecidableEq, Repr

/-! ### Splits and groups -/

/-- One entry of a mask stack (R73); `fork` marks a FORK entry. -/
structure MaskEntry where
  fork : Bool
  pending : LaneMask
  ppc : DWord
  arrived : LaneMask
  target : Option DWord
deriving DecidableEq, Repr

/-- What a parked split waits for (R281, R298, R301, R318, R284, R283). `before` is the record number of an mwait, a drain or a
fence: accesses of the group with a higher one are performed after it (R156, R167, R168). -/
inductive Park
  | barrier (team off : Nat) (parity acq wide : Bool)
  | convene (tag : Nat)
  | dismiss (conv : Nat)
  | batch (conv : Nat) (n : BitVec 16) (before : Nat)
  | copies (uids : List Nat) (global : Bool) (before : Nat)
  | fence (scope before : Nat)
deriving DecidableEq, Repr

/-- A split (R73): program counter, lane mask, SPLITID, mask stack, the core clock at which it became held (R77), and what
it is parked on; for R91, the cycles for which it has been ready for each pipe without issuing, and those since it last
issued. -/
structure Split where
  id : Nat
  pc : DWord
  lanes : LaneMask
  stack : List MaskEntry
  held : Option Nat
  park : Option Park
  readyLane : Nat := 0
  readyGroup : Nat := 0
  idle : Nat := 0
deriving DecidableEq, Repr

/-- One register write of a long-latency result. -/
inductive RegWrite
  | v (r lane : Nat) (x : Word)
  | g (r : Nat) (x : DWord)
  | p (r lane : Nat) (x : Bool)
  | q (r : Nat) (x : Bool)
deriving DecidableEq, Repr

/-- A cause that arises after its instruction has issued, with the address for its CONSUMED record (R361, R397), and the
split of its group that issued it. -/
structure LateCause where
  code : BitVec 8
  addr : DWord
  src : Nat
  unit : Nat
  detail : Nat
  split : Option Nat := none
deriving DecidableEq, Repr

/-- What an access does when it is performed (R113, R137, R276): a read through the L1, through the gather fetch cache, or past
every cache; an atomic with its operands; a coll packet with its CTL, form and lanes (R326, R328). -/
inductive PendOp
  | read
  | gather
  | fresh
  | atomic (op : AtomOp) (ty : AtomTy) (b s : DWord)
  | packet (ctl : BitVec 8) (form : BitVec 2) (parts : List LanePart)
deriving DecidableEq, Repr

/-- An access of a long-latency instruction that is not performed yet (R143, R153): its number within the instruction,
lane, address, bytes and place. -/
structure Pend where
  idx : Nat
  lane : Nat
  va : DWord
  n : Nat
  loc : Loc
  op : PendOp
deriving DecidableEq, Repr

/-- What becomes of the bytes of a result's accesses: register writes known beforehand; a load of a width code into
registers from `reg` (R269); gath's elements, with the descriptor, the predicate, whether D is a pair, and each lane's
coordinates (R289); unpk's values, with the rows, registers and lanes it writes and the header it has read (R265). -/
inductive ResultKind
  | fixed (writes : List RegWrite)
  | loaded (width : BitVec 3) (group : Bool) (reg : Nat)
  | gathered (two : Bool) (pred reg : Nat) (desc : List DWord) (coords : List (Nat × Nat × Nat × Nat))
  | unpacked (rows pred reg : Nat) (lanes : LaneMask) (header : Nat)
deriving DecidableEq, Repr

/-- A long-latency instruction's outstanding result (R186 to R188): the splits whose windows it holds open, how many
instructions of the window are left, its register destinations, what becomes of its bytes, the accesses not performed,
the requests it waits for, the bytes that have come (number of the access, lane), the cause it delivers instead, the
scopes of its acquire and release (R154, R155), and the instruction's address when a handler issued it (R369). `done`:
it has been written, and is kept while its window is open (R188). -/
structure Result where
  uid : Nat
  owners : List Nat
  window : Nat
  dests : List Reg
  kind : ResultKind
  pend : List Pend
  waits : List Nat
  raw : List (Nat × Nat × List Byte)
  fail : Option LateCause
  acq : Option Nat
  rel : Option Nat
  handlerPc : Option DWord
  done : Bool
deriving DecidableEq, Repr

/-- What an entry of a store queue does when it is performed (R152, R276): a write, a reduction, or a coll packet with its CTL, form
and lanes (R326, R328). -/
inductive QOp
  | write (bytes : List Byte)
  | reduce (op : AtomOp) (ty : AtomTy) (b : DWord)
  | packet (ctl : BitVec 8) (form : BitVec 2) (parts : List LanePart)
deriving DecidableEq, Repr

/-- An entry of a group's store queue: a store or reduction not yet performed; `rel` is its release scope, `split`
the split that issued it, `handlerPc` the instruction's address when a handler issued it (R369). -/
structure QEntry where
  uid : Nat
  va : DWord
  loc : Loc
  op : QOp
  rel : Option Nat
  split : Nat
  handlerPc : Option DWord
deriving DecidableEq, Repr

/-- A cause raised in a group since the halt broadcast (R361); `split` raised it; `late` when it arose after issue. -/
structure Raised where
  code : BitVec 8
  split : Option Nat
  late : Bool
deriving DecidableEq, Repr

/-- An A operand in the operand-collector latch (R306): its form, format, lane registers and sparse header. -/
structure Latch where
  sparse : Bool
  fmt : BitVec 4
  regs : List (List Word)
  header : DWord
deriving DecidableEq, Repr

/-- A group (R66 to R70, R190). Lane registers are keyed 32 r + lane, index registers likewise, weights by lane;
a lane predicate's word has one bit for each lane. `passed` holds the record numbers and scopes of acquires, releases and
fences that a later access has passed (R157); `raisers` the splits that have raised a cause since the halt broadcast (R365);
`struck` the split whose next instruction reads a register that cannot be corrected (R406); `saved` the splits set aside in handler mode (R368). -/
structure Group where
  team : Nat
  gid : Nat
  slot : Nat
  role : BitVec 2
  budget : Nat
  v : SMap 32
  g : SMap 64
  p : SMap 32
  q : BitVec 7
  x : SMap 16
  weight : SMap 64
  splits : List Split
  results : List Result
  queue : List QEntry
  passed : List (Nat × Nat)
  touched : List Nat
  stalled : Bool
  raised : Option Raised
  raisers : List Nat
  late : List LateCause
  struck : Option Nat
  trapPc : DWord
  skid : BitVec 8
  recorded : Nat
  saved : Option (List Split)
  arrivals : Nat
  retired : Nat
deriving DecidableEq, Repr

/-! ### Teams, convocations, grids -/

/-- A member of a convocation (R298): number, matched instructions counted, next batch number (R317), its latch, the
cause its next matched instruction raises (R406, R441), and whether it has issued conv.dis (R301, R385). -/
structure Member where
  gid : Nat
  num : Nat
  dest : Nat
  issued : Nat
  batch : BitVec 16
  latch : Option Latch
  cause : Option LateCause
  dis : Bool
deriving DecidableEq, Repr

/-- The matched instructions (R299). -/
inductive MatchedOp | mma | mmaSp | accZero | accLd | accSt | accAdd | commit | dismiss
deriving DecidableEq, Repr

/-- One member's part in an operation: values of gA, gB and g(B + 1) at issue, its A operand, and the record number at
its issue, below which its earlier accesses have theirs. -/
structure Part where
  gid : Nat
  num : Nat
  va : DWord
  vb : DWord
  vb1 : DWord
  frag : Option Latch
  mark : Nat
deriving DecidableEq, Repr

/-- A matched operation: its instruction, fields, the parts issued so far, whether they agree (R299), and the places in
scratchpads that its addresses name when its last member issues it: its rows', or its B image's (R103, assumption log 71). -/
structure MOp where
  op : MatchedOp
  fields : Long
  parts : List Part
  agree : Bool
  places : List (Option (Nat × Nat)) := []
deriving DecidableEq, Repr

/-- A closed batch (R317): its number and the engine operations in it not yet complete. -/
structure Batch where
  n : BitVec 16
  ops : List Nat
deriving DecidableEq, Repr

/-- A convocation (R80, R298 to R301): forming, formed or broken; `partials` are the operations issued by some members
but not all (R300), `openOps` the engine operations since the last mcommit, `closed` the number of the next batch to be
closed by all, `batches` the closed ones not completed, `globals` the batches that R168 empties caches for. -/
structure Conv where
  uid : Nat
  tag : Nat
  size : Nat
  formed : Bool
  broken : Bool
  members : List Member
  done : Nat
  partials : List MOp
  openOps : List Nat
  openGlobal : Bool
  closed : Half
  batches : List Batch
  globals : List Half
deriving DecidableEq, Repr

/-- A team or spawn team (R66, R71, R87, R98, R359): its scratchpad bytes, the 4-byte words of it that cannot be
corrected (R406), the dwords a barrier operation or copy has named as barrier words (assumption log 12), its accumulator words, whether a write of it to a host window was lost (R418),
convocations, whether it is halted,
and for how many sixteenths of a cycle (R365). -/
structure Team where
  uid : Nat
  ctx : Nat
  grid : Nat
  spawn : Bool
  teamId : Word
  core : Nat
  partword : Word
  timer : DWord
  timerHeld : Bool
  trapCause : BitVec 8
  halted : Bool
  haltAge : Nat
  handler : Bool
  ended : Bool
  scratch : SMap 8
  acc : SMap 32
  badWords : List Nat
  barWords : List Nat
  lostWrites : Bool
  convs : List Conv
deriving DecidableEq, Repr

/-- A grid: the launch record's dwords L0 to L5 (R84) with TEAMS as launched, context, stream and that stream's start
count, GRIDID, SRSEED in force (R51), W0 of R93, next TEAMID to place, and items restored (R391). -/
structure Grid where
  uid : Nat
  ctx : Nat
  stream : Nat
  gen : Nat
  gridId : Word
  addr : DWord
  l0 : DWord
  l1 : DWord
  centry : DWord
  pentry : DWord
  argp : DWord
  root : DWord
  teams : Nat
  seed : DWord
  w0 : DWord
  next : Nat
  restored : List (DWord × Word × Word × DWord)
deriving DecidableEq, Repr

/-! ### Cores -/

/-- A line kept by an L1 or a gather fetch cache: physical line number, key, bytes (R113, R137). -/
structure CacheLine where
  line : Nat
  key : KeyTag
  bytes : List Byte
deriving DecidableEq, Repr

/-- A descriptor cache entry (R138), with the grid whose gath filled it. -/
structure DescEntry where
  ctx : Nat
  grid : Nat
  va : DWord
  dwords : List DWord
deriving DecidableEq, Repr

/-- An item of a spawn collector (R94): entry, payload words, weight, offering team and group, the record number below which
the offering group's earlier accesses have theirs (R292), and the core clock when it was accepted (R95). -/
structure Item where
  entry : DWord
  w0 : Word
  w1 : Word
  weight : DWord
  team : Nat
  grp : Nat
  mark : Nat
  since : Nat
deriving DecidableEq, Repr

/-- The items of one grid and entry that a collector holds, in order (R95). -/
structure Forming where
  grid : Nat
  entry : DWord
  items : List Item
deriving DecidableEq, Repr

/-- An operation the matrix engine holds (R316): queued or started, its engine time (R315), the lines it owns, and those of the
address space that are to be owned once they translate (R117, R321), what it has read once it has started (the B image, or the
rows of acc.ld), whether it waits for the host (R441), and whether it reads an accumulator that cannot be corrected (R406). -/
structure EngineOp where
  uid : Nat
  team : Nat
  conv : Nat
  op : MOp
  time : Nat
  lines : List Nat
  missing : List Nat
  image : List Byte
  rows : List (List Nat)
  started : Bool
  waiting : Bool
  struck : Bool
deriving DecidableEq, Repr

/-- A core that holds something: caches, spawn collector, and engine operations in reservation order. -/
structure Core where
  id : Nat
  l1 : List CacheLine
  gather : List CacheLine
  descs : List DescEntry
  forming : List Forming
  engine : List EngineOp
deriving DecidableEq, Repr

/-! ### Copies and collectives -/

/-- How far a tile of a copy has come: not begun, granted a landing slot (R132), sent to a peer, done. -/
inductive TileState | idle | granted | sent | done
deriving DecidableEq, Repr

/-- A tile: how far it has come, its landing slot (R132), the lines it owns and those of the address space that are to be owned
once they translate (R117), the requests it waits for, and bytes that are written after the others (R379): their place in the
destination, address and value. -/
structure Tile where
  st : TileState
  slot : Nat
  lines : List Nat
  missing : List Nat
  waits : List Nat
  rest : List (Nat × DWord × List Byte)
deriving DecidableEq, Repr

/-- A copy in flight (R130 to R136, R285 to R287): its operands at issue, its tiles in destination order, its saturations and
whether they have been added (R131). -/
structure Copy where
  uid : Nat
  ctx : Nat
  grid : Nat
  team : Nat
  core : Nat
  unit : Nat
  shape : BitVec 2
  srcScr : Bool
  dstScr : Bool
  src : DWord
  dst : DWord
  srcBase : Nat × Nat
  dstBase : Nat × Nat
  srcDesc : List DWord
  dstDesc : List DWord
  srcOrg : List Nat
  dstOrg : List Nat
  count : Nat
  conv : Half
  stream : Half
  bar : Nat × Nat
  barAddr : Word
  barCore : Nat
  tiles : List Tile
  sats : Nat
  satDone : Bool
  stalled : Bool
deriving DecidableEq, Repr

/-- A chunk that its sender keeps until it is credited (R417): the device it went to, its kind, and DEVCLK by which the
response must come (R414), none once it has. -/
structure KeptChunk where
  dev : Nat
  kind : Nat
  packet : Chunk
  deadline : Option Nat
deriving DecidableEq, Repr

/-- This rank's steps in the plan for the chunks from `first` on (R337): the rank that its sums go to, none at the last, and
those whose sums it adds, in order. -/
structure PlanStep where
  first : Nat
  parent : Option Nat
  children : List Nat
deriving DecidableEq, Repr

/-- A collective in flight on this rank (R330 to R341): its descriptor, number, the devices of MAP once read, DEVCLK by
which a chunk must arrive (R416), plan packets not yet at the port, the plan (R337), packets seen (R417), packets with their kinds
that wait for their step, chunks kept until credited (R417), chunks whose scale codes and whose data this rank has sent on,
chunks written into DBUF, largest scale code of each block plus one (R341), saturation count, how far its completion has come
(R336), and the reason for which it has failed (R416). -/
structure Coll where
  uid : Nat
  ctx : Nat
  grid : Nat
  gridId : Word
  op : BitVec 2
  desc : List DWord
  seq : Half
  map : List Nat
  deadline : Nat
  planning : List Chunk
  plan : List PlanStep
  seen : List (Nat × Nat × Nat)
  inbox : List (Nat × Chunk)
  kept : List KeptChunk
  scaled : List Nat
  sent : List Nat
  finals : List Nat
  smax : SMap 9
  sats : Nat
  stage : Nat
  failing : Option Nat
  stalled : Bool
deriving DecidableEq, Repr

/-- Numbering of a communicator on this rank (R332) and whether it has failed (R416). -/
structure Comm where
  ctx : Nat
  commId : Half
  next : Half
  failed : Bool
deriving DecidableEq, Repr

/-! ### Contexts and streams -/

/-- CTXSTAT of an existing context (R435). -/
inductive Phase | active | draining | saved
deriving DecidableEq, Repr

/-- A cached translation (R111): virtual page number and the leaf entry found. -/
structure TlbEntry where
  vpn : Nat
  leaf : DWord
  level : Nat
deriving DecidableEq, Repr

/-- What a saved grid keeps that its record of R390 does not hold: stream, start count, SRSEED (R51, R442). -/
structure SavedGrid where
  gridId : Word
  stream : Nat
  gen : Nat
  seed : DWord
deriving DecidableEq, Repr

/-- A context (R434), with the save area, deadline, stopped streams and saved grids of a pre-emption (R388 to R393). -/
structure Ctx where
  id : Nat
  root : DWord
  job : Half
  keys : List (Nat × List Byte)
  srseed : DWord
  ctxclk : DWord
  gridCount : Word
  phase : Phase
  saveArea : DWord
  deadline : Nat
  stopped : List (Nat × DWord)
  savedGrids : List SavedGrid
  tlb : List TlbEntry
deriving DecidableEq, Repr

/-- What a running stream waits for before it goes on. -/
inductive StreamWait
  | none
  | phase (addr value mask : DWord) (cmp : BitVec 3) (irq : Bool)
  | publish (fetchAdd : Nat) (irq : Bool)
  | page (seq : Nat)
deriving DecidableEq, Repr

/-- A host copy in flight (R83, R345): its context, its address in the stream, direction, operands, IRQ bit, the start
count of its stream, and whether it waits for the answer to a fault record. -/
structure HostCopy where
  ctx : Nat
  pc : DWord
  toHost : Bool
  src : DWord
  dst : DWord
  count : Nat
  irq : Bool
  gen : Nat
  stalled : Bool
deriving DecidableEq, Repr

/-- A command stream (R81, R435, R438): its context, command address, wait, STAT and INFO fields, start count,
host copies in flight, the lines that its command processor's writes have touched (R83, R155), and whether a write of one of its
launches to a host window was lost (R418). -/
structure Stream where
  running : Bool
  ctx : Nat
  pc : DWord
  wait : StreamWait
  die : Nat
  err : BitVec 8
  report : BitVec 8
  info : DWord
  gen : Nat
  copies : List HostCopy
  touched : List Nat
  lostWrites : Bool
deriving DecidableEq, Repr

/-! ### Fabric, host, storage, management -/

/-- What a response to one of this device's requests is for. `load` names the result and the access within it; `store` the
record number of the write, and whether it is one to a host window. `read` and `write` are made for an agent's key: (0, uid)
for a copy, engine operation or collective, (team + 1, group) for a group's instruction fetch, (team + 1, 2^16 + group)
for its return of weights. -/
inductive ReqUse
  | load (team grp result : Nat) (idx lane : Nat) (va : DWord)
  | store (team grp split entry : Nat) (window : Bool) (va : DWord) (handlerPc : Option DWord)
  | read (key : Nat × Nat) (va : DWord)
  | write (key : Nat × Nat) (va : DWord)
deriving DecidableEq, Repr

/-- What a request asks of its destination (R323, R328); `masked` writes some parts of one 128-byte unit, each with its offset
from the address (R380, R441). -/
inductive OutAsk
  | read (size : Nat)
  | write (data : List Byte)
  | masked (parts : List (Nat × List Byte))
  | atomic (op : AtomOp) (ty : AtomTy) (b s : DWord)
  | coll (ctl : BitVec 8) (form : BitVec 2) (parts : List LanePart)
deriving DecidableEq, Repr

/-- A request sent and not answered: tag, destination device (none: the host), JOB, address, DEVCLK at which the peer
timeout ends, the port it went by (R413, R414). -/
structure Request where
  tag : Nat
  dev : Option Nat
  job : Half
  addr : Nat
  ask : OutAsk
  use : ReqUse
  deadline : Nat
  port : Nat
deriving DecidableEq, Repr

/-- A packet or response that leaves the device. -/
inductive Outgoing
  | request (r : Request)
  | chunk (dev kind : Nat) (c : Chunk)
  | response (source tag : Nat) (r : Response)
  | getResponse (p : CollPacket) (data : List DWord)
deriving DecidableEq, Repr

/-- The fabric as this device sees it; `fetched` holds answers that an agent has not taken yet, with
the port that the request used, none for a request that timed out; `early` holds chunk packets, with their kinds, of collectives
that have not started on this rank (R332). -/
structure Fabric where
  deviceId : BitVec 10
  topology : List (Nat × List Nat)
  ports : List PortState
  requests : List Request
  fetched : List ((Nat × Nat) × DWord × Nat × Option Response)
  answered : List (Nat × Nat × Response)
  outbox : List Outgoing
  early : List (Nat × Chunk)
  comms : List Comm
deriving DecidableEq, Repr

/-- A FetchAdd of a publication not yet returned (R140): its covered window writes, by their entries' uids. -/
structure FetchAdd where
  id : Nat
  va : DWord
  pa : Nat
  covers : List Nat
  team : Nat
  grp : Nat
  result : Nat
  stream : Option Nat
deriving DecidableEq, Repr

/-- An answer the device gives the host over the link. -/
inductive HostReply
  | data (bytes : List Byte)
  | poisoned
  | old (x : DWord)
  | unsupported
deriving DecidableEq, Repr

/-- The host as the device sees it: its memory, the link, MSI-X vectors raised, answers given, FetchAdds not returned,
the write of a host atomic whose read has been made (R160), and the hot-removes (true) and hot-adds of physical ranges that
have been reported to it, each with its first address and size (R124, R409). -/
structure HostSide where
  mem : SMap 8
  linkUp : Bool
  msix : List Nat
  replies : List HostReply
  fetchAdds : List FetchAdd
  atomic : Option (Nat × List Byte)
  plugs : List (Bool × Nat × Nat)
deriving DecidableEq, Repr

/-- An entry of a write journal (R119, R120, R402): data, a parity delta, or with `whole` the parity of a full stripe; the
stripe row, which half, 128 bytes, and the stack and row of its partner. -/
structure JournalEntry where
  stack : Nat
  parity : Bool
  whole : Bool
  row : Nat
  half : Nat
  bytes : List Byte
  partner : Option (Nat × Nat)
deriving DecidableEq, Repr

/-- A stack's state (R403). -/
inductive StackState | live | lost | retired
deriving DecidableEq, Repr

/-- Deep retention of a band (R123, R124): entering, held or leaving, with the retention area. -/
inductive RetPhase | entering | held | leaving
deriving DecidableEq, Repr

/-- Storage: `mem` holds each byte of node 0 and node 1 as the home slices see it, under the key in `tags`;
`media` the bytes on the stacks, keyed stack x 2^40 + offset, as last applied from the journals; `badParity` the rows and
halves whose parity half is poisoned (R402); `silent` the stacks that do not answer, with DEVCLK by which they have to, as TMOUT stood
when they fell silent (R404, R435). Reshape (R408, R409):
whether it runs, the stack it takes out, the watermark of each band (the rows of the new layout from it on are in place),
and whether it has ended. -/
structure Storage where
  mem : SMap 8
  tags : List (Nat × Nat × Nat)
  dirty : List Nat
  poison : List (Nat × BitVec 128)
  badParity : List (Nat × Nat)
  hostOwned : List Nat
  media : SMap 8
  journal : List JournalEntry
  stackStates : List StackState
  silent : List (Nat × Nat)
  cwds : List (Nat × Nat × Nat)
  packages : List Bool
  retained : List (Nat × RetPhase × Nat)
  reshaping : Bool
  castled : Option Nat
  watermarks : List Nat
  reshaped : Bool
deriving DecidableEq, Repr

/-- An error record E0 to E3 (R396) and a fault record F0 to F3 (R377) are four dwords. -/
structure Record where
  seq : Nat
  d0 : DWord
  d1 : DWord
  d2 : DWord
  d3 : DWord
deriving DecidableEq, Repr

/-- An access that waits for the answer to a fault record (R377, R378), with what FAIL needs: the cause, the address. -/
inductive Joiner
  | group (team grp : Nat) (split : Nat) (code : BitVec 8)
  | copy (uid : Nat) (va : DWord)
  | engine (core op : Nat) (code : BitVec 8) (va : DWord)
  | coll (uid : Nat)
  | stream (n : Nat)
  | hostCopy (n : Nat) (pc : DWord)
deriving DecidableEq, Repr

/-- An outstanding fault record (R377); one whose `seq` is 2^63 stands for a page whose accesses wait without one. -/
structure FaultRec where
  seq : Nat
  ctx : Nat
  vpn : Nat
  joined : List Joiner
deriving DecidableEq, Repr

/-- The management registers (R435), MARG0 and MARG1 as the running command has read them (R437), records that wait (R398), and DEVCLK at the last move of k (R428). -/
structure Mgmt where
  ready : Bool
  recovery : Bool
  irq : BitVec 6
  mcmd : DWord
  marg0 : DWord
  marg1 : DWord
  mresult : BitVec 8
  busy : Bool
  arg0 : DWord
  arg1 : DWord
  eqbase : DWord
  eqHead : Half
  eqTail : Half
  eqOverflow : Half
  fqbase : DWord
  fqHead : Half
  fqTail : Half
  cfbar : DWord
  cfva : DWord
  pcap : Half
  clk : BitVec 5
  tmout : DWord
  sar : List DWord
  rmaddr : DWord
  rmctl : DWord
  errSeq : Nat
  errWaiting : List Record
  faultSeq : Nat
  faultWaiting : List Record
  faults : List FaultRec
  clkMoved : Option DWord
deriving DecidableEq, Repr

/-- Where bring-up stands: the next step of R431, recovery (R420), or done; `warm` after a warm reset (R430). -/
inductive Boot
  | step1
  | step2 (warm : Bool)
  | recovery (warm : Bool)
  | step3
  | step4
  | step5
  | done
deriving DecidableEq, Repr

/-- What befalls the hardware and is no row of the opcode table: errors in a write journal (R402), errors of an L2 line or
of a line of node 1 (R405, R411), a word of a scratchpad that cannot be corrected, and a register or accumulator that a split's
next instruction or an engine operation reads and that cannot be (R406), a stack that stops answering or answers again (R404), a row
moved by reshape (R409), an unsupported request over the host link (R419), the write half of a host atomic (R160). -/
inductive Hardware
  | journalCorrected (stack idx : Nat)
  | journalLost (stack idx : Nat) (both : Bool)
  | lineLost (line : Nat)
  | capacityCorrected (line : Nat)
  | scratchLost (team offset : Nat)
  | registerLost (team grp split : Nat)
  | accumulatorLost (core op : Nat)
  | stackSilent (stack : Nat) (silent : Bool)
  | reshapeMove (band : Nat)
  | unsupportedRequest
  | hostAtomicWrite
deriving DecidableEq, Repr

/-- Who moves next (assumption log 1): the quarters choose what they issue in this cycle (R91); a split does what it can before its
instruction can go, or issues (assumption log 64); a stream executes its next command; the host writes
a BAR 0 register; an event of the table comes about; or something befalls the hardware. -/
inductive Move
  | choose
  | attempt (team grp split : Nat)
  | issue (team grp split : Nat)
  | command (stream : Nat)
  | bar0 (offset : Nat) (value : DWord)
  | event (i : Instr)
  | hardware (e : Hardware)
deriving DecidableEq, Repr

/-- Whose instruction or command is being executed. -/
inductive Issuer
  | none
  | split (team grp split : Nat)
  | stream (n : Nat)
deriving DecidableEq, Repr

/-- The whole machine. `coreclk` counts core clocks in sixteenths, at the rates in force (R31, R428). `turns` counts, for each
core, quarter and pipe, the cycles in which both boosted and unboosted splits were ready (R91); `reservations` are files reserved for gangs (R89). -/
structure State where
  agenda : List Move
  issuer : Issuer
  free : Nat
  uid : Nat
  devclk : DWord
  coreclk : Nat
  boot : Boot
  flash : List Byte
  image : List Byte
  ctxs : List Ctx
  streams : List Stream
  grids : List Grid
  reservations : List (Nat × Nat × Nat)
  turns : List ((Nat × Nat × Bool) × Nat)
  teams : List Team
  groups : List Group
  cores : List Core
  copies : List Copy
  colls : List Coll
  fabric : Fabric
  host : HostSide
  storage : Storage
  mgmt : Mgmt
deriving DecidableEq, Repr

/-- The ceiling of R428 for an ordering code. -/
def powerCeiling (code : Fin 3) : Half := if code = 0 then 2400 else 2150

/-- What Quegus fits to a QJH12-M, and the integrator may fit to the other codes (R2, R427): the host link and the ports;
the twelve stacks of a QJH12-K. -/
def hostLinkFitted : Bool := Config.orderingCode = 0 || Config.hostLinkFitted
def portsFitted : Bool := Config.orderingCode = 0 || Config.portsFitted
def stacksFitted : Bool := Config.orderingCode ≠ 2 || Config.stacksFitted

/-- A stream that was never started (R435: STAT and INFO read 0). -/
def Stream.idle : Stream :=
  { running := false, ctx := 0, pc := 0, wait := .none, die := 0, err := 0, report := 0, info := 0, gen := 0,
    copies := [], touched := [], lostWrites := false }

/-- The management registers at their Reset values (R435). -/
def Mgmt.reset : Mgmt :=
  { ready := false, recovery := false, irq := 0, mcmd := 0, marg0 := 0, marg1 := 0, mresult := 0, busy := false, arg0 := 0, arg1 := 0,
    eqbase := 0, eqHead := 0, eqTail := 0, eqOverflow := 0, fqbase := 0, fqHead := 0, fqTail := 0, cfbar := 0,
    cfva := 0, pcap := powerCeiling Config.orderingCode, clk := 16, tmout := 0x0000006400640064,
    sar := List.replicate 8 0, rmaddr := 0, rmctl := 0, errSeq := 0, errWaiting := [], faultSeq := 0,
    faultWaiting := [], faults := [], clkMoved := none }

/-- Storage after cold reset: contents are not kept (R430); unlisted bytes read as R431's step 3 leaves them. -/
def Storage.reset : Storage :=
  { mem := [], tags := [], dirty := [], poison := [], badParity := [], hostOwned := [], media := [], journal := [],
    stackStates := List.replicate 12 .live, silent := [], cwds := [], packages := List.replicate 8 false, retained := [],
    reshaping := false, castled := none, watermarks := List.replicate 16 15625000, reshaped := false }

/-- The machine right after a cold reset (R430, R431): bring-up has not begun. -/
def State.reset : State :=
  { agenda := [], issuer := .none, free := 0, uid := 0, devclk := 0, coreclk := 0, boot := .step1, flash := Config.flashImage,
    image := [], ctxs := [], streams := List.replicate 64 Stream.idle, grids := [], reservations := [], turns := [],
    teams := [], groups := [], cores := [], copies := [], colls := [],
    fabric := { deviceId := 0, topology := [], ports := List.replicate 36 (if portsFitted then .up else .down), requests := [], fetched := [],
                answered := [], outbox := [], early := [], comms := [] },
    host := { mem := [], linkUp := hostLinkFitted, msix := [], replies := [], fetchAdds := [], atomic := none, plugs := [] },
    storage := Storage.reset, mgmt := Mgmt.reset }

end Sys2Proof.Machine
end

