-- ==== Sys2Proof/Machine/Records.lean ====
section
/-!
DEFINITION. Free values, lookups and updates of the tables of State, interrupts, and the error and fault records
the device writes to the host (R396 to R398, 15; R377, 14; R439, 17).
-/
namespace Sys2Proof.Machine

/-- A free value of this step, told apart from the step's other free values by `use` and `k` (assumption log 2). -/
def State.freeAt (s : State) (use k : Nat) : Nat := Config.free (Nat.pair s.free (Nat.pair use k))

/-- The address of a record to which the spec gives none (R396, assumption log 22). -/
def State.openAddr (s : State) : DWord := BitVec.ofNat 64 (s.freeAt 9 s.mgmt.errSeq)

/-- Core clock cycles since reset, each at the rate that the core clock then had (R31, R428). -/
def State.cycle (s : State) : Nat := s.coreclk / 16

/-- A number no record of this run has had. -/
def State.fresh (s : State) : State := { s with uid := s.uid + 1 }

def State.group? (s : State) (t g : Nat) : Option Group := s.groups.find? fun h => h.team = t && h.gid = g
def State.team? (s : State) (t : Nat) : Option Team := s.teams.find? fun x => x.uid = t
def State.grid? (s : State) (u : Nat) : Option Grid := s.grids.find? fun x => x.uid = u
def State.ctx? (s : State) (c : Nat) : Option Ctx := s.ctxs.find? fun x => x.id = c
def State.copy? (s : State) (u : Nat) : Option Copy := s.copies.find? fun x => x.uid = u
def State.coll? (s : State) (u : Nat) : Option Coll := s.colls.find? fun x => x.uid = u
def Group.split? (h : Group) (p : Nat) : Option Split := h.splits.find? fun x => x.id = p

/-- A core that holds nothing. -/
def Core.empty (id : Nat) : Core := { id := id, l1 := [], gather := [], descs := [], forming := [], engine := [] }

/-- The core with device number `c` (R13). -/
def State.core (s : State) (c : Nat) : Core := (s.cores.find? fun x => x.id = c).getD (Core.empty c)

def State.stream (s : State) (n : Nat) : Stream := s.streams.getD n Stream.idle

def State.modGroup (s : State) (t g : Nat) (f : Group → Group) : State :=
  { s with groups := s.groups.map fun h => if h.team = t && h.gid = g then f h else h }
def State.modTeam (s : State) (t : Nat) (f : Team → Team) : State :=
  { s with teams := s.teams.map fun x => if x.uid = t then f x else x }
def State.modGrid (s : State) (u : Nat) (f : Grid → Grid) : State :=
  { s with grids := s.grids.map fun x => if x.uid = u then f x else x }
def State.modCtx (s : State) (c : Nat) (f : Ctx → Ctx) : State :=
  { s with ctxs := s.ctxs.map fun x => if x.id = c then f x else x }
def State.modCopy (s : State) (u : Nat) (f : Copy → Copy) : State :=
  { s with copies := s.copies.map fun x => if x.uid = u then f x else x }
def State.modColl (s : State) (u : Nat) (f : Coll → Coll) : State :=
  { s with colls := s.colls.map fun x => if x.uid = u then f x else x }
def State.modStream (s : State) (n : Nat) (f : Stream → Stream) : State :=
  { s with streams := s.streams.set n (f (s.stream n)) }
def Group.modSplit (h : Group) (p : Nat) (f : Split → Split) : Group :=
  { h with splits := h.splits.map fun x => if x.id = p then f x else x }

/-- A core's record, made when the core first holds something. -/
def State.modCore (s : State) (c : Nat) (f : Core → Core) : State :=
  if s.cores.any fun x => x.id = c then { s with cores := s.cores.map fun x => if x.id = c then f x else x }
  else { s with cores := s.cores ++ [f (Core.empty c)] }

/-! ### Interrupts and records -/

/-- Sets bits of IRQ (R435). -/
def State.raiseIrq (s : State) (b : BitVec 6) : State := { s with mgmt := { s.mgmt with irq := s.mgmt.irq ||| b } }

/-- Raises an MSI-X vector (R342); nothing leaves the device while the link is down (R418). -/
def State.raiseMsix (s : State) (v : Nat) : State :=
  if s.host.linkUp then { s with host := { s.host with msix := s.host.msix ++ [v] } } else s

/-- The management interrupt: a bit of IRQ and the vector after the streams' 64 (R342, R435). -/
def State.interrupt (s : State) (b : BitVec 6) : State := (s.raiseIrq b).raiseMsix 64

def State.hostWrite (s : State) (pa : Nat) (bytes : List Byte) : State :=
  { s with host := { s.host with mem := SMap.setRun s.host.mem pa bytes } }

def State.hostRead (s : State) (pa n : Nat) : List Byte := SMap.getRun s.host.mem pa n

def Record.bytes (r : Record) : List Byte :=
  leBytes 8 r.d0.toNat ++ leBytes 8 r.d1.toNat ++ leBytes 8 r.d2.toNat ++ leBytes 8 r.d3.toNat

/-- Bits [51:12] of a ring's base register (R435). -/
def ringBase (x : DWord) : Nat := bits x.toNat 51 12 * 4096

/-- Whether a ring of `size` slots has room (R439). -/
def ringRoom (tail head : Half) (size : Nat) : Bool := (tail - head).toNat < size

/-- Writes waiting error records while the link is up and the ring has room (R398, R439). -/
def State.flushErrors : List Record → State → State
  | [], s => { s with mgmt := { s.mgmt with errWaiting := [] } }
  | r :: rs, s =>
    if s.host.linkUp && ringRoom s.mgmt.eqTail s.mgmt.eqHead 256 then
      let s1 := s.hostWrite (ringBase s.mgmt.eqbase + s.mgmt.eqTail.toNat % 256 * 32) r.bytes
      State.flushErrors rs (({ s1 with mgmt := { s1.mgmt with eqTail := s1.mgmt.eqTail + 1 } } : State).interrupt 1)
    else { s with mgmt := { s.mgmt with errWaiting := r :: rs } }

/-- Writes waiting fault records likewise (R377, R398). -/
def State.flushFaults : List Record → State → State
  | [], s => { s with mgmt := { s.mgmt with faultWaiting := [] } }
  | r :: rs, s =>
    if s.host.linkUp && ringRoom s.mgmt.fqTail s.mgmt.fqHead 1024 then
      let s1 := s.hostWrite (ringBase s.mgmt.fqbase + s.mgmt.fqTail.toNat % 1024 * 32) r.bytes
      State.flushFaults rs (({ s1 with mgmt := { s1.mgmt with fqTail := s1.mgmt.fqTail + 1 } } : State).interrupt 2)
    else { s with mgmt := { s.mgmt with faultWaiting := r :: rs } }

/-- All waiting records, errors before faults. -/
def State.flushRecords (s : State) : State :=
  let s1 := State.flushErrors s.mgmt.errWaiting s
  State.flushFaults s1.mgmt.faultWaiting s1

/-- Unread records: those in the ring and those that wait (R398). -/
def State.unread (s : State) : Nat := (s.mgmt.eqTail - s.mgmt.eqHead).toNat + s.mgmt.errWaiting.length

/-- R396 to R398: one error record. `sev` 0 CE, 1 CWD, 2 STATE, 3 POISON, 4 CONSUMED, 5 FAIL. A CE or CWD record
that finds 256 records unread is dropped and counted. -/
def State.report (s : State) (sev src unit ctx detail : Nat) (addr : DWord) : State :=
  if sev ≤ 1 && 256 ≤ s.unread then
    { s with mgmt := { s.mgmt with eqOverflow := s.mgmt.eqOverflow + 1 } }
  else
    let e0 := sev * 2 ^ 60 + src * 2 ^ 52 + unit % 2 ^ 12 * 2 ^ 40 + ctx % 16 * 2 ^ 36 + detail % 2 ^ 36
    let r : Record := { seq := s.mgmt.errSeq, d0 := BitVec.ofNat 64 e0, d1 := addr, d2 := s.devclk,
                        d3 := BitVec.ofNat 64 s.mgmt.errSeq }
    State.flushErrors (s.mgmt.errWaiting ++ [r]) { s with mgmt := { s.mgmt with errSeq := s.mgmt.errSeq + 1 } }

/-- What a move makes of a state (R398): nothing, where its records would find neither one of the 256 places nor one of the 64 of
the second store. With the second store empty an event of more records goes on all the same (assumption log 25). -/
def State.unlessStalled (s s' : State) : State :=
  if s.mgmt.errWaiting.length < s'.mgmt.errWaiting.length && 256 < s.unread && 320 < s'.unread then s else s'

/-- The number of a fault record that was not written for want of room (R377). -/
def noSeq : Nat := 2 ^ 63

/-- The addresses whose translation a cached leaf entry is: those that index the same table entry (R111). -/
def TlbEntry.covers (e : TlbEntry) (va : DWord) : Bool := bits va.toNat 56 12 / 2 ^ (9 * e.level) = e.vpn / 2 ^ (9 * e.level)

/-- No translation of an address stays cached (R378). -/
def State.forget (s : State) (ctx : Nat) (va : DWord) : State :=
  s.modCtx ctx fun c => { c with tlb := c.tlb.filter fun e => !e.covers va }

/-- R377: a replayable fault of `why` on the page of `va` joins the page's record or makes a new one. With 1,024
records outstanding the access waits without one (assumption log 14). No translation that faulted stays cached (R378). -/
def State.faultRecord (s0 : State) (ctx : Nat) (va : DWord) (kind why : Nat) (grid team : Word) (j : Joiner) : State :=
  let s := s0.forget ctx va
  let vpn := bits va.toNat 56 12
  if s.mgmt.faults.any fun f => f.ctx = ctx && f.vpn = vpn then
    { s with mgmt := { s.mgmt with faults := s.mgmt.faults.map fun f =>
        if f.ctx = ctx && f.vpn = vpn && !(f.joined.contains j) then { f with joined := f.joined ++ [j] } else f } }
  else if 1024 ≤ (s.mgmt.faults.filter fun f => f.seq ≠ noSeq).length then
    { s with mgmt := { s.mgmt with faults := s.mgmt.faults ++ [{ seq := noSeq, ctx := ctx, vpn := vpn, joined := [j] }] } }
  else
    let r : Record :=
      { seq := s.mgmt.faultSeq,
        d0 := BitVec.ofNat 64 (va.toNat / 4096 * 4096 + ctx % 16),
        d1 := BitVec.ofNat 64 (kind * 256 + why),
        d2 := BitVec.ofNat 64 (grid.toNat * 2 ^ 32 + team.toNat),
        d3 := BitVec.ofNat 64 s.mgmt.faultSeq }
    let f : FaultRec := { seq := s.mgmt.faultSeq, ctx := ctx, vpn := vpn, joined := [j] }
    State.flushFaults (s.mgmt.faultWaiting ++ [r])
      { s with mgmt := { s.mgmt with faultSeq := s.mgmt.faultSeq + 1, faults := s.mgmt.faults ++ [f] } }

/-- Whether an access of a group has joined a record that the host has yet to answer. -/
def FaultRec.holds (t g : Nat) (f : FaultRec) : Bool := f.seq ≠ noSeq && f.joined.any fun j => match j with
  | .group t' g' _ _ => t' = t && g' = g
  | _ => false

/-- Whether an access is a group's of a team; whether it is one of some copies' or engine operations'. -/
def Joiner.ofTeam (t : Nat) : Joiner → Bool
  | .group t' _ _ _ => t' = t
  | _ => false
def Joiner.ofWork (copies ops : List Nat) : Joiner → Bool
  | .copy u _ => copies.contains u
  | .engine _ o _ _ => ops.contains o
  | _ => false

/-- R394: accesses that are dropped leave their records; a record that held nothing else is withdrawn. -/
def withdraw (gone : Joiner → Bool) (l : List FaultRec) : List FaultRec := l.filterMap fun f =>
  let rest := f.joined.filter fun j => !(gone j)
  if rest = [] && f.joined ≠ [] then none else some { f with joined := rest }

/-- R378: an access joined to a fault record may be made again; a group's instruction waits until each page that it
faulted on has been answered for. What a halted team's group had stalled is abandoned and waits for its resume (R367). -/
def State.retryJoiner (s : State) (j : Joiner) : State :=
  match j with
  | .group t g _ _ =>
    if (s.teams.any fun x => x.uid = t && x.halted && !x.handler) || s.mgmt.faults.any (·.holds t g) then s
    else s.modGroup t g fun h => { h with stalled := false }
  | .copy u _ => s.modCopy u fun c => { c with stalled := false }
  | .engine core o _ _ => s.modCore core fun c => { c with engine := c.engine.map fun e =>
      if e.uid = o then { e with waiting := false } else e }
  | .coll u => s.modColl u fun c => { c with stalled := false }
  | .stream n => s.modStream n fun x => match x.wait with
    | .page _ => { x with wait := .none }
    | _ => x
  | .hostCopy n pc => s.modStream n fun x => { x with copies := x.copies.map fun c =>
      if c.pc = pc then { c with stalled := false } else c }

/-- When there is room again, accesses that wait without a record are made again (R377). -/
def State.pruneFaults (s : State) : State :=
  let fs := s.mgmt.faults.filter fun f => f.seq ≠ noSeq || f.joined ≠ []
  if (fs.filter fun f => f.seq ≠ noSeq).length < 1024 then
    ((fs.filter fun f => f.seq = noSeq).flatMap fun f => f.joined).foldl State.retryJoiner
      { s with mgmt := { s.mgmt with faults := fs.filter fun f => f.seq ≠ noSeq } }
  else { s with mgmt := { s.mgmt with faults := fs } }

end Sys2Proof.Machine
end

