-- ==== Sys2Proof/Machine/Storage.lean ====
section
/-!
DEFINITION. Storage below the home slices: the physical map (R107), line keys (R112), reads and writes at a home slice
(R116, R143), poison (R405), rotated parity, the write journal and write-back (R118 to R121, R407, R408).
-/
namespace Sys2Proof.Machine

/-- Bytes of data in a band (R107, R408). -/
def bandSize : Nat := 44000000000
def bandSizeReshaped : Nat := 40000000000
/-- The first address of the capacity tier (R107). -/
def capacityBase : Nat := 0x10000000000

def inCapacity (pa : Nat) : Bool := capacityBase ≤ pa && pa < capacityBase + 1024000000000

/-- Whether node 1 is fitted (R25, R427). -/
def capacityFitted : Bool := Config.orderingCode = 0 || Config.capacityFitted

/-- Whether an address lies in node 0's bands (R107). -/
def State.inBand (s : State) (pa : Nat) : Bool :=
  pa < 2 ^ 40 && pa % 2 ^ 36 < (if s.storage.reshaped then bandSizeReshaped else bandSize)

/-- Whether a physical address holds something that may be accessed (R107, R124, R408). -/
def State.paExists (s : State) (pa : Nat) : Bool :=
  if inCapacity pa then capacityFitted
  else s.inBand pa && !(s.storage.retained.any fun r => r.1 = pa / 2 ^ 36 && r.2.1 ≠ .entering)

/-- Whether a page may reach a physical address: its 4 KiB all exist (R107). -/
def State.pageExists (s : State) (pa : Nat) : Bool := s.paExists (pa / 4096 * 4096) && s.paExists (pa / 4096 * 4096 + 4095)

/-! ### Keys and lines -/

def State.lineTag (s : State) (line : Nat) : KeyTag :=
  (s.storage.tags.find? fun t => t.1 = line).map fun t => t.2

def State.keyPair (s : State) (k : Nat × Nat) : List Byte :=
  match s.ctx? k.1 with
  | some c => ((c.keys.find? fun e => e.1 = k.2).map fun e => e.2).getD []
  | none => []

/-- A line's bytes as memory stores them, given its bytes under `tag` (R112). -/
def State.sealLine (s : State) (tag : KeyTag) (line : Nat) (l : List Byte) : List Byte :=
  match tag with
  | none => l
  | some k => xtsLine true (s.keyPair k) line l

/-- A line's bytes under `tag`, given its bytes as memory stores them (R112). -/
def State.openLine (s : State) (tag : KeyTag) (line : Nat) (l : List Byte) : List Byte :=
  match tag with
  | none => l
  | some k => xtsLine false (s.keyPair k) line l

/-- A line as an access under `key` reads it (R112). -/
def State.viewLine (s : State) (key : KeyTag) (line : Nat) : List Byte :=
  let l := SMap.getRun s.storage.mem (128 * line) 128
  if s.lineTag line = key then l else s.openLine key line (s.sealLine (s.lineTag line) line l)

/-- `n` bytes of device memory at `pa` as an access under `key` reads them. -/
def State.viewMem (s : State) (key : KeyTag) (pa n : Nat) : List Byte :=
  if s.storage.tags = [] && key = none then SMap.getRun s.storage.mem pa n
  else (((List.range ((pa + n + 127) / 128 - pa / 128)).flatMap fun i => s.viewLine key (pa / 128 + i)).drop
    (pa % 128)).take n

/-! ### Poison -/

/-- HOME of R23: the device slice of an address. -/
def homeSlice (pa : Nat) : Nat :=
  (List.range 6).foldl (fun x k => x ^^^ bits pa (7 * k + 13) (7 * k + 7)) 0

/-- The package of node 1 an address maps to (R411). -/
def packageOf (pa : Nat) : Nat := (pa - capacityBase) / 4096 % 8

def State.packageLost (s : State) (pa : Nat) : Bool := inCapacity pa && s.storage.packages.getD (packageOf pa) false

def State.linePoisoned (s : State) (line : Nat) : Bool :=
  (s.storage.poison.any fun p => p.1 = line) || s.packageLost (128 * line)

def linesOf (pa n : Nat) : List Nat :=
  if n = 0 then [] else (List.range ((pa + n - 1) / 128 + 1 - pa / 128)).map fun i => pa / 128 + i

/-- Whether a read of these bytes meets poison (R405). -/
def State.poisoned (s : State) (pa n : Nat) : Bool := (linesOf pa n).any s.linePoisoned

/-- Poisons a line and writes its POISON record (R405); of a line that is poisoned already no byte counts as written. -/
def State.poisonLine (s : State) (src unit detail line : Nat) : State :=
  if s.storage.poison.any fun p => p.1 = line then
    { s with storage := { s.storage with poison := s.storage.poison.map fun p => if p.1 = line then (line, 0) else p } }
  else ({ s with storage := { s.storage with poison := s.storage.poison ++ [(line, 0)] } } : State).report
    3 src unit 0 detail (BitVec.ofNat 64 (128 * line))

/-- A write of part of a poisoned line; poison ends once all 128 bytes have been written (R405). -/
def healPoison (line pa n : Nat) (l : List (Nat × BitVec 128)) : List (Nat × BitVec 128) :=
  (l.map fun p => if p.1 = line then
      (p.1, (List.range n).foldl (fun m i => if (pa + i) / 128 = line then m ||| BitVec.twoPow 128 ((pa + i) % 128) else m) p.2)
    else p).filter fun p => p.2 ≠ BitVec.allOnes 128

/-! ### Stripes and journals -/

/-- The live stacks in ascending order (R408). -/
def State.liveStacks (s : State) : List Nat := (List.range 12).filter fun k => s.storage.stackStates.getD k .live = .live

/-- The stacks of the reshaped layout in ascending order (R408). -/
def State.castledStacks (s : State) : List Nat := (List.range 12).filter fun k => s.storage.castled ≠ some k

/-- Whether data unit `n` of band `b` is in its place of the reshaped layout (R409). -/
def State.unitMoved (s : State) (b n : Nat) : Bool :=
  s.storage.castled.isSome && n * 256 < bandSizeReshaped && s.storage.watermarks.getD b 0 ≤ n / 10

/-- STRIPE of R118 and STRIPE11 of R408: data stack, row, byte in the unit, parity stack. -/
def State.stripe (s : State) (pa : Nat) : Nat × Nat × Nat × Nat :=
  let b := pa / 2 ^ 36
  let a := pa % 2 ^ 36
  let n := a / 256
  if s.unitMoved b n then
    let l := s.castledStacks
    let row := 15625000 * b + n / 10
    (l.getD ((row % 11 + 1 + n % 10) % 11) 0, row, a % 256, l.getD (row % 11) 0)
  else
    let row := 15625000 * b + n / 11
    let p := row % 12
    ((p + 1 + n % 11) % 12, row, a % 256, p)

/-- Whether a row is one of the reshaped layout already (R409). -/
def State.rowMoved (s : State) (row : Nat) : Bool :=
  s.storage.castled.isSome && s.storage.watermarks.getD (row / 15625000) 0 ≤ row % 15625000

/-- The data address of a unit of a row on a stack, by R118 and R408; none for its parity unit, for a unit that has moved, and
for one of the ranges that reshape takes away. -/
def State.unstripe (s : State) (stack row : Nat) : Option Nat :=
  let b := row / 15625000
  let r := row % 15625000
  let unit : Option Nat :=
    if s.rowMoved row then match s.castledStacks.findIdx? (· = stack) with
      | none => none
      | some i =>
        let j := (i + 22 - row % 11 - 1) % 11
        if j = 10 then none else some (10 * r + j)
    else
      let j := (stack + 24 - row % 12 - 1) % 12
      let n := 11 * r + j
      if j = 11 || s.unitMoved b n || (s.storage.castled.isSome && decide (bandSizeReshaped ≤ n * 256)) then none else some n
  unit.map fun n => b * 2 ^ 36 + n * 256

/-- Where a half-unit's first byte stands in `media`. -/
def mediaKey (stack row half : Nat) : Nat := stack * 2 ^ 40 + row * 256 + half * 128

/-- A half-unit with the journal's entries applied (R120). -/
def State.halfNow (s : State) (stack row half : Nat) : List Byte :=
  (s.storage.journal.filter fun e => e.stack = stack && e.row = row && e.half = half).foldl
    (fun b e => if e.parity && !e.whole then xorBytes b e.bytes else e.bytes)
    (SMap.getRun s.storage.media (mediaKey stack row half) 128)

/-- The XOR of the same half of a row's units on the live stacks other than one (R400). -/
def State.rebuild (s : State) (stack row half : Nat) : List Byte :=
  ((s.liveStacks.filter fun k => k ≠ stack)).foldl (fun b k => xorBytes b (s.halfNow k row half)) (List.replicate 128 0)

/-- Stacks that are lost. -/
def State.lostStacks (s : State) : List Nat := (List.range 12).filter fun k => s.storage.stackStates.getD k .live = .lost

/-- The lost stacks that hold a unit of a row. -/
def State.lostOf (s : State) (row : Nat) : List Nat :=
  if s.rowMoved row then s.lostStacks.filter fun k => s.storage.castled ≠ some k else s.lostStacks

/-- A line whose half-unit can be neither written nor rebuilt: its stack is lost and so is another of its row (R405, R407). -/
def State.lineGone (s : State) (line : Nat) : Bool :=
  !(inCapacity (128 * line)) &&
    (let (k, row, _, _) := s.stripe (128 * line)
     (s.lostOf row).contains k && 2 ≤ (s.lostOf row).length)

/-- R119 to R121, R407: the home slice writes a line back; it becomes clean. The parity unit takes the delta, or for a data unit
on a lost stack is formed anew from the other ones. Node 1 has no parity and no journal. A line that cannot be written back is poisoned (R405, R430). -/
def State.writeBackLine (s : State) (line : Nat) : State :=
  let s1 : State := { s with storage := { s.storage with dirty := s.storage.dirty.filter fun l => l ≠ line } }
  if inCapacity (128 * line) then s1
  else if s.lineGone line then s1.poisonLine 3 (homeSlice (128 * line)) (s.freeAt 7 line) line
  else
    let (st, row, off, p) := s.stripe (128 * line)
    let half := off / 128
    let new := s.sealLine (s.lineTag line) line (SMap.getRun s.storage.mem (128 * line) 128)
    let live k := s.storage.stackStates.getD k .live = .live
    let others := (s.liveStacks.filter fun k => k ≠ p).foldl (fun b k => xorBytes b (s.halfNow k row half)) new
    let dataEntry : List JournalEntry :=
      if live st then [{ stack := st, parity := false, whole := false, row := row, half := half, bytes := new,
                         partner := if live p then some (p, row) else none }] else []
    let parityEntry : List JournalEntry :=
      if live p then [{ stack := p, parity := true, whole := !live st, row := row, half := half,
                        bytes := if live st then xorBytes (s.halfNow st row half) new else others,
                        partner := if live st then some (st, row) else none }] else []
    { s1 with storage := { s1.storage with
        journal := s1.storage.journal ++ dataEntry ++ parityEntry,
        badParity := if live st then s1.storage.badParity else s1.storage.badParity.filter fun e => e ≠ (row, half) } }

/-- A full stripe (R119, R407): the 22 lines of a row are written with the parity formed from them, and nothing is read. The
parity halves are good again (R402). -/
def State.writeStripe (s : State) (lines : List Nat) : State :=
  let live k := s.storage.stackStates.getD k .live = .live
  let new (l : Nat) : List Byte := s.sealLine (s.lineTag l) l (SMap.getRun s.storage.mem (128 * l) 128)
  let (_, row, _, p) := s.stripe (128 * lines.headD 0)
  let data : List JournalEntry := lines.filterMap fun l =>
    let (st, _, off, _) := s.stripe (128 * l)
    if live st then some { stack := st, parity := false, whole := false, row := row, half := off / 128, bytes := new l,
                           partner := if live p then some (p, row) else none } else none
  let parity (half : Nat) : List Byte :=
    ((lines.filter fun l => l % 2 = half).map new).foldl xorBytes (List.replicate 128 0)
  let deltas : List JournalEntry := if live p then [0, 1].map fun half =>
      { stack := p, parity := true, whole := true, row := row, half := half, bytes := parity half, partner := none } else []
  { s with storage := { s.storage with
      dirty := s.storage.dirty.filter fun l => !(lines.contains l),
      journal := s.storage.journal ++ data ++ deltas,
      badParity := s.storage.badParity.filter fun e => e.1 ≠ row } }

/-- The data units of a line's stripe row (R118, R408). -/
def State.rowWidth (s : State) (line : Nat) : Nat := if s.unitMoved (line / 2 ^ 29) (line % 2 ^ 29 / 2) then 10 else 11

/-- The lines of a line's stripe row (R118, R408): beside the watermark, those that have not moved out of it (R409). -/
def State.rowLines (s : State) (line : Nat) : List Nat :=
  let b := line / 2 ^ 29
  let n := line % 2 ^ 29 / 2
  let w := s.rowWidth line
  ((List.range (2 * w)).filter fun i => s.unitMoved b (n / w * w + i / 2) = s.unitMoved b n).map fun i => b * 2 ^ 29 + n / w * w * 2 + i

/-- Lines whose write-backs are queued together are written back (R119); `l` are all of them, and the others those left. -/
def State.writeBackQueue (l : List Nat) : State → List Nat → State
  | s, [] => s
  | s, x :: xs =>
    if !s.storage.dirty.contains x then s.writeBackQueue l xs
    else
      let row := s.rowLines x
      if !inCapacity (128 * x) && row.length = 2 * s.rowWidth x && row.all (fun y => l.contains y && s.storage.dirty.contains y && !s.lineGone y) then
        (s.writeStripe row).writeBackQueue l xs
      else (s.writeBackLine x).writeBackQueue l xs

def State.writeBackLines (s : State) (l : List Nat) : State := s.writeBackQueue l l

/-! ### Changes of key -/

/-- Makes a line hold its bytes under `key`: held under another, it is written back and dropped first (R112). -/
def State.retag (s0 : State) (key : KeyTag) (line : Nat) : State :=
  if s0.lineTag line = key then s0
  else
    let s := if s0.storage.dirty.contains line then s0.writeBackLine line else s0
    let l := s.viewLine key line
    let tags := s.storage.tags.filter fun t => t.1 ≠ line
    { s with storage := { s.storage with
        mem := SMap.setRun s.storage.mem (128 * line) l,
        tags := match key with
          | none => tags
          | some k => (line, k.1, k.2) :: tags } }

/-- An access under another key than a dirty line is held with: its home slice writes the line back and drops it (R112). -/
def State.rekeyMem (s : State) (key : KeyTag) (pa n : Nat) : State :=
  if s.storage.tags = [] && key = none then s
  else (linesOf pa n).foldl (fun s x => if s.storage.dirty.contains x then s.retag key x else s) s

/-- Writes back and drops every line held under a key that `which` picks (R112: DESTROY, a new key). -/
def State.unkeyLines (s : State) (which : Nat → Nat → Bool) : State :=
  ((s.storage.tags.filter fun t => which t.2.1 t.2.2).map fun t => t.1).foldl (fun s l => s.retag none l) s

/-! ### Writes -/

/-- Puts a number into a rising list. -/
def insertNat (k : Nat) : List Nat → List Nat
  | [] => [k]
  | a :: l => if k < a then k :: a :: l else if k = a then a :: l else a :: insertNat k l

/-- Lines of a slice of the L2: 1.5 MiB (R11, R22). -/
def sliceLines : Nat := 12288

/-- A slice that would hold more dirty lines than it has writes one back, which the spec does not name (assumption log 8). -/
def State.spillSlice (s : State) (line : Nat) : State :=
  if s.storage.dirty.length ≤ sliceLines then s
  else
    let l := s.storage.dirty.filter fun d => homeSlice (128 * d) = homeSlice (128 * line)
    if l.length ≤ sliceLines then s else s.writeBackLine (l.getD (s.freeAt 20 line % l.length) line)

/-- A write performed at the home slice under a key (R116, R143); a page with UC passes straight to memory (R115); a
write to a lost package is discarded (R411). -/
def State.writeMem (s : State) (key : KeyTag) (pol : Caching) (pa : Nat) (bytes : List Byte) : State :=
  if bytes = [] || s.packageLost pa then s
  else
    let ls := linesOf pa bytes.length
    let s1 := ls.foldl (fun s l => s.retag key l) s
    let s2 : State := { s1 with storage := { s1.storage with
      mem := SMap.setRun s1.storage.mem pa bytes,
      dirty := ls.foldl (fun d l => insertNat l d) s1.storage.dirty,
      poison := ls.foldl (fun p l => healPoison l pa bytes.length p) s1.storage.poison } }
    if pol = .none then s2.writeBackLines ls else ls.foldl State.spillSlice s2

/-- Whether the host owns a line of a system-atomic range, so that it must be recalled first (R344). -/
def State.hostOwns (s : State) (pa n : Nat) : Bool := (linesOf pa n).any fun l => s.storage.hostOwned.contains l

end Sys2Proof.Machine
end

