-- ==== Sys2Proof/Machine/Access.lean ====
section
/-!
DEFINITION. Where an address leads: page walks and cached translations (R106 to R112), scratchpad addresses (R102 to
R104), and what an access may find (R360, R376), up to the place where it is performed (R142).
-/
namespace Sys2Proof.Machine

/-- R106: bits [63:57] all equal bit [56]. -/
def canonical (va : DWord) : Bool := va.extractLsb' 56 8 = 0 || va.extractLsb' 56 8 = 0xFF

/-- log2 of the page size and the leaf level of a PS code (R109). -/
def pageShift (ps : Nat) : Nat := [12, 14, 16, 18, 20, 21, 22, 24, 25, 26, 28, 29, 30, 32, 34, 36].getD ps 12
def pageLevel (ps : Nat) : Nat := if ps ≤ 4 then 0 else if ps ≤ 11 then 1 else 2

/-- The fields of a table entry (R108). -/
def pteV (e : DWord) : Bool := e.getLsbD 0
def pteW (e : DWord) : Bool := e.getLsbD 1
def pteX (e : DWord) : Bool := e.getLsbD 2
def ptePS (e : DWord) : Nat := bits e.toNat 7 4
def pteLeaf (e : DWord) : Bool := e.getLsbD 8
def pteUC (e : DWord) : Bool := e.getLsbD 9
def pteKey (e : DWord) : Nat := bits e.toNat 11 10
def ptePfn (e : DWord) : Nat := bits e.toNat 51 12 * 4096
def pteLoc (e : DWord) : Nat := bits e.toNat 53 52
def pteHdev (e : DWord) : Nat := bits e.toNat 63 54

/-- What a walk ends with; `held`: an entry's line must first be recalled from the host (R344). -/
inductive Walk
  | leaf (e : DWord) (level : Nat)
  | notPresent
  | malformed
  | hole
  | poison (pa : Nat)
  | held
deriving DecidableEq, Repr

/-- WALK of R110 from the table at `t` of the level below `n`, with the further malformed entries of R360. A next-level table in node
1 is walked as well (assumption log 66). -/
def State.walk (s : State) (va : Nat) : Nat → Nat → Walk
  | 0, _ => .malformed
  | lv + 1, t =>
    let a := t + 8 * bits va (9 * lv + 20) (9 * lv + 12)
    if !s.pageExists a then .hole
    else if s.hostOwns a 8 then .held
    else if s.poisoned a 8 then .poison a
    else
      let e : DWord := BitVec.ofNat 64 (leNat (s.viewMem none a 8))
      if !pteV e then .notPresent
      else if pteLeaf e then
        if pageLevel (ptePS e) ≠ lv || ptePfn e % 2 ^ pageShift (ptePS e) ≠ 0 || e.getLsbD 3 then .malformed
        else .leaf e lv
      else if lv = 0 || e &&& 0xFFF0000000000FFE#64 ≠ 0 then .malformed
      else s.walk va lv (ptePfn e)

/-- A page's translation: the walk's, or while the device may still use cached ones that differ, any of them (R111). -/
def State.translate (s : State) (c : Ctx) (va : DWord) : Walk :=
  let w := s.walk va.toNat 5 c.root.toNat
  match c.tlb.filter fun e => e.covers va && w ≠ .leaf e.leaf e.level with
  | [] => w
  | l => match l[s.freeAt 1 (Nat.pair c.id (bits va.toNat 56 12)) % (l.length + 1)]? with
    | some e => .leaf e.leaf e.level
    | none => w

/-- What an access finds: the place it is performed at, a cause, a replayable fault for the host (R360, R376), or a
walk that has to wait. -/
inductive Probe
  | ok (loc : Loc)
  | cause (code : BitVec 8)
  | poison (pa : Nat)
  | replay (why : BitVec 8)
  | held
deriving DecidableEq, Repr

/-- What kind of access it is: a read, a write or atomic, or an instruction fetch. -/
inductive AccessKind | read | write | fetch
deriving DecidableEq, Repr

/-- The place a leaf entry gives an address (R108, R112, R115, R360). A page of the device's own number is not one
that an L1 caches (R113). UC of a page that is not local, and HDEV of one that is not LOC 1, are ignored (assumption log 66). -/
def State.placeOf (s : State) (c : Ctx) (va : DWord) (e : DWord) : Probe :=
  let pa := ptePfn e + va.toNat % 2 ^ pageShift (ptePS e)
  if pteKey e ≠ 0 && (pteLoc e ≠ 0 || !(c.keys.any fun k => k.1 = pteKey e)) then .cause 0x14
  else if pteLoc e = 0 then
    if s.pageExists pa then .ok (.mem pa (if pteKey e = 0 then none else some (c.id, pteKey e)) (if pteUC e then .none else .full))
    else .cause 0x15
  else if pteLoc e = 1 then
    if pteHdev e = s.fabric.deviceId.toNat then
      if s.pageExists pa then .ok (.mem pa none .home) else .cause 0x15
    else .ok (.peer (pteHdev e) pa)
  else if pteLoc e = 2 then .ok (.host pa)
  else .ok (.window pa)

/-- R360, R375, R376: translation and permission of one address in a context. -/
def State.probe (s : State) (ctx : Nat) (va : DWord) (k : AccessKind) : Probe :=
  match s.ctx? ctx with
  | none => .cause 0x15
  | some c =>
    if !canonical va then .cause 0x11
    else match s.translate c va with
      | .notPresent => .replay 0x12
      | .malformed => .cause 0x14
      | .hole => .cause 0x15
      | .poison a => .poison a
      | .held => .held
      | .leaf e _ =>
        if (k = .write && !pteW e) || (k = .fetch && !pteX e) then .replay 0x13 else s.placeOf c va e

/-- The context keeps the translations of the pages of `vas`, beside older ones, until they are invalidated (R111). -/
def State.noteTlb (s : State) (ctx : Nat) (vas : List DWord) : State :=
  s.modCtx ctx fun c => vas.foldl (fun c va =>
    match s.walk va.toNat 5 c.root.toNat with
    | .leaf e lv =>
      if c.tlb.any fun t => t.covers va && t.leaf = e && t.level = lv then c
      else { c with tlb := { vpn := bits va.toNat 56 12, leaf := e, level := lv } :: c.tlb }
    | _ => c) c

/-! ### Reads under another key (R112) -/

/-- The table entries that a walk reads (R110). -/
def State.walkReads (s : State) (va : Nat) : Nat → Nat → List Nat
  | 0, _ => []
  | lv + 1, t =>
    let a := t + 8 * bits va (9 * lv + 20) (9 * lv + 12)
    let e : DWord := BitVec.ofNat 64 (leNat (s.viewMem none a 8))
    if !s.pageExists a || s.hostOwns a 8 then []
    else if s.poisoned a 8 || !pteV e || pteLeaf e || e &&& 0xFFF0000000000FFE#64 ≠ 0 then [a]
    else a :: s.walkReads va lv (ptePfn e)

/-- Whether no line and no page has a key, so that every access finds its line under its own. -/
def State.keyless (s : State) (ctx : Nat) : Bool := s.storage.tags = [] && s.ctxs.all fun c => c.id ≠ ctx || c.keys = []

/-- A walk to an address finds table lines that are held under other keys. -/
def State.rekeyWalk (s : State) (ctx : Nat) (va : DWord) : State :=
  match s.ctx? ctx with
  | some c => (s.walkReads va.toNat 5 c.root.toNat).foldl (fun s a => s.rekeyMem none a 8) s
  | none => s
def State.rekeyWalks (s : State) (ctx : Nat) (l : List DWord) : State :=
  if s.storage.tags = [] then s else l.foldl (fun s va => s.rekeyWalk ctx va) s

/-- A read of `n` bytes of one page by an agent of a context, and the walk to it, find lines that are held under other keys. -/
def State.rekeyPage (s : State) (ctx : Nat) (va : DWord) (n : Nat) : State :=
  match s.probe ctx va .read with
  | .ok (.mem pa key _) => (s.rekeyWalk ctx va).rekeyMem key pa n
  | _ => s.rekeyWalk ctx va

/-- The same for a range, a page at a time; the first number bounds the pages. -/
def State.rekeyPages (ctx : Nat) : Nat → DWord → Nat → State → State
  | 0, _, _, s => s
  | k + 1, va, n, s =>
    if n = 0 then s
    else
      let m := min n (4096 - va.toNat % 4096)
      State.rekeyPages ctx k (va + BitVec.ofNat 64 m) (n - m) (s.rekeyPage ctx va m)

def State.rekeySpans (s : State) (ctx : Nat) (l : List (DWord × Nat)) : State :=
  if s.keyless ctx then s else l.foldl (fun s e => State.rekeyPages ctx (e.2 / 4096 + 2) e.1 e.2 s) s

/-! ### Scratchpad addresses -/

/-- The fields of a partition word (R71). -/
def scratchSize (partword : Word) : Nat := bits partword.toNat 14 8 * 16384
def accTiles (partword : Word) : Nat := bits partword.toNat 19 16 * 4

/-- The teams of a grid resident on a core, in increasing TEAMID (R103). -/
def State.residentTeams (s : State) (grid core : Nat) : List Team :=
  (s.teams.filter fun t => t.grid = grid && t.core = core && !t.spawn && !t.ended).mergeSort fun a b => a.teamId ≤ b.teamId

/-- R102 to R104: the team and offset that `n` bytes at a scratchpad address lie at; none where R360 gives 0x11. -/
def State.scrPlace (s : State) (t : Team) (a : Word) (n : Nat) : Option (Nat × Nat) :=
  let c := bits a.toNat 30 24
  let off := bits a.toNat 19 0
  let sel := bits a.toNat 31 31 * 16 + bits a.toNat 23 20
  let target : Option Team :=
    if c = 127 then (if sel = 0 && !t.spawn then some t else none)
    else if c ≤ 95 then (s.residentTeams t.grid (t.core / 96 * 96 + c))[sel]?
    else none
  match target with
  | none => none
  | some x => if off + n ≤ scratchSize x.partword then some (x.uid, off) else none

/-! ### Places -/

/-- The space a place lies in and its address there; two places are one location when both agree (R141, R142). -/
def Loc.space : Loc → Nat × Nat
  | .mem _ _ _ => (0, 0)
  | .peer d _ | .remote d _ => (1, d)
  | .host _ | .window _ => (2, 0)
  | .scr t _ => (3, t)
def Loc.addr : Loc → Nat
  | .mem a _ _ | .peer _ a | .remote _ a | .host a | .window a | .scr _ a => a
def Loc.plus (l : Loc) (k : Nat) : Loc :=
  match l with
  | .mem a key pol => .mem (a + k) key pol
  | .peer d a => .peer d (a + k)
  | .remote d a => .remote d (a + k)
  | .host a => .host (a + k)
  | .window a => .window (a + k)
  | .scr t a => .scr t (a + k)

/-- Whether `n` bytes at one place may meet `m` bytes at another: an address that a peer translates may be any of its
memory (assumption log 70). -/
def Loc.meets (l : Loc) (n : Nat) (k : Loc) (m : Nat) : Bool :=
  l.space = k.space && (match l, k with
    | .remote _ _, .peer _ _ | .peer _ _, .remote _ _ => true
    | _, _ => overlaps l.addr n k.addr m)

/-- The bytes at a place, at its point of coherence (R143). Peer memory is not held here: its bytes come in responses. -/
def State.peek (s : State) (l : Loc) (n : Nat) : List Byte :=
  match l with
  | .mem pa key _ => s.viewMem key pa n
  | .peer _ _ | .remote _ _ => List.replicate n 0
  | .host pa | .window pa => s.hostRead pa n
  | .scr t off => match s.team? t with
    | some x => SMap.getRun x.scratch off n
    | none => List.replicate n 0

/-- Lines that a copy in flight or the drain path owns (R117): a thread access to one waits for the engine's write. -/
def State.engineOwns (s : State) (pa n : Nat) : Bool :=
  let ls := linesOf pa n
  (s.copies.any fun c => c.tiles.any fun t => t.st ≠ .done && ls.any fun l => t.lines.contains l) ||
    s.cores.any fun c => c.engine.any fun o => ls.any fun l => o.lines.contains l

/-- Whether an access to device memory has to wait at the home slice (R117, R344). -/
def State.locHeld (s : State) (l : Loc) (n : Nat) : Bool :=
  match l with
  | .mem pa _ _ => s.engineOwns pa n || s.hostOwns pa n
  | _ => false

/-- Whether a read at a place meets poison (R405), or a word of an SRAM pool that cannot be corrected (R406). -/
def State.locPoisoned (s : State) (l : Loc) (n : Nat) : Bool :=
  match l with
  | .mem pa _ _ => s.poisoned pa n
  | .scr t off => match s.team? t with
    | some x => x.badWords.any fun w => overlaps (4 * w) 4 off n
    | none => false
  | .peer _ _ | .remote _ _ | .host _ | .window _ => false

/-- Poison met at a physical address by an access to a virtual one (R397, R406). -/
def poisonCause (va : DWord) (pa : Nat) : LateCause :=
  { code := 0x16, addr := va, src := 0x03, unit := homeSlice pa, detail := 0 }

/-- The same at a place, which may lie in a scratchpad: then `addr` is the virtual address all the same. -/
def State.poisonAt (s : State) (va : DWord) (l : Loc) : LateCause :=
  match l with
  | .scr t _ => { code := 0x16, addr := va, src := 0x04, unit := ((s.team? t).map fun x => x.core).getD 0, detail := 0 }
  | _ => poisonCause va l.addr

/-! ### Requests over the fabric -/

/-- The JOB of a context (R325). -/
def State.job (s : State) (ctx : Nat) : Half := match s.ctx? ctx with
  | some c => c.job
  | none => 0

/-- The ports of the set through which a device is reached, UP or SLOW (R324, R412). -/
def State.portsTo (s : State) (dev : Nat) : List Nat :=
  (((s.fabric.topology.find? fun e => e.1 = dev).map fun e => e.2).getD []).filter fun p => s.fabric.ports.getD p .down ≠ .down

/-- The fields of TMOUT (R435): stack answer timeout in µs, peer timeout in units of 100 µs, collective timeout in ms, as
counts of DEVCLK (R31). -/
def State.stackTimeout (s : State) : Nat := bits s.mgmt.tmout.toNat 47 32 * 1250
def State.peerTimeout (s : State) : Nat := bits s.mgmt.tmout.toNat 31 16 * 125000
def State.collTimeout (s : State) : Nat := bits s.mgmt.tmout.toNat 15 0 * 1250000

/-- Sends a request to a peer, or to the host (R323, R325, R413), under a new tag. -/
def State.sendRequest (s : State) (dev : Option Nat) (job : Half) (addr : Nat) (ask : OutAsk) (use : ReqUse) : State :=
  let port := match dev with
    | none => 0
    | some d => let ps := s.portsTo d; ps.getD (s.freeAt 4 s.uid % ps.length) 0
  let r : Request := { tag := s.uid, dev := dev, job := job, addr := addr, ask := ask, use := use,
                       deadline := s.devclk.toNat + s.peerTimeout, port := port }
  { s.fresh with fabric := { s.fabric with requests := s.fabric.requests ++ [r],
                                           outbox := s.fabric.outbox ++ [.request r] } }

/-- What came back for an agent's request of a place (R323, R414, R415). -/
inductive Answer
  | bytes (l : List Byte)
  | fail (c : LateCause)
  | none
deriving DecidableEq, Repr

/-- The cause of a request to a peer, or to the host, that failed: `known` when a failure response shows that nothing
was performed (R397, R414, R415). -/
def failCause (va : DWord) (dev : Option Nat) (port : Nat) (known : Bool) : LateCause :=
  { code := 0x17, addr := va, src := if dev.isSome then 0x06 else 0x07, unit := if dev.isSome then port else 0,
    detail := if known then 1 else 0 }

/-- The cause of a poisoned response, or of a poisoned TLP of the host (R397, R406, R419). -/
def poisonedCause (va : DWord) (dev : Option Nat) (port : Nat) : LateCause :=
  { code := 0x16, addr := va, src := if dev.isSome then 0x06 else 0x07, unit := if dev.isSome then port else 0, detail := 0 }

/-- The answer kept for an agent's read of an address. -/
def State.answerFor (s : State) (key : Nat × Nat) (va : DWord) (dev : Option Nat) : Answer :=
  match s.fabric.fetched.find? fun e => e.1 = key && e.2.1 = va with
  | some (_, _, _, some (.data b)) => .bytes b
  | some (_, _, p, some .failure) => .fail (failCause va dev p true)
  | some (_, _, p, some .poisoned) => .fail (poisonedCause va dev p)
  | some (_, _, p, none) => .fail (failCause va dev p false)
  | none => .none

/-- The agent has taken its answers. -/
def State.takeAnswers (s : State) (key : Nat × Nat) : State :=
  if s.fabric.fetched.any fun e => e.1 = key then
    { s with fabric := { s.fabric with fetched := s.fabric.fetched.filter fun e => e.1 ≠ key } }
  else s

/-- Sends an agent's read unless it is on its way. -/
def State.askFor (s : State) (key : Nat × Nat) (va : DWord) (dev : Option Nat) (job : Half) (pa n : Nat) : State :=
  if s.fabric.requests.any fun r => match r.use with
    | .read k v => k = key && v = va
    | _ => false
  then s else s.sendRequest dev job pa (.read n) (.read key va)

/-! ### Caches of a core -/

/-- R113, R137, R144: `n` bytes of one line as a core's cache may serve them: a line it holds may be served old, or
may have been replaced (assumption log 8). -/
def State.cachedView (s : State) (lines : List CacheLine) (key : KeyTag) (pa n : Nat) : List Byte :=
  let now := s.viewMem key pa n
  match lines.find? fun c => c.line = pa / 128 && c.key = key with
  | none => now
  | some c =>
    let old := (c.bytes.drop (pa % 128)).take n
    if old = now then now else if s.freeAt 2 pa % 2 = 0 then now else old

/-- Lines of the L1 and of the gather fetch cache: 128 KiB and 64 KiB (R17, R137). -/
def l1Lines : Nat := 1024
def gatherLines : Nat := 512

/-- The cache holds the line, newly filled unless it served the old one; with `size` lines held, one that the spec does not
name is replaced (assumption log 8). -/
def State.cacheFill (s : State) (size : Nat) (lines : List CacheLine) (key : KeyTag) (pa : Nat) : List CacheLine :=
  let l := pa / 128
  let fill : CacheLine := { line := l, key := key, bytes := s.viewLine key l }
  if lines.any fun c => c.line = l && c.key = key then
    lines.map fun c => if c.line = l && c.key = key && s.freeAt 2 pa % 2 = 0 then fill else c
  else fill :: (if lines.length < size then lines else lines.eraseIdx (s.freeAt 18 pa % lines.length))

/-- R114: the whole L1 and the gather fetch cache are emptied. -/
def State.emptyCaches (s : State) (core : Nat) : State :=
  if s.cores.any fun c => c.id = core then s.modCore core fun c => { c with l1 := [], gather := [] } else s

/-- R114: the L1 line of a store, atomic or reduction is dropped. -/
def State.dropLines (s : State) (core : Nat) (l : Loc) (n : Nat) : State :=
  match l with
  | .mem pa _ _ =>
    if s.cores.any fun c => c.id = core then
      s.modCore core fun c => { c with
        l1 := c.l1.filter fun x => !(linesOf pa n).contains x.line,
        gather := c.gather.filter fun x => !(linesOf pa n).contains x.line }
    else s
  | _ => s

end Sys2Proof.Machine
end

