-- ==== Sys2Proof/Machine/BarWords.lean ====
section
/-!
DEFINITION. Barrier words (R161 to R163, R278 to R281): their fields, the completion test of BAROP, waking the splits
parked on them, and writes into a scratchpad, which may touch one.
-/
namespace Sys2Proof.Machine

def barPar (w : DWord) : Bool := w.getLsbD 63
def barFlt (w : DWord) : Bool := w.getLsbD 62
def barRsv (w : DWord) : BitVec 2 := w.extractLsb' 60 2
def barExp (w : DWord) : Nat := bits w.toNat 59 48
def barArr (w : DWord) : Nat := bits w.toNat 47 36
def barPend (w : DWord) : Int := (w.extractLsb' 0 36).toInt

/-- A word with its ARR and PEND fields replaced. -/
def barWith (w : DWord) (arr : Nat) (pend : Int) : DWord :=
  (w &&& 0xFFFF000000000000#64) ||| (BitVec.ofNat 64 (arr % 4096) <<< 36) ||| (BitVec.ofInt 36 pend).setWidth 64

/-- The completion test of BAROP (R162, R280, R381). -/
def barDone (old w : DWord) : Bool :=
  decide (w ≠ old) && !barFlt w && decide (barExp w ≠ 0) && decide (barArr w = barExp w) && decide (barPend w = 0)

/-- A phase completes: the parity becomes the inverse of the one before the operation, the arrival count zero (R162,
R280). -/
def barFlip (old w : DWord) : DWord :=
  barWith ((w &&& 0x7FFFFFFFFFFFFFFF#64) ||| (~~~old &&& 0x8000000000000000#64)) 0 0

def State.barWord (s : State) (t off : Nat) : DWord :=
  match s.team? t with
  | some x => BitVec.ofNat 64 (leNat (SMap.getRun x.scratch off 8))
  | none => 0

/-- Bytes of a scratchpad take new values; words that are written whole can be read again (R406). -/
def State.setScratch (s : State) (t off : Nat) (bytes : List Byte) : State :=
  s.modTeam t fun x => { x with
    scratch := SMap.setRun x.scratch off bytes,
    badWords := x.badWords.filter fun w => !(off ≤ 4 * w && 4 * w + 4 ≤ off + bytes.length) }

/-- A split parked on the barrier word. -/
def Split.onWord (t off : Nat) (p : Split) : Bool :=
  match p.park with
  | some (.barrier t' off' _ _ _) => t' = t && off' = off
  | _ => false

/-- A split parked on the word whose parity is no longer the word's (R163). -/
def Split.outOf (t off : Nat) (par : Bool) (p : Split) : Bool :=
  match p.park with
  | some (.barrier t' off' q _ _) => t' = t && off' = off && q != par
  | _ => false

/-- Whether a split is parked at a wait with an acquire at file scope or wider (R114, R281). -/
def Split.acquires (p : Split) : Bool :=
  match p.park with
  | some (.barrier _ _ _ acq wide) => acq && wide
  | _ => false

/-- Splits that `which` picks are no longer parked, those set aside for a handler too (R367). -/
def Group.unpark (h : Group) (which : Split → Bool) : Group :=
  let f (p : Split) : Split := if which p then { p with park := none } else p
  { h with splits := h.splits.map f, saved := h.saved.map fun l => l.map f }

def Group.anySplit (h : Group) (which : Split → Bool) : Bool :=
  h.splits.any which || (h.saved.getD []).any which

/-- The parked splits that `which` picks wake; an acquiring waiter's core empties its caches (R114, R281). -/
def State.wakeWaits (s : State) (which : Split → Bool) : State :=
  let cores := (s.groups.filter fun h => h.anySplit fun p => which p && p.acquires).filterMap fun h =>
    (s.team? h.team).map fun x => x.core
  cores.foldl State.emptyCaches { s with groups := s.groups.map fun h => h.unpark which }

/-- A barrier word that was `old` has taken the value `w`: the phase completes if the test of BAROP holds, and every split parked
on the word wakes (R280, R281); if not, those whose parity the word no longer has (R163). The barrier unit does not rewrite a
word that cannot be corrected (R406). -/
def State.barWritten (s : State) (t off : Nat) (old w : DWord) : State :=
  if s.locPoisoned (.scr t off) 8 then s
  else if barDone old w then (s.setScratch t off (leBytes 8 (barFlip old w).toNat)).wakeWaits (Split.onWord t off)
  else if barPar w != barPar old then s.wakeWaits (Split.outOf t off (barPar w))
  else s

/-- A barrier word takes a new value (R280). -/
def State.setBar (s : State) (t off : Nat) (w : DWord) : State :=
  (s.setScratch t off (leBytes 8 w.toNat)).barWritten t off (s.barWord t off) w

/-- The dwords a write meets that a barrier operation or a copy has named as barrier words (assumption log 12). -/
def State.barsIn (s : State) (t off n : Nat) : List Nat :=
  match s.team? t with
  | some x => x.barWords.filter fun b => overlaps b 8 off n
  | none => []

def State.nameBar (s : State) (t off : Nat) : State :=
  s.modTeam t fun x => { x with barWords := insertNat off x.barWords }

/-- A write into a scratchpad; one that touches a barrier word is a barrier operation (R161, R280). -/
def State.writeScratch (s : State) (t off : Nat) (bytes : List Byte) : State :=
  let bs := s.barsIn t off bytes.length
  let s1 := s.setScratch t off bytes
  bs.foldl (fun s1 b => s1.barWritten t b (s.barWord t b) (s1.barWord t b)) s1

end Sys2Proof.Machine
end

