-- ==== Sys2Proof/Machine/Numerics.lean ====
section
/-!
DEFINITION. Number formats, exact values, rounding, block scales and exact sums (R36 to R62, 02_numbers.md); the
arithmetic of atomics and reductions (R275 to R277, 09_isa_memory.md).
-/
namespace Sys2Proof.Machine

/-- A floating-point value: NaN, an infinity by its sign, or plus or minus `m` times 2^`e`; a zero keeps its sign. -/
inductive FVal
  | nan
  | inf (neg : Bool)
  | fin (neg : Bool) (m : Nat) (e : Int)
deriving DecidableEq, Repr

/-- What the codes of a format beyond its finite numbers mean: infinities and NaNs as IEEE 754, one NaN magnitude and
no infinity (E4M3), neither, or a two's complement integer (R36, R40, R41). -/
inductive FKind | ieee | oneNan | finite | int8
deriving DecidableEq, Repr

/-- A number format: exponent and fraction bits, bias, unused low bits of its container (R37), the greatest finite
value `maxM` times 2^`maxE`, the NaN written, and EMAX (R36, R40, R60). -/
structure Fmt where
  kind : FKind
  eb : Nat
  fb : Nat
  bias : Nat
  pad : Nat
  maxM : Nat
  maxE : Int
  nanCode : Nat
  emax : Int
deriving DecidableEq, Repr

def f64 : Fmt := ⟨.ieee, 11, 52, 1023, 0, 2 ^ 53 - 1, 971, 0x7FF8000000000000, 1023⟩
def f32 : Fmt := ⟨.ieee, 8, 23, 127, 0, 2 ^ 24 - 1, 104, 0x7FC00000, 127⟩
def f16 : Fmt := ⟨.ieee, 5, 10, 15, 0, 2 ^ 11 - 1, 5, 0x7E00, 15⟩
def bf16 : Fmt := ⟨.ieee, 8, 7, 127, 0, 2 ^ 8 - 1, 120, 0x7FC0, 127⟩
def tf32 : Fmt := ⟨.ieee, 8, 10, 127, 13, 2 ^ 11 - 1, 117, 0x7FC00000, 127⟩
def e4m3 : Fmt := ⟨.oneNan, 4, 3, 7, 0, 14, 5, 0x7F, 8⟩
def e5m2 : Fmt := ⟨.ieee, 5, 2, 15, 0, 7, 13, 0x7E, 15⟩
def e3m2 : Fmt := ⟨.finite, 3, 2, 3, 0, 7, 2, 0, 4⟩
def e2m3 : Fmt := ⟨.finite, 2, 3, 1, 0, 15, -1, 0, 2⟩
def e2m1 : Fmt := ⟨.finite, 2, 1, 1, 0, 3, 1, 0, 2⟩
def mxint8 : Fmt := ⟨.int8, 0, 7, 0, 0, 127, -6, 0, 0⟩
/-- The extended accumulator format (R60). -/
def fp40 : Fmt := ⟨.ieee, 8, 31, 127, 0, 2 ^ 32 - 1, 96, 0x7FC0000000, 127⟩

/-- The format of an M or FMT code (R126, R184); code 14 is FP40 where acc allows it (R319). -/
def fmtOf (m : Nat) : Fmt :=
  match m with
  | 0 => f64
  | 2 => f16
  | 3 => bf16
  | 4 => tf32
  | 5 => e4m3
  | 6 => e5m2
  | 7 => e3m2
  | 8 => e2m3
  | 9 => e2m1
  | 10 => mxint8
  | 14 => fp40
  | _ => f32

/-- P of R46, and the exponent of the smallest normal. -/
def Fmt.prec (F : Fmt) : Nat := F.fb + 1
def Fmt.emin (F : Fmt) : Int := 1 - (F.bias : Int)
def Fmt.isMxKind (F : Fmt) : Bool := F.kind ≠ .ieee || F = e5m2

/-- m times 2^k, rounded down. -/
def scaleNat (m : Nat) (k : Int) : Nat := if 0 ≤ k then m * 2 ^ k.toNat else m / 2 ^ (-k).toNat

/-- The value of a code (R36, R37, R40, R41). -/
def Fmt.value (F : Fmt) (code : Nat) : FVal :=
  if F.kind = .int8 then
    let c := code % 256
    if 128 ≤ c then .fin true (256 - c) (-6) else .fin false c (-6)
  else
    let c := code / 2 ^ F.pad
    let fr := c % 2 ^ F.fb
    let ex := c / 2 ^ F.fb % 2 ^ F.eb
    let neg := decide (c / 2 ^ (F.fb + F.eb) % 2 = 1)
    if F.kind = .ieee && ex = 2 ^ F.eb - 1 then (if fr = 0 then .inf neg else .nan)
    else if F.kind = .oneNan && ex = 2 ^ F.eb - 1 && fr = 2 ^ F.fb - 1 then .nan
    else if ex = 0 then .fin neg fr (F.emin - F.fb)
    else .fin neg (2 ^ F.fb + fr) ((ex : Int) - F.bias - F.fb)

/-- The code of a value of the format; a value that is none of them is cut towards zero. -/
def Fmt.code (F : Fmt) (x : FVal) : Nat :=
  let sg (neg : Bool) := if neg then 2 ^ (F.fb + F.eb) else 0
  match x with
  | .nan => F.nanCode
  | .inf neg => (sg neg + (2 ^ F.eb - 1) * 2 ^ F.fb) * 2 ^ F.pad
  | .fin neg m e =>
    if F.kind = .int8 then
      let k := scaleNat m (e + 6)
      if neg then (256 - k) % 256 else k
    else if m = 0 then sg neg * 2 ^ F.pad
    else
      let top : Int := (Nat.log2 m : Int) + e
      if top < F.emin then (sg neg + scaleNat m (e - (F.emin - F.fb))) * 2 ^ F.pad
      else (sg neg + (top + F.bias).toNat * 2 ^ F.fb + (scaleNat m (e - (top - F.fb)) - 2 ^ F.fb)) * 2 ^ F.pad

/-! ### Rounding -/

/-- The modes of R45; the stochastic one holds the word that SRMIX draws. -/
inductive Mode
  | ne | tz | dn | up
  | rs (draw : Nat)
deriving DecidableEq, Repr

/-- The mode of a field's code 0 to 3 (R184). -/
def modeOf (f : Nat) : Mode :=
  match f with
  | 1 => .tz
  | 2 => .dn
  | 3 => .up
  | _ => .ne

/-- ROUNDV's grid (R46): the exponent of the unit u at a magnitude. -/
def Fmt.unit (F : Fmt) (m : Nat) (e : Int) : Int :=
  if F.kind = .int8 then -6 else max ((Nat.log2 m : Int) + e) F.emin - F.prec + 1

/-- m times 2^e over the unit 2^u, rounded in a mode: ROUNDV's truncation and its test `up` (R46). -/
def roundUnits (mode : Mode) (neg : Bool) (m : Nat) (e u : Int) : Nat :=
  if u ≤ e then m * 2 ^ (e - u).toNat
  else
    let d := 2 ^ (u - e).toNat
    let n := m / d
    let r := m % d
    let up := match mode with
      | .ne => d < 2 * r || (2 * r = d && n % 2 = 1)
      | .tz => false
      | .up => decide (0 < r) && !neg
      | .dn => decide (0 < r) && neg
      | .rs draw => draw < r * 2 ^ 24 / d
    if up then n + 1 else n

/-- ROUNDV of R46: precision of F, exponent unbounded above. -/
def Fmt.roundV (F : Fmt) (mode : Mode) (x : FVal) : FVal :=
  match x with
  | .fin neg m e => if m = 0 then x else .fin neg (roundUnits mode neg m e (F.unit m e)) (F.unit m e)
  | _ => x

/-- Compares two magnitudes m times 2^e. -/
def magLt (m : Nat) (e : Int) (m' : Nat) (e' : Int) : Bool :=
  let k := min e e'
  m * 2 ^ (e - k).toNat < m' * 2 ^ (e' - k).toNat

/-- ROUND of R47: an overflow becomes the infinity or greatest finite value of its mode. -/
def Fmt.round (F : Fmt) (mode : Mode) (x : FVal) : FVal :=
  match F.roundV mode x with
  | .fin neg m e =>
    if magLt F.maxM F.maxE m e then
      match mode with
      | .tz => .fin neg F.maxM F.maxE
      | .dn => if neg then .inf true else .fin false F.maxM F.maxE
      | .up => if neg then .fin true F.maxM F.maxE else .inf false
      | _ => .inf neg
    else .fin neg m e
  | y => y

/-- ROUND to a code. -/
def Fmt.roundCode (F : Fmt) (mode : Mode) (x : FVal) : Nat := F.code (F.round mode x)

/-- A nonzero value below the smallest normal (R48). -/
def Fmt.tiny (F : Fmt) (x : FVal) : Bool :=
  match x with
  | .fin _ m e => m ≠ 0 && magLt m e 1 F.emin
  | _ => false

/-- .ftz of R48: a tiny value becomes a zero of its sign. -/
def Fmt.flush (F : Fmt) (ftz : Bool) (x : FVal) : FVal :=
  match x with
  | .fin neg _ _ => if ftz && F.tiny x then .fin neg 0 0 else x
  | _ => x

/-- SRMIX of R49. -/
def srmix (seed : BitVec 64) (stream : Nat) (i : Nat) : Nat :=
  let z0 : BitVec 64 := seed ^^^ (BitVec.ofNat 64 stream <<< 48) ^^^ BitVec.ofNat 64 (i % 2 ^ 48)
  let z1 := z0 + 0x9E3779B97F4A7C15
  let z2 := (z1 ^^^ (z1 >>> 30)) * 0xBF58476D1CE4E5B9
  let z3 := (z2 ^^^ (z2 >>> 27)) * 0x94D049BB133111EB
  let z4 := z3 ^^^ (z3 >>> 31)
  (z4.extractLsb' 40 24).toNat

/-! ### Exact arithmetic -/

def FVal.neg : FVal → FVal
  | .nan => .nan
  | .inf s => .inf !s
  | .fin s m e => .fin (!s) m e

def FVal.isNan : FVal → Bool
  | .nan => true
  | _ => false

def FVal.isZero : FVal → Bool
  | .fin _ m _ => m = 0
  | _ => false

/-- The product, exact (R243, R58). -/
def FVal.mul (a b : FVal) : FVal :=
  match a, b with
  | .nan, _ | _, .nan => .nan
  | .inf s, .inf t => .inf (s != t)
  | .inf s, .fin t m _ | .fin t m _, .inf s => if m = 0 then .nan else .inf (s != t)
  | .fin s m e, .fin t n f => .fin (s != t) (m * n) (e + f)

/-- The exact sum of two finite values as a signed multiple of a power of two. -/
def sumExact (s : Bool) (m : Nat) (e : Int) (t : Bool) (n : Nat) (f : Int) : Int × Int :=
  let k := min e f
  let x : Int := (m : Int) * 2 ^ (e - k).toNat
  let y : Int := (n : Int) * 2 ^ (f - k).toNat
  ((if s then -x else x) + (if t then -y else y), k)

/-- The sum, exact; a zero sum of unlike operands is -0 in RDN and +0 otherwise (R243). -/
def FVal.add (mode : Mode) (a b : FVal) : FVal :=
  match a, b with
  | .nan, _ | _, .nan => .nan
  | .inf s, .inf t => if s = t then .inf s else .nan
  | .inf s, _ | _, .inf s => .inf s
  | .fin s m e, .fin t n f =>
    if m = 0 && n = 0 && s = t then .fin s 0 0
    else
      let (x, k) := sumExact s m e t n f
      if x = 0 then .fin (mode = .dn) 0 0 else .fin (x < 0) x.natAbs k

/-- The integer square root: the greatest r below 2^n with r * r at most x. -/
def isqrtBits : Nat → Nat → Nat → Nat
  | 0, r, _ => r
  | n + 1, r, x => if (r + 2 ^ n) * (r + 2 ^ n) ≤ x then isqrtBits n (r + 2 ^ n) x else isqrtBits n r x
def isqrt (x : Nat) : Nat := isqrtBits (Nat.log2 x / 2 + 1) 0 x

/-- The quotient of two positive numbers to at least 70 bits with a last bit that says whether it is inexact: it
rounds as the exact quotient does in the modes of R242. -/
def divSticky (m : Nat) (e : Int) (n : Nat) (f : Int) : Nat × Int :=
  let k := 72 + Nat.log2 n
  let q := m * 2 ^ k / n
  (2 * q + (if m * 2 ^ k % n = 0 then 0 else 1), e - f - k - 1)

/-- The square root of m times 2^e likewise. -/
def sqrtSticky (m : Nat) (e : Int) : Nat × Int :=
  let k : Nat := 144 + (e % 2).toNat
  let x := m * 2 ^ k
  let r := isqrt x
  (2 * r + (if r * r = x then 0 else 1), (e - k) / 2 - 1)

/-- a / b of R243, in a form that rounds as the exact quotient. -/
def FVal.div (a b : FVal) : FVal :=
  match a, b with
  | .nan, _ | _, .nan => .nan
  | .inf _, .inf _ => .nan
  | .inf s, .fin t _ _ => .inf (s != t)
  | .fin s _ _, .inf t => .fin (s != t) 0 0
  | .fin s m e, .fin t n f =>
    if n = 0 then (if m = 0 then .nan else .inf (s != t))
    else if m = 0 then .fin (s != t) 0 0
    else
      let (q, k) := divSticky m e n f
      .fin (s != t) q k

/-- The square root of R243, likewise. -/
def FVal.sqrt (a : FVal) : FVal :=
  match a with
  | .nan => .nan
  | .inf s => if s then .nan else .inf false
  | .fin s m e =>
    if m = 0 then .fin s 0 0 else if s then .nan
    else
      let (q, k) := sqrtSticky m e
      .fin false q k

/-- Order of values that are not NaN; zeros of both signs are equal. -/
def FVal.lt (a b : FVal) : Bool :=
  match a, b with
  | .nan, _ | _, .nan => false
  | .inf s, .inf t => s && !t
  | .inf s, .fin _ _ _ => s
  | .fin _ _ _, .inf t => !t
  | .fin s m e, .fin t n f => (sumExact s m e (!t) n f).1 < 0

/-- Equality of values as R246 compares them. -/
def FVal.eqv (a b : FVal) : Bool := !a.isNan && !b.isNan && !a.lt b && !b.lt a

/-- R244: minimum or maximum; `num` ignores one NaN; -0 lies below +0. -/
def FVal.minMax (max num : Bool) (a b : FVal) : FVal :=
  if a.isNan && b.isNan then .nan
  else if a.isNan then (if num then b else .nan)
  else if b.isNan then (if num then a else .nan)
  else
    let below (x y : FVal) : Bool := x.lt y || (x.isZero && y.isZero && (match x with
      | .fin s _ _ => s
      | _ => false))
    if max then (if below a b then b else a) else (if below b a then b else a)

/-! ### Block scales -/

/-- SCALE of R42 as a value. -/
def scaleVal (c : Nat) : FVal := if c = 0xFF then .nan else .fin false 1 ((c : Int) - 127)

/-- QUANT of R54: the element's code and whether it saturated. -/
def Fmt.quant (F : Fmt) (mode : Mode) (c : Nat) (x : FVal) : Nat × Bool :=
  if c = 0xFF then (0, false)
  else match x with
    | .nan => if F.kind = .ieee || F.kind = .oneNan then (F.nanCode, false) else (0, true)
    | .inf s => if F = e5m2 then (F.code (.inf s), false) else (F.code (.fin s F.maxM F.maxE), true)
    | .fin s m e =>
      match F.roundV mode (.fin s m (e - ((c : Int) - 127))) with
      | .fin _ m' e' => if magLt F.maxM F.maxE m' e' then (F.code (.fin s F.maxM F.maxE), true) else (F.code (.fin s m' e'), false)
      | y => (F.code y, false)

/-- DEQUANT of R56 into format D. -/
def dequant (F D : Fmt) (mode : Mode) (c : Nat) (v : Nat) : FVal :=
  D.round (if D = f32 then .ne else mode) ((F.value v).mul (scaleVal c))

/-- BMAX's order of magnitudes (R52): a NaN above an infinity above the finite. -/
def FVal.abs : FVal → FVal
  | .nan => .nan
  | .inf _ => .inf false
  | .fin _ m e => .fin false m e

def bmaxOf (l : List FVal) : FVal :=
  l.foldl (fun b x => if b.isNan || x.isNan then .nan else if b.lt x.abs then x.abs else b) (.fin false 0 0)

/-- BSCALE of R53. -/
def bscaleOf (F : Fmt) (h : Nat) (l : List FVal) : Nat :=
  if l.any FVal.isNan then 0xFF
  else
    match bmaxOf (l.filter fun x => match x with
      | .fin _ _ _ => true
      | _ => false) with
    | .fin _ m e =>
      if m = 0 then 0
      else (min (max ((Nat.log2 m : Int) + e - F.emax + h) (-127)) 127 + 127).toNat
    | _ => 0

/-- Whether an element makes its block non-finite (R44). -/
def FVal.nonFinite : FVal → Bool
  | .fin _ _ _ => false
  | _ => true

/-! ### Exact sums -/

/-- EXACTDOT of R58: the exact sum of the products; a zero sum is +0 here and never read for its sign. -/
def exactDot (a b : List FVal) : FVal :=
  (List.zipWith FVal.mul a b).foldl (FVal.add .ne) (.fin false 0 0)

/-- One k-block's update of an accumulator (R59, R61, R62) in the operation's mode (R313). -/
def accStep (F : Fmt) (mode : Mode) (acc sa sb d : FVal) : FVal :=
  if sa.isNan || sb.isNan || d.isNan || acc.isNan then .nan
  else if d.isZero then acc
  else F.round mode (FVal.add mode acc ((sa.mul sb).mul d))

/-! ### Atomics -/

/-- An unsigned value of `w` bits read as two's complement. -/
def toSigned (w x : Nat) : Int := if 2 ^ (w - 1) ≤ x then (x : Int) - 2 ^ w else x

/-- The TYPE and OP codes of R275. -/
def atomTyOf (c : BitVec 3) : AtomTy :=
  match c.toNat with
  | 0 => .i32
  | 1 => .n32
  | 2 => .i64
  | 3 => .n64
  | 4 => .f32
  | 5 => .f64
  | 6 => .b32
  | _ => .b64
def atomOpOf (c : BitVec 3) : AtomOp :=
  match c.toNat with
  | 0 => .add
  | 1 => .min
  | 2 => .max
  | 3 => .and
  | 4 => .or
  | 5 => .xor
  | 6 => .exch
  | _ => .cas

/-- Bytes of an operand type (R275). -/
def atomSize (ty : AtomTy) : Nat :=
  match ty with
  | .i64 | .n64 | .f64 | .b64 => 8
  | _ => 4
def atomFloat (ty : AtomTy) : Bool := ty = .f32 || ty = .f64
def atomSigned (ty : AtomTy) : Bool := ty = .i32 || ty = .i64

/-- ATOMIC of R276: the new value, none where nothing is written. All values are numbers of the operand's width. -/
def atomNew (op : AtomOp) (ty : AtomTy) (old b sv : Nat) : Option Nat :=
  let w := 8 * atomSize ty
  let F := if ty = .f64 then f64 else f32
  let val x : Int := if atomSigned ty then toSigned w x else x
  match op with
  | .add =>
    some (if atomFloat ty then F.roundCode .ne (FVal.add .ne (F.value old) (F.value b)) else (old + b) % 2 ^ w)
  | .min =>
    some (if atomFloat ty then F.code (FVal.minMax false true (F.value old) (F.value b)) else if val b < val old then b else old)
  | .max =>
    some (if atomFloat ty then F.code (FVal.minMax true true (F.value old) (F.value b)) else if val old < val b then b else old)
  | .and => some (old &&& b)
  | .or => some (old ||| b)
  | .xor => some (old ^^^ b)
  | .exch => some b
  | .cas => if old = b then some sv else none

/-- Whether a host memory page takes the operation (R277): integer .add, .exch and .cas. -/
def hostAtomOk (op : AtomOp) (ty : AtomTy) : Bool := (op = .add && !atomFloat ty) || op = .exch || op = .cas

end Sys2Proof.Machine
end

