-- ==== Sys2Proof/Machine/Engines.lean ====
section
/-!
DEFINITION. The memory accesses of engines (copy units, drain path, ring sequencers, command processors): ranges cut at
pages, each piece at its own page's place (R134), and tensor descriptors (R125 to R129).
-/
namespace Sys2Proof.Machine

/-- What an engine's access of a range finds: its bytes; a piece that must be asked for over the fabric; a line that the
host owns (R344); a failure; a replayable fault (R376). -/
inductive Got
  | bytes (l : List Byte)
  | ask (dev : Option Nat) (pa n : Nat) (va : DWord)
  | held
  | fail (c : LateCause)
  | replay (va : DWord) (why : BitVec 8)
deriving DecidableEq, Repr

/-- A failure that is not poison and not the fabric's (R397 gives it no source: assumption log 21). -/
def plainCause (code : BitVec 8) (va : DWord) : LateCause := { code := code, addr := va, src := 0x03, unit := 0, detail := 0 }

/-- The CONSUMED record of an agent that is no group (R396, R397, R406): a physical address, and for the host link the class of
R419. Where bytes of a scratchpad stand within the pool is not architectural (R104, assumption log 22). -/
def State.consumedBy (s : State) (ctx : Nat) (c : LateCause) : State :=
  let (pa, detail) := if c.src = 4 then (c.addr.toNat, s.freeAt 7 c.addr.toNat) else match s.probe ctx c.addr .read with
    | .ok (.peer d a) => (a, d + (match s.fabric.ports.getD c.unit .down with
      | .up => 0
      | .slow => 1
      | .down => 2) * 2 ^ 10)
    | .ok l => (l.addr, if c.src = 3 then s.freeAt 7 c.addr.toNat else if c.src = 7 then (if c.code = 0x16 then 3 else 2) else 0)
    | .poison a => (a, s.freeAt 7 c.addr.toNat)
    | _ => (c.addr.toNat, if c.src = 7 then (if c.code = 0x16 then 3 else 2) else 0)
  s.report 4 c.src c.unit ctx detail (BitVec.ofNat 64 pa)

/-- Where a piece of a range lies. -/
def State.pieceLoc (s : State) (ctx : Nat) (va : DWord) (k : AccessKind) : Except Got Loc :=
  match s.probe ctx va k with
  | .ok loc => .ok loc
  | .cause c => .error (.fail (plainCause c va))
  | .poison a => .error (.fail (poisonCause va a))
  | .replay why => .error (.replay va why)
  | .held => .error .held

/-- A peer's answer, or the question. -/
def State.remotePiece (s : State) (key : Nat × Nat) (va : DWord) (dev : Option Nat) (pa n : Nat) : Got :=
  match s.answerFor key va dev with
  | .bytes b => .bytes b
  | .fail c => .fail c
  | .none => .ask dev pa n va

/-- Reads `n` bytes within one 4 KiB page. -/
def State.readPiece (s : State) (ctx : Nat) (key : Nat × Nat) (va : DWord) (n : Nat) : Got :=
  match s.pieceLoc ctx va .read with
  | .error g => g
  | .ok loc => match loc with
    | .peer d pa | .remote d pa => s.remotePiece key va (some d) pa n
    | .host pa | .window pa => if s.host.linkUp then .bytes (s.peek loc n) else s.remotePiece key va none pa n
    | .mem pa _ _ =>
      if s.hostOwns pa n then .held
      else match (linesOf pa n).find? s.linePoisoned with
        | some l => .fail (poisonCause va (128 * l))
        | none => .bytes (s.peek loc n)
    | .scr _ _ => if s.locPoisoned loc n then .fail (s.poisonAt va loc) else .bytes (s.peek loc n)

/-- Bytes left in the 4 KiB page of an address. -/
def pageRest (va : DWord) : Nat := 4096 - va.toNat % 4096

/-- Reads a range, a page at a time; the first number bounds the pages. -/
def State.readPages (s : State) (ctx : Nat) (key : Nat × Nat) : Nat → DWord → Nat → Got
  | 0, _, _ => .bytes []
  | k + 1, va, n =>
    if n = 0 then .bytes []
    else
      let m := min n (pageRest va)
      match s.readPiece ctx key va m with
      | .bytes b => match s.readPages ctx key k (va + BitVec.ofNat 64 m) (n - m) with
        | .bytes r => .bytes (b ++ r)
        | g => g
      | g => g

def State.readSpan (s : State) (ctx : Nat) (key : Nat × Nat) (va : DWord) (n : Nat) : Got :=
  s.readPages ctx key (n / 4096 + 2) va n

/-- A piece of a write with its place. -/
structure PutPiece where
  va : DWord
  loc : Loc
  bytes : List Byte
deriving DecidableEq, Repr

/-- The pieces of a write of a range, or what keeps it from being made. -/
def State.putPages (s : State) (ctx : Nat) : Nat → DWord → List Byte → Except Got (List PutPiece)
  | 0, _, _ => .ok []
  | k + 1, va, b =>
    if b = [] then .ok []
    else
      let m := min b.length (pageRest va)
      match s.pieceLoc ctx va .write with
      | .error g => .error g
      | .ok loc =>
        if (match loc with
          | .mem pa _ _ => s.hostOwns pa m
          | _ => false) then .error .held
        else match s.putPages ctx k (va + BitVec.ofNat 64 m) (b.drop m) with
          | .ok r => .ok (⟨va, loc, b.take m⟩ :: r)
          | .error g => .error g

def State.putPlan (s : State) (ctx : Nat) (va : DWord) (b : List Byte) : Except Got (List PutPiece) :=
  s.putPages ctx (b.length / 4096 + 2) va b

/-- A write by an engine at a place that is not a peer's. -/
def State.placeBytes (s : State) (l : Loc) (b : List Byte) : State :=
  match l with
  | .mem pa key uc => s.writeMem key uc pa b
  | .host pa | .window pa => s.hostWrite pa b
  | .scr t off => s.writeScratch t off b
  | .peer _ _ | .remote _ _ => s

/-- Whether a place is reached by a request: a peer's, or the host's while its link is down (R418). -/
def State.isRemote (s : State) (l : Loc) : Bool :=
  match l with
  | .peer _ _ | .remote _ _ => true
  | .host _ | .window _ => !s.host.linkUp
  | _ => false

def Loc.dev : Loc → Option Nat
  | .peer d _ | .remote d _ => some d
  | _ => none

/-- A piece cut at 128-byte units; the first number bounds the units. -/
def PutPiece.units : Nat → PutPiece → List PutPiece
  | 0, _ => []
  | k + 1, p =>
    if p.bytes = [] then []
    else
      let m := min p.bytes.length (128 - p.loc.addr % 128)
      ⟨p.va, p.loc, p.bytes.take m⟩ :: PutPiece.units k ⟨p.va + BitVec.ofNat 64 m, p.loc.plus m, p.bytes.drop m⟩

def PutPiece.cut (p : PutPiece) : List PutPiece := p.units (p.bytes.length / 128 + 2)

/-- The 128-byte unit that a piece cut at units lies in: its space and number. -/
def PutPiece.unit (p : PutPiece) : (Nat × Nat) × Nat := (p.loc.space, p.loc.addr / 128)

/-- The pieces by units: each unit's together. -/
def unitsOf (l : List PutPiece) : List (List PutPiece) :=
  ((l.map PutPiece.unit).eraseDups).map fun u => l.filter fun p => p.unit = u

/-- What one request asks for the pieces of a unit, from the address of the first on or from the lowest. -/
def unitAsk (base : Nat) (l : List PutPiece) : OutAsk :=
  match l with
  | [p] => .write p.bytes
  | _ => .masked (l.map fun p => (p.loc.addr - base, p.bytes))

/-- One request for each unit, so that a unit is written whole or not at all (R380, R441); their tags. -/
def State.sendUnits (s : State) (job : Half) (key : Nat × Nat) : List (List PutPiece) → List Nat × State
  | [] => ([], s)
  | [] :: l => s.sendUnits job key l
  | (p :: ps) :: l =>
    let base := ps.foldl (fun a q => min a q.loc.addr) p.loc.addr
    let (t, s') := (s.sendRequest p.loc.dev job base (unitAsk base (p :: ps)) (.write key p.va)).sendUnits job key l
    (s.uid :: t, s')

/-- Makes planned writes; the tags of those that go out as requests. -/
def State.putAll (s : State) (job : Half) (key : Nat × Nat) (l : List PutPiece) : List Nat × State :=
  ((l.filter fun p => !(s.isRemote p.loc)).foldl (fun s p => s.placeBytes p.loc p.bytes) s).sendUnits job key
    (unitsOf ((l.filter fun p => s.isRemote p.loc).flatMap PutPiece.cut))

/-- R277: no atomic on a host window, and on a host memory page only those that PCIe has. -/
def atomTarget (op : AtomOp) (ty : AtomTy) (l : Loc) : Option (BitVec 8) :=
  match l with
  | .window _ => some 0x18
  | .host _ => if hostAtomOk op ty then none else some 0x18
  | _ => none

/-- Bytes of a scratchpad, as an engine reads them (R406). -/
def State.readTile (s : State) (va : DWord) (t off n : Nat) : Got :=
  if s.locPoisoned (.scr t off) n then .fail (s.poisonAt va (.scr t off)) else .bytes (s.peek (.scr t off) n)

/-- The word that takes a saturation count (R131, R320, R335): where an atomic add may be made (R277, R406). -/
def State.countPlace (s : State) (ctx : Nat) (va : DWord) : Except Got Loc :=
  match s.pieceLoc ctx va .write with
  | .error g => .error g
  | .ok l => match atomTarget .add .n32 l with
    | some code => .error (.fail (plainCause code va))
    | none =>
      if s.locHeld l 4 then .error .held
      else if s.locPoisoned l 4 then .error (.fail (s.poisonAt va l))
      else .ok l

/-- Adds to a saturation count word (R131, R320, R335): an atomic add modulo 2^32. -/
def State.addCount (s : State) (job : Half) (key : Nat × Nat) (va : DWord) (l : Loc) (n : Nat) : List Nat × State :=
  if s.isRemote l then
    ([s.uid], s.sendRequest l.dev job l.addr (.atomic .add .n32 (BitVec.ofNat 64 n) 0) (.write key va))
  else ([], s.placeBytes l (leBytes 4 ((leNat (s.peek l 4) + n) % 2 ^ 32)))

/-- Lines of the address space as an engine's writes find them: those of this device's memory that they lie in, and those that do
not translate for a write yet (R117). -/
def State.ownLines (s : State) (ctx : Nat) (vas : List Nat) : List Nat × List Nat :=
  (vas.filterMap fun l => match s.probe ctx (BitVec.ofNat 64 (128 * l)) .write with
    | .ok (.mem pa _ _) => some (pa / 128)
    | _ => none,
   vas.filter fun l => match s.probe ctx (BitVec.ofNat 64 (128 * l)) .write with
    | .ok _ => false
    | _ => true)

/-- Sends what an engine asks for. -/
def State.sendAsk (s : State) (job : Half) (key : Nat × Nat) (g : Got) : State :=
  match g with
  | .ask dev pa n va => s.askFor key va dev job pa n
  | _ => s

/-! ### Tensor descriptors -/

/-- The fields of a descriptor's eight dwords (R125). -/
structure Desc where
  base : DWord
  sbase : DWord
  size0 : Nat
  size1 : Nat
  size2 : Nat
  box0 : Nat
  box1 : Nat
  box2 : Nat
  inline : Bool
  dimsM1 : Nat
  fmt : Nat
  stride1 : Nat
  stride2 : Nat
  qbase : DWord
  sat : DWord
  rsv : Bool
deriving DecidableEq, Repr

def descOf (t : List DWord) : Desc :=
  let d (i : Nat) : Nat := (t.getD i 0).toNat
  { base := t.getD 0 0, sbase := t.getD 1 0, size1 := bits (d 2) 63 32, size0 := bits (d 2) 31 0,
    box1 := bits (d 3) 63 48, box0 := bits (d 3) 47 40, inline := (t.getD 3 0).getLsbD 38, dimsM1 := bits (d 3) 37 36,
    fmt := bits (d 3) 35 32, size2 := bits (d 3) 31 0, box2 := bits (d 4) 47 40, stride1 := bits (d 4) 39 0,
    stride2 := bits (d 5) 39 0, qbase := t.getD 6 0, sat := t.getD 7 0,
    rsv := (t.getD 3 0).getLsbD 39 || bits (d 4) 63 48 ≠ 0 || bits (d 5) 63 40 ≠ 0 }

/-- Eight dwords of 64 bytes. -/
def dwordsOf (b : List Byte) : List DWord := (List.range (b.length / 8)).map fun i => BitVec.ofNat 64 (leNat ((b.drop (8 * i)).take 8))

/-- Bits per element of an FMT code (R126). -/
def fmtWidth (f : Nat) : Nat :=
  match f with
  | 0 | 14 => 64
  | 1 | 4 | 13 => 32
  | 2 | 3 | 12 => 16
  | 7 | 8 => 6
  | 9 => 4
  | _ => 8

def fmtMx (f : Nat) : Bool := 5 ≤ f && f ≤ 10

/-- Extents of the tensor and of the box, and strides, with the dimensions above DIMSM1 taken as R128 says. -/
def Desc.sizes (d : Desc) : Nat × Nat × Nat := (d.size0, if 1 ≤ d.dimsM1 then d.size1 else 1, if 2 ≤ d.dimsM1 then d.size2 else 1)
def Desc.box (d : Desc) : Nat × Nat × Nat :=
  (32 * (d.box0 + 1), if 1 ≤ d.dimsM1 then d.box1 + 1 else 1, if 2 ≤ d.dimsM1 then d.box2 + 1 else 1)
def Desc.strides (d : Desc) : Nat × Nat := (if 1 ≤ d.dimsM1 then d.stride1 else 0, if 2 ≤ d.dimsM1 then d.stride2 else 0)

/-- An origin's three numbers, those above DIMSM1 taken as 0 (R128). -/
def Desc.origin (d : Desc) (o : List Nat) : Nat × Nat × Nat :=
  (o.getD 0 0, if 1 ≤ d.dimsM1 then o.getD 1 0 else 0, if 2 ≤ d.dimsM1 then o.getD 2 0 else 0)

/-- The first byte of row (i1, i2). -/
def Desc.rowVa (d : Desc) (i1 i2 : Nat) : DWord :=
  d.base + BitVec.ofNat 64 (i1 * d.strides.1 + i2 * d.strides.2)

/-- Element i0 of a row of a format without scales, whole bytes wide (R127). -/
def Desc.elemVa (d : Desc) (i0 i1 i2 : Nat) : DWord := d.rowVa i1 i2 + BitVec.ofNat 64 (i0 * fmtWidth d.fmt / 8)

/-- Block k of a row of an MX format, and its scale byte (R127). -/
def Desc.blockVa (d : Desc) (k i1 i2 : Nat) : DWord :=
  d.rowVa i1 i2 + BitVec.ofNat 64 (k * (4 * fmtWidth d.fmt + if d.inline then 1 else 0))

/-- Blocks of 32 in a row (R127); a row that is not a multiple of 32 counts its last, shorter run. -/
def Desc.rowBlocks (d : Desc) : Nat := (d.size0 + 31) / 32

/-- The place of a block in a dense side tensor of scales (R127). -/
def Desc.sideVa (d : Desc) (side : DWord) (k i1 i2 : Nat) : DWord :=
  side + BitVec.ofNat 64 ((i2 * d.sizes.2.1 + i1) * d.rowBlocks + k)

def Desc.scaleVa (d : Desc) (k i1 i2 : Nat) : DWord :=
  if d.inline then d.blockVa k i1 i2 + BitVec.ofNat 64 (4 * fmtWidth d.fmt) else d.sideVa d.sbase k i1 i2

/-- The elements of `w` bits of a bit string (R43). -/
def elemsOf (w n : Nat) (b : List Byte) : List Nat :=
  let x := leNat b
  (List.range n).map fun i => x / 2 ^ (w * i) % 2 ^ w

/-- The bit string of elements of `w` bits (R43), in whole bytes. -/
def stringOf (w : Nat) (l : List Nat) : List Byte :=
  leBytes ((w * l.length + 7) / 8) (l.foldr (fun e acc => e % 2 ^ w + 2 ^ w * acc) 0)

end Sys2Proof.Machine
end

