-- ==== Sys2Proof/Machine/CopyData.lean ====
section
/-!
DEFINITION. What a copy moves (R126 to R132, R285 to R287): its geometry, the source elements of each run of 32
destination elements, their conversion, and where they go.
-/
namespace Sys2Proof.Machine

/-- The fields of the conversion word (R131). -/
def Copy.dfmt (c : Copy) : Nat := bits c.conv.toNat 15 12
def Copy.kind (c : Copy) : Nat := bits c.conv.toNat 11 9
def Copy.tr (c : Copy) : Bool := c.conv.getLsbD 8
def Copy.rnd (c : Copy) : Nat := bits c.conv.toNat 7 6

def Copy.sdesc (c : Copy) : Desc := descOf c.srcDesc
def Copy.ddesc (c : Copy) : Desc := descOf c.dstDesc

/-- Whether the shape has a source descriptor, and a destination descriptor (R285). -/
def Copy.hasSrcDesc (c : Copy) : Bool := c.shape = 0 || c.shape = 2
def Copy.hasDstDesc (c : Copy) : Bool := c.shape = 1 || c.shape = 2
def Copy.isFlat (c : Copy) : Bool := c.shape = 3

/-- The source box (R130), and the destination's extents, exchanged when TR is 1 (R286). -/
def Copy.box (c : Copy) : Nat × Nat × Nat := if c.shape = 1 then c.ddesc.box else c.sdesc.box
def Copy.ext (c : Copy) : Nat × Nat × Nat := if c.tr then (c.box.2.1, c.box.1, c.box.2.2) else c.box

/-- The destination's format, and the source's. -/
def Copy.outFmt (c : Copy) : Nat := if c.shape = 1 then c.ddesc.fmt else c.dfmt
def Copy.inFmt (c : Copy) : Nat := if c.shape = 1 then c.ddesc.fmt else c.sdesc.fmt

/-- Runs of up to 32 elements in a destination row, and in all. -/
def Copy.rowRuns (c : Copy) : Nat := (c.ext.1 + 31) / 32
def Copy.runs (c : Copy) : Nat := c.rowRuns * c.ext.2.1 * c.ext.2.2

/-- Bytes of a box's elements in a format, where the scales of its dense tile begin, and TILEBYTES (R129). -/
def tileElemBytes (f n : Nat) : Nat := n * fmtWidth f / 8
def tileScaleOff (f n : Nat) : Nat := (tileElemBytes f n + 15) / 16 * 16
def tileBytes (f n : Nat) : Nat := if fmtMx f then tileScaleOff f n + n / 32 else tileElemBytes f n

def Copy.elems (c : Copy) : Nat := c.box.1 * c.box.2.1 * c.box.2.2

/-- The bytes moved and credited (R130). -/
def Copy.total (c : Copy) : Nat := if c.isFlat then c.count else tileBytes c.outFmt c.elems

/-- Run number, and the coordinates (run in the row, i1, i2) of a destination run. -/
def Copy.runCoord (c : Copy) (r : Nat) : Nat × Nat × Nat :=
  (r % c.rowRuns, r / c.rowRuns % c.ext.2.1, r / c.rowRuns / c.ext.2.1)

/-- Elements of a destination run. -/
def Copy.runLen (c : Copy) (jb : Nat) : Nat := min 32 (c.ext.1 - 32 * jb)

/-! ### Source -/

/-- A source run: 32 element codes, its scale code, its new scale code (R131). -/
structure SrcRun where
  codes : List Nat
  sc : Nat
  qc : Nat
deriving DecidableEq, Repr

def SrcRun.outside : SrcRun := ⟨List.replicate 32 0, 0, 0⟩

def copyKey (c : Copy) : Nat × Nat := (0, c.uid)

/-- A byte of a scale side tensor. -/
def State.readByte (s : State) (ctx : Nat) (key : Nat × Nat) (va : DWord) : Except Got Nat :=
  match s.readSpan ctx key va 1 with
  | .bytes b => .ok (leNat b)
  | g => .error g

/-- The 32 source elements from box element 32 jb of row (i1, i2) of a descriptor's box (R127, R128). Of a block wholly outside the
tensor no QC side byte is read, and QC is 0 (assumption log 66). -/
def State.descRun (s : State) (c : Copy) (jb i1 i2 : Nat) : Except Got SrcRun :=
  let d := c.sdesc
  let o := d.origin c.srcOrg
  let t0 := o.1 + 32 * jb
  let t1 := o.2.1 + i1
  let t2 := o.2.2 + i2
  if d.sizes.1 ≤ t0 || d.sizes.2.1 ≤ t1 || d.sizes.2.2 ≤ t2 then .ok SrcRun.outside
  else
    let w := fmtWidth d.fmt
    let n := if fmtMx d.fmt then 32 else min 32 (d.size0 - t0)
    let va := if fmtMx d.fmt then d.blockVa (t0 / 32) t1 t2 else d.elemVa t0 t1 t2
    match s.readSpan c.ctx (copyKey c) va (n * w / 8) with
    | .bytes b =>
      let codes := elemsOf w n b ++ List.replicate (32 - n) 0
      match (if fmtMx d.fmt then s.readByte c.ctx (copyKey c) (d.scaleVa (t0 / 32) t1 t2) else .ok 0) with
      | .error g => .error g
      | .ok sc =>
        match (if c.kind = 1 || c.kind = 3 then s.readByte c.ctx (copyKey c) (d.sideVa d.qbase (t0 / 32) t1 t2) else .ok 0) with
        | .error g => .error g
        | .ok qc => .ok ⟨codes, sc, qc⟩
    | g => .error g

/-- The reads of global memory that `descRun` makes. -/
def Copy.descReads (c : Copy) (jb i1 i2 : Nat) : List (DWord × Nat) :=
  let d := c.sdesc
  let o := d.origin c.srcOrg
  let t0 := o.1 + 32 * jb
  let t1 := o.2.1 + i1
  let t2 := o.2.2 + i2
  if c.shape = 1 || d.sizes.1 ≤ t0 || d.sizes.2.1 ≤ t1 || d.sizes.2.2 ≤ t2 then []
  else
    (if fmtMx d.fmt then [(d.blockVa (t0 / 32) t1 t2, 4 * fmtWidth d.fmt), (d.scaleVa (t0 / 32) t1 t2, 1)]
     else [(d.elemVa t0 t1 t2, min 32 (d.size0 - t0) * fmtWidth d.fmt / 8)]) ++
    (if c.kind = 1 || c.kind = 3 then [(d.sideVa d.qbase (t0 / 32) t1 t2, 1)] else [])

/-- Those of a destination run, with TR of 32 source runs (R286). -/
def Copy.runReads (c : Copy) (r : Nat) : List (DWord × Nat) :=
  let (jb, j1, j2) := c.runCoord r
  if c.tr then (List.range (c.runLen jb)).flatMap fun t => c.descReads (j1 / 32) (32 * jb + t) j2 else c.descReads jb j1 j2

/-- The same of a dense tile in scratchpad (R129). -/
def State.tileRun (s : State) (c : Copy) (jb i1 i2 : Nat) : Except Got SrcRun :=
  let f := c.inFmt
  let w := fmtWidth f
  let r := (i2 * c.box.2.1 + i1) * (c.box.1 / 32) + jb
  let (t, off) := c.srcBase
  let at_ (p : Nat) : DWord := c.src + BitVec.ofNat 64 p
  let sp := tileScaleOff f c.elems + r
  match s.readTile (at_ (r * 4 * w)) t (off + r * 4 * w) (4 * w),
      (if fmtMx f then s.readTile (at_ sp) t (off + sp) 1 else .bytes [0]) with
  | .bytes b, .bytes sc => .ok ⟨elemsOf w 32 b, leNat sc, 0⟩
  | .bytes _, g | g, _ => .error g

def State.srcRun (s : State) (c : Copy) (jb i1 i2 : Nat) : Except Got SrcRun :=
  if c.shape = 1 then s.tileRun c jb i1 i2 else s.descRun c jb i1 i2

/-- The source elements of destination run (jb, j1, j2), with TR each from a row of its own (R286). -/
def State.runSource (s : State) (c : Copy) (jb j1 j2 : Nat) : Except Got (List (Nat × SrcRun)) :=
  if c.tr then
    (List.range (c.runLen jb)).foldr (fun t acc => match acc with
      | .error g => .error g
      | .ok l => match s.srcRun c (j1 / 32) (32 * jb + t) j2 with
        | .ok r => .ok ((r.codes.getD (j1 % 32) 0, r) :: l)
        | .error g => .error g) (.ok [])
  else match s.srcRun c jb j1 j2 with
    | .ok r => .ok (r.codes.map fun x => (x, r))
    | .error g => .error g

/-! ### Conversion -/

/-- The mode of RND for the element of index `i` (R49 to R51, R131). -/
def State.copyMode (s : State) (c : Copy) (i : Nat) : Mode :=
  match c.rnd with
  | 0 => .ne
  | 1 => .tz
  | _ => .rs (srmix (((s.grid? c.grid).map fun g => g.seed).getD 0) c.stream.toNat i)

/-- One element (R131): its code and whether it saturated. -/
def convElem (c : Copy) (mode : Mode) (x : Nat) (r : SrcRun) : Nat × Bool :=
  let S := fmtOf c.inFmt
  let D := fmtOf c.outFmt
  match c.kind with
  | 1 => D.quant mode r.qc (S.value x)
  | 2 => (D.code (dequant S D mode r.sc x), false)
  | 3 => D.quant mode r.qc ((S.value x).mul (scaleVal r.sc))
  | _ => (x, false)

/-- A destination run: its element bytes, its scale byte, its saturations. -/
structure OutRun where
  bytes : List Byte
  scale : Byte
  sats : Nat
deriving DecidableEq, Repr

/-- A destination run as its copy forms it (R131). The index of stochastic rounding is the element's place in the copy's tile or
box, also where a descriptor names the tensor (assumption log 19). -/
def State.formRun (s : State) (c : Copy) (r : Nat) : Except Got OutRun :=
  let (jb, j1, j2) := c.runCoord r
  match s.runSource c jb j1 j2 with
  | .error g => .error g
  | .ok l =>
    let i0 := (j2 * c.ext.2.1 + j1) * c.ext.1 + 32 * jb
    let es := l.mapIdx fun t e => convElem c (s.copyMode c (i0 + t)) e.1 e.2
    let sc := match l with
      | (_, r) :: _ => if c.kind = 1 || c.kind = 3 then r.qc else r.sc
      | [] => 0
    .ok ⟨stringOf (fmtWidth c.outFmt) (es.map fun e => e.1), BitVec.ofNat 8 sc, (es.filter fun e => e.2).length⟩

/-! ### Destination -/

/-- Some bytes of a destination: where they stand in its order, their address (a scratchpad offset, or a virtual address),
how many they are, and how many of them lie within the tensor. -/
structure Span where
  pos : Nat
  va : DWord
  n : Nat
  keep : Nat
deriving DecidableEq, Repr

/-- Where a run's element bytes go, and its scale byte, in dense order (R127, R128, R129). -/
def Copy.runSpans (c : Copy) (r : Nat) : Span × Option Span :=
  let (jb, j1, j2) := c.runCoord r
  let w := fmtWidth c.outFmt
  let mx := fmtMx c.outFmt
  let pos := if mx then r * 4 * w else ((j2 * c.ext.2.1 + j1) * c.ext.1 + 32 * jb) * w / 8
  let n := c.runLen jb * w / 8
  let spos := tileScaleOff c.outFmt c.elems + r
  if !c.hasDstDesc then
    (⟨pos, c.dst + BitVec.ofNat 64 pos, n, n⟩, if mx then some ⟨spos, c.dst + BitVec.ofNat 64 spos, 1, 1⟩ else none)
  else
    let d := c.ddesc
    let o := d.origin c.dstOrg
    let t0 := o.1 + 32 * jb
    let t1 := o.2.1 + j1
    let t2 := o.2.2 + j2
    let out := d.sizes.1 ≤ t0 || d.sizes.2.1 ≤ t1 || d.sizes.2.2 ≤ t2
    (⟨pos, if mx then d.blockVa (t0 / 32) t1 t2 else d.elemVa t0 t1 t2, n,
      if out then 0 else if mx then n else min n ((d.size0 - t0) * w / 8)⟩,
     if mx then some ⟨spos, d.scaleVa (t0 / 32) t1 t2, 1, if out then 0 else 1⟩ else none)

/-- A span of a run's elements or of its scale. -/
structure Place where
  run : Nat
  scale : Bool
  span : Span
deriving DecidableEq, Repr

/-- Puts a place among others that rise in address. -/
def insertPlace (p : Place) : List Place → List Place
  | [] => [p]
  | q :: l => if p.span.va ≤ q.span.va then p :: q :: l else q :: insertPlace p l

/-- Places get the positions that follow one another from `n` on. -/
def layPlaces : Nat → List Place → List Place
  | _, [] => []
  | n, p :: l => { p with span := { p.span with pos := n } } :: layPlaces (n + p.span.n) l

/-- What a copy writes, in destination address order (R132): a dense tile as it lies; by a descriptor, from its lowest
address on. -/
def Copy.places (c : Copy) : List Place :=
  let l := (List.range c.runs).flatMap fun r =>
    let (e, sc) := c.runSpans r
    ⟨r, false, e⟩ :: (match sc with
      | some sp => [⟨r, true, sp⟩]
      | none => [])
  if c.hasDstDesc then layPlaces 0 (l.foldr insertPlace []) else l

/-! ### Tiles -/

/-- A span cut at 128-byte units of the address space: each unit's number and how many bytes of the span it holds; the first
number bounds the units. -/
def unitCuts : Nat → DWord → Nat → List (Nat × Nat)
  | 0, _, _ => []
  | k + 1, va, n =>
    if n = 0 then []
    else
      let m := min n (128 - va.toNat % 128)
      (va.toNat / 128, m) :: unitCuts k (va + BitVec.ofNat 64 m) (n - m)

/-- The sizes of the units that some bytes in order lie in; bytes of one unit that stand together count as one. -/
def unitSizes : List (Nat × Nat) → List Nat
  | [] => []
  | e :: l => match l, unitSizes l with
    | e' :: _, n :: r => if e.1 = e'.1 then (e.2 + n) :: r else e.2 :: n :: r
    | _, r => e.2 :: r

/-- Where tiles of at most 4 KiB begin that hold whole units, after one that begins at `start`; `pos` is where the first of the units
left stands. -/
def packTiles (start pos : Nat) : List Nat → List Nat
  | [] => []
  | n :: l => if start + 4096 < pos + n then pos :: packTiles pos (pos + n) l else packTiles start (pos + n) l

/-- Where the tiles of a copy begin (R132): each is of at most 4 KiB, and none ends within a 128-byte unit of the destination, so that
each unit is written at once (R379, R380; assumption log 72). TILEBYTES of the source tile of a .t2b copy is the destination's
(R130). -/
def Copy.tileStarts (c : Copy) : List Nat :=
  if c.hasDstDesc then 0 :: packTiles 0 0 (unitSizes (c.places.flatMap fun p => unitCuts (p.span.n / 128 + 2) p.span.va p.span.n))
  else (List.range ((c.total + c.dst.toNat % 128 + 4095) / 4096)).map fun k => 4096 * k - c.dst.toNat % 128

def Copy.tileCount (c : Copy) : Nat := c.tileStarts.length

/-- Where tile `k` begins, and where it ends. -/
def Copy.tileLo (c : Copy) (k : Nat) : Nat := if k = 0 then 0 else min c.total (c.tileStarts.getD k c.total)
def Copy.tileHi (c : Copy) (k : Nat) : Nat := c.tileLo (k + 1)

/-- The last byte that the copy writes, as its place in the destination. -/
def Copy.lastPos (c : Copy) : Nat :=
  if c.hasDstDesc then c.places.foldl (fun m p => if p.span.keep = 0 then m else max m (p.span.pos + p.span.keep - 1)) 0
  else c.total - 1

/-- The tile that holds it (R379). -/
def Copy.lastTile (c : Copy) : Nat := (c.tileStarts.filter fun p => p ≤ c.lastPos).length - 1

/-- Bytes of a tile with their place. -/
structure TilePart where
  pos : Nat
  va : DWord
  bytes : List Byte
deriving DecidableEq, Repr

/-- The part of a span's bytes that a tile from `lo` to `hi` holds. -/
def cutPart (lo hi : Nat) (sp : Span) (b : List Byte) : List TilePart :=
  let a := max lo sp.pos
  let e := min hi (sp.pos + min sp.keep b.length)
  if e ≤ a then [] else [⟨a, sp.va + BitVec.ofNat 64 (a - sp.pos), (b.drop (a - sp.pos)).take (e - a)⟩]

/-- The places that meet a tile. -/
def Copy.tilePlaces (c : Copy) (lo hi : Nat) : List Place := c.places.filter fun p => overlaps p.span.pos p.span.n lo (hi - lo)

/-- What forming a tile gave: its parts, its saturations, and what stopped it with the runs not formed. -/
structure Formed where
  parts : List TilePart
  sats : Nat
  stop : Option (Got × List Nat)

/-- The runs of a tile's places are formed; saturations count with the first byte of a run's elements. -/
def State.formRuns (s : State) (c : Copy) (lo hi : Nat) (ps : List Place) : List Nat → Formed
  | [] => ⟨[], 0, none⟩
  | r :: rs =>
    match s.formRun c r with
    | .error g => ⟨[], 0, some (g, r :: rs)⟩
    | .ok o =>
      let f := s.formRuns c lo hi ps rs
      let mine := ps.filter fun p => p.run = r
      let here := mine.flatMap fun p => cutPart lo hi p.span (if p.scale then [o.scale] else o.bytes)
      ⟨here ++ f.parts, (if mine.any fun p => !p.scale && decide (lo ≤ p.span.pos) then o.sats else 0) + f.sats, f.stop⟩

/-- A .flat copy is formed a destination line at a time: run r covers the bytes of the r-th line it touches. -/
def Copy.flatSpan (c : Copy) (r : Nat) : Span :=
  let first := c.dst.toNat % 128
  let a := 128 * r - min first (128 * r)
  let e := min c.count (128 * (r + 1) - first)
  ⟨a, c.dst + BitVec.ofNat 64 a, e - a, e - a⟩

def Copy.flatRuns (c : Copy) (lo hi : Nat) : List Nat :=
  let first := c.dst.toNat % 128
  (List.range ((first + hi - 1) / 128 + 1 - (first + lo) / 128)).map fun i => (first + lo) / 128 + i

def State.formFlat (s : State) (c : Copy) (lo hi : Nat) : List Nat → Formed
  | [] => ⟨[], 0, none⟩
  | r :: rs =>
    let sp := c.flatSpan r
    let a := max lo sp.pos
    let e := min hi (sp.pos + sp.n)
    let got := if c.srcScr then s.readTile (c.src + BitVec.ofNat 64 a) c.srcBase.1 (c.srcBase.2 + a) (e - a)
      else s.readSpan c.ctx (copyKey c) (c.src + BitVec.ofNat 64 a) (e - a)
    match got with
    | .bytes b =>
      let f := s.formFlat c lo hi rs
      ⟨cutPart lo hi ⟨a, c.dst + BitVec.ofNat 64 a, e - a, e - a⟩ b ++ f.parts, 0, f.stop⟩
    | g => ⟨[], 0, some (g, r :: rs)⟩

/-- Tile `k` of a copy (R132): a part of its destination, in its order. -/
def State.formTile (s : State) (c : Copy) (k : Nat) : Formed :=
  let lo := c.tileLo k
  let hi := c.tileHi k
  if c.isFlat then s.formFlat c lo hi (c.flatRuns lo hi)
  else
    let ps := c.tilePlaces lo hi
    s.formRuns c lo hi ps ((ps.map fun p => p.run).eraseDups)

/-- The runs that a range of a destination's bytes holds, and the lines of the address space that a run's bytes lie in. -/
def Copy.tileRuns (c : Copy) (lo hi : Nat) : List Nat :=
  if c.isFlat then c.flatRuns lo hi else ((c.tilePlaces lo hi).map fun p => p.run).eraseDups
def Copy.runLines (c : Copy) (r : Nat) : List Nat :=
  let of (sp : Span) : List Nat := linesOf sp.va.toNat sp.keep
  if c.isFlat then of (c.flatSpan r)
  else of (c.runSpans r).1 ++ (match (c.runSpans r).2 with
    | some sp => of sp
    | none => [])

/-- The reads of global memory that a tile's forming makes. -/
def Copy.tileReads (c : Copy) (k : Nat) : List (DWord × Nat) :=
  let lo := c.tileLo k
  let hi := c.tileHi k
  if c.isFlat then (if c.srcScr then [] else [(c.src + BitVec.ofNat 64 lo, hi - lo)]) else (c.tileRuns lo hi).flatMap c.runReads

/-- A part cut at 128-byte units (R380, R394). -/
def TilePart.units : Nat → TilePart → List TilePart
  | 0, _ => []
  | k + 1, p =>
    if p.bytes = [] then []
    else
      let m := min p.bytes.length (128 - p.va.toNat % 128)
      ⟨p.pos, p.va, p.bytes.take m⟩ :: TilePart.units k ⟨p.pos + m, p.va + BitVec.ofNat 64 m, p.bytes.drop m⟩

def TilePart.cut (p : TilePart) : List TilePart := p.units (p.bytes.length / 128 + 2)

/-- R380: the parts in 128-byte units that were fully formed when a tile stopped: no run left shares their line. -/
def Copy.wholeUnits (c : Copy) (f : Formed) : List TilePart :=
  match f.stop with
  | none => f.parts
  | some (_, rest) =>
    let bad := rest.flatMap c.runLines
    (f.parts.flatMap TilePart.cut).filter fun p => !(bad.contains (p.va.toNat / 128))

/-- The writes of some parts: to the destination scratchpad, or to global pieces. -/
def State.partPieces (s : State) (c : Copy) : List TilePart → Except Got (List PutPiece)
  | [] => .ok []
  | p :: l =>
    match (if c.dstScr then .ok [⟨p.va, .scr c.dstBase.1 (c.dstBase.2 + p.pos), p.bytes⟩] else s.putPlan c.ctx p.va p.bytes),
        s.partPieces c l with
    | .ok a, .ok b => .ok (a ++ b)
    | .error g, _ => .error g
    | _, .error g => .error g

/-- The lines of this device's memory that a tile of a copy writes, which it owns from its issue (R117, R166), and those of the
address space that do not translate for a write yet. -/
def State.tileLines (s : State) (c : Copy) (k : Nat) : List Nat × List Nat :=
  if c.dstScr then ([], []) else s.ownLines c.ctx (((c.tileRuns (c.tileLo k) (c.tileHi k)).flatMap c.runLines).eraseDups)

end Sys2Proof.Machine
end

