-- ==== Sys2Proof/Machine/MatrixData.lean ====
section
/-!
DEFINITION. Matrix data (R302 to R315, R319, R320, 10_matrix.md): fragments, B images, accumulator regions, sparse
metadata, pruning, the arithmetic of mma and mma.sp, engine time, and the rows that acc moves.
-/
namespace Sys2Proof.Machine

/-! ### Operand shapes -/

/-- The k extent of an A format, its elements per lane, and the width of its k-blocks (R302, R61, R62). -/
def extentK (f : Nat) : Nat := if f = 0 then 16 else if f = 4 then 32 else 64
def segment (f : Nat) : Nat := extentK f / 2
def kBlock (f : Nat) : Nat := if f = 0 then 8 else 32

/-- Registers of words as one bit string, and its elements (R303). -/
def wordBytes (l : List Word) : List Byte := l.flatMap fun x => leBytes 4 x.toNat
def regElems (w n : Nat) (l : List Word) : List Nat := elemsOf w n (wordBytes l)

/-- The fields of a sparse header (R307). -/
def hdrChk (h : DWord) : Nat := bits h.toNat 63 52
def hdrKept (h : DWord) : Nat := bits h.toNat 31 26
def hdrN (h : DWord) : Nat := bits h.toNat 12 8
def hdrMC (h : DWord) : BitVec 2 := h.extractLsb' 6 2
def hdrM (h : DWord) : Nat := groupOf (hdrMC h)
def hdrFmt (h : DWord) : Nat := bits h.toNat 3 0
def hdrRsv (h : DWord) : Bool :=
  bits h.toNat 51 32 ≠ 0 || bits h.toNat 25 18 ≠ 0 || bits h.toNat 15 13 ≠ 0 || bits h.toNat 5 4 ≠ 0

/-- P and Q of R308: registers of the element string and of the index string. -/
def packP (w kept : Nat) : Nat := (kept * w + 31) / 32
def packQ (mc : BitVec 2) (kept : Nat) : Nat := (kept * idxBits mc + 31) / 32

/-- CHK12 of R309: `idx` holds the lanes' index registers. -/
def chk12 (h : DWord) (idx : List (List Word)) : Nat :=
  let s := idx.zipIdx.foldl (fun s (l : List Word × Nat) =>
    l.1.zipIdx.foldl (fun s (x : Word × Nat) => (s + (32 * x.2 + l.2 + 1) * x.1.toNat) % 2 ^ 32) s) (h.toNat % 2 ^ 32)
  bits s 11 0 ^^^ bits s 23 12 ^^^ bits s 31 24

/-- The indices of a lane's kept elements (R308). -/
def laneIdx (h : DWord) (regs : List Word) (w kept : Nat) : List Nat :=
  regElems (idxBits (hdrMC h)) kept (regs.drop (packP w kept))

/-- Whether the `n` indices of each group strictly increase (R310). -/
def risingIn (n : Nat) (l : List Nat) : Bool :=
  (List.range l.length).all fun e => e % n = 0 || decide (l.getD (e - 1) 0 < l.getD e 0)

/-- R310: the metadata of a latched sparse operand is well formed. -/
def Latch.wellFormed (a : Latch) : Bool :=
  let h := a.header
  let w := fmtBits a.fmt
  let n := hdrN h
  let kept := hdrKept h
  hdrFmt h = a.fmt.toNat && hdrMC h ≠ 3 && decide (1 ≤ n) && decide (n ≤ hdrM h) && kept = 32 * n / hdrM h &&
  !h.getLsbD 16 && !hdrRsv h &&
  hdrChk h = chk12 h (a.regs.map fun r => (r.drop (packP w kept)).take (packQ (hdrMC h) kept)) &&
  a.regs.all fun r => risingIn n (laneIdx h r w kept)

/-- A lane's segment of the A operand as element values, zeros at the positions a sparse one leaves out (R303, R313). -/
def Latch.laneElems (a : Latch) (l : Nat) : List FVal :=
  let F := fmtOf a.fmt.toNat
  let w := fmtBits a.fmt
  let regs := a.regs.getD l []
  if a.sparse then
    let kept := hdrKept a.header
    let n := hdrN a.header
    let codes := regElems w kept regs
    let at_ := (laneIdx a.header regs w kept).mapIdx fun e i => e / n * hdrM a.header + i
    (List.range (segment a.fmt.toNat)).map fun p => match at_.findIdx? (· = p) with
      | some e => F.value (codes.getD e 0)
      | none => .fin false 0 0
  else (regElems w (segment a.fmt.toNat) regs).map F.value

/-- A lane's scale code; 1.0 for a format without scales (R303, R308, R61). -/
def Latch.laneScale (a : Latch) (l : Nat) : Nat :=
  let w := fmtBits a.fmt
  let regs := a.regs.getD l []
  if !isMx a.fmt then 0x7F
  else
    let i := if a.sparse then packP w (hdrKept a.header) + packQ (hdrMC a.header) (hdrKept a.header) else w
    (regs.getD i 0).toNat % 256

/-- Row `r` (0 to 15) of a member's fragment over all of k, and its two scale codes. -/
def Latch.row (a : Latch) (r : Nat) : List FVal := a.laneElems r ++ a.laneElems (r + 16)
def Latch.rowScale (a : Latch) (r j : Nat) : Nat := a.laneScale (r + 16 * j)

/-! ### B images -/

/-- Where the scale bytes of an image begin, and its bytes (R304). -/
def imageScales (f : Nat) : Nat := (32 * extentK f * fmtWidth f / 8 + 15) / 16 * 16
def imageBytes (f : Nat) : Nat :=
  if fmtMx f then imageScales f + extentK f else 32 * extentK f * fmtWidth f / 8

/-- Column `n` of an image as element values, and the scale code of its block j (R304). -/
def imageCol (f : Nat) (b : List Byte) (n : Nat) : List FVal :=
  let k := extentK f
  let w := fmtWidth f
  (elemsOf w k ((b.drop (n * k * w / 8)).take (k * w / 8))).map (fmtOf f).value
def imageScale (f : Nat) (b : List Byte) (n j : Nat) : Nat :=
  if fmtMx f then (b.getD (imageScales f + n * (extentK f / 32) + j) 0).toNat else 0x7F

/-- The flag of k-block `j`: some column's block is not finite (R44, R314). -/
def imageFlag (f : Nat) (b : List Byte) (j : Nat) : Bool :=
  (List.range 32).any fun n =>
    imageScale f b n j = 0xFF || (((imageCol f b n).drop (kBlock f * j)).take (kBlock f)).any FVal.nonFinite

/-! ### Accumulator regions -/

/-- The format of an accumulator kind: 0 FP32, 1 FP40, 2 binary64 (R305). -/
def accFmt (kind : Nat) : Fmt := if kind = 0 then f32 else if kind = 1 then fp40 else f64

/-- Tiles of a region of `c` members (R305). -/
def regionTiles (kind c : Nat) : Nat := (16 * c + 31) / 32 * (if kind = 0 then 1 else 2)

/-- The key of an accumulator word: tile, row, column (R305). -/
def accKey (tile row col : Nat) : Nat := tile * 1024 + row * 32 + col

/-- Element (r, n) of a region at tile `d` (R305); RSV bits of an FP40 element are ignored (R60). -/
def regionGet (acc : SMap 32) (kind d r n : Nat) : Nat :=
  if kind = 0 then (SMap.get acc (accKey (d + r / 32) (r % 32) n)).toNat
  else
    let lo := (SMap.get acc (accKey (d + 2 * (r / 32)) (r % 32) n)).toNat
    let hi := (SMap.get acc (accKey (d + 2 * (r / 32) + 1) (r % 32) n)).toNat
    if kind = 1 then (hi * 2 ^ 32 + lo) % 2 ^ 40 else hi * 2 ^ 32 + lo
def regionSet (acc : SMap 32) (kind d r n x : Nat) : SMap 32 :=
  if kind = 0 then SMap.set acc (accKey (d + r / 32) (r % 32) n) (BitVec.ofNat 32 x)
  else
    SMap.set (SMap.set acc (accKey (d + 2 * (r / 32)) (r % 32) n) (BitVec.ofNat 32 x))
      (accKey (d + 2 * (r / 32) + 1) (r % 32) n) (BitVec.ofNat 32 (x / 2 ^ 32))

/-- Every element of a region of `m` rows takes the value `f` gives it. -/
def regionMap (acc : SMap 32) (kind d m : Nat) (f : Nat → Nat → Nat → Nat) : SMap 32 :=
  (List.range m).foldl (fun a r => (List.range 32).foldl (fun a n =>
    regionSet a kind d r n (f r n (regionGet acc kind d r n))) a) acc

/-- One k-block's update of an accumulator element's code (R59, R61, R62, R313). -/
def accUpdate (F : Fmt) (mode : Mode) (sa sb d : FVal) (acc : Nat) : Nat :=
  if sa.isNan || sb.isNan || d.isNan then F.nanCode
  else if d.isZero then acc
  else F.code (accStep F mode (F.value acc) sa sb d)

/-- MMA of R313 on one element: A's row, B's column, their scale codes by k-block. -/
def mmaElem (F : Fmt) (mode : Mode) (fmtA : Nat) (row col : List FVal) (sa sb : Nat → Nat) (acc : Nat) : Nat :=
  let kb := kBlock fmtA
  (List.range (extentK fmtA / kb)).foldl (fun acc j =>
    accUpdate F mode (scaleVal (sa j)) (scaleVal (sb j))
      (exactDot ((row.drop (kb * j)).take kb) ((col.drop (kb * j)).take kb)) acc) acc

/-- MMA of R313: `frags` the members' A operands in member order, `b` the B image. Every element of the region is written, so the RSV
bits of an FP40 element are zero afterwards, also where no k-block changed its value (R59, R60; assumption log 65). -/
def mmaRegion (acc : SMap 32) (kind d : Nat) (mode : Mode) (fmtA fmtB : Nat) (frags : List Latch) (b : List Byte) : SMap 32 :=
  let F := accFmt kind
  let cols := (List.range 32).map (imageCol fmtB b)
  frags.zipIdx.foldl (fun a fr => (List.range 16).foldl (fun a r =>
    let row := fr.1.row r
    (List.range 32).foldl (fun a n =>
      regionSet a kind d (16 * fr.2 + r) n (mmaElem F mode fmtA row (cols.getD n []) (fr.1.rowScale r) (imageScale fmtB b n)
        (regionGet acc kind d (16 * fr.2 + r) n))) a) a) acc

/-! ### Engine time -/

/-- MACs in a clock of a pair of formats (R32, R315). -/
def macRate (fa fb : Nat) : Nat :=
  if fmtMx fa then (if fa = 9 && fb = 9 then 16384 else 8192) else if fa = 4 then 2048 else if fa = 0 then 256 else 4096

/-- ENGTIME of R315 for mma and mma.sp, with the block flags given. -/
def engTime (members fa fb : Nat) (sparse : Bool) (frags : List Latch) (flag : Nat → Bool) : Nat :=
  let blocks := if fa = 4 then 1 else 2
  let tb := 16 * members * 32 * extentK fa / macRate fa fb / blocks
  let e := if sparse then
      frags.foldl (fun e a => max e (max 2 ((8 * hdrN a.header + hdrM a.header - 1) / hdrM a.header))) 0
    else 8
  ((List.range blocks).foldl (fun t j => t + tb * (if flag j then 8 else e)) 0 + 7) / 8

/-! ### Pruning -/

/-- MAG of R311: a NaN above an infinity above the finite magnitudes. -/
def magOf (F : Fmt) (sc code : Nat) : FVal := ((F.value code).mul (scaleVal sc)).abs

def magBelow (a b : FVal) : Bool := !a.isNan && (b.isNan || a.lt b)

/-- Positions `0 … n-1` by descending magnitude, equal ones by rising position (R311). -/
def byMag (l : List FVal) : List Nat :=
  (List.range l.length).mergeSort fun i j =>
    !(magBelow (l.getD i .nan) (l.getD j .nan)) && (magBelow (l.getD j .nan) (l.getD i .nan) || decide (i ≤ j))

/-- Positions a lane keeps under prune (R311). -/
def keepLane (m n : Nat) (mags : List FVal) : List Nat :=
  (List.range (mags.length / m)).flatMap fun g =>
    (((byMag ((mags.drop (g * m)).take m)).take n).mergeSort (· ≤ ·)).map fun p => g * m + p

/-- The diagonals an M by M block keeps under prune.t (R311); `blk` holds its magnitudes by row. -/
def keepDiagonals (m n : Nat) (blk : List FVal) : List Nat :=
  (byMag blk).foldl (fun d i =>
    let g := (i % m + m - i / m) % m
    if d.contains g || n ≤ d.length then d else d ++ [g]) []

/-- The positions each of the 32 lanes keeps (R311); `mags` holds the lanes' magnitudes. -/
def keptBy (t : Bool) (m n : Nat) (mags : List (List FVal)) : List (List Nat) :=
  if !t then mags.map (keepLane m n)
  else
    (List.range 32).map fun l =>
      let row := l % 16
      let half := l / 16
      let seg := (mags.getD l []).length
      (List.range (seg / m)).flatMap fun cb =>
        let rb := row / m
        let blk := (List.range m).flatMap fun rho =>
          ((mags.getD (half * 16 + rb * m + rho) []).drop (cb * m)).take m
        let ds := keepDiagonals m n blk
        (List.range m).filterMap fun kappa =>
          if ds.contains ((kappa + m - row % m) % m) then some (cb * m + kappa) else none

/-- Words of a bit string, `n` of them. -/
def wordsOf (n : Nat) (b : List Byte) : List Word := (List.range n).map fun i => BitVec.ofNat 32 (leNat ((b.drop (4 * i)).take 4))

/-- PRUNE of R311 on the 32 lanes' dense registers: the packed registers of each lane and the header.
DESIGN CHOICE: the packed scale register is the whole dense one, bits [31:8] with it (assumption log 75). -/
def pruneFrag (t : Bool) (fmt : BitVec 4) (n : Nat) (mc : BitVec 2) (regs : List (List Word)) : List (List Word) × DWord :=
  let F := fmtOf fmt.toNat
  let w := fmtBits fmt
  let m := groupOf mc
  let seg := segment fmt.toNat
  let kept := 32 * n / m
  let codes := regs.map fun r => regElems w seg r
  let scale (r : List Word) : Nat := if isMx fmt then (r.getD w 0).toNat % 256 else 0x7F
  let mags := regs.map fun r => (regElems w seg r).map (magOf F (scale r))
  let keep := keptBy t m n mags
  let pq := packP w kept
  let q := packQ mc kept
  let elems := List.zipWith (fun c k => wordsOf pq (stringOf w (k.map fun p => c.getD p 0))) codes keep
  let idx := keep.map fun k => wordsOf q (stringOf (idxBits mc) (k.map fun p => p % m))
  let h0 : Nat := kept * 2 ^ 26 + (if t then 2 ^ 17 else 0) + n * 2 ^ 8 + mc.toNat * 2 ^ 6 + fmt.toNat
  let h : DWord := BitVec.ofNat 64 (chk12 (BitVec.ofNat 64 h0) idx * 2 ^ 52 + h0)
  ((List.range 32).map fun l => elems.getD l [] ++ idx.getD l [] ++
    (if isMx fmt then [(regs.getD l []).getD w 0] else []), h)

/-! ### Rows that acc moves -/

/-- Bits of an element of acc's memory format; code 14 is a dword (R319). -/
def accWidth (fmt : Nat) : Nat := if fmt = 14 then 64 else fmtWidth fmt

/-- Bytes of a row of 32 elements in memory (R319). -/
def accRowBytes (fmt : Nat) : Nat := 4 * accWidth fmt + if fmtMx fmt then 1 else 0

/-- The alignment of acc's address and stride: the element's size (R319). -/
def accAlign (fmt : Nat) : Nat := if fmtMx fmt then 1 else accWidth fmt / 8

/-- The mode of code 0 to 4 for element (r, n) (R319, R320). -/
def accMode (code : Nat) (seed : DWord) (stream teamId r n : Nat) : Mode :=
  if code = 4 then .rs (srmix seed stream (((teamId * 64 + r) * 32 + n) % 2 ^ 48)) else modeOf code

/-- acc.st of a row (R320): its bytes and saturation count. -/
def accStoreRow (kind fmt : Nat) (h : Nat) (mode : Nat → Mode) (xs : List Nat) : List Byte × Nat :=
  let A := accFmt kind
  if fmt = 14 then (xs.flatMap fun x => leBytes 8 x, 0)
  else if fmtMx fmt then
    let F := fmtOf fmt
    let vs := xs.map A.value
    let c := bscaleOf F h vs
    let qs := vs.mapIdx fun n v => F.quant (mode n) c v
    (stringOf (fmtWidth fmt) (qs.map fun q => q.1) ++ [BitVec.ofNat 8 c], (qs.filter fun q => q.2).length)
  else ((xs.mapIdx fun n x => (fmtOf fmt).roundCode (mode n) (A.value x)).flatMap fun x => leBytes (fmtWidth fmt / 8) x, 0)

/-- acc.ld of one element (R320): exact; a NaN that changes format becomes the default NaN (R39). -/
def accLoadElem (kind fmt x : Nat) : Nat :=
  if kind = 1 && fmt = 1 then fp40.code (f32.value x) else if fmt = 14 then x % 2 ^ 40 else x

/-- acc.add of one element (R320). -/
def accAddElem (kind fmt : Nat) (mode : Mode) (dst x : Nat) : Nat :=
  (fmtOf fmt).roundCode mode (FVal.add mode ((fmtOf fmt).value dst) ((accFmt kind).value x))

end Sys2Proof.Machine
end

