-- ==== Sys2Proof/Machine/Settle.lean ====
section
/-!
DEFINITION. The writes of acc.st and acc.add (R169, R320, R321), and what a forced reset leaves of the work in flight
that the copy units and matrix engines do (R394).
-/
namespace Sys2Proof.Machine

/-! ### What an operation's fields say -/

/-- The accumulator kind of an operation (R312, R319). -/
def MOp.kind (o : MOp) : Nat :=
  match o.op with
  | .mma | .mmaSp => if o.fields.m = 0 then 2 else if o.fields.c.getLsbD 4 then 1 else 0
  | _ => bits o.fields.m.toNat 1 0

/-- The first tile of an operation's region, the member whose values all agree with, and the rows (R299, R305). -/
def MOp.tile (o : MOp) : Nat := o.fields.d.toNat
def MOp.lead (o : MOp) : Part := o.parts.headD { gid := 0, num := 0, va := 0, vb := 0, vb1 := 0, frag := none, mark := 0 }
def MOp.rows (o : MOp) : Nat := 16 * o.parts.length

/-- acc: memory format, mode, .hr, space (R319). -/
def accMemFmt (f : Long) : Nat := bits f.c.toNat 3 0
def accRounding (f : Long) : Nat := bits f.c.toNat 6 4
def accUseHr (f : Long) : Nat := bits f.c.toNat 7 7
def accInScratch (f : Long) : Bool := f.m.getLsbD 2

/-- gB of acc: row stride and stream number (R319). -/
def accStride (vb : DWord) : Nat := bits vb.toNat 39 0
def accStream (vb : DWord) : Nat := bits vb.toNat 63 48

/-- Where row `r` of a region of acc lies (R319). -/
def accRowVa (f : Long) (va vb : DWord) (r : Nat) : DWord :=
  let a := va + BitVec.ofNat 64 (r * accStride vb)
  if (accInScratch f) then (a.setWidth 32).setWidth 64 else a

def MOp.rowVa (o : MOp) (r : Nat) : DWord := accRowVa o.fields o.lead.va o.lead.vb r

/-- Row `r` of an operation's region. -/
def MOp.row (o : MOp) (x : Team) (r : Nat) : List Nat :=
  (List.range 32).map fun n => regionGet x.acc o.kind o.tile r n

/-! ### Writes -/

/-- The places in scratchpads that an operation's addresses name: each row's of acc, and that of the B image. DESIGN CHOICE: a team selector is
resolved once, when the last member issues the operation (R103, assumption log 71). -/
def State.opPlaces (s : State) (x : Team) (o : MOp) : List (Option (Nat × Nat)) :=
  match o.op with
  | .mma | .mmaSp => [s.scrPlace x (o.lead.vb.setWidth 32) (imageBytes (bits o.fields.c.toNat 3 0))]
  | .accLd | .accSt | .accAdd =>
    if accInScratch o.fields then
      (List.range o.rows).map fun r => s.scrPlace x ((o.rowVa r).setWidth 32) (accRowBytes (accMemFmt o.fields))
    else []
  | .accZero | .commit | .dismiss => []

/-- Where row `r` of an operation on scratchpad lies, or with `r` 0 its B image. -/
def MOp.place (o : MOp) (r : Nat) : Option (Nat × Nat) := (o.places[r]?).join

/-- The pieces of row `r`'s bytes; on scratchpad at the place that the issue resolved (assumption log 71). -/
def State.accRowPieces (s : State) (x : Team) (o : MOp) (r : Nat) (b : List Byte) : Except Got (List PutPiece) :=
  if (accInScratch o.fields) then match o.place r with
    | some (t, off) => .ok [⟨o.rowVa r, .scr t off, b⟩]
    | none => .error (.fail (plainCause 0x11 (o.rowVa r)))
  else s.putPlan x.ctx (o.rowVa r) b

/-- acc.st: the pieces of all rows, and the saturation count (R55, R320). -/
def State.accStores (s : State) (x : Team) (o : MOp) : List Nat → Except Got (List PutPiece × Nat)
  | [] => .ok ([], 0)
  | r :: rs =>
    let seed := ((s.grid? x.grid).map fun g => g.seed).getD 0
    let (b, k) := accStoreRow o.kind (accMemFmt o.fields) (accUseHr o.fields)
      (accMode (accRounding o.fields) seed (accStream o.lead.vb) x.teamId.toNat r) (o.row x r)
    match s.accRowPieces x o r b, s.accStores x o rs with
    | .ok p, .ok (l, n) => .ok (p ++ l, k + n)
    | .error g, _ => .error g
    | _, .error g => .error g

/-- A destination that acc.add may have: this device's own memory, or a scratchpad (R134). -/
def Loc.ownMemory : Loc → Bool
  | .mem _ _ _ | .scr _ _ => true
  | _ => false

/-- Puts bytes into pieces of the same lengths. -/
def refill : List PutPiece → List Byte → List PutPiece
  | [], _ => []
  | p :: l, b => { p with bytes := b.take p.bytes.length } :: refill l (b.drop p.bytes.length)

/-- acc.add: the pieces of all rows with their sums (R134, R320, R405). -/
def State.accSums (s : State) (x : Team) (o : MOp) : List Nat → Except Got (List PutPiece × Nat)
  | [] => .ok ([], 0)
  | r :: rs =>
    let w := accWidth (accMemFmt o.fields)
    match s.accRowPieces x o r (List.replicate (4 * w) 0) with
    | .error g => .error g
    | .ok ps =>
      match ps.find? fun p => !p.loc.ownMemory with
      | some p => .error (.fail (plainCause 0x18 p.va))
      | none => match ps.find? fun p => s.locPoisoned p.loc p.bytes.length with
        | some p => .error (.fail (s.poisonAt p.va p.loc))
        | none =>
          let old := elemsOf w 32 (ps.flatMap fun p => s.peek p.loc p.bytes.length)
          let new := List.zipWith (accAddElem o.kind (accMemFmt o.fields) (modeOf (accRounding o.fields))) old (o.row x r)
          match s.accSums x o rs with
          | .ok (l, n) => .ok (refill ps (stringOf w new) ++ l, n)
          | .error g => .error g

/-- The writes of acc.st or acc.add, or what keeps them from being made. -/
def State.accPlan (s : State) (x : Team) (o : MOp) : Except Got (List PutPiece × Nat) :=
  match o.op with
  | .accSt => s.accStores x o (List.range o.rows)
  | .accAdd => s.accSums x o (List.range o.rows)
  | _ => .ok ([], 0)

/-- The lines of this device's memory that acc.st or acc.add writes, owned from its taking effect (R117, R321), and those of the
address space that do not translate for a write yet. -/
def State.accLines (s : State) (x : Team) (o : MOp) : List Nat × List Nat :=
  if (accInScratch o.fields) || !(o.op = .accSt || o.op = .accAdd) then ([], [])
  else s.ownLines x.ctx
    (((List.range o.rows).flatMap fun r => linesOf (o.rowVa r).toNat (accRowBytes (accMemFmt o.fields))).eraseDups)

/-! ### Ownership of lines that translate later -/

/-- A tile, and an operation, take the lines of pages that translate for a write by now (R117, R166). -/
def State.tileOwns (s : State) (ctx : Nat) (t : Tile) : Tile :=
  if t.missing = [] then t
  else let (l, m) := s.ownLines ctx t.missing; { t with lines := t.lines ++ l, missing := m }
def State.opOwns (s : State) (o : EngineOp) : EngineOp :=
  if o.missing = [] then o
  else match s.team? o.team with
    | some x => let (l, m) := s.ownLines x.ctx o.missing; { o with lines := o.lines ++ l, missing := m }
    | none => o

/-- What translates by now is owned. -/
def State.takeLines (s : State) : State :=
  { s with copies := s.copies.map fun c => { c with tiles := c.tiles.map (s.tileOwns c.ctx) },
           cores := s.cores.map fun c => { c with engine := c.engine.map s.opOwns } }

/-! ### Work in flight at a forced reset -/

/-- Each 128-byte unit is written or not, as the free value of its address says. -/
def State.settleUnits (s0 : State) (key : Nat) (s : State) (l : List PutPiece) : State :=
  l.foldl (fun s p => if s0.freeAt 5 (Nat.pair key (p.va.toNat / 128)) % 2 = 0 || s0.isRemote p.loc then s else s.placeBytes p.loc p.bytes) s

/-- The 128-byte units of the tiles of a copy that are not done, each written whole or not at all (R394). -/
def State.settleCopy (s : State) (c : Copy) : State :=
  c.tiles.zipIdx.foldl (fun s' t =>
    if t.1.st = .done then s'
    else
      let ps := if t.1.st = .sent then t.1.rest.map fun r => ⟨r.1, r.2.1, r.2.2⟩
        else (c.wholeUnits (s.formTile c t.2)).flatMap TilePart.cut
      s.settleUnits c.uid s' (ps.flatMap fun p => match s.partPieces c [p] with
        | .ok l => l
        | .error _ => [])) s

/-- The units of an acc.st or the whole of an acc.add that has not run, written or not (R394). -/
def State.settleEngineOp (s : State) (o : EngineOp) : State :=
  match s.team? o.team with
  | none => s
  | some x =>
    if o.started || !(x.convs.any fun c => c.uid = o.conv && !c.broken) then s
    else match s.accPlan x o.op with
      | .error _ => s
      | .ok (ps, _) =>
        if o.op.op = .accSt then s.settleUnits o.uid s (ps.flatMap PutPiece.cut)
        else if s.freeAt 5 (Nat.pair o.uid 0) % 2 = 0 then s
        else ps.foldl (fun s p => s.placeBytes p.loc p.bytes) s

end Sys2Proof.Machine
end

