-- ==== Sys2Proof/Machine/Ops.lean ====
section
/-!
DEFINITION. The shared operations of groups and teams: registers, taking an exception and returning from one (R359 to
R372), kills and forced resets (R372, R394, R442), and the issue of one fetched instruction (R90, R183, R187, R188).
-/
namespace Sys2Proof.Machine

/-! ### Registers -/

/-- g0 reads zero (R181). -/
def Group.greg (h : Group) (n : Nat) : DWord := if n = 0 then 0 else SMap.get h.g n
/-- A write to g0 is discarded (R181). -/
def Group.setG (h : Group) (n : Nat) (x : DWord) : Group := if n = 0 then h else { h with g := SMap.set h.g n x }
def Group.lreg (h : Group) (r lane : Nat) : Word := SMap.get h.v (32 * r + lane)
def Group.setLreg (h : Group) (r lane : Nat) (x : Word) : Group := { h with v := SMap.set h.v (32 * r + lane) x }
/-- dN of field value `r` is v(r + 1):v(r) (R179, R190). -/
def Group.lpair (h : Group) (r lane : Nat) : DWord := h.lreg (r + 1) lane ++ h.lreg r lane
def Group.setLpair (h : Group) (r lane : Nat) (x : DWord) : Group :=
  (h.setLreg r lane (x.truncate 32)).setLreg (r + 1) lane (x.extractLsb' 32 32)
/-- Predicate 7 reads true; as a destination it discards (R191). -/
def Group.pmask (h : Group) (n : Nat) : LaneMask := if n = 7 then BitVec.allOnes 32 else SMap.get h.p n
def Group.setPmask (h : Group) (n : Nat) (m : LaneMask) : Group := if n = 7 then h else { h with p := SMap.set h.p n m }
def Group.qreg (h : Group) (n : Nat) : Bool := n = 7 || h.q.getLsbD n
def Group.setQ (h : Group) (n : Nat) (b : Bool) : Group :=
  if n = 7 then h else { h with q := if b then h.q ||| BitVec.twoPow 7 n else h.q &&& ~~~(BitVec.twoPow 7 n) }
def Group.xreg (h : Group) (n lane : Nat) : Half := SMap.get h.x (32 * n + lane)
def Group.setX (h : Group) (n lane : Nat) (x : Half) : Group := { h with x := SMap.set h.x (32 * n + lane) x }

/-- One register write of a long-latency result. -/
def Group.applyWrite (h : Group) : RegWrite → Group
  | .v r lane x => h.setLreg r lane x
  | .g r x => h.setG r x
  | .q r b => h.setQ r b
  | .p r lane b =>
    h.setPmask r (if b then h.pmask r ||| BitVec.twoPow 32 lane else h.pmask r &&& ~~~(BitVec.twoPow 32 lane))

/-- The lanes of a mask-stack entry. -/
def MaskEntry.lanes (e : MaskEntry) : LaneMask := e.pending ||| e.arrived

/-- Every lane of a split and of its mask stack. -/
def Split.allLanes (p : Split) : LaneMask := p.stack.foldl (fun m e => m ||| e.lanes) p.lanes

/-- The lanes of a group that have not exited (R73). -/
def Group.liveLanes (h : Group) : LaneMask := h.splits.foldl (fun m p => m ||| p.allLanes) 0

/-- A group has ended when all its splits have (R76), none being set aside for a handler. -/
def Group.isOver (h : Group) : Bool := h.splits = [] && h.saved = none

/-- The team is in handler mode and this group is one of those that entered it (R368). -/
def Group.inHandler (h : Group) : Bool := h.saved.isSome

/-! ### Taking an exception -/

/-- R365: the halt broadcast; from here the groups count the instructions they still issue. -/
def State.haltTeam (s : State) (t : Nat) : State :=
  match s.team? t with
  | some x =>
    if x.halted then s
    else { s.modTeam t (fun x => { x with halted := true, haltAge := 0 }) with
           groups := s.groups.map fun h => if h.team = t then { h with skid := 0 } else h }
  | none => s

/-- The cause of lower code remains; of two equal ones the first (R361). -/
def keepCause (old : Option Raised) (new : Raised) : Raised :=
  match old with
  | some r => if r.code ≤ new.code then r else new
  | none => new

/-- A cause arises in the group; the split that raises it stops (R361, R365). -/
def Group.note (h : Group) (r : Raised) : Group :=
  { h with raised := some (keepCause h.raised r), raisers := r.split.toList ++ h.raisers }

/-- R398, R406: the CONSUMED record of a group's late cause. -/
def State.consumed (s : State) (t : Nat) (c : LateCause) : State :=
  match s.team? t with
  | some x =>
    s.report 4 c.src c.unit x.ctx ((match s.grid? x.grid with | some g => g.gridId.toNat | none => 0) * 16 + c.detail) c.addr
  | none => s

/-! ### Ending a grid at once -/

/-- R105: the dwords of a context's team return to the pool when the team's record is dropped. -/
def State.dropTeam (s : State) (t : Nat) : State :=
  { s with teams := s.teams.filter fun x => x.uid ≠ t,
           groups := s.groups.filter fun h => h.team ≠ t,
           mgmt := { s.mgmt with faults := withdraw (Joiner.ofTeam t) s.mgmt.faults } }

/-- The bytes from the first that the lanes of a coll packet name to the last. -/
def partsSpan (n : Nat) (l : List LanePart) : Nat :=
  l.foldl (fun m p => max m (p.offset + n)) 0 - l.foldl (fun m p => min m p.offset) 256

/-- Bytes that the lanes of a coll packet access (R294). -/
def packetSize (ctl : BitVec 8) : Nat := atomSize (atomTyOf (ctlType ctl))

/-- The bytes that each lane of a coll packet names, which the peer translates. -/
def partPlaces (dev base : Nat) (ctl : BitVec 8) (l : List LanePart) : List (Loc × Nat) :=
  l.map fun p => (.remote dev (base + p.offset), packetSize ctl)

/-- Bytes an entry of a store queue writes; of a packet those from its first lane's to its last's. -/
def QEntry.size (e : QEntry) : Nat :=
  match e.op with
  | .write b => b.length
  | .reduce _ ty _ => atomSize ty
  | .packet ctl _ parts => partsSpan (packetSize ctl) parts

/-- Whether nothing can be performed at a place now: a line that the host owns is recalled first (R344), and what lies beyond a
link is reached by a request. -/
def State.outOfReach (s : State) (l : Loc) (n : Nat) : Bool :=
  s.isRemote l || (match l with
    | .mem pa _ _ => s.hostOwns pa n
    | _ => false)

/-- R394: a store or reduction in a store queue is performed whole or not at all; the free value says which. One that is out of
reach is not. -/
def State.settleStore (s : State) (e : QEntry) : State :=
  if s.freeAt 3 e.uid % 2 = 0 || s.outOfReach e.loc e.size then s
  else match e.op with
    | .write bytes => s.placeBytes e.loc bytes
    | .reduce op ty b =>
      let n := atomSize ty
      if s.locPoisoned e.loc n then s
      else match atomNew op ty (leNat (s.peek e.loc n)) (b.toNat % 2 ^ (8 * n)) 0 with
        | some x => s.placeBytes e.loc (leBytes n x)
        | none => s
    | .packet _ _ _ => s

/-- R394: an atomic of a long-latency instruction that is not performed is performed once or not at all, and so is a
reduction of a coll to this device. -/
def State.settlePend (uid : Nat) (s : State) (a : Pend) : State :=
  match a.op with
  | .atomic op ty b sv =>
    let n := atomSize ty
    if s.freeAt 3 (Nat.pair uid a.idx) % 2 = 0 || s.outOfReach a.loc n || s.locPoisoned a.loc n then s
    else match atomNew op ty (leNat (s.peek a.loc n)) (b.toNat % 2 ^ (8 * n)) (sv.toNat % 2 ^ (8 * n)) with
      | some x => s.placeBytes a.loc (leBytes n x)
      | none => s
  | .read | .gather | .fresh | .packet _ _ _ => s

/-- Whether a window write that a FetchAdd covers waits for its answer over the host link (R140, R418). -/
def State.coveredAsked (s : State) (f : FetchAdd) : Bool :=
  s.fabric.requests.any fun r => match r.use with
    | .store _ _ _ e true _ _ => f.covers.contains e
    | _ => false

/-- R394: a FetchAdd of a publication is issued after every covered write, or not at all. -/
def State.settleFetchAdd (s0 s : State) (f : FetchAdd) : State :=
  let left := (s0.groups.flatMap fun h => h.queue).filter fun e => f.covers.contains e.uid
  if s0.host.linkUp && !s0.coveredAsked f && s0.freeAt 3 f.id % 2 ≠ 0 && left.all (fun e => s0.freeAt 3 e.uid % 2 ≠ 0) then
    s.hostWrite f.pa (leBytes 8 ((leNat (s.hostRead f.pa 8) + 1) % 2 ^ 64))
  else s

/-- R394: every team `which` picks ends at once; work in flight is settled; copies and engine operations are dropped,
and so are their fault records. -/
def State.endTeams (s : State) (which : Team → Bool) (whichCopy : Copy → Bool) : State :=
  let us := (s.teams.filter which).map fun x => x.uid
  let hs := s.groups.filter fun h => us.contains h.team
  let s1 := (hs.flatMap fun h => h.results).foldl (fun s r => r.pend.foldl (State.settlePend r.uid) s)
    ((hs.flatMap fun h => h.queue).foldl State.settleStore s)
  let fs := s.host.fetchAdds.filter fun f => f.stream.isNone && us.contains f.team
  let cs := s1.copies.filter whichCopy
  let s2 := cs.foldl State.settleCopy (fs.foldl (State.settleFetchAdd s) s1)
  let s3 : State := { s2 with copies := s2.copies.filter fun c => !(whichCopy c) }
  let ops := (s3.cores.flatMap fun c => c.engine).filter fun o => us.contains o.team
  let s4 := ops.foldl State.settleEngineOp s3
  let gone (k : Nat × Nat) : Bool :=
    if k.1 = 0 then cs.any (fun c => c.uid = k.2) || ops.any (fun o => o.uid = k.2) else us.contains (k.1 - 1)
  let s5 : State := { s4 with
    cores := s4.cores.map fun c => { c with engine := c.engine.filter fun o => !(us.contains o.team) },
    fabric := { s4.fabric with
      requests := s4.fabric.requests.filter fun r => match r.use with
        | .load t _ _ _ _ _ | .store t _ _ _ _ _ _ => !(us.contains t)
        | .read k _ | .write k _ => !(gone k),
      fetched := s4.fabric.fetched.filter fun e => !(gone e.1) },
    host := { s4.host with fetchAdds := s4.host.fetchAdds.filter fun f => f.stream.isSome || !(us.contains f.team) },
    mgmt := { s4.mgmt with
      faults := withdraw (Joiner.ofWork (cs.map fun c => c.uid) (ops.map fun o => o.uid)) s4.mgmt.faults } }
  us.foldl State.dropTeam s5

/-- Stops a stream with a stream error (R387, R435, R438): STAT, INFO, IRQ[2] and the stream's vector. -/
def State.stopStream (s : State) (n : Nat) (err report : BitVec 8) (info : DWord) : State :=
  (((s.modStream n fun x => { x with running := false, wait := .none, err := err, report := report, info := info })
    ).raiseIrq 4).raiseMsix n

/-- Collectives that `which` picks are gone: DONE is not written (R394). -/
def State.dropColls (s : State) (which : Coll → Bool) : State :=
  let us := (s.colls.filter which).map fun c => c.uid
  let gone (k : Nat × Nat) : Bool := k.1 = 0 && us.contains k.2
  let left (j : Joiner) : Bool := match j with
    | .coll u => us.contains u
    | _ => false
  { s with
    colls := s.colls.filter fun c => !(which c),
    fabric := { s.fabric with
      requests := s.fabric.requests.filter fun r => match r.use with
        | .read k _ | .write k _ => !(gone k)
        | .load _ _ _ _ _ _ | .store _ _ _ _ _ _ _ => true,
      fetched := s.fabric.fetched.filter fun e => !(gone e.1) },
    mgmt := { s.mgmt with faults := withdraw left s.mgmt.faults } }

/-- R372, R442: a kill ends the grid and reports it. -/
def State.killGrid (s : State) (u : Nat) (code : BitVec 8) (addr : DWord) : State :=
  match s.grid? u with
  | none => s
  | some g =>
    let s1 := ((s.endTeams (fun x => x.grid = u) (fun c => c.grid = u)).dropColls fun c => c.grid = u).pruneFaults
    let s2 : State := { s1 with
      grids := s1.grids.filter fun x => x.uid ≠ u,
      cores := s1.cores.map fun c => { c with forming := c.forming.filter fun f => f.grid ≠ u } }
    let st := s2.stream g.stream
    let s3 := s2.report 5 0x08 st.die g.ctx g.stream addr
    if st.gen = g.gen && (s3.stream g.stream).err = 0 then s3.stopStream g.stream 6 code addr else s3

/-- R360, R361, R365, R369: a cause arises in a group. Outside handler mode it is recorded and the team halts; raised
by an instruction of a handler it kills the grid. -/
def State.raise (s : State) (t g : Nat) (split : Option Nat) (code : BitVec 8) (pc : DWord) : State :=
  match s.team? t, s.group? t g with
  | some x, some h =>
    if h.inHandler then s.killGrid x.grid 0x7F pc
    else (s.haltTeam t).modGroup t g fun h => h.note ⟨code, split, false⟩
  | _, _ => s

/-- R361, R369, R406: a cause that arises after its instruction issued. Its record is written at once; in handler mode
it is held until resume. -/
def State.raiseLate (s : State) (t g : Nat) (split : Option Nat) (c : LateCause) : State :=
  match s.team? t with
  | some x =>
    let s1 := (s.consumed t c).modGroup t g fun h => { h with late := h.late ++ [{ c with split := split }] }
    if x.handler then s1
    else (s1.haltTeam t).modGroup t g fun h => h.note ⟨c.code, split, true⟩
  | none => s

/-- A late cause of an instruction that a handler issued kills (R369); any other is held or raised (R361). -/
def State.lateFrom (s : State) (t g : Nat) (split : Option Nat) (handlerPc : Option DWord) (c : LateCause) : State :=
  match handlerPc, s.team? t with
  | some pc, some x => (s.consumed t c).killGrid x.grid 0x7F pc
  | _, _ => s.raiseLate t g split c

/-- R381: FLT is set; every split parked on the word wakes and raises 0x21 at its wait; one that a handler has set aside does
so when it resumes there. -/
def State.faultBar (s : State) (t off : Nat) : State :=
  let w := s.barWord t off ||| 0x4000000000000000#64
  let s1 := s.setScratch t off (leBytes 8 w.toNat)
  let hit := s.groups.flatMap fun h => (h.splits.filter (Split.onWord t off)).map fun p => (h.team, h.gid, p.id, p.pc)
  let back (p : Split) : Split := if Split.onWord t off p then { p with park := none, pc := p.pc - 8 } else p
  let resumes (h : Group) : Bool := (h.saved.getD []).any fun p => p.id = h.recorded && p.pc = h.trapPc && Split.onWord t off p
  let s2 : State := { s1 with groups := s1.groups.map fun h =>
    { h with splits := h.splits.map back, saved := h.saved.map fun l => l.map back,
             trapPc := if resumes h then h.trapPc - 8 else h.trapPc } }
  hit.foldl (fun s e => s.raise e.1 e.2.1 (some e.2.2.1) 0x21 (e.2.2.2 - 8)) s2

/-- R361: the timer cause arises in the team's live group of lowest GROUPID; it is held in handler mode, and until it has won. -/
def State.timerCause (s : State) (t : Nat) : State :=
  match s.team? t with
  | some x =>
    let s1 := s.modTeam t fun x => { x with timerHeld := true }
    if x.handler then s1
    else match (s.groups.filter fun h => h.team = t && !h.isOver).mergeSort fun a b => a.gid ≤ b.gid with
      | h :: _ => (s1.haltTeam t).modGroup t h.gid fun h => h.note ⟨0x40, none, false⟩
      | [] => s
  | none => s

/-- R98: TIMER has run out. -/
def State.raiseTimer (s : State) (t : Nat) : State := (s.modTeam t fun x => { x with timer := 0 }).timerCause t

/-- The recorded split of R366. -/
def Group.recordedSplit (h : Group) : Option Split :=
  match h.raised.bind fun r => r.split.bind fun p => h.split? p with
  | some p => some p
  | none => (h.splits.mergeSort fun a b => a.id ≤ b.id).head?

/-- The origin of R361 among the groups that raised a cause. -/
def originOf (hs : List Group) : Option (Group × Raised) :=
  hs.foldl (fun best h =>
    match h.raised with
    | none => best
    | some r => match best with
      | none => some (h, r)
      | some (b, rb) => if r.code < rb.code || (r.code = rb.code && h.gid < b.gid) then some (h, r) else best) none

/-- A halted group records TRAPPC and SKID (R366), drops its cause unless it is the origin (R361), and with a nonzero
g63 enters handler mode: its splits are set aside and one split of its live lanes runs at g63 (R368). -/
def Group.enterTrap (h : Group) (origin : Nat) : Group :=
  let sp := h.recordedSplit
  let count := h.skid &&& 0x7F
  let h1 : Group := { h with
    trapPc := (sp.map fun p => p.pc).getD h.trapPc,
    recorded := (sp.map fun p => p.id).getD 0,
    skid := if h.gid = origin then count ||| 0x80 else count,
    stalled := false,
    late := match h.raised with
      | some r => if h.gid = origin && r.late then
          h.late.eraseIdx ((h.late.findIdx? fun c => c.code = r.code).getD h.late.length) else h.late
      | none => h.late,
    results := h.results.filter fun r => !r.done,
    raised := none,
    raisers := [] }
  if h.isOver || h.greg 63 = 0 then h1
  else { h1 with
    saved := some h.splits,
    splits := [{ id := 0, pc := h.greg 63, lanes := h.liveLanes, stack := [], held := none, park := none }] }

/-- Whether every group of a team has met R367: no long-latency result is outstanding. -/
def State.teamQuiet (s : State) (t : Nat) : Bool := (s.groups.filter fun h => h.team = t).all fun h =>
  h.results.all Result.done

/-- R361, R366 to R368, R372: the exception is taken. TRAPCAUSE names the winning cause; the groups enter their
handlers; with no handler in the origin group the grid is killed. -/
def State.enterHandlers (s : State) (t : Nat) : State :=
  match s.team? t with
  | none => s
  | some x =>
    if !x.halted || x.handler || !s.teamQuiet t then s
    else match originOf (s.groups.filter fun h => h.team = t) with
      | none => s
      | some (h, r) =>
        let pc := (h.recordedSplit.map fun p => p.pc).getD h.trapPc
        if h.greg 63 = 0 then s.killGrid x.grid r.code pc
        else
          let s1 := s.modTeam t fun x =>
            { x with trapCause := r.code, handler := true, timerHeld := x.timerHeld && r.code ≠ 0x40 }
          ({ s1 with
            groups := s1.groups.map fun y => if y.team = t then y.enterTrap h.gid else y,
            mgmt := { s1.mgmt with
              faults := s1.mgmt.faults.map fun f => { f with joined := f.joined.filter fun j => !(j.ofTeam t) } } } : State
            ).pruneFaults

/-- A group's saved splits are restored, the recorded one at TRAPPC (R370, R371). -/
def Group.leaveTrap (h : Group) : Group :=
  match h.saved with
  | none => h
  | some l => { h with
      splits := l.map fun p => if p.id = h.recorded then { p with pc := h.trapPc } else p,
      results := h.results.filter fun r => !r.done,
      saved := none }

/-- A cause noted in a group while the team was in handler mode is no cause of the next trap (R361). -/
def Group.forgetCause (h : Group) : Group := { h with raised := none, raisers := [] }

/-- R361, R371: the return from the exception, once every handler of the team has ended; held causes then arise. -/
def State.resumeTeam (s : State) (t : Nat) : State :=
  match s.team? t with
  | none => s
  | some x =>
    let hs := s.groups.filter fun h => h.team = t
    if !x.handler || hs.any (fun h => h.inHandler && h.splits ≠ []) then s
    else
      let s1 := s.modTeam t fun x => { x with trapCause := 0, halted := false, handler := false, timerHeld := false }
      let s2 : State := { s1 with groups := s1.groups.map fun h => if h.team = t then h.leaveTrap.forgetCause else h }
      let again := hs.flatMap fun h => h.late.map fun c => (h.gid, c)
      let s3 := again.foldl (fun s e => (s.haltTeam t).modGroup t e.1 fun h => h.note ⟨e.2.code, e.2.split, true⟩) s2
      if x.timerHeld then s3.timerCause t else s3

/-! ### Issue of one instruction -/

/-- A split's team, group and itself while it issues. -/
def State.issuing (s : State) : Option (Team × Group × Split) :=
  match s.issuer with
  | .split t g p => match s.team? t, s.group? t g with
    | some x, some h => (h.split? p).map fun sp => (x, h, sp)
    | _, _ => none
  | _ => none

/-- Two splits merge at the top of the next cycle (R78). -/
def mergesWith (p q : Split) : Bool :=
  p.id ≠ q.id && p.pc = q.pc && p.park = none && q.park = none && (p.stack = [] || q.stack = [])

/-- R90, R365, R368, R376, R414: whether the split may issue now. -/
def mayIssue (x : Team) (h : Group) (p : Split) : Bool :=
  p.held = none && p.park = none && !h.stalled &&
  (if x.handler then h.inHandler
   else if x.halted then x.haltAge ≤ 24 * 16 && (h.skid &&& 0x7F) < 48 && !h.raisers.contains p.id
   else true)

/-- R187: a window of the split has ended while its result is outstanding, so the split waits. -/
def windowWaits (h : Group) (p : Split) : Bool := h.results.any fun r =>
  !r.done && r.owners.contains p.id && r.window = 0

/-- The lanes of the split whose guard holds (R183). -/
def guardLanes (h : Group) (p : Split) (g : Guard) : LaneMask :=
  p.lanes &&& (if g.neg then ~~~(h.pmask g.pred.toNat) else h.pmask g.pred.toNat)

/-- Whether a group-pipe guard holds (R183). -/
def guardHolds (h : Group) (g : Guard) : Bool := h.qreg g.pred.toNat != g.neg

/-- The registers R182's index selects in the participating lanes. -/
def indexedRegs (h : Group) (f : Long) (fm : Form) (m : LaneMask) : List Nat :=
  if f.x then (laneList m).map fun l =>
    (if fm.xUse = .d then f.d.toNat else f.a.toNat) + (h.xreg f.xi.toNat l).toNat
  else []

/-- The registers that an instruction touches (R70, R188): its operands, its guard and its index register. -/
def touched (h : Group) (lanePipe : Bool) (f : Long) (fm : Form) (m : LaneMask) : List Reg :=
  let c := if fm.xUse = .d then fm.d.count else fm.a.count
  let ix := (indexedRegs h f fm m).flatMap fun e => (List.range c).map fun i => Reg.v (e + i)
  (if f.x && fm.xUse = .d then ix else fm.d.regs f.d.toNat false) ++
  (if f.x && fm.xUse = .a then ix else fm.a.regs f.a.toNat f.ka) ++
  fm.b.regs f.b.toNat f.kb ++ fm.c.regs f.c.toNat f.kc ++ fm.extra ++
  [if lanePipe then .p f.g.pred.toNat else .q f.g.pred.toNat] ++ (if f.x then [.x f.xi.toNat] else [])

/-- R70, R182: a lane register at or above the budget, or an odd index for a pair. -/
def boundFails (h : Group) (f : Long) (fm : Form) (m : LaneMask) (rs : List Reg) : Bool :=
  (rs.any fun r => match r with
    | .v n => h.budget ≤ n
    | _ => false) ||
  (f.x && (if fm.xUse = .d then fm.d.count else fm.a.count) = 2 && (indexedRegs h f fm m).any fun e => e % 2 = 1)

/-- R188: the instruction stands in a window of its split and touches a destination of that window's result. -/
def lookaheadFails (h : Group) (p : Split) (rs : List Reg) : Bool :=
  h.results.any fun r => r.owners.contains p.id && decide (0 < r.window) && rs.any fun x => x.named && r.dests.contains x

/-- The causes 0x02 to 0x05 in their priority (R360, R373). -/
def issueCause (i : Instr) (h : Group) (p : Split) (lanePipe : Bool) (f : Long) (fm : Form) : Option (BitVec 8) :=
  let m := if lanePipe then guardLanes h p f.g else p.lanes
  let rs := touched h lanePipe f fm m
  match i.encodingCause with
  | some c => some (if i.sregBad then 0x02 else c)
  | none => if i.sregBad then some 0x02 else if boundFails h f fm m rs then some 0x04 else if lookaheadFails h p rs then some 0x05 else none

/-- Whether a result is still of use: it is not written yet, or its window is open. -/
def Result.kept (r : Result) : Bool := !r.done || (0 < r.window && r.owners ≠ [])

/-- A split that has just issued has waited for nothing (R91). -/
def Split.justIssued (p : Split) : Split := { p with readyLane := 0, readyGroup := 0, idle := 0 }

/-- The issue of an instruction: the split moves to the next one and has waited no longer (R91), its windows count it
(R187), the group counts it (R92, R366). -/
def Group.retire (h : Group) (p : Nat) (len : Nat) (halted : Bool) : Group :=
  { h.modSplit p (fun q => { q.justIssued with pc := q.pc + BitVec.ofNat 64 len }) with
    results := (h.results.map fun r => if r.owners.contains p then { r with window := r.window - 1 } else r).filter
      Result.kept,
    retired := h.retired + 1,
    skid := if halted then h.skid + 1 else h.skid }

/-- What a meaning works on: the issuing team, group and split as they were before the issue, the split's counts of R91 apart,
its fields, and the participating lanes (R183). -/
structure Here where
  team : Team
  grp : Group
  sp : Split
  f : Long
  mask : LaneMask

/-- What a meaning ends with: the state after it; a precise cause; not ready yet, so nothing issued; replayable
faults of addresses (R376); a cause that is not precise and is delivered once the instruction has issued (R406); not
ready yet, or a precise cause, with a change of the state as it was before the issue. -/
inductive Body
  | next (s : State)
  | trap (code : BitVec 8)
  | wait
  | replay (pages : List (DWord × BitVec 8)) (kind : Nat) (code : BitVec 8)
  | late (s : State) (c : LateCause)
  | hold (f : State → State)
  | breaks (f : State → State) (code : BitVec 8)

/-- R376, R377: the group stalls until the host answers for every page that its accesses fault on; the instruction issues
again after RETRY. -/
def State.stall (s : State) (x : Team) (g p : Nat) (pages : List (DWord × BitVec 8)) (kind : Nat) (code : BitVec 8) : State :=
  let grid := match s.grid? x.grid with
    | some y => y.gridId
    | none => 0
  pages.foldl (fun s e => s.faultRecord x.ctx e.1 kind e.2.toNat grid x.teamId (.group x.uid g p code))
    (s.modGroup x.uid g fun h => { h with stalled := true })

/-- The cause of a register or accumulator that cannot be corrected (R397, R406). -/
def State.registerCause (s : State) (x : Team) : LateCause :=
  { code := 0x16, addr := s.openAddr, src := 0x04, unit := x.core, detail := 0 }

/-- The lower of two causes (R360). -/
def lowerCause (a b : Option (BitVec 8)) : Option (BitVec 8) :=
  match a, b with
  | some x, some y => some (if x ≤ y then x else y)
  | some x, none => some x
  | none, y => y

/-- The issue of a fetched instruction by the issuing split (R90, R183, R187, R188, R360). `more` gives the causes that
its operands and the state raise beside those of its encoding. DESIGN CHOICE: the causes of its encoding, its budget and the window
arise also where its guard is false or no lane takes part (assumption log 75). -/
def issueWith (i : Instr) (s : State) (more : Here → Option (BitVec 8)) (body : Here → State → Body) :
    Host.Outcome State Fault Refusal :=
  match s.issuing, i.form with
  | some (x, h, p), some (lanePipe, f, fm) =>
    if !mayIssue x h p || windowWaits h p then .next s
    else
      let here : Here := ⟨x, h, p.justIssued, f, if lanePipe then guardLanes h p f.g else p.lanes⟩
      let go := lanePipe || guardHolds h f.g
      match lowerCause (issueCause i h p lanePipe f fm) (if go then more here else none) with
      | some c => .next (s.raise x.uid h.gid (some p.id) c p.pc)
      | none =>
        let s1 := s.modGroup x.uid h.gid fun h => h.retire p.id i.length (x.halted && !x.handler)
        if !go then .next s1
        else if h.struck = some p.id then
          .next ((s1.modGroup x.uid h.gid fun h => { h with struck := none }).lateFrom x.uid h.gid (some p.id)
            (if h.inHandler then some p.pc else none) (s.registerCause x))
        else match body here s1 with
          | .next s2 => .next s2
          | .wait => .next s
          | .trap c => .next (s.raise x.uid h.gid (some p.id) c p.pc)
          | .replay pages kind code => .next (s.stall x h.gid p.id pages kind code)
          | .late s2 c =>
            .next (s2.lateFrom x.uid h.gid (some p.id) (if h.inHandler then some p.pc else none) c)
          | .hold f => .next (f s)
          | .breaks f c => .next ((f s).raise x.uid h.gid (some p.id) c p.pc)
  | _, _ => .fault .noIssuer

def issue (i : Instr) (s : State) (body : Here → State → Body) : Host.Outcome State Fault Refusal :=
  issueWith i s (fun _ => none) body

/-- The issue of conv or a matched instruction: issued by a handler it kills the grid (R369). -/
def issueMatched (i : Instr) (s : State) (more : Here → Option (BitVec 8)) (body : Here → State → Body) :
    Host.Outcome State Fault Refusal :=
  match s.issuing with
  | some (x, h, p) =>
    if h.inHandler && mayIssue x h p && !windowWaits h p then .next (s.killGrid x.grid 0x7F p.pc)
    else issueWith i s more body
  | none => .fault .noIssuer

/-- A meaning that only changes its own group's registers: it cannot stop. -/
def issueRegs (i : Instr) (s : State) (f : Here → Group → Group) : Host.Outcome State Fault Refusal :=
  issue i s fun k s1 => .next (s1.modGroup k.team.uid k.grp.gid (f k))

end Sys2Proof.Machine
end

