-- ==== Sys2Proof/Machine/Fetch.lean ====
section
/-!
DEFINITION. Fetching: the words at a split's program counter (R174, R228, R360, R364) and the command at a stream's
address (R81, R82, R387); and the machine state in which one given instruction is the next to issue.
-/
namespace Sys2Proof.Machine

/-- A fetch ends with what is to be executed and the state it is executed in, or with the state after what happened
instead. -/
inductive Fetched
  | run (i : Instr) (s : State)
  | instead (s : State)

/-- What a read of a few bytes at one address found. -/
inductive FetchRes
  | bytes (l : List Byte)
  | cause (code : BitVec 8)
  | replay (why : BitVec 8)
  | late (c : LateCause)
  | remote (dev : Option Nat) (pa n : Nat)
  | held

/-- The bytes at a place, for an agent that reads past every cache; a peer's, or a lost host's, come as answers. -/
def State.readFor (s : State) (key : Nat × Nat) (va : DWord) (loc : Loc) (n : Nat) : FetchRes :=
  let remote (dev : Option Nat) (pa : Nat) : FetchRes := match s.answerFor key va dev with
    | .bytes b => .bytes b
    | .fail c => .late c
    | .none => .remote dev pa n
  match loc with
  | .peer d pa | .remote d pa => remote (some d) pa
  | .host pa | .window pa => if s.host.linkUp then .bytes (s.peek loc n) else remote none pa
  | .mem pa _ _ => if s.hostOwns pa n then .held else if s.locPoisoned loc n then .late (poisonCause va pa) else .bytes (s.peek loc n)
  | .scr _ _ => .bytes (s.peek loc n)

/-- Four instruction bytes at an address (R174, R360): fetch needs X, and goes past every L1. -/
def State.fetchWord (s : State) (ctx : Nat) (key : Nat × Nat) (va : DWord) : FetchRes :=
  if va.extractLsb' 0 2 ≠ 0 then .cause 0x01
  else match s.probe ctx va .fetch with
    | .poison a => .late (poisonCause va a)
    | .cause _ => .cause 0x01
    | .replay why => .replay why
    | .held => .held
    | .ok loc => s.readFor key va loc 4

/-- What a fetch that found no bytes does to the group (R360, R376, R406, R414). -/
def State.fetchFails (s : State) (x : Team) (h : Group) (p : Split) (va : DWord) : FetchRes → State
  | .bytes _ | .held => s
  | .cause c => s.raise x.uid h.gid (some p.id) c p.pc
  | .replay why => s.stall x h.gid p.id [(va, why)] 2 0x01
  | .late c => (s.takeAnswers (x.uid + 1, h.gid)).lateFrom x.uid h.gid (some p.id) (if h.inHandler then some p.pc else none) c
  | .remote d pa n => s.askFor (x.uid + 1, h.gid) va d (s.job x.ctx) pa n

/-- The fields and the accumulator kind of an instruction that names a region (R305, R312, R319). -/
def regionNamed : Instr → Option (Long × Nat)
  | .mma f | .mmaSp f => some (f, if f.m = 0 then 2 else if f.c.getLsbD 4 then 1 else 0)
  | .accZero f | .accLd f | .accSt f | .accAdd f => some (f, bits f.m.toNat 1 0)
  | _ => none

/-- R305, R362: a member of a convocation names a region whose first tile is no multiple of its tiles. -/
def regionOdd (x : Team) (h : Group) (i : Instr) : Bool :=
  (regionNamed i).any fun e => guardHolds h e.1.g &&
    x.convs.any fun c => c.formed && (c.members.any fun m => m.gid = h.gid) && e.1.d.toNat % regionTiles e.2 c.members.length ≠ 0

/-- The instruction that some bytes name, whatever its reserved fields hold. -/
def namedBy (b : List Byte) : Option Instr :=
  let w : Word := BitVec.ofNat 32 (leNat (b.take 4))
  build (w.getLsbD 31) (w.extractLsb' 23 7).toNat (Sys2Proof.wordsOf w (BitVec.ofNat 32 (leNat ((b.drop 4).take 4))))

/-- The instruction that a group has fetched. A reserved field (R363) beside a region of R305 that is reserved too has the cause of
R362. -/
def fetched (x : Team) (h : Group) (b : List Byte) : Instr :=
  match decodeBytes b with
  | .undefinedEncoding c => .undefinedEncoding (if (namedBy b).any (regionOdd x h) then 0x02 else c)
  | i => i

/-- The instruction a split issues next (R174); word 1 is fetched where L is 1 (R364). -/
def State.fetch (s : State) (t g p : Nat) : Fetched :=
  match s.team? t, s.group? t g with
  | some x, some h => match h.split? p with
    | none => .instead s
    | some sp =>
      if !mayIssue x h sp then .instead s
      else match s.fetchWord x.ctx (t + 1, g) sp.pc with
        | .bytes b0 =>
          if (b0.getD 3 0).getLsbD 6 then match s.fetchWord x.ctx (t + 1, g) (sp.pc + 4) with
            | .bytes b1 => .run (fetched x h (b0 ++ b1)) ((s.takeAnswers (t + 1, g)).rekeySpans x.ctx [(sp.pc, 8)])
            | r => .instead (s.fetchFails x h sp (sp.pc + 4) r)
          else .run (fetched x h b0) ((s.takeAnswers (t + 1, g)).rekeySpans x.ctx [(sp.pc, 4)])
        | r => .instead (s.fetchFails x h sp sp.pc r)
  | _, _ => .instead s

/-- The key of a stream's command processor as an agent that reads (R147). -/
def streamKey (n : Nat) : Nat × Nat := (0, 2 ^ 64 + n)

/-- The bytes of memory that a command processor reads (R83, R387): with acquire at system scope. -/
def State.cpRead (s : State) (n : Nat) (va : DWord) (k : Nat) : FetchRes :=
  match s.probe (s.stream n).ctx va .read with
  | .poison a => .late (poisonCause va a)
  | .cause c => .cause c
  | .replay why => .replay why
  | .held => .held
  | .ok loc => s.readFor (streamKey n) va loc k

/-- R377, R387: a command processor's read that found no bytes: it waits, for the host or for an answer, or the stream
stops with stream error 5. `grid` is the GRIDID its record carries. -/
def State.cpFails (s : State) (n : Nat) (va : DWord) (kind : Nat) (grid : Word) : FetchRes → State
  | .replay why => (s.modStream n fun x => { x with wait := .page s.mgmt.faultSeq }).faultRecord (s.stream n).ctx va kind
      why.toNat grid 0xFFFFFFFF (.stream n)
  | .remote (some d) pa k => s.askFor (streamKey n) va (some d) (s.job (s.stream n).ctx) pa k
  | .late c => ((s.takeAnswers (streamKey n)).consumedBy (s.stream n).ctx c).stopStream n 5 0 (s.stream n).pc
  | .remote none _ _ | .cause _ => (s.takeAnswers (streamKey n)).stopStream n 5 0 (s.stream n).pc
  | .held | .bytes _ => s

/-- The command a stream executes next: 32 bytes at its address (R81, R82). -/
def State.fetchCommand (s : State) (n : Nat) : Fetched :=
  let x := s.stream n
  if !x.running || x.wait ≠ .none then .instead s
  else match s.cpRead n x.pc 32 with
    | .bytes b => .run (decodeCommand (BitVec.ofNat 64 (leNat (b.take 8))) (BitVec.ofNat 64 (leNat ((b.drop 8).take 8)))
        (BitVec.ofNat 64 (leNat ((b.drop 16).take 8))) (BitVec.ofNat 64 (leNat ((b.drop 24).take 8))))
        (s.rekeySpans x.ctx [(x.pc, 32)])
    | r => .instead (s.cpFails n x.pc 0 0xFFFFFFFF r)

/-! ### Placing one instruction -/

/-- A context whose root maps its first GiB onto the first GiB of node 0, readable, writable and fetchable. -/
def probeCtx : Ctx :=
  { id := 0, root := 0x100000, job := 0, keys := [], srseed := 0, ctxclk := 0, gridCount := 1, phase := .active,
    saveArea := 0, deadline := 0, stopped := [], savedGrids := [], tlb := [] }

/-- A grid of one team of one group, without roles, with no phase root word (R84). -/
def probeGrid : Grid :=
  { uid := 0, ctx := 0, stream := 0, gen := 0, gridId := 0, addr := 0, l0 := 0x0001F00100000001, l1 := 0x102,
    centry := 0x1000, pentry := 0, argp := 0, root := 0, teams := 1, seed := 0, w0 := 0, next := 1, restored := [] }

/-- The team of `probeGrid` on core 0, with one unit of scratchpad. -/
def probeTeam : Team :=
  { uid := 1, ctx := 0, grid := 0, spawn := false, teamId := 0, core := 0, partword := 0x102, timer := 0,
    timerHeld := false, trapCause := 0, halted := false, haltAge := 0, handler := false, ended := false, scratch := [], acc := [],
    badWords := [], barWords := [], lostWrites := false, convs := [] }

/-- A group as R69 starts it, at an entry, with all lanes in split 0. -/
def Group.start (team gid slot : Nat) (role : BitVec 2) (budget : Nat) (argp root entry : DWord) (lanes : LaneMask) : Group :=
  { team := team, gid := gid, slot := slot, role := role, budget := budget, v := [],
    g := SMap.set (SMap.set [] 1 argp) 2 root, p := [], q := 0, x := [], weight := [],
    splits := [{ id := 0, pc := entry, lanes := lanes, stack := [], held := none, park := none }],
    results := [], queue := [], passed := [], touched := [], stalled := false, raised := none, raisers := [], late := [],
    struck := none, trapPc := 0, skid := 0, recorded := 0, saved := none, arrivals := 0, retired := 0 }

/-- Memory with the tables of `probeCtx` and an instruction's bytes at 0x1000. -/
def probeMem (w : Nat) : SMap 8 :=
  SMap.setRun (SMap.setRun (SMap.setRun (SMap.setRun [] 0x102000 (leBytes 8 0x1C7)) 0x101000 (leBytes 8 0x102001))
    0x100000 (leBytes 8 0x101001)) 0x1000 (leBytes 8 w)

/-- The machine after bring-up with one group on core 0 about to issue the given instruction (assumption log 9). -/
def State.placeWord (s : State) (nbits w : Nat) : State :=
  { s with
    agenda := [.issue 1 0 0], issuer := .none, boot := .done, ctxs := [probeCtx], grids := [probeGrid],
    teams := [probeTeam], groups := [Group.start 1 0 0 0 256 0 0 0x1000 0xFFFFFFFF#32], uid := max s.uid 2,
    storage := { s.storage with mem := probeMem (w % 2 ^ nbits), tags := [], poison := [], hostOwned := [], retained := [] },
    copies := [], mgmt := { s.mgmt with ready := true } }

end Sys2Proof.Machine
end

