-- ==== Sys2Proof/Machine/Operands.lean ====
section
/-!
DEFINITION. Operands of lane-pipe and group-pipe instructions (R179 to R182, R203), elements of packed operands (R184),
and the special registers (R192, R222, R226).
-/
namespace Sys2Proof.Machine

/-- Element width of an integer type code (R203). -/
def elemBits (m : BitVec 4) : Nat :=
  if m = 2 || m = 3 || m = 9 then 64 else if m = 4 || m = 5 then 16 else if m = 6 || m = 7 then 8 else 32

/-- Whether elements of an integer type are read as two's complement (R203). -/
def isSignedTy (m : BitVec 4) : Bool := m = 0 || m = 2 || m = 4 || m = 6

/-- Bits of an operand of an integer type (R203). -/
def operandBits (m : BitVec 4) : Nat := 32 * intRegs m

/-- Element `k` of `w` bits (R184). -/
def elemNat (w k : Nat) (x : DWord) : Nat := bits x.toNat (w * k + w - 1) (w * k)

/-- Element `k` as the type reads it (R203). -/
def elemVal (m : BitVec 4) (k : Nat) (x : DWord) : Int :=
  let u := elemNat (elemBits m) k x
  if isSignedTy m then toSigned (elemBits m) u else u

/-- Elements of `w` bits put side by side, each taken modulo 2^w (R184, R204). -/
def packElems (w : Nat) (n : Nat) (f : Nat → Int) : DWord :=
  BitVec.ofNat 64 ((List.range n).foldl (fun acc k => acc + (f k % 2 ^ w).toNat * 2 ^ (w * k)) 0)

/-- The least and greatest values of an integer type (R206). -/
def leastOf (m : BitVec 4) : Int := if isSignedTy m then -2 ^ (elemBits m - 1) else 0
def greatestOf (m : BitVec 4) : Int := if isSignedTy m then 2 ^ (elemBits m - 1) - 1 else 2 ^ elemBits m - 1

def clampTo (lo hi r : Int) : Int := min (max r lo) hi

/-- One operation of R206 on every element of its operands. -/
def intOp (m : BitVec 4) (sat : Bool) (r : Int → Int → Int → Int) (a b c : DWord) : DWord :=
  packElems (elemBits m) (operandBits m / elemBits m) fun k =>
    let x := r (elemVal m k a) (elemVal m k b) (elemVal m k c)
    if sat then clampTo (leastOf m) (greatestOf m) x else x

/-- A lane-pipe source of `n` lane registers in a lane: a lane register or pair, or a group register (R180, R181). -/
def Here.src (k : Here) (n : Nat) (fld : Nat) (kb : Bool) (lane : Nat) : DWord :=
  if kb then (if n = 2 then k.grp.greg fld else ((k.grp.greg fld).setWidth 32).setWidth 64)
  else if n = 2 then k.grp.lpair fld lane else (k.grp.lreg fld lane).setWidth 64

/-- The index that X adds in a lane (R182). -/
def Here.index (k : Here) (lane : Nat) : Nat := if k.f.x then (k.grp.xreg k.f.xi.toNat lane).toNat else 0

/-- Source A, indexed when X is 1 (R182). -/
def Here.srcA (k : Here) (n lane : Nat) : DWord := k.src n (k.f.a.toNat + k.index lane) k.f.ka lane
def Here.srcB (k : Here) (n lane : Nat) : DWord := k.src n k.f.b.toNat k.f.kb lane
def Here.srcC (k : Here) (n lane : Nat) : DWord := k.src n k.f.c.toNat k.f.kc lane

/-- Writes `n` lane registers from `r` in every lane of a mask. -/
def Group.setLanes (h : Group) (r n : Nat) (m : LaneMask) (f : Nat → DWord) : Group :=
  (laneList m).foldl (fun h l => if n = 2 then h.setLpair r l (f l) else h.setLreg r l ((f l).setWidth 32)) h

/-- Writes a lane predicate in the lanes of a mask; the others keep it (R7). -/
def Group.setPred (h : Group) (n : Nat) (m : LaneMask) (f : Nat → Bool) : Group :=
  h.setPmask n ((h.pmask n &&& ~~~m) ||| maskOf fun l => m.getLsbD l && f l)

/-- Writes an index register in the lanes of a mask. -/
def Group.setIdx (h : Group) (n : Nat) (m : LaneMask) (f : Nat → Half) : Group :=
  (laneList m).foldl (fun h l => h.setX n l (f l)) h

/-- The register writes of `n` lane registers from `r` in one lane. -/
def laneWrites (r n lane : Nat) (x : DWord) : List RegWrite :=
  if n = 2 then [.v r lane (x.setWidth 32), .v (r + 1) lane (x.extractLsb' 32 32)] else [.v r lane (x.setWidth 32)]

/-- The instruction's address when a handler issues it (R369). -/
def Here.handlerPc (k : Here) : Option DWord := if k.grp.inHandler then some k.sp.pc else none

/-- The registers of D (R179). -/
def Here.dests (k : Here) (n : Nat) : List Reg := (List.range n).map fun j => .v (k.f.d.toNat + j)

/-- The register that a predicate field names; number 7 names none (R191). -/
def predReg (r : Nat → Reg) (fld : Byte) : List Reg := if fld.toNat % 8 = 7 then [] else [r (fld.toNat % 8)]

/-- The outstanding result of a long-latency instruction: its window opens with LA instructions left (R187). -/
def State.addResult (s : State) (k : Here) (uid : Nat) (dests : List Reg) (writes : List RegWrite) (waits : List Nat)
    (acq : Option Nat) : State :=
  s.modGroup k.team.uid k.grp.gid fun h => { h with results := h.results ++
    [{ uid := uid, owners := [k.sp.id], window := k.f.la.toNat, dests := dests, kind := .fixed writes, pend := [],
       waits := waits, raw := [], fail := none, acq := acq, rel := none, handlerPc := k.handlerPc, done := false }] }

/-- A long-latency meaning that works on registers alone (R186): its results come with LONG_LATENCY_RESULT. -/
def issueLong (i : Instr) (s : State) (n : Nat) (f : Here → Nat → DWord) : Host.Outcome State Fault Refusal :=
  issue i s fun k s1 => .next (s1.fresh.addResult k s1.uid (k.dests n)
    ((laneList k.mask).flatMap fun l => laneWrites k.f.d.toNat n l (f k l)) [] none)

/-- A meaning that writes `n` lane registers of D from each participating lane's sources. -/
def issueLanes (i : Instr) (s : State) (n : Nat) (f : Here → Nat → DWord) : Host.Outcome State Fault Refusal :=
  issueRegs i s fun k h => h.setLanes k.f.d.toNat n k.mask (f k)

/-- A group source of R223: all 64 bits, or bits [31:0]. -/
def Here.gsrc (k : Here) (m : BitVec 4) (n : Nat) : DWord :=
  if intRegs m = 2 then k.grp.greg n else ((k.grp.greg n).setWidth 32).setWidth 64

/-- A result of R223: a 32-bit one is sign-extended for .i32, zero-extended otherwise. -/
def groupResult (m : BitVec 4) (x : DWord) : DWord :=
  if intRegs m = 2 then x else if m = 0 then (x.setWidth 32).signExtend 64 else (x.setWidth 32).setWidth 64

/-- A group-pipe meaning that writes gD. -/
def issueGroup (i : Instr) (s : State) (f : Here → DWord) : Host.Outcome State Fault Refusal :=
  issueRegs i s fun k h => h.setG k.f.d.toNat (f k)

/-- Special registers of R192 as the issuing split reads them. -/
def State.sreg (s : State) (x : Team) (h : Group) (p : Split) (lane n : Nat) : DWord :=
  let g := s.grid? x.grid
  let l0 := (g.map fun y => y.l0).getD 0
  let l1 := (g.map fun y => y.l1).getD 0
  match n with
  | 0 => BitVec.ofNat 64 lane
  | 1 => BitVec.ofNat 64 h.gid
  | 2 => BitVec.ofNat 64 p.id
  | 3 => x.teamId.setWidth 64
  | 4 => BitVec.ofNat 64 (if x.spawn then bits l1.toNat 41 37 else bits l0.toNat 43 38 + bits l0.toNat 37 32)
  | 5 => h.role.setWidth 64
  | 6 => ((g.map Grid.gridId).getD 0).setWidth 64
  | 7 => BitVec.ofNat 64 (x.core % 96)
  | 8 => BitVec.ofNat 64 (x.core % 96 / 8)
  | 9 => BitVec.ofNat 64 (x.core / 96)
  | 10 => s.fabric.deviceId.setWidth 64
  | 11 => s.devclk
  | 12 => ((s.ctx? x.ctx).map fun c => c.ctxclk).getD 0
  | 13 => x.timer
  | 14 => (g.map fun y => y.seed).getD 0
  | 15 => x.partword.setWidth 64
  | 16 => x.trapCause.setWidth 64
  | 17 => h.trapPc
  | 18 => h.skid.setWidth 64
  | _ => 0

end Sys2Proof.Machine
end

