-- ==== Sys2Proof/Machine/Ordering.lean ====
section
/-!
DEFINITION. What orders the accesses of groups (R145 to R157, 05_consistency.md): agents and scopes, program order, the
accesses of a group that are not performed, completion at a scope, and ordering that binds only agents of its scope.
-/
namespace Sys2Proof.Machine

/-! ### Agents and scopes -/

/-- The agents of R147, with what places them: groups by team and number, engines by core, copy units by the die into whose
scratchpads they deliver, if any. -/
inductive Agent
  | group (team grp : Nat)
  | engine (core : Nat)
  | copyUnit (delivers : Option Nat)
  | commandProcessor
  | pageWalker
  | ringSequencer
  | host
  | peer (dev : Nat)
  | peerHost (dev : Nat)
deriving DecidableEq, Repr

/-- The core on which an agent of a core stands. -/
def State.agentCore (s : State) (a : Agent) : Option Nat :=
  match a with
  | .group t _ => (s.team? t).map fun x => x.core
  | .engine c => some c
  | _ => none

/-- The groups of a group's convocation, also while it is broken (R385); the group alone where it has not convened (R148). -/
def State.convened (s : State) (t g : Nat) : List Nat :=
  match (s.team? t).bind fun x => x.convs.find? fun c => c.formed && c.members.any fun m => m.gid = g with
  | some c => c.members.map fun m => m.gid
  | none => [g]

/-- INSCOPE of R146 by the table of R148: whether scope `sc` of group `g` of team `t` contains an agent. -/
def State.inScope (s : State) (sc t g : Nat) (a : Agent) : Bool :=
  let within (n : Nat) : Bool := match s.agentCore (.group t g), s.agentCore a with
    | some c, some d => c / n = d / n
    | _, _ => false
  match sc with
  | 0 | 1 | 2 => a = .group t g
  | 3 => match a with
    | .group t' g' => t' = t && (s.convened t g).contains g'
    | _ => false
  | 4 => match a with
    | .group t' _ => t' = t
    | _ => false
  | 5 => within 1
  | 6 => within 8
  | 7 => within 96 || match a with
    | .copyUnit (some d) => (s.agentCore (.group t g)).map (· / 96) = some d
    | _ => false
  | 8 => match a with
    | .host | .peer _ | .peerHost _ => false
    | _ => true
  | 9 => match a with
    | .peer _ | .peerHost _ => false
    | _ => true
  | 10 => match a with
    | .host | .peerHost _ => false
    | _ => true
  | _ => true

/-- MUTUAL of R146. -/
def State.mutual (s : State) (sc t g sc' t' g' : Nat) : Bool :=
  s.inScope sc t g (.group t' g') && s.inScope sc' t' g' (.group t g)

/-! ### Program order

Every access of a group has the record number of its instruction or store queue entry; they rise in program order (R151). -/

def Loc.isWindow : Loc → Bool
  | .window _ => true
  | _ => false

/-- The group and record number of the access that a request is for. -/
def ReqUse.access : ReqUse → Option (Nat × Nat × Nat)
  | .load t g u _ _ _ => some (t, g, u)
  | .store t g _ u _ _ _ => some (t, g, u)
  | .read _ _ | .write _ _ => none

/-- The bytes at its destination that a request names. -/
def Request.places (r : Request) : List (Loc × Nat) :=
  let at_ (a : Nat) : Loc := match r.dev with
    | some d => .peer d a
    | none => .host a
  match r.ask with
  | .read n => [(at_ r.addr, n)]
  | .write b => [(at_ r.addr, b.length)]
  | .masked parts => parts.map fun p => (at_ (r.addr + p.1), p.2.length)
  | .atomic _ ty _ _ => [(at_ r.addr, atomSize ty)]
  | .coll ctl _ parts => partPlaces (r.dev.getD 0) r.addr ctl parts

/-- A request for lanes of a coll goes to their 256-byte region (R328). -/
def Loc.requestBase (l : Loc) : Nat :=
  match l with
  | .remote _ va => va / 256 * 256
  | _ => l.addr

/-- The bytes that an entry of a store queue names, and an access of a long-latency instruction. -/
def QEntry.places (e : QEntry) : List (Loc × Nat) :=
  match e.op, e.loc with
  | .packet ctl _ parts, .remote d _ => partPlaces d e.loc.requestBase ctl parts
  | _, _ => [(e.loc, e.size)]
def Pend.places (a : Pend) : List (Loc × Nat) :=
  match a.op, a.loc with
  | .packet ctl _ parts, .remote d _ => partPlaces d a.loc.requestBase ctl parts
  | _, _ => [(a.loc, a.n)]

/-- Whether some bytes may meet some others. -/
def placesMeet (l m : List (Loc × Nat)) : Bool := l.any fun a => m.any fun b => a.1.meets a.2 b.1 b.2

/-- The accesses of a group numbered below `u` that are not performed or whose value has not come. -/
def State.undone (s : State) (h : Group) (u : Nat) : List (Loc × Nat) :=
  ((h.queue.filter fun e => e.uid < u).flatMap QEntry.places) ++
  ((h.results.filter fun r => r.uid < u).flatMap fun r => r.pend.flatMap Pend.places) ++
  s.fabric.requests.flatMap fun r => match r.use.access with
    | some (t, g, v) => if t = h.team && g = h.gid && v < u then r.places else []
    | none => []

/-- Whether an access of the group that precedes number `u` touches the bytes and is not complete: the accesses of one
group to one location are performed in program order (R145). -/
def State.earlierMeets (s : State) (h : Group) (u : Nat) (l : List (Loc × Nat)) : Bool := placesMeet (s.undone h u) l
def State.earlierTouches (s : State) (h : Group) (u : Nat) (l : Loc) (n : Nat) : Bool := s.earlierMeets h u [(l, n)]

/-- Whether a place lies in the SRAM pool of a core (R152). -/
def State.onCore (s : State) (core : Nat) (l : Loc) : Bool :=
  match l with
  | .scr t _ => match s.team? t with
    | some x => x.core = core
    | none => false
  | _ => false

/-- Accesses of long-latency instructions numbered below `u` that lie in the own core's SRAM pool and are not performed: a
later access there is performed after them (R152). -/
def State.earlierOwn (s : State) (core : Nat) (h : Group) (u : Nat) : Bool :=
  h.results.any fun r => r.uid < u && r.pend.any fun a => s.onCore core a.loc

/-- Whether a write that a request carries counts as complete at a scope before it is answered (R155): to a peer once the
port has it, at pod and system scope when it is performed; to the host once the link has it, at host and system scope
when it is performed; to a window always. -/
def ReqUse.sentIsComplete (use : ReqUse) (dev : Option Nat) (scope : Nat) : Bool :=
  match use with
  | .store _ _ _ _ window _ _ => window || (if dev.isSome then scope < 10 else scope ≠ 9 && scope ≠ 11)
  | _ => false

/-- R155: every access of the group numbered below `u` is complete at a scope. -/
def State.completeAt (s : State) (h : Group) (u scope : Nat) : Bool :=
  (h.queue.all fun e => e.loc.isWindow || u ≤ e.uid) && (h.results.all fun r => u ≤ r.uid || r.pend = []) &&
  s.fabric.requests.all fun r => match r.use.access with
    | some (t, g, v) => !(t = h.team && g = h.gid && v < u) || r.use.sentIsComplete r.dev scope
    | none => true

/-! ### Ordering points -/

/-- The record number and scope of what a split is parked on, where later accesses of its group wait for it: a fence, or a
drain, which has none (R156, R167). -/
def Split.fencePoint (p : Split) : Option (Nat × Option Nat) :=
  match p.park with
  | some (.fence sc b) => some (b, some sc)
  | some (.copies _ _ b) => some (b, none)
  | _ => none

/-- The record number of an mwait that a split is parked on (R168). -/
def Split.batchPoint (p : Split) : Option (Nat × Option Nat) :=
  match p.park with
  | some (.batch _ _ b) => some (b, none)
  | _ => none

/-- The acquires, fences, drains and mwaits of a group, numbered below `u`, that are not complete (R154, R156, R167, R168). An mwait
of a split that a handler has set aside does not hold up the handler's accesses (assumption log 55). -/
def Group.orderPoints (h : Group) (u : Nat) : List (Nat × Option Nat) :=
  ((h.results.filterMap fun r => if r.done then none else r.acq.map fun sc => (r.uid, some sc)) ++
    (h.splits ++ h.saved.getD []).filterMap Split.fencePoint ++ h.splits.filterMap Split.batchPoint).filter fun e => e.1 < u

/-! ### Ordering that binds only some agents (R157)

An ordering of a group's accesses is named by a record number below which the accesses stand that it orders before later ones, and
by its scope. -/

/-- Whether no other group has an access under way to bytes that this group's accesses below `u` touch. -/
def State.unwatched (s : State) (h : Group) (u : Nat) : Bool :=
  let mine := s.undone h u
  s.groups.all fun y => (y.team = h.team && y.gid = h.gid) || !placesMeet (s.undone y s.uid) mine

/-- Whether the access numbered `u` may be performed before an ordering of scope `sc` of the accesses below `m` binds: of a scope of
this die, while no one watches; a free value says whether it is (R157, assumption log 56). -/
def State.mayPass (s : State) (h : Group) (u m sc : Nat) : Bool :=
  sc ≤ 7 && s.freeAt 19 u % 2 = 1 && s.unwatched h m

/-- A later access has passed an ordering: agents of its scope must not see that, so until the accesses below its number
are performed theirs to the same bytes wait (`shadowed`). Marks that hide nothing any more go. -/
def State.notePassed (s : State) (h : Group) (l : List (Nat × Nat)) : State :=
  if l = [] then s
  else s.modGroup h.team h.gid fun y => { y with passed := (y.passed.filter fun m => s.undone y m.1 ≠ []) ++ l }

/-- The orderings of a group that access `u` with release `rel` has not waited for: those of the points before it, which order the
point's own access too, and its release (R155); `own` says that the accesses of lower lanes of the instruction are complete, which
its acquire `acq` and its release order before it (R151). -/
def State.unmet (s : State) (h : Group) (u : Nat) (acq rel : Option Nat) (own : Bool) : List (Nat × Option Nat) :=
  ((h.orderPoints u).map fun m => (m.1 + 1, m.2)) ++
  (match rel with
    | some sc => if s.completeAt h u sc && own then [] else [(u + 1, some sc)]
    | none => []) ++
  (match acq with
    | some sc => if own then [] else [(u + 1, some sc)]
    | none => [])

/-- Whether the access may be performed: it passes every ordering that it has not waited for. -/
def State.mayPassAll (s : State) (h : Group) (u : Nat) (l : List (Nat × Option Nat)) : Bool :=
  l.all fun m => match m.2 with
    | some sc => s.mayPass h u m.1 sc
    | none => false

/-- The marks of orderings that are passed. -/
def passMarks (l : List (Nat × Option Nat)) : List (Nat × Nat) := l.filterMap fun m => m.2.map fun sc => (m.1, sc)

/-- Whether an access of a group has to wait because another group, in one of whose scopes it stands, has passed an ordering
while an earlier access to the same bytes is not performed (R157). -/
def State.shadowed (s : State) (t g : Nat) (l : Loc) (n : Nat) : Bool :=
  s.groups.any fun y => !(y.team = t && y.gid = g) && y.passed.any fun m =>
    s.inScope m.2 y.team y.gid (.group t g) && s.earlierTouches y m.1 l n

/-- Whether another group, in one of whose scopes a group stands, has passed an ordering while any earlier access is not performed:
what the group hands to a copy unit or engine would see it (R157, R166, R168, assumption log 56). -/
def State.blinded (s : State) (t g : Nat) : Bool :=
  s.groups.any fun y => !(y.team = t && y.gid = g) && y.passed.any fun m =>
    s.inScope m.2 y.team y.gid (.group t g) && s.undone y m.1 ≠ []

end Sys2Proof.Machine
end

