-- ==== Sys2Proof/Machine/Atomics.lean ====
section
/-!
DEFINITION. The performing of accesses at their points of coherence (R143, R145, R152 to R157): entries of a group's store
queue, the accesses of its long-latency instructions, and requests to peers and to a host link that is down.
-/
namespace Sys2Proof.Machine

/-! ### Performing at the point of coherence -/

/-- A write at a place held by this device or the host (R143); the line leaves the writing core's caches (R114). -/
def State.writeLoc (s : State) (core : Nat) (l : Loc) (bytes : List Byte) : State :=
  match l with
  | .mem pa key pol => (s.dropLines core l bytes.length).writeMem key pol pa bytes
  | .host pa | .window pa => s.hostWrite pa bytes
  | .scr t off => s.writeScratch t off bytes
  | .peer _ _ | .remote _ _ => s

/-- An access under another key than a dirty line is held with (R112). -/
def State.rekey (s : State) (l : Loc) (n : Nat) : State :=
  match l with
  | .mem pa key _ => s.rekeyMem key pa n
  | .peer _ _ | .remote _ _ | .host _ | .window _ | .scr _ _ => s

/-- One atomic at a place held by this device or the host: the old value and the state after it (R276); its line leaves
the core's caches whether or not it writes (R114). -/
def State.atomicAt (s0 : State) (core : Nat) (l : Loc) (op : AtomOp) (ty : AtomTy) (b sv : DWord) : Nat × State :=
  let n := atomSize ty
  let s := s0.rekey l n
  let old := leNat (s.peek l n)
  match atomNew op ty old (b.toNat % 2 ^ (8 * n)) (sv.toNat % 2 ^ (8 * n)) with
  | some x => (old, s.writeLoc core l (leBytes n x))
  | none => (old, s.dropLines core l n)

/-- The lines of this device's memory that a group's writes have touched (R121). -/
def Group.touch (h : Group) (l : Loc) (n : Nat) : Group :=
  match l with
  | .mem pa _ _ => { h with touched := (linesOf pa n).foldl (fun t x => insertNat x t) h.touched }
  | _ => h

/-- R121: every line the group's earlier stores touched and that is still dirty is written back. -/
def State.protect (s : State) (t g : Nat) : State :=
  match s.group? t g with
  | none => s
  | some h =>
    (s.writeBackLines (h.touched.filter fun l => s.storage.dirty.contains l)).modGroup t g fun h =>
      { h with touched := [] }

/-- What a request asks for an entry of a store queue. -/
def QEntry.ask (e : QEntry) : OutAsk :=
  match e.op with
  | .write b => .write b
  | .reduce op ty b => .atomic op ty b 0
  | .packet ctl form parts => .coll ctl form parts

/-- A place of the far side of a host link that is down (R418). -/
def State.hostDown (s : State) (l : Loc) : Bool :=
  match l with
  | .host _ | .window _ => !s.host.linkUp
  | _ => false

/-- The release of R155 at system scope takes the group's earlier stores to the protected point first (R121). -/
def State.protectFor (s : State) (h : Group) (rel : Option Nat) : State :=
  if rel = some 11 then s.protect h.team h.gid else s

/-- R166: a copy has been issued whose destination lines are not known, because its descriptors are not read yet: an access of a
thread to memory may be to one of them, and waits. -/
def State.destOpen (s : State) (l : Loc) : Bool :=
  match l with
  | .mem _ _ _ => s.copies.any fun c => !c.dstScr && c.tiles = []
  | .peer _ _ | .remote _ _ | .host _ | .window _ | .scr _ _ => false

/-! ### The store queue -/

/-- One entry of a store queue is performed and leaves the queue; at a peer, or with the host link down, a request
goes out. Poison met by a reduction is delivered (R406). -/
def State.performEntry (s : State) (x : Team) (g : Nat) (e : QEntry) : State :=
  let s1 := s.modGroup x.uid g fun h => { h with queue := h.queue.filter fun q => q.uid ≠ e.uid }
  let use : ReqUse := .store x.uid g e.split e.uid e.loc.isWindow e.va e.handlerPc
  match e.loc with
  | .peer d _ | .remote d _ => s1.sendRequest (some d) (s.job x.ctx) e.loc.requestBase e.ask use
  | _ =>
    if s.hostDown e.loc then s1.sendRequest none (s.job x.ctx) e.loc.addr e.ask use
    else
      let s2 := s1.modGroup x.uid g fun h => h.touch e.loc e.size
      match e.op with
      | .write b => s2.writeLoc x.core e.loc b
      | .reduce op ty b =>
        if s.locPoisoned e.loc e.size then s1.lateFrom x.uid g (some e.split) e.handlerPc (s.poisonAt e.va e.loc)
        else (s2.atomicAt x.core e.loc op ty b 0).2
      | .packet _ _ _ => s1

/-- The orderings that an entry of a store queue has not waited for; only publication orders a write to a host window (R173). -/
def State.entryUnmet (s : State) (h : Group) (e : QEntry) : List (Nat × Option Nat) :=
  if e.loc.isWindow then [] else s.unmet h e.uid none e.rel true

/-- Whether an entry of a store queue may be performed now (R117, R145, R152, R154 to R157). -/
def State.mayPerform (s : State) (x : Team) (h : Group) (e : QEntry) : Bool :=
  !s.locHeld e.loc e.size && !s.destOpen e.loc && !s.shadowed h.team h.gid e.loc e.size && !s.earlierMeets h e.uid e.places &&
  !(s.onCore x.core e.loc && (s.earlierOwn x.core h e.uid || h.queue.any fun q => q.uid < e.uid && s.onCore x.core q.loc)) &&
  s.mayPassAll h e.uid (s.entryUnmet h e)

/-- It is performed, after what its release asks for. -/
def State.performNow (s : State) (x : Team) (h : Group) (e : QEntry) : State :=
  ((s.protectFor h e.rel).performEntry x h.gid e).notePassed h (passMarks (s.entryUnmet h e))

/-- The queue's entries are performed in order up to the last that `which` picks; none when one has to wait. -/
def State.performUpTo (s : State) (x : Team) (g : Nat) (which : QEntry → Bool) : List QEntry → Option State
  | [] => some s
  | e :: q =>
    if e :: q |>.any which then match s.group? x.uid g with
      | none => none
      | some h => if s.mayPerform x h e then (s.performNow x h e).performUpTo x g which q else none
    else some s

/-- STORE_PERFORMED (R143, R152, R155): entry `idx` of a group's store queue is performed. -/
def execStorePerformed (t g idx : Nat) (s : State) : Host.Outcome State Fault Refusal :=
  match s.team? t, s.group? t g with
  | some x, some h => match h.queue[idx]? with
    | some e => if s.mayPerform x h e then .next (s.performNow x h e) else .next s
    | none => .next s
  | _, _ => .next s

/-! ### Accesses of long-latency instructions -/

/-- A read takes the bytes of the group's own queued writes (R145). -/
def forward (q : List QEntry) (l : Loc) (bytes : List Byte) : List Byte :=
  bytes.mapIdx fun j b => q.foldl (fun b e => match e.op with
    | .write w => if e.loc.space = l.space && e.loc.addr ≤ l.addr + j then w.getD (l.addr + j - e.loc.addr) b else b
    | .reduce _ _ _ | .packet _ _ _ => b) b

/-- Entries that must be performed before a read of `n` bytes can be served: a queue does not forward a reduction, a
write under another key, a write to a peer, or a write to a read that touches a barrier word, which the barrier unit
performs (R161). DESIGN CHOICE: a memory reduction counts as a write in the row of R152 that lets a read pass a queued write, so only
one that meets the read's bytes is performed first (assumption log 75). -/
def State.needsPerform (s : State) (l : Loc) (n : Nat) (e : QEntry) : Bool :=
  e.loc.meets e.size l n && (match e.op, e.loc, l with
    | .reduce _ _ _, _, _ | .packet _ _ _, _, _ => true
    | .write _, .mem _ k _, .mem _ k' _ => k ≠ k'
    | .write _, .peer _ _, _ | .write _, .remote _ _, _ => true
    | .write _, _, .scr t off => s.barsIn t off n ≠ []
    | .write _, _, _ => false)

/-- One read at its place: from the L1 or the gather fetch cache where it may use it (R113, R137), else at the point of
coherence; `q` are the group's earlier entries. -/
def State.serve (s0 : State) (core : Nat) (q : List QEntry) (op : PendOp) (l : Loc) (n : Nat) : List Byte × State :=
  let s := s0.rekey l n
  match op, l with
  | .read, .mem pa key .full =>
    let c := (s.core core).l1
    (forward q l (s.cachedView c key pa n), s.modCore core fun y => { y with l1 := s.cacheFill l1Lines c key pa })
  | .gather, .mem pa key .full =>
    let c := (s.core core).gather
    (forward q l (s.cachedView c key pa n), s.modCore core fun y => { y with gather := s.cacheFill gatherLines c key pa })
  | _, _ => (forward q l (s.peek l n), s)

/-- A result of a group changes. -/
def State.modResult (s : State) (t g uid : Nat) (f : Result → Result) : State :=
  s.modGroup t g fun h => { h with results := h.results.map fun r => if r.uid = uid then f r else r }

/-- Whether it is a plain read, which takes the bytes of the group's queued writes. -/
def PendOp.isRead : PendOp → Bool
  | .read | .gather | .fresh => true
  | .atomic _ _ _ _ | .packet _ _ _ => false

/-- Whether it reads its bytes, so that poison there is delivered (R406). -/
def PendOp.reads : PendOp → Bool
  | .read | .gather | .fresh | .atomic _ _ _ _ => true
  | .packet _ _ _ => false

/-- Whether the accesses of the group before number `u`, and those of the same instruction before `idx`, let one to these
bytes be performed: they are in program order for one location (R145, R151), and in the own core's SRAM pool (R152).
A read takes the bytes of queued writes. -/
def State.inOrder (s : State) (x : Team) (h : Group) (r : Result) (a : Pend) : Bool :=
  let own := s.onCore x.core a.loc
  (r.pend.all fun b => a.idx ≤ b.idx || (!placesMeet b.places a.places && !(own && s.onCore x.core b.loc))) &&
  (h.results.all fun q => r.uid ≤ q.uid || q.pend.all fun b => !placesMeet b.places a.places && !(own && s.onCore x.core b.loc)) &&
  (h.queue.all fun e => r.uid ≤ e.uid || (if a.op.isRead then !s.needsPerform a.loc a.n e
    else !placesMeet e.places a.places && !(own && s.onCore x.core e.loc))) &&
  s.fabric.requests.all fun q => match q.use.access with
    | some (t, g, v) => !(t = h.team && g = h.gid && v ≤ r.uid && placesMeet q.places a.places)
    | none => true

/-- Whether the accesses of lower lanes of the same instruction are complete (R151): performed and answered. -/
def State.lanesDone (s : State) (h : Group) (r : Result) (a : Pend) : Bool :=
  (r.pend.all fun b => a.idx ≤ b.idx) && s.fabric.requests.all fun q => match q.use with
    | .load t g u i _ _ => !(t = h.team && g = h.gid && u = r.uid && i < a.idx)
    | _ => true

/-- The orderings that an access of a long-latency instruction has not waited for. -/
def State.pendUnmet (s : State) (h : Group) (r : Result) (a : Pend) : List (Nat × Option Nat) :=
  s.unmet h r.uid r.acq r.rel (s.lanesDone h r a)

/-- Whether an access of a long-latency instruction may be performed now (R117, R145, R152 to R157, R344). -/
def State.mayPerformPend (s : State) (x : Team) (h : Group) (r : Result) (a : Pend) : Bool :=
  !s.locHeld a.loc a.n && !s.destOpen a.loc && !s.shadowed h.team h.gid a.loc a.n && s.inOrder x h r a &&
  s.mayPassAll h r.uid (s.pendUnmet h r a)

/-- What a request asks for an access. -/
def Pend.ask (a : Pend) : OutAsk :=
  match a.op with
  | .atomic op ty b sv => .atomic op ty b sv
  | .packet ctl form parts => .coll ctl form parts
  | .read | .gather | .fresh => .read a.n

/-- An access of a long-latency instruction is performed (R143): its bytes, or an atomic's old value, come to the result; at
a peer, or with the host link down, a request goes out. Poison is delivered with the result (R406). A read that passes an
acquire which empties the caches uses none (R154). -/
def State.performPend (s : State) (x : Team) (h : Group) (r : Result) (a : Pend) : State :=
  let marks := passMarks (s.pendUnmet h r a)
  let op := if (h.orderPoints r.uid).any fun m => m.2.any fun sc => 6 ≤ sc then PendOp.fresh else a.op
  let took (s : State) (f : Result → Result) : State :=
    (s.modResult h.team h.gid r.uid fun q => f { q with pend := q.pend.filter fun b => b.idx ≠ a.idx }).notePassed h marks
  let s1 := s.protectFor h r.rel
  let come (b : List Byte) (q : Result) : Result := { q with raw := q.raw ++ [(a.idx, a.lane, b)] }
  if s.isRemote a.loc then
    took (s1.sendRequest a.loc.dev (s.job x.ctx) a.loc.requestBase a.ask (.load h.team h.gid r.uid a.idx a.lane a.va)) fun q =>
      { q with waits := q.waits ++ [s1.uid] }
  else if a.op.reads && s.locPoisoned a.loc a.n then took s1 fun q => { q with fail := some (q.fail.getD (s.poisonAt a.va a.loc)) }
  else match a.op with
    | .atomic aop ty b sv =>
      let (old, s2) := (s1.modGroup h.team h.gid fun y => y.touch a.loc a.n).atomicAt x.core a.loc aop ty b sv
      took s2 (come (leBytes a.n old))
    | .packet _ _ _ => took s1 id
    | .read | .gather | .fresh =>
      let (b, s2) := s1.serve x.core (h.queue.filter fun e => e.uid < r.uid) op a.loc a.n
      took s2 (come b)

end Sys2Proof.Machine
end

