-- ==== Sys2Proof/Machine/Memory.lean ====
section
/-!
DEFINITION. Loads, stores, masked stores, atomics and reductions on the global and scratchpad spaces (R266 to R277,
09_isa_memory.md). Accesses of long-latency instructions are performed by LONG_LATENCY_RESULT.
-/
namespace Sys2Proof.Machine

/-- One access of an instruction: lane, address, bytes, place. -/
structure Site where
  lane : Nat
  va : DWord
  n : Nat
  loc : Loc
deriving DecidableEq, Repr

/-- What probing an instruction's accesses has found so far: the places, the lowest cause (R360), the pages of
the replayable faults with the lowest code among them (R376 to R378), the first poisoned walk (R406), whether a walk has to wait. -/
structure Probes where
  sites : List Site
  cause : Option (BitVec 8)
  replay : List (DWord × BitVec 8)
  poison : Option (DWord × Nat)
  held : Bool

def Probes.addCause (a : Probes) (c : BitVec 8) : Probes :=
  { a with cause := some (match a.cause with
      | some d => if d ≤ c then d else c
      | none => c) }

/-- Adds one global access: alignment, translation and permission, and what else the place may not be. -/
def State.probeGlobal (s : State) (ctx : Nat) (kind : AccessKind) (align : Nat) (bad : Loc → Option (BitVec 8))
    (a : Probes) (lane n : Nat) (va : DWord) : Probes :=
  if va.toNat % align ≠ 0 then a.addCause 0x10
  else match s.probe ctx va kind with
    | .cause c => a.addCause c
    | .poison pa => { a with poison := some (a.poison.getD (va, pa)) }
    | .held => { a with held := true }
    | .replay why => { a with replay := a.replay ++ [(va, why)] }
    | .ok loc => match bad loc with
      | some c => a.addCause c
      | none => { a with sites := a.sites ++ [⟨lane, va, n, loc⟩] }

/-- A scratchpad access meets a barrier word whose bits [61:60] are not zero (R373, R383). -/
def State.badBarWord (s : State) (t off n : Nat) : Bool :=
  (s.barsIn t off n).any fun b => barRsv (s.barWord t b) ≠ 0

/-- Adds one scratchpad access (R102 to R104, R373). -/
def State.probeScratch (s : State) (x : Team) (align : Nat) (a : Probes) (lane n : Nat) (va : DWord) : Probes :=
  if va.toNat % align ≠ 0 then a.addCause 0x10
  else match s.scrPlace x (va.setWidth 32) n with
    | none => a.addCause 0x11
    | some (t, off) =>
      if s.badBarWord t off n then a.addCause 0x20
      else { a with sites := a.sites ++ [⟨lane, va, n, .scr t off⟩] }

/-- The accesses of one instruction: where they go, or what the instruction ends with instead (R360, R375, R376). -/
def State.probes (s : State) (k : Here) (glob : Bool) (kind : AccessKind) (align : Nat) (bad : Loc → Option (BitVec 8))
    (l : List (Nat × Nat × DWord)) : Except Body (List Site) :=
  let a := l.foldl (fun a e => if glob then s.probeGlobal k.team.ctx kind align bad a e.1 e.2.1 e.2.2
    else s.probeScratch k.team align a e.1 e.2.1 e.2.2) ⟨[], none, [], none, false⟩
  if a.held then .error .wait
  else match a.cause, a.replay, a.poison with
  | some c, _, _ => .error (.trap c)
  | none, (va, why) :: l, _ =>
    .error (.replay ((va, why) :: l) (if kind = .read then 0 else if kind = .write then 1 else 2)
      (l.foldl (fun c e => if e.2 < c then e.2 else c) why))
  | none, [], some (va, pa) => .error (.late s (poisonCause va pa))
  | none, [], none => .ok a.sites

/-- The translations of the accesses are kept (R111); the walks to them have read the tables (R112). -/
def State.noteSites (s : State) (k : Here) (glob : Bool) (l : List Site) : State :=
  if glob then (s.noteTlb k.team.ctx (l.map fun e => e.va)).rekeyWalks k.team.ctx (l.map fun e => e.va) else s

/-- Whether an earlier acquire, fence, drain or mwait of the issuing group is not complete (R154, R156, R167, R168). -/
def State.behindPoint (s : State) (k : Here) : Bool :=
  match s.group? k.team.uid k.grp.gid with
  | none => false
  | some h => h.orderPoints s.uid ≠ []

/-- What an access performed at the issue of an instruction may have to wait for: an earlier acquire, fence, drain or
mwait (R154, R156, R167, R168); earlier accesses of long-latency instructions to the same bytes (R145), or where both lie
in the own core's SRAM pool (R152); the home slice (R117, R344); an ordering that another group has passed (R157). -/
def State.accessWaits (s : State) (k : Here) (l : Loc) (n : Nat) : Bool :=
  match s.group? k.team.uid k.grp.gid with
  | none => false
  | some h => s.behindPoint k || s.locHeld l n || s.destOpen l || s.shadowed k.team.uid k.grp.gid l n ||
      (s.onCore k.team.core l && s.earlierOwn k.team.core h s.uid) ||
      s.earlierTouches { h with queue := [] } s.uid l n

def State.sitesWait (s : State) (k : Here) (l : List Site) : Bool := l.any fun e => s.accessWaits k e.loc e.n

/-- The store queue of the issuing group, after the issue. -/
def State.queueOf (s : State) (k : Here) : List QEntry := ((s.group? k.team.uid k.grp.gid).map fun h => h.queue).getD []

/-- An acquire at file scope or wider empties the core's caches (R114, R154). -/
def State.acquire (s : State) (k : Here) (scope : Nat) : State := if 6 ≤ scope then s.emptyCaches k.team.core else s

/-- The scope of an acquire or release that a control byte asks for, with M's scope code (R150, R267). -/
def acqScope (i : Long) : Option Nat := if ctlOrd i.c = 1 || ctlOrd i.c = 3 then some i.m.toNat else none
def relScope (i : Long) : Option Nat := if ctlOrd i.c = 2 || ctlOrd i.c = 3 then some i.m.toNat else none

/-! ### Loads -/

/-- The bytes an access of R269 moves. -/
def widthBytes (f : BitVec 3) : Nat :=
  match f.toNat with
  | 0 | 1 => 1
  | 2 | 3 => 2
  | 4 => 4
  | 5 => 8
  | _ => 16

/-- What a load of width code `f` writes into registers from `r` (R269); code 7 writes none. -/
def loadWrites (f : BitVec 3) (group : Bool) (r lane : Nat) (bytes : List Byte) : List RegWrite :=
  let x : DWord := BitVec.ofNat 64 (leNat (bytes.take 8))
  let ext : DWord := if f = 1 then (x.setWidth 8).signExtend 64 else if f = 3 then (x.setWidth 16).signExtend 64 else x
  if f = 7 then []
  else if group then [.g r ext]
  else if f = 6 then (List.range 4).map fun j => .v (r + j) lane (BitVec.ofNat 32 (leNat ((bytes.drop (4 * j)).take 4)))
  else laneWrites r (widthRegs f) lane ext

/-- The accesses of an instruction, numbered in the order of its lanes (R151). -/
def pendsOf (l : List Site) (op : Site → PendOp) : List Pend :=
  l.zipIdx.map fun e => ⟨e.2, e.1.lane, e.1.va, e.1.n, e.1.loc, op e.1⟩

/-- The outstanding result of a long-latency instruction whose accesses are performed later (R143, R153); the number is the
instruction's place in program order. -/
def State.addAccesses (s : State) (k : Here) (dests : List Reg) (kind : ResultKind) (acq rel : Option Nat) (l : List Pend) :
    State :=
  s.fresh.modGroup k.team.uid k.grp.gid fun h => { h with results := h.results ++
    [{ uid := s.uid, owners := [k.sp.id], window := k.f.la.toNat, dests := dests, kind := kind, pend := l, waits := [],
       raw := [], fail := none, acq := acq, rel := rel, handlerPc := k.handlerPc, done := false }] }

/-- LOAD of R271: `l` holds the participating lanes' addresses. Each lane's access is performed by LONG_LATENCY_RESULT.
DESIGN CHOICE: g0 as D of gld, whose write is discarded (R181), is a destination of the window all the same (R188, assumption
log 75). -/
def loadBody (k : Here) (s : State) (glob group : Bool) (l : List (Nat × DWord)) : Body :=
  let f := k.f.f
  let n := widthBytes f
  match s.probes k glob .read n (fun _ => none) (l.map fun e => (e.1, n, e.2)) with
  | .error b => b
  | .ok sites => .next ((s.noteSites k glob sites).addAccesses k
      (if group then [.g k.f.d.toNat] else k.dests (widthRegs f)) (.loaded f group k.f.d.toNat) (acqScope k.f) none
      (pendsOf sites fun _ => if k.f.h = 1 then .fresh else .read))

/-- The effective address of R268 in a lane, with field B as an offset in units of the width. -/
def Here.ea (k : Here) (glob : Bool) (lane : Nat) : DWord :=
  let off : DWord := k.f.b.signExtend 64 * BitVec.ofNat 64 (widthBytes k.f.f)
  if glob then k.src 2 k.f.a.toNat k.f.ka lane + off
  else ((k.src 1 k.f.a.toNat k.f.ka lane + off).setWidth 32).setWidth 64

/-- The same for gld and gst, whose base is gA (R268). -/
def Here.gea (k : Here) (glob : Bool) : DWord :=
  let a := k.grp.greg k.f.a.toNat + k.f.b.signExtend 64 * BitVec.ofNat 64 (widthBytes k.f.f)
  if glob then a else (a.setWidth 32).setWidth 64

/-- The base address alone (R268, R273, R274). -/
def Here.base (k : Here) (glob : Bool) (lane : Nat) : DWord := k.src (if glob then 2 else 1) k.f.a.toNat k.f.ka lane

def Here.eas (k : Here) (glob : Bool) : List (Nat × DWord) := (laneList k.mask).map fun l => (l, k.ea glob l)

def execLd (i : Long) (s : State) := issue (.ld i) s fun k s1 => loadBody k s1 true false (k.eas true)
def execLds (i : Long) (s : State) := issue (.lds i) s fun k s1 => loadBody k s1 false false (k.eas false)
def execGld (i : Long) (s : State) :=
  issue (.gld i) s fun k s1 => loadBody k s1 (!i.c.getLsbD 0) true [(0, k.gea (!i.c.getLsbD 0))]

/-! ### Stores -/

/-- Puts writes into the issuing group's store queue, in order (R152). -/
def State.enqueue (s : State) (k : Here) (rel : Option Nat) : List (Site × QOp) → State
  | [] => s
  | (e, op) :: l =>
    (s.fresh.modGroup k.team.uid k.grp.gid fun h => { h with queue := h.queue ++
      [{ uid := s.uid, va := e.va, loc := e.loc, op := op, rel := rel, split := k.sp.id, handlerPc := k.handlerPc }] }).enqueue k rel l

/-- STORE of R272: each lane's address and bytes. `align` 1 is stm's (R273). -/
def storeBody (k : Here) (s : State) (glob : Bool) (align : Nat) (l : List (Nat × DWord × List Byte)) : Body :=
  match s.probes k glob .write align (fun _ => none) (l.map fun e => (e.1, e.2.2.length, e.2.1)) with
  | .error b => b
  | .ok sites => .next ((s.noteSites k glob sites).enqueue k (relScope k.f)
      (List.zipWith (fun e d => (e, QOp.write d.2.2)) sites l))

/-- The bytes of D that a store of width code `f` writes in a lane (R269). -/
def Here.storeData (k : Here) (lane : Nat) : List Byte :=
  let f := k.f.f
  let d := k.f.d.toNat
  if f = 6 then (List.range 4).flatMap fun j => leBytes 4 (k.grp.lreg (d + j) lane).toNat
  else leBytes (widthBytes f) (k.src (widthRegs f) d false lane).toNat

def Here.stores (k : Here) (glob : Bool) : List (Nat × DWord × List Byte) :=
  (laneList k.mask).map fun l => (l, k.ea glob l, k.storeData l)

def execSt (i : Long) (s : State) :=
  issue (.st i) s fun k s1 => storeBody k s1 true (widthBytes i.f) (k.stores true)
def execSts (i : Long) (s : State) :=
  issue (.sts i) s fun k s1 => storeBody k s1 false (widthBytes i.f) (k.stores false)
def execGst (i : Long) (s : State) :=
  issue (.gst i) s fun k s1 =>
    let glob := !i.c.getLsbD 0
    storeBody k s1 glob (widthBytes i.f) [(0, k.gea glob, leBytes (widthBytes i.f) (k.grp.greg i.d.toNat).toNat)]

/-- R273: the bytes of dD that the mask picks, each a location of its own. -/
def Here.maskedStores (k : Here) (glob : Bool) : List (Nat × DWord × List Byte) :=
  (laneList k.mask).flatMap fun l =>
    ((List.range 8).filter fun j => (k.srcB 1 l).getLsbD j).map fun j =>
      let a := k.base glob l + BitVec.ofNat 64 j
      (l, if glob then a else (a.setWidth 32).setWidth 64, [(k.grp.lpair k.f.d.toNat l).extractLsb' (8 * j) 8])

def execStm (i : Long) (s : State) :=
  issue (.stm i) s fun k s1 => storeBody k s1 (!i.f.getLsbD 0) 1 (k.maskedStores (!i.f.getLsbD 0))

/-! ### Atomics -/

/-- Operand B, and the new value of .cas (R275), in a lane. -/
def Here.atomOperand (k : Here) (ty : AtomTy) (lane : Nat) : DWord := k.srcB (atomSize ty / 4) lane
def Here.atomNewValue (k : Here) (ty : AtomTy) (lane : Nat) : DWord :=
  let n := atomSize ty / 4
  k.src n (k.f.b.toNat + (if k.f.kb then 1 else n)) k.f.kb lane

/-- R155: a release waits until every earlier access of the group is complete at its scope. -/
def State.released (s : State) (k : Here) (scope : Nat) : Bool :=
  match s.group? k.team.uid k.grp.gid with
  | some h => s.completeAt h s.uid scope
  | none => true

/-- Lines of the group's earlier stores go to the protected point for a release at system scope (R121, R155). -/
def State.protectAt (s : State) (k : Here) (scope : Nat) : State :=
  if scope = 11 then s.protect k.team.uid k.grp.gid else s

/-- ATOMIC of R276. A reduction without an acquire goes into the store queue; another atomic is performed by
LONG_LATENCY_RESULT, and one that returns nothing (`ret` false) writes no register. -/
def atomBody (k : Here) (s : State) (glob ret : Bool) : Body :=
  let ty := atomTyOf (ctlType k.f.c)
  let op := atomOpOf (ctlOp k.f.c)
  let n := atomSize ty
  let f : BitVec 3 := if !ret then 7 else if n = 8 then 5 else 4
  match s.probes k glob .write n (atomTarget op ty) ((laneList k.mask).map fun l => (l, n, k.base glob l)) with
  | .error b => b
  | .ok sites =>
    let s1 := s.noteSites k glob sites
    .next (if !ret && (acqScope k.f).isNone then
        s1.enqueue k (relScope k.f) (sites.map fun e => (e, QOp.reduce op ty (k.atomOperand ty e.lane)))
      else s1.addAccesses k (if ret then k.dests (n / 4) else []) (.loaded f false k.f.d.toNat) (acqScope k.f) (relScope k.f)
        (pendsOf sites fun e => .atomic op ty (k.atomOperand ty e.lane) (k.atomNewValue ty e.lane)))

def execAtom (i : Long) (s : State) := issue (.atom i) s fun k s1 => atomBody k s1 true true
def execAtoms (i : Long) (s : State) := issue (.atoms i) s fun k s1 => atomBody k s1 false true
def execRed (i : Long) (s : State) := issue (.red i) s fun k s1 => atomBody k s1 true false
def execReds (i : Long) (s : State) := issue (.reds i) s fun k s1 => atomBody k s1 false false

/-! ### Chunks -/

/-- The fields of a chunk header (R263), and whether they are what unpk with `rows` takes (R265). -/
def chunkWidth (h : Nat) : Nat := bits h 5 0
def chunkRows (h : Nat) : Nat := bits h 11 9 + 1
def chunkOk (h rows : Nat) : Bool := chunkWidth h ≤ 32 && bits h 15 12 = 0 && bits h 7 6 = 0 && chunkRows h = rows

/-- Bytes of a chunk's payload (R263). -/
def chunkBytes (h : Nat) : Nat := (chunkWidth h * 32 * chunkRows h + 7) / 8

/-- The decoded values (R264); `acc` is BASE or the running sum. -/
def chunkValues (delta : Bool) (acc : Nat) : List Nat → List Nat
  | [] => []
  | x :: l =>
    let v := (acc + x) % 2 ^ 32
    v :: chunkValues delta (if delta then v else acc) l

/-- CHK16 of R264. -/
def chk16 (l : List Nat) : Nat :=
  let s := l.zipIdx.foldl (fun s v => (s + (v.2 + 1) * v.1) % 2 ^ 32) 0
  bits s 15 0 ^^^ bits s 31 16

/-- The fields of `w` bits of a payload (R263). -/
def chunkFields (w n : Nat) (b : List Byte) : List Nat :=
  let x := leNat b
  (List.range n).map fun i => x / 2 ^ (w * i) % 2 ^ w

/-- Bytes of a scratchpad as the issuing group reads them (R145, R152). -/
def State.readScratch (s : State) (k : Here) (t off n : Nat) : List Byte :=
  forward (s.queueOf k) (.scr t off) (s.peek (.scr t off) n)

/-- unpk's writes, once its header and payload are read (R265). -/
def unpkWrites (rows pred reg : Nat) (lanes : LaneMask) (h : Nat) (payload : List Byte) : List RegWrite :=
  let vals := chunkValues (h.testBit 8) (bits h 63 32) (chunkFields (chunkWidth h) (32 * rows) payload)
  if chunkOk h rows && chk16 vals = bits h 31 16 then
    .q pred true :: (laneList lanes).flatMap fun l => (List.range rows).map fun r =>
      .v (reg + r) l (BitVec.ofNat 32 (vals.getD (32 * r + l) 0))
  else [.q pred false]

/-- The reads of a payload of `n` bytes, a dword at a time. -/
def payloadReads (va : DWord) (t off n : Nat) : List Pend :=
  (List.range ((n + 7) / 8)).map fun i =>
    ⟨i, 0, va + BitVec.ofNat 64 (8 * i), min 8 (n - 8 * i), .scr t (off + 8 * i), .fresh⟩

/-- UNPACK of R265, with the range checks of R373: the header is read when the instruction issues, the payload by
LONG_LATENCY_RESULT. -/
def State.unpkBody (s : State) (k : Here) : Body :=
  let a : DWord := ((k.grp.greg k.f.a.toNat).setWidth 32).setWidth 64
  let rows := k.f.f.toNat + 1
  if a.toNat % 8 ≠ 0 then .trap 0x10
  else match s.scrPlace k.team (a.setWidth 32) 8 with
    | none => .trap 0x11
    | some (t, off) =>
      if s.accessWaits k (.scr t off) 8 then .wait
      else match s.performUpTo k.team k.grp.gid (s.needsPerform (.scr t off) 8) (s.queueOf k) with
      | none => .wait
      | some s1 =>
        let h := leNat (s1.readScratch k t off 8)
        let n := if chunkOk h rows then chunkBytes h else 0
        match s1.scrPlace k.team (a.setWidth 32) (8 + n) with
        | none => .trap 0x11
        | some _ =>
          if s1.locPoisoned (.scr t off) 8 then .late s1 (s1.poisonAt a (.scr t off))
          else .next (s1.addAccesses k (predReg (.q) k.f.c ++ k.dests rows)
            (.unpacked rows k.f.c.toNat k.f.d.toNat k.mask h) none none (payloadReads (a + 8) t (off + 8) n))

def execUnpk (i : Long) (s : State) := issue (.unpk i) s fun k s1 => s1.unpkBody k

end Sys2Proof.Machine
end

