-- ==== Sys2Proof/Machine/Matrix.lean ====
section
/-!
DEFINITION. Convocations, matched instructions, batches and the engine's operations (R80, R297 to R301, R306, R311 to
R321, 10_matrix.md; R384 to R386, R441, 14).
-/
namespace Sys2Proof.Machine

/-! ### Convocations -/

def Team.convOf (x : Team) (g : Nat) : Option Conv := x.convs.find? fun c => c.members.any fun m => m.gid = g
def Team.conv? (x : Team) (u : Nat) : Option Conv := x.convs.find? fun c => c.uid = u
def Conv.member? (c : Conv) (g : Nat) : Option Member := c.members.find? fun m => m.gid = g
def State.conv? (s : State) (t u : Nat) : Option Conv := (s.team? t).bind fun x => x.conv? u
def State.modConv (s : State) (t u : Nat) (f : Conv → Conv) : State :=
  s.modTeam t fun x => { x with convs := x.convs.map fun c => if c.uid = u then f c else c }
def Conv.modMember (c : Conv) (g : Nat) (f : Member → Member) : Conv :=
  { c with members := c.members.map fun m => if m.gid = g then f m else m }

/-- R318: whether every operation of batch `n` and of the earlier ones has completed; what a break left uncommitted holds none
(R385). -/
def Conv.batchDone (c : Conv) (n : Half) : Bool :=
  if (c.closed - n - 1).toNat < 2 ^ 15 - 1 then !(c.batches.any fun b => (n - b.n).toNat < 2 ^ 15)
  else c.broken && c.batches = [] && c.openOps = []

/-- Whether a convocation may end: every member that remains has dismissed it and nothing is outstanding (R301, R385). -/
def Conv.mayEnd (c : Conv) : Bool :=
  c.formed && (c.members = [] || (c.members.all (·.dis) && c.openOps = [] && c.batches = []))

/-- A split that waits for a batch of the convocation which `which` picks. -/
def Split.onBatch (u : Nat) (which : Half → Bool) (p : Split) : Bool :=
  match p.park with
  | some (.batch u' n _) => u' = u && which n
  | _ => false
def Split.onConv (u : Nat) (p : Split) : Bool :=
  match p.park with
  | some (.batch u' _ _) | some (.dismiss u') => u' = u
  | _ => false

/-- The cause that an operation left for a member arises, in the split that it meets (R366, R406, R441). -/
def State.deliver (s : State) (t u g : Nat) (split : Option Nat) : State :=
  match (s.conv? t u).bind fun c => (c.member? g).bind fun m => m.cause with
  | some l => (s.modConv t u fun c => c.modMember g fun m => { m with cause := none }).raiseLate t g split l
  | none => s

/-- A split of the group that `which` picks, set aside for a handler or not. -/
def Group.firstSplit (h : Group) (which : Split → Bool) : Option Nat :=
  ((h.splits ++ h.saved.getD []).find? which).map fun p => p.id

/-- Splits parked at an mwait whose batch has completed wake (R318), with the effect of R168. -/
def State.wakeBatches (s : State) (t u : Nat) : State :=
  match s.team? t, s.conv? t u with
  | some x, some c =>
    let hs := (s.groups.filter fun h => h.team = t && h.anySplit (Split.onBatch u c.batchDone))
    let flush := hs.any fun h => h.anySplit (Split.onBatch u fun n => c.batchDone n && c.globals.contains n)
    let s1 : State := { s with groups := s.groups.map fun h =>
      if h.team = t then h.unpark (Split.onBatch u c.batchDone) else h }
    hs.foldl (fun s h => s.deliver t u h.gid (h.firstSplit (Split.onBatch u c.batchDone))) (if flush then s1.emptyCaches x.core else s1)
  | _, _ => s

/-- A convocation that may end does: its tag is free, its latches are gone, the waiting splits go on (R301). -/
def State.endConv (s : State) (t u : Nat) : State :=
  match s.conv? t u with
  | some c =>
    if c.mayEnd then
      let s1 := s.modTeam t fun x => { x with convs := x.convs.filter fun c => c.uid ≠ u }
      { s1 with groups := s1.groups.map fun h => if h.team = t then h.unpark (Split.onConv u) else h }
    else s
  | none => s

/-- The convocation becomes broken (R385); `cause` is what its members raise later (R406, R441). -/
def State.breakConv (s : State) (t u : Nat) (cause : Option LateCause) : State :=
  (s.modConv t u fun c => { c with
    broken := true, partials := [],
    members := c.members.map fun m => { m with cause := match m.cause with
      | some l => some l
      | none => cause } }).wakeBatches t u

/-- R385: an exit has ended a lane of a member: it leaves at once, and the convocation is broken. -/
def State.leaveConv (s : State) (t g : Nat) : State :=
  match (s.team? t).bind fun x => x.convOf g with
  | some c =>
    if c.formed then
      ((s.modConv t c.uid fun c => { c with members := c.members.filter fun m => m.gid ≠ g }).breakConv t c.uid none).endConv
        t c.uid
    else s
  | none => s

/-- conv's tag and size (R297). -/
def Here.tag (k : Here) : Nat := bits k.f.c.toNat 3 0
def Here.convSize (k : Here) : Nat := 2 ^ (bits k.f.f.toNat 1 0)

/-- R384: the cases of cause 0x30 that conv meets. -/
def convCause (k : Here) : Option (BitVec 8) :=
  if (k.team.convOf k.grp.gid).isSome ||
      k.team.convs.any (fun c => c.tag = k.tag && (c.formed || c.size ≠ k.convSize)) then some 0x30 else none

def newMember (g dest : Nat) : Member :=
  { gid := g, num := 0, dest := dest, issued := 0, batch := 0, latch := none, cause := none, dis := false }

/-- R298: a group joins; the convocation forms when its last one does. -/
def State.joinConv (s : State) (k : Here) : State :=
  let t := k.team.uid
  let m := newMember k.grp.gid k.f.d.toNat
  let (u, s1) := match k.team.convs.find? fun c => c.tag = k.tag with
    | some c => (c.uid, s.modConv t c.uid fun c => { c with members := c.members ++ [m] })
    | none =>
      let c : Conv := { uid := s.uid, tag := k.tag, size := k.convSize, formed := false, broken := false, members := [m],
                        done := 0, partials := [], openOps := [], openGlobal := false, closed := 0, batches := [],
                        globals := [] }
      (s.uid, s.fresh.modTeam t fun x => { x with convs := x.convs ++ [c] })
  let s2 := s1.modGroup t k.grp.gid fun h => h.modSplit k.sp.id fun p => { p with park := some (.convene k.tag) }
  match s2.conv? t u with
  | none => s2
  | some c =>
    if c.members.length < c.size then s2
    else
      let ms := (c.members.mergeSort fun a b => a.gid ≤ b.gid).mapIdx fun i m => { m with num := i }
      let s3 := s2.modConv t u fun c => { c with formed := true, members := ms }
      ms.foldl (fun s m => s.modGroup t m.gid fun h =>
        (h.setG m.dest (BitVec.ofNat 64 m.num)).unpark fun p => p.park = some (.convene k.tag)) s3

def execConv (i : Long) (s : State) := issueMatched (.conv i) s convCause fun k s1 => .next (s1.joinConv k)

/-! ### Matched instructions -/

/-- The issuing group's convocation and its member. -/
def Here.member (k : Here) : Option (Conv × Member) :=
  (k.team.convOf k.grp.gid).bind fun c => if c.formed then (c.member? k.grp.gid).map fun m => (c, m) else none

/-- R384: the cases of cause 0x30 that a matched instruction meets. -/
def memberCause (op : MatchedOp) (k : Here) : Option (BitVec 8) :=
  match k.member with
  | none => some 0x30
  | some (c, _) => if k.sp.lanes ≠ BitVec.allOnes 32 || (c.broken && op ≠ .dismiss) then some 0x30 else none

/-- The precise causes of a matched instruction or mwait; a cause that an operation left for the member comes before
those of higher code (R360, R441). -/
def matchedCause (k : Here) (l : List (Option (BitVec 8))) : Option (BitVec 8) :=
  match l.foldl lowerCause none, k.member.bind fun e => e.2.cause with
  | some c, some late => if c < late.code then some c else none
  | c, _ => c

/-- What agrees among members, as numbers (R299). -/
def agreeKey (op : MatchedOp) (f : Long) (p : Part) : List Nat :=
  let fields := [f.f.toNat, f.d.toNat, f.c.toNat, f.m.toNat]
  match op with
  | .mma => fields ++ [f.h.toNat, p.vb.toNat]
  | .mmaSp => fields ++ [f.h.toNat, p.vb.toNat] ++ (match p.frag with
      | some a => [hdrFmt a.header, bits a.header.toNat 16 16]
      | none => [])
  | .accZero => fields
  | .accLd | .accAdd => fields ++ [p.va.toNat, p.vb.toNat]
  | .accSt => fields ++ [p.va.toNat, p.vb.toNat, p.vb1.toNat]
  | .commit => []
  | .dismiss => [f.f.toNat]

/-- A member's part joins an operation. -/
def MOp.join (o : MOp) (op : MatchedOp) (f : Long) (p : Part) : MOp :=
  { o with parts := (o.parts ++ [p]).mergeSort fun a b => a.num ≤ b.num,
           agree := o.agree && o.op = op && agreeKey op f p = agreeKey o.op o.fields o.lead }

def MatchedOp.usesEngine : MatchedOp → Bool
  | .commit | .dismiss => false
  | _ => true

/-- Engine time of an operation, every block flag taken as 0 (R315, R316). -/
def MOp.time (o : MOp) : Nat :=
  match o.op with
  | .mma | .mmaSp =>
    engTime o.parts.length o.fields.m.toNat (bits o.fields.c.toNat 3 0) (o.op = .mmaSp) (o.parts.filterMap (·.frag)) fun _ => false
  | .accZero => 2
  | .commit | .dismiss => 0
  | _ => 8 * regionTiles o.kind o.parts.length

/-- The effect of an operation in the step in which its last member issues it: an engine reservation (R316), or a batch
(R317). -/
def State.matched (s : State) (x : Team) (u : Nat) (o : MOp) : State :=
  match o.op with
  | .commit =>
    (s.modConv x.uid u fun c => { c with
      closed := c.closed + 1,
      batches := if c.openOps = [] then c.batches else c.batches ++ [{ n := c.closed, ops := c.openOps }],
      openOps := [], openGlobal := false,
      globals := if c.openGlobal then c.closed :: c.globals.filter (· ≠ c.closed) else c.globals.filter (· ≠ c.closed)
      }).wakeBatches x.uid u
  | .dismiss => s
  | _ =>
    let (lines, missing) := s.accLines x o
    let e : EngineOp := { uid := s.uid, team := x.uid, conv := u, op := { o with places := s.opPlaces x o }, time := o.time,
                          lines := lines, missing := missing, image := [], rows := [], started := false, waiting := false,
                          struck := false }
    let global := (o.op = .accSt || o.op = .accAdd) && !(accInScratch o.fields)
    (s.fresh.modCore x.core fun c => { c with engine := c.engine ++ [e] }).modConv x.uid u fun c =>
      { c with openOps := c.openOps ++ [e.uid], openGlobal := c.openGlobal || global }

/-- The issue of a matched instruction by one member (R299 to R301, R385). -/
def matchedBody (op : MatchedOp) (k : Here) (s : State) (part : Part) (upd : Member → Member) (after : State → State) : Body :=
  match k.member with
  | none => .trap 0x30
  | some (c, m) =>
    let t := k.team.uid
    let g := k.grp.gid
    let count := fun m : Member => { upd m with issued := m.issued + 1 }
    match m.cause with
    | some l => .next (((after (s.modConv t c.uid fun c => c.modMember g fun m => { count m with cause := none })).endConv t
        c.uid).raiseLate t g (some k.sp.id) l)
    | none =>
      let s1 := after (s.modConv t c.uid fun c => c.modMember g count)
      if c.broken then .next (s1.endConv t c.uid)
      else
        let j := m.issued - c.done
        let o := match c.partials[j]? with
          | some o => o.join op k.f part
          | none => { op := op, fields := k.f, parts := [part], agree := true }
        if o.parts.length < c.members.length then
          if c.partials.length ≤ j && 4 ≤ c.partials.length then .wait
          else .next (s1.modConv t c.uid fun c => { c with
            partials := if j < c.partials.length then c.partials.set j o else c.partials ++ [o] })
        else if !o.agree then .breaks (fun s => s.breakConv t c.uid none) 0x31
        else if op.usesEngine && (s.blinded t g || 8 ≤ ((s.core k.team.core).engine.filter fun e => !e.started).length) then .wait
        else
          let s2 := s1.modConv t c.uid fun c => { c with partials := c.partials.drop 1, done := c.done + 1 }
          .next ((s2.matched k.team c.uid o).endConv t c.uid)

/-- A part without operands. -/
def Here.part (k : Here) (s : State) : Part :=
  { gid := k.grp.gid, num := (k.member.map fun e => e.2.num).getD 0, va := 0, vb := 0, vb1 := 0, frag := none, mark := s.uid }

/-- R305: the causes of an accumulator region. -/
def regionCause (k : Here) (kind : Nat) : Option (BitVec 8) :=
  match k.member with
  | none => none
  | some (c, _) =>
    let t := regionTiles kind c.members.length
    if k.f.d.toNat % t ≠ 0 then some 0x02
    else if accTiles k.team.partword < k.f.d.toNat + t then some 0x04 else none

/-! ### mma and mma.sp -/

/-- The issuing member's latch (R306). -/
def Here.latch (k : Here) : Option Latch := k.member.bind fun e => e.2.latch

/-- Lane registers of the issuing group's 32 lanes. -/
def Here.laneRegs (k : Here) (r n : Nat) : List (List Word) :=
  (List.range 32).map fun l => (List.range n).map fun i => k.grp.lreg (r + i) l

/-- The header register of mma.sp (R312), and whether its extent can be taken (R306). -/
def Here.header (k : Here) : DWord := k.grp.greg (k.f.b.toNat + 1)
def extentOk (h : DWord) : Bool := hdrMC h ≠ 3 && 1 ≤ hdrN h && hdrN h ≤ hdrM h

/-- The A registers that mma or mma.sp reads when its latch is empty (R306). -/
def Here.aCount (k : Here) (sparse : Bool) : Nat :=
  if !sparse then denseRegs k.f.m
  else if extentOk k.header then packedRegs k.f.m (hdrN k.header) (hdrMC k.header) else 0

/-- The A operand of an mma or mma.sp (R306). -/
def Here.operandA (k : Here) (sparse : Bool) : Latch :=
  match k.latch with
  | some a => a
  | none => { sparse := sparse, fmt := k.f.m, regs := k.laneRegs k.f.a.toNat (k.aCount sparse),
              header := if sparse then k.header else 0 }

/-- The causes of an mma or mma.sp beside those of its encoding (R305, R306, R373, R386). -/
def State.mmaCause (s : State) (sparse : Bool) (k : Here) : Option (BitVec 8) :=
  let kind := if k.f.m = 0 then 2 else if k.f.c.getLsbD 4 then 1 else 0
  let rs : List Reg := (if sparse then [.g (k.f.b.toNat + 1)] else []) ++
    (List.range (k.aCount sparse)).map fun i => .v (k.f.a.toNat + i)
  let image : Word := (k.grp.greg k.f.b.toNat).setWidth 32
  let latch := match k.latch with
    | some a => if a.sparse ≠ sparse || a.fmt ≠ k.f.m then some 0x32 else none
    | none =>
      lowerCause (if k.aCount sparse ≠ 0 && k.grp.budget < k.f.a.toNat + k.aCount sparse then some 0x04 else none)
        (lowerCause (if lookaheadFails k.grp k.sp rs then some 0x05 else none)
          (if sparse && !(extentOk k.header && (k.operandA true).wellFormed) then some 0x33 else none))
  let held : Bool := match s.scrPlace k.team image (imageBytes (bits k.f.c.toNat 3 0)) with
    | some (t, _) => (s.team? t).any fun y => y.core = k.team.core
    | none => false
  matchedCause k [memberCause (if sparse then .mmaSp else .mma) k, regionCause k kind, latch,
    if image.toNat % 16 ≠ 0 then some 0x10 else none, if !held then some 0x11 else none]

/-- R306, R312: one member's issue of an mma or mma.sp. -/
def mmaBody (sparse : Bool) (k : Here) (s : State) : Body :=
  let a := k.operandA sparse
  matchedBody (if sparse then .mmaSp else .mma) k s { k.part s with vb := k.grp.greg k.f.b.toNat, frag := some a }
    (fun m => { m with latch := if k.f.h = 1 then some a else none }) id

def execMma (i : Long) (s : State) := issueMatched (.mma i) s (s.mmaCause false) (mmaBody false)
def execMmaSp (i : Long) (s : State) := issueMatched (.mmaSp i) s (s.mmaCause true) (mmaBody true)

/-! ### acc -/

/-- The causes of acc beside those of its encoding (R305, R319, R373, R441). -/
def State.accCause (s : State) (op : MatchedOp) (k : Here) : Option (BitVec 8) :=
  let kind := bits k.f.m.toNat 1 0
  let va := k.grp.greg k.f.a.toNat
  let vb := k.grp.greg k.f.b.toNat
  let vb1 := k.grp.greg (k.f.b.toNat + 1)
  let fmt := accMemFmt k.f
  let n := accRowBytes fmt
  let rows := match k.member with
    | some (c, _) => 16 * c.members.length
    | none => 1
  let badRow (r : Nat) : Bool :=
    let a := accRowVa k.f va vb r
    if accInScratch k.f then match s.scrPlace k.team (a.setWidth 32) n with
      | some (t, _) => op = .accLd && !((s.team? t).any fun y => y.core = k.team.core)
      | none => true
    else !canonical a || !canonical (a + BitVec.ofNat 64 (n - 1))
  let stride := accStride vb
  let addr := if op = .accZero then [] else
    [if (accRowVa k.f va vb 0).toNat % accAlign fmt ≠ 0 || (op = .accSt && vb1.toNat % 4 ≠ 0) then some 0x10 else none,
     if (List.range rows).any badRow || (op = .accSt && !canonical vb1) then some 0x11 else none,
     if bits vb.toNat 47 40 ≠ 0 || stride < n || stride % accAlign fmt ≠ 0 then some 0x19 else none]
  matchedCause k ([memberCause op k, regionCause k kind] ++ addr)

/-- One member's issue of acc. -/
def accBody (op : MatchedOp) (k : Here) (s : State) : Body :=
  let z := op = .accZero
  matchedBody op k s
    { k.part s with va := if z then 0 else k.grp.greg k.f.a.toNat, vb := if z then 0 else k.grp.greg k.f.b.toNat,
                    vb1 := if op = .accSt then k.grp.greg (k.f.b.toNat + 1) else 0 } id id

def execAccZero (i : Long) (s : State) := issueMatched (.accZero i) s (s.accCause .accZero) (accBody .accZero)
def execAccLd (i : Long) (s : State) := issueMatched (.accLd i) s (s.accCause .accLd) (accBody .accLd)
def execAccSt (i : Long) (s : State) := issueMatched (.accSt i) s (s.accCause .accSt) (accBody .accSt)
def execAccAdd (i : Long) (s : State) := issueMatched (.accAdd i) s (s.accCause .accAdd) (accBody .accAdd)

/-! ### Batches and dismissal -/

def execMcommit (i : Short) (s : State) :=
  issueMatched (.mcommit i) s (fun k => matchedCause k [memberCause .commit k]) fun k s1 =>
    matchedBody .commit k s1 (k.part s1) (fun m => { m with batch := m.batch + 1 }) fun s =>
      s.modGroup k.team.uid k.grp.gid fun h =>
        h.setG k.f.d.toNat (((k.member.map fun (e : Conv × Member) => e.2.batch).getD 0).setWidth 64)

/-- conv.dis: the issuing split waits until the convocation ends (R301). -/
def execConvDis (i : Long) (s : State) :=
  issueMatched (.convDis i) s (fun k => matchedCause k [memberCause .dismiss k]) fun k s1 =>
    matchedBody .dismiss k s1 (k.part s1) (fun m => { m with dis := true }) fun s =>
      s.modGroup k.team.uid k.grp.gid fun h => h.modSplit k.sp.id fun p =>
        { p with park := (k.member.map fun (e : Conv × Member) => Park.dismiss e.1.uid) }

/-- The batch number mwait reads, and how far back it lies from the member's next (R318). -/
def Here.waitBatch (k : Here) : Half := (k.grp.greg k.f.a.toNat).setWidth 16
def Here.batchGap (k : Here) : Option Half := k.member.map fun (e : Conv × Member) => e.2.batch - k.waitBatch

def mwaitCause (k : Here) : Option (BitVec 8) :=
  matchedCause k [if k.member.isNone then some 0x30 else none, if k.batchGap = some 0 then some 0x34 else none]

/-- R318, with the acquire of R168; a cause that an operation left is held while a handler runs (R369). -/
def execMwait (i : Short) (s : State) :=
  issueWith (.mwait i) s mwaitCause fun k s1 =>
    match k.member with
    | none => .trap 0x30
    | some (c, m) =>
      match m.cause with
      | some _ => .next (s1.deliver k.team.uid c.uid k.grp.gid (some k.sp.id))
      | none =>
        if 2 ^ 15 ≤ (m.batch - k.waitBatch).toNat || c.batchDone k.waitBatch then
          .next (if c.globals.contains k.waitBatch then s1.emptyCaches k.team.core else s1)
        else .next (s1.fresh.modGroup k.team.uid k.grp.gid fun h => h.modSplit k.sp.id fun p =>
          { p with park := some (.batch c.uid k.waitBatch s1.uid) })

/-! ### prune -/

/-- The causes of prune beside those of its encoding (R373, R384). -/
def pruneCause (k : Here) : Option (BitVec 8) :=
  lowerCause (if k.sp.lanes ≠ BitVec.allOnes 32 then some 0x30 else none)
    (if pruneArgsOk k.f.m (bits k.f.c.toNat 4 0) (k.f.c.extractLsb' 5 2) then none else some 0x19)

/-- R311: the packed registers and the header. -/
def pruneGroup (t : Bool) (k : Here) (h : Group) : Group :=
  let (regs, hdr) := pruneFrag t k.f.m (bits k.f.c.toNat 4 0) (k.f.c.extractLsb' 5 2)
    (k.laneRegs k.f.a.toNat (denseRegs k.f.m))
  (regs.zipIdx.foldl (fun h l => l.1.zipIdx.foldl (fun h w => h.setLreg (k.f.d.toNat + w.2) l.2 w.1) h) h).setG
    k.f.b.toNat hdr

def execPrune (i : Long) (s : State) :=
  issueWith (.prune i) s pruneCause fun k s1 => .next (s1.modGroup k.team.uid k.grp.gid (pruneGroup false k))
def execPruneT (i : Long) (s : State) :=
  issueWith (.pruneT i) s pruneCause fun k s1 => .next (s1.modGroup k.team.uid k.grp.gid (pruneGroup true k))

/-! ### Engine operations -/

def EngineOp.key (o : EngineOp) : Nat × Nat := (0, o.uid)

def State.modOp (s : State) (core op : Nat) (f : EngineOp → EngineOp) : State :=
  s.modCore core fun c => { c with engine := c.engine.map fun o => if o.uid = op then f o else o }

/-- Whether a member's earlier accesses that an operation waits for are performed: those to the core's SRAM pool (R168), or
for a global address all at cluster scope (R321). -/
def State.partReady (s : State) (x : Team) (global : Bool) (p : Part) : Bool :=
  match s.group? x.uid p.gid with
  | none => true
  | some h =>
    if global then s.completeAt h p.mark 7
    else !s.earlierOwn x.core h p.mark && h.queue.all fun e => p.mark ≤ e.uid || !(s.onCore x.core e.loc)

def State.opReady (s : State) (x : Team) (o : MOp) : Bool :=
  match o.op with
  | .mma | .mmaSp => o.parts.all (s.partReady x false)
  | .accLd => o.parts.all (s.partReady x (!(accInScratch o.fields)))
  | .accSt | .accAdd => accInScratch o.fields || o.parts.all (s.partReady x true)
  | _ => true

/-- An operation has started; its lines are its own no longer once it has written them. -/
def State.runOp (s : State) (core : Nat) (o : EngineOp) (f : EngineOp → EngineOp) : State :=
  s.modOp core o.uid fun o => f { o with started := true, lines := [], missing := [] }

/-- An operation ends without effect and breaks its convocation (R406, R441). -/
def State.failOp (s : State) (core : Nat) (o : EngineOp) (c : LateCause) : State :=
  ((s.takeAnswers o.key).runOp core o fun o => { o with waiting := false }).breakConv
    o.team o.conv (some c)

/-- An operation's access that cannot be made now (R344, R376, R441). -/
def State.opStops (s : State) (core : Nat) (x : Team) (o : EngineOp) (g : Got) : State :=
  match g with
  | .fail c => s.failOp core o c
  | .replay va why =>
    let grid := ((s.grid? x.grid).map fun y => y.gridId).getD 0
    (s.modOp core o.uid fun o => { o with waiting := true }).faultRecord x.ctx va (if o.op.op = .accLd then 0 else 1)
      why.toNat grid x.teamId (.engine core o.uid why va)
  | _ => s.sendAsk (s.job x.ctx) o.key g

/-- The elements that acc.ld reads, row by row (R320). A team selector has been resolved when the operation was issued. -/
def State.accLoads (s : State) (x : Team) (o : EngineOp) : List Nat → Except Got (List (List Nat))
  | [] => .ok []
  | r :: rs =>
    let fmt := accMemFmt o.op.fields
    let va := o.op.rowVa r
    let got := if accInScratch o.op.fields then match o.op.place r with
        | some (t, off) => s.readTile va t off (accRowBytes fmt)
        | none => .fail (plainCause 0x11 va)
      else s.readSpan x.ctx o.key va (accRowBytes fmt)
    match got with
    | .bytes b => match s.accLoads x o rs with
      | .ok l => .ok ((elemsOf (accWidth fmt) 32 b).map (accLoadElem o.op.kind fmt) :: l)
      | .error g => .error g
    | g => .error g

/-- The word that takes the saturation count of acc.st (R320). -/
def State.satPlace (s : State) (x : Team) (o : MOp) : Except Got (Option Loc) :=
  if o.op ≠ .accSt || o.lead.vb1 = 0 then .ok none else (s.countPlace x.ctx o.lead.vb1).map some

/-- An operation reads its B image or the rows of acc.ld, or makes the writes of acc.st or acc.add (R168, R313, R320). The operations
of an engine start one by one, each once the one before it has completed (assumption log 7), so that what a break of the convocation
finds outstanding has changed no accumulator (R385). -/
def State.beginOp (s : State) (core : Nat) (x : Team) (o : EngineOp) : State :=
  let m := o.op
  match m.op with
  | .commit | .dismiss | .accZero => s.runOp core o id
  | .mma | .mmaSp => match m.place 0 with
    | none => s.failOp core o (plainCause 0x11 m.lead.vb)
    | some (t, off) => match s.readTile m.lead.vb t off (imageBytes (bits m.fields.c.toNat 3 0)) with
      | .bytes b => s.runOp core o fun o => { o with image := b }
      | g => s.opStops core x o g
  | .accLd => match s.accLoads x o (List.range m.rows) with
    | .error g => s.opStops core x o g
    | .ok l =>
      let spans := if accInScratch m.fields then [] else
        (List.range m.rows).map fun r => (m.rowVa r, accRowBytes (accMemFmt m.fields))
      ((s.takeAnswers o.key).rekeySpans x.ctx spans).runOp core o fun o => { o with rows := l }
  | .accSt | .accAdd => match s.accPlan x m, s.satPlace x m with
    | .error g, _ | _, .error g => s.opStops core x o g
    | .ok (ps, sats), .ok sat =>
      let s1 := ((s.runOp core o id).putAll (s.job x.ctx) o.key ps).2
      match sat with
      | some l => (s1.addCount (s.job x.ctx) o.key m.lead.vb1 l sats).2
      | none => s1

/-- What an operation makes of the accumulator words of its team (R313, R320). -/
def EngineOp.apply (o : EngineOp) (a : SMap 32) : SMap 32 :=
  let m := o.op
  match m.op with
  | .accZero => regionMap a m.kind m.tile m.rows fun _ _ _ => 0
  | .mma | .mmaSp => mmaRegion a m.kind m.tile (modeOf (bits m.fields.f.toNat 1 0)) m.fields.m.toNat (bits m.fields.c.toNat 3 0)
      (m.parts.filterMap (·.frag)) o.image
  | .accLd => regionMap a m.kind m.tile m.rows fun r n _ => (o.rows.getD r []).getD n 0
  | .accSt | .accAdd | .commit | .dismiss => a

/-- The accumulators take the effect of an operation that completes, unless its convocation is broken (R385). -/
def State.finishOp (s : State) (o : EngineOp) : State :=
  if (s.conv? o.team o.conv).any fun c => !c.broken then s.modTeam o.team fun x => { x with acc := o.apply x.acc } else s

/-- MATRIX_OP_START (R314 to R316, R321): the first reservation of a core that has not started. -/
def execMatrixOpStart (core : Nat) (s : State) : Host.Outcome State Fault Refusal :=
  match (s.core core).engine.find? fun o => !o.started with
  | none => .next s
  | some o =>
    if (s.core core).engine.any fun e => e.started then .next s
    else match s.team? o.team, s.conv? o.team o.conv with
    | some x, some c =>
      if o.waiting then .next s
      else if c.broken then .next (s.runOp core o id)
      else if !s.opReady x o.op then .next s
      else if o.struck then .next (s.failOp core o (s.registerCause x))
      else .next (s.beginOp core x o)
    | _, _ => .next (s.runOp core o id)

/-- Whether requests of an agent are outstanding. -/
def State.keyBusy (s : State) (key : Nat × Nat) : Bool :=
  s.fabric.requests.any fun r => match r.use with
    | .read k _ | .write k _ => k = key
    | _ => false

/-- MATRIX_OP_COMPLETE (R316, R318): an operation whose accesses are all performed, in its convocation's order. -/
def execMatrixOpComplete (core op : Nat) (s : State) : Host.Outcome State Fault Refusal :=
  match (s.core core).engine.find? fun o => o.uid = op with
  | none => .next s
  | some o =>
    let earlier := (s.core core).engine.takeWhile fun e => e.uid ≠ op
    if !o.started || s.keyBusy o.key || earlier.any fun e => e.team = o.team && e.conv = o.conv then .next s
    else
      let s1 := ((s.finishOp o).takeAnswers o.key).modCore core fun c => { c with engine := c.engine.filter fun e => e.uid ≠ op }
      .next ((s1.modConv o.team o.conv fun c => { c with
        openOps := c.openOps.filter (· ≠ op),
        batches := (c.batches.map fun b => { b with ops := b.ops.filter (· ≠ op) }).filter fun b => b.ops ≠ []
        }).wakeBatches o.team o.conv)

/-- CONVOCATION_END (R301, R385): a dismissed convocation whose operations have completed. -/
def execConvocationEnd (team : Nat) (tag : BitVec 4) (s : State) : Host.Outcome State Fault Refusal :=
  match (s.team? team).bind fun x => x.convs.find? fun c => c.tag = tag.toNat with
  | some c => .next (s.endConv team c.uid)
  | none => .next s

end Sys2Proof.Machine
end

