-- ==== Sys2Proof/Machine/Control.lean ====
section
/-!
DEFINITION. Control flow (R228 to R236, 07_isa_group_integer.md), the division and merging of splits (R73 to R79) and
the return of weights (R96, 03_execution.md).
-/
namespace Sys2Proof.Machine

/-! ### Splits -/

/-- The lookahead windows of a split end (R79). -/
def Group.closeWindows (h : Group) (p : Nat) : Group :=
  { h with results := h.results.map fun r => if r.owners.contains p then { r with window := 0 } else r }

/-- SPLITIDs that are free. -/
def Group.freeIds (h : Group) : List Nat := (List.range 4).filter fun i => !(h.splits.any fun p => p.id = i)

/-- The union of the masks of some targets. -/
def targetLanes (l : List (DWord × LaneMask)) : LaneMask := l.foldl (fun m t => m ||| t.2) 0

/-- DIVERGE of R74: `ts` the targets in order with their lanes; `back` where pending lanes of a brx or ret restart, none
for br. None: no room on the mask stack. -/
def Group.diverge (h : Group) (p : Split) (back : Option DWord) (ts : List (DWord × LaneMask)) : Option Group :=
  match ts with
  | [] => some h
  | t1 :: others =>
    let ids := h.freeIds
    let made := List.zipWith (fun i (t : DWord × LaneMask) =>
      ({ id := i, pc := t.1, lanes := t.2, stack := [], held := none, park := none } : Split)) ids others
    let rest := others.drop ids.length
    let fork := made ≠ [] && p.stack ≠ []
    if 8 < p.stack.length + (if rest = [] then 0 else 1) + (if fork then 1 else 0) then none
    else
      let s1 : List MaskEntry := if fork then { fork := true, pending := 0, ppc := 0, arrived := 0, target := none } :: p.stack
        else p.stack
      let s2 := match rest with
        | [] => s1
        | t :: _ => { fork := false, pending := targetLanes rest, ppc := back.getD t.1, arrived := 0, target := none } :: s1
      let h1 := (h.closeWindows p.id).modSplit p.id fun q => { q with lanes := t1.2, pc := t1.1, stack := s2 }
      some { h1 with
        splits := h1.splits ++ made,
        results := h1.results.map fun r =>
          if r.owners.contains p.id then { r with owners := r.owners ++ made.map (·.id) } else r }

/-- The cascade of R75 from entries `stack`: lanes gathered, entries left, whether a FORK was popped. -/
def joinCascade (t : DWord) : List MaskEntry → LaneMask → Bool → LaneMask × List MaskEntry × Bool
  | [], m, h => (m, [], h)
  | e :: l, m, h =>
    if e.fork then joinCascade t l m true
    else if e.pending = 0 && (e.target = some t || e.arrived = 0) then joinCascade t l (m ||| e.arrived) h
    else (m, e :: l, h)

/-- JOIN of R75 on one split; the flag says that it is held. -/
def Split.join (p : Split) (target : DWord) : Split × Bool :=
  match p.stack with
  | [] => ({ p with pc := target }, true)
  | e :: l =>
    if e.fork then ({ p with stack := l, pc := target }, true)
    else if e.pending ≠ 0 then
      let e' := { e with target := some (e.target.getD target), arrived := e.arrived ||| p.lanes, pending := 0 }
      ({ p with stack := e' :: l, lanes := e.pending, pc := e.ppc }, false)
    else
      let t := e.target.getD target
      let (m, rest, held) := joinCascade t l (p.lanes ||| e.arrived) false
      ({ p with stack := rest, lanes := m, pc := t }, held)

/-- RESUME of R76 on the mask stack of a split with no active lanes; none: the split ends. -/
def Split.resume (p : Split) : List MaskEntry → Option Split
  | [] => none
  | e :: l =>
    if e.fork then p.resume l
    else if e.pending ≠ 0 then some { p with stack := { e with pending := 0 } :: l, lanes := e.pending, pc := e.ppc }
    else if e.arrived ≠ 0 then some { p with stack := l, lanes := e.arrived, pc := e.target.getD p.pc }
    else p.resume l

/-- A split has ended: its SPLITID is free. -/
def Group.dropSplit (h : Group) (p : Nat) : Group :=
  { h with splits := h.splits.filter fun q => q.id ≠ p,
           results := h.results.map fun r => { r with owners := r.owners.filter (· ≠ p) } }

/-- The merge of some splits into one (R78). -/
def Group.absorb (h : Group) (keep : Split) (others : List Split) : Group :=
  let all := keep :: others
  let ids := others.map (·.id)
  let held := if all.all fun q => q.held.isSome then some ((all.filterMap (·.held)).foldl min (keep.held.getD 0)) else none
  let name (i : Nat) : Nat := if ids.contains i then keep.id else i
  let h1 : Group := { h with
    splits := (h.splits.filter fun q => !(ids.contains q.id)).map fun q =>
      if q.id = keep.id then { q with lanes := others.foldl (fun m o => m ||| o.lanes) q.lanes, held := held } else q,
    results := h.results.map fun r => { r with owners := (r.owners.map name).eraseDups },
    raised := h.raised.map fun r => { r with split := r.split.map name },
    raisers := h.raisers.map name,
    struck := h.struck.map name }
  h1.closeWindows keep.id

/-- The merge of the splits that stand at one address (R78). -/
def Group.mergeAt (h : Group) (pc : DWord) : Group :=
  let ss := (h.splits.filter fun q => q.pc = pc && q.park = none).mergeSort fun a b => a.id ≤ b.id
  let full := ss.filter fun q => q.stack ≠ []
  match full, ss with
  | [], k :: o :: l => h.absorb k (o :: l)
  | k :: _, _ =>
    let others := ss.filter fun q => q.stack = []
    if others = [] then h else h.absorb k others
  | _, _ => h

/-- Every merge due in a group (R78). -/
def Group.mergeAll (h : Group) : Group := (h.splits.map (·.pc)).eraseDups.foldl Group.mergeAt h

/-- Whether a merge is due. -/
def Group.mergeDue (h : Group) : Bool := h.splits.any fun p => h.splits.any (mergesWith p)

def Split.onBarrier (p : Split) : Bool :=
  match p.park with
  | some (.barrier _ _ _ _ _) => true
  | _ => false

/-- The release test of R77, its first condition. -/
def Group.releaseDue (h : Group) : Bool :=
  h.splits.any (·.held.isSome) && h.splits.all fun p => p.held.isSome || p.onBarrier

def Group.releaseHeld (h : Group) : Group :=
  if h.releaseDue then
    let low := ((h.splits.filter (·.held.isSome)).map (·.pc.toNat)).foldl min (2 ^ 64)
    { h with splits := h.splits.map fun p => if p.pc.toNat = low then { p with held := none } else p }
  else h

/-- SPLIT_MERGE (R77, R78): the merges due at the top of a cycle, and the release test that follows them. -/
def execSplitMerge (t g : Nat) (s : State) : Host.Outcome State Fault Refusal :=
  .next (s.modGroup t g fun h => h.mergeAll.releaseHeld)

/-- HOLD_TIMEOUT (R77): 1,024 cycles have passed since the split became held. -/
def execHoldTimeout (t g p : Nat) (s : State) : Host.Outcome State Fault Refusal :=
  .next (s.modGroup t g fun h => h.modSplit p fun q => match q.held with
    | some c => if 1024 ≤ s.cycle - c then { q with held := none } else q
    | none => q)

/-! ### Branches -/

/-- The relative target of R228. -/
def Here.target (k : Here) (imm : Word) : DWord := k.sp.pc + imm.signExtend 64

/-- A target that is misaligned or not canonical (R228). -/
def badTarget (t : DWord) : Bool := t.toNat % 4 ≠ 0 || !canonical t

/-- The lane condition of br and exit (R229). -/
def Here.condLanes (k : Here) : LaneMask :=
  if !k.f.f.getLsbD 0 then k.sp.lanes
  else k.sp.lanes &&& (if k.f.f.getLsbD 1 then ~~~(k.grp.pmask (k.f.a.toNat % 8)) else k.grp.pmask (k.f.a.toNat % 8))

/-- The split continues at an address. -/
def State.jump (s : State) (k : Here) (t : DWord) : State :=
  s.modGroup k.team.uid k.grp.gid fun h => h.modSplit k.sp.id fun p => { p with pc := t }

/-- The split divides, or the branch traps for want of room (R74) or, room being there, for a bad target (R228, R360). -/
def State.divide (s : State) (k : Here) (back : Option DWord) (ts : List (DWord × LaneMask)) : Body :=
  match (s.group? k.team.uid k.grp.gid).bind fun h => h.diverge k.sp back ts with
  | some h => if ts.any fun t => badTarget t.1 then .trap 0x07 else .next (s.modGroup k.team.uid k.grp.gid fun _ => h)
  | none => .trap 0x06

/-- R230. -/
def execBr (i : Imm) (s : State) :=
  issue (.br i) s fun k s1 =>
    let t := k.target i.imm
    let f := k.sp.pc + 8
    let taken := k.condLanes
    let rest := k.sp.lanes &&& ~~~taken
    if rest ≠ 0 && taken ≠ 0 && t ≠ f then s1.divide k none [(t, taken), (f, rest)]
    else if badTarget t then .trap 0x07
    else .next (s1.jump k (if rest = 0 then t else f))

/-- R231. -/
def execCall (i : Imm) (s : State) :=
  issue (.call i) s fun k s1 =>
    let t := k.target i.imm
    if badTarget t then .trap 0x07
    else .next ((s1.jump k t).modGroup k.team.uid k.grp.gid fun h =>
      h.setLanes k.f.d.toNat 2 k.sp.lanes fun _ => k.sp.pc + 8)

/-- The distinct targets of the active lanes in ascending order, with their lanes (R232). -/
def Here.targets (k : Here) : List (DWord × LaneMask) :=
  let at_ (l : Nat) : DWord := k.grp.lpair k.f.a.toNat l
  let ts := (((laneList k.sp.lanes).map at_).eraseDups).mergeSort fun a b => a ≤ b
  ts.map fun t => (t, maskOf fun l => k.sp.lanes.getLsbD l && at_ l = t)

/-- The one effect of brx and ret (R232). -/
def indirect (k : Here) (s : State) : Body :=
  let ts := k.targets
  match ts with
  | [t] => if badTarget t.1 then .trap 0x07 else .next (s.jump k t.1)
  | _ => s.divide k (some k.sp.pc) ts

def execBrx (i : Short) (s : State) := issue (.brx i) s indirect
def execRet (i : Short) (s : State) := issue (.ret i) s indirect

/-- R233, R75: the release test follows at once when no merge comes first. -/
def execJoin (i : Imm) (s : State) :=
  issue (.join i) s fun k s1 =>
    let t := k.target i.imm
    if badTarget t then .trap 0x07
    else
      let (p, held) := k.sp.join t
      let p' : Split := if held then { p with held := some s1.cycle } else p
      .next (s1.modGroup k.team.uid k.grp.gid fun h =>
        let h1 := (h.closeWindows p.id).modSplit p.id fun _ => p'
        if h1.mergeDue then h1 else h1.releaseHeld)

/-- R235. -/
def execTrap (i : Short) (s : State) := issue (.trap i) s fun _ _ => .trap 0x41

/-! ### Weights -/

/-- The key of a group's return of weights to a peer's root word. -/
def weightKey (k : Here) : Nat × Nat := (k.team.uid + 1, k.grp.gid + 2 ^ 16)

/-- The lanes whose weight is not zero, and their weights become zero. -/
def Here.weighted (k : Here) (m : LaneMask) : List Nat := (laneList m).filter fun l => SMap.get k.grp.weight l ≠ 0
def Group.clearWeights (h : Group) (l : List Nat) : Group :=
  { h with weight := l.foldl (fun w i => SMap.set w i 0) h.weight }

/-- A cause that a weight return meets is precise: the weight stays (R96). -/
def preciseLate (k : Here) (key : Nat × Nat) (c : LateCause) : Body :=
  .breaks (fun s => (s.takeAnswers key).consumed k.team.uid c) c.code

/-- The atomic adds of some lanes' weights at one place, in the order of the lanes (R96, R151). -/
def State.addWeights (s : State) (k : Here) (l : Loc) (lanes : List Nat) : State :=
  lanes.foldl (fun s i => (s.atomicAt k.team.core l .add .n64 (SMap.get k.grp.weight i) 0).2)
    (s.modGroup k.team.uid k.grp.gid fun h => h.touch l 8)

/-- R96: the weights of some lanes return to the root word by atomic adds with release at device scope. They are performed
when the instruction issues, once the release lets them: a cause that they meet is precise. An add at a peer, or with the
host link down, is answered before the instruction issues. -/
def State.returnWeights (s : State) (k : Here) (m : LaneMask) : Except Body State :=
  let ls := k.weighted m
  let root := ((s.grid? k.team.grid).map fun g => g.root).getD 0
  let key := weightKey k
  let clear (s : State) : State := s.modGroup k.team.uid k.grp.gid fun h => h.clearWeights ls
  if ls = [] then .ok s
  else match s.probes k true .write 8 (atomTarget .add .n64) (ls.map fun l => (l, 8, root)) with
    | .error (.late _ c) => .error (preciseLate k key c)
    | .error b => .error b
    | .ok sites => match sites with
      | [] => .ok s
      | e :: _ =>
        if s.locPoisoned e.loc 8 then .error (preciseLate k key (s.poisonAt e.va e.loc))
        else if s.accessWaits k e.loc 8 || !s.released k 8 then .error .wait
        else if s.isRemote e.loc then
          match s.answerFor key root e.loc.dev with
            | .bytes _ => .ok (clear (s.takeAnswers key))
            | .fail c => .error (preciseLate k key c)
            | .none =>
              let sum := ls.foldl (fun a l => a + SMap.get k.grp.weight l) 0
              .error (.hold fun s =>
                if s.fabric.requests.any fun r => r.use = .read key root then s
                else s.sendRequest e.loc.dev (s.job k.team.ctx) e.loc.addr (.atomic .add .n64 sum 0) (.read key root))
        else .ok (clear ((s.noteSites k true sites).addWeights k e.loc ls))

/-- R293. -/
def execDone (i : Short) (s : State) :=
  issue (.done i) s fun k s1 => match s1.returnWeights k k.mask with
    | .ok s2 => .next s2
    | .error b => b

/-- Lanes of the issuing split end, and the split goes on as R76 states. -/
def Group.endLanes (h : Group) (p : Split) (m : LaneMask) : Group :=
  if m = 0 then h
  else
    let h1 := h.closeWindows p.id
    if p.lanes &&& ~~~m ≠ 0 then h1.modSplit p.id fun q => { q with lanes := p.lanes &&& ~~~m }
    else match p.resume p.stack with
      | some q => h1.modSplit p.id fun _ => q
      | none => h1.dropSplit p.id

/-- A launched team has ended when all its groups have (R76, R87). -/
def State.noteEnd (s : State) (t : Nat) : State :=
  if (s.groups.filter fun h => h.team = t).all Group.isOver then
    s.modTeam t fun x => if x.spawn then x else { x with ended := true }
  else s

/-- R234: in handler mode exit returns no weight (R369); otherwise an exit that ends lanes of a member breaks its
convocation (R385). -/
def execExit (i : Short) (s : State) :=
  issue (.exit i) s fun k s1 =>
    let m := k.condLanes
    let fin (s : State) : State := s.modGroup k.team.uid k.grp.gid fun h => h.endLanes k.sp m
    if k.grp.inHandler || m = 0 then .next (fin s1)
    else match s1.returnWeights k m with
      | .error b => b
      | .ok s2 => .next ((fin (s2.leaveConv k.team.uid k.grp.gid)).noteEnd k.team.uid)

end Sys2Proof.Machine
end

