-- ==== Sys2Proof/Machine/Packets.lean ====
section
/-!
DEFINITION. What travels over the fabric beside R323's requests: the header and payload of vendor-defined packets (R326 to R328,
11_fabric_host.md), and the responses of this device (R413, R415, 15_memory_fabric_failures.md).
-/
namespace Sys2Proof.Machine

/-! ### Headers -/

/-- A field of a header dword: its value at its lowest bit. -/
def fieldAt (w lo x : Nat) : DWord := BitVec.ofNat 64 (x % 2 ^ w * 2 ^ lo)

/-- V0 and V1 of R326 from their fields. -/
def headerV0 (commId seq chunk kind dtype : Nat) : DWord :=
  fieldAt 16 48 commId ||| fieldAt 16 32 seq ||| fieldAt 24 8 chunk ||| fieldAt 4 4 kind ||| fieldAt 4 0 dtype
def headerV1 (fromRank stepNo xw bytes : Nat) : DWord :=
  fieldAt 10 54 fromRank ||| fieldAt 10 44 stepNo ||| fieldAt 2 42 xw ||| fieldAt 32 0 bytes

/-- The header of a chunk packet of a kind (R326, R327). -/
def chunkV0 (kind : Nat) (c : Chunk) : DWord := headerV0 c.commId.toNat c.seq.toNat c.chunk.toNat kind c.dtype.toNat
def chunkV1 (c : Chunk) : DWord := headerV1 c.fromRank.toNat c.stepNo.toNat c.xw.toNat c.payload.length

/-- KIND of a header, and the chunk packet that a header, a payload and what the fabric adds to them make. -/
def kindOf (v0 : DWord) : Nat := bits v0.toNat 7 4
def chunkOfHeader (v0 v1 : DWord) (source : BitVec 10) (tag : Nat) (job : Half) (poison : Bool) (payload : List Byte) : Chunk :=
  { source := source, tag := tag, job := job, commId := v0.extractLsb' 48 16, seq := v0.extractLsb' 32 16,
    chunk := v0.extractLsb' 8 24, dtype := v0.extractLsb' 0 4, fromRank := v1.extractLsb' 54 10, stepNo := v1.extractLsb' 44 10,
    xw := v1.extractLsb' 42 2, poison := poison, payload := payload.take (bits v1.toNat 31 0) }

/-- DTYPE (R333) of an atomic's type, as a coll packet carries it; bits are unsigned words (assumption log 60). -/
def collDtype (ty : AtomTy) : Nat :=
  match ty with
  | .f64 => 0
  | .f32 => 1
  | .i32 => 4
  | .n32 | .b32 => 5
  | .i64 => 6
  | .n64 | .b64 => 7

/-- The header of a coll packet (R326): JOB, the CTL byte and the form in SEQ's place, DEVICEID, the region's low 32 bits. -/
def collV0 (kind : Nat) (job : Half) (ctl : BitVec 8) (form : BitVec 2) : DWord :=
  headerV0 job.toNat (form.toNat * 256 + ctl.toNat) 0 kind (collDtype (atomTyOf (ctlType ctl)))
def collV1 (device : BitVec 10) (base : Nat) : DWord := headerV1 device.toNat 0 0 base

/-- The payload of a coll packet (R326, R328): bits [56:32] of the region, the lane mask, an offset byte for each lane, and the
data of those lanes, which a get does not have. -/
def collPayload (form : BitVec 2) (size base : Nat) (parts : List LanePart) : List Byte :=
  leBytes 4 (bits base 56 32) ++ leBytes 4 (parts.foldl (fun m p => m + 2 ^ p.lane) 0) ++
    parts.flatMap (fun p => leBytes 1 p.offset) ++ (if form = 1 then [] else parts.flatMap fun p => leBytes size p.data.toNat)

/-- KIND of a coll form (R327). -/
def collKind (form : BitVec 2) : Nat := if form = 0 then 8 else if form = 1 then 9 else 11

/-- The two header dwords and the payload of a vendor-defined packet that leaves this device (R326). -/
def State.wire (s : State) (o : Outgoing) : Option (DWord × DWord × List Byte) :=
  match o with
  | .chunk _ kind c => some (chunkV0 kind c, chunkV1 c, c.payload)
  | .request r => match r.ask with
    | .coll ctl form parts => some (collV0 (collKind form) r.job ctl form, collV1 s.fabric.deviceId r.addr,
        collPayload form (atomSize (atomTyOf (ctlType ctl))) r.addr parts)
    | .read _ | .write _ | .masked _ | .atomic _ _ _ _ => none
  | .getResponse p data => some (collV0 10 p.job p.ctl 1, collV1 s.fabric.deviceId p.base.toNat,
      leBytes 4 (bits p.base.toNat 56 32) ++ data.flatMap fun d => leBytes 8 d.toNat)
  | .response _ _ _ => none

/-! ### Responses -/

/-- The response kept for a request that has been completed (R413). -/
def State.kept? (s : State) (source tag : Nat) : Option Response :=
  (s.fabric.answered.find? fun e => e.1 = source && e.2.1 = tag).map fun e => e.2.2

/-- A response is kept, among the last 4,096 of its source (R413). -/
def State.keepResponse (s : State) (source tag : Nat) (r : Response) : State :=
  let other := s.fabric.answered.filter fun e => e.1 ≠ source
  let same := (s.fabric.answered.filter fun e => e.1 = source).take 4095
  { s with fabric := { s.fabric with answered := (source, tag, r) :: same ++ other } }

/-- A response leaves; `get` gives the coll.get that it answers. -/
def State.respond (s : State) (get : Option CollPacket) (source tag : Nat) (r : Response) : State :=
  let out : Outgoing := match get, r with
    | some p, .data b => .getResponse p (dwordsOf b)
    | _, _ => .response source tag r
  { s with fabric := { s.fabric with outbox := s.fabric.outbox ++ [out] } }

/-- A completed request: its response is kept and leaves. -/
def State.complete (s : State) (get : Option CollPacket) (source tag : Nat) (r : Response) : State :=
  (s.keepResponse source tag r).respond get source tag r

/-- R415: a failure response, with its FAIL record. -/
def State.refuse (s : State) (source tag : Nat) : State :=
  let ps := s.portsTo source
  (s.report 5 0x06 (ps.getD (s.freeAt 11 source % ps.length) 0) 0 source s.openAddr).complete none source tag .failure

end Sys2Proof.Machine
end

