-- ==== Sys2Proof/Machine/Gather.lean ====
section
/-!
DEFINITION. gath, dinv, pub and spawn (R137, R138, R140, R289 to R292; R94 for the spawn collector).
-/
namespace Sys2Proof.Machine

/-! ### Reads that may be remote -/

/-- The key of a group's gather reads of peers. -/
def gatherKey (k : Here) : Nat × Nat := (k.team.uid + 1, k.grp.gid + 2 ^ 17)

/-- `n` bytes at an address, cut at lines; the first number bounds the pieces. -/
def linePieces : Nat → DWord → Nat → List (DWord × Nat)
  | 0, _, _ => []
  | k + 1, va, n =>
    if n = 0 then []
    else
      let m := min n (128 - va.toNat % 128)
      (va, m) :: linePieces k (va + BitVec.ofNat 64 m) (n - m)

def piecesOf (va : DWord) (n : Nat) : List (DWord × Nat) := linePieces (n / 128 + 2) va n

/-- What a group's reads of some places wait for or end with: an answer to ask for, a failure that came back, or
nothing. -/
def State.remoteReads (s : State) (k : Here) (l : List Site) : Option Body :=
  let far := l.filter fun e => s.isRemote e.loc
  match far.findSome? fun e => match s.answerFor (gatherKey k) e.va e.loc.dev with
    | .fail c => some c
    | _ => none with
  | some c => some (.late (s.takeAnswers (gatherKey k)) c)
  | none =>
    let open_ := far.filter fun e => s.answerFor (gatherKey k) e.va e.loc.dev = .none
    if open_ = [] then none
    else some (.hold fun s => open_.foldl (fun s e =>
      s.askFor (gatherKey k) e.va e.loc.dev (s.job k.team.ctx) e.loc.addr e.n) s)

/-- The bytes at a place: an answer, or those at the point of coherence. -/
def State.gatherServe (s : State) (k : Here) (e : Site) : List Byte :=
  if s.isRemote e.loc then match s.answerFor (gatherKey k) e.va e.loc.dev with
    | .bytes b => b
    | _ => []
  else s.peek e.loc e.n

/-! ### gath -/

/-- The descriptor cache serves an entry it holds (R138). -/
def State.descCached (s : State) (k : Here) (va : DWord) : Option (List DWord) :=
  ((s.core k.team.core).descs.find? fun e => e.ctx = k.team.ctx && e.va = va).map fun e => e.dwords

/-- The cache keeps a descriptor; of its 32 entries one is replaced when none is free (R138, assumption log 8). -/
def State.keepDesc (s : State) (k : Here) (va : DWord) (d : List DWord) : State :=
  s.modCore k.team.core fun c =>
    let l := c.descs.filter fun e => !(e.ctx = k.team.ctx && e.va = va)
    { c with descs := { ctx := k.team.ctx, grid := k.team.grid, va := va, dwords := d } ::
        (if l.length < 32 then l else l.eraseIdx (s.freeAt 8 va.toNat % l.length)) }

/-- The descriptor at gA with the state after reading it, or what gath ends with instead (R289, R373, R374). -/
def State.gatherDesc (s : State) (k : Here) : Except Body (List DWord × State) :=
  let va := k.grp.greg k.f.a.toNat
  if va.toNat % 64 ≠ 0 then .error (.trap 0x10)
  else match s.descCached k va with
    | some d => .ok (d, s)
    | none => match s.probes k true .read 64 (fun _ => none) [(0, 64, va)] with
      | .error b => .error b
      | .ok sites =>
        if s.sitesWait k sites then .error .wait
        else match s.performUpTo k.team k.grp.gid (fun q => sites.any fun e => q.loc.meets q.size e.loc e.n) (s.queueOf k) with
          | none => .error .wait
          | some s1 => match sites.find? fun e => s1.locPoisoned e.loc e.n with
            | some e => .error (.late s1 (s1.poisonAt e.va e.loc))
            | none => match s1.remoteReads k sites with
              | some b => .error b
              | none =>
                let d := dwordsOf ((sites.map (s1.gatherServe k)).flatten)
                .ok (d, (((s1.takeAnswers (gatherKey k)).noteSites k true sites).rekeySpans k.team.ctx [(va, 64)]).keepDesc k va d)

/-- Coordinates of a lane, those above DIMSM1 taken as 0, and whether they lie outside the tensor (R289). -/
def Here.coords (k : Here) (d : Desc) (lane : Nat) : Nat × Nat × Nat :=
  let at_ (i : Nat) : Nat := if i ≤ d.dimsM1 then (k.grp.lreg (k.f.b.toNat + i) lane).toNat else 0
  (at_ 0, at_ 1, at_ 2)
def Desc.outside (d : Desc) (c : Nat × Nat × Nat) : Bool := d.sizes.1 ≤ c.1 || d.sizes.2.1 ≤ c.2.1 || d.sizes.2.2 ≤ c.2.2

/-- The reads of one lane: its block and scale byte, or its element (R127, R137). -/
def Here.gatherReads (k : Here) (d : Desc) (lane : Nat) : List (Nat × Nat × DWord) :=
  let c := k.coords d lane
  if d.outside c then []
  else
    let l := if fmtMx d.fmt then piecesOf (d.blockVa (c.1 / 32) c.2.1 c.2.2) (4 * fmtWidth d.fmt) ++
        [(d.scaleVa (c.1 / 32) c.2.1 c.2.2, 1)]
      else piecesOf (d.elemVa c.1 c.2.1 c.2.2) (fmtWidth d.fmt / 8)
    l.map fun p => (lane, p.2, p.1)

/-- R289: a lane's result and flag from its coordinates and the bytes of its reads. -/
def gatherValue (two : Bool) (d : Desc) (c : Nat × Nat × Nat) (b : List Byte) : DWord × Bool :=
  let D := if two then f64 else f32
  if d.outside c then (0, false)
  else if fmtMx d.fmt then
    let w := fmtWidth d.fmt
    let F := fmtOf d.fmt
    let codes := elemsOf w 32 (b.take (4 * w))
    let sc := leNat (b.drop (4 * w))
    (BitVec.ofNat 64 (D.code (dequant F D .ne sc (codes.getD (c.1 % 32) 0))),
     sc = 0xFF || codes.any fun x => (F.value x).nonFinite)
  else if 11 ≤ d.fmt then (BitVec.ofNat 64 (leNat b), false)
  else
    let x := (fmtOf d.fmt).value (leNat b)
    (BitVec.ofNat 64 (D.roundCode .ne x), x.nonFinite)

/-- GATHER of R289: the descriptor is read at the issue, the elements by LONG_LATENCY_RESULT (R170). -/
def gatherBody (k : Here) (s : State) : Body :=
  let lanes := laneList k.mask
  let two := k.f.f.getLsbD 0
  let dests := predReg .p k.f.c ++ k.dests (if two then 2 else 1)
  if lanes = [] then .next (s.fresh.addResult k s.uid dests [] [] none)
  else match s.gatherDesc k with
    | .error b => b
    | .ok (dw, s1) =>
      let d := descOf dw
      if d.rsv || d.fmt = 15 || d.dimsM1 = 3 || (d.fmt = 14 && !two) then .trap 0x19
      else match s1.probes k true .read 1 (fun _ => none) (lanes.flatMap (k.gatherReads d)) with
        | .error b => b
        | .ok sites => .next ((s1.noteSites k true sites).addAccesses k dests
            (.gathered two (k.f.c.toNat % 8) k.f.d.toNat dw (lanes.map fun l => (l, k.coords d l))) none none
            (pendsOf sites fun _ => if k.f.h = 1 then .fresh else .gather))

def execGath (i : Long) (s : State) := issue (.gath i) s gatherBody

/-- Descriptors that groups of a core have asked peers for are forgotten, as entries of its descriptor cache are (R138). -/
def State.dropDescReads (s : State) (core ctx : Nat) (which : DWord → Bool) : State :=
  let hit (key : Nat × Nat) (va : DWord) : Bool := 2 ^ 17 ≤ key.2 && which va &&
    s.teams.any fun x => x.uid + 1 = key.1 && x.core = core && x.ctx = ctx
  { s with fabric := { s.fabric with
      requests := s.fabric.requests.filter fun r => match r.use with
        | .read key va => !(hit key va)
        | _ => true,
      fetched := s.fabric.fetched.filter fun e => !(hit e.1 e.2.1) } }

/-- Entries of a core's descriptor cache are dropped (R138). -/
def State.dropDescs (s : State) (core ctx : Nat) (which : DWord → Bool) : State :=
  (s.dropDescReads core ctx which).modCore core fun c => { c with
    descs := c.descs.filter fun e => !(e.ctx = ctx && which e.va) }

/-- R290. -/
def execDinv (i : Long) (s : State) :=
  issue (.dinv i) s fun k s1 =>
    let va := k.grp.greg k.f.a.toNat
    if va.toNat % 64 ≠ 0 then .trap 0x10
    else .next (s1.dropDescs k.team.core k.team.ctx fun a => a = va)

def execDinvAll (i : Long) (s : State) :=
  issue (.dinvAll i) s fun k s1 => .next (s1.dropDescs k.team.core k.team.ctx fun _ => true)

/-! ### pub -/

/-- The window writes of a team's groups that have not reached the host: those in store queues, and those that wait for a host
link that was down (R140, R418). Writes of copies and engine operations in flight are none of them (assumption log 57). -/
def State.teamWindowWrites (s : State) (t : Nat) : List Nat :=
  ((s.groups.filter fun h => h.team = t).flatMap fun h => (h.queue.filter fun e => e.loc.isWindow).map fun e => e.uid) ++
  s.fabric.requests.filterMap fun r => match r.use with
    | .store t' _ _ e true _ _ => if t' = t then some e else none
    | _ => none

/-- R291, R140, R418: the FetchAdd goes out once the covered writes have been sent; with the link down, or a covered write
lost, there is none. DESIGN CHOICE: g0 as D, whose write is discarded (R181), is a destination of the window all the same
(R188, assumption log 75). -/
def pubBody (k : Here) (s : State) : Body :=
  let va := k.grp.greg k.f.a.toNat
  match s.probes k true .write 8 (fun l => match l with
    | .host _ => none
    | _ => some 0x18) [(0, 8, va)] with
  | .error b => b
  | .ok [] => .wait
  | .ok (e :: _) =>
    if s.sitesWait k [e] then .wait
    else if !s.host.linkUp || k.team.lostWrites then .late s (failCause va none 0 false)
    else
      let id := s.uid
      let a : FetchAdd := { id := id, va := va, pa := e.loc.addr, covers := s.teamWindowWrites k.team.uid, team := k.team.uid,
                            grp := k.grp.gid, result := id, stream := none }
      let s1 := s.noteSites k true [e]
      .next (({ s1.fresh with host := { s1.host with fetchAdds := s1.host.fetchAdds ++ [a] } } : State).addResult k id
        [.g k.f.d.toNat] [] [id] none)

def execPub (i : Long) (s : State) := issue (.pub i) s pubBody

/-! ### spawn -/

/-- R373: the entry's translation, as a fetch: 0x22 for what a fetch would call a fault. -/
def State.entryProbes (s : State) (k : Here) (l : List DWord) : Option Body :=
  let ps := l.map fun e => (e, if e.toNat % 4 ≠ 0 then Probe.cause 0x22 else s.probe k.team.ctx e .fetch)
  if ps.any fun p => p.2 = .held then some .wait
  else if ps.any fun p => match p.2 with
    | .cause _ => true
    | _ => false then some (.trap 0x22)
  else ps.findSome? fun p => match p.2 with
    | .replay _ => some (.replay (ps.filterMap fun q => match q.2 with
        | .replay w => some (q.1, w)
        | _ => none) 2 0x22)
    | .poison pa => some (.late s (poisonCause p.1 pa))
    | _ => none

/-- Whether the collector of a core takes an item (R94): 1,024 items, 8 forming groups. -/
def State.collects (s : State) (core grid : Nat) (entry : DWord) : Bool :=
  let fs := (s.core core).forming
  (fs.foldl (fun n f => n + f.items.length) 0) < 1024 &&
    (fs.any (fun f => f.grid = grid && f.entry = entry) || fs.length < 8)

/-- An item joins its entry's forming group, one for each grid (R94, R95, assumption log 63). -/
def State.collect (s : State) (core grid : Nat) (entry : DWord) (it : Item) : State :=
  s.modCore core fun c =>
    if c.forming.any fun f => f.grid = grid && f.entry = entry then
      { c with forming := c.forming.map fun f =>
          if f.grid = grid && f.entry = entry then { f with items := f.items ++ [it] } else f }
    else { c with forming := c.forming ++ [{ grid := grid, entry := entry, items := [it] }] }

/-- Whether items of the issuing group's grid are accepted at all (R292, R388). -/
def State.spawnOpen (s : State) (k : Here) : Bool :=
  (match s.grid? k.team.grid with
    | some g => g.root ≠ 0 && bits g.l1.toNat 41 37 ≠ 0
    | none => false) &&
  (match s.ctx? k.team.ctx with
    | some c => c.phase = .active
    | none => false)

/-- The offers of the participating lanes in ascending order (R292): the lanes accepted, and the state after. -/
def State.offers (s : State) (k : Here) (entry : Nat → DWord) : List Nat → LaneMask × State
  | [] => (0, s)
  | l :: ls =>
    let w := SMap.get k.grp.weight l
    if s.spawnOpen k && 2 ≤ w.toNat && s.collects k.team.core k.team.grid (entry l) then
      let half := w >>> 1
      let it : Item := { entry := entry l, w0 := (k.srcB 1 l).setWidth 32, w1 := (k.srcC 1 l).setWidth 32, weight := half,
                         team := k.team.uid, grp := k.grp.gid, mark := s.uid, since := s.cycle }
      let s1 := (s.collect k.team.core k.team.grid (entry l) it).modGroup k.team.uid k.grp.gid fun h =>
        { h with weight := SMap.set h.weight l (w - half) }
      let (m, s2) := s1.offers k entry ls
      (m ||| BitVec.twoPow 32 l, s2)
    else s.offers k entry ls

/-- R292, R94. -/
def execSpawn (i : Long) (s : State) :=
  issue (.spawn i) s fun k s1 =>
    let entry (l : Nat) : DWord := k.srcA 2 l
    let lanes := laneList k.mask
    match s1.entryProbes k (lanes.map entry) with
    | some b => b
    | none =>
      let (m, s2) := s1.offers k entry lanes
      .next (s2.modGroup k.team.uid k.grp.gid fun h => h.setPred k.f.d.toNat k.mask fun l => m.getLsbD l)

end Sys2Proof.Machine
end

