-- ==== Sys2Proof/Machine/Commands.lean ====
section
/-!
DEFINITION. The commands of a stream (R81 to R85, R93, R440, 03_execution.md; R345, 11; R387, 14): checks, waiting, and
effects, as its command processor executes them.
-/
namespace Sys2Proof.Machine

/-! ### The life of a command -/

/-- The key of a command processor's writes to peers. -/
def streamWriteKey (n : Nat) : Nat × Nat := (0, 2 ^ 64 + 64 + n)

/-- The command processor has done with the answers it was given. -/
def State.dropAnswers (s : State) (n : Nat) : State := (s.takeAnswers (streamKey n)).takeAnswers (streamWriteKey n)

/-- Whether the stream's context has been asked to drain (R388). -/
def State.draining (s : State) (n : Nat) : Bool := s.ctxs.any fun c => c.id = (s.stream n).ctx && c.phase ≠ .active

/-- R388, R390: the stream of a draining context stops at its next command and is noted for the save area. -/
def State.haltStream (s : State) (n : Nat) : State :=
  let x := s.stream n
  ((s.dropAnswers n).modCtx x.ctx fun c => { c with stopped := c.stopped ++ [(n, x.pc)] }).stopStream n 0 0 x.pc

/-- A command has completed (R81, R82): the stream goes on at `pc`, or stops there if its context drains (R388); IRQ
raises the stream's vector. -/
def State.advance (s : State) (n : Nat) (pc : DWord) (irq : Bool) : State :=
  let s1 := (s.dropAnswers n).modStream n fun x => { x with pc := pc, wait := .none }
  let s2 := if irq then s1.raiseMsix n else s1
  if s2.draining n then s2.haltStream n else s2

/-- R82: every earlier launch and host copy of the stream has completed. -/
def State.streamQuiet (s : State) (n : Nat) : Bool :=
  let x := s.stream n
  !(s.grids.any fun g => g.stream = n && g.gen = x.gen) && !(x.copies.any fun c => c.gen = x.gen)

/-- What a command ends with: it completes and the stream goes on at the next command or at a target; it has not
completed, in the state given; a stream error (R387). -/
inductive CmdEnd
  | done (s : State)
  | jump (s : State) (target : DWord)
  | stay (s : State)
  | stop (err : BitVec 8)

/-- R82, R83, R440, R387: the checks of a command and the wait of its WAIT bit, then its effect. `used` says which of C1
to C3 it has, `align` the addresses that are aligned and to what, `waits` that it waits whatever its WAIT bit. -/
def issueCommand (c : Command) (used : Bool × Bool × Bool) (align : List (DWord × Nat)) (rsv waits : Bool) (s : State)
    (effect : Nat → Stream → CmdEnd) : Host.Outcome State Fault Refusal :=
  match s.issuer with
  | .stream n =>
    let x := s.stream n
    if !x.running || x.wait ≠ .none then .next s
    else if c.arg1 ≠ 0 || c.rsv ≠ 0 || rsv || (!used.1 && c.c1 ≠ 0) || (!used.2.1 && c.c2 ≠ 0) || (!used.2.2 && c.c3 ≠ 0) then
      .next ((s.dropAnswers n).stopStream n 2 0 x.pc)
    else if align.any fun a => a.1.toNat % a.2 ≠ 0 then .next ((s.dropAnswers n).stopStream n 4 0 x.pc)
    else if (waits || c.wait) && !s.streamQuiet n then .next (if s.draining n then s.haltStream n else s)
    else match effect n x with
      | .done s1 => .next (s1.advance n (x.pc + 32) c.irq)
      | .jump s1 t => .next (s1.advance n t c.irq)
      | .stay s1 => .next s1
      | .stop e => .next ((s.dropAnswers n).stopStream n e 0 x.pc)
  | _ => .fault .noIssuer

/-- R387: a reserved OPC or SUB is stream error 1. -/
def execReservedCommand (_ : Command) (s : State) : Host.Outcome State Fault Refusal :=
  match s.issuer with
  | .stream n =>
    let x := s.stream n
    if !x.running || x.wait ≠ .none then .next s else .next ((s.dropAnswers n).stopStream n 1 0 x.pc)
  | _ => .fault .noIssuer

/-! ### Memory as a command processor sees it -/

/-- The bytes that a command processor reads, with the state after the read, or the state after what happened instead. -/
def State.cpBytes (s : State) (n : Nat) (va : DWord) (k : Nat) (grid : Word) : Except State (List Byte × State) :=
  match s.cpRead n va k with
  | .bytes b => .ok (b, s.rekeySpans (s.stream n).ctx [(va, k)])
  | r => .error (s.cpFails n va 0 grid r)

/-- A dword operand (R83). -/
def State.cpDword (s : State) (n : Nat) (va : DWord) (grid : Word) : Except State (DWord × State) :=
  match s.cpBytes n va 8 grid with
  | .ok (b, s1) => .ok (BitVec.ofNat 64 (leNat b), s1)
  | .error s1 => .error s1

/-- The line of this device's memory that a command processor's write touches (R121, R155). -/
def State.touchStream (s : State) (n : Nat) (l : Loc) : State :=
  match l with
  | .mem pa _ _ => s.modStream n fun x => { x with touched := insertNat (pa / 128) x.touched }
  | .peer _ _ | .remote _ _ | .host _ | .window _ | .scr _ _ => s

/-- R121, R155: a release of a command processor at system scope takes its earlier writes to the protected point. -/
def State.protectStream (s : State) (n : Nat) : State :=
  (s.writeBackLines ((s.stream n).touched.filter fun l => s.storage.dirty.contains l)).modStream n fun x => { x with touched := [] }

/-- A command processor's write or atomic at its place: the state after it, or the state in which it has not been
performed. A peer answers before the command goes on. -/
def State.cpPut (s : State) (n : Nat) (va : DWord) (ask : OutAsk) (grid : Word) : Except State State :=
  let x := s.stream n
  let fails (r : FetchRes) : Except State State := .error (s.cpFails n va 1 grid r)
  match s.probe x.ctx va .write with
  | .poison a => fails (.late (poisonCause va a))
  | .cause c => fails (.cause c)
  | .replay why => fails (.replay why)
  | .held => .error s
  | .ok loc =>
    let bad := match ask with
      | .atomic op ty _ _ => atomTarget op ty loc
      | _ => none
    match bad with
    | some c => fails (.cause c)
    | none =>
      if s.locHeld loc 8 then .error s
      else if s.hostDown loc then fails (.remote none 0 0)
      else match loc, ask with
        | .peer d pa, _ | .remote d pa, _ => match s.answerFor (streamWriteKey n) va (some d) with
          | .bytes _ => .ok s
          | .fail c => fails (.late c)
          | .none =>
            let use : ReqUse := .read (streamWriteKey n) va
            .error (if s.fabric.requests.any fun r => r.use = use then s else s.sendRequest (some d) (s.job x.ctx) pa ask use)
        | _, .write b => .ok ((s.placeBytes loc b).touchStream n loc)
        | _, .atomic op ty b _ =>
          if s.locPoisoned loc (atomSize ty) then fails (.late (s.poisonAt va loc))
          else
            let old := leNat (s.peek loc (atomSize ty))
            match atomNew op ty old (b.toNat % 2 ^ (8 * atomSize ty)) 0 with
            | some v => .ok ((s.placeBytes loc (leBytes (atomSize ty) v)).touchStream n loc)
            | none => .ok s
        | _, _ => .ok s

/-- The CMP sub-codes of R83. -/
def cmpHolds (cmp : BitVec 3) (w v : DWord) : Bool :=
  match cmp.toNat with
  | 0 => w = v
  | 1 => w ≠ v
  | 2 => w < v
  | 3 => v ≤ w
  | _ => true

/-! ### Commands -/

def execNopCommand (c : Command) (s : State) := issueCommand c (false, false, false) [] false false s fun _ _ => .done s

/-- R83: LOOP's counter is written with a plain store. -/
def execLoop (c : Command) (s : State) :=
  issueCommand c (true, true, false) [(c.c1, 8), (c.c2, 32)] false false s fun n _ =>
    match s.cpDword n c.c1 0xFFFFFFFF with
    | .error s1 => .stay s1
    | .ok (w, s0) =>
      if w = 0 then .done s0
      else match s0.cpPut n c.c1 (.write (leBytes 8 (w - 1).toNat)) 0xFFFFFFFF with
        | .ok s1 => .jump s1 c.c2
        | .error s1 => .stay s1

def execBranch (c : Command) (s : State) :=
  issueCommand c (true, true, true) ((if c.sub = 4 then [] else [(c.c1, 8)]) ++ [(c.c3, 32)]) false false s fun n _ =>
    if c.sub = 4 then .jump s c.c3
    else match s.cpDword n c.c1 0xFFFFFFFF with
      | .error s1 => .stay s1
      | .ok (w, s1) => if cmpHolds c.sub w c.c2 then .jump s1 c.c3 else .done s1

/-- WAITPH (R83): the stream waits, and WAITPH_POLL reads the dword again. -/
def execWaitph (c : Command) (s : State) :=
  issueCommand c (true, true, true) [(c.c1, 8)] false false s fun n _ =>
    match s.cpDword n c.c1 0xFFFFFFFF with
    | .error s1 => .stay s1
    | .ok (w, s1) =>
      if cmpHolds c.sub (w &&& c.c3) c.c2 then .done s1
      else if s1.draining n then .stay (s1.haltStream n)
      else .stay ((s1.dropAnswers n).modStream n fun x => { x with wait := .phase c.c1 c.c2 c.c3 c.sub c.irq })

def execWaitphPoll (n : Nat) (s : State) : Host.Outcome State Fault Refusal :=
  let x := s.stream n
  match x.running, x.wait with
  | true, .phase va v m cmp irq => match s.cpDword n va 0xFFFFFFFF with
    | .error s1 => .next s1
    | .ok (w, s1) => .next (if cmpHolds cmp (w &&& m) v then s1.advance n (x.pc + 32) irq else s1.dropAnswers n)
  | _, _ => .next s

/-- R83: SIGNAL waits as WAIT does; the store or add is a release at system scope. -/
def execSignal (c : Command) (s : State) :=
  issueCommand c (true, true, false) [(c.c1, 8)] false true s fun n _ =>
    let ask : OutAsk := if c.sub = 0 then .write (leBytes 8 c.c2.toNat) else .atomic .add .n64 c.c2 0
    match (s.protectStream n).cpPut n c.c1 ask 0xFFFFFFFF with
    | .ok s1 => .done s1
    | .error s1 => .stay s1

/-- R83, R140, R440: the FetchAdd of a publication; the stream goes on when it has returned. -/
def execPublish (c : Command) (s : State) :=
  issueCommand c (true, false, false) [(c.c1, 8)] false true s fun n x =>
    match s.probe x.ctx c.c1 .write with
    | .replay why => .stay (s.cpFails n c.c1 1 0xFFFFFFFF (.replay why))
    | .held => .stay s
    | .poison a => .stay (s.cpFails n c.c1 1 0xFFFFFFFF (.late (poisonCause c.c1 a)))
    | .ok (.host pa) =>
      if !s.host.linkUp || x.lostWrites then .stop 5
      else
        let a : FetchAdd := { id := s.uid, va := c.c1, pa := pa, covers := [], team := 0, grp := 0, result := 0, stream := some n }
        .stay ({ s.fresh with host := { s.host with fetchAdds := s.host.fetchAdds ++ [a] } } |>.modStream n fun x =>
          { x with wait := .publish s.uid c.irq })
    | _ => .stop 5

/-- All dirty lines are written back (R121). -/
def State.writeBackAll (s : State) : State := s.writeBackLines s.storage.dirty

/-- R83: the launches and copies are complete; what they wrote goes to the protected point. -/
def execFenceCommand (c : Command) (s : State) :=
  issueCommand c (false, false, false) [] false true s fun _ _ => .done s.writeBackAll

/-- R51, R83. -/
def execSeed (c : Command) (s : State) :=
  issueCommand c (true, false, false) [] false false s fun _ x =>
    .done (s.modCtx x.ctx fun y => { y with srseed := c.c1 })

/-- R83, R438: the stream stops with no error. -/
def execStop (c : Command) (s : State) := issueCommand c (false, false, false) [] false false s fun _ _ => .stop 0

/-! ### Host copies -/

/-- R83: HCOPY starts; it runs beside the commands that follow (assumption log 23). -/
def execHcopy (c : Command) (s : State) :=
  issueCommand c (true, true, true) [] (bits c.c3.toNat 63 40 ≠ 0) false s fun n x =>
    let h : HostCopy := { ctx := x.ctx, pc := x.pc, toHost := c.sub = 1, src := c.c1, dst := c.c2, count := bits c.c3.toNat 39 0, irq := c.irq,
                          gen := x.gen, stalled := false }
    .stay ((s.modStream n fun x => { x with copies := x.copies ++ [h] }).advance n (x.pc + 32) false)

/-- The LOC of an address's page (R108), while it has a translation. -/
def State.pageLocOf (s : State) (ctx : Nat) (va : DWord) : Option Nat :=
  match s.ctx? ctx with
  | none => none
  | some c => match s.translate c va with
    | .leaf e _ => if canonical va then some (pteLoc e) else none
    | _ => none

/-- One address in each 4 KiB page of a range. -/
def pageStarts (va : DWord) (n : Nat) : List DWord :=
  if n = 0 then []
  else (List.range ((va.toNat % 4096 + n - 1) / 4096 + 1)).map fun i =>
    if i = 0 then va else BitVec.ofNat 64 (va.toNat / 4096 * 4096) + BitVec.ofNat 64 (4096 * i)

/-- R440: a piece of a host copy lies on a page of the wrong kind. -/
def State.hostCopyWrong (s : State) (c : HostCopy) : Bool :=
  let bad (host : Bool) (va : DWord) : Bool := match s.pageLocOf c.ctx va with
    | some l => if host then l < 2 else l ≠ 0
    | none => false
  (pageStarts c.src c.count).any (bad (!c.toHost)) || (pageStarts c.dst c.count).any (bad c.toHost)

/-- A host copy has ended. -/
def State.dropHostCopy (s : State) (n i : Nat) : State := s.modStream n fun x => { x with copies := x.copies.eraseIdx i }

/-- A host copy fails (R418, R440): the stream stops if it still runs. -/
def State.failHostCopy (s : State) (n i : Nat) (c : HostCopy) : State :=
  let s1 := s.dropHostCopy n i
  let x := s1.stream n
  if x.running && x.gen = c.gen then (s1.dropAnswers n).stopStream n 5 0 c.pc else s1

/-- What keeps a host copy from being made. -/
def State.hostCopyStops (s : State) (n i : Nat) (c : HostCopy) (kind : Nat) (g : Got) : State :=
  match g with
  | .replay va why =>
    (s.modStream n fun x => { x with copies := x.copies.set i { c with stalled := true } }).faultRecord c.ctx va kind
      why.toNat 0xFFFFFFFF 0xFFFFFFFF (.hostCopy n c.pc)
  | .fail l => (if l.code = 0x16 || l.code = 0x17 then s.consumedBy c.ctx l else s).failHostCopy n i c
  | .ask _ _ _ _ | .held | .bytes _ => s

/-- HCOPY_COMPLETE (R83, R345): the oldest host copy of the stream is made and is visible at system scope. -/
def execHcopyComplete (n : Nat) (s : State) : Host.Outcome State Fault Refusal :=
  match (s.stream n).copies.zipIdx.find? fun e => !e.1.stalled with
  | none => .next s
  | some (c, i) =>
    if s.hostCopyWrong c || !s.host.linkUp then .next (s.failHostCopy n i c)
    else match s.readSpan c.ctx (streamKey n) c.src c.count with
      | .bytes b => match s.putPlan c.ctx c.dst b with
        | .ok ps =>
          let s1 := (((s.rekeySpans c.ctx [(c.src, c.count)]).putAll (s.job c.ctx) (streamKey n) ps).2.dropHostCopy n i)
          let s2 := if c.toHost then s1 else
            s1.writeBackLines (s1.storage.dirty.filter fun l => ps.any fun p => (linesOf p.loc.addr p.bytes.length).contains l)
          .next (if c.irq then s2.raiseMsix n else s2)
        | .error g => .next (s.hostCopyStops n i c 1 g)
      | g => .next (s.hostCopyStops n i c 0 g)

/-- R394: host copies of a context that is reset: each 128-byte unit is written whole or not at all. -/
def State.settleHostCopies (s : State) (ctx : Nat) : State :=
  (List.range 64).foldl (fun s' n =>
    let l := (s.stream n).copies
    let s1 := l.zipIdx.foldl (fun s' e =>
      if e.1.ctx ≠ ctx || s.hostCopyWrong e.1 then s'
      else match s.readSpan ctx (streamKey n) e.1.src e.1.count with
        | .bytes b => match s.putPlan ctx e.1.dst b with
          | .ok ps => s.settleUnits (2 ^ 64 + Nat.pair n e.2) s' (ps.flatMap PutPiece.cut)
          | .error _ => s'
        | _ => s') s'
    s1.modStream n fun x => { x with copies := l.filter fun c => c.ctx ≠ ctx }) s

/-! ### Launches -/

/-- The fields of a launch record (R84). -/
structure Launch where
  gang : Nat
  prio : Nat
  bprod : Nat
  bcons : Nat
  nprod : Nat
  ncons : Nat
  teams : Nat
  spmax : Nat
  bspawn : Nat
  partword : Word

def launchOf (l0 l1 : DWord) (teams : Nat) : Launch :=
  { gang := bits l0.toNat 59 56, prio := bits l0.toNat 55 54, bprod := 8 * (bits l0.toNat 53 49 + 1),
    bcons := 8 * (bits l0.toNat 48 44 + 1), nprod := bits l0.toNat 43 38, ncons := bits l0.toNat 37 32, teams := teams,
    spmax := bits l1.toNat 41 37, bspawn := 8 * (bits l1.toNat 36 32 + 1), partword := l1.setWidth 32 }

def Grid.launch (g : Grid) : Launch := launchOf g.l0 g.l1 g.teams

/-- R72: the register file units hold the budgets, and the units fit the pool; R71's ranges. -/
def Launch.partOk (l : Launch) : Bool :=
  let rfu := bits l.partword.toNat 6 0
  let scru := bits l.partword.toNat 14 8
  let accu := bits l.partword.toNat 19 16
  1 ≤ rfu && accu ≤ 8 && (l.nprod * l.bprod + l.ncons * l.bcons) * 128 ≤ rfu * 16384 && rfu + scru + accu ≤ 64

/-- R387: errors 2 and 3 of a launch record. -/
def launchErr (d : List DWord) (teams : Nat) : Option (BitVec 8) :=
  let w (i : Nat) : DWord := d.getD i 0
  let l := launchOf (w 0) (w 1) teams
  if bits (w 0).toNat 63 60 ≠ 0 || bits (w 1).toNat 63 42 ≠ 0 || w 6 ≠ 0 || w 7 ≠ 0 || l.partword &&& 0xFFF08080 ≠ 0 then some 2
  else if !l.partOk || 32 < l.nprod + l.ncons || l.ncons = 0 || 8 < l.gang || (2 ≤ l.gang && teams % l.gang ≠ 0) ||
      16 < l.spmax || (w 2).toNat % 4 ≠ 0 || (l.nprod ≠ 0 && (w 3).toNat % 4 ≠ 0) || (w 5).toNat % 8 ≠ 0 then some 3
  else none

/-- ceil(log2 n) for n of at least 1 and at most 2^62. -/
def clog2 (n : Nat) : Nat := ((List.range 63).find? fun k => n ≤ 2 ^ k).getD 62

/-- The lanes launched, W0, and what the command processor adds to the root word (R93). -/
def Launch.lanes (l : Launch) : Nat := l.teams * (l.nprod + l.ncons) * 32
def Launch.w0 (l : Launch) : Nat := if l.lanes = 0 then 0 else 2 ^ (62 - clog2 l.lanes)

/-- R84, R85, R93: the record is read and checked, the root word is added to, and the grid is handed over. `teamsVa` is
LAUNCHI's dword. -/
def launchBody (s : State) (c : Command) (teamsVa : Option DWord) (n : Nat) (x : Stream) : CmdEnd :=
  let gid : Word := ((s.ctx? x.ctx).map fun y => y.gridCount).getD 0
  match s.cpBytes n c.c1 64 gid with
  | .error s1 => .stay s1
  | .ok (b, s0) =>
    let d := dwordsOf b
    let w (i : Nat) : DWord := d.getD i 0
    let count : Except State (Nat × State) := match teamsVa with
      | none => .ok (bits (w 0).toNat 31 0, s0)
      | some va => match s0.cpDword n va gid with
        | .ok (t, s1) => .ok (bits t.toNat 31 0, s1)
        | .error s1 => .error s1
    match count with
    | .error s1 => .stay s1
    | .ok (teams, s) => match launchErr d teams with
      | some e => .stop e
      | none =>
        let l := launchOf (w 0) (w 1) teams
        let put : Except State State :=
          if w 5 = 0 then .ok s
          else s.cpPut n (w 5) (.atomic .add .n64 (BitVec.ofNat 64 (2 ^ 63 - l.lanes * l.w0)) 0) gid
        match put with
        | .error s1 => .stay s1
        | .ok s1 =>
          let g : Grid := { uid := s1.uid, ctx := x.ctx, stream := n, gen := x.gen, gridId := gid, addr := c.c1, l0 := w 0,
                            l1 := w 1, centry := w 2, pentry := w 3, argp := w 4, root := w 5, teams := teams,
                            seed := ((s.ctx? x.ctx).map fun y => y.srseed).getD 0, w0 := BitVec.ofNat 64 l.w0, next := 0,
                            restored := [] }
          let s2 := s1.modCtx x.ctx fun y => { y with gridCount := y.gridCount + 1 }
          .done (if teams = 0 then s2 else { s2.fresh with grids := s2.grids ++ [g] })

def execLaunch (c : Command) (s : State) :=
  issueCommand c (true, false, false) [(c.c1, 64)] false false s (launchBody s c none)
def execLaunchi (c : Command) (s : State) :=
  issueCommand c (true, true, false) [(c.c1, 64), (c.c2, 8)] false false s (launchBody s c (some c.c2))

end Sys2Proof.Machine
end

