-- ==== Sys2Proof/Machine/Placement.lean ====
section
/-!
DEFINITION. Placement of teams and gangs (R85 to R89), the start of spawned groups (R95, R391), the return of an ended
team's units (R105) and the completion of grids (R85), 03_execution.md and 04_memory.md.
-/
namespace Sys2Proof.Machine

/-! ### What a core has free -/

/-- Whether a group has ended and every result addressed to it has arrived, so that it holds nothing but stores (R76, R234). -/
def Group.hasLeft (h : Group) : Bool := h.isOver && h.results.all Result.done

/-- Whether an engine operation names a team's scratchpad (R105). -/
def EngineOp.names (t : Nat) (o : EngineOp) : Bool := o.op.places.any fun p => p.any fun q => q.1 = t

/-- Accesses, copies or engine operations that still need an ended team (R105). -/
def State.teamBusy (s : State) (t : Nat) : Bool :=
  (s.groups.any fun h => (h.team = t && !(h.hasLeft && h.queue = [])) ||
    h.queue.any (fun e => e.loc.space = (3, t)) || h.results.any fun r => r.pend.any fun a => a.loc.space = (3, t)) ||
  (s.copies.any fun c => c.team = t || (c.srcScr && c.srcBase.1 = t) || (c.dstScr && c.dstBase.1 = t) || c.bar.1 = t) ||
  (s.cores.any fun c => c.engine.any fun o => o.team = t || (!o.started && o.names t)) ||
  (s.host.fetchAdds.any fun f => f.stream = none && f.team = t) ||
  s.fabric.requests.any fun r => match r.use with
    | .load t' _ _ _ _ _ | .store t' _ _ _ _ _ _ => t' = t
    | .read k _ | .write k _ => k.1 = t + 1

/-- A spawn team ends when the last team of its grid on the core has ended and no group of it runs (R87). Items that the
collector still holds start in a new one (assumption log 58). -/
def State.endSpawnTeams (s : State) : State :=
  { s with teams := s.teams.map fun x =>
      if x.spawn && !x.ended && !(s.teams.any fun y => !y.spawn && !y.ended && y.grid = x.grid && y.core = x.core) &&
          !(s.groups.any fun h => h.team = x.uid && !h.isOver) then { x with ended := true }
      else x }

/-- Spawned groups that have ended leave, and ended teams that nothing needs give back their units, which read zero for
the next team (R76, R87, R105). -/
def State.reap (s : State) : State :=
  let s1 := s.endSpawnTeams
  let spawn (t : Nat) : Bool := s1.teams.any fun x => x.uid = t && x.spawn
  let s2 : State := { s1 with groups := s1.groups.filter fun h =>
    !(spawn h.team && h.hasLeft && h.queue = [] && h.raised = none && h.late = []) }
  ((s2.teams.filter fun x => x.ended && !s2.teamBusy x.uid).map fun x => x.uid).foldl State.dropTeam s2

/-- Group slots of a core that are taken (R19). -/
def State.slotsTaken (s : State) (core : Nat) : List Nat :=
  (s.groups.filter fun h => !h.isOver && s.teams.any fun x => x.uid = h.team && x.core = core).map fun h => h.slot

/-- The pool units of a partition word: those of the register file, and the others (R71). -/
def registerUnits (w : Word) : Nat := bits w.toNat 6 0
def otherUnits (w : Word) : Nat := bits w.toNat 14 8 + bits w.toNat 19 16

/-- The register file units that a team still takes: those of the budgets of its ended groups are free once every result
addressed to them has arrived (R76, R234; assumption log 30). -/
def State.unitsHeld (s : State) (x : Team) : Nat :=
  let hs := s.groups.filter fun h => h.team = x.uid
  let gone := hs.filter Group.hasLeft
  if x.spawn then (if x.ended && hs = gone then 0 else registerUnits x.partword)
  else if hs = gone then 0
  else registerUnits x.partword - (gone.foldl (fun n h => n + h.budget) 0) / 128

def State.unitsTaken (s : State) (core : Nat) : Nat :=
  (s.teams.filter fun x => x.core = core).foldl (fun n x => n + s.unitsHeld x + otherUnits x.partword) 0

/-- Register file units of a spawn team (R87); 0 when the grid has none. -/
def Grid.spawnUnits (g : Grid) : Nat :=
  if g.root = 0 then 0 else (g.launch.spmax * g.launch.bspawn + 127) / 128

def State.spawnTeam? (s : State) (grid core : Nat) : Option Team :=
  s.teams.find? fun x => x.spawn && !x.ended && x.grid = grid && x.core = core

/-- R86, R87: one team of the grid fits on the core. -/
def State.fits (s : State) (g : Grid) (core : Nat) : Bool :=
  let l := g.launch
  (s.slotsTaken core).length + (l.nprod + l.ncons) ≤ 64 &&
  s.unitsTaken core + registerUnits l.partword + otherUnits l.partword + (if (s.spawnTeam? g.uid core).isSome then 0 else g.spawnUnits) ≤ 64

/-! ### Placing -/

/-- R86: the slot of a group: in the quarter with the most free slots, the lower on a tie; there the lowest that is free, which
the spec does not name (assumption log 59). -/
def pickSlot (taken : List Nat) : Nat :=
  let free (q : Nat) : List Nat := (List.range 16).filter fun i => !taken.contains (16 * q + i)
  let q := [1, 2, 3].foldl (fun b q => if (free b).length < (free q).length then q else b) 0
  16 * q + (free q).headD 0

/-- A team's record as it is placed: timer, cause and scratchpad zero (R98, R105, R359). -/
def newTeam (uid : Nat) (g : Grid) (core : Nat) (spawn : Bool) (teamId partword : Word) : Team :=
  { uid := uid, ctx := g.ctx, grid := g.uid, spawn := spawn, teamId := teamId, core := core, partword := partword, timer := 0,
    timerHeld := false, trapCause := 0, halted := false, haltAge := 0, handler := false, ended := false, scratch := [], acc := [],
    badWords := [], barWords := [], lostWrites := false, convs := [] }

/-- The spawn team of R87, made with the grid's first team on the core. -/
def State.addSpawnTeam (s : State) (g : Grid) (core : Nat) : State :=
  if g.spawnUnits = 0 || (s.spawnTeam? g.uid core).isSome then s
  else { s.fresh with teams := s.teams ++ [newTeam s.uid g core true 0xFFFFFFFF (BitVec.ofNat 32 g.spawnUnits)] }

/-- The weights with which lanes start (R93, R95). -/
def startWeights (l : List DWord) : SMap 64 := (l.zipIdx).foldl (fun m e => SMap.set m e.2 e.1) []

/-- R67, R69: the launched groups of a team, in GROUPID order. -/
def Grid.startGroups (g : Grid) (t : Nat) (taken : List Nat) : List Nat → List Group
  | [] => []
  | i :: is =>
    let l := g.launch
    let prod := i < l.nprod
    let slot := pickSlot taken
    let h := Group.start t i slot (if l.nprod = 0 then 0 else if prod then 1 else 2) (if prod then l.bprod else l.bcons) g.argp g.root
      (if prod then g.pentry else g.centry) (BitVec.allOnes 32)
    { h with weight := if g.root = 0 then [] else startWeights (List.replicate 32 g.w0) } :: g.startGroups t (slot :: taken) is

/-- R114, R138: what a placement drops from a core's caches. -/
def State.placedOn (s : State) (g : Grid) (core : Nat) : State :=
  let s1 := (s.emptyCaches core).dropDescReads core g.ctx fun _ => true
  if s1.cores.any fun c => c.id = core then
    s1.modCore core fun c => { c with descs := c.descs.filter fun e => !(e.ctx = g.ctx && e.grid < g.uid) }
  else s1

/-- R69, R86: the grid's next team is placed on a core. -/
def State.placeTeam (s : State) (u core : Nat) : State :=
  match s.grid? u with
  | none => s
  | some g =>
    let s1 := (s.addSpawnTeam g core).placedOn g core
    let t := s1.uid
    let hs := g.startGroups t (s1.slotsTaken core) (List.range (g.launch.nprod + g.launch.ncons))
    ({ s1.fresh with
        teams := s1.teams ++ [newTeam t g core false (BitVec.ofNat 32 g.next) g.launch.partword],
        groups := s1.groups ++ hs } : State).modGrid u fun g => { g with next := g.next + 1 }

/-! ### The distributors -/

/-- The grids that wait for placement, in the order of R86; a context that drains gets no team (R388). -/
def State.waitingGrids (s : State) : List Grid :=
  ((s.grids.filter fun g => g.next < g.teams && s.ctxs.any fun c => c.id = g.ctx && c.phase = .active)).mergeSort
    fun a b => b.launch.prio ≤ a.launch.prio

/-- The reservations that stand (R89): grid, cluster, file. -/
def State.standing (s : State) : List (Nat × Nat × Nat) :=
  s.reservations.filter fun r => s.waitingGrids.any fun g => g.uid = r.1

/-- Whether a core's file is reserved for another grid (R89). -/
def State.reservedFor (s : State) (u core : Nat) : Bool :=
  s.standing.any fun r => r.2.1 = core / 96 && r.2.2 = core % 96 / 8 && r.1 ≠ u

/-- The cores that the next placement of a grid starting at `core` takes (R88). -/
def Grid.window (g : Grid) (core : Nat) : List Nat :=
  if 2 ≤ g.launch.gang then (List.range g.launch.gang).map fun i => core + i else [core]

/-- Whether a grid's next team or gang can be placed with its first team on `core` (R86, R88, R89). -/
def State.placeable (s : State) (g : Grid) (core : Nat) : Bool :=
  let gang := decide (2 ≤ g.launch.gang)
  core < 384 && !s.reservedFor g.uid core && (!gang || core % 8 + g.launch.gang ≤ 8) && (g.window core).all (s.fits g) &&
  s.standing.all fun r => r.1 ≠ g.uid || (r.2.1 = core / 96 && r.2.2 = core % 96 / 8)

/-- R89: the first core of the window for which a file is reserved, with its free slots. -/
def State.reserveAt (s : State) (g : Grid) : Option (Nat × Nat) :=
  let bases := (List.range 384).filter fun c => c % 8 + g.launch.gang ≤ 8 && !(s.standing.any fun r => r.2.1 = c / 96)
  bases.foldl (fun best c =>
    let free := (g.window c).foldl (fun n k => n + (64 - (s.slotsTaken k).length)) 0
    match best with
    | some (_, f) => if f < free then some (c, free) else best
    | none => some (c, free)) none

/-- R86, R89: goes through the waiting grids in order: the first that can be placed anywhere is placed if it can start on
`core`; a gang that no file can take reserves one. -/
def State.distribute (core : Nat) : List Grid → State → State
  | [], s => s
  | g :: gs, s =>
    if (List.range 384).any (s.placeable g) then
      if s.placeable g core then
        let s1 := (g.window core).foldl (fun s c => s.placeTeam g.uid c) s
        { s1 with reservations := s1.reservations.filter fun r => r.1 ≠ g.uid }
      else s
    else if 2 ≤ g.launch.gang && !(s.standing.any fun r => r.1 = g.uid) then
      match s.reserveAt g with
      | some (c, _) => State.distribute core gs { s with reservations := s.standing ++ [(g.uid, c / 96, c % 96 / 8)] }
      | none => State.distribute core gs s
    else State.distribute core gs s

/-- TEAM_PLACEMENT (R86 to R89): the distributors place on `core`, or with a gang's first team there. -/
def execTeamPlacement (core : Nat) (s : State) : Host.Outcome State Fault Refusal :=
  let s1 := s.reap
  .next (State.distribute core s1.waitingGrids s1)

/-! ### Spawned groups -/

/-- R95: the offering groups' earlier accesses are complete at device scope, as a release of their items asks. -/
def State.itemsReady (s : State) (l : List Item) : Bool :=
  l.all fun it => match s.group? it.team it.grp with
    | some h => s.completeAt h it.mark 8
    | none => true

/-- R391: saved items move into the collector of a core that the distributors choose; its spawn team is made. -/
def State.takeRestored (s : State) (core : Nat) (entry : DWord) : State :=
  match s.grids.find? fun g => (g.restored.any fun e => e.1 = entry) && s.ctxs.any fun c => c.id = g.ctx && c.phase = .active with
  | none => s
  | some g =>
    let held := (s.core core).forming.foldl (fun n f => n + f.items.length) 0
    let items := (g.restored.filter fun e => e.1 = entry).take 32
    if 384 ≤ core || 1024 < held + items.length || !s.collects core g.uid entry || s.reservedFor g.uid core ||
        ((s.spawnTeam? g.uid core).isNone && 64 < s.unitsTaken core + g.spawnUnits) then s
    else
      (items.foldl (fun s e => s.collect core g.uid entry
        { entry := e.1, w0 := e.2.1, w1 := e.2.2.1, weight := e.2.2.2, team := 0, grp := 0, mark := 0, since := s.cycle })
        (s.addSpawnTeam g core)).modGrid g.uid fun g => { g with restored := items.foldl (fun l e => l.erase e) g.restored }

/-- R95: whether a forming group may start now: 32 items, or 512 cycles since its first; a group fewer than SPMAX, a slot, and
the register units of its spawn team. -/
def State.startable (s : State) (core : Nat) (f : Forming) : Bool :=
  match s.grid? f.grid, f.items.head? with
  | some g, some it =>
    (s.ctxs.any fun c => c.id = g.ctx && c.phase = .active) && (32 ≤ f.items.length || 512 ≤ s.cycle - it.since) &&
    (s.slotsTaken core).length < 64 && s.itemsReady (f.items.take 32) &&
    match s.spawnTeam? f.grid core with
    | some x => (s.groups.filter fun h => h.team = x.uid && !h.hasLeft).length < g.launch.spmax
    | none => s.unitsTaken core + g.spawnUnits ≤ 64 && 0 < g.launch.spmax
  | _, _ => false

/-- A group of a team that has ended gives its GROUPID to another and is kept under a number that no group bears. -/
def ReqUse.renumber (t g g' : Nat) (u : ReqUse) : ReqUse :=
  match u with
  | .load t' k r i l va => if t' = t && k = g then .load t g' r i l va else u
  | .store t' k p e w va pc => if t' = t && k = g then .store t g' p e w va pc else u
  | .read _ _ | .write _ _ => u
def Item.renumber (t g g' : Nat) (i : Item) : Item := if i.team = t && i.grp = g then { i with grp := g' } else i
def State.renumber (s : State) (t g g' : Nat) : State :=
  { s with
    groups := s.groups.map fun h => if h.team = t && h.gid = g then { h with gid := g' } else h,
    cores := s.cores.map fun c => { c with forming := c.forming.map fun f => { f with items := f.items.map (Item.renumber t g g') } },
    fabric := { s.fabric with requests := s.fabric.requests.map fun r => { r with use := r.use.renumber t g g' } } }

/-- R95: the first 32 items of a forming group start as a group of the spawn team, with an acquire at device scope (R292). Its
GROUPID is the lowest that is free, which the spec does not name (assumption log 59); a group that has left gives up its own. -/
def State.startSpawned (s0 : State) (core : Nat) (f : Forming) (g : Grid) : State :=
  let s := (s0.addSpawnTeam g core).emptyCaches core
  match s.spawnTeam? g.uid core with
  | none => s
  | some x =>
    let items := f.items.take 32
    let rest := f.items.drop 32
    let gid := ((List.range (s.groups.length + 1)).find? fun i =>
      !(s.groups.any fun h => h.team = x.uid && h.gid = i && !h.hasLeft)).getD 0
    let h0 := Group.start x.uid gid (pickSlot (s.slotsTaken core)) 3 g.launch.bspawn g.argp g.root f.entry
      (maskOf fun l => l < items.length)
    let h1 := items.zipIdx.foldl (fun (h : Group) e => (h.setLreg 0 e.2 e.1.w0).setLreg 1 e.2 e.1.w1) h0
    let h : Group := { h1 with weight := startWeights (items.map fun it => it.weight) }
    let keep (y : Forming) : Bool := !(y.grid = f.grid && y.entry = f.entry)
    let left (c : Core) : List Forming :=
      if rest = [] then c.forming.filter keep
      else c.forming.map fun y => if keep y then y else { y with items := rest }
    let s1 := s.modCore core fun c => { c with forming := left c }
    let s2 := s1.fresh.renumber x.uid gid (32 + s1.uid)
    { s2 with groups := s2.groups ++ [h] }

/-- SPAWNED_GROUP_START (R95): the first forming group of an entry on a core that may start does, or saved items reach the
core. -/
def execSpawnedGroupStart (core : Nat) (entry : DWord) (s0 : State) : Host.Outcome State Fault Refusal :=
  let s := s0.reap
  match (s.core core).forming.find? fun f => f.entry = entry && s.startable core f with
  | none => .next (s.takeRestored core entry)
  | some f => match s.grid? f.grid with
    | some g => .next (s.startSpawned core f g)
    | none => .next s

/-! ### The end of a grid -/

/-- R85: every team and spawned group of the grid has ended, its copies have completed and its stores are performed. -/
def State.gridDone (s : State) (g : Grid) : Bool :=
  g.teams ≤ g.next && g.restored = [] && !(s.cores.any fun c => c.forming.any fun f => f.grid = g.uid) &&
  !(s.teams.any fun x => x.grid = g.uid && (!x.ended || s.teamBusy x.uid)) && !(s.copies.any fun c => c.grid = g.uid)

/-- GRID_COMPLETE (R85, R171): its stores are visible at system scope, so its lines go to the protected point (R121). -/
def execGridComplete (u : Nat) (s0 : State) : Host.Outcome State Fault Refusal :=
  let s := s0.reap
  match s.grid? u with
  | none => .next s
  | some g =>
    if !s.gridDone g then .next s
    else
      let s1 := ((s.teams.filter fun x => x.grid = u).map fun x => x.uid).foldl State.dropTeam s
      .next ({ s1 with grids := s1.grids.filter fun x => x.uid ≠ u,
                       reservations := s1.reservations.filter fun r => r.1 ≠ u } : State).writeBackAll

end Sys2Proof.Machine
end

