-- ==== Sys2Proof/Machine/Collect.lean ====
section
/-!
DEFINITION. Collectives (R296, 09_isa_memory.md; R326, R327, R330 to R341, 11_fabric_host.md; R416, R417, 15): the
descriptor and its geometry, gcoll, the chunk packets that arrive, completion, failure and timeout.
-/
namespace Sys2Proof.Machine

/-! ### The descriptor -/

/-- The fields of a communicator descriptor (R330). -/
def Coll.dword (c : Coll) (i : Nat) : DWord := c.desc.getD i 0
def Coll.count (c : Coll) : Nat := bits (c.dword 2).toNat 39 0
def Coll.commId (c : Coll) : Half := (c.dword 3).extractLsb' 48 16
def Coll.chunkBytes (c : Coll) : Nat := 4096 * 2 ^ bits (c.dword 3).toNat 40 38
def Coll.det (c : Coll) : Bool := (c.dword 3).getLsbD 37
def Coll.redop (c : Coll) : Nat := bits (c.dword 3).toNat 34 32
def Coll.dtype (c : Coll) : Nat := bits (c.dword 3).toNat 31 28
def Coll.ranks (c : Coll) : Nat := bits (c.dword 3).toNat 25 16 + 1
def Coll.rank (c : Coll) : Nat := bits (c.dword 3).toNat 9 0

/-- R373: reserved fields, CHUNK 7, reserved types and pairs (R333), RANK above PM1, COUNT not as R331 asks. -/
def collDescBad (c : Coll) : Bool :=
  let u3 := (c.dword 3).toNat
  let share := if c.op = 0 then c.count else c.count / c.ranks
  bits (c.dword 2).toNat 63 40 ≠ 0 || bits u3 47 41 ≠ 0 || bits u3 36 35 ≠ 0 || bits u3 27 26 ≠ 0 || bits u3 15 10 ≠ 0 ||
    bits u3 40 38 = 7 || 3 ≤ c.redop || c.dtype = 15 || (c.op ≠ 2 && (9 ≤ c.dtype || (c.dtype = 8 && c.redop ≠ 0))) ||
    c.ranks ≤ c.rank || (c.op ≠ 0 && c.count % c.ranks ≠ 0) || (8 ≤ c.dtype && c.dtype ≤ 13 && share % 32 ≠ 0)

/-! ### Units and chunks (assumption log 24) -/

/-- Whether a type moves in MX blocks, its element width, and its format (R333). -/
def Coll.mx (c : Coll) : Bool := 8 ≤ c.dtype && c.dtype ≤ 13
def Coll.fmt (c : Coll) : Nat := if c.dtype = 8 then 10 else if c.mx then c.dtype - 4 else c.dtype
def Coll.width (c : Coll) : Nat :=
  match c.dtype with
  | 0 | 6 | 7 => 64
  | 1 | 4 | 5 => 32
  | 2 | 3 => 16
  | 11 | 12 => 6
  | 13 => 4
  | _ => 8
/-- A unit is an element, or an MX block with its scale inline (R331). -/
def Coll.unitElems (c : Coll) : Nat := if c.mx then 32 else 1
def Coll.unitBytes (c : Coll) : Nat := if c.mx then 4 * c.width + 1 else c.width / 8
/-- Integers of a unit in a packet: its element codes, and the scale code of a block. -/
def Coll.unitInts (c : Coll) : Nat := if c.mx then 33 else 1

/-- Shares of the vector, units in one, and chunks in one. -/
def Coll.shares (c : Coll) : Nat := if c.op = 0 then 1 else c.ranks
def Coll.shareUnits (c : Coll) : Nat := c.count / c.shares / c.unitElems
def Coll.perChunk (c : Coll) : Nat := max 1 (c.chunkBytes / c.unitBytes)
def Coll.shareChunks (c : Coll) : Nat := (c.shareUnits + c.perChunk - 1) / c.perChunk

/-- The share that a chunk lies in, its first unit there, and its units. -/
def Coll.place (c : Coll) (k : Nat) : Nat × Nat × Nat :=
  let lo := k % c.shareChunks * c.perChunk
  (k / c.shareChunks, lo, min c.perChunk (c.shareUnits - lo))
def Coll.chunkOk (c : Coll) (k : Nat) : Bool := k < c.shares * c.shareChunks
/-- The share as this rank counts it: the one share of an all-reduce is every rank's. -/
def Coll.mine (c : Coll) (q : Nat) : Bool := c.op = 0 || q = c.rank

/-- Where this rank's contribution to a chunk lies, and where the chunk goes in DBUF (R331). -/
def Coll.srcVa (c : Coll) (k : Nat) : Option (DWord × Nat) :=
  let (q, lo, n) := c.place k
  let first := if c.op = 1 then q * c.shareUnits + lo else lo
  if c.op = 2 && q ≠ c.rank then none else some (c.dword 0 + BitVec.ofNat 64 (first * c.unitBytes), n * c.unitBytes)
def Coll.dstVa (c : Coll) (k : Nat) : Option DWord :=
  let (q, lo, _) := c.place k
  let first := if c.op = 2 then q * c.shareUnits + lo else lo
  if c.op = 1 && q ≠ c.rank then none else some (c.dword 1 + BitVec.ofNat 64 (first * c.unitBytes))

/-- The integers of some units' bytes, and the bytes of some units' integers. -/
def Coll.unpack (c : Coll) (b : List Byte) : List Int :=
  (List.range (b.length / c.unitBytes)).flatMap fun i =>
    let u := (b.drop (i * c.unitBytes)).take c.unitBytes
    if c.mx then (elemsOf c.width 32 (u.take (4 * c.width))).map (fun (x : Nat) => (x : Int)) ++ [(leNat (u.drop (4 * c.width)) : Int)]
    else [(leNat u : Int)]
def Coll.pack (c : Coll) (l : List Int) : List Byte :=
  (List.range (l.length / c.unitInts)).flatMap fun i =>
    let u := (l.drop (i * c.unitInts)).take c.unitInts
    if c.mx then stringOf c.width ((u.take 32).map fun x => (x % 2 ^ c.width).toNat) ++ leBytes 1 (u.getD 32 0).toNat
    else leBytes c.unitBytes ((u.headD 0) % 2 ^ c.width).toNat

/-! ### Arithmetic -/

/-- Whether the collective adds MXINT8 blocks (R340, R341). -/
def Coll.mxSum (c : Coll) : Bool := c.dtype = 8 && c.op ≠ 2

/-- RSH of R341: v / 2^d to the nearest integer, ties to even. -/
def rsh (v : Int) (d : Nat) : Int :=
  let q := v / 2 ^ d
  let r := 2 * (v - q * 2 ^ d)
  if r < 2 ^ d then q else if 2 ^ d < r then q + 1 else if q % 2 = 0 then q else q + 1

/-- R333, R338, R339: one reduction of two elements of a type that is no MX type. -/
def Coll.combine (c : Coll) (a b : Int) : Int :=
  let w := c.width
  let F := fmtOf c.fmt
  let x := a.toNat
  let y := b.toNat
  let val (n : Nat) : Int := if c.dtype = 4 || c.dtype = 6 then toSigned w n else n
  if c.dtype ≤ 3 then
    if c.redop = 0 then F.roundCode .ne (FVal.add .ne (F.value x) (F.value y))
    else F.code (FVal.minMax (c.redop = 2) false (F.value x) (F.value y))
  else if c.redop = 0 then (a + b) % 2 ^ w
  else if c.redop = 1 then (if val y < val x then b else a) else (if val x < val y then b else a)

/-- One MXINT8 block of this rank added into a partial sum that travels under the scale code in `s` (R340, R341). -/
def addBlock (s own : List Int) : List Int :=
  let sc := s.getD 32 0
  List.zipWith (fun a b => a + rsh (toSigned 8 b.toNat) (sc - own.getD 32 0).toNat) (s.take 32) (own.take 32) ++ [sc]

/-- Blocks of 33 integers. -/
def blocksOf (l : List Int) : List (List Int) := (List.range (l.length / 33)).map fun i => (l.drop (33 * i)).take 33

/-- Two partial sums of a chunk added (R338 to R341). -/
def Coll.addData (c : Coll) (x y : List Int) : List Int :=
  if c.mxSum then x.zipIdx.map fun e => if e.2 % 33 = 32 then e.1 else e.1 + y.getD e.2 0
  else List.zipWith c.combine x y

/-- This rank's own blocks as a partial sum under some scale codes. -/
def ownSum (scales : List Int) (own : List Int) : List Int :=
  (List.zipWith (fun sc b => addBlock (List.replicate 32 0 ++ [sc]) b) scales (blocksOf own)).flatten

/-- MXSUM of R341 from a block of sums: the block written, and its count. -/
def mxFinal (u : List Int) : List Int × Nat :=
  let S := (u.getD 32 0).toNat
  let sums := u.take 32
  if S = 0xFF then (List.replicate 32 0 ++ [0xFF], 0)
  else
    let t := ((List.range 40).find? fun t => sums.all fun v => (rsh v t).natAbs ≤ 127).getD 0
    if S + t ≤ 254 then (sums.map (fun v => rsh v t % 256) ++ [(S : Int) + t], 0)
    else
      let q := sums.map fun v => rsh v (254 - S)
      (q.map (fun v => min (max v (-127)) 127 % 256) ++ [254], (q.filter fun v => 127 < v.natAbs).length)

/-- What a chunk's data are written as, with the saturation count. -/
def Coll.finalBytes (c : Coll) (d : List Int) : List Byte × Nat :=
  if c.mxSum then
    let l := (blocksOf d).map mxFinal
    (c.pack (l.flatMap fun e => e.1), (l.map fun e => e.2).foldl (· + ·) 0)
  else (c.pack d, 0)

/-! ### Payloads (R340) -/

/-- XW of a packet of a kind: partial sums of MXINT8 travel in 16 or 24 bits (R326, R340). -/
def Coll.xw (c : Coll) (kind : Nat) : BitVec 2 := if c.mxSum && kind ≠ 3 then (if c.ranks ≤ 256 then 1 else 2) else 0

/-- Bytes of an element of a partial sum of MXINT8. -/
def Coll.sumBytes (c : Coll) : Nat := if c.ranks ≤ 256 then 2 else 3

/-- Payload bytes of a packet of a kind that carries `n` units. -/
def Coll.payloadBytes (c : Coll) (kind n : Nat) : Nat :=
  if kind = 3 then n else if c.mxSum then n * (32 * c.sumBytes + 1) else n * c.unitBytes

/-- The payload of a packet of a kind, and the integers in it. -/
def Coll.toPayload (c : Coll) (kind : Nat) (l : List Int) : List Byte :=
  if kind = 3 then l.flatMap fun x => leBytes 1 x.toNat
  else if c.mxSum then (blocksOf l).flatMap fun b =>
    ((b.take 32).flatMap fun x => leBytes c.sumBytes (x % 2 ^ (8 * c.sumBytes)).toNat) ++ leBytes 1 (b.getD 32 0).toNat
  else c.pack l
def Coll.ofPayload (c : Coll) (kind : Nat) (b : List Byte) : List Int :=
  if kind = 3 then b.map fun x => (x.toNat : Int)
  else if c.mxSum then
    let u := 32 * c.sumBytes + 1
    (List.range (b.length / u)).flatMap fun i =>
      let y := (b.drop (i * u)).take u
      ((List.range 32).map fun j => toSigned (8 * c.sumBytes) (leNat ((y.drop (j * c.sumBytes)).take c.sumBytes))) ++
        [(leNat (y.drop (32 * c.sumBytes)) : Int)]
  else c.unpack b

/-! ### The plan (R337 to R339) -/

/-- The ranks that a rank adds and the rank that its sum goes to in CANON (R339): in round j, rank 2^(j+1) m adds the sum of
rank 2^(j+1) m + 2^j. -/
def canonChildren (p r : Nat) : List Nat :=
  ((List.range 10).filter fun j => r % 2 ^ (j + 1) = 0 && r + 2 ^ j < p).map fun j => r + 2 ^ j
def canonParent (r : Nat) : Option Nat :=
  if r = 0 then none else ((List.range 10).find? fun j => r % 2 ^ (j + 1) ≠ 0).map fun j => r - 2 ^ j

/-- A rank's step in the plan of some chunks: CANON's tree, or outside deterministic mode as `pick` says that tree or a chain as a
ring makes it, from some rank on (R337, R338; assumption log 24). -/
def planStepOf (det : Bool) (p r pick first : Nat) : PlanStep :=
  let s := if det then 0 else pick / 2 % p
  let v := (r + p - s) % p
  let back (x : Nat) : Nat := (x + s) % p
  if det || pick % 2 = 0 then ⟨first, (canonParent v).map back, (canonChildren p v).map back⟩
  else ⟨first, if v + 1 < p then some (back (v + 1)) else none, if 0 < v then [back (v - 1)] else []⟩

/-- The payload of a KIND 4 packet: the rank that the sum goes to plus one, or 0, then the ranks whose sums are added. -/
def planPayload (e : PlanStep) : List Byte :=
  leBytes 2 ((e.parent.map (· + 1)).getD 0) ++ e.children.flatMap fun r => leBytes 2 r
def planOf (c : Chunk) : PlanStep :=
  let h (i : Nat) : Nat := leNat ((c.payload.drop (2 * i)).take 2)
  ⟨c.chunk.toNat, if h 0 = 0 then none else some (h 0 - 1), (List.range (c.payload.length / 2 - 1)).map fun i => h (i + 1)⟩

/-- Chunks of the vector. -/
def Coll.chunks (c : Coll) : Nat := c.shares * c.shareChunks

/-- The step for a chunk: the last one set up from it or from before it on. -/
def Coll.stepOf (c : Coll) (k : Nat) : Option PlanStep := c.plan.reverse.find? fun e => e.first ≤ k

/-- A packet of a collective with the fields that all of them share. -/
def State.packetOf (s : State) (c : Coll) (chunk stepNo : Nat) (xw : BitVec 2) (payload : List Byte) : Chunk :=
  { source := s.fabric.deviceId, tag := s.uid, job := s.job c.ctx, commId := c.commId, seq := c.seq,
    chunk := BitVec.ofNat 24 chunk, dtype := BitVec.ofNat 4 c.dtype, fromRank := BitVec.ofNat 10 c.rank,
    stepNo := BitVec.ofNat 10 stepNo, xw := xw, poison := false, payload := payload }

/-- The devices of the pod (R324): those that root firmware has given port sets for, and this one. -/
def State.pod (s : State) : List Nat := s.fabric.topology.foldl (fun l e => insertNat e.1 l) [s.fabric.deviceId.toNat]

/-- Chunks that are planned together: in deterministic mode all of them, otherwise a run for each rank. -/
def Coll.planRun (c : Coll) : Nat := if c.det then max 1 c.chunks else max 1 ((c.chunks + c.ranks - 1) / c.ranks)

/-- This rank's step for the chunks from `first` on, in the plan that the planners of all ranks choose from the pod, the communicator,
the collective's number, the ranks and the chunks (R337; assumption log 24). -/
def State.planAt (s : State) (c : Coll) (first : Nat) : PlanStep :=
  planStepOf c.det c.ranks c.rank
    (if c.det then 0 else Config.planPick s.pod (Nat.pair (Nat.pair c.commId.toNat c.seq.toNat) (Nat.pair c.ranks first))) first

/-- The KIND 4 packets of the plan, for the runs that hold a chunk which `which` picks. -/
def State.planPackets (s : State) (c : Coll) (which : Nat → Bool) : List Chunk :=
  let n := c.planRun
  ((List.range (max 1 ((c.chunks + n - 1) / n))).filter fun i => (List.range n).any fun j => which (i * n + j)).map fun i =>
    s.packetOf c (i * n) 0 0 (planPayload (s.planAt c (i * n)))

/-- Whether work on a chunk has begun on this rank. -/
def Coll.begun (c : Coll) (k : Nat) : Bool :=
  c.sent.contains k || c.scaled.contains k || c.finals.contains k || c.seen.any fun e => e.1 = k

/-- Whether a chunk has completed on this rank. -/
def Coll.finished (c : Coll) (k : Nat) : Bool :=
  ((c.dstVa k).isNone || c.finals.contains k) && (c.sent.contains k || (c.op = 2 && (c.place k).1 ≠ c.rank))

/-- Whether this rank has sent what it contributes, and has every chunk of its DBUF. -/
def Coll.whole (c : Coll) : Bool := (List.range c.chunks).all c.finished

/-- R338, R417: outside deterministic mode chunks of those that `which` picks are planned anew. -/
def State.replan (s : State) (c : Coll) (which : Nat → Bool) : State :=
  if c.det || c.stage ≠ 0 || c.failing.isSome then s
  else s.modColl c.uid fun x => { x with planning := x.planning ++ s.planPackets c fun k => decide (k < c.chunks) && which k }

/-! ### Failure -/

def Coll.key (c : Coll) : Nat × Nat := (0, c.uid)

/-- A collective is over on this rank: it only passes on and credits chunks that still come (R327, R417). -/
def State.endColl (s : State) (u : Nat) : State :=
  (s.takeAnswers (0, u)).modColl u fun c => { c with stage := 3, stalled := false, inbox := c.inbox.filter fun e => e.1 = 0 }

/-- A replayable fault of a ring sequencer's access stalls its collective (R335, R377). -/
def State.stallColl (s : State) (c : Coll) (kind : Nat) (va : DWord) (why : BitVec 8) : State :=
  (s.modColl c.uid fun c => { c with stalled := true }).faultRecord c.ctx va kind why.toNat c.gridId 0xFFFFFFFF (.coll c.uid)

/-- R406: the CONSUMED record of an access of a collective that met poison or got no answer. -/
def State.collConsumed (s : State) (c : Coll) (l : LateCause) : State :=
  if l.code = 0x16 || l.code = 0x17 then s.consumedBy c.ctx l else s

/-- The write of DONE (R336, R416), with release at system scope: earlier writes are at the protected point. `none`: it cannot
be made now; the state holds what became of it. -/
def State.putDone (s : State) (c : Coll) (tag : DWord) (stage : Nat) (ended : State → State) : State :=
  if s.keyBusy c.key then s
  else match s.putPlan c.ctx (c.dword 5) (leBytes 8 tag.toNat) with
    | .error (.replay va why) => s.stallColl c 1 va why
    | .error (.fail l) => ended (s.collConsumed c l)
    | .error _ => s
    | .ok ps =>
      let (w, s1) := s.writeBackAll.putAll (s.job c.ctx) c.key ps
      if w = [] then ended s1 else s1.modColl c.uid fun c => { c with stage := stage }

/-- R416: the failed collective's mark goes to DONE, once its other writes have been answered for. -/
def State.failStep (s : State) (u : Nat) : State :=
  match s.coll? u with
  | none => s
  | some c =>
    if c.stalled || c.stage = 3 then s
    else if c.stage = 2 then (if s.keyBusy c.key then s else s.endColl u)
    else s.putDone c (c.dword 7 ^^^ 0x8000000000000000#64) 2 fun s => s.endColl u

/-- R416: one collective fails: a FAIL record is written, and the mark goes to DONE unless the failure is an access to DONE. -/
def State.failOne (s : State) (u reason : Nat) (mark : Bool) : State :=
  match s.coll? u with
  | none => s
  | some c =>
    if c.failing.isSome || c.stage = 3 then s
    else
      let mine (j : Joiner) : Bool := j = .coll u
      let s1 := (s.takeAnswers c.key).modColl u fun c => { c with
        failing := some reason, planning := [], plan := [], inbox := [], kept := [], stalled := false }
      let s2 : State := { s1 with mgmt := { s1.mgmt with faults := withdraw mine s1.mgmt.faults } }
      let s3 := s2.report 5 0x0A c.rank c.ctx (c.commId.toNat * 2 ^ 20 + c.seq.toNat * 2 ^ 4 + reason) s2.openAddr
      if mark then s3.failStep u else s3.endColl u

/-- The collectives of the same communicator on this rank that started after a collective and are not complete (R416). -/
def State.laterColls (s : State) (c : Coll) : List Nat :=
  ((((s.colls.dropWhile fun x => x.uid ≠ c.uid).drop 1).filter fun x =>
    x.ctx = c.ctx && x.commId = c.commId && x.stage < 2).map fun x => x.uid)

/-- R416: the collective fails, and with reason 5 the later ones on its communicator. -/
def State.failCollAt (s : State) (u reason : Nat) (mark : Bool) : State :=
  match s.coll? u with
  | none => s
  | some c =>
    if c.failing.isSome || c.stage = 3 then s
    else
      let s1 := s.failOne u reason mark
      let s2 : State := { s1 with fabric := { s1.fabric with comms := s1.fabric.comms.map fun m =>
        if m.ctx = c.ctx && m.commId = c.commId then { m with failed := true } else m } }
      (s.laterColls c).foldl (fun s v => s.failOne v 5 true) s2
def State.failColl (s : State) (u reason : Nat) : State := s.failCollAt u reason true

/-- FAIL of a replayable fault of a collective (R335, R416): at DONE nothing is written there. -/
def State.failCollAccess (s : State) (u : Nat) : State :=
  match s.coll? u with
  | none => s
  | some c =>
    let atDone := c.stage ≠ 0 || (c.whole && match s.putPlan c.ctx (c.dword 5) (leBytes 8 (c.dword 7).toNat) with
      | .error (.replay _ _) => true
      | _ => false)
    if c.failing.isSome then s.endColl u else s.failCollAt u 6 !atDone

/-- A write of a collective at a peer or at the host has failed (R416). -/
def State.collWriteFails (s : State) (c : Coll) (l : LateCause) : State :=
  let s1 := s.consumedBy c.ctx l
  if c.stage = 2 then (if c.failing.isSome then s1.endColl c.uid else s1.failCollAt c.uid 6 false)
  else s1.failColl c.uid (if l.code = 0x16 then 2 else 6)

/-- What keeps a ring sequencer's access from being made (R335, R416). -/
def State.collStops (s : State) (c : Coll) (kind : Nat) (g : Got) : State :=
  match g with
  | .replay va why => s.stallColl c kind va why
  | .fail l => (s.collConsumed c l).failColl c.uid (if l.code = 0x16 then 2 else 6)
  | .ask _ _ _ _ => s.sendAsk (s.job c.ctx) c.key g
  | .held | .bytes _ => s

/-- This rank's contribution to a chunk, read from SBUF, with the state after. -/
def State.contribution (s : State) (c : Coll) (k : Nat) : Except State (List Int × State) :=
  match c.srcVa k with
  | none => .ok ([], s)
  | some (va, n) => match s.readSpan c.ctx c.key va n with
    | .bytes b => .ok (c.unpack b, s.rekeySpans c.ctx [(va, n)])
    | g => .error (s.collStops c 0 g)

/-- The devices of MAP (R330), read once, with the state after. -/
def State.collMap (s : State) (c : Coll) : Except State (List Nat × State) :=
  if c.map ≠ [] then .ok (c.map, s)
  else match s.readSpan c.ctx c.key (c.dword 4) (2 * c.ranks) with
    | .bytes b =>
      let map := (List.range c.ranks).map fun r => leNat ((b.drop (2 * r)).take 2) % 1024
      .ok (map, (s.rekeySpans c.ctx [(c.dword 4, 2 * c.ranks)]).modColl c.uid fun c => { c with map := map })
    | g => .error (s.collStops c 0 g)

/-! ### Packets out -/

/-- A packet leaves for a device. -/
def State.emit (s : State) (dev kind : Nat) (c : Chunk) : State :=
  { s with fabric := { s.fabric with outbox := s.fabric.outbox ++ [.chunk dev kind c] } }

/-- Whether a device can be reached (R414). -/
def State.reachable (s : State) (dev : Nat) : Bool := dev = s.fabric.deviceId.toNat || s.portsTo dev ≠ []

/-- Whether the plan of a deterministic collective joins this rank to another: in CANON's tree, or to the rank at its root, which hands
out the sums; an all-gather joins every two. -/
def Coll.joins (c : Coll) (r : Nat) : Bool :=
  let e := planStepOf true c.ranks c.rank 0 0
  c.op = 2 || r = 0 || c.rank = 0 || e.parent = some r || e.children.contains r

/-- The first rank of MAP that this one cannot reach (R414, R416). -/
def State.cutFrom (s : State) (c : Coll) (map : List Nat) : Option Nat :=
  (List.range map.length).find? fun r => r ≠ c.rank && !s.reachable (map.getD r 0)

/-- A collective fails for want of a port to a rank: one of MAP, or that a fixed plan joins to this one (R416, R417). -/
def State.cutOff (s : State) (c : Coll) (r : Nat) : State := s.failColl c.uid (if c.det && c.joins r then 3 else 1)

/-- A chunk packet goes to a rank and is kept until credited (R417). -/
def State.sendPacket (s : State) (c : Coll) (map : List Nat) (kind rank : Nat) (out : Chunk) : State :=
  let dev := map.getD rank 0
  if s.reachable dev then (s.fresh.emit dev kind out).modColl c.uid fun c => { c with
    kept := c.kept ++ [⟨dev, kind, out, some (s.devclk.toNat + s.peerTimeout)⟩] }
  else s.cutOff c rank

/-- A chunk's data go to a rank. -/
def State.sendTo (s : State) (c : Coll) (map : List Nat) (k kind stepNo : Nat) (data : List Int) (rank : Nat) : State :=
  s.sendPacket c map kind rank (s.packetOf c k stepNo (c.xw kind) (c.toPayload kind data))

/-- A chunk is passed on as it came (R327) to the rank that its sums go to; the last of a plan has none. -/
def State.passOn (s : State) (c : Coll) (map : List Nat) (p : Chunk) (parent : Option Nat) : State :=
  match parent with
  | some r => s.sendPacket c map 0 r (s.packetOf c p.chunk.toNat p.stepNo.toNat p.xw p.payload)
  | none => s

/-- The same to several ranks. -/
def State.sendAll (s : State) (c : Coll) (map : List Nat) (k kind stepNo : Nat) (data : List Int) (ranks : List Nat) : State :=
  ranks.foldl (fun s r => if (s.coll? c.uid).any fun x => x.failing.isNone then s.sendTo c map k kind stepNo data r else s) s

/-! ### The steps of a chunk

STEP in a packet: 0 scale codes towards the root of the plan, 1 from it, 2 sums, 3 data for DBUF (assumption log 24). -/

/-- The credit that a receiver returns for a chunk (R417). -/
def State.creditChunk (s : State) (c : Coll) (map : List Nat) (p : Chunk) : State :=
  s.emit (map.getD p.fromRank.toNat p.source.toNat) 5
    { s.packetOf c p.chunk.toNat p.stepNo.toNat 0 [] with fromRank := BitVec.ofNat 10 c.rank }

/-- A packet that waited has been acted on: its buffer space is free. -/
def State.consume (s : State) (c : Coll) (map : List Nat) (e : Nat × Chunk) : State :=
  (s.creditChunk c map e.2).modColl c.uid fun c => { c with inbox := c.inbox.erase e }

/-- A chunk's data are written into DBUF (R327, R335, R341). -/
def State.writeFinal (s : State) (c : Coll) (k : Nat) (data : List Int) : Except State State :=
  match c.dstVa k with
  | none => .ok s
  | some va =>
    if c.finals.contains k then .ok s
    else
      let (b, sats) := c.finalBytes data
      match s.putPlan c.ctx va b with
      | .ok ps => .ok ((s.putAll (s.job c.ctx) c.key ps).2.modColl c.uid fun c =>
          { c with finals := k :: c.finals, sats := c.sats + sats })
      | .error g => .error (s.collStops c 1 g)

/-- The packets of a chunk from some ranks, of a kind, in the order of the ranks; none while one is missing. -/
def Coll.from_ (c : Coll) (k kind : Nat) (ranks : List Nat) : Option (List (Nat × Chunk)) :=
  ranks.mapM fun r => c.inbox.find? fun e => e.1 = kind && e.2.chunk.toNat = k && e.2.fromRank.toNat = r

/-- The number of a chunk's first block in `smax`, and its largest scale codes once they are known (R341). -/
def Coll.firstBlock (c : Coll) (k : Nat) : Nat := (c.place k).1 * c.shareUnits + (c.place k).2.1
def Coll.scales (c : Coll) (k : Nat) : Option (List Int) :=
  (List.range (c.place k).2.2).mapM fun i =>
    let x := (SMap.get c.smax (c.firstBlock k + i)).toNat
    if x = 0 then none else some ((x : Int) - 1)
def Coll.learn (c : Coll) (k : Nat) (l : List Int) : Coll :=
  { c with smax := l.zipIdx.foldl (fun m e => SMap.set m (c.firstBlock k + e.2) (BitVec.ofNat 9 (e.1.toNat + 1))) c.smax }

/-- The ranks other than this one that need a chunk in DBUF (R331). -/
def Coll.others (c : Coll) (k : Nat) : List Nat :=
  (List.range c.ranks).filter fun r => r ≠ c.rank && (c.op ≠ 1 || r = (c.place k).1)

/-- What a rank can do next for a chunk. -/
inductive ChunkStep
  | write (e : Nat × Chunk)
  | pass (e : Nat × Chunk) (parent : Option Nat)
  | scalesUp (l : List (Nat × Chunk)) (parent : Option Nat) (children : List Nat)
  | scalesDown (e : Nat × Chunk) (children : List Nat)
  | sum (l : List (Nat × Chunk)) (parent : Option Nat)
  | share
  | none
deriving DecidableEq, Repr

/-- The next step of a chunk, by the plan and the packets that have come (R327, R337 to R341). -/
def Coll.next (c : Coll) (k : Nat) : ChunkStep :=
  match c.inbox.find? (fun e => e.2.chunk.toNat = k && e.1 = 2), c.stepOf k, c.inbox.find? (fun e => e.2.chunk.toNat = k && e.1 = 0) with
  | some e, _, _ => .write e
  | none, some st, some e => .pass e st.parent
  | none, none, _ => .none
  | none, some st, none =>
      if c.sent.contains k then .none
      else if c.op = 2 then (if (c.place k).1 = c.rank then .share else .none)
      else if c.mxSum && !c.scaled.contains k then match c.from_ k 3 st.children with
        | some l => .scalesUp l st.parent st.children
        | none => .none
      else if c.mxSum && (c.scales k).isNone then match c.from_ k 3 st.parent.toList with
        | some (e :: _) => .scalesDown e st.children
        | _ => .none
      else match c.from_ k 1 st.children with
        | some l => .sum l st.parent
        | none => .none

/-- Scale codes of a contribution. -/
def scaleCodes (own : List Int) : List Int := (blocksOf own).map fun b => b.getD 32 0

/-- One step of a chunk (R327, R335 to R341). -/
def State.stepChunk (s : State) (c : Coll) (map : List Nat) (k : Nat) : State :=
  let ints (e : Nat × Chunk) : List Int := c.ofPayload e.1 e.2.payload
  let done (s : State) (l : List (Nat × Chunk)) (f : Coll → Coll) : State := (l.foldl (fun s e => s.consume c map e) s).modColl c.uid f
  match c.next k with
  | .none => s
  | .write e => match s.writeFinal c k (ints e) with
    | .ok s1 => done s1 [e] id
    | .error s1 => s1
  | .pass e parent => done (s.passOn c map e.2 parent) [e] id
  | .share => match s.contribution c k with
    | .error s1 => s1
    | .ok (own, s) => match s.writeFinal c k own with
      | .error s1 => s1
      | .ok s1 => (s1.sendAll c map k 2 3 own (c.others k)).modColl c.uid fun c => { c with sent := k :: c.sent }
  | .scalesUp l parent children => match s.contribution c k with
    | .error s1 => s1
    | .ok (own, s) =>
      let mx := l.foldl (fun a e => List.zipWith max a (ints e)) (scaleCodes own)
      let s1 := done s l fun c => { c with scaled := k :: c.scaled }
      match parent with
      | some p => s1.sendAll c map k 3 0 mx [p]
      | none => (s1.sendAll c map k 3 1 mx children).modColl c.uid fun c => c.learn k mx
  | .scalesDown e children => (done s [e] fun c => c.learn k (ints e)).sendAll c map k 3 1 (ints e) children
  | .sum l parent => match s.contribution c k with
    | .error s1 => s1
    | .ok (own, s) =>
      let mine := if c.mxSum then ownSum ((c.scales k).getD []) own else own
      let total := l.foldl (fun a e => c.addData a (ints e)) mine
      match parent with
      | some p => (done s l fun c => { c with sent := k :: c.sent }).sendAll c map k 1 2 total [p]
      | none => match s.writeFinal c k total with
        | .error s1 => s1
        | .ok s1 => (done s1 l fun c => { c with sent := k :: c.sent }).sendAll c map k 2 3 total (c.others k)

/-- Whether a chunk can go on: of a collective that is over, one that is only passed on (R327). -/
def Coll.canWork (c : Coll) (k : Nat) : Bool :=
  !c.stalled && c.failing.isNone && (match c.next k with
    | .none => false
    | .pass _ _ => true
    | _ => c.stage = 0)

/-- A chunk goes on as far as it can: its steps are few. -/
def State.workChunk (s : State) (u k : Nat) : Nat → State
  | 0 => s
  | n + 1 => match s.coll? u with
    | none => s
    | some c =>
      if !c.canWork k then s
      else match s.collMap c with
        | .error s1 => s1
        | .ok (map, s1) => ((s1.stepChunk { c with map := map } map k).workChunk u k n)

/-! ### Packets in -/

/-- The context of a packet's JOB (R325), and the collective it belongs to (R332). -/
def State.ctxOf (s : State) (job : Half) : Option Ctx := s.ctxs.find? fun c => c.job = job
def State.collOf (s : State) (p : Chunk) : Option Coll :=
  s.colls.find? fun c => s.job c.ctx = p.job && c.commId = p.commId && c.seq = p.seq

/-- Whether a collective of a packet's communicator and number has started on this rank before. -/
def State.collPast (s : State) (p : Chunk) : Bool :=
  s.fabric.comms.any fun m => s.job m.ctx = p.job && m.commId = p.commId && (p.seq - m.next).toNat ≥ 2 ^ 15

/-- Whether a packet is what this rank's descriptor gives (R332). -/
def Coll.fits (c : Coll) (kind : Nat) (p : Chunk) : Bool :=
  p.dtype.toNat = c.dtype && c.chunkOk p.chunk.toNat && p.fromRank.toNat < c.ranks && p.xw = c.xw kind && (kind ≠ 3 || c.mxSum) &&
    p.payload.length = c.payloadBytes kind (c.place p.chunk.toNat).2.2

/-- A chunk packet for a collective that this rank has started: one already seen is discarded (R417), poison fails the
collective, and so does one that does not fit the descriptor (R332, R416); else a chunk has arrived, and waits for its step. -/
def State.acceptChunk (s : State) (c : Coll) (kind : Nat) (p : Chunk) : State :=
  let mark := (p.chunk.toNat, p.stepNo.toNat, p.fromRank.toNat)
  if c.failing.isSome || (c.stage = 3 && kind ≠ 0) then s.creditChunk c c.map p
  else if c.seen.contains mark then (if c.inbox.any fun e => e.2 = p then s else s.creditChunk c c.map p)
  else if p.poison then s.failColl c.uid 2
  else if !c.fits kind p then s.failColl c.uid 5
  else (s.modColl c.uid fun c => { c with
    inbox := c.inbox ++ [(kind, p)], seen := c.seen ++ [mark], deadline := s.devclk.toNat + s.collTimeout }).workChunk
      c.uid p.chunk.toNat 8

/-- A chunk packet of KIND 0 to 3 arrives (R325, R327, R413, R415): refused with no context for its JOB; answered; taken up by
its collective, or held until this rank starts it. One of a collective that a forced reset has ended gets no response (R414). -/
def State.arrive (s : State) (kind : Nat) (p : Chunk) : State :=
  let src := p.source.toNat
  match s.ctxOf p.job with
  | none => s.refuse src p.tag
  | some _ =>
    let s1 := s.respond none src p.tag (.data [])
    match s1.collOf p with
    | some c => s1.acceptChunk c kind p
    | none =>
      if s1.collPast p then s
      else if s1.fabric.early.contains (kind, p) then s1
      else { s1 with fabric := { s1.fabric with early := s1.fabric.early ++ [(kind, p)] } }

/-- FORWARD (R327): the chunk is passed on unchanged. -/
def execForward (p : Chunk) (s : State) : Host.Outcome State Fault Refusal := .next (s.arrive 0 p)

/-- ADD_AND_FORWARD (R327, R338 to R341): once the sums of the ranks that the plan has this one add have come, they and this
rank's contribution are added and passed on. -/
def execAddAndForward (p : Chunk) (s : State) : Host.Outcome State Fault Refusal := .next (s.arrive 1 p)

/-- FINAL (R327): the chunk is written into the destination buffer. -/
def execFinal (p : Chunk) (s : State) : Host.Outcome State Fault Refusal := .next (s.arrive 2 p)

/-- SCALE_MAX (R327, R341): the maximum of the scale codes and this rank's is passed on. -/
def execScaleMax (p : Chunk) (s : State) : Host.Outcome State Fault Refusal := .next (s.arrive 3 p)

/-- PLAN (R327, R337): a packet of this rank's planner sets up steps. -/
def execPlan (p : Chunk) (s : State) : Host.Outcome State Fault Refusal :=
  .next (match s.colls.find? fun c => c.planning.contains p with
    | none => s
    | some c => s.modColl c.uid fun c => { c with planning := c.planning.erase p, plan := c.plan ++ [planOf p] })

/-- CHUNK_CREDIT (R327, R417): the sender's buffer space is free. -/
def execChunkCredit (p : Chunk) (s : State) : Host.Outcome State Fault Refusal :=
  .next (match s.collOf p with
    | none => s
    | some c => s.modColl c.uid fun c => { c with
        kept := c.kept.filter fun e => !(e.packet.chunk = p.chunk && e.packet.stepNo = p.stepNo && e.dev = p.source.toNat) })

/-- A response to a chunk packet that a collective keeps (R414, R415). -/
def State.chunkAnswered (s : State) (tag : Nat) (r : Response) : State :=
  match s.colls.find? fun c => c.kept.any fun e => e.packet.tag = tag with
  | none => s
  | some c => match r with
    | .data _ => s.modColl c.uid fun c => { c with
        kept := c.kept.map fun e => if e.packet.tag = tag then { e with deadline := none } else e }
    | .failure => s.failColl c.uid 1
    | .poisoned => s.failColl c.uid 2

/-! ### Completion -/

/-- R336: TAG goes to DONE, after everything else. -/
def State.finishColl (s : State) (u : Nat) : State :=
  match s.coll? u with
  | none => s
  | some c =>
    if c.stalled || s.keyBusy c.key then s
    else if c.stage = 1 then
      match s.putPlan c.ctx (c.dword 5) (leBytes 8 (c.dword 7).toNat) with
      | .error (.fail l) => (s.collConsumed c l).failCollAt u 6 false
      | _ => s.putDone c (c.dword 7) 2 fun s => s.endColl u
    else if c.stage = 2 then s.endColl u
    else s

/-- R336, R416: the saturation count is added once all of DBUF is performed, and DONE can be written. -/
def State.countColl (s : State) (u : Nat) : State :=
  match s.coll? u with
  | none => s
  | some c =>
    if c.stage ≠ 0 then s.finishColl u
    else if s.keyBusy c.key then s
    else match s.putPlan c.ctx (c.dword 5) (leBytes 8 (c.dword 7).toNat) with
      | .error (.fail l) => (s.collConsumed c l).failCollAt u 6 false
      | .error g => s.collStops c 1 g
      | .ok _ =>
        if c.dword 6 = 0 then (s.modColl u fun c => { c with stage := 1 }).finishColl u
        else match s.countPlace c.ctx (c.dword 6) with
          | .error g => s.collStops c 1 g
          | .ok l =>
            ((s.addCount (s.job c.ctx) c.key (c.dword 6) l c.sats).2.modColl u fun c => { c with stage := 1 }).finishColl u

/-- COLLECTIVE_COMPLETE (R335, R336, R416): the next step of the collective on this rank: MAP is read; one of a chunk; then completion;
of a failed one, its mark. -/
def execCollectiveComplete (u : Nat) (s : State) : Host.Outcome State Fault Refusal :=
  .next (match s.coll? u with
    | none => s
    | some c =>
      if c.stalled then s
      else if c.failing.isSome then s.failStep u
      else match s.collMap c with
        | .error s1 => s1
        | .ok (map, s1) => match if c.stage = 0 && !c.whole then s.cutFrom c map else none, (List.range c.chunks).find? c.canWork with
          | some r, _ => s1.cutOff c r
          | none, some k => s1.workChunk u k 8
          | none, none => if c.stage ≠ 0 || c.whole then s1.countColl u else s1)

/-- COLLECTIVE_TIMEOUT (R416): no chunk has arrived in time. -/
def execCollectiveTimeout (u : Nat) (s : State) : Host.Outcome State Fault Refusal :=
  .next (match s.coll? u with
    | some c =>
      if c.stage = 0 && c.failing.isNone && 2 ≤ c.ranks && !c.whole && c.deadline ≤ s.devclk.toNat then s.failColl u 4 else s
    | none => s)

/-! ### gcoll -/

/-- The descriptor at gA (R334), or what gcoll ends with instead. -/
def State.commDesc (s : State) (k : Here) : Except Body (List DWord × State) :=
  let va := k.grp.greg k.f.a.toNat
  if va.toNat % 64 ≠ 0 then .error (.trap 0x10)
  else match s.probes k true .read 64 (fun _ => none) [(0, 64, va)] with
    | .error b => .error b
    | .ok sites =>
      if s.sitesWait k sites then .error .wait
      else match sites.find? fun e => s.locPoisoned e.loc e.n with
        | some e => .error (.late s (s.poisonAt e.va e.loc))
        | none => match s.remoteReads k sites with
          | some b => .error b
          | none => .ok (dwordsOf ((sites.map (s.gatherServe k)).flatten),
              ((s.takeAnswers (gatherKey k)).noteSites k true sites).rekeySpans k.team.ctx [(va, 64)])

/-- Chunk packets that came before this rank's gcoll (R332). -/
def State.takeEarly (s : State) (c : Coll) : State :=
  let mine (e : Nat × Chunk) : Bool := s.job c.ctx = e.2.job && c.commId = e.2.commId && c.seq = e.2.seq
  (s.fabric.early.filter mine).foldl (fun s e => match s.coll? c.uid with
      | some c => s.acceptChunk c e.1 e.2
      | none => s)
    { s with fabric := { s.fabric with early := s.fabric.early.filter fun e => !mine e } }

/-- R296, R332, R334, R337: a collective starts, and its planner sends the plan to this rank's ports; one on a communicator
that has failed fails at once (R416). -/
def gcollBody (op : BitVec 2) (k : Here) (s : State) : Body :=
  if 16 ≤ (s.colls.filter fun c => c.stage < 3).length || !s.released k 8 || s.blinded k.team.uid k.grp.gid then .wait
  else match s.commDesc k with
    | .error b => b
    | .ok (d, s1) =>
      let c0 : Coll := { uid := s1.uid, ctx := k.team.ctx, grid := k.team.grid,
                         gridId := ((s.grid? k.team.grid).map fun g => g.gridId).getD 0, op := op, desc := d, seq := 0, map := [],
                         deadline := s1.devclk.toNat + s1.collTimeout, planning := [], plan := [], seen := [], inbox := [], kept := [],
                         scaled := [], sent := [], finals := [], smax := [], sats := 0, stage := 0, failing := none, stalled := false }
      if collDescBad c0 then .trap 0x19
      else
        let is (m : Comm) : Bool := m.ctx = c0.ctx && m.commId = c0.commId
        let old := s1.fabric.comms.find? is
        let seq := (old.map fun m => m.next).getD 0
        let comms := match old with
          | some _ => s1.fabric.comms.map fun m => if is m then { m with next := m.next + 1 } else m
          | none => s1.fabric.comms ++ [{ ctx := c0.ctx, commId := c0.commId, next := 1, failed := false }]
        let c1 := { c0 with seq := seq }
        let c := { c1 with planning := s1.fresh.planPackets c1 fun _ => true }
        let gone (x : Coll) : Bool := x.stage = 3 && x.ctx = c.ctx && x.commId = c.commId && x.seq = c.seq
        let s2 : State := { s1.fresh with colls := (s1.colls.filter fun x => !(gone x)) ++ [c], fabric := { s1.fabric with comms := comms } }
        .next (if (old.map fun m => m.failed).getD false then s2.failColl c.uid 5 else s2.takeEarly c)

def execGcollAr (i : Long) (s : State) := issue (.gcollAr i) s (gcollBody 0)
def execGcollRs (i : Long) (s : State) := issue (.gcollRs i) s (gcollBody 1)
def execGcollAg (i : Long) (s : State) := issue (.gcollAg i) s (gcollBody 2)

end Sys2Proof.Machine
end

