-- ==== Sys2Proof/Machine/Barrier.lean ====
section
/-!
DEFINITION. gbar (R161 to R165, R278 to R282, R381, R383), fence (R156, R283) and drain (R167, R284).
-/
namespace Sys2Proof.Machine

/-- The functions of gbar (R279). -/
inductive BarFn | init | arrive | expect | expa | wait | try
deriving DecidableEq, Repr

def BarFn.waits : BarFn → Bool
  | .wait | .try => true
  | _ => false
def BarFn.arrives : BarFn → Bool
  | .arrive | .expa => true
  | _ => false

/-- gB's reserved bits (R279, R373). DESIGN CHOICE: bits [63:12] of init's operand are reserved, and bits [63:1] of
try's ignored as those of wait's are (assumption log 75). -/
def barOperandBad (fn : BarFn) (b : DWord) : Bool :=
  match fn with
  | .init => b.toNat / 2 ^ 12 ≠ 0
  | .expect | .expa => b.toNat / 2 ^ 35 ≠ 0
  | _ => false

/-- PEND's range (R278). -/
def pendOk (x : Int) : Bool := decide (-2 ^ 35 ≤ x) && decide (x < 2 ^ 35)

/-- BAROP of R280 for init, arrive, expect and expa: the new word, or the misuse of R383. An arrival is misuse where it would
make ARR exceed EXP (R280), also when software has stored an ARR above EXP (assumption log 28). -/
def barOp (fn : BarFn) (w b : DWord) : Except (BitVec 8) DWord :=
  if barRsv w ≠ 0 then .error 0x20
  else match fn with
    | .init =>
      if bits b.toNat 11 0 = 0 then .error 0x20
      else .ok ((w &&& 0x8000000000000000#64) ||| BitVec.ofNat 64 (bits b.toNat 11 0 * 2 ^ 48))
    | .arrive =>
      if barExp w ≤ barArr w then .error 0x20 else .ok (barWith w (barArr w + 1) (barPend w))
    | .expect =>
      let n := barPend w + bits b.toNat 34 0
      if barExp w = 0 || !pendOk n then .error 0x20 else .ok (barWith w (barArr w) n)
    | .expa =>
      let n := barPend w + bits b.toNat 34 0
      if barExp w ≤ barArr w || !pendOk n then .error 0x20 else .ok (barWith w (barArr w + 1) n)
    | .wait | .try => if barFlt w then .error 0x21 else .ok w

/-- Whether entries of the store queue come before a barrier operation: writes to the word, and for one that is no read
the writes to the own core's SRAM (R145, R152). -/
def beforeBar (s : State) (k : Here) (fn : BarFn) (l : Loc) (e : QEntry) : Bool :=
  e.loc.meets e.size l 8 || (!fn.waits && s.onCore k.team.core e.loc && s.onCore k.team.core l)

/-- The scope of a wait's acquire. -/
def Here.barAcquire (k : Here) (s : State) : State :=
  match acqScope k.f with
  | some sc => s.acquire k sc
  | none => s

/-- One gbar at its word (R161, R279 to R281). -/
def barPerform (fn : BarFn) (k : Here) (s : State) (t off : Nat) : Body :=
  let b := k.grp.greg k.f.b.toNat
  let w := s.barWord t off
  match barOp fn w b with
  | .error c => .trap c
  | .ok w' =>
    let s1 := s.nameBar t off
    let ret (s : State) (x : DWord) : State := s.modGroup k.team.uid k.grp.gid fun h => h.setG k.f.d.toNat x
    let par (w : DWord) : DWord := if barPar w then 1 else 0
    let complete := barPar w ≠ b.getLsbD 0
    match fn with
    | .init => .next (s1.setBar t off w')
    | .wait =>
      if complete then .next (k.barAcquire s1)
      else .next (s1.modGroup k.team.uid k.grp.gid fun h => h.modSplit k.sp.id fun p =>
        { p with park := some (.barrier t off (b.getLsbD 0) ((acqScope k.f).isSome) (6 ≤ k.f.m.toNat)) })
    | .try => if complete then .next (ret (k.barAcquire s1) 1) else .next (ret s1 0)
    | _ =>
      let s2 := ret (s1.setBar t off w') (par w)
      .next (if fn.arrives && t = k.team.uid then
          s2.modGroup k.team.uid k.grp.gid fun h => { h with arrivals := h.arrivals + 1, retired := 0 }
        else s2)

/-- gbar (R279): the checks of R373 in the order of R360, the release of R164, then the operation. A word that cannot be corrected is
not rewritten: its error is delivered (R406). -/
def barBody (fn : BarFn) (k : Here) (s : State) : Body :=
  let a : Word := (k.grp.greg k.f.a.toNat).setWidth 32
  if a.toNat % 8 ≠ 0 then .trap 0x10
  else match s.scrPlace k.team a 8 with
    | none => .trap 0x11
    | some (t, off) =>
      if fn.waits && !(s.onCore k.team.core (.scr t off)) then .trap 0x11
      else if barOperandBad fn (k.grp.greg k.f.b.toNat) then .trap 0x19
      else if s.accessWaits k (.scr t off) 8 || (relScope k.f).any fun sc => !s.released k sc then .wait
      else match s.performUpTo k.team k.grp.gid (beforeBar s k fn (.scr t off)) (s.queueOf k) with
        | none => .wait
        | some s1 =>
          if s1.locPoisoned (.scr t off) 8 then .late s1 (s1.poisonAt (a.setWidth 64) (.scr t off))
          else barPerform fn k (match relScope k.f with
          | some sc => s1.protectAt k sc
          | none => s1) t off

def execGbarInit (i : Long) (s : State) := issue (.gbarInit i) s (barBody .init)
def execGbarArrive (i : Long) (s : State) := issue (.gbarArrive i) s (barBody .arrive)
def execGbarExpect (i : Long) (s : State) := issue (.gbarExpect i) s (barBody .expect)
def execGbarExpa (i : Long) (s : State) := issue (.gbarExpa i) s (barBody .expa)
def execGbarWait (i : Long) (s : State) := issue (.gbarWait i) s (barBody .wait)
def execGbarTry (i : Long) (s : State) := issue (.gbarTry i) s (barBody .try)

/-- R114, R121, R156: what a fence at a scope does when it completes. -/
def State.endFence (s : State) (x : Team) (g sc : Nat) : State :=
  let s1 := if sc = 11 then s.protect x.uid g else s
  if 6 ≤ sc then s1.emptyCaches x.core else s1

/-- R156, R283: the split's next instruction waits until every earlier access of the group is complete at the scope; at
system scope the group's lines are at the protected point (R121). -/
def execFence (i : Short) (s : State) :=
  issue (.fence i) s fun k s1 =>
    let sc := bits k.f.a.toNat 3 0
    match s1.group? k.team.uid k.grp.gid with
    | none => .wait
    | some h =>
      if s1.completeAt h s1.uid sc then .next (s1.endFence k.team k.grp.gid sc)
      else .next (s1.fresh.modGroup k.team.uid k.grp.gid fun h => h.modSplit k.sp.id fun p =>
        { p with park := some (.fence sc s1.uid) })

/-- A split whose fence is complete. -/
def State.fenceOver (s : State) (h : Group) (p : Split) : Bool :=
  match p.park with
  | some (.fence sc before) => s.completeAt h before sc
  | _ => false

/-- Fences whose accesses are complete complete, those of splits set aside for a handler too (R283, R369). -/
def State.endFences (s : State) : State :=
  (s.groups.flatMap fun h => ((h.splits ++ h.saved.getD []).filter (s.fenceOver h)).map fun p => (h, p.park)).foldl (fun s e =>
    match s.team? e.1.team, e.2 with
    | some x, some (.fence sc b) =>
      (s.endFence x e.1.gid sc).modGroup x.uid e.1.gid fun h => h.unpark fun p => p.park = some (.fence sc b)
    | _, _ => s) s

/-- Whether a copy is of a drain's class (R284): 0 scratchpad, 1 global destination, 2 both. -/
def Copy.inClass (c : Copy) (cls : Nat) : Bool := cls = 2 || (if cls = 0 then c.dstScr else !c.dstScr)

/-- R284, R167. -/
def execDrain (i : Long) (s : State) :=
  issue (.drain i) s fun k s1 =>
    let cls := bits k.f.f.toNat 1 0
    let us := (s1.copies.filter fun c => c.core = k.team.core && c.inClass cls).map fun c => c.uid
    if us = [] then .next (if cls = 0 then s1 else s1.emptyCaches k.team.core)
    else .next (s1.fresh.modGroup k.team.uid k.grp.gid fun h => h.modSplit k.sp.id fun p =>
      { p with park := some (.copies us (cls ≠ 0) s1.uid) })

end Sys2Proof.Machine
end

