-- ==== Sys2Proof/Machine/Copies.lean ====
section
/-!
DEFINITION. Asynchronous copies (R130 to R136, R165, R166, 04_memory.md and 05_consistency.md; R285 to R288, 09; R379 to
R382, 14): issue, start, permits, landing, credits, faults.
-/
namespace Sys2Proof.Machine

/-! ### The end of a copy -/

def Split.onCopies (live : Nat → Bool) (p : Split) : Bool :=
  match p.park with
  | some (.copies us _ _) => !(us.any live)
  | _ => false
def Split.onGlobalCopies (live : Nat → Bool) (p : Split) : Bool :=
  match p.park with
  | some (.copies us true _) => !(us.any live)
  | _ => false

/-- Drains whose copies have all completed complete (R167, R284). -/
def State.wakeDrains (s : State) : State :=
  let live (u : Nat) : Bool := s.copies.any fun c => c.uid = u
  let cores := (s.groups.filter fun h => h.anySplit (Split.onGlobalCopies live)).filterMap fun h =>
    (s.team? h.team).map fun x => x.core
  cores.foldl State.emptyCaches { s with groups := s.groups.map fun h => h.unpark (Split.onCopies live) }

/-- A copy is over (R133, R380). -/
def State.endCopy (s : State) (u : Nat) : State :=
  ({ s.takeAnswers (0, u) with copies := s.copies.filter fun c => c.uid ≠ u } : State).wakeDrains

/-- Whether a barrier word cannot be corrected (R406). -/
def State.barBad (s : State) (t off : Nat) : Bool := s.locPoisoned (.scr t off) 8

/-- A copy faults, of which nothing is written any more (R380, R382, R406); `va` goes to CFVA (R435). -/
def State.reportCopy (s : State) (c : Copy) (va : DWord) : State :=
  let s1 := s.interrupt 8
  let bar := c.ctx % 16 * 2 ^ 60 + c.barCore * 2 ^ 40 + c.barAddr.toNat
  ({ s1 with mgmt := { s1.mgmt with cfbar := BitVec.ofNat 64 bar, cfva := va } } : State).endCopy c.uid

/-- A copy credit (R280, R383). -/
def State.credit (s : State) (t off n : Nat) : State :=
  let w := s.barWord t off
  let p := barPend w - n
  if barRsv w ≠ 0 || !pendOk p then s.faultBar t off else s.setBar t off (barWith w (barArr w) p)

/-- R380, R382: a copy faults; `va` goes to CFVA (R435). A barrier word that cannot be corrected is not rewritten (R406). -/
def State.faultCopy (s : State) (c : Copy) (va : DWord) : State :=
  (if s.barBad c.bar.1 c.bar.2 then s else s.faultBar c.bar.1 c.bar.2).reportCopy c va

/-- The parts of a tile, cut at 128-byte units, with the unit that holds the copy's last destination byte apart (R379). -/
def Copy.splitParts (c : Copy) (l : List TilePart) : List TilePart × List TilePart :=
  let ps := l.flatMap TilePart.cut
  match ps.find? fun p => p.pos ≤ c.lastPos && c.lastPos < p.pos + p.bytes.length with
  | none => (ps, [])
  | some e => ps.partition fun p => p.va.toNat / 128 ≠ e.va.toNat / 128

/-- The 128-byte units of a tile that were formed before it stopped are written, where they can be; with one that cannot, the
copy's last unit is not (R379, R380). -/
def State.writeUnits (s : State) (c : Copy) (f : Formed) : State :=
  let (early, last) := if f.stop.isSome then ((c.wholeUnits f).flatMap TilePart.cut, []) else c.splitParts f.parts
  let fits (p : TilePart) : Bool := match s.partPieces c [p] with
    | .ok _ => true
    | .error _ => false
  let ps := (if early.all fits then early ++ last else early).flatMap fun p => match s.partPieces c [p] with
    | .ok l => l
    | .error _ => []
  (s.putAll (s.job c.ctx) (copyKey c) ps).2

/-- What stopped a copy: it asks, waits for the host's answer, or faults (R376, R380, R406, R414). -/
def State.copyStops (s : State) (c : Copy) (f : Formed) (g : Got) : State :=
  match g with
  | .fail l =>
    let s1 := if l.code = 0x16 || l.code = 0x17 then s.consumedBy c.ctx l else s
    (s1.writeUnits c f).faultCopy c l.addr
  | .replay va why =>
    (s.modCopy c.uid fun c => { c with stalled := true }).faultRecord c.ctx va 3 why.toNat
      (((s.grid? c.grid).map fun g => g.gridId).getD 0xFFFFFFFF) 0xFFFFFFFF (.copy c.uid va)
  | _ => s.sendAsk (s.job c.ctx) (copyKey c) g

/-! ### Start -/

/-- R382: what is wrong with a descriptor at an origin. DESIGN CHOICE: STRIDE1 and STRIDE2 are tested whatever DIMSM1, as R382 says,
although R128 has the stride of a dimension above DIMSM1 not read (assumption log 75). -/
def descBad (d : Desc) (org : List Nat) : Bool :=
  d.rsv || d.fmt = 15 || d.dimsM1 = 3 || (fmtMx d.fmt && (d.size0 % 32 ≠ 0 || org.getD 0 0 % 32 ≠ 0)) ||
    d.base.toNat % 8 ≠ 0 || d.stride1 % 8 ≠ 0 || d.stride2 % 8 ≠ 0

/-- R131: the pairs of formats of a kind. -/
def pairOk (kind sf df : Nat) : Bool :=
  match kind with
  | 0 => df = sf || (11 ≤ df && df ≤ 14 && fmtWidth df = fmtWidth sf)
  | 1 => sf ≤ 4 && fmtMx df
  | 2 => fmtMx sf && df ≤ 4
  | _ => fmtMx sf && fmtMx df

/-- Whether a dense tile at a team's offset passes the end of its scratchpad. -/
def State.tilePasses (s : State) (base : Nat × Nat) (n : Nat) : Bool :=
  match s.team? base.1 with
  | some x => scratchSize x.partword < base.2 + n
  | none => true

/-- The checks of R382 once the descriptors are read: the address of the descriptor that failed. -/
def State.startFault (s : State) (c : Copy) : Option DWord :=
  let srcBad := c.hasSrcDesc && (descBad c.sdesc c.srcOrg || !pairOk c.kind c.sdesc.fmt c.dfmt ||
    ((c.kind = 1 || c.kind = 3) && c.sdesc.qbase = 0))
  let dstBad := c.hasDstDesc && (descBad c.ddesc c.dstOrg || (c.shape = 2 && c.dfmt ≠ c.ddesc.fmt))
  if srcBad then some c.src
  else if dstBad then some c.dst
  else if c.shape = 0 && s.tilePasses c.dstBase c.total then some c.src
  else if c.shape = 1 && s.tilePasses c.srcBase c.total then some c.dst
  else none

/-- A descriptor, read once as 64 bytes (R136). -/
def State.readDesc (s : State) (c : Copy) (need : Bool) (va : DWord) (have_ : List DWord) : Except Got (List DWord) :=
  if !need || have_ ≠ [] then .ok have_
  else match s.readSpan c.ctx (copyKey c) va 64 with
    | .bytes b => .ok (dwordsOf b)
    | g => .error g

/-- R287: the descriptors are read and checked, and the destination lines are owned; the copy then has its tiles. -/
def State.startCopy (s : State) (u : Nat) : State :=
  match s.copy? u with
  | none => s
  | some c =>
    if c.tiles ≠ [] || c.stalled then s
    else match s.readDesc c c.hasSrcDesc c.src c.srcDesc with
      | .error g => s.copyStops c ⟨[], 0, some (g, [])⟩ g
      | .ok sd => match s.readDesc c c.hasDstDesc c.dst c.dstDesc with
        | .error g => (s.modCopy u fun c => { c with srcDesc := sd }).copyStops { c with srcDesc := sd }
            ⟨[], 0, some (g, [])⟩ g
        | .ok dd =>
          let c1 := { c with srcDesc := sd, dstDesc := dd }
          match s.startFault c1 with
          | some va => s.faultCopy c1 va
          | none =>
            let reads := (if c.hasSrcDesc then [(c.src, 64)] else []) ++ (if c.hasDstDesc then [(c.dst, 64)] else [])
            ((s.takeAnswers (copyKey c)).rekeySpans c.ctx reads).modCopy u fun _ =>
              { c1 with tiles := (List.range c1.tileCount).map fun k =>
                  let (l, m) := s.tileLines c1 k
                  { st := .idle, slot := 0, lines := l, missing := m, waits := [], rest := [] } }

/-! ### Issue -/

/-- An origin in g(r) and g(r + 1) (R285). -/
def Here.originAt (k : Here) (r : Nat) : List Nat :=
  let a := (k.grp.greg r).toNat
  [bits a 31 0, bits a 63 32, bits (k.grp.greg (r + 1)).toNat 31 0]

/-- Reserved values of the conversion word at issue (R131, R286). -/
def convWordBad (shape : Nat) (conv : Nat) : Bool :=
  let kind := bits conv 11 9
  let tr := bits conv 8 8 = 1
  ((shape = 1 || shape = 3) && conv ≠ 0) || 4 ≤ kind || bits conv 15 12 = 15 || bits conv 7 6 = 3 || bits conv 5 0 ≠ 0 ||
    (tr && (kind = 1 || kind = 3 || fmtMx (bits conv 15 12)))

/-- R285 to R287, R373: one cpya of a shape. -/
def cpyaBody (shape : BitVec 2) (k : Here) (s : State) : Body :=
  let va := k.grp.greg k.f.a.toNat
  let vd := k.grp.greg k.f.d.toNat
  let vb := (k.grp.greg k.f.b.toNat).toNat
  let ctl := (k.grp.greg k.f.c.toNat).toNat
  let barAddr : Word := BitVec.ofNat 32 ctl
  let conv := bits ctl 47 32
  let srcScr := shape = 1 || (shape = 3 && k.f.m.getLsbD 0)
  let dstScr := shape = 0 || (shape = 3 && k.f.m.getLsbD 1)
  let count := if shape = 3 then bits vb 39 0 else 0
  let n := if shape = 3 then count else 1
  let place (scr : Bool) (a : DWord) : Option (Nat × Nat) := if scr then s.scrPlace k.team (a.setWidth 32) n else some (0, 0)
  let descA := shape = 0 || shape = 2
  let descD := shape = 1 || shape = 2
  let coreOf (t : Nat) : Nat := ((s.team? t).map fun x => x.core).getD 0
  if 64 ≤ (s.copies.filter fun c => c.core = k.team.core).length || s.behindPoint k || s.blinded k.team.uid k.grp.gid then .wait
  else if barAddr.toNat % 8 ≠ 0 || (descA && va.toNat % 64 ≠ 0) || (descD && vd.toNat % 64 ≠ 0) ||
      (shape = 0 && vd.toNat % 16 ≠ 0) || (shape = 1 && va.toNat % 16 ≠ 0) then .trap 0x10
  else match place srcScr va, place dstScr vd, s.scrPlace k.team barAddr 8 with
    | some src, some dst, some bar =>
      if dstScr && coreOf bar.1 ≠ coreOf dst.1 then .trap 0x11
      else if convWordBad shape.toNat conv || (shape = 3 && bits vb 63 40 ≠ 0) then .trap 0x19
      else if shape = 3 && count = 0 then .next s
      else if !s.released k 7 then .wait
      else
        let c : Copy :=
          { uid := s.uid, ctx := k.team.ctx, grid := k.team.grid, team := k.team.uid, core := k.team.core,
            unit := s.freeAt 6 s.uid % 48, shape := shape, srcScr := srcScr, dstScr := dstScr, src := va, dst := vd,
            srcBase := src, dstBase := dst, srcDesc := [], dstDesc := [],
            srcOrg := if descA then k.originAt k.f.b.toNat else [],
            dstOrg := if shape = 1 then k.originAt k.f.b.toNat else if shape = 2 then k.originAt (k.f.b.toNat + 2) else [],
            count := count, conv := BitVec.ofNat 16 conv, stream := BitVec.ofNat 16 (bits ctl 63 48), bar := bar,
            barAddr := barAddr, barCore := coreOf bar.1, tiles := [], sats := 0, satDone := false, stalled := false }
        .next (({ s.fresh with copies := s.copies ++ [c] } : State).nameBar bar.1 bar.2 |>.startCopy c.uid)
    | _, _, _ => .trap 0x11

def execCpyaB2t (i : Long) (s : State) := issue (.cpyaB2t i) s (cpyaBody 0)
def execCpyaT2b (i : Long) (s : State) := issue (.cpyaT2b i) s (cpyaBody 1)
def execCpyaB2b (i : Long) (s : State) := issue (.cpyaB2b i) s (cpyaBody 2)
def execCpyaFlat (i : Long) (s : State) := issue (.cpyaFlat i) s (cpyaBody 3)

/-! ### Tiles -/

def Copy.setTile (c : Copy) (k : Nat) (t : Tile) : Copy := { c with tiles := c.tiles.set k t }

/-- Whether every tile but `k` is done: the tile that holds the last unit comes last (R379). -/
def Copy.othersDone (c : Copy) (k : Nat) : Bool :=
  c.tiles.zipIdx.all fun t => t.2 = k || t.1.st = .done
def Copy.mayWrite (c : Copy) (k : Nat) : Bool := k ≠ c.lastTile || c.othersDone k

/-- The first tile that is not begun and may be written. -/
def Copy.nextTile (c : Copy) : Option Nat :=
  (List.range c.tiles.length).find? fun k => (c.tiles[k]?.any fun t => t.st = .idle) && c.mayWrite k

/-- The bytes a tile credits (R133). -/
def Copy.tileCredit (c : Copy) (k : Nat) : Nat := c.tileHi k - c.tileLo k

/-- The core whose landing slots a copy uses. -/
def State.landingCore (s : State) (c : Copy) : Nat := ((s.team? c.dstBase.1).map fun x => x.core).getD 0

/-- Landing slots of a core that are reserved, by a copy unit or in all (R132). -/
def State.slotsUsed (s : State) (core : Nat) (which : Copy → Bool) : List Nat :=
  (s.copies.filter fun c => c.dstScr && which c && s.landingCore c = core).flatMap fun c =>
    (c.tiles.filter fun t => t.st = .granted || t.st = .sent).map fun t => t.slot

/-- The landing slot a permit reserves: the lowest that is free (assumption log 59). -/
def State.freeSlot (s : State) (core : Nat) : Option Nat :=
  (List.range 16).find? fun n => !(s.slotsUsed core fun _ => true).contains n

/-- PERMIT_GRANT (R132): the copy's first tile that has none gets a landing slot. -/
def execPermitGrant (u : Nat) (s0 : State) : Host.Outcome State Fault Refusal :=
  let s := s0.startCopy u
  match s.copy? u with
  | none => .next s
  | some c =>
    let core := s.landingCore c
    match c.nextTile with
    | none => .next s
    | some k =>
      match s.freeSlot core with
      | none => .next s
      | some n =>
        if !c.dstScr || c.stalled || 4 ≤ (s.slotsUsed core fun d => d.unit = c.unit).length then .next s
        else .next (s.modCopy u fun c => { c with tiles := c.tiles.modify k fun t => { t with st := .granted, slot := n } })

/-- A tile's bytes are performed: they are credited, and with the last tile the copy completes (R133, R165). A copy unit that meets a
barrier word that cannot be corrected is given the error, and the word is not written (R406, assumption log 74). -/
def State.creditTile (s : State) (c : Copy) (k : Nat) : State :=
  if s.barBad c.bar.1 c.bar.2 then
    (s.consumedBy c.ctx (s.poisonAt (c.barAddr.setWidth 64) (.scr c.bar.1 c.bar.2))).reportCopy c (c.barAddr.setWidth 64)
  else
    let s1 := (s.modCopy c.uid fun c => c.setTile k { st := .done, slot := 0, lines := [], missing := [], waits := [], rest := [] }
      ).credit c.bar.1 c.bar.2 (c.tileCredit k)
    if c.othersDone k then s1.endCopy c.uid else s1

/-- Whether a copy's saturation count is still to be added when tile `k` has been written (R131). -/
def Copy.satDue (c : Copy) (k : Nat) : Bool :=
  c.othersDone k && (c.kind = 1 || c.kind = 3) && c.sdesc.sat ≠ 0 && !c.satDone

/-- What is left of a tile whose first units are written: the copy's last unit (R379), the saturation count (R131), then the
credit; each once what peers were sent before is answered for (R134, R414). -/
def State.finishTile (s : State) (c : Copy) (k : Nat) (t : Tile) : State :=
  let next (s : State) (w : List Nat) (t : Tile) (c : Copy) : State :=
    s.modCopy c.uid fun _ => c.setTile k { t with waits := w }
  if t.rest ≠ [] then
    match s.partPieces c (t.rest.map fun r => ⟨r.1, r.2.1, r.2.2⟩) with
    | .error g => s.copyStops c ⟨[], 0, none⟩ g
    | .ok ps =>
      let (w, s1) := s.putAll (s.job c.ctx) (copyKey c) ps
      next s1 w { t with rest := [], lines := [], missing := [] } c
  else if c.satDue k then
    match s.countPlace c.ctx c.sdesc.sat with
    | .error g => s.copyStops c ⟨[], 0, none⟩ g
    | .ok l =>
      let (w, s1) := s.addCount (s.job c.ctx) (copyKey c) c.sdesc.sat l c.sats
      next s1 w t { c with satDone := true }
  else s.creditTile c k

/-- A tile goes on as far as it can without an answer of a peer: three steps at most. -/
def State.sentTile (s : State) (u k : Nat) : Nat → State
  | 0 => s
  | n + 1 => match s.copy? u with
    | none => s
    | some c => match c.tiles[k]? with
      | none => s
      | some t =>
        if t.st ≠ .sent || c.stalled || s.fabric.requests.any fun r => t.waits.contains r.tag then s
        else (s.finishTile c k t).sentTile u k n

/-- A tile is formed and written; its credit follows at once unless a peer must answer first (R132, R134). -/
def State.writeTile (s : State) (c : Copy) (k : Nat) : State :=
  let f := s.formTile c k
  let (early, last) := c.splitParts f.parts
  match f.stop with
  | some (g, _) => s.copyStops c f g
  | none => match s.partPieces c (if early = [] then last else early), s.partPieces c last with
    | .error g, _ | _, .error g => s.copyStops c f g
    | .ok ps, .ok _ =>
      let (w, s1) := ((s.takeAnswers (copyKey c)).rekeySpans c.ctx (c.tileReads k)).putAll (s.job c.ctx) (copyKey c) ps
      (s1.modCopy c.uid fun c => { c with
        sats := c.sats + f.sats,
        tiles := c.tiles.modify k fun t => { t with
          st := .sent, lines := if early = [] || last = [] then [] else t.lines, missing := [], waits := w,
          rest := if early = [] then [] else last.map fun p => (p.pos, p.va, p.bytes) } }).sentTile c.uid k 3

/-- A write of a copy at a peer or at the host failed (R414, R415): the copy faults. -/
def State.copyWriteFails (s : State) (c : Copy) (l : LateCause) : State := (s.consumedBy c.ctx l).faultCopy c l.addr

/-- TILE_LANDING (R132, R165): a tile with a permit is written into the destination scratchpad and credited. -/
def execTileLanding (u k : Nat) (s : State) : Host.Outcome State Fault Refusal :=
  match s.copy? u with
  | none => .next s
  | some c => match c.tiles[k]? with
    | none => .next s
    | some t =>
      if !c.dstScr || c.stalled then .next s
      else if t.st = .granted then .next (s.writeTile c k)
      else if t.st = .sent then .next (s.sentTile u k 3)
      else .next s

/-- COPY_CREDIT (R132, R165): a tile of a copy with a global destination is performed and credited. -/
def execCopyCredit (u k : Nat) (s0 : State) : Host.Outcome State Fault Refusal :=
  let s := s0.startCopy u
  match s.copy? u with
  | none => .next s
  | some c => match c.tiles[k]? with
    | none => .next s
    | some t =>
      if c.dstScr || c.stalled then .next s
      else if t.st = .idle && c.mayWrite k then .next (s.writeTile c k)
      else if t.st = .sent then .next (s.sentTile u k 3)
      else .next s

/-- FAIL of a copy's replayable fault at an address (R378, R380): the units that its stopped tile had formed stand. -/
def State.failCopy (s : State) (u : Nat) (va : DWord) : State :=
  match s.copy? u with
  | none => s
  | some c =>
    let k := (c.tiles.zipIdx.filter fun t => (t.1.st = .granted || (t.1.st = .idle && !c.dstScr && c.mayWrite t.2)) &&
      ((s.formTile c t.2).stop.isSome || !(s.partPieces c (s.formTile c t.2).parts).toOption.isSome)).head?
    let s1 := match k with
      | some (_, k) => s.writeUnits c (s.formTile c k)
      | none => s
    s1.faultCopy c va

end Sys2Proof.Machine
end

