-- ==== Sys2Proof/Machine/Fabric.lean ====
section
/-!
DEFINITION. The fabric (R294, R295, 09_isa_memory.md; R323 to R329, 11_fabric_host.md; R412 to R415, 15): coll, requests
of peers and answers to this device's, timeouts, and port states.
-/
namespace Sys2Proof.Machine

/-! ### coll -/

/-- Lane `l`'s remote address, peer and data (R294). -/
def Here.collAddr (k : Here) (l : Nat) : DWord := k.src 2 k.f.a.toNat k.f.ka l
def Here.collPeer (k : Here) (l : Nat) : Nat := bits (k.src 1 k.f.b.toNat k.f.kb l).toNat 9 0
def Here.collData (k : Here) (l : Nat) : DWord := k.src (atomSize (atomTyOf (ctlType k.f.c)) / 4) k.f.d.toNat false l

/-- The packets of R328: for each peer and 256-byte region, the lanes in ascending order; or where an ordering stands between the lanes
(R151, R155), only lanes that follow one another (assumption log 70). -/
def runsOf (key : Nat → Nat × Nat) : List Nat → List (List Nat)
  | [] => []
  | l :: ls => match runsOf key ls with
    | (m :: r) :: rest => if key l = key m then (l :: m :: r) :: rest else [l] :: (m :: r) :: rest
    | _ => [[l]]
def bundlesOf (ordered : Bool) (key : Nat → Nat × Nat) (lanes : List Nat) : List (List Nat) :=
  if ordered then runsOf key lanes else ((lanes.map key).eraseDups).map fun e => lanes.filter fun l => key l = e

/-- What a lane names: its peer and region. -/
def Here.collKey (k : Here) (l : Nat) : Nat × Nat := (k.collPeer l, (k.collAddr l).toNat / 256)

/-- The accesses of coll: a packet for each bundle of lanes that name a peer, with their parts; for lanes that name this device, each
its own. -/
def Here.collSites (k : Here) (own : Nat) (ordered : Bool) (near : List Site) : List (Site × List LanePart) :=
  (bundlesOf ordered k.collKey (laneList k.mask)).flatMap fun b => match b with
    | [] => []
    | l :: _ =>
      if k.collPeer l = own then (near.filter fun e => b.contains e.lane).map fun e => (e, [])
      else
        let parts := b.map fun l => { lane := l, offset := (k.collAddr l).toNat % 256, data := k.collData l : LanePart }
        let lo := parts.foldl (fun m p => min m p.offset) 256
        let va := (k.collAddr l).toNat / 256 * 256 + lo
        [(⟨l, BitVec.ofNat 64 va, partsSpan (packetSize k.f.c) parts, .remote (k.collPeer l) va⟩, parts)]

/-- COLL of R294: `form` 0 put, 1 get, 2 red. Lanes whose peer is this device are performed here through the same
translation, as the accesses of a load, store, reduction or atomic; a packet goes out when it is performed. -/
def collBody (form : BitVec 2) (k : Here) (s : State) : Body :=
  let ty := atomTyOf (ctlType k.f.c)
  let op := atomOpOf (ctlOp k.f.c)
  let n := atomSize ty
  let lanes := laneList k.mask
  let own := s.fabric.deviceId.toNat
  let near := lanes.filter fun l => k.collPeer l = own
  let unknown := lanes.any fun l => k.collPeer l ≠ own && !(s.fabric.topology.any fun e => e.1 = k.collPeer l)
  let bad (l : Loc) : Option (BitVec 8) := if form = 2 then atomTarget op ty l else none
  if lanes.any fun l => (k.collAddr l).toNat % n ≠ 0 then .trap 0x10
  else match s.probes k true (if form = 1 then .read else .write) n bad (near.map fun l => (l, n, k.collAddr l)) with
    | .error (.trap c) => .trap c
    | .error b => if unknown then .trap 0x19 else b
    | .ok sites =>
      if unknown then .trap 0x19
      else
        let acq := acqScope k.f
        let rel := relScope k.f
        let s1 := s.noteSites k true sites
        let l := k.collSites own (acq.isSome || rel.isSome) sites
        .next (if form = 1 || acq.isSome then
          s1.addAccesses k (if form = 1 then k.dests (n / 4) else [])
            (.loaded (if form ≠ 1 then 7 else if n = 8 then 5 else 4) false k.f.d.toNat) acq rel
            (l.zipIdx.map fun (e, i) => ⟨i, e.1.lane, e.1.va, e.1.n, e.1.loc,
              if e.2 ≠ [] then .packet k.f.c form e.2 else if form = 1 then .fresh else .atomic op ty (k.collData e.1.lane) 0⟩)
        else s1.enqueue k rel (l.map fun e => (e.1,
          if e.2 ≠ [] then QOp.packet k.f.c form e.2
          else if form = 2 then QOp.reduce op ty (k.collData e.1.lane) else QOp.write (leBytes n (k.collData e.1.lane).toNat))))

def execCollPut (i : Long) (s : State) := issue (.collPut i) s (collBody 0)
def execCollGet (i : Long) (s : State) := issue (.collGet i) s (collBody 1)
def execCollRed (i : Long) (s : State) := issue (.collRed i) s (collBody 2)

/-! ### Publications -/

/-- Whether every window write that a FetchAdd covers has been sent (R140, R343, R418). -/
def State.coveredSent (s : State) (f : FetchAdd) : Bool :=
  !(s.groups.any fun h => h.queue.any fun e => f.covers.contains e.uid) && !s.coveredAsked f

def State.dropFetchAdd (s : State) (id : Nat) : State :=
  { s with host := { s.host with fetchAdds := s.host.fetchAdds.filter fun f => f.id ≠ id } }

/-- The counter is raised by 1 at the host; its value after the add. -/
def State.countVersion (s : State) (pa : Nat) : DWord × State :=
  let v := (leNat (s.hostRead pa 8) + 1) % 2 ^ 64
  (BitVec.ofNat 64 v, s.hostWrite pa (leBytes 8 v))

/-- A publication that issues no FetchAdd any more: pub raises 0x17 and writes nothing, and PUBLISH stops its stream (R418, R440). -/
def State.endFetchAdd (s : State) (f : FetchAdd) : State :=
  let s1 := s.dropFetchAdd f.id
  match f.stream with
  | none => s1.modResult f.team f.grp f.result fun r =>
      { r with waits := r.waits.filter (· ≠ f.id), fail := some (r.fail.getD (failCause f.va none 0 false)) }
  | some n => match (s1.stream n).wait with
    | .publish k _ => if k = f.id then (s1.dropAnswers n).stopStream n 5 0 (s1.stream n).pc else s1
    | _ => s1

/-- R418: a publication when the link goes down. One whose covered writes have not all been sent issues no FetchAdd; of
another it is not known whether it was made. -/
def State.failFetchAdd (s : State) (f : FetchAdd) : State :=
  (if s.coveredSent f && s.freeAt 3 f.id % 2 ≠ 0 then (s.countVersion f.pa).2 else s).endFetchAdd f

/-! ### Answers to this device's requests -/

def State.request? (s : State) (tag : Nat) : Option Request := s.fabric.requests.find? fun r => r.tag = tag

def State.dropRequest (s : State) (tag : Nat) : State :=
  { s with fabric := { s.fabric with requests := s.fabric.requests.filter fun r => r.tag ≠ tag } }

/-- An answer is kept for the agent that asked, with the port that the request used. -/
def State.keepAnswer (s : State) (key : Nat × Nat) (va : DWord) (port : Nat) (r : Option Response) : State :=
  { s with fabric := { s.fabric with fetched := s.fabric.fetched ++ [(key, va, port, r)] } }

/-- Write `e` of a team to a host window did not reach the host: no publication covers it, and one that does issues no FetchAdd
(R418). -/
def State.loseWindowWrite (s0 : State) (t e : Nat) : State :=
  let s := (s0.host.fetchAdds.filter fun f => f.covers.contains e).foldl State.endFetchAdd s0
  let s1 := s.modTeam t fun x => { x with lostWrites := true }
  match (s.team? t).bind fun x => s.grid? x.grid with
  | some g => s1.modStream g.stream fun x => { x with lostWrites := x.lostWrites || x.gen = g.gen }
  | none => s1

/-- An engine's write at a peer or at the host has failed (R380, R416, R441). -/
def State.engineWriteFails (s : State) (uid : Nat) (c : LateCause) : State :=
  match s.copy? uid with
  | some y => s.copyWriteFails y c
  | none => match s.cores.findSome? fun y => (y.engine.find? fun o => o.uid = uid).map fun o => (y.id, o) with
    | some (core, o) => s.failOp core o c
    | none => match s.coll? uid with
      | some y => s.collWriteFails y c
      | none => s

/-- A request has failed with a cause; `r` is what an agent that asked is told (R406, R414, R415). -/
def State.failRequest (s : State) (q : Request) (c : LateCause) (r : Option Response) : State :=
  let s1 := s.dropRequest q.tag
  match q.use with
  | .load t g uid _ _ _ =>
    s1.modResult t g uid fun x => { x with waits := x.waits.filter (· ≠ q.tag), fail := some (x.fail.getD c) }
  | .store t g p e window _ pc => (if window then s1.loseWindowWrite t e else s1).lateFrom t g (some p) pc c
  | .read key va => s1.keepAnswer key va q.port r
  | .write key _ => s1.engineWriteFails key.2 c

/-- The virtual address a request was made for. -/
def ReqUse.va : ReqUse → DWord
  | .load _ _ _ _ _ va | .store _ _ _ _ _ va _ | .read _ va | .write _ va => va

/-- The bytes that an answer brings to a result: one access, or one for each lane of a packet, a dword each. -/
def Request.brings (q : Request) (idx lane : Nat) (b : List Byte) : List (Nat × Nat × List Byte) :=
  match q.ask with
  | .coll _ _ parts => parts.zipIdx.map fun p => (idx + p.2, p.1.lane, (b.drop (8 * p.2)).take 8)
  | .read _ | .write _ | .masked _ | .atomic _ _ _ _ => [(idx, lane, b)]

/-- A request over the host link has been performed at the host, with the old value that the answer brings (R143, R418). -/
def State.performAtHost (s : State) (q : Request) (b : List Byte) : State :=
  match q.dev, q.ask with
  | none, .write d => s.hostWrite q.addr d
  | none, .masked parts => parts.foldl (fun s p => s.hostWrite (q.addr + p.1) p.2) s
  | none, .atomic op ty x sv =>
    let n := atomSize ty
    match atomNew op ty (leNat (b.take n)) (x.toNat % 2 ^ (8 * n)) (sv.toNat % 2 ^ (8 * n)) with
    | some y => s.hostWrite q.addr (leBytes n y)
    | none => s
  | _, _ => s

/-- A request is answered with data (R187, R329). -/
def State.answerRequest (s : State) (q : Request) (b : List Byte) : State :=
  let s1 := (s.performAtHost q b).dropRequest q.tag
  match q.use with
  | .load t g uid idx lane _ =>
    s1.modResult t g uid fun x => { x with waits := x.waits.filter (· ≠ q.tag), raw := x.raw ++ q.brings idx lane b }
  | .store _ _ _ _ _ _ _ | .write _ _ => s1
  | .read key va => s1.keepAnswer key va q.port (some (.data b))

/-- PEER_RESPONSE (R406, R415) to a request or to a chunk packet, by its tag. -/
def execPeerResponse (tag : Nat) (r : Response) (s : State) : Host.Outcome State Fault Refusal :=
  .next (match s.request? tag with
    | none => s.chunkAnswered tag r
    | some q =>
      if q.dev.isNone && !s.host.linkUp then s
      else match r with
        | .data b => s.answerRequest q b
        | .failure => s.failRequest q (failCause q.use.va q.dev q.port true) (some .failure)
        | .poisoned => s.failRequest q (poisonedCause q.use.va q.dev q.port) (some .poisoned))

/-- GET_RESPONSE (R327, R329): the data of a coll.get, a dword for each lane of its packet. -/
def execGetResponse (tag : Nat) (data : List DWord) (s : State) : Host.Outcome State Fault Refusal :=
  .next (match s.request? tag with
    | some q => match q.ask with
      | .coll _ _ _ => s.answerRequest q (data.flatMap fun d => leBytes 8 d.toNat)
      | _ => s
    | none => s)

/-- Whether a request's peer is unreachable, or its answer is overdue (R414, R418). -/
def State.overdue (s : State) (q : Request) : Bool :=
  q.deadline ≤ s.devclk.toNat || (match q.dev with
    | some d => s.portsTo d = []
    | none => false)

/-- R414: a request that an unreachable peer leaves unanswered fails; whether it was performed is not known. -/
def State.expireRequest (s : State) (q : Request) : State :=
  if s.overdue q then s.failRequest q (failCause q.use.va q.dev q.port false) none else s

/-- PEER_TIMEOUT (R414): of a request or of a chunk packet, by its tag; the packet's collective then fails (R416). -/
def execPeerTimeout (tag : Nat) (s : State) : Host.Outcome State Fault Refusal :=
  .next (match s.request? tag with
    | some q => s.expireRequest q
    | none => match s.colls.find? fun c => c.kept.any fun e => e.packet.tag = tag && e.deadline.any (· ≤ s.devclk.toNat) with
      | some c =>
        if c.stage = 3 then s.modColl c.uid fun c => { c with kept := c.kept.filter fun e => e.packet.tag ≠ tag }
        else s.failColl c.uid 1
      | none => s)

/-! ### Ports -/

/-- The code of a port state (R412). -/
def portCode : PortState → Nat
  | .up => 0
  | .slow => 1
  | .down => 2

/-- R413: a request that went by a port that is down is sent again over another of the set; with none the peer is
unreachable (R414). -/
def State.resend (s : State) (port : Nat) (q : Request) : State :=
  match q.dev with
  | none => s
  | some d =>
    if q.port ≠ port then s
    else match s.portsTo d with
      | [] => s.expireRequest q
      | p :: _ =>
        let q' := { q with port := p }
        { s with fabric := { s.fabric with requests := s.fabric.requests.map fun r => if r.tag = q.tag then q' else r,
                                           outbox := s.fabric.outbox ++ [.request q'] } }

/-- R417: chunks that a collective keeps for a device reached by the port are sent again whole. -/
def State.resendChunks (s : State) (port : Nat) (c : Coll) : State :=
  let set (d : Nat) : List Nat := ((s.fabric.topology.find? fun e => e.1 = d).map fun e => e.2).getD []
  c.kept.foldl (fun s e => if (set e.dev).contains port && s.reachable e.dev then s.emit e.dev e.kind e.packet else s) s

/-- R338, R416, R417: what a port's loss of bandwidth means for a collective: it fails where a rank is cut off; else chunks that the
port carried go out again, and those that have not completed, or not started where the port is not down, are planned anew. -/
def State.portWorse (s : State) (port : Nat) (down : Bool) (u : Nat) : State :=
  match s.coll? u with
  | none => s
  | some c =>
    if c.failing.isSome then s
    else match s.cutFrom c c.map with
      | some r => s.cutOff c r
      | none =>
        let s1 := if down then s.resendChunks port c else s
        s1.replan c fun k => if down then !c.finished k else !c.begun k

/-- PORT_STATE_CHANGE (R412 to R414, R417), at a port that is fitted (R2). -/
def execPortStateChange (port : Nat) (st : PortState) (s : State) : Host.Outcome State Fault Refusal :=
  if 36 ≤ port || s.fabric.ports.getD port .down = st || (st ≠ .down && !portsFitted) then .next s
  else
    let peers := (s.fabric.topology.filter fun e => e.2.contains port).map fun e => e.1
    let peer := peers.getD (s.freeAt 11 port % peers.length) 0
    let s1 := ({ s with fabric := { s.fabric with ports := s.fabric.ports.set port st } } : State).report 2 0x06 port 0
      (portCode st * 2 ^ 10 + peer) s.openAddr
    if st = .up || s.fabric.ports.getD port .down = .down then .next s1
    else
      let s2 := if st = .down then s1.fabric.requests.foldl (fun s q => s.resend port q) s1 else s1
      .next ((s2.colls.map fun c => c.uid).foldl (fun s u => s.portWorse port (st = .down) u) s2)

/-! ### Requests of peers -/

/-- R406: a peer's request or a host read that meets poison; the record is written here. -/
def State.poisonServed (s : State) (ctx pa : Nat) : State :=
  s.report 4 0x03 (homeSlice pa) ctx (s.freeAt 7 pa) (BitVec.ofNat 64 pa)

/-- Bytes that a request names. -/
def peerAskSize : PeerAsk → Nat
  | .read n => n
  | .write b => b.length
  | .atomic _ ty _ _ => atomSize ty

/-- R155, R323: writes of peers are at the protected point when they are answered, so that a release at system scope of the
sender need only wait for its answers (assumption log 61). -/
def State.protectPlaces (s : State) (l : List (Loc × Nat)) : State :=
  s.writeBackLines (s.storage.dirty.filter fun d => l.any fun e => match e.1 with
    | .mem pa _ _ => (linesOf pa e.2).contains d
    | .peer _ _ | .remote _ _ | .host _ | .window _ | .scr _ _ => false)

/-- Whether a peer's access to a place waits here (R117, R166, R344). -/
def State.servedLater (s : State) (l : Loc) (n : Nat) : Bool :=
  s.locHeld l n || s.copies.any fun c => !c.dstScr && c.tiles = []

/-- PEER_ACCESS_REQUEST (R108, R325, R406, R413, R415): performed at this device's home slices with no key. -/
def execPeerAccessRequest (r : PeerReq) (s : State) : Host.Outcome State Fault Refusal :=
  let src := r.source.toNat
  .next (match s.kept? src r.tag with
    | some a => s.respond none src r.tag a
    | none => match s.ctxOf r.job with
      | none => s.refuse src r.tag
      | some c =>
        let n := peerAskSize r.ask
        let loc : Loc := .mem r.pa none .home
        if !s.pageExists r.pa || !s.pageExists (r.pa + (n - 1)) then s.refuse src r.tag
        else if s.servedLater loc n then s
        else match r.ask with
          | .read _ =>
            if s.poisoned r.pa n then (s.poisonServed c.id r.pa).complete none src r.tag .poisoned
            else (s.rekeyMem none r.pa n).complete none src r.tag (.data (s.peek loc n))
          | .write b => ((s.placeBytes loc b).protectPlaces [(loc, n)]).complete none src r.tag (.data [])
          | .atomic op ty b sv =>
            if s.poisoned r.pa n then (s.poisonServed c.id r.pa).complete none src r.tag .poisoned
            else
              let old := leNat (s.peek loc n)
              let s1 := match atomNew op ty old (b.toNat % 2 ^ (8 * n)) (sv.toNat % 2 ^ (8 * n)) with
                | some x => (s.placeBytes loc (leBytes n x)).protectPlaces [(loc, n)]
                | none => s.rekeyMem none r.pa n
              s1.complete none src r.tag (.data (leBytes n old)))

/-! ### coll packets of peers -/

/-- What keeps a packet from being performed: a walk that waits, a failure response (R415), poison that a walk met (R406). -/
inductive PacketStop
  | held
  | refused
  | poisoned (ctx pa : Nat)
deriving DecidableEq, Repr

/-- The places of a packet's lanes in the context that its JOB binds; refused too where a lane's place is no memory of this
device or of its host. -/
def State.packetPlaces (s : State) (p : CollPacket) (write : Bool) (bad : Loc → Bool) :
    Except PacketStop (Nat × List (LanePart × Loc)) :=
  match s.ctxOf p.job with
  | none => .error .refused
  | some c =>
    let l := p.parts.map fun q => (q, s.probe c.id (p.base + BitVec.ofNat 64 q.offset) (if write then .write else .read))
    if l.any fun e => e.2 = .held then .error .held
    else if l.any fun e => match e.2 with
      | .ok loc => bad loc || s.isRemote loc
      | .poison _ | .held => false
      | .cause _ | .replay _ => true then .error .refused
    else match l.findSome? fun e => match e.2 with
      | .poison pa => some pa
      | _ => none with
    | some pa => .error (.poisoned c.id pa)
    | none => .ok (c.id, l.filterMap fun e => match e.2 with
      | .ok loc => some (e.1, loc)
      | _ => none)

/-- A coll packet arrives (R325, R328, R413, R415): its lanes are performed in ascending order. `f` acts on one lane and
gives the bytes that go back. -/
def State.packet (s : State) (p : CollPacket) (write reads get : Bool) (bad : Loc → Bool)
    (f : State → LanePart → Loc → List Byte × State) : State :=
  let src := p.source.toNat
  let n := atomSize (atomTyOf (ctlType p.ctl))
  let asked := if get then some p else none
  match s.kept? src p.tag with
  | some a => s.respond asked src p.tag a
  | none => match s.packetPlaces p write bad with
    | .error .held => s
    | .error .refused => s.refuse src p.tag
    | .error (.poisoned ctx pa) => (s.poisonServed ctx pa).complete none src p.tag .poisoned
    | .ok (ctx, l) =>
      if l.any fun e => s.servedLater e.2 n then s
      else match (if reads then l.find? fun e => s.locPoisoned e.2 n else none) with
        | some e => (s.poisonServed ctx e.2.addr).complete none src p.tag .poisoned
        | none =>
          let (b, s1) := l.foldl (fun a e =>
            let r := f a.2 e.1 e.2
            (a.1 ++ r.1, r.2)) ([], s.rekeySpans ctx (l.map fun e => (p.base + BitVec.ofNat 64 e.1.offset, n)))
          (if write then s1.protectPlaces (l.map fun e => (e.2, n)) else s1).complete asked src p.tag (.data b)

/-- PUT (R327). -/
def execPut (p : CollPacket) (s : State) : Host.Outcome State Fault Refusal :=
  let n := atomSize (atomTyOf (ctlType p.ctl))
  .next (s.packet p true false false (fun _ => false) fun s q l => ([], s.placeBytes l (leBytes n q.data.toNat)))

/-- GET (R327): a dword for each lane goes back. -/
def execGet (p : CollPacket) (s : State) : Host.Outcome State Fault Refusal :=
  let n := atomSize (atomTyOf (ctlType p.ctl))
  .next (s.packet p false true true (fun _ => false) fun s _ l => (leBytes 8 (leNat (s.peek l n)), s))

/-- REMOTE_REDUCTION (R276, R327). -/
def execRemoteReduction (p : CollPacket) (s : State) : Host.Outcome State Fault Refusal :=
  let ty := atomTyOf (ctlType p.ctl)
  let op := atomOpOf (ctlOp p.ctl)
  let n := atomSize ty
  .next (s.packet p true true false (fun l => (atomTarget op ty l).isSome) fun s q l =>
    match atomNew op ty (leNat (s.peek l n)) (q.data.toNat % 2 ^ (8 * n)) 0 with
    | some x => ([], s.placeBytes l (leBytes n x))
    | none => ([], s))

end Sys2Proof.Machine
end

