-- ==== Sys2Proof/Machine/Traps.lean ====
section
/-!
DEFINITION. Events of 14_faults_traps.md and R98 (03_execution.md): words that are no instruction (R362, R363), timer traps,
handler entry and resume, answers to fault records (R378), the end of a drain (R389, R390) and forced resets (R393, R394).
-/
namespace Sys2Proof.Machine

/-- R362, R363: the fetched word raises its cause at issue and changes nothing. -/
def execUndefinedEncoding (cause : BitVec 8) (s : State) : Host.Outcome State Fault Refusal :=
  match s.issuing with
  | some (x, h, p) =>
    if !mayIssue x h p || windowWaits h p then .next s else .next (s.raise x.uid h.gid (some p.id) cause p.pc)
  | none => .fault .noIssuer

/-- Whether a team's timer has run out (R98). -/
def State.timerDue (s : State) (x : Team) : Bool :=
  x.timer ≠ 0 && !x.ended && s.ctxs.any fun c => c.id = x.ctx && x.timer ≤ c.ctxclk

/-- TIMER_TRAP (R98). -/
def execTimerTrap (t : Nat) (s : State) : Host.Outcome State Fault Refusal :=
  .next (match s.team? t with
    | some x => if s.timerDue x then s.raiseTimer t else s
    | none => s)

/-- HANDLER_ENTRY (R361, R366 to R368, R372). -/
def execHandlerEntry (t : Nat) (s : State) : Host.Outcome State Fault Refusal := .next (s.enterHandlers t)

/-- TEAM_RESUME (R361, R370, R371). -/
def execTeamResume (t : Nat) (s : State) : Host.Outcome State Fault Refusal := .next (s.resumeTeam t)

/-! ### Answers to fault records -/

/-- The fault record of an answer is no longer outstanding. -/
def State.dropFault (s : State) (seq : Nat) : State :=
  { s with mgmt := { s.mgmt with faults := s.mgmt.faults.filter fun f => f.seq ≠ seq } }

/-- FQANS RETRY (R378): every joined access is walked again when it is made again. An answer to a record that is not
outstanding is ignored (R394). -/
def execFqansRetry (seq : BitVec 63) (s : State) : Host.Outcome State Fault Refusal :=
  .next (match s.mgmt.faults.find? fun f => f.seq = seq.toNat with
    | none => s
    | some f => (f.joined.foldl State.retryJoiner (s.dropFault seq.toNat)).pruneFaults)

/-- The split at which a group's stalled access stands: the one that made it, or where that has merged the lowest. -/
def Group.stalledSplit (h : Group) (p : Nat) : Option Split :=
  match h.split? p with
  | some q => some q
  | none => (h.splits.mergeSort fun a b => a.id ≤ b.id).head?

/-- R378: FAIL reaches one joined access. A halted group's access has been abandoned (R367). -/
def State.failJoiner (s : State) (j : Joiner) : State :=
  match j with
  | .group t g p code => match s.team? t, s.group? t g with
    | some x, some h =>
      if x.halted && !x.handler then s
      else match h.stalledSplit p with
        | some q => (s.modGroup t g fun h => { h with stalled := false }).raise t g (some q.id) code q.pc
        | none => s
    | _, _ => s
  | .copy u va => s.failCopy u va
  | .engine core o code va => match (s.core core).engine.find? fun e => e.uid = o with
    | some e => s.failOp core e (plainCause code va)
    | none => s
  | .coll u => s.failCollAccess u
  | .stream n => match (s.stream n).wait with
    | .page _ => (s.dropAnswers n).stopStream n 5 0 (s.stream n).pc
    | _ => s
  | .hostCopy n pc => match (s.stream n).copies.zipIdx.find? fun e => e.1.pc = pc && e.1.stalled with
    | some (c, i) => s.failHostCopy n i c
    | none => s

/-- FQANS FAIL (R378). -/
def execFqansFail (seq : BitVec 63) (s : State) : Host.Outcome State Fault Refusal :=
  .next (match s.mgmt.faults.find? fun f => f.seq = seq.toNat with
    | none => s
    | some f => (f.joined.foldl State.failJoiner (s.dropFault seq.toNat)).pruneFaults)

/-! ### Forced resets -/

/-- A context's phase changes; a change sets IRQ[5] (R435). -/
def State.setPhase (s : State) (ctx : Nat) (p : Phase) : State :=
  if s.ctxs.any fun c => c.id = ctx && c.phase ≠ p then (s.modCtx ctx fun c => { c with phase := p }).interrupt 0x20 else s

/-- A dropped grid's forming groups and reservations go with it. -/
def State.dropGrids (s : State) (which : Grid → Bool) : State :=
  let us := (s.grids.filter which).map fun g => g.uid
  { s with
    grids := s.grids.filter fun g => !(which g),
    cores := s.cores.map fun c => { c with forming := c.forming.filter fun f => !(us.contains f.grid) },
    reservations := s.reservations.filter fun r => !(us.contains r.1) }

/-- Every running stream of a context stops with an error (R394, R421). -/
def State.stopStreams (s : State) (which : Stream → Bool) (err : BitVec 8) : State :=
  (List.range 64).foldl (fun s n =>
    let x := s.stream n
    if x.running && which x then (s.dropAnswers n).stopStream n err 0 x.pc else s) s

/-- R394: the FetchAdds of a context's PUBLISH commands are issued whole or not at all. -/
def State.settlePublishes (s : State) (ctx : Nat) : State :=
  let mine (f : FetchAdd) : Bool := match f.stream with
    | some n => (s.stream n).ctx = ctx
    | none => false
  let s1 := (s.host.fetchAdds.filter mine).foldl (State.settleFetchAdd s) s
  { s1 with host := { s1.host with fetchAdds := s1.host.fetchAdds.filter fun f => !(mine f) } }

/-- R394: the streams of a context that a pre-emption has stopped (R388) stop with error 7 as well. -/
def State.endStopped (s : State) (ctx : Nat) : State :=
  (((s.ctx? ctx).map fun c => c.stopped).getD []).foldl (fun s e =>
    if (s.stream e.1).running || (s.stream e.1).ctx ≠ ctx then s else s.stopStream e.1 7 0 e.2) s

/-- R394: every work of a context ends, as the table there says. -/
def State.endWork (s : State) (ctx : Nat) : State :=
  let s0 := s.settlePublishes ctx
  let s1 := s0.endTeams (fun x => x.ctx = ctx) (fun c => c.ctx = ctx)
  let s2 := (s1.dropColls fun c => c.ctx = ctx).settleHostCopies ctx
  let s3 := ((s2.dropGrids fun g => g.ctx = ctx).stopStreams (fun x => x.ctx = ctx) 7).endStopped ctx
  let s4 : State := { s3 with mgmt := { s3.mgmt with faults := s3.mgmt.faults.filter fun f => f.ctx ≠ ctx } }
  (s4.pruneFaults).modCtx ctx fun c => { c with stopped := [], savedGrids := [] }

/-- R393, R394: a forced reset of a context; it is active afterwards, and new streams may be started in it. -/
def State.forceReset (s : State) (ctx : Nat) : State := (s.endWork ctx).setPhase ctx .active

/-! ### The end of a drain -/

/-- R389: the context has no resident work and nothing outstanding. -/
def State.drained (s : State) (ctx : Nat) : Bool :=
  ((s.teams.filter fun x => x.ctx = ctx).all fun x => (x.ended || x.spawn) && !s.teamBusy x.uid) &&
  !(s.copies.any fun c => c.ctx = ctx) && !(s.colls.any fun c => c.ctx = ctx && c.stage < 3) &&
  s.streams.all fun x => !(x.running && x.ctx = ctx) && !(x.copies.any fun c => c.ctx = ctx)

/-- The items of a grid that have not started (R389). -/
def State.itemsOf (s : State) (g : Grid) : List (DWord × Word × Word × DWord) :=
  g.restored ++ s.cores.flatMap fun c => (c.forming.filter fun f => f.grid = g.uid).flatMap fun f =>
    f.items.map fun it => (it.entry, it.w0, it.w1, it.weight)

/-- The grids of a context that have teams left to place or items left to start. -/
def State.gridsToSave (s : State) (ctx : Nat) : List Grid :=
  s.grids.filter fun g => g.ctx = ctx && (g.next < g.teams || s.itemsOf g ≠ [])

def dwordBytes (l : List DWord) : List Byte := l.flatMap fun d => leBytes 8 d.toNat

/-- The save area of R390. -/
def State.saveRecords (s : State) (c : Ctx) : List Byte :=
  let gs := s.gridsToSave c.id
  let items := gs.flatMap s.itemsOf
  dwordBytes ([BitVec.ofNat 64 (gs.length * 2 ^ 32 + c.stopped.length), BitVec.ofNat 64 items.length, 0, 0, 0, 0, 0, 0] ++
    (c.stopped.flatMap fun e => [e.2, BitVec.ofNat 64 e.1, 0, 0]) ++
    (gs.flatMap fun g => [BitVec.ofNat 64 (g.next * 2 ^ 32 + g.gridId.toNat), g.addr, BitVec.ofNat 64 g.teams,
      BitVec.ofNat 64 (s.itemsOf g).length, 0, 0, 0, 0]) ++
    (items.flatMap fun e => [e.1, BitVec.ofNat 64 (e.2.2.1.toNat * 2 ^ 32 + e.2.1.toNat), e.2.2.2, 0]))

/-- CONTEXT_DRAIN_COMPLETE (R389, R390). -/
def execContextDrainComplete (ctx : BitVec 4) (s0 : State) : Host.Outcome State Fault Refusal :=
  let s := s0.reap
  .next (match s.ctx? ctx.toNat with
    | none => s
    | some c =>
      let b := s.saveRecords c
      let pa := c.saveArea.toNat
      if c.phase ≠ .draining || !s.drained c.id || s.hostOwns pa b.length then s
      else
        let saved := (s.gridsToSave c.id).map fun g =>
          { gridId := g.gridId, stream := g.stream, gen := g.gen, seed := g.seed : SavedGrid }
        let s1 := (s.writeMem none .home pa b).writeBackAll
        let s2 := ((s1.teams.filter fun x => x.ctx = c.id).map fun x => x.uid).foldl State.dropTeam s1
        ((s2.dropGrids fun g => g.ctx = c.id).modCtx c.id fun c => { c with stopped := [], savedGrids := saved }).setPhase
          c.id .saved)

/-- PREEMPT_DEADLINE (R393). -/
def execPreemptDeadline (ctx : BitVec 4) (s : State) : Host.Outcome State Fault Refusal :=
  .next (match s.ctx? ctx.toNat with
    | some c => if c.phase = .draining && c.deadline ≤ s.devclk.toNat then s.forceReset c.id else s
    | none => s)

end Sys2Proof.Machine
end

