-- ==== Sys2Proof/Machine/Reliability.lean ====
section
/-!
DEFINITION. Memory reliability (R119 to R124, 04_memory.md; R399 to R411, 15_memory_fabric_failures.md): write journals and
write-back, errors of stacks and packages, degraded mode, reshape, deep retention.
-/
namespace Sys2Proof.Machine

/-! ### Write journals -/

/-- Whether a stack serves reads and writes (R403). -/
def State.stackLive (s : State) (k : Nat) : Bool := s.storage.stackStates.getD k .lost = .live

def State.setMedia (s : State) (stack row half : Nat) (b : List Byte) : State :=
  { s with storage := { s.storage with media := SMap.setRun s.storage.media (mediaKey stack row half) b } }

/-- One entry is applied to its stack (R119, R120). -/
def State.applyEntry (s : State) (e : JournalEntry) : State :=
  let old := SMap.getRun s.storage.media (mediaKey e.stack e.row e.half) 128
  s.setMedia e.stack e.row e.half (if e.parity && !e.whole then xorBytes old e.bytes else e.bytes)

/-- The journal of one controller, in the order of entry. -/
def State.journalOf (s : State) (stack : Nat) : List JournalEntry := s.storage.journal.filter fun e => e.stack = stack

/-- JOURNAL_APPLY (R120): an entry with none before it for the same half-unit is applied. -/
def execJournalApply (stack idx : Nat) (s : State) : Host.Outcome State Fault Refusal :=
  .next (match (s.journalOf stack)[idx]? with
    | none => s
    | some e =>
      let before := (s.journalOf stack).take idx
      if !s.stackLive stack || before.any fun x => x.row = e.row && x.half = e.half then s
      else
        let s1 := s.applyEntry e
        { s1 with storage := { s1.storage with journal := s1.storage.journal.erase e } })

/-- WRITE_BACK (R119): the write-backs queued with a line's are those of its stripe row's dirty lines, or its own alone; the spec
does not say which (assumption log 62). -/
def execWriteBack (line : Nat) (s : State) : Host.Outcome State Fault Refusal :=
  .next (if !s.storage.dirty.contains line then s
    else if s.freeAt 21 line % 2 = 0 then s.writeBackLine line
    else s.writeBackLines ((s.rowLines line).filter fun l => s.storage.dirty.contains l))

/-- The line of a half-unit; none for a parity half. -/
def State.lineOfHalf (s : State) (stack row half : Nat) : Option Nat := (s.unstripe stack row).map fun pa => pa / 128 + half

/-- The physical address of a half-unit for a record; a parity half has none. -/
def State.halfAddr (s : State) (stack row half : Nat) : DWord :=
  match s.lineOfHalf stack row half with
  | some l => BitVec.ofNat 64 (128 * l)
  | none => s.openAddr

/-- A parity half is poisoned (R402). -/
def State.spoilParity (s : State) (row half : Nat) : State :=
  if s.storage.badParity.contains (row, half) then s
  else { s with storage := { s.storage with badParity := s.storage.badParity ++ [(row, half)] } }

/-- The partner of a journal's entry: of the entries that are partners of its like, the one as far from the last (R402). -/
def State.partnerOf (s : State) (e : JournalEntry) : Option JournalEntry :=
  let mine := (s.storage.journal.filter fun x =>
    x.stack = e.stack && x.row = e.row && x.half = e.half && x.parity = e.parity && x.partner = e.partner).reverse
  e.partner.bind fun p => (s.storage.journal.filter fun x => x.stack = p.1 && x.row = p.2 && x.half = e.half && x.parity ≠ e.parity &&
    x.partner = some (e.stack, e.row)).reverse[mine.idxOf e]?

/-- Whether an entry of a journal can be rebuilt: from its partner, or a full stripe's parity from the row's data (R402). -/
def State.rebuilt (s : State) (e : JournalEntry) : Bool := e.partner.isSome || (e.whole && s.lostOf e.row = [])

/-- An entry of a journal is lost and cannot be rebuilt: the unit and its parity unit are poisoned, and what the row's lost stack
holds with them (R402, R405, R407). A line that its home slice holds dirty is not. -/
def State.loseEntry (s : State) (idx : Nat) (e : JournalEntry) (both : Bool) : State :=
  let j := s.storage.journal.erase e
  let s1 := ({ s with storage := { s.storage with journal := match s.partnerOf e with
    | some x => if both then j.erase x else j
    | none => j } } : State).spoilParity e.row e.half
  let own := if e.parity then (e.partner.map fun p => p.1).toList else [e.stack]
  (own ++ s.lostOf e.row).eraseDups.foldl (fun s k => match s.lineOfHalf k e.row e.half with
    | some l => if s.storage.dirty.contains l then s else s.poisonLine 2 e.stack idx l
    | none => s) s1

/-! ### Errors within a stack -/

/-- Whether a lost half of a row cannot be rebuilt (R400, R402, R407): the row has another half that is lost. -/
def State.halfGone (s : State) (stack row half : Nat) : Bool :=
  ((s.lostOf row).any fun k => k ≠ stack) || s.storage.badParity.contains (row, half) ||
  s.storage.poison.any fun p => !(inCapacity (128 * p.1)) &&
    (let (k, r, off, _) := s.stripe (128 * p.1)
     k ≠ stack && r = row && off / 128 = half)

/-- Halves of a row that can no longer be rebuilt once the half of `stack` is lost too are poisoned (R405, R407); a line that
its home slice holds dirty is not. -/
def State.poisonHalves (s : State) (stack row half : Nat) : State :=
  (stack :: s.lostOf row).foldl (fun s k => match s.lineOfHalf k row half with
    | some l => if s.storage.dirty.contains l then s else s.poisonLine 1 stack (row * 16) l
    | none => if k = stack then s.spoilParity row half else s) s

/-- The number of data lines of node 0, all bands together. -/
def bandLines : Nat := bandSize / 128
def nodeLines : List Nat := (List.range 16).flatMap fun b => (List.range bandLines).map fun i => b * 2 ^ 29 + i

/-- A change of a stack's state writes a STATE record (R403). -/
def State.reportStack (s : State) (k code : Nat) : State := s.report 2 1 k 0 (s.freeAt 13 k * 16 + code) s.openAddr

/-- R404, R405, R407: a stack is declared LOST, and with it its journal, whose entries are partners no more (R402). Lines of which
a second half is now lost are poisoned. -/
def State.loseStack (s : State) (k : Nat) : State :=
  if !s.stackLive k then s
  else
    let s1 := ({ s with storage := { s.storage with
      stackStates := s.storage.stackStates.set k .lost,
      journal := (s.storage.journal.filter fun e => e.stack ≠ k).map fun e =>
        if (e.partner.map fun p => p.1) = some k then { e with partner := none } else e } } : State).reportStack k 1
    let s2 := s1.storage.badParity.foldl (fun s e => match s.lineOfHalf k e.1 e.2 with
      | some l => if s.storage.dirty.contains l then s else s.poisonLine 1 k (e.1 * 16) l
      | none => s) s1
    let s3 := s1.storage.poison.foldl (fun s p =>
      if inCapacity (128 * p.1) then s
      else
        let (k', row, off, _) := s.stripe (128 * p.1)
        if k' = k then s
        else match s.lineOfHalf k row (off / 128) with
          | some l => if s.storage.dirty.contains l then s else s.poisonLine 1 k (row * 16) l
          | none => s) s2
    if s3.lostStacks.length < 2 then s3
    else (nodeLines.filter fun l => s3.paExists (128 * l) && s3.lineGone l && !s3.storage.dirty.contains l).foldl
      (fun s l => s.poisonLine 1 k ((s.stripe (128 * l)).2.1 * 16) l) s3

/-- CWD events of a stack in distinct rows within 60 s (R404), in counts of DEVCLK (R31). -/
def State.cwdCount (s : State) (k : Nat) : Nat :=
  (((s.storage.cwds.filter fun e => e.1 = k && s.devclk.toNat ≤ e.2.2 + 75000000000).map fun e => e.2.1).eraseDups).length

/-- A rebuild is recorded (R400); the 64th of R404 loses the stack. -/
def State.noteCwd (s : State) (k row : Nat) : State :=
  let s1 : State := { s with storage := { s.storage with cwds := s.storage.cwds ++ [(k, row, s.devclk.toNat)] } }
  if 64 ≤ s1.cwdCount k then s1.loseStack k else s1

/-- STACK_LOST (R404). -/
def execStackLost (k : Nat) (why : LossReason) (s : State) : Host.Outcome State Fault Refusal :=
  .next (if why = .cwdRate && s.cwdCount k < 64 then s else s.loseStack k)

/-- STACK_TIMEOUT (R404): the stack has not answered for the time in TMOUT.STACK as it stood when it fell silent (R435). -/
def execStackTimeout (k : Nat) (s : State) : Host.Outcome State Fault Refusal :=
  .next (if s.storage.silent.any fun e => e.1 = k && e.2 ≤ s.devclk.toNat then s.loseStack k else s)

/-- A corrected error (R399): CE, with the address of its sector. -/
def State.reportSector (s : State) (src unit detail pa n : Nat) : State :=
  s.report 0 src unit 0 detail (BitVec.ofNat 64 (pa + s.freeAt 12 unit % n * 32))

/-- A stripe row of a stack as its controller reads it (R399 to R401, R407). -/
def State.scrubRow (s : State) (k row : Nat) (f : ScrubFinding) : State :=
  if !s.stackLive k || 250000000 ≤ row || s.storage.retained.any (fun r => r.1 = row / 15625000 && r.2.1 ≠ .entering) then s
  else match f with
    | .clean => s
    | .corrected => match s.unstripe k row with
      | some pa => s.reportSector 1 k (row * 16) pa 8
      | none => s.report 0 1 k 0 (row * 16) s.openAddr
    | .lostHalf h =>
      let half := h % 2
      if s.halfGone k row half then s.poisonHalves k row half
      else
        (s.report 1 1 k 0 (row * 16) (s.halfAddr k row half)).noteCwd k row

/-- A package's state code (R411). -/
def State.packageCode (s : State) (p : Nat) : Nat := if s.storage.packages.getD p false then 1 else 0

/-- An uncorrectable error of a line of node 1 (R405, R411). -/
def State.loseCapacityLine (s : State) (l : Nat) : State :=
  if inCapacity (128 * l) && capacityFitted then
    s.poisonLine 5 (packageOf (128 * l)) (s.packageCode (packageOf (128 * l))) l
  else s

/-- The same, or one of a line that its home slice holds dirty (R405). -/
def State.loseLine (s : State) (l : Nat) : State :=
  if s.storage.dirty.contains l then s.poisonLine 3 (homeSlice (128 * l)) (s.freeAt 7 l) l else s.loseCapacityLine l

/-- A corrected error of a line of node 1 (R411). -/
def State.correctLine (s : State) (l : Nat) : State :=
  if inCapacity (128 * l) && capacityFitted then
    s.reportSector 5 (packageOf (128 * l)) (s.packageCode (packageOf (128 * l))) (128 * l) 4
  else s

/-- PATROL_SCRUB (R401, R411). Units 0 to 11 are the stacks; units 12 to 19 are the packages of node 1, and `row` is then a
line number. -/
def execPatrolScrub (unit row : Nat) (f : ScrubFinding) (s : State) : Host.Outcome State Fault Refusal :=
  .next (if unit < 12 then s.scrubRow unit row f
    else if packageOf (128 * row) ≠ unit - 12 || s.packageLost (128 * row) then s
    else match f with
      | .clean => s
      | .corrected => s.correctLine row
      | .lostHalf _ => s.loseCapacityLine row)

/-- CAPACITY_PACKAGE_LOST (R411). -/
def execCapacityPackageLost (p : Nat) (s : State) : Host.Outcome State Fault Refusal :=
  .next (if 8 ≤ p || !capacityFitted || s.storage.packages.getD p true then s
    else ({ s with storage := { s.storage with packages := s.storage.packages.set p true } } : State).report 2 5 p 0 1 s.openAddr)

/-! ### Reshape -/

/-- R409: the units of row `r` of a band's new layout are moved there, and its parity is formed. -/
def State.moveRow (s : State) (b r : Nat) : State :=
  let row := 15625000 * b + r
  let l := s.castledStacks
  let units := (List.range 10).map fun j => b * 2 ^ 36 + (10 * r + j) * 256
  let read (half : Nat) (pa : Nat) : List Byte :=
    let (k, r', _, _) := s.stripe pa
    if s.stackLive k then s.halfNow k r' half else s.rebuild k r' half
  let s1 : State := { s with storage := { s.storage with
    journal := s.storage.journal.filter fun e => e.row ≠ row,
    badParity := s.storage.badParity.filter fun e => e.1 ≠ row,
    watermarks := s.storage.watermarks.set b r } }
  [0, 1].foldl (fun s half =>
    let data := units.map (read half)
    let parity := data.foldl xorBytes (List.replicate 128 0)
    let put (s : State) (i : Nat) (d : List Byte) : State :=
      let k := l.getD ((row % 11 + i) % 11) 0
      if s.stackLive k then s.setMedia k row half d else s
    data.zipIdx.foldl (fun s e => put s (1 + e.2) e.1) (put s 0 parity)) s1

/-- The next row of a band, in descending order (R409). -/
def State.reshapeRow (s : State) (b : Nat) : State :=
  match s.storage.watermarks.getD b 0 with
  | 0 => s
  | r + 1 => if s.storage.reshaping then s.moveRow b r else s

/-- RESHAPE_COMPLETE (R409): rows not moved yet are, a hot-remove of the removed ranges is reported, and the lost stack is RETIRED. -/
def execReshapeComplete (s : State) : Host.Outcome State Fault Refusal :=
  .next (match s.storage.reshaping, s.storage.castled with
    | true, some k =>
      let s1 := (List.range 16).foldl (fun s b => (List.range (s.storage.watermarks.getD b 0)).foldl (fun s _ => s.reshapeRow b) s) s
      let gone := (List.range 16).map fun b => (true, b * 2 ^ 36 + bandSizeReshaped, bandSize - bandSizeReshaped)
      ({ s1 with storage := { s1.storage with
                   reshaping := false, reshaped := true, stackStates := s1.storage.stackStates.set k .retired },
                 host := { s1.host with plugs := s1.host.plugs ++ gone } } : State).reportStack k 2
    | _, _ => s)

/-! ### Deep retention -/

/-- Bytes of a band that are kept. -/
def State.bandBytes (s : State) : Nat := if s.storage.reshaped then bandSizeReshaped else bandSize

def lineIn (base n l : Nat) : Bool := base ≤ 128 * l && 128 * l < base + n

/-- Journal entries that `which` picks are applied, in order. -/
def State.applyJournal (s : State) (which : JournalEntry → Bool) : State :=
  let s1 := (s.storage.journal.filter fun e => which e && s.stackLive e.stack).foldl State.applyEntry s
  { s1 with storage := { s1.storage with journal := s1.storage.journal.filter fun e => !(which e) } }

/-- Poisoned lines of a range, as they land in another. -/
def State.movedPoison (s : State) (src n dst : Nat) : List (Nat × BitVec 128) :=
  (s.storage.poison.filter fun p => lineIn src n p.1).map fun p => (p.1 - src / 128 + dst / 128, p.2)

/-- Bytes and poison of a range are copied to another; what is written over leaves (R123, R410). -/
def State.copyBand (s : State) (src n dst : Nat) : State :=
  { s with storage := { s.storage with
      mem := SMap.copyRange s.storage.mem src n dst,
      tags := s.storage.tags.filter fun t => !(lineIn dst n t.1),
      dirty := s.storage.dirty.filter fun l => !(lineIn dst n l),
      poison := (s.storage.poison.filter fun p => !(lineIn dst n p.1)) ++ s.movedPoison src n dst } }

/-- Lines of a range whose package is lost. -/
def State.lostIn (s : State) (src n : Nat) : List Nat :=
  if s.storage.packages.any id then ((List.range (n / 128)).map fun i => src / 128 + i).filter fun l => s.packageLost (128 * l) else []

/-- Entry of R124: the band's stored bytes go to the retention area, its layer loses power, and a hot-remove of its range is
reported. -/
def State.retainBand (s : State) (b area : Nat) : State :=
  let base := b * 2 ^ 36
  let n := s.bandBytes
  let s1 := s.writeBackLines (s.storage.dirty.filter (lineIn base n))
  let s2 := s1.applyJournal fun e => e.row / 15625000 = b
  let s3 := ((s2.storage.tags.filter fun t => lineIn base n t.1).map fun t => t.1).foldl (fun s l => s.retag none l) s2
  let s4 := s3.copyBand base n area
  { s4 with
    storage := { s4.storage with
      mem := SMap.without s4.storage.mem base n,
      poison := s4.storage.poison.filter fun p => !(lineIn base n p.1),
      hostOwned := s4.storage.hostOwned.filter fun l => !(lineIn base n l),
      badParity := s4.storage.badParity.filter fun e => e.1 / 15625000 ≠ b,
      media := s4.storage.media.filter fun e => e.1 % 2 ^ 40 / 256 / 15625000 ≠ b,
      retained := s4.storage.retained.map fun r => if r.1 = b then (b, .held, area) else r },
    host := { s4.host with plugs := s4.host.plugs ++ [(true, base, n)] } }

/-- Exit of R124: the bytes come back, parity is recomputed, lines of lost packages land poisoned (R410), and a hot-add of the
range is reported. -/
def State.releaseBand (s : State) (b area : Nat) : State :=
  let base := b * 2 ^ 36
  let n := s.bandBytes
  let s1 := s.copyBand area n base
  let s2 : State := { s1 with storage := { s1.storage with retained := s1.storage.retained.filter fun r => r.1 ≠ b } }
  let lines := ((SMap.within s2.storage.mem base n).map fun e => e.1 / 128).eraseDups
  let s3 := lines.foldl State.writeBackLine { s2 with host := { s2.host with plugs := s2.host.plugs ++ [(false, base, n)] } }
  (s.lostIn area n).foldl (fun s l =>
    let dst := l - area / 128 + base / 128
    s.poisonLine 5 (packageOf (128 * l)) 1 dst) s3

/-- Whether the host owns a line of a band or of its retention area, which is recalled first (R344). -/
def State.bandOwned (s : State) (b area : Nat) : Bool :=
  s.storage.hostOwned.any fun l => lineIn (b * 2 ^ 36) s.bandBytes l || lineIn area s.bandBytes l

/-- RETENTION_COMPLETE (R124). -/
def execRetentionComplete (band : BitVec 4) (s : State) : Host.Outcome State Fault Refusal :=
  .next (match s.storage.retained.find? fun r => r.1 = band.toNat with
    | some (b, .entering, area) => if s.bandOwned b area then s else s.retainBand b area
    | some (b, .leaving, area) => if s.bandOwned b area then s else s.releaseBand b area
    | _ => s)

/-! ### What is no row of the table -/

/-- What befalls the hardware (R160, R402, R405, R406, R409, R411, R419). -/
def State.befall (s : State) (e : Hardware) : State :=
  match e with
  | .journalCorrected k idx => match (s.journalOf k)[idx]? with
    | some x => s.report 0 2 k 0 idx (s.halfAddr x.stack x.row x.half)
    | none => s
  | .journalLost k idx both => match (s.journalOf k)[idx]? with
    | none => s
    | some x =>
      if both || !s.rebuilt x then s.loseEntry idx x both
      else (s.report 1 2 k 0 idx (s.halfAddr x.stack x.row x.half)).noteCwd k x.row
  | .lineLost l => s.loseLine l
  | .capacityCorrected l => s.correctLine l
  | .scratchLost t off => s.modTeam t fun x => { x with badWords := insertNat (off / 4) x.badWords }
  | .registerLost t g p => s.modGroup t g fun h => { h with struck := some p }
  | .accumulatorLost core op => s.modOp core op fun o => { o with struck := !o.started }
  | .stackSilent k silent =>
    let rest := s.storage.silent.filter fun e => e.1 ≠ k
    if silent && s.storage.silent.any (fun e => e.1 = k) then s
    else { s with storage := { s.storage with silent := if silent then (k, s.devclk.toNat + s.stackTimeout) :: rest else rest } }
  | .reshapeMove b => s.reshapeRow b
  | .unsupportedRequest => s.report 5 7 0 0 4 s.openAddr
  | .hostAtomicWrite => match s.host.atomic with
    | none => s
    | some (pa, b) =>
      if s.locHeld (.mem pa none .home) b.length then s
      else
        let s1 := s.writeMem none .home pa b
        { s1 with host := { s1.host with atomic := none } }

end Sys2Proof.Machine
end

