-- ==== Sys2Proof/Machine/Mgmt.lean ====
section
/-!
DEFINITION. The management interface (R434 to R439, 17_platform.md): registers, management commands, starting streams,
resets, power and heat (R428 to R431), firmware (R420, R421), attestation (R433).
-/
namespace Sys2Proof.Machine

/-! ### Registers -/

/-- IDENT, STATUS, MEMSTAT and CTXSTAT (R435). -/
def identReg : DWord := BitVec.ofNat 64 (0x4A12 * 2 ^ 48 + Config.orderingCode.val * 2 ^ 40 + 1)

def flag (b : Bool) (i : Nat) : Nat := if b then 2 ^ i else 0

def State.statusReg (s : State) : DWord :=
  BitVec.ofNat 64 (flag s.mgmt.ready 0 + flag s.mgmt.recovery 1 + flag (s.lostStacks ≠ []) 2 + flag s.storage.reshaping 3)

def stackCode : StackState → Nat
  | .live => 0
  | .lost => 1
  | .retired => 2

def State.memStat (s : State) : DWord :=
  BitVec.ofNat 64 (((List.range 12).map fun k => stackCode (s.storage.stackStates.getD k .live) * 4 ^ k).sum +
    ((List.range 8).map fun p => flag (s.storage.packages.getD p false) (24 + p)).sum +
    ((List.range 16).map fun b => flag (s.storage.retained.any fun r => r.1 = b && r.2.1 ≠ .entering) (32 + b)).sum)

def State.ctxStat (s : State) : DWord :=
  BitVec.ofNat 64 ((List.range 16).map fun c => (match s.ctx? c with
    | none => 0
    | some x => match x.phase with
      | .active => 1
      | .draining => 2
      | .saved => 3) * 4 ^ c).sum

/-- STAT of a stream (R435). -/
def Stream.stat (x : Stream) : DWord :=
  BitVec.ofNat 64 (flag x.running 63 + x.ctx % 16 * 2 ^ 16 + x.report.toNat * 2 ^ 8 + x.err.toNat)

/-- What a read of a BAR 0 dword gives (R435): a register that the table does not name, or that is write-only, reads zero. -/
def State.barRead (s : State) (off : Nat) : DWord :=
  let m := s.mgmt
  match off with
  | 0x0000 => identReg
  | 0x0008 => s.statusReg
  | 0x0010 => s.memStat
  | 0x0018 => m.irq.setWidth 64
  | 0x0020 => m.mcmd
  | 0x0028 => m.marg0
  | 0x0030 => m.marg1
  | 0x0038 => BitVec.ofNat 64 (flag m.busy 63 + m.mresult.toNat)
  | 0x0040 => m.eqbase
  | 0x0048 => BitVec.ofNat 64 (m.eqOverflow.toNat * 2 ^ 32 + m.eqTail.toNat * 2 ^ 16 + m.eqHead.toNat)
  | 0x0050 => m.fqbase
  | 0x0058 => BitVec.ofNat 64 (m.fqTail.toNat * 2 ^ 16 + m.fqHead.toNat)
  | 0x0068 => m.cfbar
  | 0x0070 => m.cfva
  | 0x0080 => m.pcap.setWidth 64
  | 0x0088 => m.clk.setWidth 64
  | 0x0090 => s.ctxStat
  | 0x0098 => m.tmout
  | 0x0800 => m.rmaddr
  | 0x0808 => m.rmctl
  | n =>
    if 0x0100 ≤ n && n < 0x0140 && n % 8 = 0 then m.sar.getD ((n - 0x100) / 8) 0
    else if 0x1000 ≤ n && n < 0x1800 && n % 32 = 8 then (s.stream ((n - 0x1000) / 32)).stat
    else if 0x1000 ≤ n && n < 0x1800 && n % 32 = 16 then (s.stream ((n - 0x1000) / 32)).info
    else 0

def State.modMgmt (s : State) (f : Mgmt → Mgmt) : State := { s with mgmt := f s.mgmt }

/-- A register write reaches BAR 0 over the host link (R2, R342), once bring-up has begun (R431). -/
def State.bar0 (s : State) (f : State → State) : Host.Outcome State Fault Refusal :=
  .next (if s.boot = .step1 || !s.host.linkUp then s else f s)

def execIrqClear (v : DWord) (s : State) : Host.Outcome State Fault Refusal :=
  s.bar0 fun s => s.modMgmt fun m => { m with irq := m.irq &&& ~~~(v.setWidth 6) }

/-- R439: the host has read records; waiting ones are written. -/
def execEqptrHead (v : DWord) (s : State) : Host.Outcome State Fault Refusal :=
  s.bar0 fun s => (s.modMgmt fun m => { m with eqHead := v.setWidth 16 }).flushRecords
def execFqptrHead (v : DWord) (s : State) : Host.Outcome State Fault Refusal :=
  s.bar0 fun s => (s.modMgmt fun m => { m with fqHead := v.setWidth 16 }).flushRecords

/-- R428. -/
def execPcapWrite (v : DWord) (s : State) : Host.Outcome State Fault Refusal :=
  s.bar0 fun s => s.modMgmt fun m =>
    let x : Half := v.setWidth 16
    let top := powerCeiling Config.orderingCode
    { m with pcap := if x < 600 then 600 else if top < x then top else x }

/-- R435: a field written as 0 holds 1. -/
def execTmoutWrite (v : DWord) (s : State) : Host.Outcome State Fault Refusal :=
  s.bar0 fun s => s.modMgmt fun m =>
    let one (x : Nat) : Nat := if x = 0 then 1 else x
    { m with tmout := BitVec.ofNat 64 (one (bits v.toNat 47 32) * 2 ^ 32 + one (bits v.toNat 31 16) * 2 ^ 16 +
        one (bits v.toNat 15 0)) }

/-- R420: in recovery the boot ROM fetches the image that RMADDR and RMCTL name and verifies it. -/
def execRmctlGo (v : DWord) (s : State) : Host.Outcome State Fault Refusal :=
  s.bar0 fun s =>
    let s1 := s.modMgmt fun m => { m with rmctl := v &&& 0x80000000FFFFFFFF }
    match s.boot with
    | .recovery warm =>
      let b := s.hostRead s.mgmt.rmaddr.toNat (bits v.toNat 31 0)
      if s.host.linkUp && Config.imageVerifies b then
        ({ s1 with image := b, boot := if warm then .step4 else .step3 } : State).modMgmt fun m => { m with recovery := false }
      else s1
    | _ => s1

/-- A management command ends (R437). -/
def State.endCommand (s : State) (result : BitVec 8) : State :=
  (s.modMgmt fun m => { m with mresult := result, busy := false }).interrupt 0x10

/-- REGISTER_WRITE (R435, R436): registers whose write does nothing else; of MCMD, a running command with an OP that is none,
which ends with result 2; read-only and unnamed registers ignore writes. -/
def execRegisterWrite (off : BitVec 16) (v : DWord) (s : State) : Host.Outcome State Fault Refusal :=
  s.bar0 fun s => match off.toNat with
    | 0x0020 =>
      if s.mgmt.busy && s.mgmt.mcmd = v &&& 0xFFFFFFFF00000FFF then s.endCommand (if s.mgmt.ready then 2 else 1) else s
    | 0x0028 => s.modMgmt fun m => { m with marg0 := v }
    | 0x0030 => s.modMgmt fun m => { m with marg1 := v }
    | 0x0040 => s.modMgmt fun m => { m with eqbase := v &&& 0x000FFFFFFFFFF000 }
    | 0x0050 => s.modMgmt fun m => { m with fqbase := v &&& 0x000FFFFFFFFFF000 }
    | 0x0800 => s.modMgmt fun m => { m with rmaddr := v }
    | 0x0808 => s.modMgmt fun m => { m with rmctl := v &&& 0x00000000FFFFFFFF }
    | n =>
      if 0x0100 ≤ n && n < 0x0140 && n % 8 = 0 then
        s.modMgmt fun m => { m with sar := m.sar.set ((n - 0x100) / 8) (v &&& 0x81FFFFFFFFE00000) }
      else s

/-- START (R438). The die whose command processor executes the stream is a free value. -/
def execStart (stream : BitVec 6) (v : DWord) (s : State) : Host.Outcome State Fault Refusal :=
  s.bar0 fun s =>
    let n := stream.toNat
    let c := bits v.toNat 3 0
    if (s.stream n).running || !(s.ctxs.any fun x => x.id = c && x.phase = .active) then s
    else s.modStream n fun x =>
      { x with running := true, ctx := c, pc := v &&& 0xFFFFFFFFFFFFFFE0, wait := .none, die := s.freeAt 14 n % 4, err := 0,
               report := 0, info := 0, gen := x.gen + 1, lostWrites := false }

/-! ### Commands -/

/-- MCMD of a command (R435). -/
def mcmdWord (op : Nat) (m : MCmd) : DWord := BitVec.ofNat 64 (m.arg.toNat * 2 ^ 32 + m.ctx.toNat * 2 ^ 8 + op)

/-- Whether a command is the one that MCMD holds and that runs (R437). -/
def State.commandRuns (s : State) (op : Nat) (m : MCmd) : Bool := s.mgmt.busy && s.mgmt.mcmd = mcmdWord op m

/-- The end of the running command (R436, R437); in recovery only a command that `rom` says runs there does (R420, R433).
`effect` gives the state after and the result. -/
def mgmtCommand (op : Nat) (m : MCmd) (rom : Bool) (s : State) (effect : State → State × BitVec 8) :
    Host.Outcome State Fault Refusal :=
  .next (if !s.commandRuns op m then s
    else if !s.mgmt.ready && !rom then s.endCommand 1
    else
      let r := effect s
      r.1.endCommand r.2)

/-- A write of MCMD (R435 to R437): discarded while a command runs, or before commands are accepted; else it starts the
command, which reads every MARG now; it ends in a move of its own. -/
def State.startCommand (s : State) (v : DWord) : State :=
  if s.mgmt.busy || !(s.mgmt.ready || s.mgmt.recovery) || !s.host.linkUp then s
  else s.modMgmt fun m => { m with mcmd := v &&& 0xFFFFFFFF00000FFF, busy := true, arg0 := m.marg0, arg1 := m.marg1 }

/-- A write to BAR 0 (R435): the row of the table that it is, if any, and the state that it runs in; none of an offset beyond
the registers. -/
def State.bar0Write (s : State) (off : Nat) (v : DWord) : Option Instr × State :=
  if off = 0x20 then (none, s.startCommand v)
  else if off < 2 ^ 16 then (some (decodeBar0 (BitVec.ofNat 16 off) v), s)
  else (none, s)

/-- A command that names a context: refused where it is absent (R436). -/
def onContext (s : State) (m : MCmd) (effect : Ctx → State × BitVec 8) : State × BitVec 8 :=
  match s.ctx? m.ctx.toNat with
  | none => (s, 1)
  | some c => effect c

/-- An aligned address in node 0. -/
def State.nodeAddr (s : State) (pa : DWord) (align : Nat) : Bool := pa.toNat % align = 0 && s.inBand pa.toNat

/-- A context as CREATE makes it (R434). -/
def newCtx (id : Nat) (root : DWord) (job : Half) : Ctx :=
  { id := id, root := root, job := job, keys := [], srseed := 0, ctxclk := 0, gridCount := 0, phase := .active, saveArea := 0,
    deadline := 0, stopped := [], savedGrids := [], tlb := [] }

def execCreate (m : MCmd) (s : State) : Host.Outcome State Fault Refusal :=
  mgmtCommand 0x01 m false s fun s =>
    let id := m.ctx.toNat
    if (s.ctx? id).isSome then (s, 1)
    else if !s.nodeAddr s.mgmt.arg0 4096 then (s, 2)
    else ({ s with ctxs := s.ctxs ++ [newCtx id s.mgmt.arg0 (m.arg.setWidth 16)] }.interrupt 0x20, 0)

/-- Resident work of a context (R97): a team or a spawned group. -/
def State.residentWork (s : State) (ctx : Nat) : Bool :=
  s.teams.any fun x => x.ctx = ctx && (if x.spawn then s.groups.any fun h => h.team = x.uid && !h.isOver else !x.ended)

/-- What keeps DESTROY from ending a context: resident work or a running stream (R436). -/
def State.inUse (s : State) (ctx : Nat) : Bool := s.residentWork ctx || s.streams.any fun x => x.running && x.ctx = ctx

/-- R112, R434: a context ends; chunk packets that wait for a collective of its job go with it. -/
def State.dropCtx (s : State) (ctx : Nat) : State :=
  let s1 := s.unkeyLines fun c _ => c = ctx
  let job := (s.ctx? ctx).map fun c => c.job
  ({ s1 with
      ctxs := s1.ctxs.filter fun c => c.id ≠ ctx,
      cores := s1.cores.map fun c => { c with descs := c.descs.filter fun e => e.ctx ≠ ctx },
      fabric := { s1.fabric with
        comms := s1.fabric.comms.filter fun c => c.ctx ≠ ctx,
        early := s1.fabric.early.filter fun e => some e.2.job ≠ job },
      mgmt := { s1.mgmt with faults := s1.mgmt.faults.filter fun f => f.ctx ≠ ctx } } : State).interrupt 0x20

/-- DESTROY (R436). Grids that have no team placed, copies, collectives and host copies end as by a forced reset (assumption
log 27). -/
def execDestroy (m : MCmd) (s : State) : Host.Outcome State Fault Refusal :=
  mgmtCommand 0x02 m false s fun s0 =>
    let s := s0.reap
    match s.ctx? m.ctx.toNat with
    | none => (s, 0)
    | some c => if s.inUse c.id then (s, 1) else ((s.endWork c.id).dropCtx c.id, 0)

def execKey (m : MCmd) (s : State) : Host.Outcome State Fault Refusal :=
  mgmtCommand 0x03 m false s fun s => onContext s m fun c =>
    let k := bits m.arg.toNat 1 0
    if k = 0 || !s.host.linkUp then (s, 1)
    else
      let key := s.hostRead s.mgmt.arg0.toNat 64
      ((s.unkeyLines fun x y => x = c.id && y = k).modCtx c.id fun c =>
        { c with keys := (k, key) :: c.keys.filter fun e => e.1 ≠ k }, 0)

def execInval (m : MCmd) (s : State) : Host.Outcome State Fault Refusal :=
  mgmtCommand 0x04 m false s fun s => onContext s m fun c => (s.modCtx c.id fun c => { c with tlb := [] }, 0)

/-- R388: a stream between commands, or in a WAITPH, stops; the others stop once their command has completed. -/
def State.haltIdle (s : State) (ctx : Nat) : State :=
  (List.range 64).foldl (fun s n =>
    let x := s.stream n
    if x.running && x.ctx = ctx && (match x.wait with
      | .none | .phase _ _ _ _ _ => true
      | _ => false) then s.haltStream n else s) s

/-- PREEMPT (R388). -/
def execPreempt (m : MCmd) (s : State) : Host.Outcome State Fault Refusal :=
  mgmtCommand 0x05 m false s fun s => onContext s m fun c =>
    if c.phase ≠ .active then (s, 1)
    else if !s.nodeAddr s.mgmt.arg0 64 then (s, 2)
    else
      let s1 := s.modCtx c.id fun c => { c with saveArea := s.mgmt.arg0, deadline := s.devclk.toNat + s.mgmt.arg1.toNat,
                                                stopped := [] }
      ((s1.setPhase c.id .draining).haltIdle c.id, 0)

/-! ### Restoring a context -/

/-- The dwords of a record in a save area. -/
def State.areaDwords (s : State) (pa n : Nat) : List DWord := dwordsOf (s.viewMem none pa (8 * n))

/-- R391: one grid from its record and its items; its launch record is read again. It stands after the grids present, in the
order of the records, which the spec does not name (assumption log 63). -/
def State.restoreGrid (s : State) (c : Ctx) (r : List DWord) (items : List (List DWord)) : Option State :=
  match s.readSpan c.id (0, s.uid) (r.getD 1 0) 64 with
  | .bytes b =>
    let d := dwordsOf b
    let w (i : Nat) : DWord := d.getD i 0
    let gid : Word := (r.getD 0 0).setWidth 32
    let teams := bits (r.getD 2 0).toNat 31 0
    let old := c.savedGrids.find? fun g => g.gridId = gid
    let g : Grid := { uid := s.uid, ctx := c.id, stream := (old.map fun g => g.stream).getD 0, gen := (old.map fun g => g.gen).getD 0,
                      gridId := gid, addr := r.getD 1 0, l0 := w 0, l1 := w 1, centry := w 2, pentry := w 3, argp := w 4,
                      root := w 5, teams := teams, seed := (old.map fun g => g.seed).getD c.srseed,
                      w0 := BitVec.ofNat 64 (launchOf (w 0) (w 1) teams).w0, next := bits (r.getD 0 0).toNat 63 32,
                      restored := items.map fun e =>
                        (e.getD 0 0, (e.getD 1 0).setWidth 32, (e.getD 1 0).extractLsb' 32 32, e.getD 2 0) }
    some { (s.rekeySpans c.id [(r.getD 1 0, 64)]).fresh with grids := s.grids ++ [g] }
  | _ => none

/-- The grids of a save area, in their order; `pa` is where the next item record stands. -/
def State.restoreGrids (c : Ctx) : Nat → List (List DWord) → State → Option State
  | _, [], s => some s
  | pa, r :: rs, s =>
    let n := bits (r.getD 3 0).toNat 31 0
    match s.restoreGrid c r ((List.range n).map fun i => s.areaDwords (pa + 32 * i) 4) with
    | some s1 => State.restoreGrids c (pa + 32 * n) rs s1
    | none => none

/-- A stream goes on at its saved command (R391). -/
def State.resumeStream (s : State) (ctx : Nat) (r : List DWord) : State :=
  let n := bits (r.getD 1 0).toNat 7 0
  if (s.stream n).running then s
  else s.modStream n fun x => { x with running := true, ctx := ctx, pc := r.getD 0 0, wait := .none, err := 0, report := 0, info := 0 }

/-- Bytes of a save area (R390). -/
def State.areaSize (s : State) (pa : Nat) : Nat :=
  let h := s.areaDwords pa 2
  64 + 32 * bits (h.getD 0 0).toNat 31 0 + 64 * bits (h.getD 0 0).toNat 63 32 + 32 * (h.getD 1 0).toNat

/-- Whether the host owns a line of a save area, which is then recalled first (R344). -/
def State.areaHeld (s : State) (pa : Nat) : Bool := s.hostOwns pa 64 || s.hostOwns pa (s.areaSize pa)

/-- R390, R391: a context from its save area; none where a launch record cannot be read. -/
def State.restoreFrom (s : State) (c : Ctx) (pa : Nat) : Option State :=
  let h := s.areaDwords pa 1
  let nStreams := bits (h.getD 0 0).toNat 31 0
  let nGrids := bits (h.getD 0 0).toNat 63 32
  let gridPa := pa + 64 + 32 * nStreams
  let streams := (List.range nStreams).map fun i => s.areaDwords (pa + 64 + 32 * i) 4
  let gs := (List.range nGrids).map fun i => s.areaDwords (gridPa + 64 * i) 8
  (State.restoreGrids c (gridPa + 64 * nGrids) gs (s.rekeyMem none pa (s.areaSize pa))).map fun s1 =>
    ((streams.foldl (fun s r => s.resumeStream c.id r) s1).modCtx c.id fun c => { c with savedGrids := [] }).setPhase c.id .active


/-- RESTORE (R391, R436); it runs on until the lines of the save area have come back from the host. -/
def execRestore (m : MCmd) (s : State) : Host.Outcome State Fault Refusal :=
  if s.commandRuns 0x06 m && s.nodeAddr s.mgmt.arg0 64 && s.areaHeld s.mgmt.arg0.toNat then
    .next s
  else mgmtCommand 0x06 m false s fun s => onContext s m fun c =>
    if c.phase ≠ .saved then (s, 1)
    else if !s.nodeAddr s.mgmt.arg0 64 then (s, 2)
    else match s.restoreFrom c s.mgmt.arg0.toNat with
      | some s1 => (s1, 0)
      | none => (s, 1)

def execFreset (m : MCmd) (s : State) : Host.Outcome State Fault Refusal :=
  mgmtCommand 0x07 m false s fun s => onContext s m fun c => (s.forceReset c.id, 0)

/-! ### Storage commands -/

/-- A FAIL record of which the spec gives neither source nor detail (R408, R410). -/
def State.reportRefusal (s : State) : State :=
  s.report 5 (s.freeAt 15 0 % 256) (s.freeAt 15 1) 0 (s.freeAt 15 2) s.openAddr

/-- RETAIN (R123, R410, R427). -/
def execRetain (m : MCmd) (s : State) : Host.Outcome State Fault Refusal :=
  mgmtCommand 0x08 m false s fun s =>
    let b := bits m.arg.toNat 3 0
    let area := s.mgmt.arg0.toNat
    if s.storage.reshaping then (s.reportRefusal, 1)
    else if !capacityFitted || s.storage.retained.any (fun r => r.1 = b) then (s, 1)
    else if area % 4096 ≠ 0 || !inCapacity area || !inCapacity (area + 10742188 * 4096 - 1) then (s, 2)
    else ({ s with storage := { s.storage with retained := s.storage.retained ++ [(b, .entering, area)] } }, 0)

/-- UNRETAIN (R124, R410). -/
def execUnretain (m : MCmd) (s : State) : Host.Outcome State Fault Refusal :=
  mgmtCommand 0x09 m false s fun s =>
    let b := bits m.arg.toNat 3 0
    if s.storage.reshaping then (s.reportRefusal, 1)
    else if !(s.storage.retained.any fun r => r.1 = b && r.2.1 = .held) then (s, 1)
    else ({ s with storage := { s.storage with retained := s.storage.retained.map fun r =>
      if r.1 = b then (b, .leaving, r.2.2) else r } }, 0)

/-- RESHAPE (R408, R409): refused with a record while a band is retained or a second stack lost; it runs only in degraded mode,
and once. -/
def execReshape (m : MCmd) (s : State) : Host.Outcome State Fault Refusal :=
  mgmtCommand 0x0A m false s fun s =>
    if s.storage.retained ≠ [] || 2 ≤ s.lostStacks.length then (s.reportRefusal, 1)
    else match s.lostStacks with
    | [] => (s, 1)
    | k :: _ =>
      if s.storage.castled.isSome then (s, 1)
      else ({ s with storage := { s.storage with
        reshaping := true, castled := some k, watermarks := List.replicate 16 15625000 } }, 0)

def execLose (m : MCmd) (s : State) : Host.Outcome State Fault Refusal :=
  mgmtCommand 0x0B m false s fun s =>
    let k := bits m.arg.toNat 3 0
    if 12 ≤ k then (s, 2) else (s.loseStack k, 0)

/-! ### Platform commands -/

def execTopo (m : MCmd) (s : State) : Host.Outcome State Fault Refusal :=
  mgmtCommand 0x0C m false s fun s =>
    if s.ctxs ≠ [] || !s.host.linkUp then (s, 1)
    else ({ s with fabric := { s.fabric with
      deviceId := m.arg.setWidth 10, topology := Config.portSets s.host.mem s.mgmt.arg0.toNat } }, 0)

/-- The first `n` bytes of a string, zero where it is shorter. -/
def fixLen (n : Nat) (b : List Byte) : List Byte := (List.range n).map fun i => b.getD i 0

/-- The report of R433. -/
def State.attestReport (s : State) (nonce : List Byte) : List Byte :=
  let head := fixLen 32 nonce ++ fixLen 32 Config.romDigest ++ fixLen 32 (Config.rootDigest s.image) ++
    fixLen 32 (Config.cpDigest s.image) ++ leBytes 8 identReg.toNat ++ leBytes 8 s.statusReg.toNat ++ List.replicate 112 0
  head ++ fixLen 3309 (Config.attestSignature head) ++ List.replicate 3 0 ++ fixLen 1952 Config.identityKey

/-- ATTEST (R433, R437). -/
def execAttest (m : MCmd) (s : State) : Host.Outcome State Fault Refusal :=
  mgmtCommand 0x0D m true s fun s =>
    if s.mgmt.rmctl.getLsbD 63 || !s.host.linkUp then (s, 1)
    else (s.hostWrite s.mgmt.arg1.toNat (s.attestReport (s.hostRead s.mgmt.arg0.toNat 32)), 0)

/-- R430: every context ends as by a forced reset, the home slices write back, and the image is verified again. -/
def State.warmReset (s : State) : State :=
  let ids := s.ctxs.map fun c => c.id
  let s1 := ids.foldl (fun s c => (s.forceReset c).dropCtx c) s
  let s2 := s1.writeBackAll
  { s2 with
    boot := .step2 true, reservations := [], cores := [],
    fabric := { s2.fabric with requests := [], fetched := [], early := [], comms := [] },
    mgmt := { s2.mgmt with ready := false, recovery := false } }

def execWreset (m : MCmd) (s : State) : Host.Outcome State Fault Refusal :=
  mgmtCommand 0x0E m false s fun s => (s.warmReset, 0)

/-- A FIRMWARE record (R421): unit 0 is the root firmware. -/
def State.reportFirmware (s : State) (unit code : Nat) : State := s.report 5 9 unit 0 code s.openAddr

/-- UPDATE (R420, R436). -/
def execUpdate (m : MCmd) (s : State) : Host.Outcome State Fault Refusal :=
  mgmtCommand 0x0F m false s fun s =>
    let n := bits s.mgmt.arg1.toNat 31 0
    if s.mgmt.recovery || Config.flashSize < n || !s.host.linkUp then (s, 1)
    else
      let b := s.hostRead s.mgmt.arg0.toNat n
      if Config.imageVerifies b then ({ s with flash := b }, 0) else (s.reportFirmware 0 4, 1)

/-! ### Resets, power, heat, firmware -/

/-- COLD_RESET (R430): the flash, the host and what is yet to come about stay. -/
def State.coldReset (s : State) : State :=
  { State.reset with
    agenda := s.agenda, free := s.free, flash := s.flash,
    host := { State.reset.host with mem := s.host.mem, linkUp := s.host.linkUp } }

def execColdReset (s : State) : Host.Outcome State Fault Refusal := .next s.coldReset

/-- POWER_STEP (R428): one step of k, at most once every 10 µs. -/
def execPowerStep (up : Bool) (s : State) : Host.Outcome State Fault Refusal :=
  let k := s.mgmt.clk
  let early := match s.mgmt.clkMoved with
    | some t => s.devclk.toNat < t.toNat + 12500
    | none => false
  .next (if early || (up && 16 ≤ k) || (!up && k ≤ 8) then s
    else s.modMgmt fun m => { m with clk := if up then k + 1 else k - 1, clkMoved := some s.devclk })

/-- DIE_THERMAL_LIMIT (R429). -/
def execDieThermalLimit (_ : BitVec 2) (s : State) : Host.Outcome State Fault Refusal :=
  .next (s.modMgmt fun m => { m with clk := 8 })

/-- DIE_THERMAL_TRIP (R429). -/
def execDieThermalTrip (_ : BitVec 2) (s : State) : Host.Outcome State Fault Refusal := .next s.coldReset

/-- Whether the root firmware runs: before step 3 of R431 the boot ROM does. -/
def State.firmwareRuns (s : State) : Bool :=
  match s.boot with
  | .step1 | .step2 _ | .recovery _ => false
  | .step3 | .step4 | .step5 | .done => true

/-- ROOT_FIRMWARE_FAULT (R421, R430), where the root firmware runs; the record's code is a free value. A command that runs ends
refused (assumption log 34). A reset within step 3 keeps no contents, and the step is made anew (R431; assumption log 73). -/
def execRootFirmwareFault (s : State) : Host.Outcome State Fault Refusal :=
  let s1 := (s.reportFirmware 0 (s.freeAt 16 0 % 16)).warmReset
  let s2 : State := { s1 with boot := .step2 (s.boot ≠ .step3) }
  .next (if !s.firmwareRuns then s else if s.mgmt.busy then s2.endCommand 1 else s2)

/-- R421: the root firmware restarts a command processor, and its streams stop. -/
def State.restartCp (s : State) (die : BitVec 2) (why : Nat) : State :=
  (s.reportFirmware (die.toNat + 1) why).stopStreams (fun x => x.die = die.toNat) 8

/-- CP_RESTART (R421): for a sandbox violation or an exception. -/
def execCpRestart (die : BitVec 2) (why : BitVec 4) (s : State) : Host.Outcome State Fault Refusal :=
  .next (s.restartCp die why.toNat)

/-- CP_WATCHDOG (R421). -/
def execCpWatchdog (die : BitVec 2) (s : State) : Host.Outcome State Fault Refusal := .next (s.restartCp die 3)

end Sys2Proof.Machine
end

