-- ==== Sys2Proof/Machine/HostLink.lean ====
section
/-!
DEFINITION. The host link (R139, R140, R160; R342 to R344, 11_fabric_host.md; R398, R406, R418, R419, 15): the host's
accesses through BAR 2, its atomics, lines it owns, FetchAdds that return, and the loss and return of the link.
-/
namespace Sys2Proof.Machine

def State.reply (s : State) (r : HostReply) : State := { s with host := { s.host with replies := s.host.replies ++ [r] } }

/-- A request that the device does not support (R419). -/
def State.unsupported (s : State) (pa : Nat) : State := (s.report 5 7 0 0 4 (BitVec.ofNat 64 pa)).reply .unsupported

/-- Whether the memory interfaces have been trained and the memory has been zeroed (R431): with fewer than twelve stacks they never
have (R2, R427; assumption log 73). -/
def State.memoryUp (s : State) : Bool :=
  match s.boot with
  | .step1 | .step2 false | .recovery false | .step3 => false
  | .step2 true | .recovery true | .step4 | .step5 | .done => true

/-- Whether `n` bytes from a physical address all exist (R107). -/
def State.spanExists (s : State) (pa n : Nat) : Bool := s.memoryUp && n ≠ 0 && s.paExists pa && s.paExists (pa + (n - 1))

/-- HOST_BAR2_READ (R342, R406): performed at the home slices with no key (R112). -/
def execHostBar2Read (pa size : Nat) (s : State) : Host.Outcome State Fault Refusal :=
  .next (if !s.host.linkUp then s
    else if !s.spanExists pa size then s.unsupported pa
    else if s.locHeld (.mem pa none .home) size then s
    else if s.poisoned pa size then (s.poisonServed 0 pa).reply .poisoned
    else (s.rekeyMem none pa size).reply (.data (s.viewMem none pa size)))

/-- HOST_BAR2_WRITE (R342, R419): a poisoned TLP poisons the lines it touches. -/
def execHostBar2Write (pa : Nat) (data : List Byte) (poisoned : Bool) (s : State) : Host.Outcome State Fault Refusal :=
  .next (if !s.host.linkUp then s
    else if !s.spanExists pa data.length then s.report 5 7 0 0 4 (BitVec.ofNat 64 pa)
    else if s.locHeld (.mem pa none .home) data.length then s
    else if poisoned then (linesOf pa data.length).foldl (fun s l => s.poisonLine 7 0 3 l) s
    else s.writeMem none .home pa data)

/-- Whether a system-atomic range entry covers a physical address (R344). -/
def sarCovers (e : DWord) (pa : Nat) : Bool :=
  let sz := bits e.toNat 56 52
  let base := bits e.toNat 51 21 * 2 ^ 21
  e.getLsbD 63 && sz < 16 && base ≤ pa && pa < base + 2 ^ (21 + sz)

def State.systemAtomic (s : State) (pa : Nat) : Bool := s.mgmt.sar.any fun e => sarCovers e pa

/-- What a host atomic leaves; none when it writes nothing. -/
def hostAtomicNew (op : HostAtomic) (n old b new : Nat) : Option Nat :=
  match op with
  | .fetchAdd => some ((old + b) % 2 ^ (8 * n))
  | .swap => some (b % 2 ^ (8 * n))
  | .cas => if old = b % 2 ^ (8 * n) then some (new % 2 ^ (8 * n)) else none

/-- HOST_ATOMICOP (R160): indivisible on a system-atomic page; elsewhere a read at the home slice, followed by a write there
that is a step of its own. -/
def execHostAtomicop (pa : Nat) (op : HostAtomic) (wide : Bool) (operand newValue : DWord) (s : State) :
    Host.Outcome State Fault Refusal :=
  let n := if wide then 8 else 4
  let loc : Loc := .mem pa none .home
  .next (if !s.host.linkUp || s.host.atomic.isSome then s
    else if pa % n ≠ 0 || !s.spanExists pa n then s.unsupported pa
    else if s.locHeld loc n then s
    else if s.poisoned pa n then (s.poisonServed 0 pa).reply .poisoned
    else
      let old := leNat (s.peek loc n)
      let s1 := s.reply (.old (BitVec.ofNat 64 old))
      match hostAtomicNew op n old operand.toNat newValue.toNat with
      | none => s1.rekeyMem none pa n
      | some x =>
        let s2 := s1.rekeyMem none pa n
        if s.systemAtomic pa then s1.writeMem none .home pa (leBytes n x)
        else { s2 with host := { s2.host with atomic := some (pa, leBytes n x) } })

/-- HOST_LINE_OWNERSHIP (R344): the host takes a line of a system-atomic range, or gives it back with its bytes, which are
none where it did not change them. -/
def execHostLineOwnership (line : Nat) (take : Bool) (data : List Byte) (s : State) : Host.Outcome State Fault Refusal :=
  let own (l : List Nat) : State := { s with storage := { s.storage with hostOwned := l } }
  .next (if !s.host.linkUp then s
    else if take then
      if s.systemAtomic (128 * line) && s.spanExists (128 * line) 128 && !s.locHeld (.mem (128 * line) none .home) 128 then
        own (s.storage.hostOwned ++ [line])
      else s
    else if !s.storage.hostOwned.contains line then s
    else
      let s1 := own (s.storage.hostOwned.filter fun l => l ≠ line)
      if data.length = 128 then s1.writeMem none .home (128 * line) data else s1)

/-! ### Publications -/

/-- FETCHADD_COMPLETE (R140, R440): the FetchAdd is made, and pub's result or the stream gets its answer. -/
def execFetchaddComplete (id : Nat) (s : State) : Host.Outcome State Fault Refusal :=
  .next (match s.host.fetchAdds.find? fun f => f.id = id with
    | none => s
    | some f =>
      if !s.host.linkUp || !s.coveredSent f then s
      else
        let (v, s1) := (s.dropFetchAdd id).countVersion f.pa
        match f.stream with
        | none => s1.modResult f.team f.grp f.result fun r =>
            { r with waits := r.waits.filter (· ≠ id), kind := .fixed (r.dests.filterMap fun d => match d with
              | .g n => some (.g n v)
              | _ => none) }
        | some n => match (s1.stream n).wait with
          | .publish k irq => if k = id then s1.advance n ((s1.stream n).pc + 32) irq else s1
          | _ => s1)

/-! ### The link -/

/-- HOST_LINK_DOWN (R398, R418, R419): the record that reports it waits in the device. -/
def execHostLinkDown (s : State) : Host.Outcome State Fault Refusal :=
  .next (if !s.host.linkUp then s
    else
      let s1 := ({ s with host := { s.host with linkUp := false } } : State).report 2 7 0 0 1 s.openAddr
      let s2 := s1.host.fetchAdds.foldl State.failFetchAdd s1
      let s3 := s2.storage.hostOwned.foldl (fun s l => s.poisonLine 3 (homeSlice (128 * l)) (s.freeAt 7 l) l) s2
      { s3 with storage := { s3.storage with hostOwned := [] } })

/-- HOST_LINK_UP (R398), where the link is fitted (R2): waiting records are written in SEQ order. -/
def execHostLinkUp (s : State) : Host.Outcome State Fault Refusal :=
  .next (if s.host.linkUp || !hostLinkFitted then s else ({ s with host := { s.host with linkUp := true } } : State).flushRecords)

/-- A request over the host link whose time is over (R418, R419). -/
def Request.hostOverdue (now : Nat) (q : Request) : Bool := q.dev.isNone && q.deadline ≤ now

/-- HOST_COMPLETION_TIMEOUT (R418, R419). -/
def execHostCompletionTimeout (s : State) : Host.Outcome State Fault Refusal :=
  .next ((s.fabric.requests.filter (Request.hostOverdue s.devclk.toNat)).foldl (fun s q =>
    (s.report 5 7 0 0 2 (BitVec.ofNat 64 q.addr)).failRequest q (failCause q.use.va none 0 false) none) s)

end Sys2Proof.Machine
end

