-- ==== Sys2Proof/Machine/Clock.lean ====
section
/-!
DEFINITION. What comes about when nothing else moves: the next step of bring-up (R431); one count of the device clock (R31,
R97), with the events that fall due at it, the choice of the quarters (R90 to R92, 03_execution.md), and what the units of the
device do next of themselves (assumption log 1).
-/
namespace Sys2Proof.Machine

/-! ### Bring-up -/

/-- The next step of R431; DEVCLK advances (R31). A part with fewer than twelve stacks stays in step 3 (R427). -/
def State.bringUp (s : State) : State :=
  let s1 : State := { s with devclk := s.devclk + 1, coreclk := s.coreclk + s.mgmt.clk.toNat }
  match s.boot with
  | .step1 => { s1 with boot := .step2 false }
  | .step2 warm =>
    if Config.imageVerifies s.flash then { s1 with image := s.flash, boot := if warm then .step4 else .step3 }
    else { s1 with boot := .recovery warm }.modMgmt fun m => { m with recovery := true }
  | .step3 =>
    if !stacksFitted then s1
    else { s1 with
      boot := .step4,
      storage := { s.storage with
        mem := [], tags := [], dirty := [], poison := [], badParity := [], media := [], journal := [] },
      fabric := { s.fabric with deviceId := 0 } }
  | .step4 => { s1 with boot := .step5 }
  | .step5 => { s1 with boot := .done }.modMgmt fun m => { m with ready := true }
  | .recovery _ | .done => s1

/-! ### The barrier order of a cycle -/

/-- Puts an entry into a list that rises by a number, after those of the same number. -/
def insertBy (f : α → Nat) (x : α) : List α → List α
  | [] => [x]
  | a :: l => if f x < f a then x :: a :: l else a :: insertBy f x l

def sortBy (f : α → Nat) (l : List α) : List α := l.reverse.foldr (fun x r => insertBy f x r) []

/-- What comes first on a core in a cycle: quarters in ascending order, in each the lane pipe, the group pipe, then by group slot what
its groups have performed in the pool (R161, R205, R270). -/
def laneRank (x : Team) (h : Group) : Nat := 32 * (4 * x.core + h.slot / 16)

/-- Where the performing of an access or barrier operation of a group stands: on the own core, or after all of those on another core
than its own, by its core and slot (R161). -/
def State.performRank (s : State) (x : Team) (h : Group) (l : Loc) : Nat :=
  let away := match l with
    | .scr _ _ => !(s.onCore x.core l)
    | .mem _ _ _ | .peer _ _ | .remote _ _ | .host _ | .window _ => false
  if away then 2 ^ 20 + 64 * x.core + h.slot else laneRank x h + 2 + h.slot % 16

/-- The barrier word that an instruction names (R279). -/
def State.barNamed (s : State) (x : Team) (h : Group) (i : Instr) : Option Loc :=
  match i with
  | .gbarInit f | .gbarArrive f | .gbarExpect f | .gbarExpa f | .gbarWait f | .gbarTry f =>
    (s.scrPlace x ((h.greg f.a.toNat).setWidth 32) 8).map fun e => .scr e.1 e.2
  | _ => none

/-- Where the issue of an instruction stands. -/
def State.issueRank (s : State) (x : Team) (h : Group) (lane : Bool) (i : Option Instr) : Nat :=
  match i.bind (s.barNamed x h) with
  | some l => s.performRank x h l
  | none => if lane then laneRank x h else laneRank x h + 1

/-! ### The choice of instructions -/

/-- A split that is ready for a pipe (R90), with its instruction's place in the cycle. -/
structure Ready where
  team : Nat
  grp : Nat
  slot : Nat
  split : Nat
  lane : Bool
  rank : Nat
  prio : Nat
  boosted : Bool
  waited : Nat
  idle : Nat
deriving DecidableEq

/-- R92: the group of least progress in its role is boosted while the leader is far enough ahead. -/
def State.boosted (s : State) (h : Group) : Bool :=
  let peers := s.groups.filter fun y => y.team = h.team && y.role = h.role && !y.isOver
  let less (a b : Group) : Bool := a.arrivals < b.arrivals || (a.arrivals = b.arrivals && a.retired < b.retired)
  let least := peers.all fun y => !less y h && (less h y || h.gid ≤ y.gid)
  h.role ≠ 3 && 2 ≤ peers.length && least &&
    peers.any fun y => h.arrivals < y.arrivals || (h.arrivals = y.arrivals && h.retired + 128 ≤ y.retired)

/-- The next instruction of a split; none of what cannot be fetched, which counts as the group pipe's. -/
def State.nextInstr (s : State) (t g p : Nat) : Option Instr :=
  match s.fetch t g p with
  | .run i _ => some i
  | .instead _ => none

/-- A split that stands before an instruction, as a pipe sees it. -/
def State.readyAt (s : State) (x : Team) (h : Group) (p : Split) : Ready :=
  let i := s.nextInstr h.team h.gid p.id
  let lane := ((i.bind fun i => i.form).map fun f => f.1).getD false
  { team := h.team, grp := h.gid, slot := h.slot, split := p.id, lane := lane, rank := s.issueRank x h lane i,
    prio := ((s.grid? x.grid).map fun g => g.launch.prio).getD 0, boosted := s.boosted h,
    waited := if lane then p.readyLane else p.readyGroup, idle := p.idle }

/-- The splits of a core's quarter (R67) that are neither held, parked nor halted and whose windows let them issue, of those that
`which` picks by their numbers. -/
def State.openSplits (s : State) (core q : Nat) (which : Nat → Nat → Nat → Bool) : List (Team × Group × Split) :=
  s.groups.flatMap fun h => match s.team? h.team with
    | none => []
    | some x =>
      if x.core ≠ core || h.slot / 16 ≠ q then []
      else (h.splits.filter fun p => mayIssue x h p && !windowWaits h p && which h.team h.gid p.id).map fun p => (x, h, p)

/-- The ready splits of a quarter (R90): `can` tells of which the instruction can go now, engine reservations and all. -/
def State.readySplits (s : State) (core q : Nat) (can : State → Nat → Nat → Nat → Bool) : List Ready :=
  (s.openSplits core q (can s)).map fun e => s.readyAt e.1 e.2.1 e.2.2

/-- The first of a list by an order. -/
def firstBy (better : Ready → Ready → Bool) : List Ready → Option Ready
  | [] => none
  | r :: rs => some (rs.foldl (fun b x => if better x b then x else b) r)

/-- R91, from the ready splits of one pipe; and whether the cycle counts among those of its third rule. Of overdue splits that have
waited equally long the first in the list of groups goes first, which the spec does not name (assumption log 64). -/
def chooseSplit (turn : Nat) (l : List Ready) : Option Ready × Bool :=
  let overdue := l.filter fun r => 192 ≤ r.waited
  if overdue ≠ [] then (firstBy (fun a b => b.waited < a.waited) overdue, false)
  else
    let top := l.foldl (fun m r => max m r.prio) 0
    let cls := l.filter fun r => r.prio = top
    let both := cls.any (·.boosted) && cls.any fun r => !r.boosted
    let narrow := if both then cls.filter fun r => r.boosted = decide (turn % 3 < 2) else cls
    (firstBy (fun a b => b.idle < a.idle || (a.idle = b.idle && (a.slot < b.slot || (a.slot = b.slot && a.split < b.split))))
      narrow, both)

/-- The counts of R91 of a split: the cycles in a row for which it was ready for a pipe; an issue ends them. -/
def Split.afterCycle (p : Split) (r : Option Ready) : Split :=
  match r with
  | none => { p with readyLane := 0, readyGroup := 0 }
  | some x =>
    if x.lane then { p with readyLane := p.readyLane + 1, readyGroup := 0 }
    else { p with readyLane := 0, readyGroup := p.readyGroup + 1 }

/-- One pipe of one quarter chooses. -/
def State.choosePipe (s : State) (core q : Nat) (lane : Bool) (l : List Ready) : Option Ready × State :=
  let key := (core, q, lane)
  let turn := ((s.turns.find? fun e => e.1 = key).map fun e => e.2).getD 0
  let (r, both) := chooseSplit turn (l.filter fun r => r.lane = lane)
  (r, if both then { s with turns := (key, turn + 1) :: s.turns.filter fun e => e.1 ≠ key } else s)

/-- One quarter chooses for both pipes, and its splits' counts go on. -/
def State.chooseQuarter (s : State) (core q : Nat) (can : State → Nat → Nat → Nat → Bool) : List Ready × State :=
  let l := s.readySplits core q can
  let (a, s1) := s.choosePipe core q true l
  let (b, s2) := s1.choosePipe core q false l
  let here (h : Group) : Bool := h.slot / 16 = q && s.teams.any fun x => x.uid = h.team && x.core = core
  let after (h : Group) (p : Split) : Split := p.afterCycle (l.find? fun r => r.team = h.team && r.grp = h.gid && r.split = p.id)
  (a.toList ++ b.toList, { s2 with groups := s2.groups.map fun h => if here h then { h with splits := h.splits.map (after h) } else h })

/-- The quarters of the cores that hold a group. -/
def State.busyQuarters (s : State) : List (Nat × Nat) :=
  ((s.teams.map fun x => x.core).eraseDups).flatMap fun c => [(c, 0), (c, 1), (c, 2), (c, 3)]

/-- A cycle more has passed since any split last issued. -/
def Group.wait (h : Group) : Group := { h with splits := h.splits.map fun p => { p with idle := p.idle + 1 } }

/-- Whether the issue of a group's split has done nothing but what comes before it: its instruction could not go yet. Asked of a split
that has waited a cycle. -/
def State.idled (s : State) (t g p : Nat) (s' : State) : Bool :=
  match s.group? t g, s'.group? t g with
  | some h, some h' => (h'.split? p).any (fun q => q.idle ≠ 0) && h'.raisers = h.raisers && h'.stalled = h.stalled
  | _, _ => false

/-! ### Events that fall due -/

/-- Merges and releases at the top of a cycle, holds that have lasted too long (R77, R78); then the quarters choose. -/
def State.cycleMoves (s : State) : List Move :=
  (s.groups.flatMap fun h =>
    ((h.splits.filter fun p => p.held.any fun c => 1024 ≤ s.cycle - c).map fun p => .event (.holdTimeout h.team h.gid p.id)) ++
    (if h.mergeDue || h.releaseDue then [.event (.splitMerge h.team h.gid)] else [])) ++ [.choose]

/-- Timer traps, handler entry and resume (R98, R368, R371). -/
def State.teamMoves (s : State) : List Move :=
  s.teams.flatMap fun x =>
    (if s.timerDue x then [.event (.timerTrap x.uid)] else []) ++
    (if x.halted && !x.handler && 24 * 16 < x.haltAge && s.teamQuiet x.uid then [.event (.handlerEntry x.uid)] else []) ++
    (if x.handler then [.event (.teamResume x.uid)] else [])

/-- Ends of drains, their deadlines, timeouts (R389, R393, R404, R414, R416, R418). -/
def State.timeMoves (s : State) : List Move :=
  (s.ctxs.flatMap fun c =>
    if c.phase ≠ .draining then []
    else if c.deadline ≤ s.devclk.toNat then [.event (.preemptDeadline (BitVec.ofNat 4 c.id))]
    else [.event (.contextDrainComplete (BitVec.ofNat 4 c.id))]) ++
  ((s.fabric.requests.filter fun q => q.dev.isSome && s.overdue q).map fun q => .event (.peerTimeout q.tag)) ++
  (if s.fabric.requests.any (Request.hostOverdue s.devclk.toNat) then [.event .hostCompletionTimeout] else []) ++
  ((s.colls.flatMap fun c => c.kept.filter fun e => e.deadline.any (· ≤ s.devclk.toNat)).map fun e => .event (.peerTimeout e.packet.tag)) ++
  ((s.colls.filter fun c => c.stage = 0 && 2 ≤ c.ranks && c.deadline ≤ s.devclk.toNat).map fun c =>
    .event (.collectiveTimeout c.uid)) ++
  ((s.storage.silent.filter fun e => s.stackLive e.1 && e.2 ≤ s.devclk.toNat).map fun e => .event (.stackTimeout e.1)) ++
  (if s.host.atomic.isSome then [.hardware .hostAtomicWrite] else [])

/-! ### What the units do of themselves -/

/-- Stores and accesses of long-latency instructions, results (R152, R187), each with its place in the barrier order (R161): of each
store queue the first entry that can be performed. -/
def State.groupMoves (s : State) : List (Nat × Move) :=
  s.groups.flatMap fun h => match s.team? h.team with
    | none => []
    | some x =>
      ((h.queue.zipIdx.find? fun e => s.mayPerform x h e.1).toList.map fun e =>
        (s.performRank x h e.1.loc, .event (.storePerformed h.team h.gid e.2))) ++
      h.results.zipIdx.flatMap fun (r, i) =>
        if r.done then []
        else if r.pend ≠ [] then r.pend.map fun a => (s.performRank x h a.loc, .event (.longLatencyResult h.team h.gid ⟨i, a.idx⟩))
        else if r.waits = [] then [(2 ^ 23, .event (.longLatencyResult h.team h.gid ⟨i, 0⟩))]
        else []

/-- The moves of a copy's tiles, each with its place in the barrier order (R161): by landing slot, then by copy unit. -/
def State.tileMoves (s : State) (c : Copy) : List (Nat × Move) :=
  if c.dstScr then
    (c.tiles.zipIdx.filter fun t => t.1.st = .granted || t.1.st = .sent).map fun t =>
      (2 ^ 21 + 16 * s.landingCore c + t.1.slot, .event (.tileLanding c.uid t.2))
  else
    let at_ (k : Nat) : Nat × Move := (2 ^ 22 + c.unit, .event (.copyCredit c.uid k))
    ((c.tiles.zipIdx.filter fun t => t.1.st = .sent).map fun t => at_ t.2) ++ c.nextTile.toList.map at_ ++
      (if c.tiles = [] then [at_ 0] else [])

/-- One issue cycle of every quarter of every core: what splits that cannot issue do before, then what is chosen (R91) and what is
performed in this cycle, in the barrier order (R161). -/
def State.issueCycle (s0 : State) (can : State → Nat → Nat → Nat → Bool) : State :=
  let s : State := { s0 with groups := s0.groups.map Group.wait }
  let before := s.busyQuarters.flatMap fun e => (s.openSplits e.1 e.2 fun t g p => !can s t g p).map fun e =>
    Move.attempt e.2.1.team e.2.1.gid e.2.2.id
  let (l, s1) := s.busyQuarters.foldl (fun (a : List Ready × State) e =>
    let (m, s1) := a.2.chooseQuarter e.1 e.2 can
    (a.1 ++ m, s1)) ([], s)
  let moves := sortBy (fun e : Nat × Move => e.1)
    ((l.map fun r => (r.rank, .issue r.team r.grp r.split)) ++ s.groupMoves ++ s.copies.flatMap s.tileMoves)
  { s1 with agenda := before ++ moves.map (fun e => e.2) ++ s1.agenda }

/-- Convocations, permits, engine operations (R132, R301, R316). -/
def State.engineMoves (s : State) : List Move :=
  (s.teams.flatMap fun x => (x.convs.filter Conv.mayEnd).map fun c => .event (.convocationEnd x.uid (BitVec.ofNat 4 c.tag))) ++
  ((s.copies.filter fun c => c.dstScr).map fun c => .event (.permitGrant c.uid)) ++
  s.cores.flatMap fun c =>
    (if c.engine.any fun o => !o.started then [.event (.matrixOpStart c.id)] else []) ++
    (match c.engine.find? fun o => o.started with
      | some o => [.event (.matrixOpComplete c.id o.uid)]
      | none => [])

/-- Placement (R86 to R89): a grid that can be placed, or a gang that waits and has no file reserved yet. -/
def State.placementMoves (s : State) : List Move :=
  let gs := s.waitingGrids
  match gs.findSome? fun g => (List.range 384).find? (s.placeable g) with
  | some c => [.event (.teamPlacement c)]
  | none =>
    if gs.any fun g => 2 ≤ g.launch.gang && !(s.standing.any fun r => r.1 = g.uid) then [.event (.teamPlacement 0)] else []

/-- Streams, placement, spawned groups, the end of grids (R81 to R95). -/
def State.streamMoves (s : State) : List Move :=
  ((List.range 64).flatMap fun n =>
    let x := s.stream n
    (if x.copies = [] then [] else [.event (.hcopyComplete n)]) ++
    (if !x.running then [] else match x.wait with
      | .none => [.command n]
      | .phase _ _ _ _ _ => [.event (.waitphPoll n)]
      | .publish k _ => [.event (.fetchaddComplete k)]
      | .page _ => [])) ++
  s.placementMoves ++
  (s.cores.flatMap fun c => (c.forming.filter (s.startable c.id)).map fun f => .event (.spawnedGroupStart c.id f.entry)) ++
  (s.grids.flatMap fun g =>
    (match g.restored.head? with
      | some e => [.event (.spawnedGroupStart (s.freeAt 17 g.uid % 384) e.1)]
      | none => []) ++
    (if s.gridDone g then [.event (.gridComplete g.uid)] else []))

/-- The running management command, publications, collectives and their plans, journals, retention (R437, R140, R336, R337, R120,
R124). -/
def State.otherMoves (s : State) : List Move :=
  (if s.mgmt.busy then [.event (decodeBar0 0x20 s.mgmt.mcmd)] else []) ++
  ((s.host.fetchAdds.filter fun f => f.stream.isNone).map fun f => .event (.fetchaddComplete f.id)) ++
  (s.colls.flatMap fun c => c.planning.map fun p => .event (.plan p)) ++
  ((s.colls.filter fun c => c.stage < 3 || c.inbox ≠ []).map fun c => .event (.collectiveComplete c.uid)) ++
  ((s.storage.journal.take 1).map fun e => .event (.journalApply e.stack 0)) ++
  ((s.storage.retained.filter fun r => r.2.1 ≠ .held).map fun r => .event (.retentionComplete (BitVec.ofNat 4 r.1))) ++
  (if s.storage.reshaping then
    (if s.storage.watermarks.all (· = 0) then [.event .reshapeComplete]
     else ((List.range 16).filter fun b => s.storage.watermarks.getD b 0 ≠ 0).map fun b => .hardware (.reshapeMove b))
   else [])

/-! ### The clock -/

/-- DEVCLK advances, with it CTXCLK of each context that has resident work, the core clock, and the time since a halt broadcast
(R31, R97, R365). -/
def State.count (s : State) : State :=
  { s with
    devclk := s.devclk + 1,
    coreclk := s.coreclk + s.mgmt.clk.toNat,
    teams := s.teams.map fun x => if x.halted && !x.handler then { x with haltAge := x.haltAge + s.mgmt.clk.toNat } else x,
    ctxs := s.ctxs.map fun c => if s.residentWork c.id then { c with ctxclk := c.ctxclk + 1 } else c }

/-- One count of the clock: fences that are over complete, lines that translate by now are owned, and what then moves is put on the
agenda. Once in each cycle of the core clock (R31) the quarters choose, after the timers are tested (R98, R227), and accesses are
performed. -/
def State.tick (s0 : State) : State :=
  let s := s0.count.reap.endFences.takeLines
  { s with agenda := s.teamMoves ++ (if s0.cycle < s.cycle then s.cycleMoves else []) ++ s.timeMoves ++ s.engineMoves ++ s.streamMoves ++ s.otherMoves }

end Sys2Proof.Machine
end

