-- ==== Sys2Proof/Machine/Flags.lean ====
section
/-!
DEFINITION. Conditions and predicate logic: this machine keeps no carry, overflow or condition flag (R204); compares
write predicates (R214) and plop combines three of them (R216).
-/
namespace Sys2Proof.Machine

/-- The condition of code `f` between two values of `w` bits (R214). -/
def condHolds (f : BitVec 3) (w a b : Nat) : Bool :=
  if f = 0 then a = b
  else if f = 1 then a ≠ b
  else if f = 2 then toSigned w a < toSigned w b
  else if f = 3 then toSigned w b ≤ toSigned w a
  else if f = 4 then a < b
  else if f = 5 then b ≤ a
  else a &&& b ≠ 0

/-- The bit of an 8-bit truth table that three predicates select (R216). -/
def tableBit (t : BitVec 8) (a b f : Bool) : Bool :=
  t.getLsbD (4 * a.toNat + 2 * b.toNat + f.toNat)

end Sys2Proof.Machine
end

