-- ==== Sys2Proof/Machine/FloatOps.lean ====
section
/-!
DEFINITION. The lane-pipe floating-point arithmetic, comparisons, classification and conversions (R242 to R246,
R249 to R253, 08_isa_vector.md).
-/
namespace Sys2Proof.Machine

/-- Bits of one element of a floating-point type, and elements in an operand (R38, R184). -/
def fpBits (m : BitVec 4) : Nat := if m = 0 then 64 else if m = 2 || m = 3 then 16 else 32
def fpElems (m : BitVec 4) : Nat := if m = 2 || m = 3 then 2 else 1

/-- One operation on every element of its operands (R38). -/
def fpMap (m : BitVec 4) (f : Nat → Nat → Nat → Nat) (a b c : DWord) : DWord :=
  packElems (fpBits m) (fpElems m) fun k =>
    (f (elemNat (fpBits m) k a) (elemNat (fpBits m) k b) (elemNat (fpBits m) k c) : Nat)

/-- FARITH of R242 on one element. -/
def farith (F : Fmt) (mode : Mode) (ftz : Bool) (op : FVal → FVal → FVal → FVal) (a b c : Nat) : Nat :=
  let rd n := F.flush ftz (F.value n)
  F.code (F.flush ftz (F.round mode (op (rd a) (rd b) (rd c))))

/-- FARITH on the operands of one lane. -/
def Here.farith (k : Here) (mode : Mode) (op : FVal → FVal → FVal → FVal) (l : Nat) : DWord :=
  let n := fpRegs k.f.m
  fpMap k.f.m (Machine.farith (fmtOf k.f.m.toNat) mode (k.f.f.getLsbD 2) op) (k.srcA n l) (k.srcB n l) (k.srcC n l)

/-- A meaning of R242 to R244 and R253: `op` gives the exact value in the instruction's mode. -/
def issueFloat (c : Long → Instr) (i : Long) (s : State) (mode : Mode) (op : FVal → FVal → FVal → FVal) :
    Host.Outcome State Fault Refusal :=
  issueLanes (c i) s (fpRegs i.m) fun k l => k.farith mode op l

/-- The long-latency ones of R238. -/
def issueFloatLong (c : Long → Instr) (i : Long) (s : State) (mode : Mode) (op : FVal → FVal → FVal → FVal) :
    Host.Outcome State Fault Refusal :=
  issueLong (c i) s (fpRegs i.m) fun k l => k.farith mode op l

/-- The rounding mode of F[1:0] (R184). -/
def Long.mode (i : Long) : Mode := modeOf (i.f.toNat % 4)

def execFadd (i : Long) (s : State) := issueFloat .fadd i s (Long.mode i) fun a b _ => FVal.add (Long.mode i) a b
def execFsub (i : Long) (s : State) := issueFloat .fsub i s (Long.mode i) fun a b _ => FVal.add (Long.mode i) a b.neg
def execFmul (i : Long) (s : State) := issueFloat .fmul i s (Long.mode i) fun a b _ => a.mul b
def execFfma (i : Long) (s : State) := issueFloat .ffma i s (Long.mode i) fun a b c => FVal.add (Long.mode i) (a.mul b) c
def execFdiv (i : Long) (s : State) := issueFloatLong .fdiv i s (Long.mode i) fun a b _ => a.div b
def execFsqrt (i : Long) (s : State) := issueFloatLong .fsqrt i s (Long.mode i) fun a _ _ => a.sqrt

/-- R244: the result is one of the operands as read, or the default NaN. -/
def execFmin (i : Long) (s : State) := issueFloat .fmin i s .ne fun a b _ => FVal.minMax false (i.f.getLsbD 0) a b
def execFmax (i : Long) (s : State) := issueFloat .fmax i s .ne fun a b _ => FVal.minMax true (i.f.getLsbD 0) a b

/-- R245 on one element of `w` bits: only the sign bit of `a` changes. -/
def signOp (f : BitVec 3) (w a b : Nat) : Nat :=
  let sa := a.testBit (w - 1)
  let sb := b.testBit (w - 1)
  let sg := if f.extractLsb' 0 2 = 0 then sb else if f.extractLsb' 0 2 = 1 then !sb else sa != sb
  a % 2 ^ (w - 1) + (if sg then 2 ^ (w - 1) else 0)

def execFsgn (i : Long) (s : State) :=
  let n := fpRegs i.m
  issueLanes (.fsgn i) s n fun k l => fpMap i.m (fun a b _ => signOp i.f (fpBits i.m) a b) (k.srcA n l) (k.srcB n l) 0

/-- The condition of code `c` (R246). -/
def fcondHolds (c : Nat) (a b : FVal) : Bool :=
  let un := a.isNan || b.isNan
  match c with
  | 0 => a.eqv b
  | 1 => un || !a.eqv b
  | 2 => a.lt b
  | 3 => a.lt b || a.eqv b
  | 4 => b.lt a
  | 5 => b.lt a || a.eqv b
  | 6 => un
  | _ => !un

def execFcmp (i : Long) (s : State) :=
  let F := fmtOf i.m.toNat
  let n := fpRegs i.m
  let rd x := F.flush (i.f.getLsbD 2) (F.value (elemNat (fpBits i.m) 0 x))
  issueRegs (.fcmp i) s fun k h => h.setPred i.d.toNat k.mask fun l =>
    fcondHolds i.c.toNat (rd (k.srcA n l)) (rd (k.srcB n l))

/-- The mask of R249 for a code of a format. -/
def classMask (F : Fmt) (code : Nat) : Nat :=
  match F.value code with
  | .nan => if (code / 2 ^ F.pad).testBit (F.fb - 1) then 512 else 256
  | .inf neg => if neg then 1 else 128
  | .fin neg m e =>
    if m = 0 then (if neg then 8 else 16)
    else if F.tiny (.fin neg m e) then (if neg then 4 else 32)
    else if neg then 2 else 64

def execFclass (i : Long) (s : State) :=
  issueLanes (.fclass i) s 1 fun k l => fpMap i.m (fun a _ _ => classMask (fmtOf i.m.toNat) a) (k.srcA (fpRegs i.m) l) 0 0

/-! ### Conversions -/

/-- Bits between the elements that `sel` picks in an operand of a format (R240): bytes for an MX element. -/
def selBits (m : BitVec 4) : Nat := if isMx m then 8 else fpBits m

/-- Element `sel` of an operand (R240). -/
def selElem (m : BitVec 4) (sel : Nat) (x : DWord) : Nat :=
  elemNat (selBits m) sel x % 2 ^ (if isMx m then fmtBits m else 64)

/-- An operand with element `sel` replaced; a 32-bit or 64-bit destination is written whole (R240). -/
def setElem (m : BitVec 4) (sel : Nat) (base : DWord) (code : Nat) : DWord :=
  if isNarrow m then
    let w := selBits m
    (base &&& ~~~(BitVec.ofNat 64 ((2 ^ w - 1) * 2 ^ (w * sel)))) ||| BitVec.ofNat 64 (code * 2 ^ (w * sel))
  else BitVec.ofNat 64 code

/-- LINIDX of R50. -/
def linIdx (k : Here) (lane e : Nat) : Nat :=
  (((k.team.teamId.toNat * 32 + k.grp.gid) * 32 + lane) * 4 + e) % 2 ^ 48

/-- The mode of an F field with the stochastic code 4 (R250, R256): its draw is SRMIX of the grid's seed, the stream
number and the index (R49 to R51). -/
def State.modeRs (s : State) (k : Here) (f : BitVec 3) (stream lane e : Nat) : Mode :=
  if f = 4 then .rs (srmix (((s.grid? k.team.grid).map fun g => g.seed).getD 0) stream (linIdx k lane e))
  else modeOf f.toNat

/-- Whether .ftz of fcvt applies: both formats binary32 or narrower IEEE formats (R250). -/
def ftzFormat (m : BitVec 4) : Bool := 1 ≤ m && m ≤ 4

/-- R250: the code of the converted value. -/
def fcvtOp (src dst : BitVec 4) (ftz : Bool) (mode : Mode) (x : Nat) : Nat :=
  let S := fmtOf src.toNat
  let D := fmtOf dst.toNat
  let z := ftz && ftzFormat src && ftzFormat dst
  let v := S.flush z (S.value x)
  if isMx dst then (D.quant mode 0x7F v).1
  else if isMx src then D.code (dequant S D mode 0x7F x)
  else D.code (D.flush z (D.round mode v))

def execFcvt (i : Long) (s : State) :=
  let dst : BitVec 4 := i.c.extractLsb' 0 4
  let sel := (i.c.extractLsb' 5 2).toNat
  issueLanes (.fcvt i) s (fpRegs dst) fun k l =>
    let x := selElem i.m (if isNarrow i.m then sel else 0) (k.srcA (fpRegs i.m) l)
    let mode := s.modeRs k i.f (bits (k.srcB 1 l).toNat 31 16) l sel
    setElem dst sel (k.src (fpRegs dst) i.d.toNat false l) (fcvtOp i.m dst (i.c.getLsbD 4) mode x)

/-- A finite value rounded to an integer in a mode (R251, R253: ROUNDV with u = 1). -/
def roundInt (mode : Mode) (neg : Bool) (m : Nat) (e : Int) : Int :=
  let n := roundUnits mode neg m e 0
  if neg then -(n : Int) else n

/-- R251. -/
def f2iOp (F : Fmt) (dst : BitVec 4) (mode : Mode) (x : Nat) : Int :=
  match F.value x with
  | .nan => 0
  | .inf neg => if neg then leastOf dst else greatestOf dst
  | .fin neg m e => clampTo (leastOf dst) (greatestOf dst) (roundInt mode neg m e)

def execF2i (i : Long) (s : State) :=
  let dst : BitVec 4 := i.c.extractLsb' 0 4
  issueLanes (.f2i i) s (intRegs dst) fun k l =>
    BitVec.ofInt 64 (f2iOp (fmtOf i.m.toNat) dst (Long.mode i) (selElem i.m (i.c.extractLsb' 4 2).toNat (k.srcA (fpRegs i.m) l)))

/-- R252. -/
def i2fOp (src : BitVec 4) (F : Fmt) (mode : Mode) (a : DWord) : Nat :=
  let x := elemVal src 0 a
  F.roundCode mode (.fin (x < 0) x.natAbs 0)

def execI2f (i : Long) (s : State) :=
  let dst : BitVec 4 := i.c.extractLsb' 0 4
  let n := fpRegs dst
  issueLanes (.i2f i) s n fun k l =>
    setElem dst (i.c.extractLsb' 4 2).toNat (k.src n i.d.toNat false l)
      (i2fOp i.m (fmtOf dst.toNat) (Long.mode i) (k.srcA (intRegs i.m) l))

/-- R253: to an integral value; a zero result keeps the sign. -/
def frndVal (F : Fmt) (mode : Mode) (x : FVal) : FVal :=
  match x with
  | .fin neg m e => if (F.prec : Int) - 1 ≤ (Nat.log2 m : Int) + e && m ≠ 0 then x else .fin neg (roundUnits mode neg m e 0) 0
  | _ => x

def execFrnd (i : Long) (s : State) :=
  issueFloat .frnd i s (Long.mode i) fun a _ _ => frndVal (fmtOf i.m.toNat) (Long.mode i) a

end Sys2Proof.Machine
end

