-- ==== Sys2Proof/Machine/Blocks.lean ====
section
/-!
DEFINITION. The block-scale instructions (R254 to R258, 08_isa_vector.md): a group is one MX block wide.
-/
namespace Sys2Proof.Machine

/-- Source A of the participating lanes as values of the instruction's type; the other lanes count as +0 and change
neither a maximum nor a scale (R254, R255). -/
def Here.blockVals (k : Here) : List FVal :=
  (laneList k.mask).map fun l => (fmtOf k.f.m.toNat).value (k.srcA (fpRegs k.f.m) l).toNat

/-- R254. -/
def execBmax (i : Long) (s : State) :=
  issueRegs (.bmax i) s fun k h => h.setG i.d.toNat (BitVec.ofNat 64 ((fmtOf i.m.toNat).code (bmaxOf k.blockVals)))

/-- R255. -/
def execBscale (i : Long) (s : State) :=
  issueRegs (.bscale i) s fun k h => h.setG i.d.toNat
    (BitVec.ofNat 64 (bscaleOf (fmtOf (i.c.toNat % 16)) (if i.f.getLsbD 0 then 1 else 0) k.blockVals))

/-- QUANT of R256 in one lane. -/
def bquantLane (s : State) (i : Long) (k : Here) (l : Nat) : Nat × Bool :=
  let wide := i.c.getLsbD 0
  let sel := (i.c.extractLsb' 1 2).toNat
  let b := (k.srcB 1 l).toNat
  let x := (if wide then f64 else f32).value (k.srcA (if wide then 2 else 1) l).toNat
  (fmtOf i.m.toNat).quant (s.modeRs k i.f (bits b 31 16) l sel) (bits b 7 0) x

def execBquant (i : Long) (s : State) :=
  issueRegs (.bquant i) s fun k h =>
    let sel := (i.c.extractLsb' 1 2).toNat
    (h.setLanes i.d.toNat 1 k.mask fun l => setElem i.m sel (k.src 1 i.d.toNat false l) (bquantLane s i k l).1).setPred
      (i.c.extractLsb' 3 3).toNat k.mask fun l => (bquantLane s i k l).2

/-- R257. -/
def execBdequant (i : Long) (s : State) :=
  let wide := i.c.getLsbD 0
  let D := if wide then f64 else f32
  issueLanes (.bdequant i) s (if wide then 2 else 1) fun k l =>
    BitVec.ofNat 64 (D.code (dequant (fmtOf i.m.toNat) D .ne ((k.srcB 1 l).toNat % 256)
      (selElem i.m (i.c.extractLsb' 1 2).toNat (k.srcA 1 l))))

/-- R258, R44. -/
def execBnf (i : Long) (s : State) :=
  issueRegs (.bnf i) s fun k h => h.setQ i.d.toNat ((laneList k.mask).any fun l =>
    ((fmtOf i.m.toNat).value (selElem i.m (i.c.extractLsb' 0 2).toNat (k.srcA (fpRegs i.m) l))).nonFinite ||
      (isMx i.m && (k.srcB 1 l).toNat % 256 = 255))

end Sys2Proof.Machine
end

