-- ==== Sys2Proof/Machine/Exchange.lean ====
section
/-!
DEFINITION. The lane-exchange instructions (R259 to R262, 08_isa_vector.md).
-/
namespace Sys2Proof.Machine

/-- The lane that lane `i` names under a pattern (R259). -/
def exchangeLane (pattern w b i : Nat) : Nat :=
  let r := i % w
  let s := i - r
  match pattern with
  | 0 => s + b % w
  | 1 => s + (r + b) % w
  | 2 => s + (w - 1 - r)
  | _ => s + (r ^^^ (b % w))

def execLxch (i : Long) (s : State) :=
  let n := intRegs i.m
  issueLanes (.lxch i) s n fun k l =>
    let b := if i.f.getLsbD 2 then i.b.toNat else (k.srcB 1 l).toNat
    let j := exchangeLane (i.f.toNat % 4) (2 ^ (i.c.toNat % 8)) b l
    k.srcA n (if k.mask.getLsbD j then j else l)

/-- R260. -/
def execLpred (i : Long) (s : State) :=
  issueRegs (.lpred i) s fun k h =>
    let p := k.grp.pmask i.a.toNat
    let m := (if i.f.getLsbD 2 then ~~~p else p) &&& k.mask
    if i.f.extractLsb' 0 2 = 0 then h.setQ i.d.toNat (m ≠ 0)
    else if i.f.extractLsb' 0 2 = 1 then h.setQ i.d.toNat (m = k.mask)
    else h.setG i.d.toNat (m.setWidth 64)

/-- The identity of operations 0 to 5 of R261, as the type's integer. -/
def reduceIdentity (op : Nat) (m : BitVec 4) : Int :=
  match op with
  | 1 => greatestOf m
  | 2 => leastOf m
  | 3 => 2 ^ operandBits m - 1
  | _ => 0

/-- One step of operations 0 to 5 of R261. -/
def reduceStep (op : Nat) (m : BitVec 4) (a b : Int) : Int :=
  match op with
  | 0 => elemVal m 0 (BitVec.ofInt 64 (a + b))
  | 1 => min a b
  | 2 => max a b
  | 3 => ((a.toNat &&& b.toNat : Nat) : Int)
  | 4 => ((a.toNat ||| b.toNat : Nat) : Int)
  | _ => ((a.toNat ^^^ b.toNat : Nat) : Int)

/-- Operations 0 to 5 over the lanes of a mask (R261, R262). -/
def reduceLanes (op : Nat) (m : BitVec 4) (a : Nat → DWord) (mask : LaneMask) : Int :=
  (laneList mask).foldl (fun r l => reduceStep op m r (elemVal m 0 (a l))) (reduceIdentity op m)

/-- One level of the tree of R261. -/
def sumLevel (F : Fmt) (mode : Mode) : List FVal → List FVal
  | a :: b :: l => F.round mode (FVal.add mode a b) :: sumLevel F mode l
  | l => l

/-- The five levels of R261. -/
def sumTree (F : Fmt) (mode : Mode) (l : List FVal) : FVal :=
  ((List.range 5).foldl (fun l _ => sumLevel F mode l) l).getD 0 .nan

/-- Operations 6 to 8 of R261: the value reduced over the participating lanes. -/
def freduce (op : Nat) (F : Fmt) (mode : Mode) (a : Nat → DWord) (mask : LaneMask) : FVal :=
  if op = 6 then
    sumTree F mode ((List.range 32).map fun l => if mask.getLsbD l then F.value (a l).toNat else .fin true 0 0)
  else (laneList mask).foldl (fun r l => FVal.minMax (op = 8) false r (F.value (a l).toNat)) (.inf (op = 8))

def execLred (i : Long) (s : State) :=
  issueRegs (.lred i) s fun k h =>
    let op := i.c.toNat
    h.setG i.d.toNat
      (if op ≤ 5 then groupResult i.m (BitVec.ofInt 64 (reduceLanes op i.m (k.srcA (intRegs i.m)) k.mask))
       else BitVec.ofNat 64 ((fmtOf i.m.toNat).code
        (freduce op (fmtOf i.m.toNat) (Long.mode i) (k.srcA (fpRegs i.m)) k.mask)))

/-- R262: F[0] leaves lane i itself out. -/
def execLscan (i : Long) (s : State) :=
  let n := intRegs i.m
  issueLanes (.lscan i) s n fun k l =>
    let upTo : LaneMask := BitVec.ofNat 32 (2 ^ (if i.f.getLsbD 0 then l else l + 1) - 1)
    BitVec.ofInt 64 (reduceLanes i.c.toNat i.m (k.srcA n) (k.mask &&& upTo))

end Sys2Proof.Machine
end

