-- ==== Sys2Proof/Machine/Integer.lean ====
section
/-!
DEFINITION. The lane-pipe integer instructions, nop and lsr (R202 to R222, 07_isa_group_integer.md).
-/
namespace Sys2Proof.Machine

/-- An instruction of R206: `r` is its exact result. -/
def issueInt (c : Long → Instr) (i : Long) (s : State) (sat : Bool) (r : Int → Int → Int → Int) :
    Host.Outcome State Fault Refusal :=
  issueLanes (c i) s (intRegs i.m) fun k l =>
    intOp i.m (sat && i.f.getLsbD 0) r (k.srcA (intRegs i.m) l) (k.srcB (intRegs i.m) l) (k.srcC (intRegs i.m) l)

def execIadd (i : Long) (s : State) := issueInt .iadd i s true fun a b _ => a + b
def execIsub (i : Long) (s : State) := issueInt .isub i s true fun a b _ => a - b
def execImul (i : Long) (s : State) := issueInt .imul i s false fun a b _ => a * b
def execImad (i : Long) (s : State) := issueInt .imad i s false fun a b c => a * b + c
def execImulhi (i : Long) (s : State) := issueInt .imulhi i s false fun a b _ => a * b / 2 ^ elemBits i.m
def execImin (i : Long) (s : State) := issueInt .imin i s false fun a b _ => min a b
def execImax (i : Long) (s : State) := issueInt .imax i s false fun a b _ => max a b
def execIabs (i : Long) (s : State) := issueInt .iabs i s true fun a _ _ => |a|

/-- An instruction of R207: M sets only the width. -/
def issueLogic (c : Long → Instr) (i : Long) (s : State) (r : DWord → DWord → DWord) : Host.Outcome State Fault Refusal :=
  issueLanes (c i) s (intRegs i.m) fun k l => r (k.srcA (intRegs i.m) l) (k.srcB (intRegs i.m) l)

def execAnd (i : Long) (s : State) := issueLogic .and i s fun a b => a &&& b
def execOr (i : Long) (s : State) := issueLogic .or i s fun a b => a ||| b
def execXor (i : Long) (s : State) := issueLogic .xor i s fun a b => a ^^^ b
def execAndn (i : Long) (s : State) := issueLogic .andn i s fun a b => a &&& ~~~b

/-- The three shifts of R208 on an element of `w` bits. -/
inductive Shift | left | right | arith
deriving DecidableEq, Repr

def shiftElem (d : Shift) (w a n : Nat) : Int :=
  match d with
  | .left => if w ≤ n then 0 else (a * 2 ^ n : Nat)
  | .right => if w ≤ n then 0 else (a / 2 ^ n : Nat)
  | .arith => toSigned w a / 2 ^ (min n w)

/-- R208 on an operand: `amt k` is the amount of element k. -/
def shiftOp (d : Shift) (m : BitVec 4) (a : DWord) (amt : Nat → Nat) : DWord :=
  packElems (elemBits m) (operandBits m / elemBits m) fun k => shiftElem d (elemBits m) (elemNat (elemBits m) k a) (amt k)

/-- The amount of element `k` (R208): the immediate, the element of a packed B, or B's 32 bits. -/
def shiftAmount (i : Long) (b : DWord) (k : Nat) : Nat :=
  if i.f.getLsbD 0 then i.c.toNat else if elemBits i.m < 32 then elemNat (elemBits i.m) k b else b.toNat % 2 ^ 32

def issueShift (c : Long → Instr) (i : Long) (s : State) (d : Shift) : Host.Outcome State Fault Refusal :=
  issueLanes (c i) s (intRegs i.m) fun k l => shiftOp d i.m (k.srcA (intRegs i.m) l) (shiftAmount i (k.srcB 1 l))

def execShl (i : Long) (s : State) := issueShift .shl i s .left
def execShr (i : Long) (s : State) := issueShift .shr i s .right
def execSar (i : Long) (s : State) := issueShift .sar i s .arith

/-- R209: 32 bits of B:A. -/
def funnel (f : BitVec 3) (a b amt : Nat) : Nat :=
  let cat := b * 2 ^ 32 + a
  let n := if f.getLsbD 2 then min amt 32 else amt % 32
  if f.getLsbD 0 then cat * 2 ^ n / 2 ^ 32 % 2 ^ 32 else cat / 2 ^ n % 2 ^ 32

def execFsh (i : Long) (s : State) :=
  issueLanes (.fsh i) s 1 fun k l =>
    BitVec.ofNat 64 (funnel i.f (k.srcA 1 l).toNat (k.srcB 1 l).toNat
      (if i.f.getLsbD 1 then i.c.toNat else (k.srcC 1 l).toNat))

/-- R210 on a value of `w` bits. -/
def popCount (w a : Nat) : Nat := ((List.range w).filter fun j => a.testBit j).length
def leadingZeros (w a : Nat) : Nat := ((List.range w).takeWhile fun j => !a.testBit (w - 1 - j)).length
def trailingZeros (w a : Nat) : Nat := ((List.range w).takeWhile fun j => !a.testBit j).length
def bitReverse (w a : Nat) : Nat := (List.range w).foldl (fun acc j => if a.testBit j then acc + 2 ^ (w - 1 - j) else acc) 0

def issueCount (c : Long → Instr) (i : Long) (s : State) (n : Nat) (r : Nat → Nat → Nat) : Host.Outcome State Fault Refusal :=
  issueLanes (c i) s n fun k l => BitVec.ofNat 64 (r (operandBits i.m) (k.srcA (intRegs i.m) l).toNat)

def execPopc (i : Long) (s : State) := issueCount .popc i s 1 popCount
def execClz (i : Long) (s : State) := issueCount .clz i s 1 leadingZeros
def execCtz (i : Long) (s : State) := issueCount .ctz i s 1 trailingZeros
def execBrev (i : Long) (s : State) := issueCount .brev i s (intRegs i.m) bitReverse

/-- R211: the length of the field that lies inside the word. -/
def fieldLength (w pos len : Nat) : Nat := if w ≤ pos || len = 0 then 0 else min (pos + len) w - pos

def bfxOp (w a pos len : Nat) (signed : Bool) : Int :=
  let l := fieldLength w pos len
  let f := a / 2 ^ pos % 2 ^ l
  if l = 0 then 0 else if signed then toSigned l f else f

def bfiOp (w base a pos len : Nat) : Nat :=
  let l := fieldLength w pos len
  if l = 0 then base
  else base % 2 ^ pos + a % 2 ^ l * 2 ^ pos + base / 2 ^ (pos + l) * 2 ^ (pos + l)

/-- pos and len of R211. -/
def Here.fieldPos (k : Here) (l : Nat) : Nat := if k.f.f.getLsbD 1 then k.f.b.toNat else (k.srcB 1 l).toNat
def Here.fieldLen (k : Here) (l : Nat) : Nat := if k.f.f.getLsbD 1 then k.f.c.toNat else (k.srcC 1 l).toNat

def execBfx (i : Long) (s : State) :=
  issueLanes (.bfx i) s (intRegs i.m) fun k l => BitVec.ofInt 64
    (bfxOp (operandBits i.m) (k.srcA (intRegs i.m) l).toNat (k.fieldPos l) (k.fieldLen l) (i.f.getLsbD 0))

def execBfi (i : Long) (s : State) :=
  issueLanes (.bfi i) s (intRegs i.m) fun k l => BitVec.ofNat 64
    (bfiOp (operandBits i.m) (k.src (intRegs i.m) i.d.toNat false l).toNat (k.srcA (intRegs i.m) l).toNat
      (k.fieldPos l) (k.fieldLen l))

/-- R212: byte `z[2:0]` of B:A, or its sign bit spread over the byte. -/
def permByte (a b : Nat) (z : Nat) : Nat :=
  let byte := bits (b * 2 ^ 32 + a) (8 * (z % 8) + 7) (8 * (z % 8))
  if z < 8 then byte else if 128 ≤ byte then 255 else 0

def execPerm (i : Long) (s : State) :=
  issueLanes (.perm i) s 1 fun k l => BitVec.ofNat 64 ((List.range 4).foldl (fun acc j =>
    acc + permByte (k.srcA 1 l).toNat (k.srcB 1 l).toNat (bits (k.srcC 1 l).toNat (4 * j + 3) (4 * j)) * 2 ^ (8 * j)) 0)

/-- R213. -/
def execLea (i : Long) (s : State) :=
  issueLanes (.lea i) s 2 fun k l =>
    let b := (k.srcB 1 l).setWidth 32
    k.srcA 2 l + ((if i.m = 0 then b.signExtend 64 else b.setWidth 64) <<< i.f.toNat)

/-- R214. -/
def execIcmp (i : Long) (s : State) :=
  issueRegs (.icmp i) s fun k h => h.setPred i.d.toNat k.mask fun l =>
    condHolds i.f (operandBits i.m) (k.srcA (intRegs i.m) l).toNat (k.srcB (intRegs i.m) l).toNat

/-- R215. -/
def execSel (i : Long) (s : State) :=
  issueLanes (.sel i) s (intRegs i.m) fun k l =>
    if (k.grp.pmask i.c.toNat).getLsbD l then k.srcA (intRegs i.m) l else k.srcB (intRegs i.m) l

/-- R216. -/
def execPlop (i : Long) (s : State) :=
  issueRegs (.plop i) s fun k h => h.setPred i.d.toNat k.mask fun l =>
    tableBit i.c ((k.grp.pmask i.a.toNat).getLsbD l) ((k.grp.pmask i.b.toNat).getLsbD l)
      ((k.grp.pmask i.f.toNat).getLsbD l)

/-- R217: with F[0] the index of X applies to D (R182). -/
def execMov (i : Long) (s : State) :=
  issueRegs (.mov i) s fun k h =>
    let n := intRegs i.m
    if i.f.getLsbD 0 then
      (laneList k.mask).foldl (fun h l =>
        let r := i.d.toNat + k.index l
        let x := k.src n i.a.toNat i.ka l
        if n = 2 then h.setLpair r l x else h.setLreg r l (x.setWidth 32)) h
    else h.setLanes i.d.toNat n k.mask fun l => k.srcA n l

/-- R218: M the source type, C the destination type. -/
def icvtOp (src dst : BitVec 4) (sat : Bool) (a : DWord) : DWord :=
  let x := elemVal src 0 a
  BitVec.ofInt 64 (if sat then clampTo (leastOf dst) (greatestOf dst) x else x)

def execIcvt (i : Long) (s : State) :=
  issueLanes (.icvt i) s (intRegs (i.c.setWidth 4)) fun k l =>
    icvtOp i.m (i.c.setWidth 4) (i.f.getLsbD 0) (k.srcA (intRegs i.m) l)

/-- An immediate-32 form of R219: F[0] selects the 64-bit form, with the immediate sign-extended. -/
def issueImm (c : Imm → Instr) (i : Imm) (s : State) (r : DWord → DWord → DWord) : Host.Outcome State Fault Refusal :=
  let n := if i.f.getLsbD 0 then 2 else 1
  issueLanes (c i) s n fun k l => r (k.src n i.a.toNat false l) (i.imm.signExtend 64)

def execMovi (i : Imm) (s : State) := issueImm .movi i s fun _ v => v
def execIaddi (i : Imm) (s : State) := issueImm .iaddi i s fun a v => a + v
def execImuli (i : Imm) (s : State) := issueImm .imuli i s fun a v => a * v
def execIandi (i : Imm) (s : State) := issueImm .iandi i s fun a v => a &&& v
def execIori (i : Imm) (s : State) := issueImm .iori i s fun a v => a ||| v
def execIxori (i : Imm) (s : State) := issueImm .ixori i s fun a v => a ^^^ v

def execIcmpi (i : Imm) (s : State) :=
  issueRegs (.icmpi i) s fun k h => h.setPred i.d.toNat k.mask fun l =>
    condHolds i.f 32 (k.grp.lreg i.a.toNat l).toNat i.imm.toNat

def execSetxi (i : Imm) (s : State) :=
  issueRegs (.setxi i) s fun k h => h.setIdx i.d.toNat k.mask fun _ => i.imm.setWidth 16

/-- R220. -/
def execSetx (i : Long) (s : State) :=
  issueRegs (.setx i) s fun k h => h.setIdx i.d.toNat k.mask fun l =>
    let a := k.srcA 1 l
    if i.f.getLsbD 0 then BitVec.ofNat 16 (min a.toNat 0xFFFF) else a.setWidth 16

def execAddx (i : Long) (s : State) :=
  issueRegs (.addx i) s fun k h => h.setIdx i.d.toNat k.mask fun l =>
    k.grp.xreg i.a.toNat l + (if i.f.getLsbD 0 then i.c.signExtend 16 else (k.srcB 1 l).setWidth 16)

/-- R221: no state changes but the issue itself. -/
def execNop (i : Short) (s : State) := issueRegs (.nop i) s fun _ h => h

/-- R222. -/
def execLsr (i : Short) (s : State) :=
  issueLanes (.lsr i) s (if sregWide i.a then 2 else 1) fun k l => s.sreg k.team k.grp k.sp l i.a.toNat

end Sys2Proof.Machine
end

