-- ==== Sys2Proof/Machine/GroupAlu.lean ====
section
/-!
DEFINITION. Group-pipe arithmetic, predicates and special registers (R223 to R227, 07_isa_group_integer.md).
-/
namespace Sys2Proof.Machine

/-- An instruction of R223 with an exact result. -/
def issueGint (c : Long → Instr) (i : Long) (s : State) (sat : Bool) (r : Int → Int → Int → Int) :
    Host.Outcome State Fault Refusal :=
  issueGroup (c i) s fun k => groupResult i.m
    (intOp i.m (sat && i.f.getLsbD 0) r (k.gsrc i.m i.a.toNat) (k.gsrc i.m i.b.toNat) (k.gsrc i.m i.c.toNat))

def execGadd (i : Long) (s : State) := issueGint .gadd i s true fun a b _ => a + b
def execGsub (i : Long) (s : State) := issueGint .gsub i s true fun a b _ => a - b
def execGmul (i : Long) (s : State) := issueGint .gmul i s false fun a b _ => a * b
def execGmad (i : Long) (s : State) := issueGint .gmad i s false fun a b c => a * b + c
def execGmin (i : Long) (s : State) := issueGint .gmin i s false fun a b _ => min a b
def execGmax (i : Long) (s : State) := issueGint .gmax i s false fun a b _ => max a b

def issueGlogic (c : Long → Instr) (i : Long) (s : State) (r : DWord → DWord → DWord) : Host.Outcome State Fault Refusal :=
  issueGroup (c i) s fun k => groupResult i.m (r (k.gsrc i.m i.a.toNat) (k.gsrc i.m i.b.toNat))

def execGand (i : Long) (s : State) := issueGlogic .gand i s fun a b => a &&& b
def execGor (i : Long) (s : State) := issueGlogic .gor i s fun a b => a ||| b
def execGxor (i : Long) (s : State) := issueGlogic .gxor i s fun a b => a ^^^ b

def issueGshift (c : Long → Instr) (i : Long) (s : State) (d : Shift) : Host.Outcome State Fault Refusal :=
  issueGroup (c i) s fun k => groupResult i.m
    (shiftOp d i.m (k.gsrc i.m i.a.toNat) (shiftAmount i (((k.grp.greg i.b.toNat).setWidth 32).setWidth 64)))

def execGshl (i : Long) (s : State) := issueGshift .gshl i s .left
def execGshr (i : Long) (s : State) := issueGshift .gshr i s .right
def execGsar (i : Long) (s : State) := issueGshift .gsar i s .arith

/-- A count fits 32 bits and is not negative, so its extension is the same for every type (R223). -/
def execGpopc (i : Long) (s : State) :=
  issueGroup (.gpopc i) s fun k => groupResult i.m (BitVec.ofNat 64 (popCount (operandBits i.m) (k.gsrc i.m i.a.toNat).toNat))
def execGclz (i : Long) (s : State) :=
  issueGroup (.gclz i) s fun k => groupResult i.m (BitVec.ofNat 64 (leadingZeros (operandBits i.m) (k.gsrc i.m i.a.toNat).toNat))

/-- pos and len of gbfx and gbfi: immediates, or bits [31:0] of gB and gC (R211, R223). -/
def Here.gfieldPos (k : Here) : Nat := if k.f.f.getLsbD 1 then k.f.b.toNat else (k.grp.greg k.f.b.toNat).toNat % 2 ^ 32
def Here.gfieldLen (k : Here) : Nat := if k.f.f.getLsbD 1 then k.f.c.toNat else (k.grp.greg k.f.c.toNat).toNat % 2 ^ 32

def execGbfx (i : Long) (s : State) :=
  issueGroup (.gbfx i) s fun k => groupResult i.m (BitVec.ofInt 64
    (bfxOp (operandBits i.m) (k.gsrc i.m i.a.toNat).toNat k.gfieldPos k.gfieldLen (i.f.getLsbD 0)))

def execGbfi (i : Long) (s : State) :=
  issueGroup (.gbfi i) s fun k => groupResult i.m (BitVec.ofNat 64
    (bfiOp (operandBits i.m) (k.gsrc i.m i.d.toNat).toNat (k.gsrc i.m i.a.toNat).toNat k.gfieldPos k.gfieldLen))

def execGcmp (i : Long) (s : State) :=
  issueRegs (.gcmp i) s fun k h => h.setQ i.d.toNat
    (condHolds i.f (operandBits i.m) (k.gsrc i.m i.a.toNat).toNat (k.gsrc i.m i.b.toNat).toNat)

def execGsel (i : Long) (s : State) :=
  issueGroup (.gsel i) s fun k => if k.grp.qreg i.c.toNat then k.grp.greg i.a.toNat else k.grp.greg i.b.toNat

def execGmov (i : Long) (s : State) := issueGroup (.gmov i) s fun k => groupResult i.m (k.gsrc i.m i.a.toNat)

def execGplop (i : Long) (s : State) :=
  issueRegs (.gplop i) s fun k h => h.setQ i.d.toNat
    (tableBit i.c (k.grp.qreg i.a.toNat) (k.grp.qreg i.b.toNat) (k.grp.qreg i.f.toNat))

/-- R224: F[0] writes the upper half. -/
def execGmovi (i : Imm) (s : State) :=
  issueGroup (.gmovi i) s fun k =>
    if i.f.getLsbD 0 then i.imm ++ (k.grp.greg i.d.toNat).setWidth 32 else i.imm.signExtend 64
def execGaddi (i : Imm) (s : State) := issueGroup (.gaddi i) s fun k => k.grp.greg i.a.toNat + i.imm.signExtend 64
def execGandi (i : Imm) (s : State) := issueGroup (.gandi i) s fun k => k.grp.greg i.a.toNat &&& i.imm.signExtend 64
def execGcmpi (i : Imm) (s : State) :=
  issueRegs (.gcmpi i) s fun k h => h.setQ i.d.toNat
    (condHolds i.f 64 (k.grp.greg i.a.toNat).toNat (i.imm.signExtend 64).toNat)

/-- R225. -/
def execGnop (i : Short) (s : State) := issueRegs (.gnop i) s fun _ h => h

/-- R226; for LANEID the encoding check raises 0x02 first (R362). -/
def execGsr (i : Short) (s : State) := issueGroup (.gsr i) s fun k => s.sreg k.team k.grp k.sp 0 i.a.toNat

/-- R227, R370, R373: TIMER takes any value; TRAPPC a canonical 4-byte-aligned one. -/
def execGsw (i : Short) (s : State) : Host.Outcome State Fault Refusal :=
  issue (.gsw i) s fun k s1 =>
    let v := k.grp.greg i.a.toNat
    if i.d = 13 then .next (s1.modTeam k.team.uid fun x => { x with timer := v })
    else if !canonical v || v.extractLsb' 0 2 ≠ 0 then .trap 0x19
    else .next (s1.modGroup k.team.uid k.grp.gid fun h => { h with trapPc := v })

end Sys2Proof.Machine
end

