-- ==== Sys2Proof/Machine/Results.lean ====
section
/-!
DEFINITION. LONG_LATENCY_RESULT (R187, R189): the accesses of long-latency instructions are performed, and their results
delivered.
-/
namespace Sys2Proof.Machine

/-- The bytes of one lane, in the order of its accesses. -/
def Result.laneBytes (r : Result) (lane : Nat) : List Byte :=
  ((r.raw.filter fun e => e.2.1 = lane).mergeSort fun a b => a.1 ≤ b.1).flatMap fun e => e.2.2

/-- The register writes of a result whose bytes have all come (R265, R269, R289). -/
def Result.writes (r : Result) : List RegWrite :=
  match r.kind with
  | .fixed w => w
  | .loaded width group reg => (r.raw.mergeSort fun a b => a.1 ≤ b.1).flatMap fun e => loadWrites width group reg e.2.1 e.2.2
  | .gathered two pred reg dw cs => cs.flatMap fun c =>
    let x := gatherValue two (descOf dw) c.2 (r.laneBytes c.1)
    laneWrites reg (if two then 2 else 1) c.1 x.1 ++ [.p pred c.1 x.2]
  | .unpacked rows pred reg lanes header => unpkWrites rows pred reg lanes header (r.laneBytes 0)

/-- A write of a lane register or lane predicate counts only while its lane lives (R234). -/
def RegWrite.alive (live : LaneMask) (w : RegWrite) : Bool :=
  match w with
  | .v _ l _ | .p _ l _ => live.getLsbD l
  | .g _ _ | .q _ _ => true

/-- A result that has been written, as far as its window goes. -/
def Result.written (r : Result) : Result := { r with kind := .fixed [], raw := [], acq := none, rel := none, done := true }

/-- The lanes of a group that live, those set aside for a handler too. -/
def Group.everyLane (h : Group) : LaneMask :=
  h.splits.foldl (fun m p => m ||| p.allLanes) ((h.saved.getD []).foldl (fun m p => m ||| p.allLanes) 0)

/-- A result is written, or the cause that it met is delivered (R406, R414); an acquire at file scope or wider empties the
core's caches first (R114, R154). -/
def State.deliverResult (s : State) (x : Team) (h : Group) (idx : Nat) (r : Result) : State :=
  let s1 := match r.acq with
    | some sc => if 6 ≤ sc then s.emptyCaches x.core else s
    | none => s
  match r.fail with
  | some c => (s1.modGroup x.uid h.gid fun y => { y with results := y.results.eraseIdx idx }).lateFrom x.uid h.gid r.owners.head?
      r.handlerPc c
  | none => s1.modGroup x.uid h.gid fun y =>
      let w := (r.writes.filter fun w => w.alive h.everyLane).foldl Group.applyWrite y
      { w with results := (w.results.set idx r.written).filter Result.kept }

/-- LONG_LATENCY_RESULT of a result of a group: the access that `part` names is performed, if it has one that may be
(R143, R153); once all are and every request has been answered, the result is delivered (R187, R189). -/
def execLongLatencyResult (t g : Nat) (part : ResultPart) (s : State) : Host.Outcome State Fault Refusal :=
  match s.team? t, s.group? t g with
  | some x, some h => match h.results[part.result]? with
    | some r =>
      if r.done then .next s
      else if r.pend ≠ [] then match r.pend.find? fun a => a.idx = part.access with
        | some a => .next (if s.mayPerformPend x h r a then s.performPend x h r a else s)
        | none => .next s
      else if r.waits ≠ [] then .next s
      else .next (s.deliverResult x h part.result r)
    | none => .next s
  | _, _ => .next s

end Sys2Proof.Machine
end

