-- ==== Sys2Proof/Machine/Transcend.lean ====
section
/-!
DEFINITION. The transcendentals (R247, R248, 08_isa_vector.md), correctly rounded: a value is enclosed between two
fixed-point numbers, with more bits until both round alike.
-/
namespace Sys2Proof.Machine

/-- The sum of x^(2k+1) / (2k+1) over k, with alternating signs for arctan and without for artanh, at `p` bits;
`t` is the running power and `q` the square of x, both at `p` bits. -/
def arcSum (p : Nat) (alt : Bool) (q : Int) : Nat → Nat → Int → Int
  | 0, _, _ => 0
  | n + 1, k, t => t / (2 * k + 1) + (if alt then -1 else 1) * arcSum p alt q n (k + 1) (t * q / 2 ^ p)

/-- Pi at `p` bits, by 16 arctan(1/5) - 4 arctan(1/239). -/
def piBits (p : Nat) : Int :=
  16 * arcSum p true (2 ^ p / 25) (p / 4) 0 (2 ^ p / 5) - 4 * arcSum p true (2 ^ p / 57121) (p / 14 + 2) 0 (2 ^ p / 239)

/-- ln 2 at `p` bits, as 2 artanh(1/3). -/
def ln2Bits (p : Nat) : Int := 2 * arcSum p false (2 ^ p / 9) (p / 3 + 2) 0 (2 ^ p / 3)

/-- The sum of t x^k / k! from `k`, at `p` bits. -/
def expSum (p : Nat) (x : Int) : Nat → Nat → Int → Int
  | 0, _, t => t
  | n + 1, k, t => t + expSum p x n (k + 1) (t * x / 2 ^ p / (k + 1))

/-- The alternating sum of the powers of `q` over factorials: 1 - q/((j+1)(j+2)) + ..., at `p` bits. -/
def trigSum (p : Nat) (q : Int) : Nat → Nat → Int → Int
  | 0, _, t => t
  | n + 1, j, t => t - trigSum p q n (j + 2) (t * q / 2 ^ p / ((j + 1) * (j + 2) : Nat))

/-- How far the sums above can be from the exact value, in units of their last bit. -/
def slack : Int := 2 ^ 16

/-- Rounds to nearest a value given at growing precision as (n, e), meaning between n - slack and n + slack times 2^e;
the last precision stands where none decides. -/
def Fmt.settleRound (F : Fmt) (neg : Bool) (f : Nat → Int × Int) : List Nat → FVal
  | [] => .nan
  | p :: ps =>
    let (n, e) := f p
    let lo := F.round .ne (.fin neg (n - slack).toNat e)
    let hi := F.round .ne (.fin neg (n + slack).toNat e)
    if ps = [] || F.code lo = F.code hi then lo else F.settleRound neg f ps

/-- The precisions tried. -/
def precisions : List Nat := [192, 384, 768, 1536]

/-- m times 2^e at `p` bits, cut downwards. -/
def fixedAt (p m : Nat) (e : Int) : Int := scaleNat m (e + p)

/-- The integer nearest a half-turn count m times 2^e (e negative), halves upwards, and the signed rest over 2^(-e). -/
def nearestInt (m k : Nat) : Nat × Int :=
  let n := (2 * m + 2 ^ k) / 2 ^ (k + 1)
  (n, (m : Int) - n * 2 ^ k)

/-- sin(pi r) for 0 < r = m / 2^k, r at most 1/4, relative to pi r. -/
def sinSmall (m k p : Nat) : Int × Int :=
  let x := piBits p * (fixedAt p m (-(k : Int))) / 2 ^ p
  let sinc := trigSum p (x * x / 2 ^ p) (p / 6 + 4) 1 (2 ^ p)
  let n : Int := m * (piBits p * sinc / 2 ^ p)
  -- brought to about p bits, so that the slack covers the error
  let d := Nat.log2 m
  (n / 2 ^ d, (d : Int) - k - p)

/-- cos(pi r) for r = m / 2^k at most 1/4. -/
def cosSmall (m k p : Nat) : Int × Int :=
  let x := piBits p * (fixedAt p m (-(k : Int))) / 2 ^ p
  (trigSum p (x * x / 2 ^ p) (p / 6 + 4) 0 (2 ^ p), -(p : Int))

/-- sin(pi r) for 0 < r = m / 2^k below 1/2. -/
def sinHalf (m k p : Nat) : Int × Int :=
  if 4 * m ≤ 2 ^ k then sinSmall m k p else cosSmall (2 ^ k - 2 * m) (k + 1) p

/-- cos(pi r) for 0 < r = m / 2^k below 1/2. -/
def cosHalf (m k p : Nat) : Int × Int :=
  if 4 * m ≤ 2 ^ k then cosSmall m k p else sinSmall (2 ^ k - 2 * m) (k + 1) p

/-- 1 / sqrt a (R247, R248), in a form that rounds as the exact value. -/
def frsqVal (a : FVal) : FVal :=
  match a with
  | .nan => .nan
  | .inf s => if s then .nan else .fin false 0 0
  | .fin s m e =>
    if m = 0 then .inf s else if s then .nan
    else
      let m' := m * 2 ^ (e % 2).toNat
      let k := 80 + Nat.log2 m'
      let q := isqrt (2 ^ (2 * k) / m')
      .fin false (2 * q + (if q * q * m' = 2 ^ (2 * k) then 0 else 1)) (-(e / 2) - k - 1)

/-- 2^a (R247, R248), rounded to F. -/
def fexp2Val (F : Fmt) (a : FVal) : FVal :=
  match a with
  | .nan => .nan
  | .inf s => if s then .fin false 0 0 else .inf false
  | .fin s m e =>
    if m = 0 then .fin false 1 0
    else if 16 < (Nat.log2 m : Int) + e then F.round .ne (.fin false 1 (if s then -70000 else 70000))
    else
      let k := (-e).toNat
      let x : Int := (m : Int) * 2 ^ e.toNat
      let x := if s then -x else x
      let n := x / 2 ^ k
      let r := (x - n * 2 ^ k).toNat
      if r = 0 then F.round .ne (.fin false 1 n)
      else F.settleRound false (fun p =>
        let y := ln2Bits p * fixedAt p r (-(k : Int)) / 2 ^ p
        (expSum p y (p / 4 + 8) 0 (2 ^ p), n - p)) precisions

/-- log2 a (R247, R248), rounded to F: a is y times 2^n with y from 3/4 to below 3/2. -/
def flog2Val (F : Fmt) (a : FVal) : FVal :=
  match a with
  | .nan => .nan
  | .inf s => if s then .nan else .inf false
  | .fin s m e =>
    if m = 0 then .inf true else if s then .nan
    else
      let top := Nat.log2 m
      let up := decide (3 * 2 ^ top ≤ 2 * m)
      let d := if up then top + 1 else top
      let n : Int := e + d
      if m = 2 ^ top then .fin (n < 0) n.natAbs 0
      else
        let at' (p : Nat) : Int :=
          let t : Int := ((m : Int) - 2 ^ d) * 2 ^ p / ((m : Int) + 2 ^ d)
          n * 2 ^ p + 2 * arcSum p false (t * t / 2 ^ p) (p / 4 + 4) 0 t * 2 ^ p / ln2Bits p
        let neg := decide (at' 192 < 0)
        F.settleRound neg (fun p => (if neg then -at' p else at' p, -(p : Int))) precisions

/-- sin(pi a), or cos(pi a) with `cos`, rounded to F (R247, R248). -/
def ftrigVal (F : Fmt) (cos : Bool) (a : FVal) : FVal :=
  match a with
  | .nan | .inf _ => .nan
  | .fin s m e =>
    if m = 0 then (if cos then .fin false 1 0 else .fin s 0 0)
    else
      let k := (-e).toNat
      let (n, r) := nearestInt (m * 2 ^ e.toNat) k
      let odd := decide (n % 2 = 1)
      if r = 0 then (if cos then .fin odd 1 0 else .fin s 0 0)
      else if 2 * r.natAbs = 2 ^ k then (if cos then .fin false 0 0 else .fin (s != (odd != decide (r < 0))) 1 0)
      else if cos then F.settleRound odd (cosHalf r.natAbs k) precisions
      else F.settleRound (s != (odd != decide (r < 0))) (sinHalf r.natAbs k) precisions

def execFrcp (i : Long) (s : State) := issueFloatLong .frcp i s (Long.mode i) fun a _ _ => (FVal.fin false 1 0).div a
def execFrsq (i : Long) (s : State) := issueFloatLong .frsq i s .ne fun a _ _ => frsqVal a
def execFexp2 (i : Long) (s : State) := issueFloatLong .fexp2 i s .ne fun a _ _ => fexp2Val (fmtOf i.m.toNat) a
def execFlog2 (i : Long) (s : State) := issueFloatLong .flog2 i s .ne fun a _ _ => flog2Val (fmtOf i.m.toNat) a
def execFsin (i : Long) (s : State) := issueFloatLong .fsin i s .ne fun a _ _ => ftrigVal (fmtOf i.m.toNat) false a
def execFcos (i : Long) (s : State) := issueFloatLong .fcos i s .ne fun a _ _ => ftrigVal (fmtOf i.m.toNat) true a

end Sys2Proof.Machine
end

