-- ==== Sys2Proof/Machine/Dispatch.lean ====
section
/-!
DEFINITION. The meaning of every instruction, one arm each.
-/
namespace Sys2Proof.Machine

/-- The meaning of an instruction. -/
def exec (i : Instr) (s : State) : Host.Outcome State Fault Refusal :=
  match i with
  | .nop x => Sys2Proof.Machine.execNop x s
  | .iadd x => Sys2Proof.Machine.execIadd x s
  | .isub x => Sys2Proof.Machine.execIsub x s
  | .imul x => Sys2Proof.Machine.execImul x s
  | .imad x => Sys2Proof.Machine.execImad x s
  | .imulhi x => Sys2Proof.Machine.execImulhi x s
  | .imin x => Sys2Proof.Machine.execImin x s
  | .imax x => Sys2Proof.Machine.execImax x s
  | .iabs x => Sys2Proof.Machine.execIabs x s
  | .and x => Sys2Proof.Machine.execAnd x s
  | .or x => Sys2Proof.Machine.execOr x s
  | .xor x => Sys2Proof.Machine.execXor x s
  | .andn x => Sys2Proof.Machine.execAndn x s
  | .shl x => Sys2Proof.Machine.execShl x s
  | .shr x => Sys2Proof.Machine.execShr x s
  | .sar x => Sys2Proof.Machine.execSar x s
  | .fsh x => Sys2Proof.Machine.execFsh x s
  | .popc x => Sys2Proof.Machine.execPopc x s
  | .clz x => Sys2Proof.Machine.execClz x s
  | .ctz x => Sys2Proof.Machine.execCtz x s
  | .brev x => Sys2Proof.Machine.execBrev x s
  | .bfx x => Sys2Proof.Machine.execBfx x s
  | .bfi x => Sys2Proof.Machine.execBfi x s
  | .perm x => Sys2Proof.Machine.execPerm x s
  | .lea x => Sys2Proof.Machine.execLea x s
  | .icmp x => Sys2Proof.Machine.execIcmp x s
  | .sel x => Sys2Proof.Machine.execSel x s
  | .mov x => Sys2Proof.Machine.execMov x s
  | .icvt x => Sys2Proof.Machine.execIcvt x s
  | .plop x => Sys2Proof.Machine.execPlop x s
  | .setx x => Sys2Proof.Machine.execSetx x s
  | .addx x => Sys2Proof.Machine.execAddx x s
  | .movi x => Sys2Proof.Machine.execMovi x s
  | .iaddi x => Sys2Proof.Machine.execIaddi x s
  | .imuli x => Sys2Proof.Machine.execImuli x s
  | .iandi x => Sys2Proof.Machine.execIandi x s
  | .iori x => Sys2Proof.Machine.execIori x s
  | .ixori x => Sys2Proof.Machine.execIxori x s
  | .icmpi x => Sys2Proof.Machine.execIcmpi x s
  | .setxi x => Sys2Proof.Machine.execSetxi x s
  | .fadd x => Sys2Proof.Machine.execFadd x s
  | .fsub x => Sys2Proof.Machine.execFsub x s
  | .fmul x => Sys2Proof.Machine.execFmul x s
  | .ffma x => Sys2Proof.Machine.execFfma x s
  | .fdiv x => Sys2Proof.Machine.execFdiv x s
  | .fsqrt x => Sys2Proof.Machine.execFsqrt x s
  | .fmin x => Sys2Proof.Machine.execFmin x s
  | .fmax x => Sys2Proof.Machine.execFmax x s
  | .fsgn x => Sys2Proof.Machine.execFsgn x s
  | .fcmp x => Sys2Proof.Machine.execFcmp x s
  | .frcp x => Sys2Proof.Machine.execFrcp x s
  | .frsq x => Sys2Proof.Machine.execFrsq x s
  | .fexp2 x => Sys2Proof.Machine.execFexp2 x s
  | .flog2 x => Sys2Proof.Machine.execFlog2 x s
  | .fsin x => Sys2Proof.Machine.execFsin x s
  | .fcos x => Sys2Proof.Machine.execFcos x s
  | .fclass x => Sys2Proof.Machine.execFclass x s
  | .fcvt x => Sys2Proof.Machine.execFcvt x s
  | .f2i x => Sys2Proof.Machine.execF2i x s
  | .i2f x => Sys2Proof.Machine.execI2f x s
  | .frnd x => Sys2Proof.Machine.execFrnd x s
  | .bmax x => Sys2Proof.Machine.execBmax x s
  | .bscale x => Sys2Proof.Machine.execBscale x s
  | .bquant x => Sys2Proof.Machine.execBquant x s
  | .bdequant x => Sys2Proof.Machine.execBdequant x s
  | .bnf x => Sys2Proof.Machine.execBnf x s
  | .unpk x => Sys2Proof.Machine.execUnpk x s
  | .lxch x => Sys2Proof.Machine.execLxch x s
  | .lpred x => Sys2Proof.Machine.execLpred x s
  | .lred x => Sys2Proof.Machine.execLred x s
  | .lscan x => Sys2Proof.Machine.execLscan x s
  | .ld x => Sys2Proof.Machine.execLd x s
  | .st x => Sys2Proof.Machine.execSt x s
  | .lds x => Sys2Proof.Machine.execLds x s
  | .sts x => Sys2Proof.Machine.execSts x s
  | .stm x => Sys2Proof.Machine.execStm x s
  | .atom x => Sys2Proof.Machine.execAtom x s
  | .atoms x => Sys2Proof.Machine.execAtoms x s
  | .red x => Sys2Proof.Machine.execRed x s
  | .reds x => Sys2Proof.Machine.execReds x s
  | .gath x => Sys2Proof.Machine.execGath x s
  | .spawn x => Sys2Proof.Machine.execSpawn x s
  | .done x => Sys2Proof.Machine.execDone x s
  | .collPut x => Sys2Proof.Machine.execCollPut x s
  | .collGet x => Sys2Proof.Machine.execCollGet x s
  | .collRed x => Sys2Proof.Machine.execCollRed x s
  | .lsr x => Sys2Proof.Machine.execLsr x s
  | .gnop x => Sys2Proof.Machine.execGnop x s
  | .gadd x => Sys2Proof.Machine.execGadd x s
  | .gsub x => Sys2Proof.Machine.execGsub x s
  | .gmul x => Sys2Proof.Machine.execGmul x s
  | .gmad x => Sys2Proof.Machine.execGmad x s
  | .gmin x => Sys2Proof.Machine.execGmin x s
  | .gmax x => Sys2Proof.Machine.execGmax x s
  | .gand x => Sys2Proof.Machine.execGand x s
  | .gor x => Sys2Proof.Machine.execGor x s
  | .gxor x => Sys2Proof.Machine.execGxor x s
  | .gshl x => Sys2Proof.Machine.execGshl x s
  | .gshr x => Sys2Proof.Machine.execGshr x s
  | .gsar x => Sys2Proof.Machine.execGsar x s
  | .gpopc x => Sys2Proof.Machine.execGpopc x s
  | .gclz x => Sys2Proof.Machine.execGclz x s
  | .gbfx x => Sys2Proof.Machine.execGbfx x s
  | .gbfi x => Sys2Proof.Machine.execGbfi x s
  | .gcmp x => Sys2Proof.Machine.execGcmp x s
  | .gsel x => Sys2Proof.Machine.execGsel x s
  | .gmov x => Sys2Proof.Machine.execGmov x s
  | .gplop x => Sys2Proof.Machine.execGplop x s
  | .gsr x => Sys2Proof.Machine.execGsr x s
  | .gsw x => Sys2Proof.Machine.execGsw x s
  | .gmovi x => Sys2Proof.Machine.execGmovi x s
  | .gaddi x => Sys2Proof.Machine.execGaddi x s
  | .gandi x => Sys2Proof.Machine.execGandi x s
  | .gcmpi x => Sys2Proof.Machine.execGcmpi x s
  | .br x => Sys2Proof.Machine.execBr x s
  | .brx x => Sys2Proof.Machine.execBrx x s
  | .call x => Sys2Proof.Machine.execCall x s
  | .ret x => Sys2Proof.Machine.execRet x s
  | .join x => Sys2Proof.Machine.execJoin x s
  | .exit x => Sys2Proof.Machine.execExit x s
  | .trap x => Sys2Proof.Machine.execTrap x s
  | .gld x => Sys2Proof.Machine.execGld x s
  | .gst x => Sys2Proof.Machine.execGst x s
  | .gbarInit x => Sys2Proof.Machine.execGbarInit x s
  | .gbarArrive x => Sys2Proof.Machine.execGbarArrive x s
  | .gbarExpect x => Sys2Proof.Machine.execGbarExpect x s
  | .gbarExpa x => Sys2Proof.Machine.execGbarExpa x s
  | .gbarWait x => Sys2Proof.Machine.execGbarWait x s
  | .gbarTry x => Sys2Proof.Machine.execGbarTry x s
  | .fence x => Sys2Proof.Machine.execFence x s
  | .drain x => Sys2Proof.Machine.execDrain x s
  | .cpyaB2t x => Sys2Proof.Machine.execCpyaB2t x s
  | .cpyaT2b x => Sys2Proof.Machine.execCpyaT2b x s
  | .cpyaB2b x => Sys2Proof.Machine.execCpyaB2b x s
  | .cpyaFlat x => Sys2Proof.Machine.execCpyaFlat x s
  | .dinv x => Sys2Proof.Machine.execDinv x s
  | .dinvAll x => Sys2Proof.Machine.execDinvAll x s
  | .pub x => Sys2Proof.Machine.execPub x s
  | .gcollAr x => Sys2Proof.Machine.execGcollAr x s
  | .gcollRs x => Sys2Proof.Machine.execGcollRs x s
  | .gcollAg x => Sys2Proof.Machine.execGcollAg x s
  | .conv x => Sys2Proof.Machine.execConv x s
  | .convDis x => Sys2Proof.Machine.execConvDis x s
  | .mma x => Sys2Proof.Machine.execMma x s
  | .mmaSp x => Sys2Proof.Machine.execMmaSp x s
  | .prune x => Sys2Proof.Machine.execPrune x s
  | .pruneT x => Sys2Proof.Machine.execPruneT x s
  | .accZero x => Sys2Proof.Machine.execAccZero x s
  | .accLd x => Sys2Proof.Machine.execAccLd x s
  | .accSt x => Sys2Proof.Machine.execAccSt x s
  | .accAdd x => Sys2Proof.Machine.execAccAdd x s
  | .mcommit x => Sys2Proof.Machine.execMcommit x s
  | .mwait x => Sys2Proof.Machine.execMwait x s
  | .splitMerge team grp => Sys2Proof.Machine.execSplitMerge team grp s
  | .holdTimeout team grp split => Sys2Proof.Machine.execHoldTimeout team grp split s
  | .longLatencyResult team grp part => Sys2Proof.Machine.execLongLatencyResult team grp part s
  | .nopCommand c => Sys2Proof.Machine.execNopCommand c s
  | .launch c => Sys2Proof.Machine.execLaunch c s
  | .launchi c => Sys2Proof.Machine.execLaunchi c s
  | .loop c => Sys2Proof.Machine.execLoop c s
  | .branch c => Sys2Proof.Machine.execBranch c s
  | .waitph c => Sys2Proof.Machine.execWaitph c s
  | .waitphPoll stream => Sys2Proof.Machine.execWaitphPoll stream s
  | .signal c => Sys2Proof.Machine.execSignal c s
  | .publish c => Sys2Proof.Machine.execPublish c s
  | .hcopy c => Sys2Proof.Machine.execHcopy c s
  | .hcopyComplete stream => Sys2Proof.Machine.execHcopyComplete stream s
  | .fenceCommand c => Sys2Proof.Machine.execFenceCommand c s
  | .seed c => Sys2Proof.Machine.execSeed c s
  | .stop c => Sys2Proof.Machine.execStop c s
  | .teamPlacement core => Sys2Proof.Machine.execTeamPlacement core s
  | .spawnedGroupStart core entry => Sys2Proof.Machine.execSpawnedGroupStart core entry s
  | .gridComplete grid => Sys2Proof.Machine.execGridComplete grid s
  | .permitGrant copy => Sys2Proof.Machine.execPermitGrant copy s
  | .tileLanding copy tile => Sys2Proof.Machine.execTileLanding copy tile s
  | .copyCredit copy tile => Sys2Proof.Machine.execCopyCredit copy tile s
  | .matrixOpStart core => Sys2Proof.Machine.execMatrixOpStart core s
  | .matrixOpComplete core op => Sys2Proof.Machine.execMatrixOpComplete core op s
  | .convocationEnd team tag => Sys2Proof.Machine.execConvocationEnd team tag s
  | .timerTrap team => Sys2Proof.Machine.execTimerTrap team s
  | .handlerEntry team => Sys2Proof.Machine.execHandlerEntry team s
  | .teamResume team => Sys2Proof.Machine.execTeamResume team s
  | .fqansRetry seq => Sys2Proof.Machine.execFqansRetry seq s
  | .fqansFail seq => Sys2Proof.Machine.execFqansFail seq s
  | .contextDrainComplete ctx => Sys2Proof.Machine.execContextDrainComplete ctx s
  | .preemptDeadline ctx => Sys2Proof.Machine.execPreemptDeadline ctx s
  | .create m => Sys2Proof.Machine.execCreate m s
  | .destroy m => Sys2Proof.Machine.execDestroy m s
  | .key m => Sys2Proof.Machine.execKey m s
  | .inval m => Sys2Proof.Machine.execInval m s
  | .preempt m => Sys2Proof.Machine.execPreempt m s
  | .restore m => Sys2Proof.Machine.execRestore m s
  | .freset m => Sys2Proof.Machine.execFreset m s
  | .retain m => Sys2Proof.Machine.execRetain m s
  | .unretain m => Sys2Proof.Machine.execUnretain m s
  | .retentionComplete band => Sys2Proof.Machine.execRetentionComplete band s
  | .reshape m => Sys2Proof.Machine.execReshape m s
  | .lose m => Sys2Proof.Machine.execLose m s
  | .topo m => Sys2Proof.Machine.execTopo m s
  | .attest m => Sys2Proof.Machine.execAttest m s
  | .wreset m => Sys2Proof.Machine.execWreset m s
  | .update m => Sys2Proof.Machine.execUpdate m s
  | .start stream value => Sys2Proof.Machine.execStart stream value s
  | .irqClear value => Sys2Proof.Machine.execIrqClear value s
  | .eqptrHead value => Sys2Proof.Machine.execEqptrHead value s
  | .fqptrHead value => Sys2Proof.Machine.execFqptrHead value s
  | .pcapWrite value => Sys2Proof.Machine.execPcapWrite value s
  | .tmoutWrite value => Sys2Proof.Machine.execTmoutWrite value s
  | .rmctlGo value => Sys2Proof.Machine.execRmctlGo value s
  | .registerWrite offset value => Sys2Proof.Machine.execRegisterWrite offset value s
  | .powerStep up => Sys2Proof.Machine.execPowerStep up s
  | .dieThermalLimit die => Sys2Proof.Machine.execDieThermalLimit die s
  | .dieThermalTrip die => Sys2Proof.Machine.execDieThermalTrip die s
  | .stackLost stack why => Sys2Proof.Machine.execStackLost stack why s
  | .stackTimeout stack => Sys2Proof.Machine.execStackTimeout stack s
  | .patrolScrub stack row finding => Sys2Proof.Machine.execPatrolScrub stack row finding s
  | .journalApply stack idx => Sys2Proof.Machine.execJournalApply stack idx s
  | .writeBack line => Sys2Proof.Machine.execWriteBack line s
  | .capacityPackageLost package => Sys2Proof.Machine.execCapacityPackageLost package s
  | .portStateChange port state => Sys2Proof.Machine.execPortStateChange port state s
  | .peerTimeout tag => Sys2Proof.Machine.execPeerTimeout tag s
  | .peerAccessRequest r => Sys2Proof.Machine.execPeerAccessRequest r s
  | .peerResponse tag r => Sys2Proof.Machine.execPeerResponse tag r s
  | .put p => Sys2Proof.Machine.execPut p s
  | .get p => Sys2Proof.Machine.execGet p s
  | .getResponse tag data => Sys2Proof.Machine.execGetResponse tag data s
  | .remoteReduction p => Sys2Proof.Machine.execRemoteReduction p s
  | .forward c => Sys2Proof.Machine.execForward c s
  | .addAndForward c => Sys2Proof.Machine.execAddAndForward c s
  | .final c => Sys2Proof.Machine.execFinal c s
  | .scaleMax c => Sys2Proof.Machine.execScaleMax c s
  | .plan c => Sys2Proof.Machine.execPlan c s
  | .chunkCredit c => Sys2Proof.Machine.execChunkCredit c s
  | .collectiveComplete id => Sys2Proof.Machine.execCollectiveComplete id s
  | .collectiveTimeout id => Sys2Proof.Machine.execCollectiveTimeout id s
  | .hostBar2Read pa size => Sys2Proof.Machine.execHostBar2Read pa size s
  | .hostBar2Write pa data poisoned => Sys2Proof.Machine.execHostBar2Write pa data poisoned s
  | .hostAtomicop pa op wide operand newValue => Sys2Proof.Machine.execHostAtomicop pa op wide operand newValue s
  | .fetchaddComplete id => Sys2Proof.Machine.execFetchaddComplete id s
  | .cpRestart die why => Sys2Proof.Machine.execCpRestart die why s
  | .cpWatchdog die => Sys2Proof.Machine.execCpWatchdog die s
  | .storePerformed team grp idx => Sys2Proof.Machine.execStorePerformed team grp idx s
  | .undefinedEncoding cause => Sys2Proof.Machine.execUndefinedEncoding cause s
  | .reservedCommand c => Sys2Proof.Machine.execReservedCommand c s
  | .hostLineOwnership line take data => Sys2Proof.Machine.execHostLineOwnership line take data s
  | .reshapeComplete => Sys2Proof.Machine.execReshapeComplete s
  | .coldReset => Sys2Proof.Machine.execColdReset s
  | .hostLinkDown => Sys2Proof.Machine.execHostLinkDown s
  | .hostLinkUp => Sys2Proof.Machine.execHostLinkUp s
  | .rootFirmwareFault => Sys2Proof.Machine.execRootFirmwareFault s
  | .hostCompletionTimeout => Sys2Proof.Machine.execHostCompletionTimeout s

end Sys2Proof.Machine
end

