-- ==== Sys2Proof/Machine/Step.lean ====
section
/-!
DEFINITION. One step of the machine: the next move of the agenda, or with none left the next step of bring-up or one
count of the device clock.
-/
namespace Sys2Proof.Machine

/-- A split issues the instruction that it stands at, or what its fetch ends in instead. -/
def runIssue (t g p : Nat) (s : State) : Host.Outcome State Fault Refusal :=
  match s.fetch t g p with
  | .run i s' => exec i { s' with issuer := .split t g p }
  | .instead s' => .next s'

/-- Whether a split's instruction can go now (R90). -/
def issues (s : State) (t g p : Nat) : Bool :=
  match runIssue t g p s with
  | .next s' => !(s.idled t g p s')
  | _ => true

/-- One move. -/
def runMove (m : Move) (s : State) : Host.Outcome State Fault Refusal :=
  match m with
  | .choose => .next (s.issueCycle issues)
  | .attempt t g p => match runIssue t g p s with
    | .next s' => .next (if s.idled t g p s' then s' else s)
    | r => r
  | .issue t g p => runIssue t g p s
  | .command n => match s.fetchCommand n with
    | .run i s' => exec i { s' with issuer := .stream n }
    | .instead s' => .next s'
  | .bar0 off v => match s.bar0Write off v with
    | (some i, s') => exec i { s' with issuer := .none }
    | (none, s') => .next s'
  | .event i => exec i { s with issuer := .none }
  | .hardware e => .next (s.befall e)

/-- One step; `free` advances so that no two steps share a free value. A source that is stalled makes no move (R398). -/
def step (s : State) : Host.Outcome State Fault Refusal :=
  let s := { s with free := s.free + 1 }
  match s.agenda with
  | m :: rest => match runMove m { s with agenda := rest } with
    | .next s' => .next (({ s with agenda := rest } : State).unlessStalled s')
    | r => r
  | [] => .next (match s.boot with
    | .done | .recovery _ => s.tick
    | _ => s.bringUp)

/-- `s` with the given instruction stored where the next step fetches (assumption log 9). -/
def State.withFetchWord (s : State) (nbits w : Nat) : State := s.placeWord nbits w

end Sys2Proof.Machine
end

