-- ==== Sys2Proof/Safety.lean ====
section
/-!
DEFINITION. What claims speak of: canonical memory and registers, the legal machine that every step keeps, what R432 keeps
from programs, and the terms in which an instruction's issue and its frame are said.
-/
namespace Sys2Proof.Machine

/-! ### Canonical data -/

/-- Every byte table of memory is canonical: the home slices' view of nodes 0 and 1, the stacks, the host. -/
def Memory.wf (s : State) : Bool := SMap.wf s.storage.mem && SMap.wf s.storage.media && SMap.wf s.host.mem

/-- A team's scratchpad and accumulator unit are canonical. -/
def Team.tidy (x : Team) : Bool := SMap.wf x.scratch && SMap.wf x.acc

/-- A group's registers are canonical. -/
def Group.tidy (h : Group) : Bool :=
  SMap.wf h.v && SMap.wf h.g && SMap.wf h.p && SMap.wf h.x && SMap.wf h.weight

/-! ### The legal machine -/

/-- PCAP lies between 600 W and the ceiling (R428). -/
def Mgmt.capLegal (m : Mgmt) : Prop := 600 ≤ m.pcap ∧ m.pcap ≤ powerCeiling Config.orderingCode

/-- k lies between 8 and 16 (R428). -/
def Mgmt.clockLegal (m : Mgmt) : Prop := 8 ≤ m.clk ∧ m.clk ≤ 16

/-- No field of TMOUT holds 0 (R435). -/
def Mgmt.timeoutsLegal (m : Mgmt) : Prop :=
  1 ≤ bits m.tmout.toNat 47 32 ∧ 1 ≤ bits m.tmout.toNat 31 16 ∧ 1 ≤ bits m.tmout.toNat 15 0

/-- The management registers hold values that R428 and R435 allow. -/
structure Mgmt.Legal (m : Mgmt) : Prop where
  cap : m.capLegal
  clock : m.clockLegal
  timeouts : m.timeoutsLegal
  sars : m.sar.length = 8

/-- What of a context only the root firmware writes (R432): its number, translation root, JOB and keys. -/
def Ctx.guarded (c : Ctx) : Nat × DWord × Half × List (Nat × List Byte) := (c.id, c.root, c.job, c.keys)

/-- Contexts have numbers 0 to 15, each at most one, and 4 KiB-aligned translation roots (R434, R436). -/
def contextsLegal (l : List (Nat × DWord × Half × List (Nat × List Byte))) : Prop :=
  l.Pairwise (fun a b => a.1 ≠ b.1) ∧ ∀ c ∈ l, c.1 < 16 ∧ c.2.1.toNat % 4096 = 0

/-- What R432 leaves to the root firmware alone: DEVICEID, and every context's number, translation root, JOB and keys. -/
def State.guarded (s : State) : BitVec 10 × List (Nat × DWord × Half × List (Nat × List Byte)) :=
  (s.fabric.deviceId, s.ctxs.map Ctx.guarded)

/-- The invariant of every step: memory and registers are canonical, the management registers hold what R428 and R435
allow, there are 64 streams (R81), and contexts are numbered and rooted as R434 and R436 say. -/
structure State.Legal (s : State) : Prop where
  memory : Memory.wf s = true
  teams : ∀ x ∈ s.teams, Team.tidy x = true
  groups : ∀ h ∈ s.groups, Group.tidy h = true
  mgmt : s.mgmt.Legal
  streams : s.streams.length = 64
  ctxs : contextsLegal (s.ctxs.map Ctx.guarded)

/-! ### Issue -/

/-- What an instruction works on where its issuing split may issue it and neither its encoding nor a register or lookahead
rule raises a cause (R90, R183, R187, R188, R360); none where it may not issue, a group-pipe guard fails, a cause is
raised, or a register it reads cannot be corrected (R406). -/
def State.ready (s : State) (i : Instr) : Option Here :=
  match s.issuing, i.form with
  | some (x, h, p), some (lanePipe, f, fm) =>
    if mayIssue x h p && !windowWaits h p && (lanePipe || guardHolds h f.g) && issueCause i h p lanePipe f fm = none &&
        h.struck ≠ some p.id then
      some ⟨x, h, p.justIssued, f, if lanePipe then guardLanes h p f.g else p.lanes⟩
    else none
  | _, _ => none

/-- The group right after the issue of an instruction, before its effect. -/
def Here.issued (k : Here) (i : Instr) : Group := k.grp.retire k.sp.id i.length (k.team.halted && !k.team.handler)

/-- The state right after a ready instruction has issued, before its effect. -/
def State.issued (s : State) (i : Instr) (k : Here) : State :=
  s.modGroup k.team.uid k.grp.gid fun h => h.retire k.sp.id i.length (k.team.halted && !k.team.handler)

/-- `t` is `s` but for the issuing group, which is `h` in `t`. -/
structure OnlyGroup (s t : State) (k : Here) (h : Group) : Prop where
  rest : { t with groups := s.groups } = s
  mine : t.group? k.team.uid k.grp.gid = some h
  others : ∀ a b, (a, b) ≠ (k.team.uid, k.grp.gid) → t.group? a b = s.group? a b

/-- Lane registers but `n` from D in the participating lanes are unchanged, and so is everything else of the group but
what the issue itself changes. -/
structure LaneFrame (k : Here) (i : Instr) (d n : Nat) (h : Group) : Prop where
  rest : { h with v := k.grp.v } = k.issued i
  regs : ∀ r lane, ¬(d ≤ r ∧ r < d + n ∧ k.mask.getLsbD lane = true) → lane < 32 → h.lreg r lane = k.grp.lreg r lane

/-- What `n` lane registers from `r` hold in a lane: a pair dN, or a register zero-extended (R190). -/
def Group.operand (h : Group) (r n lane : Nat) : DWord :=
  if n = 2 then h.lpair r lane else (h.lreg r lane).setWidth 64

/-- Group registers but gD are unchanged, and so is everything else of the group but what the issue itself changes. -/
structure GroupFrame (k : Here) (i : Instr) (d : Nat) (h : Group) : Prop where
  rest : { h with g := k.grp.g } = k.issued i
  regs : ∀ r, r ≠ d → h.greg r = k.grp.greg r

/-! ### Shapes of completion -/

/-- Wherever `i` is ready it completes; it writes `n` lane registers of D in the participating lanes and nothing else,
and what they then hold satisfies `R` (R7, R183). -/
def WritesLanes (i : Instr) (n : Nat) (R : State → Here → Nat → DWord → Prop) : Prop :=
  ∀ s k, s.ready i = some k → k.grp.tidy = true →
    ∃ t h, exec i s = .next t ∧ OnlyGroup s t k h ∧ LaneFrame k i k.f.d.toNat n h ∧
      ∀ lane, k.mask.getLsbD lane = true → R s k lane (h.operand k.f.d.toNat n lane)

/-- Wherever `i` is ready it completes; it writes gD and nothing else; g0 discards the write (R181). -/
def WritesGroup (i : Instr) (R : State → Here → DWord → Prop) : Prop :=
  ∀ s k, s.ready i = some k → k.grp.tidy = true →
    ∃ t h, exec i s = .next t ∧ OnlyGroup s t k h ∧ GroupFrame k i k.f.d.toNat h ∧
      if k.f.d = 0 then h.greg 0 = 0 else R s k (h.greg k.f.d.toNat)

/-- A group that is what its issue leaves but for lane predicate `d` in the participating lanes, which holds `R`;
p7 discards the write and reads true (R191). -/
structure PredFrame (k : Here) (i : Instr) (d : Nat) (R : Nat → Bool) (h : Group) : Prop where
  rest : { h with p := k.grp.p } = k.issued i
  regs : ∀ r, r ≠ d → h.pmask r = k.grp.pmask r
  out : ∀ lane, lane < 32 → k.mask.getLsbD lane = false → (h.pmask d).getLsbD lane = (k.grp.pmask d).getLsbD lane
  mine : ∀ lane, k.mask.getLsbD lane = true → (h.pmask d).getLsbD lane = (d = 7 || R lane)

/-- Wherever `i` is ready it completes; it writes lane predicate pD and nothing else. -/
def WritesPred (i : Instr) (R : State → Here → Nat → Bool) : Prop :=
  ∀ s k, s.ready i = some k → k.grp.tidy = true →
    ∃ t h, exec i s = .next t ∧ OnlyGroup s t k h ∧ PredFrame k i k.f.d.toNat (R s k) h

/-- A group that is what its issue leaves but for group predicate `d`, which holds `b`; q7 discards and reads true. -/
structure QFrame (k : Here) (i : Instr) (d : Nat) (b : Bool) (h : Group) : Prop where
  rest : { h with q := k.grp.q } = k.issued i
  regs : ∀ r, r < 8 → r ≠ d → h.qreg r = k.grp.qreg r
  mine : h.qreg d = (d = 7 || b)

/-- Wherever `i` is ready it completes; it writes group predicate qD and nothing else. -/
def WritesQ (i : Instr) (R : State → Here → Bool) : Prop :=
  ∀ s k, s.ready i = some k → k.grp.tidy = true →
    ∃ t h, exec i s = .next t ∧ OnlyGroup s t k h ∧ QFrame k i k.f.d.toNat (R s k) h

/-- Wherever `i` is ready it completes; it writes index register xD in the participating lanes and nothing else. -/
def WritesIndex (i : Instr) (R : Here → Nat → Half) : Prop :=
  ∀ s k, s.ready i = some k → k.grp.tidy = true →
    ∃ t h, exec i s = .next t ∧ OnlyGroup s t k h ∧ { h with x := k.grp.x } = k.issued i ∧
      ∀ r lane, lane < 32 → h.xreg r lane =
        if r = k.f.d.toNat ∧ k.mask.getLsbD lane = true then R k lane else k.grp.xreg r lane

/-- `t` is `s` but for the issuing group, which is `h` in `t`, and for the count of names given out. -/
structure OnlyGroupFresh (s t : State) (k : Here) (h : Group) : Prop where
  rest : { t with groups := s.groups, uid := s.uid } = s
  mine : t.group? k.team.uid k.grp.gid = some h
  others : ∀ a b, (a, b) ≠ (k.team.uid, k.grp.gid) → t.group? a b = s.group? a b

/-- Wherever `i` is ready it completes; its result is outstanding for the issuing split with a window of LA instructions
(R186, R187); the writes it will make set `n` lane registers of D in the participating lanes as `R` says, and nothing
else of any group they are made in. -/
def LeavesResult (i : Instr) (n : Nat) (R : State → Here → Nat → DWord → Prop) : Prop :=
  ∀ s k, s.ready i = some k →
    ∃ t h r, exec i s = .next t ∧ OnlyGroupFresh s t k h ∧ h = { k.issued i with results := (k.issued i).results ++ [r] } ∧
      r.owners = [k.sp.id] ∧ r.window = k.f.la.toNat ∧ r.pend = [] ∧ r.waits = [] ∧ r.fail = none ∧ r.done = false ∧
      r.dests = (List.range n).map (fun j => .v (k.f.d.toNat + j)) ∧
      ∃ ws, r.kind = .fixed ws ∧ ∀ g : Group, g.tidy = true →
        { ws.foldl Group.applyWrite g with v := g.v } = g ∧
        (∀ q lane, lane < 32 → ¬(k.f.d.toNat ≤ q ∧ q < k.f.d.toNat + n ∧ k.mask.getLsbD lane = true) →
          (ws.foldl Group.applyWrite g).lreg q lane = g.lreg q lane) ∧
        ∀ lane, k.mask.getLsbD lane = true → R s k lane ((ws.foldl Group.applyWrite g).operand k.f.d.toNat n lane)

namespace Claims

/-- What a step does around the instruction that it runs. -/
def after (f : State → State) (r : Host.Outcome State Fault Refusal) : Host.Outcome State Fault Refusal :=
  match r with
  | .next s => .next (f s)
  | r => r

/-! ### The spec's tables -/

/-- Instructions whose issue compares no cause of their own with those of the encoding (all but the matrix ones). -/
def plainIssue : Instr → Bool
  | .conv _ | .convDis _ | .mma _ | .mmaSp _ | .accZero _ | .accLd _ | .accSt _ | .accAdd _ | .mcommit _ | .mwait _
  | .prune _ | .pruneT _ => false
  | _ => true

/-- The steps in which the root firmware writes the guarded state (R432), and the resets. -/
def firmwareStep : Instr → Bool
  | .create _ | .destroy _ | .key _ | .topo _ | .wreset _ | .coldReset | .dieThermalTrip _ | .rootFirmwareFault => true
  | _ => false

/-- R206: the fields, whether .sat is taken, and the exact result r. -/
def integerTable : List ((Long → Instr) × (Long → Bool × (Int → Int → Int → Int))) :=
  [(.iadd, fun _ => (true, fun a b _ => a + b)),
   (.isub, fun _ => (true, fun a b _ => a - b)),
   (.imul, fun _ => (false, fun a b _ => a * b)),
   (.imad, fun _ => (false, fun a b c => a * b + c)),
   (.imulhi, fun i => (false, fun a b _ => a * b / 2 ^ elemBits i.m)),
   (.imin, fun _ => (false, fun a b _ => min a b)),
   (.imax, fun _ => (false, fun a b _ => max a b)),
   (.iabs, fun _ => (true, fun a _ _ => |a|))]

/-- R223: the group counterparts. -/
def groupIntegerTable : List ((Long → Instr) × (Long → Bool × (Int → Int → Int → Int))) :=
  [(.gadd, fun _ => (true, fun a b _ => a + b)),
   (.gsub, fun _ => (true, fun a b _ => a - b)),
   (.gmul, fun _ => (false, fun a b _ => a * b)),
   (.gmad, fun _ => (false, fun a b c => a * b + c)),
   (.gmin, fun _ => (false, fun a b _ => min a b)),
   (.gmax, fun _ => (false, fun a b _ => max a b))]

/-- R207 and its group counterparts (R223): the fields and the bit operation. -/
def logicTable : List ((Long → Instr) × (DWord → DWord → DWord)) :=
  [(.and, fun a b => a &&& b),
   (.or, fun a b => a ||| b),
   (.xor, fun a b => a ^^^ b),
   (.andn, fun a b => a &&& ~~~b)]
def groupLogicTable : List ((Long → Instr) × (DWord → DWord → DWord)) :=
  [(.gand, fun a b => a &&& b),
   (.gor, fun a b => a ||| b),
   (.gxor, fun a b => a ^^^ b)]

/-- R208 on an element `a` of `w` bits, shifted by `n`: shl, shr (a unsigned), sar (a signed). -/
def shiftTable : List ((Long → Instr) × (Nat → Nat → Nat → Int)) :=
  [(.shl, fun _ a n => a * 2 ^ n),
   (.shr, fun _ a n => a / 2 ^ n),
   (.sar, fun w a n => toSigned w a / 2 ^ n)]
def groupShiftTable : List ((Long → Instr) × (Nat → Nat → Nat → Int)) :=
  [(.gshl, fun _ a n => a * 2 ^ n),
   (.gshr, fun _ a n => a / 2 ^ n),
   (.gsar, fun w a n => toSigned w a / 2 ^ n)]

/-- R208: the amount of element `e` of `w` bits from field C, from the element of a packed B, or from B's 32 bits. -/
def amount (i : Long) (b : DWord) (e : Nat) : Nat :=
  if i.f.getLsbD 0 then i.c.toNat
  else if elemBits i.m < 32 then b.toNat / 2 ^ (elemBits i.m * e) % 2 ^ elemBits i.m else b.toNat % 2 ^ 32

/-- R210 by what characterises each count `c` of a value `a` of `w` bits. -/
def isOnes (w : Nat) (a : DWord) (c : Nat) : Prop := c = ((List.range w).filter fun j => a.getLsbD j).length
def isLeading (w : Nat) (a : DWord) (c : Nat) : Prop :=
  c ≤ w ∧ (∀ j, j < c → a.getLsbD (w - 1 - j) = false) ∧ (c < w → a.getLsbD (w - 1 - c) = true)
def isTrailing (w : Nat) (a : DWord) (c : Nat) : Prop :=
  c ≤ w ∧ (∀ j, j < c → a.getLsbD j = false) ∧ (c < w → a.getLsbD c = true)

/-- R211: l of the field at `pos` of length `len` in a word of `w` bits. -/
def fieldLen (w pos len : Nat) : Nat := if w ≤ pos ∨ len = 0 then 0 else min (pos + len) w - pos

/-- bfx of R211: bit j of the result. -/
def isExtract (w : Nat) (a : DWord) (pos len : Nat) (signed : Bool) (d : DWord) : Prop :=
  ∀ j, j < w → d.getLsbD j =
    (let l := fieldLen w pos len
     if l = 0 then false else if j < l then a.getLsbD (pos + j) else signed && a.getLsbD (pos + l - 1))

/-- bfi of R211: bit j of the result. -/
def isInsert (w : Nat) (base a : DWord) (pos len : Nat) (d : DWord) : Prop :=
  ∀ j, j < w → d.getLsbD j =
    (if pos ≤ j ∧ j < pos + fieldLen w pos len then a.getLsbD (j - pos) else base.getLsbD j)

/-- R212: byte j of the result for the selector nibble z, from the eight bytes of B:A. -/
def permByteOf (a b : DWord) (z : Nat) : Nat :=
  let byte := (b.toNat * 2 ^ 32 + a.toNat) / 2 ^ (8 * (z % 8)) % 256
  if z < 8 then byte else if 128 ≤ byte then 0xFF else 0

/-- R214: the conditions on two values of `w` bits. -/
def condition (f : BitVec 3) (w : Nat) (a b : Nat) : Bool :=
  match f.toNat with
  | 0 => a == b
  | 1 => a != b
  | 2 => decide (toSigned w a < toSigned w b)
  | 3 => decide (toSigned w a ≥ toSigned w b)
  | 4 => decide (a < b)
  | 5 => decide (a ≥ b)
  | _ => a &&& b != 0

/-- R219: the immediate forms with a lane-register result, as functions of a and v (sign-extended to 64 bits). -/
def immediateTable : List ((Imm → Instr) × (DWord → DWord → DWord)) :=
  [(.movi, fun _ v => v),
   (.iaddi, fun a v => a + v),
   (.imuli, fun a v => a * v),
   (.iandi, fun a v => a &&& v),
   (.iori, fun a v => a ||| v),
   (.ixori, fun a v => a ^^^ v)]

/-- R242 to R244, R253: the fields, the mode and the exact value of each operation that completes at once. -/
def floatTable : List ((Long → Instr) × (Long → Mode × (FVal → FVal → FVal → FVal))) :=
  [(.fadd, fun i => (Long.mode i, fun a b _ => FVal.add (Long.mode i) a b)),
   (.fsub, fun i => (Long.mode i, fun a b _ => FVal.add (Long.mode i) a b.neg)),
   (.fmul, fun i => (Long.mode i, fun a b _ => a.mul b)),
   (.ffma, fun i => (Long.mode i, fun a b c => FVal.add (Long.mode i) (a.mul b) c)),
   (.fmin, fun i => (.ne, fun a b _ => FVal.minMax false (i.f.getLsbD 0) a b)),
   (.fmax, fun i => (.ne, fun a b _ => FVal.minMax true (i.f.getLsbD 0) a b)),
   (.frnd, fun i => (Long.mode i, fun a _ _ => frndVal (fmtOf i.m.toNat) (Long.mode i) a))]

/-- R242, R247: those that are long-latency (R238). -/
def longFloatTable : List ((Long → Instr) × (Long → Mode × (FVal → FVal → FVal → FVal))) :=
  [(.fdiv, fun i => (Long.mode i, fun a b _ => a.div b)),
   (.fsqrt, fun i => (Long.mode i, fun a _ _ => a.sqrt)),
   (.frcp, fun i => (Long.mode i, fun a _ _ => (FVal.fin false 1 0).div a)),
   (.frsq, fun _ => (.ne, fun a _ _ => frsqVal a)),
   (.fexp2, fun i => (.ne, fun a _ _ => fexp2Val (fmtOf i.m.toNat) a)),
   (.flog2, fun i => (.ne, fun a _ _ => flog2Val (fmtOf i.m.toNat) a)),
   (.fsin, fun i => (.ne, fun a _ _ => ftrigVal (fmtOf i.m.toNat) false a)),
   (.fcos, fun i => (.ne, fun a _ _ => ftrigVal (fmtOf i.m.toNat) true a))]

/-- FARITH of R242: every element of the result is the exact value of its operands' elements, read and written with the
flush of F[2] (R48), rounded once. -/
def isFarith (l : Long) (mode : Mode) (op : FVal → FVal → FVal → FVal) (k : Here) (lane : Nat) (d : DWord) : Prop :=
  let F := fmtOf l.m.toNat
  let n := fpRegs l.m
  ∀ e, e < fpElems l.m →
    let rd (x : DWord) := F.flush (l.f.getLsbD 2) (F.value (elemNat (fpBits l.m) e x))
    elemNat (fpBits l.m) e d =
      F.code (F.flush (l.f.getLsbD 2) (F.round mode (op (rd (k.srcA n lane)) (rd (k.srcB n lane)) (rd (k.srcC n lane))))) %
        2 ^ fpBits l.m

/-- The words of a lane long form with the given OP (R176, R193): P 0, L 1. -/
def laneLong (i : Instr) (op : Nat) : Prop :=
  ∃ w0 w1, encode i = [w0, w1] ∧ w0.getLsbD 31 = false ∧ w0.getLsbD 30 = true ∧ bits w0.toNat 29 23 = op

/-- The word of a one-word form with OP 0 (R176, R193, R194): P as given, L 0. -/
def oneWordOp0 (p : Bool) (i : Instr) : Prop :=
  ∃ w, encode i = [w] ∧ w.getLsbD 31 = p ∧ w.getLsbD 30 = false ∧ bits w.toNat 29 23 = 0

/-- Lane long fields that name v0, p0 and type `m`, guard always. -/
def plainLong (m : BitVec 4) : Long :=
  { g := ⟨7, false⟩, d := 0, a := 0, f := 0, b := 0, c := 0, la := 0, m := m, ka := false, kb := false, kc := false,
    x := false, xi := 0, h := 0 }

/-- The types that an integer lane long form takes, as M codes (R184): each is accepted, and no other is. -/
def takesTypes (i : Long → Instr) (types : List (BitVec 4)) : Prop :=
  (∀ m ∈ types, (i (plainLong m)).wellFormed = true) ∧ ∀ l, (i l).wellFormed = true → l.m ∈ types

/-! ### Memory -/

/-- R266, R268: the three loads, whether they reach the global space, whether they are the group's, and their addresses. -/
def loadTable : List ((Long → Instr) × (Long → Bool) × Bool × (Here → Bool → List (Nat × DWord))) :=
  [(.ld, fun _ => true, false, fun k _ => k.eas true),
   (.lds, fun _ => false, false, fun k _ => k.eas false),
   (.gld, fun l => !l.c.getLsbD 0, true, fun k g => [(0, k.gea g)])]

/-- R268, R269, R272, R273: the stores, whether they reach the global space, their alignment, and each lane's address and
bytes. -/
def storeTable : List ((Long → Instr) × (Long → Bool) × (Long → Nat) × (Here → Bool → List (Nat × DWord × List Byte))) :=
  [(.st, fun _ => true, fun l => widthBytes l.f, fun k _ => k.stores true),
   (.sts, fun _ => false, fun l => widthBytes l.f, fun k _ => k.stores false),
   (.stm, fun l => !l.f.getLsbD 0, fun _ => 1, fun k g => k.maskedStores g),
   (.gst, fun l => !l.c.getLsbD 0, fun l => widthBytes l.f,
     fun k g => [(0, k.gea g, leBytes (widthBytes k.f.f) (k.grp.greg k.f.d.toNat).toNat)])]

/-- R274: the atomics and reductions: whether they reach the global space and return the old value. -/
def atomTable : List ((Long → Instr) × Bool × Bool) :=
  [(.atom, true, true), (.atoms, false, true), (.red, true, false), (.reds, false, false)]

/-- Bytes that a read may deliver from a place (R113, R137, R145): those at the point of coherence, or those of a line that the
core's L1 or gather fetch cache holds, each under the group's own earlier stores in `q`. -/
def mayRead (s : State) (core : Nat) (q : List QEntry) (op : PendOp) (l : Loc) (n : Nat) (b : List Byte) : Prop :=
  ∃ b0, b = forward q l b0 ∧ (b0 = s.peek l n ∨
    ∃ pa key, l = .mem pa key .full ∧
      ∃ c ∈ (if op = .gather then (s.core core).gather else if op = .read then (s.core core).l1 else []),
        c.line = pa / 128 ∧ c.key = key ∧ b0 = (c.bytes.drop (pa % 128)).take n)

/-- What a group reads in any space is what it read before, memory and scratchpads alike. -/
structure SameMemory (s t : State) : Prop where
  storage : t.storage = s.storage
  host : t.host.mem = s.host.mem
  scratch : t.teams = s.teams

/-- Nothing of the groups but the issuing one, nothing of the teams, grids, streams, copies and registers of management
changes. -/
structure SamePlatform (s t : State) (k : Here) : Prop where
  groups : ∀ a b, (a, b) ≠ (k.team.uid, k.grp.gid) → t.group? a b = s.group? a b
  teams : t.teams = s.teams
  grids : t.grids = s.grids
  streams : t.streams = s.streams
  copies : t.copies = s.copies
  mgmt : t.mgmt = s.mgmt

/-- R279: the functions of gbar. -/
def barTable : List ((Long → Instr) × BarFn) :=
  [(.gbarInit, .init), (.gbarArrive, .arrive), (.gbarExpect, .expect), (.gbarExpa, .expa), (.gbarWait, .wait), (.gbarTry, .try)]

/-- R285: the shapes of cpya. -/
def copyTable : List ((Long → Instr) × BitVec 2) :=
  [(.cpyaB2t, 0), (.cpyaT2b, 1), (.cpyaB2b, 2), (.cpyaFlat, 3)]

/-! ### Matrix -/

/-- The matched instructions in a long form (R299), with what each asks of its operands and its part of the operation. -/
def matchedTable : List ((Long → Instr) × MatchedOp × (State → Here → Option (BitVec 8))) :=
  [(.mma, .mma, fun s => s.mmaCause false),
   (.mmaSp, .mmaSp, fun s => s.mmaCause true),
   (.accZero, .accZero, fun s => s.accCause .accZero),
   (.accLd, .accLd, fun s => s.accCause .accLd),
   (.accSt, .accSt, fun s => s.accCause .accSt),
   (.accAdd, .accAdd, fun s => s.accCause .accAdd)]

/-- A member's part of a matched operation: what R306, R312 and R319 have it read at issue. -/
def matchedPart (op : MatchedOp) (k : Here) (s : State) : Part :=
  let p := k.part s
  match op with
  | .mma => { p with vb := k.grp.greg k.f.b.toNat, frag := some (k.operandA false) }
  | .mmaSp => { p with vb := k.grp.greg k.f.b.toNat, frag := some (k.operandA true) }
  | .accLd | .accAdd => { p with va := k.grp.greg k.f.a.toNat, vb := k.grp.greg k.f.b.toNat }
  | .accSt => { p with va := k.grp.greg k.f.a.toNat, vb := k.grp.greg k.f.b.toNat, vb1 := k.grp.greg (k.f.b.toNat + 1) }
  | _ => p

/-- A member's record after a matched instruction: one more counted (R299), and the latch as H says (R306). -/
def matchedMember (op : MatchedOp) (k : Here) (m : Member) : Member :=
  { m with issued := m.issued + 1, latch := match op with
    | .mma => if k.f.h = 1 then some (k.operandA false) else none
    | .mmaSp => if k.f.h = 1 then some (k.operandA true) else none
    | _ => m.latch }

/-- The operation that the member's next matched instruction belongs to, with its part in it (R299, R300). -/
def joined (c : Conv) (m : Member) (op : MatchedOp) (k : Here) (p : Part) : MOp :=
  match c.partials[m.issued - c.done]? with
  | some o => o.join op k.f p
  | none => { op := op, fields := k.f, parts := [p], agree := true }

/-- R299, R300, R316, R385: what one member's issue of a matched instruction does, `o` the operation with its part and
`s1` the state with the member's record and registers changed. -/
def MatchedIssue (i : Instr) (op : MatchedOp) (k : Here) (s s1 : State) (c : Conv) (m : Member) (o : MOp) : Prop :=
  let j := m.issued - c.done
  let room := op.usesEngine = true → (s.issued i k).blinded k.team.uid k.grp.gid = false ∧
    ((s.core k.team.core).engine.filter fun e => !e.started).length < 8
  (o.parts.length < c.members.length → (j < c.partials.length ∨ c.partials.length < 4) →
    exec i s = .next (s1.modConv k.team.uid c.uid fun c => { c with
      partials := if j < c.partials.length then c.partials.set j o else c.partials ++ [o] })) ∧
  (c.members.length ≤ o.parts.length → o.agree = false → exec i s =
    .next ((s.breakConv k.team.uid c.uid none).raise k.team.uid k.grp.gid (some k.sp.id) 0x31 k.sp.pc)) ∧
  (c.members.length ≤ o.parts.length → o.agree = true → room → exec i s =
    .next ((((s1.modConv k.team.uid c.uid fun c => { c with partials := c.partials.drop 1, done := c.done + 1 }).matched
      k.team c.uid o)).endConv k.team.uid c.uid))

/-- The accumulator words of element (r, n) of a region (R305). -/
def elemKeys (kind d r n : Nat) : List Nat :=
  if kind = 0 then [accKey (d + r / 32) (r % 32) n]
  else [accKey (d + 2 * (r / 32)) (r % 32) n, accKey (d + 2 * (r / 32) + 1) (r % 32) n]

/-- `b` is `a` but for the region of `m` rows, whose elements hold `f` of what they held. -/
def RegionIs (a b : SMap 32) (kind d m : Nat) (f : Nat → Nat → Nat → Nat) : Prop :=
  (∀ r n, r < m → n < 32 → regionGet b kind d r n = f r n (regionGet a kind d r n) % 2 ^ (if kind = 0 then 32 else if kind = 1 then 40 else 64)) ∧
  ∀ key, (∀ r n, r < m → n < 32 → key ∉ elemKeys kind d r n) → SMap.get b key = SMap.get a key

/-- R311: what prune keeps of one lane's magnitudes: in each group of `m` positions, `n` of them in rising order, none of
which a position left out exceeds, or equals from a lower place. -/
def KeepsLargest (m n : Nat) (mags : List FVal) (l : List Nat) : Prop :=
  l.Pairwise (· < ·) ∧ (∀ p ∈ l, p < mags.length) ∧
  ∀ g, g < mags.length / m →
    (l.filter fun p => p / m = g).length = n ∧
    ∀ p ∈ l, p / m = g → ∀ q, q / m = g → q ∉ l →
      magBelow (mags.getD p .nan) (mags.getD q .nan) = false ∧
      (magBelow (mags.getD q .nan) (mags.getD p .nan) = true ∨ p < q)

/-! ### Control -/

/-- R74: the group after a split has divided among some targets: the split goes on at the first; each further one becomes a
split of its own while SPLITIDs are free; the lanes of the rest wait in a PENDING entry, to restart at `back` (for br, at
their own target). A FORK entry lies under it where a split that has entries divides. Open windows end. -/
structure Divides (k : Here) (i : Instr) (back : Option DWord) (t1 : DWord × LaneMask) (others : List (DWord × LaneMask))
    (h : Group) : Prop where
  rest : { h with splits := [], results := [] } = { k.issued i with splits := [], results := [] }
  first : h.split? k.sp.id = some { k.sp with
    lanes := t1.2, pc := t1.1,
    stack := (match others.drop k.grp.freeIds.length with
        | [] => []
        | t :: l => [{ fork := false, pending := targetLanes (t :: l), ppc := back.getD t.1, arrived := 0, target := none }]) ++
      (if (k.grp.freeIds ≠ [] ∧ others ≠ []) ∧ k.sp.stack ≠ [] then
        [{ fork := true, pending := 0, ppc := 0, arrived := 0, target := none }] else []) ++ k.sp.stack }
  made : ∀ (j id : Nat) (t : DWord × LaneMask), k.grp.freeIds[j]? = some id → others[j]? = some t →
    h.split? id = some { id := id, pc := t.1, lanes := t.2, stack := [], held := none, park := none }
  kept : ∀ id, id ≠ k.sp.id → id ∉ k.grp.freeIds.take others.length → h.split? id = k.grp.split? id
  results : h.results = (k.issued i).results.map fun r =>
    if r.owners.contains k.sp.id then { r with window := 0, owners := r.owners ++ k.grp.freeIds.take others.length } else r

/-- R74: whether the mask stack has room for a division among one target and `others`. -/
def hasRoom (k : Here) (others : List (DWord × LaneMask)) : Bool :=
  k.sp.stack.length + (if others.length ≤ k.grp.freeIds.length then 0 else 1) +
    (if k.grp.freeIds ≠ [] ∧ others ≠ [] ∧ k.sp.stack ≠ [] then 1 else 0) ≤ 8

/-- brx and ret (R232). -/
def indirectTable : List (Short → Instr) := [.brx, .ret]

/-! ### Fabric -/

/-- The coll instructions with their form (R294). -/
def collTable : List ((Long → Instr) × BitVec 2) := [(.collPut, 0), (.collGet, 1), (.collRed, 2)]

/-- The collectives with their operation (R296, R331). -/
def gcollTable : List ((Long → Instr) × BitVec 2) := [(.gcollAr, 0), (.gcollRs, 1), (.gcollAg, 2)]

/-- The packets of R327 that bring scale codes, sums or results, with their KIND. -/
def chunkTable : List ((Chunk → Instr) × Nat) := [(.forward, 0), (.addAndForward, 1), (.final, 2), (.scaleMax, 3)]

/-! ### Streams -/

/-- A stream's command processor may act on a command whose reserved fields hold zero (R81 to R83). -/
structure CommandReady (s : State) (c : Command) (n : Nat) : Prop where
  issuer : s.issuer = .stream n
  running : (s.stream n).running = true
  waiting : (s.stream n).wait = .none
  arg1 : c.arg1 = 0
  rsv : c.rsv = 0

/-- WAIT and the commands that wait without it (R82, R83): every earlier launch and host copy has completed. -/
def waited (s : State) (n : Nat) (waits : Bool) : Prop := waits = true → s.streamQuiet n = true

/-- The stream stops with an error at the command it executes (R387). -/
def stops (s : State) (n : Nat) (err : BitVec 8) : State := (s.dropAnswers n).stopStream n err 0 (s.stream n).pc

/-- The commands of R83. -/
def commandTable : List (Command → Instr) :=
  [.nopCommand, .launch, .launchi, .loop, .branch, .waitph, .signal, .publish, .hcopy, .fenceCommand, .seed, .stop]

/-- A 64-bit comparison of R83: 0 equal, 1 not equal, 2 less, 3 not less, all unsigned. -/
def comparison (cmp : BitVec 3) (w v : DWord) : Prop :=
  match cmp.toNat with
  | 0 => w = v
  | 1 => w ≠ v
  | 2 => w.toNat < v.toNat
  | 3 => v.toNat ≤ w.toNat
  | _ => True

/-! ### Management -/

/-- A management command runs and is accepted from (R431, R437): MCMD holds it, BUSY is 1 and READY is 1. -/
def Runs (s : State) (op : Nat) (m : MCmd) : Prop := s.commandRuns op m = true ∧ s.mgmt.ready = true

/-- The management commands with their OP (R436). -/
def mgmtTable : List ((MCmd → Instr) × Nat) :=
  [(.create, 0x01), (.destroy, 0x02), (.key, 0x03), (.inval, 0x04), (.preempt, 0x05), (.restore, 0x06), (.freset, 0x07),
   (.retain, 0x08), (.unretain, 0x09), (.reshape, 0x0A), (.lose, 0x0B), (.topo, 0x0C), (.attest, 0x0D), (.wreset, 0x0E),
   (.update, 0x0F)]

end Claims

end Sys2Proof.Machine
end

