-- ==== Sys2Proof/Certificates/Slice0/Obligations.lean ====
section
/-!
DEFINITION. The statements for the provers.
-/
open Sys2Proof Sys2Proof.Machine

/-! ### Encoding, decoding, the step -/

/-- R174 to R178: every well-formed fetched instruction is what its encoded words decode to, with every operand at every
value the encoding admits.
Where the rules leave a point open it states the model's choice: assumption log 11. -/
def Obligations.DecodeEncodeRoundTrip : Prop :=
  ∀ i : Instr, i.wellFormed = true → decodeWords (encode i) = i

/-- Words written out in the spec decode to the instructions they stand for: addx (R220), br (R230), exit (R234), fdiv
(R243), bscale (R255), bquant (R256), unpk (R265) and nop (R221). -/
def Obligations.DecodeWordsOfTheManual : Prop :=
  decodeWords [0x4FF00001, 0x00FF0000] =
      .addx { g := ⟨7, false⟩, d := 0, a := 0, f := 1, b := 0, c := 0xFF, la := 0, m := 0, ka := false, kb := false,
              kc := false, x := false, xi := 0, h := 0 } ∧
    decodeWords [0xD070000B, 0xFFFFFFC0] = .br { g := ⟨7, false⟩, d := 0, a := 1, f := 3, imm := 0xFFFFFFC0 } ∧
    decodeWords [0x92F00000] = .exit { g := ⟨7, false⟩, d := 0, a := 0, f := 0 } ∧
    decodeWords [0x58703013, 0x04001000] =
      .fdiv { g := ⟨7, false⟩, d := 6, a := 2, f := 3, b := 4, c := 0, la := 1, m := 0, ka := false, kb := false,
              kc := false, x := false, xi := 0, h := 0 } ∧
    decodeWords [0x60F03820, 0x00050100] =
      .bscale { g := ⟨7, false⟩, d := 7, a := 4, f := 0, b := 0, c := 5, la := 0, m := 1, ka := false, kb := false,
                kc := false, x := false, xi := 0, h := 0 } ∧
    decodeWords [0x61705020, 0x07180540] =
      .bquant { g := ⟨7, false⟩, d := 10, a := 4, f := 0, b := 7, c := 0x18, la := 0, m := 5, ka := false, kb := true,
                kc := false, x := false, xi := 0, h := 0 } ∧
    decodeWords [0x62F0A030, 0x00014080] =
      .unpk { g := ⟨7, false⟩, d := 20, a := 6, f := 0, b := 0, c := 1, la := 4, m := 0, ka := true, kb := false,
              kc := false, x := false, xi := 0, h := 0 } ∧
    decodeWords [0x00700000] = .nop { g := ⟨7, false⟩, d := 0, a := 0, f := 0 }

/-- R174, R364: a step that gives the turn to a split runs the instruction that the bytes at its program counter decode
to, the second word being fetched where L is 1. Around it the step only takes the turn off the agenda, counts the free
values, takes the fetched answers, writes back lines that its fetch finds under another key (R112) and names the issuer; a source of
records that is stalled makes no move (R398), which with no record in the second store none is. Of bytes that are no instruction the
cause is 0x02 where the region that they name is reserved too (R362).
Where the rules leave a point open it states the model's choice: assumption logs 1, 25, 64. -/
def Obligations.StepRunsDecodedInstruction : Prop :=
  ∀ (s : State) (t g p : Nat) (rest : List Move) (x : Team) (h : Group) (sp : Split) (b0 : List Byte),
    s.agenda = .issue t g p :: rest → s.team? t = some x → s.group? t g = some h → h.split? p = some sp →
    mayIssue x h sp = true →
    let s1 : State := { s with free := s.free + 1, agenda := rest }
    let ran (n : Nat) (i : Instr) := exec i { (s1.takeAnswers (t + 1, g)).rekeySpans x.ctx [(sp.pc, n)] with issuer := .split t g p }
    let runs (n : Nat) (b : List Byte) : Prop := ∃ i,
      step s = Claims.after s1.unlessStalled (ran n i) ∧ (s.unread ≤ 256 → step s = ran n i) ∧
      ((∀ c, decodeBytes b ≠ .undefinedEncoding c) → i = decodeBytes b) ∧
      ∀ c, decodeBytes b = .undefinedEncoding c → i = .undefinedEncoding (if (namedBy b).any (regionOdd x h) then 0x02 else c)
    s1.fetchWord x.ctx (t + 1, g) sp.pc = .bytes b0 →
    ((b0.getD 3 0).getLsbD 6 = false → runs 4 b0) ∧
    (∀ b1, (b0.getD 3 0).getLsbD 6 = true → s1.fetchWord x.ctx (t + 1, g) (sp.pc + 4) = .bytes b1 → runs 8 (b0 ++ b1)) ∧
    (s.keyless x.ctx = true → ∀ n, (s1.takeAnswers (t + 1, g)).rekeySpans x.ctx [(sp.pc, n)] = s1.takeAnswers (t + 1, g))

/-- R81, R82: a step that gives the turn to a running stream runs the command in the 32 bytes at its address; one that
gives it to the host's BAR 0 write or to an event of the table runs that row. A write of MCMD starts the command, which reads
every MARG then, and is discarded while BUSY is 1 (R437) and where no host link brings it; one beyond the registers does nothing (R435).
Where the rules leave a point open it states the model's choice: assumption logs 1, 25, 34. -/
def Obligations.StepRunsCommandsAndEvents : Prop :=
  ∀ (s : State) (rest : List Move),
    let s1 : State := { s with free := s.free + 1, agenda := rest }
    let around := Claims.after s1.unlessStalled
    (∀ n b, s.agenda = .command n :: rest → (s.stream n).running = true → (s.stream n).wait = .none →
      s1.cpRead n (s.stream n).pc 32 = .bytes b →
      step s = around (exec (decodeCommand (BitVec.ofNat 64 (leNat (b.take 8))) (BitVec.ofNat 64 (leNat ((b.drop 8).take 8)))
        (BitVec.ofNat 64 (leNat ((b.drop 16).take 8))) (BitVec.ofNat 64 (leNat ((b.drop 24).take 8))))
        { s1.rekeySpans (s.stream n).ctx [((s.stream n).pc, 32)] with issuer := .stream n })) ∧
    (∀ off v, s.agenda = .bar0 off v :: rest →
      (off < 2 ^ 16 → off ≠ 0x20 → step s = around (exec (decodeBar0 (BitVec.ofNat 16 off) v) { s1 with issuer := .none })) ∧
      (off = 0x20 → step s = .next (if s.mgmt.busy = true ∨ (s.mgmt.ready = false ∧ s.mgmt.recovery = false) ∨ s.host.linkUp = false then s1
        else s1.modMgmt fun m => { m with mcmd := v &&& 0xFFFFFFFF00000FFF, busy := true, arg0 := m.marg0, arg1 := m.marg1 })) ∧
      (2 ^ 16 ≤ off → step s = .next s1)) ∧
    (∀ i, s.agenda = .event i :: rest → step s = around (exec i { s1 with issuer := .none })) ∧
    (s.unread ≤ 256 → ∀ r, around r = r)

/-- R360, R362, R363, R366: a split that may issue and whose instruction its encoding, its budget or its lookahead forbids
raises that cause, and the instruction has no other effect. It says so for every instruction that a handler may issue and
that has no cause of its own to compare (R360).
Where the rules leave a point open it states the model's choice: assumption log 11. -/
def Obligations.IssueRaisesCause : Prop :=
  ∀ (i : Instr) (s : State) (x : Team) (h : Group) (p : Split) (lp : Bool) (f : Long) (fm : Form) (c : BitVec 8),
    s.issuing = some (x, h, p) → i.form = some (lp, f, fm) → Claims.plainIssue i = true →
    mayIssue x h p = true → windowWaits h p = false → issueCause i h p lp f fm = some c →
    exec i s = .next (s.raise x.uid h.gid (some p.id) c p.pc)

/-- R183, R228: a group-pipe instruction whose guard is false changes nothing but what its issue changes. -/
def Obligations.FalseGuardChangesNothing : Prop :=
  ∀ (i : Instr) (s : State) (x : Team) (h : Group) (p : Split) (f : Long) (fm : Form),
    s.issuing = some (x, h, p) → i.form = some (false, f, fm) → (h.inHandler = true → Claims.plainIssue i = true) →
    mayIssue x h p = true → windowWaits h p = false → issueCause i h p false f fm = none → guardHolds h f.g = false →
    exec i s = .next (s.modGroup x.uid h.gid fun h => h.retire p.id i.length (x.halted && !x.handler))

/-- R430, R435, R31: the machine after cold reset is legal, bring-up is at its first step, nothing runs, DEVCLK is 0, and every
register that R435 gives a value reads it, the stored ones and those computed from the state alike: IDENT; STATUS, IRQ, MCMD,
MARG0, MARG1, MRESULT, EQBASE, EQPTR, FQBASE, FQPTR, CFBAR, CFVA, CTXSTAT, RMADDR and RMCTL 0; PCAP the ceiling, CLK 16, TMOUT
100 in each field; SAR 0 to 7 and every stream's STAT and INFO 0.
Where the rules leave a point open it states the model's choice: assumption logs 3, 4. -/
def Obligations.ResetLegal : Prop :=
  let r := State.reset
  r.Legal ∧ r.boot = .step1 ∧ r.ctxs = [] ∧ r.teams = [] ∧ r.groups = [] ∧ r.copies = [] ∧ r.colls = [] ∧ r.devclk = 0 ∧
    r.barRead 0x0000 ∈ [0x4A12000000000001#64, 0x4A12010000000001, 0x4A12020000000001] ∧
    (∀ off ∈ [0x0008, 0x0018, 0x0020, 0x0028, 0x0030, 0x0038, 0x0040, 0x0048, 0x0050, 0x0058, 0x0068, 0x0070, 0x0090, 0x0800, 0x0808],
      r.barRead off = 0) ∧
    r.barRead 0x0080 = (powerCeiling Config.orderingCode).setWidth 64 ∧ r.barRead 0x0088 = 16 ∧
    r.barRead 0x0098 = 0x0000006400640064 ∧ (∀ i < 8, r.barRead (0x0100 + 8 * i) = 0) ∧
    (∀ n < 64, r.barRead (0x1008 + 32 * n) = 0 ∧ r.barRead (0x1010 + 32 * n) = 0 ∧ (r.stream n).running = false) ∧
    r.mgmt.busy = false ∧ ∀ pa, SMap.get r.storage.mem pa = 0

/-- Every step keeps the legal machine: memory, media, host memory, scratchpads, accumulators and registers canonical; PCAP
and k in R428's ranges; no TMOUT field zero (R435); eight SARs; 64 streams (R81); contexts numbered below 16, each once,
with 4 KiB-aligned roots (R434, R436). -/
def Obligations.EveryStepKeepsLegal : Prop :=
  ∀ s t : State, s.Legal → step s = .next t → t.Legal

/-- R432: no fetched instruction, no stream command and no event but those of firmware changes what only the root firmware
writes: DEVICEID, and each context's number, translation root, JOB and keys. -/
def Obligations.OnlyFirmwareWritesGuardedState : Prop :=
  ∀ (i : Instr) (s t : State), Claims.firmwareStep i = false → s.Legal → exec i s = .next t → t.guarded = s.guarded

/-! ### Storage -/

/-- R123, R124, R403, R404, R407 to R410, R436: RETAIN, UNRETAIN, RESHAPE and LOSE, each with its result; the completion of
a retention, which waits for lines that the host owns, and of a reshape; the loss of a stack, also of one that has been silent for the
time that TMOUT.STACK held when it fell silent (R435), and of a package, which changes no byte that memory holds.
Where the rules leave a point open it states the model's choice: assumption logs 34, 38, 39, 40, 44, 48. -/
def Obligations.StorageCommandResults : Prop :=
  (∀ (m : MCmd) (s : State),
    let b := bits m.arg.toNat 3 0
    let area := s.mgmt.arg0.toNat
    let st := s.storage
    (Claims.Runs s 8 m →
      (st.reshaping = true → exec (.retain m) s = .next (s.reportRefusal.endCommand 1)) ∧
      (st.reshaping = false → capacityFitted = true → (∀ r ∈ st.retained, r.1 ≠ b) → area % 4096 = 0 → inCapacity area = true →
        inCapacity (area + 10742188 * 4096 - 1) = true → exec (.retain m) s = .next
          (({ s with storage := { st with retained := st.retained ++ [(b, .entering, area)] } } : State).endCommand 0))) ∧
    (Claims.Runs s 9 m →
      (st.reshaping = true → exec (.unretain m) s = .next (s.reportRefusal.endCommand 1)) ∧
      (st.reshaping = false → (∃ r ∈ st.retained, r.1 = b ∧ r.2.1 = .held) → exec (.unretain m) s = .next
        (({ s with storage := { st with retained := st.retained.map fun r =>
          if r.1 = b then (b, .leaving, r.2.2) else r } } : State).endCommand 0))) ∧
    (Claims.Runs s 10 m →
      (st.retained ≠ [] ∨ 2 ≤ s.lostStacks.length → exec (.reshape m) s = .next (s.reportRefusal.endCommand 1)) ∧
      (st.retained = [] → s.lostStacks.length < 2 →
        (s.lostStacks = [] ∨ st.castled.isSome = true → exec (.reshape m) s = .next (s.endCommand 1)) ∧
        ∀ k, s.lostStacks = [k] → st.castled = none → exec (.reshape m) s = .next (({ s with storage := { st with
          reshaping := true, castled := some k, watermarks := List.replicate 16 15625000 } } : State).endCommand 0))) ∧
    (Claims.Runs s 11 m →
      (b < 12 → exec (.lose m) s = .next ((s.loseStack b).endCommand 0)) ∧
      (12 ≤ b → exec (.lose m) s = .next (s.endCommand 2)))) ∧
  (∀ (band : BitVec 4) (s : State) (b area : Nat) (ph : RetPhase),
    (s.storage.retained.find? fun r => r.1 = band.toNat) = some (b, ph, area) →
    let owned := ∃ l ∈ s.storage.hostOwned, lineIn (b * 2 ^ 36) s.bandBytes l = true ∨ lineIn area s.bandBytes l = true
    (owned → exec (.retentionComplete band) s = .next s) ∧
    (¬owned → exec (.retentionComplete band) s = .next
      (if ph = .entering then s.retainBand b area else if ph = .leaving then s.releaseBand b area else s))) ∧
  (∀ (s : State) (k : Nat), s.storage.reshaping = true → s.storage.castled = some k → k < s.storage.stackStates.length →
    ∃ t, exec .reshapeComplete s = .next t ∧ t.storage.reshaping = false ∧ t.storage.reshaped = true ∧
      t.storage.stackStates = s.storage.stackStates.set k .retired ∧ t.storage.mem = s.storage.mem ∧ t.teams = s.teams ∧
      t.host.plugs = s.host.plugs ++ (List.range 16).map fun b =>
        (true, b * 2 ^ 36 + bandSizeReshaped, bandSize - bandSizeReshaped)) ∧
  (∀ (k : Nat) (why : LossReason) (s : State),
    let late := ∃ e ∈ s.storage.silent, e.1 = k ∧ e.2 ≤ s.devclk.toNat
    (¬late ∨ s.stackLive k = false → exec (.stackTimeout k) s = .next s) ∧
    (s.stackLive k = true → why = .cwdRate → s.cwdCount k < 64 → exec (.stackLost k why) s = .next s) ∧
    (s.stackLive k = true → ∃ t, (late → exec (.stackTimeout k) s = .next t) ∧
      (why ≠ .cwdRate ∨ 64 ≤ s.cwdCount k → exec (.stackLost k why) s = .next t) ∧
      t.storage.stackStates = s.storage.stackStates.set k .lost ∧ t.storage.mem = s.storage.mem ∧
      t.storage.media = s.storage.media ∧ t.groups = s.groups ∧ t.teams = s.teams)) ∧
  ∀ (p : Nat) (s : State),
    (p < 8 → capacityFitted = true → s.storage.packages.getD p true = false → ∃ t, exec (.capacityPackageLost p) s = .next t ∧
      t.storage = { s.storage with packages := s.storage.packages.set p true } ∧ t.groups = s.groups ∧ t.teams = s.teams) ∧
    (8 ≤ p ∨ capacityFitted = false ∨ s.storage.packages.getD p true = true → exec (.capacityPackageLost p) s = .next s)

/-- R119, R120, R396, R399 to R402, R404: WRITE_BACK cleans a dirty line, or with it dirty lines of its stripe row, and changes no
byte that memory holds; JOURNAL_APPLY applies an entry that has none before it for its half-unit, an entry with a whole parity as
data are; PATROL_SCRUB reports a corrected error as a CE record with the stack and row, and a half that can be rebuilt as a CWD
record and event of its stack, which is LOST with the 64th distinct row in 60 s; a half that cannot is poisoned.
Where the rules leave a point open it states the model's choice: assumption logs 40, 41, 47, 62. -/
def Obligations.ScrubAndJournalResults : Prop :=
  (∀ (line : Nat) (s : State),
    (s.storage.dirty.contains line = false → exec (.writeBack line) s = .next s) ∧
    (s.storage.dirty.contains line = true → ∃ t, exec (.writeBack line) s = .next t ∧ t.storage.dirty.contains line = false ∧
      (∀ l, l ∉ s.rowLines line → l ≠ line → (l ∈ t.storage.dirty ↔ l ∈ s.storage.dirty)) ∧
      (∀ l, l ∈ t.storage.dirty → l ∈ s.storage.dirty) ∧ t.storage.mem = s.storage.mem ∧
      t.storage.tags = s.storage.tags ∧ t.storage.media = s.storage.media ∧ t.groups = s.groups ∧ t.teams = s.teams)) ∧
  (∀ (stack idx : Nat) (s : State) (e : JournalEntry), (s.journalOf stack)[idx]? = some e → s.stackLive stack = true →
    (∀ x ∈ (s.journalOf stack).take idx, ¬(x.row = e.row ∧ x.half = e.half)) → SMap.wf s.storage.media = true →
    e.bytes.length = 128 → e.half < 2 →
    ∃ t, exec (.journalApply stack idx) s = .next t ∧ t.storage.journal = s.storage.journal.erase e ∧
      SMap.getRun t.storage.media (mediaKey e.stack e.row e.half) 128 = (if e.parity = true ∧ e.whole = false then
        xorBytes (SMap.getRun s.storage.media (mediaKey e.stack e.row e.half) 128) e.bytes else e.bytes) ∧
      t.storage.mem = s.storage.mem ∧ t.groups = s.groups ∧ t.teams = s.teams) ∧
  (∀ (k row half : Nat) (s : State), k < 12 → s.stackLive k = true → row < 250000000 → s.storage.retained = [] → half < 2 →
    exec (.patrolScrub k row .clean) s = .next s ∧
    (∃ (t : State) (pa : DWord), exec (.patrolScrub k row .corrected) s = .next t ∧
      t = s.report 0 1 k 0 (row * 16) pa ∧ (∀ a, s.unstripe k row = some a → ∃ j < 8, pa = BitVec.ofNat 64 (a + 32 * j)) ∧
      t.storage = s.storage ∧ t.groups = s.groups ∧ t.teams = s.teams) ∧
    (s.halfGone k row half = true → exec (.patrolScrub k row (.lostHalf half)) s = .next (s.poisonHalves k row half)) ∧
    (s.halfGone k row half = false → ∃ t, exec (.patrolScrub k row (.lostHalf half)) s = .next t ∧
      let s1 := s.report 1 1 k 0 (row * 16) (s.halfAddr k row half)
      let s2 : State := { s1 with storage := { s1.storage with cwds := s1.storage.cwds ++ [(k, row, s.devclk.toNat)] } }
      t = (if 64 ≤ s2.cwdCount k then s2.loseStack k else s2) ∧
      (s2.cwdCount k < 64 → t.storage = { s.storage with cwds := s.storage.cwds ++ [(k, row, s.devclk.toNat)] }) ∧
      (64 ≤ s2.cwdCount k → t.storage.stackStates = s.storage.stackStates.set k .lost) ∧
      t.storage.mem = s.storage.mem ∧ t.groups = s.groups ∧ t.teams = s.teams)) ∧
  ∀ (sev src unit ctx detail : Nat) (addr : DWord) (s : State), s.host.linkUp = true → s.mgmt.errWaiting = [] →
    s.unread < 256 → SMap.wf s.host.mem = true →
    let slot := ringBase s.mgmt.eqbase + 32 * (s.mgmt.eqTail.toNat % 256)
    let e0 := BitVec.ofNat 64 (sev * 2 ^ 60 + src * 2 ^ 52 + unit % 2 ^ 12 * 2 ^ 40 + ctx % 16 * 2 ^ 36 + detail % 2 ^ 36)
    let t := s.report sev src unit ctx detail addr
    t.hostRead slot 32 = leBytes 8 e0.toNat ++ leBytes 8 addr.toNat ++ leBytes 8 s.devclk.toNat ++ leBytes 8 (s.mgmt.errSeq % 2 ^ 64) ∧
      t.mgmt.eqTail = s.mgmt.eqTail + 1 ∧ t.mgmt.errSeq = s.mgmt.errSeq + 1

/-! ### The platform -/

/-- R428 to R431, R433, R435, R436, R438, R439, R420, R421: registers the host writes over its link, starting a stream, TOPO, ATTEST,
UPDATE, power, heat, resets and the firmware. A management command acts only while it runs, which sets BUSY; an OP that is no
command ends with result 2, and one that no row lets run before READY with result 1.
Where the rules leave a point open it states the model's choice: assumption logs 3, 26, 34, 35, 36, 73. -/
def Obligations.PlatformResults : Prop :=
  (∀ (s : State) (v : DWord), s.boot ≠ .step1 → s.host.linkUp = true →
    exec (.irqClear v) s = .next (s.modMgmt fun m => { m with irq := m.irq &&& ~~~(v.setWidth 6) }) ∧
    exec (.eqptrHead v) s = .next (s.modMgmt fun m => { m with eqHead := v.setWidth 16 }).flushRecords ∧
    exec (.fqptrHead v) s = .next (s.modMgmt fun m => { m with fqHead := v.setWidth 16 }).flushRecords ∧
    exec (.registerWrite 0x28 v) s = .next (s.modMgmt fun m => { m with marg0 := v }) ∧
    exec (.registerWrite 0x30 v) s = .next (s.modMgmt fun m => { m with marg1 := v }) ∧
    (∃ t, exec (.pcapWrite v) s = .next t ∧ { t with mgmt := { t.mgmt with pcap := s.mgmt.pcap } } = s ∧
      600 ≤ t.mgmt.pcap.toNat ∧ t.mgmt.pcap ≤ powerCeiling Config.orderingCode ∧
      (600 ≤ bits v.toNat 15 0 → bits v.toNat 15 0 ≤ (powerCeiling Config.orderingCode).toNat →
        t.mgmt.pcap.toNat = bits v.toNat 15 0)) ∧
    (∃ t, exec (.tmoutWrite v) s = .next t ∧ { t with mgmt := { t.mgmt with tmout := s.mgmt.tmout } } = s ∧
      (∀ f ∈ [(15, 0), (31, 16), (47, 32)], bits t.mgmt.tmout.toNat f.1 f.2 =
        if bits v.toNat f.1 f.2 = 0 then 1 else bits v.toNat f.1 f.2) ∧ bits t.mgmt.tmout.toNat 63 48 = 0) ∧
    ∀ n : BitVec 6,
      ((s.stream n.toNat).running = false → (∃ c ∈ s.ctxs, c.id = bits v.toNat 3 0 ∧ c.phase = .active) → s.streams.length = 64 →
        ∃ t, exec (.start n v) s = .next t ∧ { t with streams := s.streams } = s ∧ (t.stream n.toNat).running = true ∧
          (t.stream n.toNat).ctx = bits v.toNat 3 0 ∧ (t.stream n.toNat).pc = v &&& 0xFFFFFFFFFFFFFFE0 ∧
          (t.stream n.toNat).err = 0 ∧ (t.stream n.toNat).wait = .none ∧ ∀ m, m ≠ n.toNat → t.stream m = s.stream m) ∧
      ((s.stream n.toNat).running = true ∨ (∀ c ∈ s.ctxs, c.id = bits v.toNat 3 0 → c.phase ≠ .active) →
        exec (.start n v) s = .next s)) ∧
  (∀ row ∈ Claims.mgmtTable, ∀ (m : MCmd) (s : State),
    (s.commandRuns row.2 m = false → exec (row.1 m) s = .next s) ∧
    (s.commandRuns row.2 m = true → s.mgmt.ready = false → row.2 ≠ 13 → exec (row.1 m) s = .next (s.endCommand 1))) ∧
  (∀ (s : State) (v : DWord), s.boot ≠ .step1 → s.host.linkUp = true → s.mgmt.busy = true → s.mgmt.mcmd = v &&& 0xFFFFFFFF00000FFF →
    exec (.registerWrite 0x20 v) s = .next (s.endCommand (if s.mgmt.ready then 2 else 1))) ∧
  (∀ (s : State) (r : BitVec 8), (s.endCommand r).mgmt.busy = false ∧ (s.endCommand r).mgmt.mresult = r ∧
    (s.endCommand r).mgmt.irq = s.mgmt.irq ||| 0x10) ∧
  (∀ (m : MCmd) (s : State),
    let img := s.hostRead s.mgmt.arg0.toNat (bits s.mgmt.arg1.toNat 31 0)
    (Claims.Runs s 12 m →
      (s.ctxs ≠ [] ∨ s.host.linkUp = false → exec (.topo m) s = .next (s.endCommand 1)) ∧
      (s.ctxs = [] → s.host.linkUp = true → exec (.topo m) s = .next (({ s with fabric := { s.fabric with
        deviceId := m.arg.setWidth 10, topology := Config.portSets s.host.mem s.mgmt.arg0.toNat } } : State).endCommand 0))) ∧
    (s.commandRuns 13 m = true →
      (s.mgmt.rmctl.getLsbD 63 = true ∨ s.host.linkUp = false → exec (.attest m) s = .next (s.endCommand 1)) ∧
      (s.mgmt.rmctl.getLsbD 63 = false → s.host.linkUp = true → exec (.attest m) s = .next
        ((s.hostWrite s.mgmt.arg1.toNat (s.attestReport (s.hostRead s.mgmt.arg0.toNat 32))).endCommand 0))) ∧
    (Claims.Runs s 14 m → exec (.wreset m) s = .next (s.warmReset.endCommand 0)) ∧
    (Claims.Runs s 15 m →
      (s.mgmt.recovery = true ∨ 2 ^ 26 < bits s.mgmt.arg1.toNat 31 0 ∨ s.host.linkUp = false →
        exec (.update m) s = .next (s.endCommand 1)) ∧
      (s.mgmt.recovery = false → bits s.mgmt.arg1.toNat 31 0 ≤ 2 ^ 26 → s.host.linkUp = true →
        exec (.update m) s = .next (if Config.imageVerifies img then ({ s with flash := img } : State).endCommand 0
          else (s.reportFirmware 0 4).endCommand 1)))) ∧
  (∀ (s : State) (v : DWord) (warm : Bool), s.boot = .recovery warm → s.host.linkUp = true →
    let img := s.hostRead s.mgmt.rmaddr.toNat (bits v.toNat 31 0)
    (Config.imageVerifies img = true → ∃ t, exec (.rmctlGo v) s = .next t ∧ t.image = img ∧ t.mgmt.recovery = false ∧
      t.boot = (if warm then .step4 else .step3) ∧ t.groups = s.groups ∧ t.storage = s.storage)) ∧
  (∀ (s : State) (up : Bool), s.mgmt.clkMoved = none →
    ((up = true → s.mgmt.clk < 16) → (up = false → 8 < s.mgmt.clk) → exec (.powerStep up) s = .next (s.modMgmt fun m => { m with
      clk := if up then m.clk + 1 else m.clk - 1, clkMoved := some s.devclk })) ∧
    (up = true → 16 ≤ s.mgmt.clk → exec (.powerStep up) s = .next s) ∧
    (up = false → s.mgmt.clk ≤ 8 → exec (.powerStep up) s = .next s)) ∧
  ∀ (s : State) (die : BitVec 2) (why : BitVec 4),
    exec (.dieThermalLimit die) s = .next (s.modMgmt fun m => { m with clk := 8 }) ∧
    (∀ k, k < 12 → s.stackLive k = true → ∃ t, exec (.stackLost k .thermalTrip) s = .next t ∧
      t.storage.stackStates = s.storage.stackStates.set k .lost) ∧
    (∃ t, exec .coldReset s = .next t ∧ exec (.dieThermalTrip die) s = .next t ∧
      t = { State.reset with
        agenda := s.agenda, free := s.free, flash := s.flash,
        host := { State.reset.host with mem := s.host.mem, linkUp := s.host.linkUp } }) ∧
    (s.boot = .step1 ∨ (∃ w, s.boot = .step2 w ∨ s.boot = .recovery w) → exec .rootFirmwareFault s = .next s) ∧
    (s.boot = .step3 ∨ s.boot = .step4 ∨ s.boot = .step5 ∨ s.boot = .done →
      ∃ t, exec .rootFirmwareFault s = .next t ∧ t.mgmt.ready = false ∧ t.boot = .step2 (decide (s.boot ≠ .step3)) ∧ t.ctxs = [] ∧
        t.mgmt.busy = false ∧ ((∀ x ∈ s.teams, x.ctx ∈ s.ctxs.map Ctx.id) → t.teams = [])) ∧
    (∃ t u, exec (.cpRestart die why) s = .next t ∧ exec (.cpWatchdog die) s = .next u ∧ t.groups = s.groups ∧
      u.groups = s.groups ∧ ∀ n, n < 64 → s.streams.length = 64 →
        ((s.stream n).die = die.toNat → (t.stream n).running = false ∧ (u.stream n).running = false) ∧
        ((s.stream n).die ≠ die.toNat → t.stream n = s.stream n ∧ u.stream n = s.stream n))

/-! ### The host link -/

/-- R112, R160, R342 to R344, R398, R406, R418, R419: the host's reads, writes and atomics through BAR 2, which find lines held under
another key written back; lines it takes and gives back; the link that goes down and comes back; and requests to the host whose time is over.
Where the rules leave a point open it states the model's choice: assumption logs 42, 43, 44, 45, 73. -/
def Obligations.HostLinkResults : Prop :=
  (∀ (s : State) (pa : Nat), s.host.linkUp = false → (∀ n, exec (.hostBar2Read pa n) s = .next s) ∧
    (∀ b po, exec (.hostBar2Write pa b po) s = .next s) ∧ (∀ op w a b, exec (.hostAtomicop pa op w a b) s = .next s) ∧
    ∀ t b, exec (.hostLineOwnership pa t b) s = .next s) ∧
  (∀ (s : State) (pa n : Nat), s.host.linkUp = true →
    (s.spanExists pa n = false → exec (.hostBar2Read pa n) s = .next (s.unsupported pa)) ∧
    (s.spanExists pa n = true → s.locHeld (.mem pa none .home) n = false → s.poisoned pa n = false →
      let s1 := s.rekeyMem none pa n
      exec (.hostBar2Read pa n) s = .next
        { s1 with host := { s1.host with replies := s1.host.replies ++ [.data (s.viewMem none pa n)] } }) ∧
    (s.storage.tags = [] → s.rekeyMem none pa n = s)) ∧
  (∀ (s : State) (pa : Nat) (b : List Byte), s.host.linkUp = true → s.spanExists pa b.length = true →
    s.locHeld (.mem pa none .home) b.length = false →
    exec (.hostBar2Write pa b false) s = .next (s.writeMem none .home pa b) ∧
    ∃ t, exec (.hostBar2Write pa b true) s = .next t ∧ (∀ l ∈ linesOf pa b.length, t.linePoisoned l = true) ∧
      t.storage.mem = s.storage.mem) ∧
  (∀ (s : State) (pa : Nat) (op : HostAtomic) (wide : Bool) (a b : DWord),
    let n := if wide then 8 else 4
    let old := leNat (s.peek (.mem pa none .home) n)
    let s1 : State := { s with host := { s.host with replies := s.host.replies ++ [.old (BitVec.ofNat 64 old)] } }
    s.host.linkUp = true → s.host.atomic = none →
    (pa % n ≠ 0 ∨ s.spanExists pa n = false → exec (.hostAtomicop pa op wide a b) s = .next (s.unsupported pa)) ∧
    (pa % n = 0 → s.spanExists pa n = true → s.locHeld (.mem pa none .home) n = false → s.poisoned pa n = false →
      let s2 := s1.rekeyMem none pa n
      (hostAtomicNew op n old a.toNat b.toNat = none → exec (.hostAtomicop pa op wide a b) s = .next s2) ∧
      ∀ x, hostAtomicNew op n old a.toNat b.toNat = some x →
        (s.systemAtomic pa = true → exec (.hostAtomicop pa op wide a b) s = .next (s1.writeMem none .home pa (leBytes n x))) ∧
        (s.systemAtomic pa = false → exec (.hostAtomicop pa op wide a b) s = .next
          { s2 with host := { s2.host with atomic := some (pa, leBytes n x) } }))) ∧
  (∀ (s : State) (line : Nat) (data : List Byte), s.host.linkUp = true →
    (s.systemAtomic (128 * line) = true → s.spanExists (128 * line) 128 = true →
      s.locHeld (.mem (128 * line) none .home) 128 = false → exec (.hostLineOwnership line true data) s = .next
        { s with storage := { s.storage with hostOwned := s.storage.hostOwned ++ [line] } }) ∧
    (line ∈ s.storage.hostOwned →
      let s1 : State := { s with storage := { s.storage with hostOwned := s.storage.hostOwned.filter fun l => l ≠ line } }
      exec (.hostLineOwnership line false data) s = .next
        (if data.length = 128 then s1.writeMem none .home (128 * line) data else s1))) ∧
  ∀ s : State,
    (s.host.linkUp = true → exec .hostLinkUp s = .next s ∧ ∃ t, exec .hostLinkDown s = .next t ∧ t.host.linkUp = false ∧
      t.storage.hostOwned = [] ∧ t.host.fetchAdds = [] ∧ t.teams = s.teams ∧
      ∀ l ∈ s.storage.hostOwned, t.linePoisoned l = true) ∧
    (s.host.linkUp = false → exec .hostLinkDown s = .next s ∧
      (hostLinkFitted = true → exec .hostLinkUp s = .next ({ s with host := { s.host with linkUp := true } } : State).flushRecords) ∧
      (hostLinkFitted = false → exec .hostLinkUp s = .next s)) ∧
    (∀ q, s.fabric.requests = [q] →
      (q.dev = none → q.deadline ≤ s.devclk.toNat → exec .hostCompletionTimeout s = .next
        ((s.report 5 7 0 0 2 (BitVec.ofNat 64 q.addr)).failRequest q (failCause q.use.va none 0 false) none)) ∧
      (q.dev.isSome = true ∨ s.devclk.toNat < q.deadline → exec .hostCompletionTimeout s = .next s))

/-! ### Lane integer instructions (07_isa_group_integer.md) -/

/-- R206, R204: iadd, isub, imul, imad, imulhi, imin, imax, iabs. Each element of D is the exact result, clamped where .sat
asks for it, modulo 2^n. -/
def Obligations.LaneIntegerResults : Prop :=
  ∀ row ∈ Claims.integerTable, ∀ l : Long,
    let (sat, r) := row.2 l
    WritesLanes (row.1 l) (intRegs l.m) fun _ k lane d => ∀ e, e < operandBits l.m / elemBits l.m →
      (elemNat (elemBits l.m) e d : Int) =
        (let x := r (elemVal l.m e (k.srcA (intRegs l.m) lane)) (elemVal l.m e (k.srcB (intRegs l.m) lane))
          (elemVal l.m e (k.srcC (intRegs l.m) lane))
         if sat && l.f.getLsbD 0 then min (max x (leastOf l.m)) (greatestOf l.m) else x) % 2 ^ elemBits l.m

/-- R207, R208, R209: and, or, xor, andn; shl, shr, sar element by element; fsh. R207's encoding: the OPs, every integer type,
the width that M sets, F reserved. -/
def Obligations.LaneLogicAndShiftResults : Prop :=
  (∀ row ∈ Claims.logicTable, ∀ l : Long,
    WritesLanes (row.1 l) (intRegs l.m) fun _ k lane d => d = row.2 (k.srcA (intRegs l.m) lane) (k.srcB (intRegs l.m) lane)) ∧
  (∀ row ∈ Claims.shiftTable, ∀ l : Long,
    WritesLanes (row.1 l) (intRegs l.m) fun _ k lane d => ∀ e, e < operandBits l.m / elemBits l.m →
      (elemNat (elemBits l.m) e d : Int) = row.2 (elemBits l.m) (elemNat (elemBits l.m) e (k.srcA (intRegs l.m) lane))
        (Claims.amount l (k.srcB 1 lane) e) % 2 ^ elemBits l.m) ∧
  (∀ l : Long, WritesLanes (.fsh l) 1 fun _ k lane d =>
    let cat := (k.srcB 1 lane).toNat * 2 ^ 32 + (k.srcA 1 lane).toNat
    let amt := if l.f.getLsbD 1 then l.c.toNat else (k.srcC 1 lane).toNat
    let n := if l.f.getLsbD 2 then min amt 32 else amt % 32
    d.toNat = if l.f.getLsbD 0 then cat * 2 ^ n / 2 ^ 32 % 2 ^ 32 else cat / 2 ^ n % 2 ^ 32) ∧
  ∀ row ∈ [(Instr.and, 0x09), (.or, 0x0A), (.xor, 0x0B), (.andn, 0x0C)],
    Claims.takesTypes row.1 [0, 1, 2, 3, 4, 5, 6, 7, 8, 9] ∧ ∀ l : Long, Claims.laneLong (row.1 l) row.2 ∧
      ((row.1 l).wellFormed = true → l.f = 0) ∧ operandBits l.m = if l.m = 2 ∨ l.m = 3 ∨ l.m = 9 then 64 else 32

/-- R210: popc, clz and ctz write a 32-bit count; brev reverses the operand's bits.
R211, R212, R213: bfx, bfi, perm, lea. R213's encoding: the OP, the two types, D and a lane A pairs. -/
def Obligations.LaneCountAndFieldResults : Prop :=
  (∀ l : Long,
      WritesLanes (.popc l) 1 (fun _ k lane d => Claims.isOnes (operandBits l.m) (k.srcA (intRegs l.m) lane) d.toNat) ∧
      WritesLanes (.clz l) 1 (fun _ k lane d => Claims.isLeading (operandBits l.m) (k.srcA (intRegs l.m) lane) d.toNat) ∧
      WritesLanes (.ctz l) 1 (fun _ k lane d => Claims.isTrailing (operandBits l.m) (k.srcA (intRegs l.m) lane) d.toNat) ∧
      WritesLanes (.brev l) (intRegs l.m) fun _ k lane d => ∀ j, j < operandBits l.m →
        d.getLsbD j = (k.srcA (intRegs l.m) lane).getLsbD (operandBits l.m - 1 - j)) ∧
  (∀ l : Long,
      let pos (k : Here) (lane : Nat) := if l.f.getLsbD 1 then l.b.toNat else (k.srcB 1 lane).toNat
      let len (k : Here) (lane : Nat) := if l.f.getLsbD 1 then l.c.toNat else (k.srcC 1 lane).toNat
      WritesLanes (.bfx l) (intRegs l.m) (fun _ k lane d =>
        Claims.isExtract (operandBits l.m) (k.srcA (intRegs l.m) lane) (pos k lane) (len k lane) (l.f.getLsbD 0) d) ∧
      WritesLanes (.bfi l) (intRegs l.m) (fun _ k lane d =>
        Claims.isInsert (operandBits l.m) (k.grp.operand l.d.toNat (intRegs l.m) lane) (k.srcA (intRegs l.m) lane)
          (pos k lane) (len k lane) d) ∧
      WritesLanes (.perm l) 1 (fun _ k lane d => ∀ j, j < 4 → d.toNat / 2 ^ (8 * j) % 256 =
        Claims.permByteOf (k.srcA 1 lane) (k.srcB 1 lane) ((k.srcC 1 lane).toNat / 2 ^ (4 * j) % 16)) ∧
      WritesLanes (.lea l) 2 fun _ k lane d =>
        d = k.srcA 2 lane + (if l.m = 0 then ((k.srcB 1 lane).setWidth 32).signExtend 64 else k.srcB 1 lane) *
          BitVec.ofNat 64 (2 ^ l.f.toNat)) ∧
  Claims.takesTypes Instr.lea [0, 1] ∧ ∀ l : Long, Claims.laneLong (.lea l) 0x18 ∧
    ((Instr.lea l).wellFormed = true → l.d.toNat % 2 = 0 ∧ (l.ka = false → l.a.toNat % 2 = 0))

/-- R214, R216, R219: icmp, icmpi and plop write pD in the participating lanes.
R214, R216, R223, R224: gcmp, gcmpi and gplop write qD.
R191: predicate 7 reads true in every lane and for the group, and a write to it is discarded. -/
def Obligations.PredicateResults : Prop :=
  ((∀ l : Long, WritesPred (.icmp l) fun _ k lane => Claims.condition l.f (operandBits l.m)
      (k.srcA (intRegs l.m) lane).toNat (k.srcB (intRegs l.m) lane).toNat) ∧
    (∀ i : Imm, WritesPred (.icmpi i) fun _ k lane => Claims.condition i.f 32 (k.grp.lreg i.a.toNat lane).toNat i.imm.toNat) ∧
    ∀ l : Long, WritesPred (.plop l) fun _ k lane => l.c.getLsbD
      (4 * ((k.grp.pmask l.a.toNat).getLsbD lane).toNat + 2 * ((k.grp.pmask l.b.toNat).getLsbD lane).toNat +
        ((k.grp.pmask l.f.toNat).getLsbD lane).toNat)) ∧
  ((∀ l : Long, WritesQ (.gcmp l) fun _ k => Claims.condition l.f (operandBits l.m)
      (k.gsrc l.m l.a.toNat).toNat (k.gsrc l.m l.b.toNat).toNat) ∧
    (∀ i : Imm, WritesQ (.gcmpi i) fun _ k => Claims.condition i.f 64 (k.grp.greg i.a.toNat).toNat (i.imm.signExtend 64).toNat) ∧
    ∀ l : Long, WritesQ (.gplop l) fun _ k => l.c.getLsbD
      (4 * (k.grp.qreg l.a.toNat).toNat + 2 * (k.grp.qreg l.b.toNat).toNat + (k.grp.qreg l.f.toNat).toNat)) ∧
  ∀ h : Group, (∀ lane, lane < 32 → (h.pmask 7).getLsbD lane = true) ∧ h.qreg 7 = true ∧
    (∀ m, h.setPmask 7 m = h) ∧ (∀ m b, h.setPred 7 m b = h) ∧ ∀ b, h.setQ 7 b = h

/-- R181: a group register as a lane-pipe source gives every lane the same value, its low 32 bits or, as a 64-bit operand, all
64; g0 reads zero and a write to it is discarded.
R215, R218, R219, R221, R222: sel, icvt, the immediate forms, nop and lsr, with the encodings of sel and nop.
R217, R182: mov. With F[0] = 0 it writes D from source A, which X may index; with F[0] = 1 each participating lane
writes the register D plus its index. -/
def Obligations.LaneMoveResults : Prop :=
  ((∀ l : Long, WritesLanes (.sel l) (intRegs l.m) fun _ k lane d => d =
      if (k.grp.pmask l.c.toNat).getLsbD lane then k.srcA (intRegs l.m) lane else k.srcB (intRegs l.m) lane) ∧
    (∀ l : Long, WritesLanes (.icvt l) (intRegs (l.c.setWidth 4)) fun _ k lane d =>
      let dst : BitVec 4 := l.c.setWidth 4
      let x := elemVal l.m 0 (k.srcA (intRegs l.m) lane)
      (d.toNat : Int) = (if l.f.getLsbD 0 then min (max x (leastOf dst)) (greatestOf dst) else x) % 2 ^ operandBits dst) ∧
    (∀ row ∈ Claims.immediateTable, ∀ v : Imm,
      WritesLanes (row.1 v) (if v.f.getLsbD 0 then 2 else 1) fun _ k lane d =>
        let x := row.2 (k.grp.operand v.a.toNat (if v.f.getLsbD 0 then 2 else 1) lane) (v.imm.signExtend 64)
        d = if v.f.getLsbD 0 then x else (x.setWidth 32).setWidth 64) ∧
    (∀ (i : Short) (s : State) (k : Here), s.ready (.nop i) = some k →
      ∃ t, exec (.nop i) s = .next t ∧ OnlyGroup s t k (k.issued (.nop i))) ∧
    ∀ i : Short, WritesLanes (.lsr i) (if sregWide i.a then 2 else 1) fun s k lane d =>
      d = if sregWide i.a then s.sreg k.team k.grp k.sp lane i.a.toNat
        else ((s.sreg k.team k.grp k.sp lane i.a.toNat).setWidth 32).setWidth 64) ∧
  ((∀ l : Long, l.f.getLsbD 0 = false → WritesLanes (.mov l) (intRegs l.m) fun _ k lane d => d = k.srcA (intRegs l.m) lane) ∧
    ∀ (l : Long) (s : State) (k : Here), l.f.getLsbD 0 = true → s.ready (.mov l) = some k → k.grp.tidy = true →
      let n := intRegs l.m
      let at' (lane : Nat) := l.d.toNat + k.index lane
      ∃ t h, exec (.mov l) s = .next t ∧ OnlyGroup s t k h ∧ { h with v := k.grp.v } = k.issued (.mov l) ∧
        (∀ lane, k.mask.getLsbD lane = true → h.operand (at' lane) n lane = k.src n l.a.toNat l.ka lane) ∧
        ∀ r lane, lane < 32 → ¬(k.mask.getLsbD lane = true ∧ at' lane ≤ r ∧ r < at' lane + n) → h.lreg r lane = k.grp.lreg r lane) ∧
  (∀ (k : Here) (fld lane : Nat),
    (∀ n other, k.src n fld true other = k.src n fld true lane) ∧
    (k.src 1 fld true lane).toNat = bits (k.grp.greg fld).toNat 31 0 ∧ k.src 2 fld true lane = k.grp.greg fld ∧
    k.grp.greg 0 = 0 ∧ ∀ v, k.grp.setG 0 v = k.grp) ∧
  (Claims.takesTypes Instr.sel [0, 1, 2, 3, 8, 9] ∧ ∀ l : Long, Claims.laneLong (.sel l) 0x1A ∧
    ((Instr.sel l).wellFormed = true → l.c.toNat < 8 ∧ l.f = 0) ∧
    ∀ (h : Group) (lane : Nat), lane < 32 → (h.pmask 7).getLsbD lane = true) ∧
  ∀ i : Short, Claims.oneWordOp0 false (.nop i) ∧ ((Instr.nop i).wellFormed = true → i.d = 0 ∧ i.a = 0 ∧ i.f = 0) ∧
    encode (.nop ⟨⟨7, false⟩, 0, 0, 0⟩) = [0x00700000]

/-- R219, R220: setx, addx and setxi write xD in the participating lanes.
R225, R226, R227, R370: gnop changes nothing; gsr reads a special register into gD; gsw writes TIMER, or TRAPPC where
the value is canonical and 4-byte aligned, and otherwise raises 0x19; at resume the recorded split takes its address from
TRAPPC. R225's encoding: one word, OP 0, no field used. -/
def Obligations.IndexAndSpecialRegisterResults : Prop :=
  ((∀ l : Long, WritesIndex (.setx l) fun k lane =>
      if l.f.getLsbD 0 then BitVec.ofNat 16 (min (k.srcA 1 lane).toNat 0xFFFF) else (k.srcA 1 lane).setWidth 16) ∧
    (∀ l : Long, WritesIndex (.addx l) fun k lane =>
      k.grp.xreg l.a.toNat lane + if l.f.getLsbD 0 then l.c.signExtend 16 else (k.srcB 1 lane).setWidth 16) ∧
    ∀ i : Imm, WritesIndex (.setxi i) fun _ _ => i.imm.setWidth 16) ∧
  ((∀ (i : Short) (s : State) (k : Here), s.ready (.gnop i) = some k →
      ∃ t, exec (.gnop i) s = .next t ∧ OnlyGroup s t k (k.issued (.gnop i))) ∧
    (∀ i : Short, WritesGroup (.gsr i) fun s k v => v = s.sreg k.team k.grp k.sp 0 i.a.toNat) ∧
    ∀ (i : Short) (s : State) (k : Here), s.ready (.gsw i) = some k →
      let v := k.grp.greg i.a.toNat
      (i.d = 13 → ∃ t, exec (.gsw i) s = .next t ∧ t = (s.issued (.gsw i) k).modTeam k.team.uid fun x => { x with timer := v }) ∧
      (i.d = 17 → canonical v = true → v.toNat % 4 = 0 →
        ∃ t h, exec (.gsw i) s = .next t ∧ OnlyGroup s t k h ∧ h = { k.issued (.gsw i) with trapPc := v }) ∧
      (i.d = 17 → (canonical v = false ∨ v.toNat % 4 ≠ 0) →
        exec (.gsw i) s = .next (s.raise k.team.uid k.grp.gid (some k.sp.id) 0x19 k.sp.pc))) ∧
  (∀ i : Short, Claims.oneWordOp0 true (.gnop i) ∧ ((Instr.gnop i).wellFormed = true → i.d = 0 ∧ i.a = 0 ∧ i.f = 0)) ∧
  ∀ h : Group, (h.saved = none → h.leaveTrap = h) ∧ ∀ l, h.saved = some l → h.leaveTrap.saved = none ∧
    h.leaveTrap.splits = l.map fun p => if p.id = h.recorded then { p with pc := h.trapPc } else p

/-! ### Group pipe (07_isa_group_integer.md) -/

/-- R223: gadd to gmax, the logic and the shifts, on 64 bits or on bits [31:0] with the result extended.
R223, R224: gpopc, gclz, gbfx, gbfi, gsel, gmov, gmovi, gaddi, gandi. -/
def Obligations.GroupAluResults : Prop :=
  ((∀ row ∈ Claims.groupIntegerTable, ∀ l : Long, let (sat, r) := row.2 l
      WritesGroup (row.1 l) fun _ k v =>
      let x := r (elemVal l.m 0 (k.gsrc l.m l.a.toNat)) (elemVal l.m 0 (k.gsrc l.m l.b.toNat)) (elemVal l.m 0 (k.gsrc l.m l.c.toNat))
      v = groupResult l.m (BitVec.ofInt 64 (if sat && l.f.getLsbD 0 then min (max x (leastOf l.m)) (greatestOf l.m) else x))) ∧
    (∀ row ∈ Claims.groupLogicTable, ∀ l : Long, WritesGroup (row.1 l) fun _ k v =>
      v = groupResult l.m (row.2 (k.gsrc l.m l.a.toNat) (k.gsrc l.m l.b.toNat))) ∧
    ∀ row ∈ Claims.groupShiftTable, ∀ l : Long, WritesGroup (row.1 l) fun _ k v =>
      v = groupResult l.m (BitVec.ofInt 64 (row.2 (operandBits l.m) (k.gsrc l.m l.a.toNat).toNat
        (if l.f.getLsbD 0 then l.c.toNat else (k.grp.greg l.b.toNat).toNat % 2 ^ 32)))) ∧
  ((∀ l : Long,
      let pos (k : Here) := if l.f.getLsbD 1 then l.b.toNat else (k.grp.greg l.b.toNat).toNat % 2 ^ 32
      let len (k : Here) := if l.f.getLsbD 1 then l.c.toNat else (k.grp.greg l.c.toNat).toNat % 2 ^ 32
      WritesGroup (.gpopc l) (fun _ k v => Claims.isOnes (operandBits l.m) (k.gsrc l.m l.a.toNat) v.toNat) ∧
      WritesGroup (.gclz l) (fun _ k v => Claims.isLeading (operandBits l.m) (k.gsrc l.m l.a.toNat) v.toNat) ∧
      WritesGroup (.gbfx l) (fun _ k v => ∃ d, v = groupResult l.m d ∧
        Claims.isExtract (operandBits l.m) (k.gsrc l.m l.a.toNat) (pos k) (len k) (l.f.getLsbD 0) d) ∧
      WritesGroup (.gbfi l) (fun _ k v => ∃ d, v = groupResult l.m d ∧
        Claims.isInsert (operandBits l.m) (k.gsrc l.m l.d.toNat) (k.gsrc l.m l.a.toNat) (pos k) (len k) d) ∧
      WritesGroup (.gsel l) (fun _ k v => v = if k.grp.qreg l.c.toNat then k.grp.greg l.a.toNat else k.grp.greg l.b.toNat) ∧
      WritesGroup (.gmov l) fun _ k v => v = groupResult l.m (k.gsrc l.m l.a.toNat)) ∧
    ∀ i : Imm,
      WritesGroup (.gmovi i) (fun _ k v => v =
        if i.f.getLsbD 0 then i.imm ++ (k.grp.greg i.d.toNat).setWidth 32 else i.imm.signExtend 64) ∧
      WritesGroup (.gaddi i) (fun _ k v => v = k.grp.greg i.a.toNat + i.imm.signExtend 64) ∧
      WritesGroup (.gandi i) fun _ k v => v = k.grp.greg i.a.toNat &&& i.imm.signExtend 64)

/-! ### Floating point and blocks (08_isa_vector.md) -/

/-- R242, R243, R244, R253: fadd, fsub, fmul, ffma, fmin, fmax and frnd, each element rounded once.
R186, R238, R242, R247: fdiv, fsqrt, frcp, frsq, fexp2, flog2, fsin and fcos leave their result outstanding.
Where the rules leave a point open it states the model's choice: assumption log 52. -/
def Obligations.FloatResults : Prop :=
  (∀ row ∈ Claims.floatTable, ∀ l : Long,
      WritesLanes (row.1 l) (fpRegs l.m) fun _ k lane d => Claims.isFarith l (row.2 l).1 (row.2 l).2 k lane d) ∧
  (∀ row ∈ Claims.longFloatTable, ∀ l : Long,
      LeavesResult (row.1 l) (fpRegs l.m) fun _ k lane d => Claims.isFarith l (row.2 l).1 (row.2 l).2 k lane d)

/-- R245, R246, R249: fsgn changes the sign bit of each element alone; fcmp writes pD; fclass writes each element's mask. -/
def Obligations.FloatSignCompareClass : Prop :=
  ∀ l : Long,
    WritesLanes (.fsgn l) (fpRegs l.m) (fun _ k lane d => ∀ e, e < fpElems l.m →
      let w := fpBits l.m
      let a := elemNat w e (k.srcA (fpRegs l.m) lane)
      let sa := decide (2 ^ (w - 1) ≤ a)
      let sb := decide (2 ^ (w - 1) ≤ elemNat w e (k.srcB (fpRegs l.m) lane))
      let sign := match l.f.toNat % 4 with
        | 0 => sb
        | 1 => !sb
        | _ => sa != sb
      elemNat w e d = a % 2 ^ (w - 1) + if sign then 2 ^ (w - 1) else 0) ∧
    WritesPred (.fcmp l) (fun _ k lane =>
      let rd (x : DWord) := (fmtOf l.m.toNat).flush (l.f.getLsbD 2) ((fmtOf l.m.toNat).value (elemNat (fpBits l.m) 0 x))
      fcondHolds l.c.toNat (rd (k.srcA (fpRegs l.m) lane)) (rd (k.srcB (fpRegs l.m) lane))) ∧
    WritesLanes (.fclass l) 1 fun _ k lane d => ∀ e, e < fpElems l.m → elemNat (fpBits l.m) e d =
      classMask (fmtOf l.m.toNat) (elemNat (fpBits l.m) e (k.srcA (fpRegs l.m) lane)) % 2 ^ fpBits l.m

/-- R240, R250, R251, R252: fcvt, f2i and i2f. A narrow destination's other bits are kept. -/
def Obligations.FloatConversionResults : Prop :=
  ∀ l : Long,
    let dst : BitVec 4 := l.c.extractLsb' 0 4
    WritesLanes (.fcvt l) (fpRegs dst) (fun s k lane d =>
      let sel := (l.c.extractLsb' 5 2).toNat
      let x := selElem l.m (if isNarrow l.m then sel else 0) (k.srcA (fpRegs l.m) lane)
      d.setWidth (32 * fpRegs dst) = (setElem dst sel (k.grp.operand l.d.toNat (fpRegs dst) lane)
        (fcvtOp l.m dst (l.c.getLsbD 4) (s.modeRs k l.f (bits (k.srcB 1 lane).toNat 31 16) lane sel) x)).setWidth (32 * fpRegs dst)) ∧
    WritesLanes (.f2i l) (intRegs dst) (fun _ k lane d =>
      let x := (fmtOf l.m.toNat).value (selElem l.m (l.c.extractLsb' 4 2).toNat (k.srcA (fpRegs l.m) lane))
      (d.toNat : Int) = (match x with
        | .nan => 0
        | .inf neg => if neg then leastOf dst else greatestOf dst
        | .fin neg m e =>
          let n := (roundUnits (Long.mode l) neg m e 0 : Int)
          min (max (if neg then -n else n) (leastOf dst)) (greatestOf dst)) % 2 ^ operandBits dst) ∧
    WritesLanes (.i2f l) (fpRegs dst) fun _ k lane d =>
      let x := elemVal l.m 0 (k.srcA (intRegs l.m) lane)
      d.setWidth (32 * fpRegs dst) = (setElem dst (l.c.extractLsb' 4 2).toNat (k.grp.operand l.d.toNat (fpRegs dst) lane)
        ((fmtOf dst.toNat).roundCode (Long.mode l) (.fin (decide (x < 0)) x.natAbs 0))).setWidth (32 * fpRegs dst)

/-- R254 to R258: the block instructions over the participating lanes of the split. -/
def Obligations.BlockResults : Prop :=
  ∀ l : Long,
    let vals (k : Here) := (laneList k.mask).map fun lane => (fmtOf l.m.toNat).value (k.srcA (fpRegs l.m) lane).toNat
    WritesGroup (.bmax l) (fun _ k v => v = BitVec.ofNat 64 ((fmtOf l.m.toNat).code (bmaxOf (vals k)))) ∧
    WritesGroup (.bscale l) (fun _ k v =>
      v = BitVec.ofNat 64 (bscaleOf (fmtOf (l.c.toNat % 16)) (if l.f.getLsbD 0 then 1 else 0) (vals k))) ∧
    WritesLanes (.bdequant l) (if l.c.getLsbD 0 then 2 else 1) (fun _ k lane d =>
      let D := if l.c.getLsbD 0 then f64 else f32
      d.setWidth (if l.c.getLsbD 0 then 64 else 32) = BitVec.ofNat _ (D.code (dequant (fmtOf l.m.toNat) D .ne
        ((k.srcB 1 lane).toNat % 256) (selElem l.m (l.c.extractLsb' 1 2).toNat (k.srcA 1 lane))))) ∧
    WritesQ (.bnf l) (fun _ k => (laneList k.mask).any fun lane =>
      ((fmtOf l.m.toNat).value (selElem l.m (l.c.extractLsb' 0 2).toNat (k.srcA (fpRegs l.m) lane))).nonFinite ||
        (isMx l.m && (k.srcB 1 lane).toNat % 256 = 255)) ∧
    ∀ s k, s.ready (.bquant l) = some k → k.grp.tidy = true →
      ∃ t h, exec (.bquant l) s = .next t ∧ OnlyGroup s t k h ∧ { h with v := k.grp.v, p := k.grp.p } = k.issued (.bquant l) ∧
        LaneFrame k (.bquant l) l.d.toNat 1 { h with p := k.grp.p } ∧
        PredFrame k (.bquant l) (l.c.extractLsb' 3 3).toNat (fun lane => (bquantLane s l k lane).2) { h with v := k.grp.v } ∧
        ∀ lane, k.mask.getLsbD lane = true → (h.lreg l.d.toNat lane) =
          (setElem l.m (l.c.extractLsb' 1 2).toNat ((k.grp.lreg l.d.toNat lane).setWidth 64) (bquantLane s l k lane).1).setWidth 32

/-- R259 to R262: lxch, lpred, lred and lscan over the participating lanes of the split. -/
def Obligations.ExchangeResults : Prop :=
  ∀ l : Long,
    WritesLanes (.lxch l) (intRegs l.m) (fun _ k lane d =>
      let j := exchangeLane (l.f.toNat % 4) (2 ^ (l.c.toNat % 8)) (if l.f.getLsbD 2 then l.b.toNat else (k.srcB 1 lane).toNat) lane
      d = k.srcA (intRegs l.m) (if k.mask.getLsbD j then j else lane)) ∧
    (l.f.toNat % 4 ≠ 2 → WritesQ (.lpred l) fun _ k =>
      let holds (lane : Nat) := (k.grp.pmask l.a.toNat).getLsbD lane != l.f.getLsbD 2
      if l.f.toNat % 4 = 0 then (laneList k.mask).any holds else (laneList k.mask).all holds) ∧
    (l.f.toNat % 4 = 2 → WritesGroup (.lpred l) fun _ k v => ∀ j, j < 64 →
      v.getLsbD j = (k.mask.getLsbD j && ((k.grp.pmask l.a.toNat).getLsbD j != l.f.getLsbD 2))) ∧
    WritesGroup (.lred l) (fun _ k v =>
      v = if l.c.toNat ≤ 5 then groupResult l.m (BitVec.ofInt 64 (reduceLanes l.c.toNat l.m (k.srcA (intRegs l.m)) k.mask))
        else BitVec.ofNat 64 ((fmtOf l.m.toNat).code
          (freduce l.c.toNat (fmtOf l.m.toNat) (Long.mode l) (k.srcA (fpRegs l.m)) k.mask))) ∧
    WritesLanes (.lscan l) (intRegs l.m) fun _ k lane d =>
      (d.toNat : Int) = reduceLanes l.c.toNat l.m (k.srcA (intRegs l.m))
        (k.mask &&& BitVec.ofNat 32 (2 ^ (if l.f.getLsbD 0 then lane else lane + 1) - 1)) % 2 ^ operandBits l.m

/-! ### Memory (09_isa_memory.md, 05_consistency.md) -/

/-- R271, R269, R268, R143, R186: ld, lds and gld complete wherever their addresses can be accessed: one result is outstanding, with
one access for each participating lane, in increasing lane order, that LONG_LATENCY_RESULT performs (a read through the L1, or with
H past every cache) and whose bytes become what the width code says. The load itself changes no byte of memory and no register, but
for what the walks of its addresses leave.
R111, R112: a global access that issues keeps its page's translation, and the walk to it has its home slices write back and drop
the table lines that are held under a key. What each line's bytes are as memory stores them stays, and so does what a walk reads;
nothing else changes: no register, no group, team, grid, stream, copy or count of names, and of a context nothing but its cached
translations; where no line is held under a key nothing at all but those.
Where the rules leave a point open it states the model's choice: assumption logs 8, 20. -/
def Obligations.LoadResults : Prop :=
  (∀ row ∈ Claims.loadTable, ∀ (l : Long) (s : State) (k : Here) (sites : List Site),
    let i := row.1 l
    let glob := row.2.1 l
    let n := widthBytes l.f
    s.ready i = some k →
    (s.issued i k).probes k glob .read n (fun _ => none) ((row.2.2.2 k glob).map fun e => (e.1, n, e.2)) = .ok sites →
    let s0 := (s.issued i k).noteSites k glob sites
    ∃ t r, exec i s = .next t ∧ Claims.SameMemory s0 t ∧ Claims.SamePlatform s0 t k ∧
      t.group? k.team.uid k.grp.gid = some { k.issued i with results := (k.issued i).results ++ [r] } ∧
      r.uid = s.uid ∧ r.owners = [k.sp.id] ∧ r.window = l.la.toNat ∧
      r.dests = (if row.2.2.1 then [.g l.d.toNat] else (List.range (widthRegs l.f)).map fun j => .v (l.d.toNat + j)) ∧
      r.kind = .loaded l.f row.2.2.1 l.d.toNat ∧ r.acq = acqScope l ∧ r.waits = [] ∧ r.raw = [] ∧ r.fail = none ∧ r.done = false ∧
      r.pend.map (fun a => (a.lane, a.va, a.n, a.loc, a.op)) =
        sites.map (fun e => (e.lane, e.va, e.n, e.loc, if l.h = 1 then PendOp.fresh else .read)) ∧
      r.pend.map Pend.idx = List.range sites.length) ∧
  ∀ (s : State) (k : Here) (glob : Bool) (l : List Site),
    let t := s.noteSites k glob l
    (glob = false → t = s) ∧
    (s.storage.tags = [] → { t with ctxs := s.ctxs } = s) ∧
    { t with ctxs := s.ctxs, storage := s.storage, host := s.host, mgmt := s.mgmt } = s ∧
    (t.ctxs.map fun c => { c with tlb := [] }) = (s.ctxs.map fun c => { c with tlb := [] }) ∧
    (SMap.wf s.storage.mem = true → (∀ line, (s.viewLine none line).length = 128) →
      let stored (s : State) (line : Nat) : List Byte := s.sealLine (s.lineTag line) line (SMap.getRun s.storage.mem (128 * line) 128)
      ∀ line, stored t line = stored s line ∧ t.viewLine none line = s.viewLine none line ∧
        (t.lineTag line = none ∨ t.lineTag line = s.lineTag line))

/-- R272, R273, R269, R152: st, sts, stm and gst complete wherever their addresses can be accessed: the lanes' writes enter
the group's store queue in increasing lane order, and nothing else changes but the issue and what the walks leave
(LoadResults); every byte of memory reads as before until a write is performed.
R274, R275, R152: red and reds without an acquire likewise enter the store queue. -/
def Obligations.StoresAndReductionsEnterQueue : Prop :=
  (∀ row ∈ Claims.storeTable, ∀ (l : Long) (s : State) (k : Here) (sites : List Site),
      let i := row.1 l
      let glob := row.2.1 l
      let data := row.2.2.2 k glob
      s.ready i = some k →
      (s.issued i k).probes k glob .write (row.2.2.1 l) (fun _ => none) (data.map fun e => (e.1, e.2.2.length, e.2.1)) = .ok sites →
      let s0 := (s.issued i k).noteSites k glob sites
      ∃ t q, exec i s = .next t ∧ Claims.SameMemory s0 t ∧ Claims.SamePlatform s0 t k ∧
        t.group? k.team.uid k.grp.gid = some { k.issued i with queue := k.grp.queue ++ q } ∧
        q.map (fun e => (e.va, e.loc, e.op, e.rel)) =
          List.zipWith (fun e d => (e.va, e.loc, QOp.write d.2.2, relScope l)) sites data ∧
        (∀ e ∈ q, s.uid ≤ e.uid ∧ e.uid < s.uid + q.length) ∧ (q.map fun e => e.uid).Nodup) ∧
  (∀ row ∈ Claims.atomTable, row.2.2 = false → ∀ (l : Long) (s : State) (k : Here) (sites : List Site),
      let i := row.1 l
      let ty := atomTyOf (ctlType l.c)
      let op := atomOpOf (ctlOp l.c)
      s.ready i = some k → acqScope l = none →
      (s.issued i k).probes k row.2.1 .write (atomSize ty) (atomTarget op ty)
        ((laneList k.mask).map fun lane => (lane, atomSize ty, k.base row.2.1 lane)) = .ok sites →
      let s0 := (s.issued i k).noteSites k row.2.1 sites
      ∃ t q, exec i s = .next t ∧ Claims.SameMemory s0 t ∧ Claims.SamePlatform s0 t k ∧
        t.group? k.team.uid k.grp.gid = some { k.issued i with queue := k.grp.queue ++ q } ∧
        q.map (fun e => (e.va, e.loc, e.op, e.rel)) =
          sites.map fun e => (e.va, e.loc, QOp.reduce op ty (k.atomOperand ty e.lane), relScope l))

/-- R275, R276, R151, R155, R274: atom and atoms, and red and reds with an acquire, complete wherever their addresses can be
accessed: one result is outstanding, with one atomic for each participating lane, in increasing lane order, that LONG_LATENCY_RESULT
performs; atom and atoms have D for the old values, red and reds no register.
R276, R112: what one atomic at a place of this device or the host does, once a line held under another key has been written back:
it answers the old bits, and writes the new value of its operation or, for a .cas that fails, nothing but drops the core's cached
lines.
Where the rules leave a point open it states the model's choice: assumption log 20. -/
def Obligations.AtomicResults : Prop :=
  (∀ row ∈ Claims.atomTable, ∀ (l : Long) (s : State) (k : Here) (sites : List Site),
      let i := row.1 l
      let ty := atomTyOf (ctlType l.c)
      let op := atomOpOf (ctlOp l.c)
      s.ready i = some k → (row.2.2 = true ∨ (acqScope l).isSome = true) →
      (s.issued i k).probes k row.2.1 .write (atomSize ty) (atomTarget op ty)
        ((laneList k.mask).map fun lane => (lane, atomSize ty, k.base row.2.1 lane)) = .ok sites →
      let s0 := (s.issued i k).noteSites k row.2.1 sites
      ∃ t r, exec i s = .next t ∧ Claims.SameMemory s0 t ∧ Claims.SamePlatform s0 t k ∧
        t.group? k.team.uid k.grp.gid = some { k.issued i with results := (k.issued i).results ++ [r] } ∧
        r.uid = s.uid ∧ r.owners = [k.sp.id] ∧ r.window = l.la.toNat ∧ r.waits = [] ∧ r.raw = [] ∧ r.fail = none ∧ r.done = false ∧
        r.acq = acqScope l ∧ r.rel = relScope l ∧
        (row.2.2 = true → r.dests = (List.range (atomSize ty / 4)).map (fun j => .v (l.d.toNat + j)) ∧
          r.kind = .loaded (if atomSize ty = 8 then 5 else 4) false l.d.toNat) ∧
        (row.2.2 = false → r.dests = [] ∧ r.kind = .loaded 7 false l.d.toNat) ∧
        r.pend.map (fun a => (a.lane, a.va, a.n, a.loc, a.op)) = sites.map (fun e =>
          (e.lane, e.va, e.n, e.loc, PendOp.atomic op ty (k.atomOperand ty e.lane) (k.atomNewValue ty e.lane))) ∧
        r.pend.map Pend.idx = List.range sites.length) ∧
  (∀ (s : State) (core : Nat) (loc : Loc) (op : AtomOp) (ty : AtomTy) (b sv : DWord),
      let n := atomSize ty
      let s1 := s.rekey loc n
      let w := 8 * n
      let old := leNat (s1.peek loc n)
      let x := b.toNat % 2 ^ w
      let F := if ty = .f64 then f64 else f32
      let val (y : Nat) : Int := if atomSigned ty then toSigned w y else y
      (s.atomicAt core loc op ty b sv).1 = old ∧
      (op = .add → atomFloat ty = false → (s.atomicAt core loc op ty b sv).2 = s1.writeLoc core loc (leBytes n ((old + x) % 2 ^ w))) ∧
      (op = .min → atomFloat ty = false →
        (s.atomicAt core loc op ty b sv).2 = s1.writeLoc core loc (leBytes n (if val x < val old then x else old))) ∧
      (op = .max → atomFloat ty = false →
        (s.atomicAt core loc op ty b sv).2 = s1.writeLoc core loc (leBytes n (if val old < val x then x else old))) ∧
      (op = .add → atomFloat ty = true → (s.atomicAt core loc op ty b sv).2 = s1.writeLoc core loc (leBytes n
        (F.roundCode .ne (FVal.add .ne (F.value old) (F.value x))))) ∧
      (op = .min ∨ op = .max → atomFloat ty = true → (s.atomicAt core loc op ty b sv).2 = s1.writeLoc core loc (leBytes n
        (F.code (FVal.minMax (op = .max) true (F.value old) (F.value x))))) ∧
      (op = .and → (s.atomicAt core loc op ty b sv).2 = s1.writeLoc core loc (leBytes n (old &&& x))) ∧
      (op = .or → (s.atomicAt core loc op ty b sv).2 = s1.writeLoc core loc (leBytes n (old ||| x))) ∧
      (op = .xor → (s.atomicAt core loc op ty b sv).2 = s1.writeLoc core loc (leBytes n (old ^^^ x))) ∧
      (op = .exch → (s.atomicAt core loc op ty b sv).2 = s1.writeLoc core loc (leBytes n x)) ∧
      (op = .cas → old = x → (s.atomicAt core loc op ty b sv).2 = s1.writeLoc core loc (leBytes n (sv.toNat % 2 ^ w))) ∧
      (op = .cas → old ≠ x → (s.atomicAt core loc op ty b sv).2 = s1.dropLines core loc n))

/-- R143, R152, R3: STORE_PERFORMED. An entry of a store queue that may be performed leaves the queue; a write to device
memory is what the key's readers then read there, and every byte outside it reads as before under that key, and every
line it does not touch under any key. -/
def Obligations.StorePerformedToMemory : Prop :=
  ∀ (t g idx : Nat) (s : State) (x : Team) (h : Group) (e : QEntry) (pa : Nat) (key : KeyTag) (pol : Caching) (b : List Byte),
    s.team? t = some x → s.group? t g = some h → h.queue[idx]? = some e → e.loc = .mem pa key pol → e.op = .write b →
    s.mayPerform x h e = true → s.packageLost pa = false → SMap.wf s.storage.mem = true →
    (∀ line ∈ linesOf pa b.length, (s.viewLine key line).length = 128) →
    ∃ u, exec (.storePerformed t g idx) s = .next u ∧
      (∀ h', u.group? t g = some h' → h'.queue = h.queue.filter fun q => q.uid ≠ e.uid) ∧
      u.viewMem key pa b.length = b ∧
      (∀ a, a < pa ∨ pa + b.length ≤ a → u.viewMem key a 1 = s.viewMem key a 1) ∧
      (∀ a key', a / 128 ∉ linesOf pa b.length → u.viewMem key' a 1 = s.viewMem key' a 1) ∧
      u.teams = s.teams

/-- R152, R161, R280: STORE_PERFORMED into a scratchpad. Bytes outside the write and outside barrier words it touches are
unchanged in every team; without a barrier word the written bytes are the stored ones.
R323, R413: STORE_PERFORMED to a peer sends one request with a new tag and this context's JOB, and no memory of this
device changes.
Where the rules leave a point open it states the model's choice: assumption log 12. -/
def Obligations.StorePerformedElsewhere : Prop :=
  (∀ (t g idx : Nat) (s : State) (x : Team) (h : Group) (e : QEntry) (u off : Nat) (b : List Byte),
      s.team? t = some x → s.group? t g = some h → h.queue[idx]? = some e → e.loc = .scr u off → e.op = .write b →
      s.mayPerform x h e = true → e.rel ≠ some 11 → (∀ y ∈ s.teams, Team.tidy y = true) →
      ∃ v, exec (.storePerformed t g idx) s = .next v ∧ v.storage = s.storage ∧
        (∀ y, s.team? u = some y → ∃ y', v.team? u = some y' ∧
          (∀ a, ¬(off ≤ a ∧ a < off + b.length) → (∀ w ∈ s.barsIn u off b.length, ¬(w ≤ a ∧ a < w + 8)) →
            SMap.get y'.scratch a = SMap.get y.scratch a) ∧
          (s.barsIn u off b.length = [] → SMap.getRun y'.scratch off b.length = b)) ∧
        ∀ w, w ≠ u → v.team? w = s.team? w) ∧
  (∀ (t g idx : Nat) (s : State) (x : Team) (h : Group) (e : QEntry) (d pa : Nat),
      s.team? t = some x → s.group? t g = some h → h.queue[idx]? = some e → e.loc = .peer d pa ∨ e.loc = .remote d pa →
      s.mayPerform x h e = true → e.rel ≠ some 11 →
      ∃ u r, exec (.storePerformed t g idx) s = .next u ∧ u.fabric.requests = s.fabric.requests ++ [r] ∧
        u.fabric.outbox = s.fabric.outbox ++ [.request r] ∧ r.dev = some d ∧ r.addr = e.loc.requestBase ∧ r.ask = e.ask ∧
        r.use = .store t g e.split e.uid false e.va e.handlerPc ∧ r.job = s.job x.ctx ∧ r.tag = s.uid ∧ Claims.SameMemory s u)

/-- R143, R151, R153, R187 to R189, R234, R112, R113, R276, R154: LONG_LATENCY_RESULT. Of a result with accesses that are not
performed it performs the one it names, where that may be performed: a read's bytes come from where R113 lets them come, past the
caches where it has passed an acquire that empties them; an atomic gives its old bits and leaves what it writes, a place of a peer is
asked, poison becomes the result's cause. A result with nothing left to perform or to
wait for is written, in lanes that still live, and then kept only while its window is open; one with a cause raises it instead;
an acquire at file scope or wider empties the core's caches first. One written already, or whose requests are unanswered, does
nothing.
Where the rules leave a point open it states the model's choice: assumption logs 8, 20, 55, 56. -/
def Obligations.LongLatencyResultWrites : Prop :=
  ∀ (t g idx n : Nat) (s : State) (x : Team) (h : Group) (r : Result),
    let i := Instr.longLatencyResult t g ⟨idx, n⟩
    let s1 := s.protectFor h r.rel
    let acquired : State := if r.acq.any fun sc => 6 ≤ sc then s.emptyCaches x.core else s
    s.team? t = some x → s.group? t g = some h → h.results[idx]? = some r →
    let wide := (h.orderPoints r.uid).any fun m => m.2.any fun sc => 6 ≤ sc
    (r.done = true ∨ (r.pend = [] ∧ r.waits ≠ []) → exec i s = .next s) ∧
    (r.done = false → ∀ a, (r.pend.find? fun a => a.idx = n) = some a →
      (s.mayPerformPend x h r a = false → exec i s = .next s) ∧
      (s.mayPerformPend x h r a = true → ∃ (u : State) (h' : Group) (r' : Result → Result), exec i s = .next u ∧ u.group? t g = some h' ∧
        (a.op.isRead = true ∨ s.isRemote a.loc = true → u.teams = s.teams ∧
          { h' with results := h.results, passed := h.passed, touched := h.touched } = h) ∧
        (h'.results = h.results.map fun q => if q.uid = r.uid then r' q else q) ∧
        (∀ q, (r' q).pend = q.pend.filter fun b => b.idx ≠ n) ∧
        (s.isRemote a.loc = true → ∃ q, u.fabric.requests = s.fabric.requests ++ [q] ∧ q.dev = a.loc.dev ∧ q.addr = a.loc.requestBase ∧
          q.ask = a.ask ∧ q.use = .load t g r.uid a.idx a.lane a.va ∧ q.job = s.job x.ctx ∧
          ∀ p, r' p = { p with pend := (r' p).pend, waits := p.waits ++ [q.tag] }) ∧
        (s.isRemote a.loc = false → a.op.reads = true → s.locPoisoned a.loc a.n = true →
          ∀ p, r' p = { p with pend := (r' p).pend, fail := some (p.fail.getD (s.poisonAt a.va a.loc)) }) ∧
        (s.isRemote a.loc = false → (a.op.reads = true → s.locPoisoned a.loc a.n = false) →
          (∀ op ty b sv, a.op = .atomic op ty b sv →
            let p := (s1.modGroup t g fun y => y.touch a.loc a.n).atomicAt x.core a.loc op ty b sv
            u.storage = p.2.storage ∧ u.host = p.2.host ∧ u.teams = p.2.teams ∧
              (∀ y, p.2.group? t g = some y → { h' with results := y.results, passed := y.passed } = y) ∧
              ∀ q, r' q = { q with pend := (r' q).pend, raw := q.raw ++ [(a.idx, a.lane, leBytes a.n p.1)] }) ∧
          (a.op.isRead = true →
            let p := s1.rekey a.loc a.n
            u.storage = p.storage ∧ u.host = p.host ∧
            ∃ b, Claims.mayRead p x.core (h.queue.filter fun e => e.uid < r.uid) (if wide then .fresh else a.op) a.loc a.n b ∧
              ∀ q, r' q = { q with pend := (r' q).pend, raw := q.raw ++ [(a.idx, a.lane, b)] })))) ∧
    (r.done = false → r.pend = [] → r.waits = [] → r.fail = none →
      ∃ u h', exec i s = .next u ∧ u.group? t g = some h' ∧ u.cores = acquired.cores ∧
        h'.results = (h.results.set idx r.written).filter Result.kept ∧ h'.splits = h.splits ∧ h'.queue = h.queue ∧
        (h'.v, h'.g, h'.p, h'.q) = (let h'' := (r.writes.filter fun w => w.alive h.everyLane).foldl Group.applyWrite h
          (h''.v, h''.g, h''.p, h''.q)) ∧
        Claims.SameMemory s u ∧ ∀ a b, (a, b) ≠ (t, g) → u.group? a b = s.group? a b) ∧
    (∀ c, r.done = false → r.pend = [] → r.waits = [] → r.fail = some c → exec i s =
      .next ((acquired.modGroup t g fun y => { y with results := y.results.eraseIdx idx }).lateFrom t g r.owners.head? r.handlerPc c)) ∧
    (r.written.done = true ∧ r.written.window = r.window ∧ r.written.dests = r.dests) ∧
    ∀ q : Result, q.kept = (!q.done || (decide (0 < q.window) && decide (q.owners ≠ [])))

/-- R263, R264, R265, R186, R152: unpk completes on a chunk that lies in the selected scratchpad: its header is read, and its result
is outstanding with the registers it may write and a read of every 8 bytes of the payload, which LONG_LATENCY_RESULT performs; what
it then writes is the decoded values and true where the header and the check are right, else only false. A header that cannot be
corrected is delivered as 0x16 (R406).
Where the rules leave a point open it states the model's choice: assumption log 20. -/
def Obligations.UnpkResults : Prop :=
  ∀ (l : Long) (s s1 : State) (k : Here) (t off : Nat),
    let i := Instr.unpk l
    let a : Word := (k.grp.greg l.a.toNat).setWidth 32
    let va : DWord := a.setWidth 64
    let rows := l.f.toNat + 1
    s.ready i = some k → a.toNat % 8 = 0 →
    (s.issued i k).scrPlace k.team a 8 = some (t, off) → (s.issued i k).accessWaits k (.scr t off) 8 = false →
    (s.issued i k).performUpTo k.team k.grp.gid ((s.issued i k).needsPerform (.scr t off) 8) ((s.issued i k).queueOf k) = some s1 →
    let hd := leNat (s1.readScratch k t off 8)
    let ok := decide (hd % 64 ≤ 32) && decide (hd / 2 ^ 12 % 16 = 0) && decide (hd / 2 ^ 6 % 4 = 0) && decide (hd / 2 ^ 9 % 8 + 1 = rows)
    let n := if ok then (hd % 64 * 32 * rows + 7) / 8 else 0
    (s1.scrPlace k.team a (8 + n)).isSome = true → ∀ h, s1.group? k.team.uid k.grp.gid = some h →
    (s1.locPoisoned (.scr t off) 8 = true → exec i s = .next (s1.lateFrom k.team.uid k.grp.gid (some k.sp.id) k.handlerPc
      (s1.poisonAt va (.scr t off)))) ∧
    (s1.locPoisoned (.scr t off) 8 = false →
    ∃ u r, exec i s = .next u ∧ Claims.SameMemory s1 u ∧
      u.group? k.team.uid k.grp.gid = some { h with results := h.results ++ [r] } ∧ r.owners = [k.sp.id] ∧
      r.window = l.la.toNat ∧ r.waits = [] ∧ r.raw = [] ∧ r.fail = none ∧ r.done = false ∧
      r.dests = (if l.c.toNat % 8 = 7 then [] else [.q (l.c.toNat % 8)]) ++ (List.range rows).map (fun j => .v (l.d.toNat + j)) ∧
      r.pend.map (fun p => (p.idx, p.lane, p.va, p.n, p.loc, p.op)) = (List.range ((n + 7) / 8)).map (fun j =>
        (j, 0, va + 8 + BitVec.ofNat 64 (8 * j), min 8 (n - 8 * j), Loc.scr t (off + 8 + 8 * j), PendOp.fresh)) ∧
      ∀ raw, ({ r with raw := raw } : Result).writes =
        (let payload := leNat (((raw.filter fun e => e.2.1 = 0).mergeSort fun a b => a.1 ≤ b.1).flatMap fun e => e.2.2)
         let vals := chunkValues (hd.testBit 8) (hd / 2 ^ 32 % 2 ^ 32)
           ((List.range (32 * rows)).map fun j => payload / 2 ^ (hd % 64 * j) % 2 ^ (hd % 64))
         if ok && decide (chk16 vals = hd / 2 ^ 16 % 2 ^ 16) then
           .q l.c.toNat true :: (laneList k.mask).flatMap fun lane => (List.range rows).map fun j =>
             .v (l.d.toNat + j) lane (BitVec.ofNat 32 (vals.getD (32 * j + lane) 0))
         else [.q l.c.toNat false]))

/-- R279, R280, R281, R162, R282: gbar. Where the word may be named and nothing has to be waited for, init, arrive, expect
and expa write the new word, whose phase completes where BAROP says, and return the parity; wait completes where PAR
differs from p and parks the split otherwise; try returns 1 or 0; a word that cannot be corrected is not written and delivers
0x16 (R406).
R278, R280, R162: BAROP on the fields of a word whose RSV bits are zero and for which no misuse of R383 arises.
Where the rules leave a point open it states the model's choice: assumption logs 12, 28, 51, 74. -/
def Obligations.BarrierResults : Prop :=
  (∀ row ∈ Claims.barTable, ∀ (l : Long) (s s1 : State) (k : Here) (t off : Nat),
      let i := row.1 l
      let fn := row.2
      let a : Word := (k.grp.greg l.a.toNat).setWidth 32
      let b := k.grp.greg l.b.toNat
      s.ready i = some k → a.toNat % 8 = 0 →
      (s.issued i k).scrPlace k.team a 8 = some (t, off) → (s.issued i k).accessWaits k (.scr t off) 8 = false →
      (fn.waits = true → (s.issued i k).onCore k.team.core (.scr t off) = true) → barOperandBad fn b = false →
      (∀ sc, relScope l = some sc → (s.issued i k).released k sc = true) →
      (s.issued i k).performUpTo k.team k.grp.gid (beforeBar (s.issued i k) k fn (.scr t off)) ((s.issued i k).queueOf k) = some s1 →
      let s2 := match relScope l with
        | some sc => s1.protectAt k sc
        | none => s1
      let w := s2.barWord t off
      (s1.locPoisoned (.scr t off) 8 = true → exec i s = .next (s1.lateFrom k.team.uid k.grp.gid (some k.sp.id) k.handlerPc
        (s1.poisonAt (a.setWidth 64) (.scr t off)))) ∧
      (s1.locPoisoned (.scr t off) 8 = false → ∀ w', barOp fn w b = .ok w' →
        let s3 := s2.nameBar t off
        let par (x : Bool) (s : State) := s.modGroup k.team.uid k.grp.gid fun h => h.setG l.d.toNat (if x then 1 else 0)
        ∃ u, exec i s = .next u ∧
          (fn = .init → u = s3.setBar t off w') ∧
          (fn = .expect → u = par (barPar w) (s3.setBar t off w')) ∧
          (fn = .arrive ∨ fn = .expa → u = (let s4 := par (barPar w) (s3.setBar t off w')
            if t = k.team.uid then s4.modGroup k.team.uid k.grp.gid fun h => { h with arrivals := h.arrivals + 1, retired := 0 }
            else s4)) ∧
          (fn = .wait → barPar w ≠ b.getLsbD 0 → u = k.barAcquire s3) ∧
          (fn = .wait → barPar w = b.getLsbD 0 → u = s3.modGroup k.team.uid k.grp.gid fun h => h.modSplit k.sp.id fun p =>
            { p with park := some (.barrier t off (b.getLsbD 0) (acqScope l).isSome (6 ≤ l.m.toNat)) }) ∧
          (fn = .try → u = if barPar w ≠ b.getLsbD 0 then par true (k.barAcquire s3) else par false s3)) ∧
      ∀ c, s1.locPoisoned (.scr t off) 8 = false → barOp fn w b = .error c →
        exec i s = .next (s.raise k.team.uid k.grp.gid (some k.sp.id) c k.sp.pc)) ∧
  (∀ (w b w' : DWord), barRsv w = 0 →
      (barOp .init w b = .ok w' → barExp w' = b.toNat % 2 ^ 12 ∧ barArr w' = 0 ∧ barPend w' = 0 ∧ barFlt w' = false ∧
        barPar w' = barPar w) ∧
      (barOp .arrive w b = .ok w' → barExp w' = barExp w ∧ barArr w' = barArr w + 1 ∧ barPend w' = barPend w ∧
        barPar w' = barPar w ∧ barArr w' ≤ barExp w') ∧
      (barOp .expect w b = .ok w' → barExp w' = barExp w ∧ barArr w' = barArr w ∧
        barPend w' = barPend w + (b.toNat % 2 ^ 35 : Nat) ∧ barPar w' = barPar w) ∧
      (barOp .expa w b = .ok w' → barExp w' = barExp w ∧ barArr w' = barArr w + 1 ∧
        barPend w' = barPend w + (b.toNat % 2 ^ 35 : Nat) ∧ barPar w' = barPar w) ∧
      ∀ old, barPar (barFlip old w) = !barPar old ∧ barArr (barFlip old w) = 0 ∧ barPend (barFlip old w) = 0 ∧
        barExp (barFlip old w) = barExp w)

/-- R156, R283, R167, R284, R121, R114: fence completes at once where every earlier access of the group is complete at its
scope, and parks the split otherwise, until a count of the clock finds them complete, later accesses of the group waiting
meanwhile unless no other group has an access under way that could see them pass a fence of a scope of this die (R157), and
writes to a host window never waiting (R173); it changes no register, no byte of node 0 and node 1 and nothing of the teams; drain
completes where no earlier copy of its class is in flight and parks the split otherwise, later accesses of the group waiting meanwhile.
The same holds of a split that a handler has set aside (R369).
Where the rules leave a point open it states the model's choice: assumption logs 51, 55, 56. -/
def Obligations.FenceAndDrainResults : Prop :=
  (∀ (f : Short) (s : State) (k : Here),
    let i := Instr.fence f
    let sc := f.a.toNat % 16
    s.ready i = some k →
    ((s.issued i k).completeAt (k.issued i) s.uid sc = true → exec i s = .next ((s.issued i k).endFence k.team k.grp.gid sc)) ∧
    ((s.issued i k).completeAt (k.issued i) s.uid sc = false → ∃ t h, exec i s = .next t ∧ OnlyGroupFresh s t k h ∧
      h = (k.issued i).modSplit k.sp.id fun p => { p with park := some (.fence sc s.uid) }) ∧
    ∃ t h, exec i s = .next t ∧ t.storage.mem = s.storage.mem ∧ t.teams = s.teams ∧
      (∀ a b, (a, b) ≠ (k.team.uid, k.grp.gid) → t.group? a b = s.group? a b) ∧
      t.group? k.team.uid k.grp.gid = some h ∧ (h.v, h.g, h.p, h.q, h.x) = (k.grp.v, k.grp.g, k.grp.p, k.grp.q, k.grp.x)) ∧
  (∀ (s : State) (x : Team) (h : Group) (p : Split) (sc before : Nat), s.groups = [h] → s.team? h.team = some x →
    (h.splits = [p] ∧ h.saved = none) ∨ (h.splits = [] ∧ h.saved = some [p]) → p.park = some (.fence sc before) →
    (s.completeAt h before sc = false → s.endFences = s) ∧
    (s.completeAt h before sc = true →
      (s.endFences.group? h.team h.gid).map (fun y => y.splits ++ y.saved.getD []) = some [{ p with park := none }])) ∧
  (∀ (l : Long) (s : State) (k : Here),
    let i := Instr.drain l
    let cls := l.f.toNat % 4
    let us := (s.copies.filter fun c => c.core = k.team.core && c.inClass cls).map fun c => c.uid
    s.ready i = some k →
    (us = [] → exec i s = .next (if cls = 0 then s.issued i k else (s.issued i k).emptyCaches k.team.core)) ∧
    (us ≠ [] → ∃ t h, exec i s = .next t ∧ OnlyGroupFresh s t k h ∧ h = (k.issued i).modSplit k.sp.id fun p =>
      { p with park := some (.copies us (decide (cls ≠ 0)) s.uid) })) ∧
  ∀ (s : State) (x : Team) (h : Group) (p : Split) (us : List Nat) (b : Bool) (sc before : Nat) (e : QEntry),
    p ∈ h.splits ++ h.saved.getD [] → before < e.uid →
    (e.loc.isWindow = true → s.entryUnmet h e = []) ∧
    (e.loc.isWindow = false →
      (p.park = some (.copies us b before) → s.mayPerform x h e = false) ∧
      (p.park = some (.fence sc before) → (8 ≤ sc → s.mayPerform x h e = false) ∧
        (s.mayPerform x h e = true → s.unwatched h (before + 1) = true)))

/-! ### Gather, publication, spawn, copies -/

/-- R289, R127, R137, R138, R170, R186: gath completes where its descriptor is well formed and its elements can be accessed: its
result is outstanding with D and pC as destinations, and one access for each read of each lane, in increasing lane order, that
LONG_LATENCY_RESULT performs through the gather fetch cache, or with H past it; what it then writes in each lane is the gathered
value and non-finite flag, formed from the bytes of the lane's reads. With no participating lane it reads nothing. `s1` is the
state in which the descriptor has been read.
R138, R290: dinv drops the descriptor-cache entry of the issuing context at gA in the issuing core, and dinv.all every
entry of the context there; other cores keep theirs.
Where the rules leave a point open it states the model's choice: assumption logs 8, 20. -/
def Obligations.GatherAndInvalidationResults : Prop :=
  (∀ (l : Long) (s : State) (k : Here),
      let i := Instr.gath l
      let lanes := laneList k.mask
      let n := if l.f.getLsbD 0 then 2 else 1
      let dests := (if l.c.toNat % 8 = 7 then [] else [Reg.p (l.c.toNat % 8)]) ++ (List.range n).map (fun j => Reg.v (l.d.toNat + j))
      s.ready i = some k →
      (lanes = [] → ∃ t h r, exec i s = .next t ∧ OnlyGroupFresh s t k h ∧
        h = { k.issued i with results := (k.issued i).results ++ [r] } ∧ r.dests = dests ∧ r.kind = .fixed [] ∧ r.pend = [] ∧
        r.waits = [] ∧ r.owners = [k.sp.id] ∧ r.window = l.la.toNat) ∧
      ∀ dw s1 sites, lanes ≠ [] → (s.issued i k).gatherDesc k = .ok (dw, s1) →
        (descOf dw).rsv = false → (descOf dw).fmt ≠ 15 → (descOf dw).dimsM1 ≠ 3 → ((descOf dw).fmt = 14 → n = 2) →
        s1.probes k true .read 1 (fun _ => none) (lanes.flatMap (k.gatherReads (descOf dw))) = .ok sites →
        ∀ h, s1.group? k.team.uid k.grp.gid = some h →
        let s2 := s1.noteSites k true sites
        ∃ t r, exec i s = .next t ∧ Claims.SameMemory s2 t ∧ Claims.SamePlatform s2 t k ∧
          t.group? k.team.uid k.grp.gid = some { h with results := h.results ++ [r] } ∧ r.dests = dests ∧
          r.uid = s1.uid ∧ r.owners = [k.sp.id] ∧ r.window = l.la.toNat ∧ r.waits = [] ∧ r.raw = [] ∧ r.done = false ∧
          r.pend.map (fun a => (a.lane, a.va, a.n, a.loc, a.op)) =
            sites.map (fun e => (e.lane, e.va, e.n, e.loc, if l.h = 1 then PendOp.fresh else .gather)) ∧
          r.pend.map Pend.idx = List.range sites.length ∧
          ∀ raw, ({ r with raw := raw } : Result).writes = lanes.flatMap fun lane =>
            let b := ((raw.filter fun e => e.2.1 = lane).mergeSort fun a b => a.1 ≤ b.1).flatMap fun e => e.2.2
            let v := gatherValue (decide (n = 2)) (descOf dw) (k.coords (descOf dw) lane) b
            laneWrites l.d.toNat n lane v.1 ++ [.p (l.c.toNat % 8) lane v.2]) ∧
  ((∀ (l : Long) (s : State) (k : Here), s.ready (.dinv l) = some k →
      let va := k.grp.greg l.a.toNat
      (va.toNat % 64 = 0 → ∃ t, exec (.dinv l) s = .next t ∧
        (t.core k.team.core).descs = (s.core k.team.core).descs.filter (fun e => !(e.ctx = k.team.ctx && e.va = va)) ∧
        (∀ c, c ≠ k.team.core → t.core c = s.core c) ∧ Claims.SameMemory s t ∧
        t.group? k.team.uid k.grp.gid = some (k.issued (.dinv l))) ∧
      (va.toNat % 64 ≠ 0 → exec (.dinv l) s = .next (s.raise k.team.uid k.grp.gid (some k.sp.id) 0x10 k.sp.pc))) ∧
    ∀ (l : Long) (s : State) (k : Here), s.ready (.dinvAll l) = some k →
      ∃ t, exec (.dinvAll l) s = .next t ∧
        (t.core k.team.core).descs = (s.core k.team.core).descs.filter (fun e => e.ctx ≠ k.team.ctx) ∧
        (∀ c, c ≠ k.team.core → t.core c = s.core c) ∧ Claims.SameMemory s t ∧
        t.group? k.team.uid k.grp.gid = some (k.issued (.dinvAll l)))

/-- R140, R291, R418: pub on an aligned counter of a host memory page, with the link up and no covered write lost, sends one FetchAdd
that covers the team's window writes that have not reached the host, and leaves a result for gD that waits for it. Once those
writes have been sent, FETCHADD_COMPLETE adds 1 to the counter, and the result then has nothing left to wait for and writes the
value after the add to gD; before, it changes nothing. The FetchAdd of a PUBLISH command adds 1 the same way, and its stream goes on at
the next command.
Where the rules leave a point open it states the model's choice: assumption logs 45, 57. -/
def Obligations.PublicationResults : Prop :=
  (∀ (l : Long) (s : State) (k : Here) (e : Site),
    let i := Instr.pub l
    let s0 := (s.issued i k).noteSites k true [e]
    s.ready i = some k →
    (s.issued i k).probes k true .write 8 (fun loc => match loc with
      | .host _ => none
      | _ => some 0x18) [(0, 8, k.grp.greg l.a.toNat)] = .ok [e] →
    (s.issued i k).sitesWait k [e] = false → s.host.linkUp = true → k.team.lostWrites = false →
    ∃ t h f r, exec i s = .next t ∧ t.host.fetchAdds = s.host.fetchAdds ++ [f] ∧ f.pa = e.loc.addr ∧
      f.covers = s.teamWindowWrites k.team.uid ∧ f.stream = none ∧ f.id = s.uid ∧ f.team = k.team.uid ∧ f.grp = k.grp.gid ∧
      f.result = r.uid ∧ Claims.SameMemory s0 t ∧ Claims.SamePlatform s0 t k ∧
      t.group? k.team.uid k.grp.gid = some h ∧ h = { k.issued i with results := (k.issued i).results ++ [r] } ∧
      r.dests = [.g l.d.toNat] ∧ r.waits = [f.id] ∧ r.pend = [] ∧ r.owners = [k.sp.id] ∧ r.window = l.la.toNat) ∧
  (∀ (t : Nat) (s : State) (e : Nat), e ∈ s.teamWindowWrites t ↔
    (∃ h ∈ s.groups, h.team = t ∧ ∃ q ∈ h.queue, q.uid = e ∧ q.loc.isWindow = true) ∨
    ∃ r ∈ s.fabric.requests, ∃ g p va pc, r.use = .store t g p e true va pc) ∧
  ∀ (id : Nat) (s : State) (f : FetchAdd), s.host.fetchAdds.find? (fun a => a.id = id) = some f → s.host.linkUp = true →
    let i := Instr.fetchaddComplete id
    let sent := (∀ h ∈ s.groups, ∀ q ∈ h.queue, q.uid ∉ f.covers) ∧
      ∀ r ∈ s.fabric.requests, ∀ t g p e va pc, r.use = .store t g p e true va pc → e ∉ f.covers
    let v := (leNat (s.hostRead f.pa 8) + 1) % 2 ^ 64
    (¬sent → exec i s = .next s) ∧
    (sent → SMap.wf s.host.mem = true → ∃ t, exec i s = .next t ∧ t.hostRead f.pa 8 = leBytes 8 v ∧
      (∀ a, a < f.pa ∨ f.pa + 8 ≤ a → SMap.get t.host.mem a = SMap.get s.host.mem a) ∧
      t.host.fetchAdds = s.host.fetchAdds.filter (fun a => a.id ≠ id) ∧ t.storage = s.storage ∧ t.teams = s.teams ∧
      (f.stream = none → t.streams = s.streams ∧
        (∀ h, s.group? f.team f.grp = some h → ∃ h', t.group? f.team f.grp = some h' ∧ { h' with results := h.results } = h ∧
          h'.results = h.results.map fun r => if r.uid = f.result then
            { r with waits := r.waits.filter (· ≠ id), kind := .fixed (r.dests.filterMap fun d => match d with
              | .g n => some (.g n (BitVec.ofNat 64 v))
              | _ => none) } else r)) ∧
      (∀ n irq, f.stream = some n → (s.stream n).wait = .publish id irq → n < s.streams.length → s.draining n = false →
        t.stream n = { s.stream n with pc := (s.stream n).pc + 32, wait := .none } ∧ t.groups = s.groups ∧
          t.host.msix = s.host.msix ++ if irq then [n] else []))

/-- R292, R93, R94: spawn completes where every participating lane's entry may be fetched. pD says which lanes' items were
accepted; an accepted lane with weight w keeps the rest of w above floor(w / 2), which goes with its item, and every other
lane keeps its weight; no other register changes. The lanes offer in ascending order, and one is accepted exactly where the grid has
a root word and SPMAX is not 0, the context is active, its weight is at least 2, and the core's collector has room: fewer than 1,024
items, and a forming group of the grid's at its entry or fewer than 8 forming groups. The collector then holds the items in that
order and nothing else new; where nothing is accepted it is as it was. -/
def Obligations.SpawnResults : Prop :=
  (∀ (l : Long) (s : State) (k : Here),
    let i := Instr.spawn l
    let entry (lane : Nat) : DWord := k.srcA 2 lane
    let w (lane : Nat) : DWord := SMap.get k.grp.weight lane
    let item (s : State) (lane : Nat) : Item :=
      { entry := entry lane, w0 := (k.srcB 1 lane).setWidth 32, w1 := (k.srcC 1 lane).setWidth 32, weight := w lane >>> 1,
        team := k.team.uid, grp := k.grp.gid, mark := s.uid, since := s.cycle }
    s.ready i = some k → k.grp.tidy = true →
    (s.issued i k).entryProbes k ((laneList k.mask).map entry) = none →
    ∃ t h, ∃ m : LaneMask, exec i s = .next t ∧ t.group? k.team.uid k.grp.gid = some h ∧ Claims.SameMemory s t ∧
      Claims.SamePlatform s t k ∧
      { h with p := k.grp.p, weight := k.grp.weight } = k.issued i ∧
      PredFrame k i l.d.toNat (fun lane => m.getLsbD lane) { h with weight := k.grp.weight } ∧
      (∀ lane, SMap.get h.weight lane = if m.getLsbD lane then w lane - w lane >>> 1 else w lane) ∧
      (∀ lane, m.getLsbD lane = true → k.mask.getLsbD lane = true) ∧
      let went : List Nat → State := fun l => l.foldl (fun s lane => s.collect k.team.core k.team.grid (entry lane) (item s lane)) s
      (∀ c, (t.core c).forming = ((went ((laneList k.mask).filter fun lane => m.getLsbD lane)).core c).forming) ∧
      ∀ lane, k.mask.getLsbD lane = true →
        let c := ((went ((laneList k.mask).filter fun j => m.getLsbD j && decide (j < lane))).core k.team.core).forming
        (m.getLsbD lane = true ↔ s.spawnOpen k = true ∧ 2 ≤ (w lane).toNat ∧
          (c.map fun f => f.items.length).sum < 1024 ∧
          ((∃ f ∈ c, f.grid = k.team.grid ∧ f.entry = entry lane) ∨ c.length < 8))) ∧
  ∀ (s : State) (k : Here), s.spawnOpen k = true ↔
    (∃ g, s.grid? k.team.grid = some g ∧ g.root ≠ 0 ∧ g.launch.spmax ≠ 0) ∧ ∃ c, s.ctx? k.team.ctx = some c ∧ c.phase = .active

/-- R285, R286, R287, R130: cpya. Where fewer than 64 copies of the core are outstanding, its addresses are aligned and lie in
scratchpads that exist, the control's reserved values are zero, earlier accesses are complete at cluster scope and no group whose
scope the issuer stands in has passed an ordering (R157), a copy is
in flight with its operands as they were at issue, and starts: it reads its descriptors, and faults or has its tiles. A flat
copy of 0 bytes does nothing.
Where the rules leave a point open it states the model's choice: assumption logs 19, 56. -/
def Obligations.CopyIssue : Prop :=
  ∀ row ∈ Claims.copyTable, ∀ (l : Long) (s : State) (k : Here) (src dst bar : Nat × Nat),
    let i := row.1 l
    let shape := row.2
    let s0 := s.issued i k
    let va := k.grp.greg l.a.toNat
    let vd := k.grp.greg l.d.toNat
    let vb := (k.grp.greg l.b.toNat).toNat
    let ctl := (k.grp.greg l.c.toNat).toNat
    let srcScr := decide (shape = 1) || (decide (shape = 3) && l.m.getLsbD 0)
    let dstScr := decide (shape = 0) || (decide (shape = 3) && l.m.getLsbD 1)
    let count := if shape = 3 then vb % 2 ^ 40 else 0
    let n := if shape = 3 then count else 1
    s.ready i = some k → (s.copies.filter fun c => c.core = k.team.core).length < 64 → s0.behindPoint k = false →
    s0.blinded k.team.uid k.grp.gid = false → ctl % 8 = 0 → (shape = 0 ∨ shape = 2 → va.toNat % 64 = 0) → (shape = 1 ∨ shape = 2 → vd.toNat % 64 = 0) →
    (shape = 0 → vd.toNat % 16 = 0) → (shape = 1 → va.toNat % 16 = 0) →
    (if srcScr then s0.scrPlace k.team (va.setWidth 32) n = some src else src = (0, 0)) →
    (if dstScr then s0.scrPlace k.team (vd.setWidth 32) n = some dst else dst = (0, 0)) →
    s0.scrPlace k.team (BitVec.ofNat 32 ctl) 8 = some bar →
    (dstScr = true → (s.team? bar.1).map Team.core = (s.team? dst.1).map Team.core) →
    convWordBad shape.toNat (ctl / 2 ^ 32 % 2 ^ 16) = false → (shape = 3 → vb / 2 ^ 40 % 2 ^ 24 = 0) →
    (shape = 3 → count = 0 → exec i s = .next s0) ∧
    ((shape = 3 → count ≠ 0) → s0.released k 7 = true →
      ∃ c : Copy, exec i s = .next ((({ s0.fresh with copies := s0.copies ++ [c] } : State).nameBar bar.1 bar.2).startCopy c.uid) ∧
        c.uid = s.uid ∧ c.ctx = k.team.ctx ∧ c.grid = k.team.grid ∧ c.core = k.team.core ∧ c.unit < 48 ∧ c.shape = shape ∧
        c.src = va ∧ c.dst = vd ∧ c.srcBase = src ∧ c.dstBase = dst ∧ c.count = count ∧ c.bar = bar ∧
        c.conv = BitVec.ofNat 16 (ctl / 2 ^ 32) ∧ c.stream = BitVec.ofNat 16 (ctl / 2 ^ 48) ∧ c.tiles = [] ∧
        c.srcScr = srcScr ∧ c.dstScr = dstScr ∧ c.sats = 0 ∧ c.satDone = false)

/-- R133: the tiles of a copy credit exactly the copy's bytes in all.
R132, R133, R165, R379, R131: PERMIT_GRANT gives a started copy's first tile that has none the lowest landing slot that is free,
where the core and the copy unit have one left. TILE_LANDING and COPY_CREDIT form a tile and write it, in 128-byte units, but
for the copy's last unit, which is written once the others are answered for; then the saturation count is added where the copy
has one and this was its last tile; then the tile's bytes are credited to the barrier word, or the copy faults where the word cannot
be corrected (R406). Each step follows the one before
at once where no peer has to answer it, and with the last credit the copy is over.
Where the rules leave a point open it states the model's choice: assumption logs 19, 59, 72, 74. -/
def Obligations.CopyTileResults : Prop :=
  (∀ c : Copy, ((List.range c.tileCount).map c.tileCredit).sum = c.total) ∧
  (∀ (u : Nat) (s : State) (c : Copy) (j n : Nat) (tile : Tile), s.copy? u = some c → c.tiles ≠ [] → c.stalled = false →
    c.dstScr = true → c.tiles[j]? = some tile → tile.st = .idle → c.mayWrite j = true →
    (∀ m < j, ∀ d, c.tiles[m]? = some d → d.st = .idle → c.mayWrite m = false) →
    n < 16 → (∀ m, m ∈ s.slotsUsed (s.landingCore c) (fun _ => true) → m ≠ n) →
    (∀ m, m < n → m ∈ s.slotsUsed (s.landingCore c) (fun _ => true)) →
    (s.slotsUsed (s.landingCore c) (fun d => d.unit = c.unit)).length < 4 →
    ∃ t c', exec (.permitGrant u) s = .next t ∧ t.copy? u = some c' ∧
      c'.tiles = c.tiles.set j { tile with st := .granted, slot := n } ∧ { c' with tiles := c.tiles } = c ∧
      { t with copies := s.copies } = s) ∧
  ∀ (u j : Nat) (s : State) (c : Copy) (tile : Tile), s.copy? u = some c → c.tiles[j]? = some tile → c.stalled = false →
    let i := if c.dstScr then Instr.tileLanding u j else Instr.copyCredit u j
    let goes (w : List Nat) (s : State) (next : State) : Prop :=
      (w ≠ [] → exec i s = .next next) ∧ (w = [] → exec i s = exec i next)
    let parts := c.splitParts (s.formTile c j).parts
    let early := if parts.1 = [] then parts.2 else parts.1
    let late := if parts.1 = [] then [] else parts.2
    (∀ ps pl, tile.st = (if c.dstScr then .granted else .idle) → (c.dstScr = true ∨ c.mayWrite j = true) →
      (s.formTile c j).stop = none → s.partPieces c early = .ok ps → s.partPieces c parts.2 = .ok pl →
      let (w, s1) := ((s.takeAnswers (copyKey c)).rekeySpans c.ctx (c.tileReads j)).putAll (s.job c.ctx) (copyKey c) ps
      goes w s (s1.modCopy c.uid fun c => { c with
        sats := c.sats + (s.formTile c j).sats
        tiles := c.tiles.modify j fun t => { t with
          st := .sent, waits := w, lines := if late = [] then [] else t.lines, missing := [],
          rest := late.map fun p => (p.pos, p.va, p.bytes) } })) ∧
    (tile.st = .sent → (s.fabric.requests.any fun r => tile.waits.contains r.tag) = true → exec i s = .next s) ∧
    (tile.st = .sent → (s.fabric.requests.any fun r => tile.waits.contains r.tag) = false →
      (∀ ps, tile.rest ≠ [] → s.partPieces c (tile.rest.map fun r => ⟨r.1, r.2.1, r.2.2⟩) = .ok ps →
        let (w, s1) := s.putAll (s.job c.ctx) (copyKey c) ps
        goes w s (s1.modCopy u fun _ => c.setTile j { tile with rest := [], lines := [], missing := [], waits := w })) ∧
      (∀ l, tile.rest = [] → c.satDue j = true → s.countPlace c.ctx c.sdesc.sat = .ok l →
        let (w, s1) := s.addCount (s.job c.ctx) (copyKey c) c.sdesc.sat l c.sats
        goes w s (s1.modCopy u fun _ => { c with satDone := true }.setTile j { tile with waits := w })) ∧
      (tile.rest = [] → c.satDue j = false → s.barBad c.bar.1 c.bar.2 = true → exec i s = .next
        ((s.consumedBy c.ctx (s.poisonAt (c.barAddr.setWidth 64) (.scr c.bar.1 c.bar.2))).reportCopy c (c.barAddr.setWidth 64))) ∧
      (tile.rest = [] → c.satDue j = false → s.barBad c.bar.1 c.bar.2 = false → exec i s = .next
        (let s1 := (s.modCopy u fun c => c.setTile j { st := .done, slot := 0, lines := [], missing := [], waits := [], rest := [] }).credit
            c.bar.1 c.bar.2 (c.tileCredit j)
          if c.othersDone j then s1.endCopy u else s1)))

/-! ### Matrix -/

/-- R297, R298: conv by a group in no convocation, whose tag is free or that of a forming convocation of the same size.
The group waits; with the last member the convocation forms, members are numbered by rising GROUPID, each finds its number
in its destination, and none waits any more.
Where the rules leave a point open it states the model's choice: assumption log 17. -/
def Obligations.ConvocationForms : Prop :=
  ∀ (l : Long) (s : State) (k : Here),
    let i := Instr.conv l
    let before := ((k.team.convs.find? fun c => c.tag = k.tag).map Conv.members).getD []
    s.ready i = some k → k.grp.inHandler = false → k.team.convOf k.grp.gid = none → (∀ h ∈ s.groups, Group.tidy h = true) →
    (∀ c ∈ k.team.convs, c.uid < s.uid ∧ (c.tag = k.tag → c.formed = false ∧ c.size = k.convSize ∧ c.broken = false)) →
    (k.team.convs.map Conv.uid).Nodup → (before.map Member.gid).Nodup →
    ∃ t c, exec i s = .next t ∧ { t with groups := s.groups, teams := s.teams, uid := s.uid } = s ∧
      (t.conv? k.team.uid c.uid = some c) ∧ c.tag = k.tag ∧ c.size = k.convSize ∧ c.broken = false ∧
      (c.members.map Member.gid).Perm (k.grp.gid :: before.map Member.gid) ∧
      c.formed = decide (k.convSize ≤ before.length + 1) ∧
      (c.formed = false → c.members = before ++ [newMember k.grp.gid l.d.toNat] ∧
        t.group? k.team.uid k.grp.gid =
          some ((k.issued i).modSplit k.sp.id fun p => { p with park := some (.convene k.tag) })) ∧
      (c.formed = true → (c.members.map Member.gid).Pairwise (· < ·) ∧ c.members.map Member.num = List.range c.members.length ∧
        ∀ m ∈ c.members, ∀ h, s.group? k.team.uid m.gid = some h → ∃ h', t.group? k.team.uid m.gid = some h' ∧
          (m.dest ≠ 0 → h'.greg m.dest = BitVec.ofNat 64 m.num) ∧ (∀ r, r ≠ m.dest → h'.greg r = h.greg r) ∧
          h'.splits.all (fun p => p.park ≠ some (.convene k.tag)) = true)

/-- R299, R300, R306, R312, R316, R319: mma, mma.sp and the acc forms, issued by a member of a formed convocation that is not
broken and for which nothing is left to raise, with operands that raise no cause. The member's instruction is counted and
its latch kept or emptied; until all members have issued theirs the operation waits for them; with the last it is one
reservation of the core's engine, or, where the members do not agree, cause 0x31 and a broken convocation.
Where the rules leave a point open it states the model's choice: assumption log 17. -/
def Obligations.MatchedInstructionsIssue : Prop :=
  ∀ row ∈ Claims.matchedTable, ∀ (l : Long) (s : State) (k : Here) (c : Conv) (m : Member),
    let i := row.1 l
    let op := row.2.1
    let s0 := s.issued i k
    s.ready i = some k → k.grp.inHandler = false → k.member = some (c, m) → c.broken = false → m.cause = none →
    row.2.2 s k = none →
    Claims.MatchedIssue i op k s (s0.modConv k.team.uid c.uid fun c => c.modMember k.grp.gid (Claims.matchedMember op k)) c m
      (Claims.joined c m op k (Claims.matchedPart op k s0))

/-- R301, R317, R385: mcommit writes the member's batch number to gD and counts it, and the last member's closes the batch;
conv.dis parks its split until the convocation ends, and with the last member's the convocation ends where nothing of it is
outstanding. In a broken convocation conv.dis is the one instruction that still issues.
R318, R168: mwait goes on where every operation of its batch and of the earlier ones has completed or the batch lies at least 2^15 back, and
empties the core's caches where the batch wrote memory; otherwise its split is parked until the batch has completed, and later
accesses of its group wait. Nothing else changes. A batch not yet committed by this member is cause 0x34.
Where the rules leave a point open it states the model's choice: assumption log 18. -/
def Obligations.BatchResults : Prop :=
  ((∀ (l : Short) (s : State) (k : Here) (c : Conv) (m : Member),
      let i := Instr.mcommit l
      let s0 := s.issued i k
      s.ready i = some k → k.grp.inHandler = false → k.sp.lanes = BitVec.allOnes 32 → k.member = some (c, m) →
      c.broken = false → m.cause = none →
      Claims.MatchedIssue i .commit k s
        ((s0.modConv k.team.uid c.uid fun c => c.modMember k.grp.gid fun m =>
          { m with issued := m.issued + 1, batch := m.batch + 1 }).modGroup
            k.team.uid k.grp.gid fun h => h.setG l.d.toNat (m.batch.setWidth 64)) c m
        (Claims.joined c m .commit k (k.part s0))) ∧
    ∀ (l : Long) (s : State) (k : Here) (c : Conv) (m : Member),
      let i := Instr.convDis l
      let s0 := s.issued i k
      let s1 := (s0.modConv k.team.uid c.uid fun c => c.modMember k.grp.gid fun m =>
          { m with issued := m.issued + 1, dis := true }).modGroup
            k.team.uid k.grp.gid fun h => h.modSplit k.sp.id fun p => { p with park := some (.dismiss c.uid) }
      s.ready i = some k → k.grp.inHandler = false → k.sp.lanes = BitVec.allOnes 32 → k.member = some (c, m) → m.cause = none →
      (c.broken = false → Claims.MatchedIssue i .dismiss k s s1 c m (Claims.joined c m .dismiss k (k.part s0))) ∧
      (c.broken = true → exec i s = .next (s1.endConv k.team.uid c.uid))) ∧
  (∀ (l : Short) (s : State) (k : Here) (c : Conv) (m : Member),
      let i := Instr.mwait l
      let n : Half := (k.grp.greg l.a.toNat).setWidth 16
      s.ready i = some k → k.member = some (c, m) → m.cause = none →
      (m.batch = n → exec i s = .next (s.raise k.team.uid k.grp.gid (some k.sp.id) 0x34 k.sp.pc)) ∧
      (m.batch ≠ n → 2 ^ 15 ≤ (m.batch - n).toNat ∨ c.batchDone n = true →
        exec i s = .next (if c.globals.contains n then (s.issued i k).emptyCaches k.team.core else s.issued i k)) ∧
      (m.batch ≠ n → (m.batch - n).toNat < 2 ^ 15 → c.batchDone n = false →
        ∃ t h, exec i s = .next t ∧ OnlyGroupFresh s t k h ∧ h = (k.issued i).modSplit k.sp.id fun p =>
          { p with park := some (.batch c.uid n s.uid) })) ∧
  ∀ (c : Conv) (n : Half), (c.closed - n - 1).toNat < 2 ^ 15 - 1 →
    (c.batchDone n = true ↔ ∀ b ∈ c.batches, 2 ^ 15 ≤ (n - b.n).toNat)

/-- R311: prune and prune.t with all 32 lanes active and an N, M and format that R311 names: D's packed registers and gB
take what PRUNE gives, every other register stays, and prune keeps in each group the N positions of largest magnitude. -/
def Obligations.PruneResults : Prop :=
  (∀ (t : Bool) (l : Long) (s : State) (k : Here),
    let i := if t then Instr.pruneT l else Instr.prune l
    let n := bits l.c.toNat 4 0
    let mc := l.c.extractLsb' 5 2
    s.ready i = some k → k.grp.tidy = true → k.sp.lanes = BitVec.allOnes 32 → pruneArgsOk l.m n mc = true →
    let out := pruneFrag t l.m n mc (k.laneRegs l.a.toNat (denseRegs l.m))
    ∃ s' h, exec i s = .next s' ∧ OnlyGroup s s' k h ∧ { h with v := k.grp.v, g := k.grp.g } = k.issued i ∧
      (∀ r, h.greg r = if r = l.b.toNat ∧ r ≠ 0 then out.2 else k.grp.greg r) ∧
      ∀ r lane, lane < 32 → h.lreg r lane =
        if l.d.toNat ≤ r ∧ r < l.d.toNat + packedRegs l.m n mc then (out.1.getD lane []).getD (r - l.d.toNat) 0
        else k.grp.lreg r lane) ∧
  ∀ (m n : Nat) (mags : List FVal), 0 < m → n ≤ m → mags.length % m = 0 →
    Claims.KeepsLargest m n mags (keepLane m n mags)

/-- R313, R316, R320, R406: a MATRIX_OP_START whose operation may start, no other of its core being under way, has it read its B
image or the rows of acc.ld, or make the writes of acc.st and acc.add; the team's accumulators are as before until it completes. Then
it applies to the accumulator store as one: acc.zero gives every element of the region the code 0, mma and mma.sp every element
MMA's result on A's row and B's column, acc.ld what the row read from memory gives; no accumulator word outside the region changes,
and memory does not. An image that holds a poisoned byte, or an accumulator word that cannot be corrected, ends the operation without
effect.
Where the rules leave a point open it states the model's choice: assumption logs 7, 16, 17, 71. -/
def Obligations.EngineOperationResults : Prop :=
  (∀ (core : Nat) (s : State) (o : EngineOp) (x : Team) (c : Conv),
    let i := Instr.matrixOpStart core
    let m := o.op
    let n := imageBytes (bits m.fields.c.toNat 3 0)
    let begun (f : EngineOp → EngineOp) (s : State) : State :=
      s.modOp core o.uid fun o => f { o with started := true, lines := [], missing := [] }
    ((s.core core).engine.find? fun o => !o.started) = some o →
    ((s.core core).engine.any (fun e => e.started) = true → exec i s = .next s) ∧
    ((s.core core).engine.any (fun e => e.started) = false → s.team? o.team = some x → s.conv? o.team o.conv = some c →
      o.waiting = false → c.broken = false → s.opReady x m = true →
      (o.struck = true → exec i s = .next (s.failOp core o (s.registerCause x))) ∧
      (o.struck = false → m.op = .accZero → exec i s = .next (begun id s)) ∧
      (∀ t off, o.struck = false → m.op = .mma ∨ m.op = .mmaSp → m.place 0 = some (t, off) →
        (s.locPoisoned (.scr t off) n = false → exec i s = .next (begun (fun o => { o with image := s.peek (.scr t off) n }) s)) ∧
        (s.locPoisoned (.scr t off) n = true → exec i s = .next (s.failOp core o (s.poisonAt m.lead.vb (.scr t off))))) ∧
      (∀ rows, o.struck = false → m.op = .accLd → s.accLoads x o (List.range m.rows) = .ok rows →
        exec i s = .next (begun (fun o => { o with rows := rows }) ((s.takeAnswers o.key).rekeySpans x.ctx
          (if accInScratch m.fields then [] else
            (List.range m.rows).map fun r => (m.rowVa r, accRowBytes (accMemFmt m.fields)))))) ∧
      (∀ ps sats sat, o.struck = false → m.op = .accSt ∨ m.op = .accAdd → s.accPlan x m = .ok (ps, sats) → s.satPlace x m = .ok sat →
        ∃ t, exec i s = .next t ∧ (t.team? x.uid).map Team.acc = some x.acc ∧
          t = (let s1 := ((begun id s).putAll (s.job x.ctx) o.key ps).2
            match sat with
            | some l => (s1.addCount (s.job x.ctx) o.key m.lead.vb1 l sats).2
            | none => s1)))) ∧
  (∀ (s : State) (o : EngineOp) (x : Team) (c : Conv),
    let m := o.op
    let becomes (a : SMap 32) : Prop := (s.finishOp o).team? o.team = some { x with acc := a } ∧
      { s.finishOp o with teams := s.teams } = s
    s.team? o.team = some x → s.conv? o.team o.conv = some c →
    (c.broken = true → becomes x.acc) ∧
    (c.broken = false →
      (m.op = .accZero → becomes (regionMap x.acc m.kind m.tile m.rows fun _ _ _ => 0)) ∧
      (m.op = .mma ∨ m.op = .mmaSp → becomes (mmaRegion x.acc m.kind m.tile (modeOf (bits m.fields.f.toNat 1 0)) m.fields.m.toNat
        (bits m.fields.c.toNat 3 0) (m.parts.filterMap Part.frag) o.image)) ∧
      (m.op = .accLd → becomes (regionMap x.acc m.kind m.tile m.rows fun r n _ => (o.rows.getD r []).getD n 0)) ∧
      (m.op = .accSt ∨ m.op = .accAdd → becomes x.acc))) ∧
  (∀ (a : SMap 32) (kind d m : Nat) (f : Nat → Nat → Nat → Nat), SMap.wf a = true →
    Claims.RegionIs a (regionMap a kind d m f) kind d m f) ∧
  ∀ (a : SMap 32) (kind d : Nat) (mode : Mode) (fa fb : Nat) (frags : List Latch) (b : List Byte), SMap.wf a = true →
    Claims.RegionIs a (mmaRegion a kind d mode fa fb frags b) kind d (16 * frags.length) fun r n x =>
      match frags[r / 16]? with
      | some g => mmaElem (accFmt kind) mode fa (g.row (r % 16)) (imageCol fb b n) (g.rowScale (r % 16)) (imageScale fb b n) x
      | none => x

/-- R301, R316, R318, R385: MATRIX_OP_COMPLETE gives a started operation, all of whose accesses are performed and before
which its convocation has none, its effect on the accumulators (EngineOperationResults), and takes it out of the engine, of the open operations and of its batch, and wakes the splits whose
batch it completes. CONVOCATION_END ends a convocation that every remaining member has dismissed and that has nothing
outstanding: its tag is free and the waiting splits go on.
Where the rules leave a point open it states the model's choice: assumption log 18. -/
def Obligations.EngineOperationsEnd : Prop :=
  (∀ (core op : Nat) (s : State) (o : EngineOp),
    ((s.core core).engine.find? fun o => o.uid = op) = some o → o.started = true → s.keyBusy o.key = false →
    ((((s.core core).engine.takeWhile fun e => e.uid ≠ op).any fun e => e.team = o.team && e.conv = o.conv) = false) →
    exec (.matrixOpComplete core op) s = .next
      (((((s.finishOp o).takeAnswers o.key).modCore core fun c => { c with engine := c.engine.filter fun e => e.uid ≠ op }).modConv
        o.team o.conv fun c => { c with
          openOps := c.openOps.filter (· ≠ op),
          batches := (c.batches.map fun b => { b with ops := b.ops.filter (· ≠ op) }).filter fun b => b.ops ≠ [] }).wakeBatches
        o.team o.conv)) ∧
  ∀ (team : Nat) (tag : BitVec 4) (s : State) (x : Team) (c : Conv), s.team? team = some x →
    (x.convs.find? fun c => c.tag = tag.toNat) = some c → x.conv? c.uid = some c → c.mayEnd = true →
    ∃ t, exec (.convocationEnd team tag) s = .next t ∧ { t with groups := s.groups, teams := s.teams } = s ∧
      (t.team? team).map Team.convs = some (x.convs.filter fun c' => c'.uid ≠ c.uid) ∧
      t.groups = s.groups.map fun h => if h.team = team then h.unpark (Split.onConv c.uid) else h

/-! ### Control -/

/-- R228 to R230, R74, R360: br. With no lane that stays, or a target equal to the next instruction, all lanes go to the target,
or trap with 0x07 where it is misaligned or not canonical; with no lane that goes, all fall through, under the same check.
Otherwise the split divides between the target and the next instruction, or traps with 0x06 where its mask stack has no room,
and with 0x07 where it has and an address is bad.
Where the rules leave a point open it states the model's choice: assumption log 29. -/
def Obligations.BranchResults : Prop :=
  (∀ (k : Here) (lane : Nat), lane < 32 → k.condLanes.getLsbD lane =
    (k.sp.lanes.getLsbD lane && (!k.f.f.getLsbD 0 || ((k.grp.pmask (k.f.a.toNat % 8)).getLsbD lane != k.f.f.getLsbD 1)))) ∧
  ∀ (l : Imm) (s : State) (k : Here),
    let i := Instr.br l
    let t : DWord := k.sp.pc + l.imm.signExtend 64
    let f : DWord := k.sp.pc + 8
    let taken := k.condLanes
    let left := k.sp.lanes &&& ~~~taken
    let bad (a : DWord) : Prop := a.toNat % 4 ≠ 0 ∨ canonical a = false
    s.ready i = some k →
    (left = 0 ∨ taken = 0 ∨ t = f →
      (bad t → exec i s = .next (s.raise k.team.uid k.grp.gid (some k.sp.id) 0x07 k.sp.pc)) ∧
      (¬bad t → left = 0 ∨ t = f → exec i s = .next ((s.issued i k).jump k t)) ∧
      (¬bad t → left ≠ 0 → t ≠ f → exec i s = .next ((s.issued i k).jump k f))) ∧
    (left ≠ 0 → taken ≠ 0 → t ≠ f →
      (Claims.hasRoom k [(f, left)] = false → exec i s = .next (s.raise k.team.uid k.grp.gid (some k.sp.id) 0x06 k.sp.pc)) ∧
      (Claims.hasRoom k [(f, left)] = true → bad t ∨ bad f →
        exec i s = .next (s.raise k.team.uid k.grp.gid (some k.sp.id) 0x07 k.sp.pc)) ∧
      (Claims.hasRoom k [(f, left)] = true → ¬bad t → ¬bad f →
        ∃ s' h, exec i s = .next s' ∧ OnlyGroup s s' k h ∧ Claims.Divides k i none (t, taken) [(f, left)] h))

/-- R228, R231, R232, R235, R74, R360: call writes the address of the next instruction to its pair and goes to its target; brx
and ret send each active lane to the address in its pair, the split dividing among the targets in ascending order, or trapping
with 0x06 where there is no room for that, and otherwise with 0x07 where a target is misaligned or not canonical; trap
raises 0x41. -/
def Obligations.CallAndIndirectResults : Prop :=
  (∀ (l : Imm) (s : State) (k : Here),
    let i := Instr.call l
    let t : DWord := k.sp.pc + l.imm.signExtend 64
    s.ready i = some k → k.grp.tidy = true →
    (t.toNat % 4 ≠ 0 ∨ canonical t = false → exec i s = .next (s.raise k.team.uid k.grp.gid (some k.sp.id) 0x07 k.sp.pc)) ∧
    (t.toNat % 4 = 0 → canonical t = true → ∃ s' h, exec i s = .next s' ∧ OnlyGroup s s' k h ∧
      { h with v := [], splits := [] } = { k.issued i with v := [], splits := [] } ∧
      h.split? k.sp.id = some { k.sp with pc := t } ∧ (∀ j, j ≠ k.sp.id → h.split? j = k.grp.split? j) ∧
      (∀ lane, k.sp.lanes.getLsbD lane = true → h.lpair k.f.d.toNat lane = k.sp.pc + 8) ∧
      ∀ r lane, lane < 32 → ¬(k.f.d.toNat ≤ r ∧ r < k.f.d.toNat + 2 ∧ k.sp.lanes.getLsbD lane = true) →
        h.lreg r lane = k.grp.lreg r lane)) ∧
  (∀ k : Here, (k.targets.map Prod.fst).Pairwise (· < ·) ∧
    (∀ e ∈ k.targets, ∀ lane, lane < 32 →
      e.2.getLsbD lane = (k.sp.lanes.getLsbD lane && decide (k.grp.lpair k.f.a.toNat lane = e.1))) ∧
    ∀ lane, lane < 32 → k.sp.lanes.getLsbD lane = true → k.grp.lpair k.f.a.toNat lane ∈ k.targets.map Prod.fst) ∧
  (∀ c ∈ Claims.indirectTable, ∀ (l : Short) (s : State) (k : Here),
    let i := c l
    s.ready i = some k →
    let bad := k.targets.any fun e => e.1.toNat % 4 ≠ 0 || !canonical e.1
    (∀ t, k.targets = [t] →
      (bad = true → exec i s = .next (s.raise k.team.uid k.grp.gid (some k.sp.id) 0x07 k.sp.pc)) ∧
      (bad = false → exec i s = .next ((s.issued i k).jump k t.1))) ∧
    ∀ t1 t2 ts, k.targets = t1 :: t2 :: ts →
      (Claims.hasRoom k (t2 :: ts) = false → exec i s = .next (s.raise k.team.uid k.grp.gid (some k.sp.id) 0x06 k.sp.pc)) ∧
      (Claims.hasRoom k (t2 :: ts) = true → bad = true →
        exec i s = .next (s.raise k.team.uid k.grp.gid (some k.sp.id) 0x07 k.sp.pc)) ∧
      (Claims.hasRoom k (t2 :: ts) = true → bad = false →
        ∃ s' h, exec i s = .next s' ∧ OnlyGroup s s' k h ∧ Claims.Divides k i (some k.sp.pc) t1 (t2 :: ts) h)) ∧
  ∀ (l : Short) (s : State) (k : Here), s.ready (.trap l) = some k →
    exec (.trap l) s = .next (s.raise k.team.uid k.grp.gid (some k.sp.id) 0x41 k.sp.pc)

/-- R75, R77, R78, R233: join leaves the split at its target, held, where its mask stack is empty or has a FORK on top; sends
pending lanes on from a PENDING entry; or gathers the lanes that arrived, popping the entry. SPLIT_MERGE joins two splits
without entries that stand at one address; HOLD_TIMEOUT releases a split held for 1,024 cycles.
Where the rules leave a point open it states the model's choice: assumption log 29. -/
def Obligations.JoinAndMergeResults : Prop :=
  (∀ (l : Imm) (s : State) (k : Here),
    let i := Instr.join l
    let t : DWord := k.sp.pc + l.imm.signExtend 64
    let j := k.sp.join t
    s.ready i = some k →
    (t.toNat % 4 ≠ 0 ∨ canonical t = false → exec i s = .next (s.raise k.team.uid k.grp.gid (some k.sp.id) 0x07 k.sp.pc)) ∧
    (t.toNat % 4 = 0 → canonical t = true → exec i s = .next ((s.issued i k).modGroup k.team.uid k.grp.gid fun h =>
      let h1 := (h.closeWindows k.sp.id).modSplit k.sp.id fun _ =>
        if j.2 then { j.1 with held := some s.cycle } else j.1
      if h1.mergeDue then h1 else h1.releaseHeld)) ∧
    (k.sp.stack = [] → j = ({ k.sp with pc := t }, true)) ∧
    ∀ e rest, k.sp.stack = e :: rest →
      (e.fork = true → j = ({ k.sp with stack := rest, pc := t }, true)) ∧
      (e.fork = false → e.pending ≠ 0 → j = ({ k.sp with
        stack := { e with pending := 0, arrived := e.arrived ||| k.sp.lanes, target := some (e.target.getD t) } :: rest,
        lanes := e.pending, pc := e.ppc }, false)) ∧
      (e.fork = false → e.pending = 0 → rest = [] →
        j = ({ k.sp with stack := [], lanes := k.sp.lanes ||| e.arrived, pc := e.target.getD t }, false))) ∧
  (∀ (t g : Nat) (s : State) (h : Group) (a b : Split), s.group? t g = some h → h.splits = [a, b] → a.id < b.id →
    a.pc = b.pc → a.park = none → b.park = none → a.stack = [] → b.stack = [] → a.held = none → b.held = none →
    ∃ s' h', exec (.splitMerge t g) s = .next s' ∧ { s' with groups := s.groups } = s ∧ s'.group? t g = some h' ∧
      h'.splits = [{ a with lanes := a.lanes ||| b.lanes }] ∧
      { h' with splits := [], results := [], raised := none, raisers := [], struck := none } =
        { h with splits := [], results := [], raised := none, raisers := [], struck := none }) ∧
  ∀ (t g p c : Nat) (s : State) (h : Group) (q : Split), s.group? t g = some h → h.split? p = some q → q.held = some c →
    ∃ s' h', exec (.holdTimeout t g p) s = .next s' ∧ { s' with groups := s.groups } = s ∧ s'.group? t g = some h' ∧
      h'.split? p = some (if 1024 ≤ s.cycle - c then { q with held := none } else q) ∧
      { h' with splits := h.splits } = h

/-- R96, R234, R293, R369, R385: exit ends the lanes it selects, whose weights return to the root word first; the split goes
on with its other lanes, with lanes of its mask stack, or ends (R76). In handler mode it returns no weight. done returns the
weights of the participating lanes, which are then zero, and ends none.
Where the rules leave a point open it states the model's choice: assumption logs 17, 20. -/
def Obligations.ExitAndDoneResults : Prop :=
  (∀ (l : Short) (s s2 : State) (k : Here),
    let i := Instr.exit l
    let m := k.condLanes
    let fin (s : State) : State := s.modGroup k.team.uid k.grp.gid fun h => h.endLanes k.sp m
    s.ready i = some k →
    (m = 0 → exec i s = .next (s.issued i k)) ∧
    (k.grp.inHandler = true → exec i s = .next (fin (s.issued i k))) ∧
    (k.grp.inHandler = false → m ≠ 0 → (s.issued i k).returnWeights k m = .ok s2 →
      exec i s = .next ((fin (s2.leaveConv k.team.uid k.grp.gid)).noteEnd k.team.uid)) ∧
    (k.weighted m = [] → (s.issued i k).returnWeights k m = .ok (s.issued i k))) ∧
  (∀ (h : Group) (p : Split) (m : LaneMask), h.split? p.id = some p → m ≠ 0 →
    (p.lanes &&& ~~~m ≠ 0 → (h.endLanes p m).split? p.id = some { p with lanes := p.lanes &&& ~~~m }) ∧
    (p.lanes &&& ~~~m = 0 → (h.endLanes p m).split? p.id = p.resume p.stack) ∧
    ∀ j, j ≠ p.id → (h.endLanes p m).split? j = h.split? j) ∧
  ∀ (l : Short) (s s2 : State) (k : Here),
    let i := Instr.done l
    s.ready i = some k → k.grp.tidy = true → (s.issued i k).returnWeights k k.mask = .ok s2 →
    exec i s = .next s2 ∧ ∀ h, s2.group? k.team.uid k.grp.gid = some h →
      h.splits = (k.issued i).splits ∧ h.v = k.grp.v ∧ h.g = k.grp.g ∧ h.p = k.grp.p ∧
      ∀ lane, lane < 32 → SMap.get h.weight lane = if k.mask.getLsbD lane then 0 else SMap.get k.grp.weight lane

/-! ### The fabric -/

/-- R294, R295, R326, R328, R172, R186, R145, R373: coll.put, coll.get and coll.red with naturally aligned addresses, whose lanes that
name this device can be accessed and whose other lanes name devices of the topology. Its accesses are a packet for each peer and
256-byte region, with the lanes in ascending order, or, where it has an acquire or a release, for each run of such lanes; and one for
each lane that names this device. A put or red without an acquire puts them into the group's store queue; a get, or one with an
acquire, leaves a result with them, which LONG_LATENCY_RESULT performs. Nothing else changes but what the walks leave
(LoadResults). A misaligned lane traps with 0x10, and a peer outside the topology with 0x19.
Where the rules leave a point open it states the model's choice: assumption logs 24, 67, 70. -/
def Obligations.CollResults : Prop :=
  (∀ row ∈ Claims.collTable, ∀ (l : Long) (s : State) (k : Here) (sites : List Site),
    let i := row.1 l
    let ty := atomTyOf (ctlType k.f.c)
    let op := atomOpOf (ctlOp k.f.c)
    let n := atomSize ty
    let lanes := laneList k.mask
    let own := s.fabric.deviceId.toNat
    let near := lanes.filter fun lane => k.collPeer lane = own
    let acq := acqScope k.f
    let rel := relScope k.f
    let known (lane : Nat) : Prop := (s.fabric.topology.any fun e => e.1 = k.collPeer lane) = true
    s.ready i = some k →
    ((∃ lane ∈ lanes, (k.collAddr lane).toNat % n ≠ 0) →
      exec i s = .next (s.raise k.team.uid k.grp.gid (some k.sp.id) 0x10 k.sp.pc)) ∧
    ((∀ lane ∈ lanes, (k.collAddr lane).toNat % n = 0) →
      (s.issued i k).probes k true (if row.2 = 1 then .read else .write) n (fun loc => if row.2 = 2 then atomTarget op ty loc else none)
        (near.map fun lane => (lane, n, k.collAddr lane)) = .ok sites →
      ((∃ lane ∈ lanes, k.collPeer lane ≠ own ∧ ¬known lane) →
        exec i s = .next (s.raise k.team.uid k.grp.gid (some k.sp.id) 0x19 k.sp.pc)) ∧
      ((∀ lane ∈ lanes, k.collPeer lane ≠ own → known lane) →
        let s0 := (s.issued i k).noteSites k true sites
        let out := k.collSites own (acq.isSome || rel.isSome) sites
        ∃ t, exec i s = .next t ∧ Claims.SameMemory s0 t ∧ Claims.SamePlatform s0 t k ∧ t.fabric = s0.fabric ∧
          (row.2 ≠ 1 → acq = none → ∃ q,
            t.group? k.team.uid k.grp.gid = some { k.issued i with queue := k.grp.queue ++ q } ∧
            q.map (fun e => (e.va, e.loc, e.op, e.rel)) = out.map fun e => (e.1.va, e.1.loc,
              (if e.2 ≠ [] then QOp.packet k.f.c row.2 e.2
                else if row.2 = 2 then .reduce op ty (k.collData e.1.lane) else .write (leBytes n (k.collData e.1.lane).toNat)), rel)) ∧
          (row.2 = 1 ∨ acq ≠ none → ∃ r,
            t.group? k.team.uid k.grp.gid = some { k.issued i with results := (k.issued i).results ++ [r] } ∧ r.uid = s.uid ∧
            r.owners = [k.sp.id] ∧ r.window = k.f.la.toNat ∧ r.waits = [] ∧ r.raw = [] ∧ r.fail = none ∧ r.done = false ∧
            r.dests = (if row.2 = 1 then k.dests (n / 4) else []) ∧ r.acq = acq ∧ r.rel = rel ∧
            r.kind = .loaded (if row.2 ≠ 1 then 7 else if n = 8 then 5 else 4) false k.f.d.toNat ∧
            r.pend.map Pend.idx = List.range out.length ∧
            r.pend.map (fun a => (a.lane, a.va, a.n, a.loc, a.op)) = out.map fun e => (e.1.lane, e.1.va, e.1.n, e.1.loc,
              if e.2 ≠ [] then PendOp.packet k.f.c row.2 e.2
              else if row.2 = 1 then .fresh else .atomic op ty (k.collData e.1.lane) 0))))) ∧
  ∀ (key : Nat → Nat × Nat) (lanes : List Nat), lanes.Pairwise (· < ·) →
    let one (bs : List (List Nat)) : Prop := ∀ b ∈ bs, b ≠ [] ∧ b.Pairwise (· < ·) ∧ ∀ x ∈ b, ∀ y ∈ b, key x = key y
    let packed := bundlesOf false key lanes
    one packed ∧ packed.flatten.Perm lanes ∧ (packed.Pairwise fun b c => ∀ x ∈ b, ∀ y ∈ c, key x ≠ key y) ∧
      one (bundlesOf true key lanes) ∧ (bundlesOf true key lanes).flatten = lanes

/-- R296, R330 to R332, R334, R337, R373, R416: gcoll reads its descriptor, and starts a collective of its communicator with the
next number of it, whose planner has packets for this rank's ports; packets that came before it are taken up, and what was kept of an ended one of the
same number goes. A descriptor
with reserved or inconsistent fields traps with 0x19, and a communicator that has failed fails the new collective.
Where the rules leave a point open it states the model's choice: assumption logs 24, 56. -/
def Obligations.CollectiveStarts : Prop :=
  ∀ row ∈ Claims.gcollTable, ∀ (l : Long) (s s1 : State) (k : Here) (d : List DWord),
    let i := row.1 l
    let s0 := s.issued i k
    let c0 : Coll := {
      uid := s1.uid, ctx := k.team.ctx, grid := k.team.grid,
      gridId := ((s.grid? k.team.grid).map fun g => g.gridId).getD 0, op := row.2, desc := d, seq := 0, map := [],
      deadline := s1.devclk.toNat + s1.collTimeout, planning := [], plan := [], seen := [], inbox := [], kept := [],
      scaled := [], sent := [], finals := [], smax := [], sats := 0, stage := 0, failing := none, stalled := false }
    let old := s1.fabric.comms.find? fun m => m.ctx = k.team.ctx && m.commId = c0.commId
    let c1 : Coll := { c0 with seq := ((old.map Comm.next).getD 0 : Half) }
    s.ready i = some k → (s0.colls.filter fun c => c.stage < 3).length < 16 → s0.released k 8 = true →
    s0.blinded k.team.uid k.grp.gid = false → s0.commDesc k = .ok (d, s1) →
    (collDescBad c0 = true → exec i s = .next (s.raise k.team.uid k.grp.gid (some k.sp.id) 0x19 k.sp.pc)) ∧
    (collDescBad c0 = false → ∃ (t : State) (c : Coll), { c with planning := [] } = c1 ∧
      (∀ p ∈ c.planning, p.source = s1.fabric.deviceId ∧ p.commId = c1.commId ∧ p.seq = c1.seq ∧ p.fromRank.toNat = c1.rank) ∧
      (c.planning.head?.map fun p => p.chunk) = some 0 ∧
      { t with fabric := s1.fabric } = ({ s1.fresh with
        colls := (s1.colls.filter fun x => !(x.stage = 3 && x.ctx = c.ctx && x.commId = c.commId && x.seq = c.seq)) ++ [c] } : State) ∧
      { t.fabric with comms := [] } = { s1.fabric with comms := [] } ∧
      ((t.fabric.comms.find? fun m => m.ctx = k.team.ctx && m.commId = c0.commId).map fun m => (m.next, m.failed)) =
        some ((old.map Comm.next).getD 0 + 1, (old.map Comm.failed).getD false) ∧
      exec i s = .next (if (old.map Comm.failed).getD false then t.failColl s1.uid 5 else t.takeEarly c) ∧
      (s1.fabric.early = [] → t.takeEarly c = t))

/-- R107, R108, R325, R327, R328, R406, R413, R415: requests of peers. One that was completed before gets the response kept for
it; one whose job no context has, or whose address does not exist, is refused, and so is a PUT, GET or REMOTE_REDUCTION with a
lane that its job may not access or whose page reaches an address that does not exist; lines that it finds under another key are
written back and dropped (R112); one that meets poison in what it reads gets
a poisoned response; a read, write, atomic, PUT, GET or REMOTE_REDUCTION is otherwise performed, lane by lane in the packet's order,
and its response is kept and leaves.
Where the rules leave a point open it states the model's choice: assumption logs 33, 61, 66. -/
def Obligations.PeerRequestResults : Prop :=
  (∀ (r : PeerReq) (s : State),
    let n := peerAskSize r.ask
    let src := r.source.toNat
    let loc : Loc := .mem r.pa none .home
    let done (s : State) : State := s.protectPlaces [(loc, n)]
    (∀ a, s.kept? src r.tag = some a → exec (.peerAccessRequest r) s = .next (s.respond none src r.tag a)) ∧
    (s.kept? src r.tag = none →
      (s.ctxOf r.job = none → exec (.peerAccessRequest r) s = .next (s.refuse src r.tag)) ∧
      ∀ c, s.ctxOf r.job = some c →
        (s.pageExists r.pa = false ∨ s.pageExists (r.pa + (n - 1)) = false →
          exec (.peerAccessRequest r) s = .next (s.refuse src r.tag)) ∧
        (s.pageExists r.pa = true → s.pageExists (r.pa + (n - 1)) = true →
          (s.servedLater loc n = true → exec (.peerAccessRequest r) s = .next s) ∧
          (s.servedLater loc n = false →
            ((∀ b, r.ask ≠ .write b) → s.poisoned r.pa n = true → exec (.peerAccessRequest r) s =
              .next ((s.poisonServed c.id r.pa).complete none src r.tag .poisoned)) ∧
            (∀ m, r.ask = .read m → s.poisoned r.pa n = false →
              exec (.peerAccessRequest r) s = .next ((s.rekeyMem none r.pa n).complete none src r.tag (.data (s.peek loc n)))) ∧
            (∀ b, r.ask = .write b →
              exec (.peerAccessRequest r) s = .next ((done (s.placeBytes loc b)).complete none src r.tag (.data []))) ∧
            ∀ op ty b sv, r.ask = .atomic op ty b sv → s.poisoned r.pa n = false →
              exec (.peerAccessRequest r) s = .next
                (((match atomNew op ty (leNat (s.peek loc n)) (b.toNat % 2 ^ (8 * n)) (sv.toNat % 2 ^ (8 * n)) with
                  | some x => done (s.placeBytes loc (leBytes n x))
                  | none => s.rekeyMem none r.pa n) : State).complete none src r.tag (.data (leBytes n (leNat (s.peek loc n))))))))) ∧
  (∀ (p : CollPacket) (s : State),
    let ty := atomTyOf (ctlType p.ctl)
    let op := atomOpOf (ctlOp p.ctl)
    let n := atomSize ty
    let src := p.source.toNat
    let held (l : List (LanePart × Loc)) : Prop := (l.any fun e => s.servedLater e.2 n) = true
    let done (l : List (LanePart × Loc)) (s : State) : State := s.protectPlaces (l.map fun e => (e.2, n))
    let found (ctx : Nat) (l : List (LanePart × Loc)) : State := s.rekeySpans ctx (l.map fun e => (p.base + BitVec.ofNat 64 e.1.offset, n))
    s.kept? src p.tag = none →
    (∀ row ∈ [(Instr.put p, true), (.get p, false), (.remoteReduction p, true)],
      (s.ctxOf p.job = none → exec row.1 s = .next (s.refuse src p.tag)) ∧
      ∀ c, s.ctxOf p.job = some c →
        let place (q : LanePart) := s.probe c.id (p.base + BitVec.ofNat 64 q.offset) (if row.2 then .write else .read)
        (∀ q ∈ p.parts, place q ≠ .held) → (∃ q ∈ p.parts, ∃ code, place q = .cause code ∨ place q = .replay code) →
          exec row.1 s = .next (s.refuse src p.tag)) ∧
    (∀ ctx l, s.packetPlaces p true (fun _ => false) = .ok (ctx, l) →
      (held l → exec (.put p) s = .next s) ∧
      (¬held l → exec (.put p) s = .next ((done l
        (l.foldl (fun s e => s.placeBytes e.2 (leBytes n e.1.data.toNat)) (found ctx l))).complete none src p.tag (.data [])))) ∧
    (∀ ctx l, s.packetPlaces p false (fun _ => false) = .ok (ctx, l) →
      (held l → exec (.get p) s = .next s) ∧
      (∀ e, ¬held l → (l.find? fun e => s.locPoisoned e.2 n) = some e →
        exec (.get p) s = .next ((s.poisonServed ctx e.2.addr).complete none src p.tag .poisoned)) ∧
      (¬held l → (l.find? fun e => s.locPoisoned e.2 n) = none → exec (.get p) s =
        .next ((found ctx l).complete (some p) src p.tag (.data (l.flatMap fun e => leBytes 8 (leNat ((found ctx l).peek e.2 n))))))) ∧
    ∀ ctx l, s.packetPlaces p true (fun l => (atomTarget op ty l).isSome) = .ok (ctx, l) →
      (held l → exec (.remoteReduction p) s = .next s) ∧
      (∀ e, ¬held l → (l.find? fun e => s.locPoisoned e.2 n) = some e →
        exec (.remoteReduction p) s = .next ((s.poisonServed ctx e.2.addr).complete none src p.tag .poisoned)) ∧
      (¬held l → (l.find? fun e => s.locPoisoned e.2 n) = none → exec (.remoteReduction p) s = .next ((done l
        (l.foldl (fun s e => match atomNew op ty (leNat (s.peek e.2 n)) (e.1.data.toNat % 2 ^ (8 * n)) 0 with
          | some x => s.placeBytes e.2 (leBytes n x)
          | none => s) (found ctx l))).complete none src p.tag (.data [])))) ∧
  (∀ (s : State) (c : Ctx) (va e : DWord), pteKey e = 0 →
    pteLoc e = 0 ∨ (pteLoc e = 1 ∧ pteHdev e = s.fabric.deviceId.toNat) →
    s.pageExists (ptePfn e + va.toNat % 2 ^ pageShift (ptePS e)) = false → s.placeOf c va e = .cause 0x15) ∧
  ∀ (s : State) (get : Option CollPacket) (src tag : Nat) (a : Response), (s.complete get src tag a).kept? src tag = some a ∧
    (s.complete get src tag a).storage = s.storage ∧ (s.refuse src tag).kept? src tag = some .failure ∧
    (s.refuse src tag).storage = s.storage

/-- R187, R329, R406, R413 to R415, R418: answers to this device's requests. Data reach the result that waits, or the agent that
asked; a write or atomic that went over a host link that was down is performed at the host with its answer, once the link is up; a
failure or a poisoned response, or a time that is over, gives cause 0x17 or 0x16, or whatever the agent does on it.
A port's new state is recorded, where it is fitted, and a request that went by a port now down leaves again by another port of
its set.
Where the rules leave a point open it states the model's choice: assumption logs 21, 22. -/
def Obligations.AnswersAndPorts : Prop :=
  (∀ (tag : Nat) (s : State) (q : Request), s.request? tag = some q → (q.dev.isSome = true ∨ s.host.linkUp = true) →
    let s1 := s.dropRequest q.tag
    let performed (b : List Byte) : State := (s.performAtHost q b).dropRequest q.tag
    let c17 (known : Bool) := failCause q.use.va q.dev q.port known
    let c16 := poisonedCause q.use.va q.dev q.port
    let fails (t g uid : Nat) (c : LateCause) : State := s1.modResult t g uid fun x => { x with
      waits := x.waits.filter (· ≠ q.tag), fail := some (x.fail.getD c) }
    (∀ b t g uid idx lane va, q.use = .load t g uid idx lane va → (∀ x y z, q.ask ≠ .coll x y z) →
      exec (.peerResponse tag (.data b)) s = .next ((performed b).modResult t g uid fun x => { x with
        waits := x.waits.filter (· ≠ q.tag), raw := x.raw ++ [(idx, lane, b)] })) ∧
    (∀ b t g p e w va pc, q.use = .store t g p e w va pc → exec (.peerResponse tag (.data b)) s = .next (performed b)) ∧
    (∀ b key va, q.use = .read key va →
      exec (.peerResponse tag (.data b)) s = .next ((performed b).keepAnswer key va q.port (some (.data b))) ∧
      exec (.peerResponse tag .failure) s = .next (s1.keepAnswer key va q.port (some .failure)) ∧
      exec (.peerResponse tag .poisoned) s = .next (s1.keepAnswer key va q.port (some .poisoned))) ∧
    (∀ t g uid idx lane va, q.use = .load t g uid idx lane va →
      exec (.peerResponse tag .failure) s = .next (fails t g uid (c17 true)) ∧
      exec (.peerResponse tag .poisoned) s = .next (fails t g uid c16)) ∧
    (∀ t g p e w va pc, q.use = .store t g p e w va pc →
      let s2 := if w then s1.loseWindowWrite t e else s1
      exec (.peerResponse tag .failure) s = .next (s2.lateFrom t g (some p) pc (c17 true)) ∧
      exec (.peerResponse tag .poisoned) s = .next (s2.lateFrom t g (some p) pc c16) ∧
      (s.overdue q = true → exec (.peerTimeout tag) s = .next (s2.lateFrom t g (some p) pc (c17 false)))) ∧
    (∀ key va, q.use = .write key va → (∀ b, exec (.peerResponse tag (.data b)) s = .next (performed b)) ∧
      exec (.peerResponse tag .failure) s = .next (s1.engineWriteFails key.2 (c17 true))) ∧
    (∀ ctl form parts data t g uid idx lane va, q.ask = .coll ctl form parts → q.use = .load t g uid idx lane va →
      exec (.getResponse tag data) s = .next (s1.modResult t g uid fun x => { x with
        waits := x.waits.filter (· ≠ q.tag),
        raw := x.raw ++ parts.zipIdx.map fun p => (idx + p.2, p.1.lane,
          ((data.flatMap fun d => leBytes 8 d.toNat).drop (8 * p.2)).take 8) })) ∧
    (s.overdue q = false → exec (.peerTimeout tag) s = .next s) ∧
    (s.overdue q = true → ∀ t g uid idx lane va, q.use = .load t g uid idx lane va →
      exec (.peerTimeout tag) s = .next (fails t g uid (c17 false)))) ∧
  (∀ (tag : Nat) (r : Response) (s : State) (q : Request), s.request? tag = some q → q.dev = none → s.host.linkUp = false →
    exec (.peerResponse tag r) s = .next s) ∧
  (∀ (s : State) (q : Request) (b : List Byte),
    (q.dev ≠ none ∨ (∃ n, q.ask = .read n) → s.performAtHost q b = s) ∧
    (∀ d, q.dev = none → q.ask = .write d → s.performAtHost q b = s.hostWrite q.addr d) ∧
    (∀ parts, q.dev = none → q.ask = .masked parts →
      s.performAtHost q b = parts.foldl (fun s p => s.hostWrite (q.addr + p.1) p.2) s) ∧
    ∀ op ty x sv y, q.dev = none → q.ask = .atomic op ty x sv →
      atomNew op ty (leNat (b.take (atomSize ty))) (x.toNat % 2 ^ (8 * atomSize ty)) (sv.toNat % 2 ^ (8 * atomSize ty)) = y →
      s.performAtHost q b = match y with
        | some z => s.hostWrite q.addr (leBytes (atomSize ty) z)
        | none => s) ∧
  ∀ (port : Nat) (st : PortState) (s : State), port < 36 → s.fabric.ports.length = 36 → s.fabric.ports.getD port .down ≠ st →
    (st ≠ .down → portsFitted = false → exec (.portStateChange port st) s = .next s) ∧
    (st = .down ∨ portsFitted = true →
      ∃ t, exec (.portStateChange port st) s = .next t ∧ t.fabric.ports.getD port .down = st ∧
        (∀ p, p ≠ port → t.fabric.ports.getD p .down = s.fabric.ports.getD p .down) ∧
        (st = .up ∨ (st = .slow ∧ s.colls = []) → t.fabric.requests = s.fabric.requests ∧ t.storage = s.storage ∧ t.groups = s.groups) ∧
        (st = .down → s.colls = [] → ∀ q d, s.fabric.requests = [q] → q.dev = some d → q.port = port →
          t.portsTo d ≠ [] → ∃ p ∈ t.portsTo d, t.fabric.requests = [{ q with port := p }] ∧
            .request { q with port := p } ∈ t.fabric.outbox))

/-- R325, R327, R332, R335, R337 to R341, R413 to R417: chunk packets. One whose job no context has is refused; one of a collective that
a forced reset has ended gets no response; every other is answered. One that this rank's collective has seen, or that comes after it
and is no FORWARD, is credited and nothing else; one that comes before it is kept; a poisoned one fails the collective with reason 2,
one that does not fit the descriptor with reason 5; any other waits for its chunk's step. A chunk's steps: FORWARD's data go on
unchanged to the rank that this rank's sums go to, also when the collective is over here; FINAL's are written into the
destination buffer once; once the packets of the ranks that the plan names have come, they and this rank's contribution are
added and go to the rank that the plan names, or at the last rank into its buffer and to the others; and the larger scale codes
go before them up and down the same plan. In CANON a rank adds exactly the sums of the ranks that send theirs to it; RSH
rounds to nearest, ties to even.
Where the rules leave a point open it states the model's choice: assumption logs 24, 68. -/
def Obligations.ChunkPacketResults : Prop :=
  (∀ row ∈ Claims.chunkTable, ∀ (p : Chunk) (s : State),
    let src := p.source.toNat
    let s1 := s.respond none src p.tag (.data [])
    let mark := (p.chunk.toNat, p.stepNo.toNat, p.fromRank.toNat)
    (s.ctxOf p.job = none → exec (row.1 p) s = .next (s.refuse src p.tag)) ∧
    ∀ x, s.ctxOf p.job = some x →
      (s.collOf p = none → s.collPast p = true → exec (row.1 p) s = .next s) ∧
      (s.collOf p = none → s.collPast p = false → (row.2, p) ∉ s.fabric.early →
        exec (row.1 p) s = .next { s1 with fabric := { s1.fabric with early := s1.fabric.early ++ [(row.2, p)] } }) ∧
      (s.collOf p = none → s.collPast p = false → (row.2, p) ∈ s.fabric.early → exec (row.1 p) s = .next s1) ∧
      ∀ c, s.collOf p = some c →
        (c.failing ≠ none ∨ (c.stage = 3 ∧ row.2 ≠ 0) → exec (row.1 p) s = .next (s1.creditChunk c c.map p)) ∧
        (c.failing = none → (c.stage = 3 → row.2 = 0) →
          (mark ∈ c.seen → (∃ e ∈ c.inbox, e.2 = p) → exec (row.1 p) s = .next s1) ∧
          (mark ∈ c.seen → (∀ e ∈ c.inbox, e.2 ≠ p) → exec (row.1 p) s = .next (s1.creditChunk c c.map p)) ∧
          (mark ∉ c.seen → p.poison = true → exec (row.1 p) s = .next (s1.failColl c.uid 2)) ∧
          (mark ∉ c.seen → p.poison = false → c.fits row.2 p = false → exec (row.1 p) s = .next (s1.failColl c.uid 5)) ∧
          (mark ∉ c.seen → p.poison = false → c.fits row.2 p = true → exec (row.1 p) s = .next
            ((s1.modColl c.uid fun c => { c with
              inbox := c.inbox ++ [(row.2, p)], seen := c.seen ++ [mark],
              deadline := s.devclk.toNat + s.collTimeout }).workChunk c.uid p.chunk.toNat 8)))) ∧
  (∀ (u k n : Nat) (s : State) (c : Coll) (map : List Nat), s.coll? u = some c → c.stalled = false → c.failing = none →
    c.map = map → map ≠ [] → (∀ x ∈ s.colls, x.uid = u → x = c) →
    let ints (e : Nat × Chunk) : List Int := c.ofPayload e.1 e.2.payload
    let took (s : State) (l : List (Nat × Chunk)) : State := l.foldl (fun s e => s.consume c map e) s
    let goes (t : State) : Prop := s.workChunk u k (n + 1) = t.workChunk u k n
    let sends (t : State) : State := t.modColl u fun c => { c with sent := k :: c.sent }
    (c.next k = .none → s.workChunk u k (n + 1) = s) ∧
    (c.stage ≠ 0 → (∀ e r, c.next k ≠ .pass e r) → s.workChunk u k (n + 1) = s) ∧
    (∀ e, c.next k = .pass e none → goes (took s [e])) ∧
    (∀ e r, c.next k = .pass e (some r) → goes (took
      (s.sendPacket c map 0 r (s.packetOf c e.2.chunk.toNat e.2.stepNo.toNat e.2.xw e.2.payload)) [e])) ∧
    (c.stage = 0 →
      (∀ e s1, c.next k = .write e → s.writeFinal c k (ints e) = .ok s1 → goes (took s1 [e])) ∧
      (∀ own s1 s2, c.next k = .share → s.contribution c k = .ok (own, s1) → s1.writeFinal c k own = .ok s2 →
        goes (sends (s2.sendAll c map k 2 3 own (c.others k)))) ∧
      (∀ l st own s1, c.next k = .sum l st → s.contribution c k = .ok (own, s1) →
        let mine := if c.mxSum then ownSum ((c.scales k).getD []) own else own
        let total := l.foldl (fun a e => c.addData a (ints e)) mine
        (∀ r, st = some r → goes ((sends (took s1 l)).sendAll c map k 1 2 total [r])) ∧
        ∀ s2, st = none → s1.writeFinal c k total = .ok s2 →
          goes ((sends (took s2 l)).sendAll c map k 2 3 total (c.others k))) ∧
      (∀ l st children own s1, c.next k = .scalesUp l st children → s.contribution c k = .ok (own, s1) →
        let mx := l.foldl (fun a e => List.zipWith max a (ints e)) (scaleCodes own)
        let s2 := (took s1 l).modColl u fun c => { c with scaled := k :: c.scaled }
        (∀ r, st = some r → goes (s2.sendAll c map k 3 0 mx [r])) ∧
        (st = none → goes ((s2.sendAll c map k 3 1 mx children).modColl u fun c => c.learn k mx))) ∧
      ∀ e children, c.next k = .scalesDown e children →
        goes (((took s [e]).modColl u fun c => c.learn k (ints e)).sendAll c map k 3 1 (ints e) children))) ∧
  (∀ (c : Coll) (k : Nat) (va : DWord) (s : State) (ps : List PutPiece) (d : List Int), c.finals.contains k = false →
    c.dstVa k = some va → s.putPlan c.ctx va (c.finalBytes d).1 = .ok ps → s.writeFinal c k d =
      .ok ((s.putAll (s.job c.ctx) c.key ps).2.modColl c.uid fun c => { c with
        finals := k :: c.finals, sats := c.sats + (c.finalBytes d).2 })) ∧
  (∀ p r x : Nat, x < p → p ≤ 1024 → (canonParent x = some r ↔ x ∈ canonChildren p r)) ∧
  ∀ (v : Int) (d : Nat), 2 * |rsh v d * 2 ^ d - v| ≤ 2 ^ d ∧ (2 * |rsh v d * 2 ^ d - v| = 2 ^ d → rsh v d % 2 = 0)

/-- R327, R334 to R339, R416, R417: PLAN sets up this rank's steps, as its packet says; CHUNK_CREDIT frees what was kept for its
sender; COLLECTIVE_COMPLETE, once MAP is read, goes on with a chunk that can, and, once every chunk is written and sent, adds the
saturation count, then writes TAG to DONE after everything else, and the collective is over; for one that has failed it writes the
mark; one that waits for a rank that cannot be reached fails;
COLLECTIVE_TIMEOUT fails a collective for which no chunk has arrived in time.
The planners of all ranks choose one: the steps of the ranks agree on who sends its sums to whom,
and a rank's step in it follows from what every rank knows. In deterministic mode none is planned anew; otherwise, when a port loses
bandwidth, the chunks that have not completed are, or where it is not down those that have not begun. A rank that a collective
waits for and cannot reach fails it, with reason 3 where the plan is fixed and joins the two, else with reason 1.
Where the rules leave a point open it states the model's choice: assumption log 24. -/
def Obligations.CollectiveSteps : Prop :=
  (∀ (p : Chunk) (s : State),
    ((s.colls.find? fun c => c.planning.contains p) = none → exec (.plan p) s = .next s) ∧
    ∀ c, (s.colls.find? fun c => c.planning.contains p) = some c →
      exec (.plan p) s = .next (s.modColl c.uid fun c => { c with planning := c.planning.erase p, plan := c.plan ++ [planOf p] })) ∧
  (∀ (p : Chunk) (e : PlanStep), p.payload = planPayload e → p.chunk.toNat = e.first →
    (∀ r, r ∈ e.children ∨ e.parent = some r → r < 1024) → planOf p = e) ∧
  (∀ (p : Chunk) (s : State) (c : Coll), s.collOf p = some c → s.coll? c.uid = some c →
    ∃ t, exec (.chunkCredit p) s = .next t ∧ { t with colls := s.colls } = s ∧ t.coll? c.uid = some
      { c with kept := c.kept.filter fun e =>
        !(e.packet.chunk = p.chunk && e.packet.stepNo = p.stepNo && e.dev = p.source.toNat) }) ∧
  (∀ (u : Nat) (s : State) (c : Coll), s.coll? u = some c →
    let idle := ∀ k, k < c.chunks → c.next k = .none
    (c.stage = 0 → c.failing = none → 2 ≤ c.ranks → c.whole = false →
      (c.deadline ≤ s.devclk.toNat → exec (.collectiveTimeout u) s = .next (s.failColl u 4)) ∧
      (s.devclk.toNat < c.deadline → exec (.collectiveTimeout u) s = .next s)) ∧
    (c.map ≠ [] → c.stalled = false → c.failing = none → c.stage = 0 →
      (∀ r, c.whole = false → s.cutFrom c c.map = some r → exec (.collectiveComplete u) s = .next (s.cutOff c r)) ∧
      (c.whole = true ∨ s.cutFrom c c.map = none →
        (∀ k, k < c.chunks → c.next k ≠ .none → (∀ j, j < k → c.next j = .none) →
          exec (.collectiveComplete u) s = .next (s.workChunk u k 8)) ∧
        (idle → c.whole = false → exec (.collectiveComplete u) s = .next s) ∧
        ∀ ps, idle → c.whole = true → s.keyBusy c.key = false →
          s.putPlan c.ctx (c.dword 5) (leBytes 8 (c.dword 7).toNat) = .ok ps →
          (∀ l, c.dword 6 ≠ 0 → s.countPlace c.ctx (c.dword 6) = .ok l → exec (.collectiveComplete u) s = .next
            (((s.addCount (s.job c.ctx) c.key (c.dword 6) l c.sats).2.modColl u fun c => { c with stage := 1 }).finishColl u)) ∧
          (c.dword 6 = 0 → (∀ p ∈ ps, s.isRemote p.loc = false) → exec (.collectiveComplete u) s = .next
            (((s.modColl u fun c => { c with stage := 1 }).writeBackAll.putAll (s.job c.ctx) c.key ps).2.endColl u)))) ∧
    ∀ ps, c.stalled = false → c.failing ≠ none → c.stage < 2 → s.keyBusy c.key = false →
      s.putPlan c.ctx (c.dword 5) (leBytes 8 (c.dword 7 ^^^ 0x8000000000000000).toNat) = .ok ps →
      (∀ p ∈ ps, s.isRemote p.loc = false) →
      exec (.collectiveComplete u) s = .next ((s.writeBackAll.putAll (s.job c.ctx) c.key ps).2.endColl u)) ∧
  (∀ (det : Bool) (p r q pick first : Nat), r < p → q < p → p ≤ 1024 →
    ((planStepOf det p r pick first).parent = some q ↔ r ∈ (planStepOf det p q pick first).children)) ∧
  (∀ (s s' : State) (c c' : Coll) (first : Nat), s.pod = s'.pod → c'.det = c.det → c'.ranks = c.ranks → c'.commId = c.commId →
    c'.seq = c.seq → ∃ pick, s.planAt c first = planStepOf c.det c.ranks c.rank pick first ∧
      s'.planAt c' first = planStepOf c.det c.ranks c'.rank pick first) ∧
  (∀ (s : State) (c : Coll) (which : Nat → Bool),
    (c.det = true → s.replan c which = s) ∧
    (c.det = false → c.stage = 0 → c.failing = none → s.replan c which = s.modColl c.uid fun x => { x with
      planning := x.planning ++ s.planPackets c fun k => decide (k < c.chunks) && which k })) ∧
  ∀ (s : State) (c : Coll) (port : Nat) (down : Bool), s.coll? c.uid = some c → c.failing = none →
    (∀ r, s.cutFrom c c.map = some r → s.portWorse port down c.uid = s.failColl c.uid (if c.det && c.joins r then 3 else 1)) ∧
    (s.cutFrom c c.map = none ↔ ∀ r, r < c.map.length → r ≠ c.rank → s.reachable (c.map.getD r 0) = true) ∧
    (s.cutFrom c c.map = none →
      (down = true → s.portWorse port down c.uid = (s.resendChunks port c).replan c fun k => !c.finished k) ∧
      (down = false → s.portWorse port down c.uid = s.replan c fun k => !c.begun k))

/-! ### Streams -/

/-- R81 to R83, R121, R155, R387, R388, R440: every command completes, and its stream goes on at the next one, 32 bytes on, or at
its target: NOP, LOOP (the counter goes down by one while it is not 0), BRANCH and WAITPH on the dword they read, SIGNAL once what
the stream wrote before is at the protected point, FENCE once everything is, SEED; WAITPH_POLL reads again; STOP stops the stream
without error. A command with a reserved field that is not zero stops it with error 2, one with a misaligned address with error 4,
a reserved OPC or SUB with error 1; one that has to wait for earlier launches and copies is left as it is. A dword on a page of
this device's memory is read as memory holds it, which writes back a line held under another key (R112), and written there. The stream of a context that drains stops at its next
command.
Where the rules leave a point open it states the model's choice: assumption log 31. -/
def Obligations.CommandResults : Prop :=
  (∀ row ∈ Claims.commandTable, ∀ (c : Command) (s : State) (n : Nat), s.issuer = .stream n → (s.stream n).running = true →
    (s.stream n).wait = .none → c.arg1 ≠ 0 ∨ c.rsv ≠ 0 → exec (row c) s = .next (Claims.stops s n 2)) ∧
  (∀ (c : Command) (s : State) (n : Nat), s.issuer = .stream n → (s.stream n).running = true → (s.stream n).wait = .none →
    exec (.reservedCommand c) s = .next (Claims.stops s n 1)) ∧
  (∀ (c : Command) (s : State) (n : Nat),
    let x := s.stream n
    let next (t : State) : Host.Outcome State Fault Refusal := .next (t.advance n (x.pc + 32) c.irq)
    let waits (i : Instr) (asks : Bool) : Prop := asks = true → s.streamQuiet n = false →
      exec i s = .next (if s.draining n then s.haltStream n else s)
    Claims.CommandReady s c n →
    (c.c1 ≠ 0 ∨ c.c2 ≠ 0 ∨ c.c3 ≠ 0 → ∀ i ∈ [Instr.nopCommand c, .fenceCommand c, .stop c], exec i s = .next (Claims.stops s n 2)) ∧
    (c.c1 = 0 → c.c2 = 0 → c.c3 = 0 →
      waits (.nopCommand c) c.wait ∧ waits (.stop c) c.wait ∧ waits (.fenceCommand c) true ∧
      (Claims.waited s n c.wait → exec (.nopCommand c) s = next s ∧ exec (.stop c) s = .next (Claims.stops s n 0)) ∧
      (Claims.waited s n true → exec (.fenceCommand c) s = next s.writeBackAll)) ∧
    (c.c2 ≠ 0 ∨ c.c3 ≠ 0 → exec (.seed c) s = .next (Claims.stops s n 2)) ∧
    (c.c2 = 0 → c.c3 = 0 → waits (.seed c) c.wait ∧
      (Claims.waited s n c.wait → exec (.seed c) s = next (s.modCtx x.ctx fun y => { y with srseed := c.c1 }))) ∧
    (c.c3 ≠ 0 → exec (.loop c) s = .next (Claims.stops s n 2) ∧ exec (.signal c) s = .next (Claims.stops s n 2)) ∧
    (c.c3 = 0 → c.c1.toNat % 8 ≠ 0 ∨ c.c2.toNat % 32 ≠ 0 → exec (.loop c) s = .next (Claims.stops s n 4)) ∧
    (c.c3 = 0 → c.c1.toNat % 8 = 0 → c.c2.toNat % 32 = 0 → waits (.loop c) c.wait ∧
      ∀ w s0, Claims.waited s n c.wait → s.cpDword n c.c1 0xFFFFFFFF = .ok (w, s0) →
        (w = 0 → exec (.loop c) s = next s0) ∧
        ∀ s1, w ≠ 0 → s0.cpPut n c.c1 (.write (leBytes 8 (w - 1).toNat)) 0xFFFFFFFF = .ok s1 →
          exec (.loop c) s = .next (s1.advance n c.c2 c.irq)) ∧
    (c.c3.toNat % 32 ≠ 0 ∨ (c.sub ≠ 4 ∧ c.c1.toNat % 8 ≠ 0) → exec (.branch c) s = .next (Claims.stops s n 4)) ∧
    (c.c3.toNat % 32 = 0 → (c.sub ≠ 4 → c.c1.toNat % 8 = 0) → waits (.branch c) c.wait ∧ (Claims.waited s n c.wait →
      (c.sub = 4 → exec (.branch c) s = .next (s.advance n c.c3 c.irq)) ∧
      ∀ w s0, c.sub ≠ 4 → s.cpDword n c.c1 0xFFFFFFFF = .ok (w, s0) →
        (Claims.comparison c.sub w c.c2 → exec (.branch c) s = .next (s0.advance n c.c3 c.irq)) ∧
        (¬Claims.comparison c.sub w c.c2 → exec (.branch c) s = next s0))) ∧
    (c.c1.toNat % 8 ≠ 0 → exec (.waitph c) s = .next (Claims.stops s n 4)) ∧
    (c.c1.toNat % 8 = 0 → waits (.waitph c) c.wait ∧
      ∀ w s0, Claims.waited s n c.wait → s.cpDword n c.c1 0xFFFFFFFF = .ok (w, s0) →
        (Claims.comparison c.sub (w &&& c.c3) c.c2 → exec (.waitph c) s = next s0) ∧
        (¬Claims.comparison c.sub (w &&& c.c3) c.c2 →
          (s0.draining n = true → exec (.waitph c) s = .next (s0.haltStream n)) ∧
          (s0.draining n = false → exec (.waitph c) s = .next
            ((s0.dropAnswers n).modStream n fun x => { x with wait := .phase c.c1 c.c2 c.c3 c.sub c.irq })))) ∧
    (c.c3 = 0 → c.c1.toNat % 8 ≠ 0 → exec (.signal c) s = .next (Claims.stops s n 4)) ∧
    (c.c3 = 0 → c.c1.toNat % 8 = 0 → waits (.signal c) true ∧ ∀ s1, Claims.waited s n true →
      (s.protectStream n).cpPut n c.c1 (if c.sub = 0 then .write (leBytes 8 c.c2.toNat) else .atomic .add .n64 c.c2 0) 0xFFFFFFFF =
        .ok s1 → exec (.signal c) s = next s1)) ∧
  (∀ (n : Nat) (s s0 : State) (va v m w : DWord) (cmp : BitVec 3) (irq : Bool), (s.stream n).running = true →
    (s.stream n).wait = .phase va v m cmp irq → s.cpDword n va 0xFFFFFFFF = .ok (w, s0) →
    (Claims.comparison cmp (w &&& m) v → exec (.waitphPoll n) s = .next (s0.advance n ((s.stream n).pc + 32) irq)) ∧
    (¬Claims.comparison cmp (w &&& m) v → exec (.waitphPoll n) s = .next (s0.dropAnswers n))) ∧
  (∀ (s : State) (n pa : Nat) (va : DWord) (key : Option (Nat × Nat)) (pol : Caching) (grid : Word),
    let loc := Loc.mem pa key pol
    s.locHeld loc 8 = false → s.locPoisoned loc 8 = false →
    (s.probe (s.stream n).ctx va .read = .ok loc → s.cpDword n va grid =
      .ok (BitVec.ofNat 64 (leNat (s.peek loc 8)), s.rekeySpans (s.stream n).ctx [(va, 8)])) ∧
    (s.probe (s.stream n).ctx va .write = .ok loc →
      (∀ b, s.cpPut n va (.write b) grid = .ok ((s.placeBytes loc b).touchStream n loc)) ∧
      ∀ v, s.cpPut n va (.atomic .add .n64 v 0) grid =
        .ok ((s.placeBytes loc (leBytes 8 ((leNat (s.peek loc 8) + v.toNat) % 2 ^ 64))).touchStream n loc))) ∧
  ∀ (s : State) (n : Nat) (pc : DWord) (irq : Bool), n < s.streams.length →
    let t := s.advance n pc irq
    (∀ m, m ≠ n → t.stream m = s.stream m) ∧ t.storage = s.storage ∧ t.groups = s.groups ∧
    (s.draining n = false → t.stream n = { s.stream n with pc := pc, wait := .none } ∧
      t.host.msix = s.host.msix ++ (if irq && s.host.linkUp then [n] else [])) ∧
    (s.draining n = true → t.stream n = { s.stream n with
        pc := pc, wait := .none, running := false, err := 0, report := 0, info := pc } ∧
      (t.ctx? (s.stream n).ctx).map Ctx.stopped = (s.ctx? (s.stream n).ctx).map fun y => y.stopped ++ [(n, pc)])

/-- R83 to R85, R93, R140, R345, R387, R418, R440: LAUNCH and LAUNCHI hand over the grid that their record describes, after adding
to its root word, or stop with the record's error; PUBLISH sends a FetchAdd and waits for it, or stops with error 5 where the host
link is down or a write that it would cover was lost; HCOPY starts a copy that runs beside later commands (assumption log 23), and HCOPY_COMPLETE makes the oldest one.
Where the rules leave a point open it states the model's choice: assumption logs 11, 23. -/
def Obligations.LaunchAndCopyCommands : Prop :=
  (∀ (c : Command) (s : State) (n : Nat) (ins : Bool) (b : List Byte) (t : DWord),
    let x := s.stream n
    let i := if ins then Instr.launchi c else Instr.launch c
    let gid : Word := ((s.ctx? x.ctx).map fun y => y.gridCount).getD 0
    let d := dwordsOf b
    let w (i : Nat) : DWord := d.getD i 0
    let teams := bits (if ins then t else w 0).toNat 31 0
    let l := launchOf (w 0) (w 1) teams
    Claims.CommandReady s c n → Claims.waited s n c.wait → c.c1.toNat % 64 = 0 → c.c3 = 0 →
    s.cpRead n c.c1 64 = .bytes b → let s0 := s.rekeySpans x.ctx [(c.c1, 64)]
    ∀ s3, (if ins then c.c2.toNat % 8 = 0 ∧ s0.cpDword n c.c2 gid = .ok (t, s3) else c.c2 = 0 ∧ s3 = s0) →
    (∀ e, launchErr d teams = some e → exec i s = .next (Claims.stops s n e)) ∧
    ∀ s1, launchErr d teams = none →
      (w 5 = 0 ∧ s1 = s3 ∨ w 5 ≠ 0 ∧ s3.cpPut n (w 5) (.atomic .add .n64 (BitVec.ofNat 64 (2 ^ 63 - l.lanes * l.w0)) 0) gid = .ok s1) →
      let s2 := s1.modCtx x.ctx fun y => { y with gridCount := y.gridCount + 1 }
      let g : Grid := {
        uid := s1.uid, ctx := x.ctx, stream := n, gen := x.gen, gridId := gid, addr := c.c1, l0 := w 0, l1 := w 1,
        centry := w 2, pentry := w 3, argp := w 4, root := w 5, teams := teams,
        seed := ((s3.ctx? x.ctx).map fun y => y.srseed).getD 0, w0 := BitVec.ofNat 64 l.w0, next := 0, restored := [] }
      exec i s = .next ((if teams = 0 then s2 else { s2.fresh with grids := s2.grids ++ [g] }).advance n (x.pc + 32) c.irq)) ∧
  (∀ (c : Command) (s : State) (n pa : Nat), Claims.CommandReady s c n → c.c1.toNat % 8 = 0 → c.c2 = 0 → c.c3 = 0 →
    Claims.waited s n true → s.probe (s.stream n).ctx c.c1 .write = .ok (.host pa) → n < s.streams.length →
    (s.host.linkUp = false ∨ (s.stream n).lostWrites = true → exec (.publish c) s = .next (Claims.stops s n 5)) ∧
    (s.host.linkUp = true → (s.stream n).lostWrites = false →
      ∃ t, exec (.publish c) s = .next t ∧ (t.stream n) = { s.stream n with wait := .publish s.uid c.irq } ∧
        t.host.fetchAdds = s.host.fetchAdds ++
          [{ id := s.uid, va := c.c1, pa := pa, covers := [], team := 0, grp := 0, result := 0, stream := some n }])) ∧
  (∀ (c : Command) (s : State) (n : Nat), Claims.CommandReady s c n → Claims.waited s n c.wait → bits c.c3.toNat 63 40 = 0 →
    exec (.hcopy c) s = .next ((s.modStream n fun x => { x with copies := x.copies ++ [{
      ctx := (s.stream n).ctx, pc := (s.stream n).pc, toHost := decide (c.sub = 1), src := c.c1, dst := c.c2,
      count := bits c.c3.toNat 39 0, irq := c.irq, gen := (s.stream n).gen, stalled := false }] }).advance n ((s.stream n).pc + 32) false)) ∧
  ∀ (n i : Nat) (s : State) (c : HostCopy) (b : List Byte) (ps : List PutPiece),
    ((s.stream n).copies.zipIdx.find? fun e => !e.1.stalled) = some (c, i) →
    (s.hostCopyWrong c = true ∨ s.host.linkUp = false → exec (.hcopyComplete n) s = .next (s.failHostCopy n i c)) ∧
    (s.hostCopyWrong c = false → s.host.linkUp = true → s.readSpan c.ctx (streamKey n) c.src c.count = .bytes b →
      s.putPlan c.ctx c.dst b = .ok ps →
      let s1 := ((s.rekeySpans c.ctx [(c.src, c.count)]).putAll (s.job c.ctx) (streamKey n) ps).2.dropHostCopy n i
      let s2 := if c.toHost then s1 else
        s1.writeBackLines (s1.storage.dirty.filter fun l => ps.any fun p => (linesOf p.loc.addr p.bytes.length).contains l)
      exec (.hcopyComplete n) s = .next (if c.irq then s2.raiseMsix n else s2))

/-- R67, R69, R85 to R89, R95, R292: TEAM_PLACEMENT places the first waiting grid's next team, or gang, on the cores it can take: a
team's groups have GROUPIDs in order, all lanes active in split 0 at the entry of their role, g1 the argument pointer, g2
the root word, every other register zero, and nothing in the scratchpad. SPAWNED_GROUP_START starts up to 32 items as a
group, while fewer than SPMAX groups of the grid live on the core, with the lowest GROUPID that no live group of the spawn team has,
and with an acquire that empties the core's caches; GRID_COMPLETE ends a grid whose work is done.
Where the rules leave a point open it states the model's choice: assumption logs 30, 31, 58, 59, 63. -/
def Obligations.PlacementResults : Prop :=
  (∀ (core : Nat) (s : State) (g : Grid) (gs : List Grid),
    let s1 := s.reap
    s1.waitingGrids = g :: gs → s1.placeable g core = true → core < 384 →
    exec (.teamPlacement core) s = .next
      (let s2 := (g.window core).foldl (fun s c => s.placeTeam g.uid c) s1
       { s2 with reservations := s2.reservations.filter fun r => r.1 ≠ g.uid })) ∧
  (∀ (s : State) (u core : Nat) (g : Grid), s.grid? u = some g → g.uid = u →
    let l := g.launch
    let t := (s.addSpawnTeam g core).uid
    ∃ hs : List Group, (s.placeTeam u core).groups = s.groups ++ hs ∧
      (s.placeTeam u core).teams =
        (s.addSpawnTeam g core).teams ++ [newTeam t g core false (BitVec.ofNat 32 g.next) l.partword] ∧
      (g.spawnUnits = 0 → t = s.uid ∧ (s.addSpawnTeam g core).teams = s.teams) ∧
      (s.placeTeam u core).grid? u = some { g with next := g.next + 1 } ∧
      hs.map Group.gid = List.range (l.nprod + l.ncons) ∧
      ∀ h ∈ hs, h.team = t ∧
        h.role = (if l.nprod = 0 then 0 else if h.gid < l.nprod then 1 else 2) ∧
        h.budget = (if h.gid < l.nprod then l.bprod else l.bcons) ∧
        (h.splits.map fun p => (p.id, p.pc, p.lanes, p.stack)) =
          [(0, if h.gid < l.nprod then g.pentry else g.centry, BitVec.allOnes 32, [])] ∧
        (∀ r, h.greg r = if r = 1 then g.argp else if r = 2 then g.root else 0) ∧ (∀ r lane, h.lreg r lane = 0) ∧
        (∀ r, r ≠ 7 → h.pmask r = 0 ∧ (r < 7 → h.qreg r = false)) ∧ ∀ r lane, h.xreg r lane = 0) ∧
  (∀ (core : Nat) (entry : DWord) (s : State) (f : Forming) (g : Grid),
    let s1 := s.reap
    ((s1.core core).forming.find? fun f => f.entry = entry && s1.startable core f) = some f →
    s1.grid? f.grid = some g → g.root ≠ 0 →
    ∃ t h x m, exec (.spawnedGroupStart core entry) s = .next t ∧ x ∈ t.teams ∧
      t.groups = (s1.groups.map fun y => if y.team = h.team ∧ y.gid = h.gid then { y with gid := m } else y) ++ [h] ∧
      (∀ y ∈ s1.groups, y.team = h.team → y.gid = h.gid → y.hasLeft = true) ∧
      (∀ j < h.gid, ∃ y ∈ s1.groups, y.team = h.team ∧ y.gid = j ∧ y.hasLeft = false) ∧
      x.spawn = true ∧ x.grid = g.uid ∧ x.core = core ∧ h.role = 3 ∧ h.team = x.uid ∧ h.budget = g.launch.bspawn ∧
      (h.splits.map fun p => (p.id, p.pc, p.stack)) = [(0, f.entry, [])] ∧
      (t.core core).l1 = [] ∧ (t.core core).gather = [] ∧
      ∀ lane it, (f.items.take 32)[lane]? = some it → h.lreg 0 lane = it.w0 ∧ h.lreg 1 lane = it.w1 ∧
        SMap.get h.weight lane = it.weight ∧ (h.splits.all fun p => p.lanes.getLsbD lane) = true) ∧
  (∀ (s : State) (core : Nat) (f : Forming), s.startable core f = true ↔
    ∃ g it, s.grid? f.grid = some g ∧ f.items.head? = some it ∧ (∃ c ∈ s.ctxs, c.id = g.ctx ∧ c.phase = .active) ∧
      (32 ≤ f.items.length ∨ 512 ≤ s.cycle - it.since) ∧ (s.slotsTaken core).length < 64 ∧
      s.itemsReady (f.items.take 32) = true ∧
      ((∃ x, s.spawnTeam? f.grid core = some x ∧ (s.groups.filter fun h => h.team = x.uid && !h.hasLeft).length < g.launch.spmax) ∨
        (s.spawnTeam? f.grid core = none ∧ s.unitsTaken core + g.spawnUnits ≤ 64 ∧ 0 < g.launch.spmax))) ∧
  ∀ (u : Nat) (s : State) (g : Grid),
    let s1 := s.reap
    s1.grid? u = some g →
    (s1.gridDone g = false → exec (.gridComplete u) s = .next s1) ∧
    (s1.gridDone g = true → ∃ t, exec (.gridComplete u) s = .next t ∧ t.grid? u = none ∧
      (∀ x ∈ t.teams, x.grid ≠ u) ∧ (∀ y, y ≠ u → t.grid? y = s1.grid? y) ∧ t.streams = s1.streams)

/-! ### Exceptions -/

/-- R359 to R361, R365 to R371, R98, R376 to R378: what taking an exception and returning from one leave. A cause
that a group raises halts its team, whose groups issue nothing later than 24 cycles or 48 instructions after, and nothing at once
in the split that raised it; of a group's causes the one of lowest code stays; a replayable fault stalls its group instead, with a record for every page it faults on; with every
result written, HANDLER_ENTRY takes the cause of the origin group: TRAPCAUSE holds it, each live group with a handler keeps
TRAPPC, sets its splits aside and runs its live lanes at g63 in split 0. TEAM_RESUME restores the splits once every handler has ended, no cause
of handler mode is left (R361), and what was held then arises.
Where the rules leave a point open it states the model's choice: assumption logs 7, 14, 15, 50, 54. -/
def Obligations.ExceptionEntryAndReturn : Prop :=
  (∀ (code : BitVec 8) (s : State) (x : Team) (h : Group) (p : Split), s.issuing = some (x, h, p) →
    mayIssue x h p = true → windowWaits h p = false →
    exec (.undefinedEncoding code) s = .next (s.raise x.uid h.gid (some p.id) code p.pc)) ∧
  (∀ (t g : Nat) (sp : Option Nat) (code : BitVec 8) (pc : DWord) (s : State) (x : Team) (h : Group),
    s.team? t = some x → s.group? t g = some h → h.inHandler = false → h.raised = none →
    let s' := s.raise t g sp code pc
    (s'.team? t).map Team.halted = some true ∧ s'.storage = s.storage ∧
      ∃ h', s'.group? t g = some h' ∧ h'.raised = some ⟨code, sp, false⟩ ∧ h'.v = h.v ∧ h'.g = h.g ∧ h'.splits = h.splits) ∧
  (∀ (t g : Nat) (sp : Option Nat) (code : BitVec 8) (pc : DWord) (s : State) (x : Team) (h : Group) (r : Raised),
    s.team? t = some x → s.group? t g = some h → h.inHandler = false → h.raised = some r →
    ∃ h', (s.raise t g sp code pc).group? t g = some h' ∧ h'.raised = some (if r.code ≤ code then r else ⟨code, sp, false⟩) ∧
      h'.raisers = sp.toList ++ h.raisers) ∧
  (∀ (x : Team) (h : Group) (p : Split), x.halted = true → x.handler = false →
    24 * 16 < x.haltAge ∨ 48 ≤ (h.skid &&& 0x7F).toNat ∨ p.id ∈ h.raisers → mayIssue x h p = false) ∧
  (∀ (s : State) (t : Nat) (x : Team), s.team? t = some x → x.halted = true → x.handler = false →
    s.count.team? t = some { x with haltAge := x.haltAge + s.mgmt.clk.toNat }) ∧
  (∀ (s : State) (x : Team) (g p : Nat) (h : Group) (pages : List (DWord × BitVec 8)) (kind : Nat) (code : BitVec 8),
    s.group? x.uid g = some h →
    let s' := s.stall x g p pages kind code
    s'.group? x.uid g = some { h with stalled := true } ∧ s'.storage = s.storage ∧
      (∀ e ∈ pages, ∀ y, s'.ctx? x.ctx = some y → ∀ l ∈ y.tlb, l.covers e.1 = false) ∧
      ∀ e ∈ pages, ∃ f ∈ s'.mgmt.faults, f.ctx = x.ctx ∧ f.vpn = bits e.1.toNat 56 12 ∧
        Joiner.group x.uid g p code ∈ f.joined) ∧
  (∀ (t : Nat) (s : State) (x : Team) (h : Group) (r : Raised), s.team? t = some x → x.halted = true → x.handler = false →
    s.teamQuiet t = true → (∀ f ∈ s.mgmt.faults, f.seq ≠ noSeq) → originOf (s.groups.filter fun h => h.team = t) = some (h, r) →
    (h.greg 63 = 0 → exec (.handlerEntry t) s =
      .next (s.killGrid x.grid r.code ((h.recordedSplit.map Split.pc).getD h.trapPc))) ∧
    (h.greg 63 ≠ 0 → ∃ s' x', exec (.handlerEntry t) s = .next s' ∧ s'.team? t = some x' ∧ x'.trapCause = r.code ∧
      x'.handler = true ∧ s'.storage = s.storage ∧
      (∀ g, s'.group? t g = (s.group? t g).map fun y => y.enterTrap h.gid) ∧
      ∀ a g, a ≠ t → s'.group? a g = s.group? a g)) ∧
  (∀ (h : Group) (p : Split) (o : Nat), h.recordedSplit = some p →
    let e := h.enterTrap o
    e.trapPc = p.pc ∧ e.recorded = p.id ∧ e.v = h.v ∧ e.g = h.g ∧ e.p = h.p ∧ e.q = h.q ∧ e.x = h.x ∧ e.raised = none ∧ e.raisers = [] ∧
    (h.isOver = false → h.greg 63 ≠ 0 → e.saved = some h.splits ∧
      e.splits = [{ id := 0, pc := h.greg 63, lanes := h.liveLanes, stack := [], held := none, park := none }] ∧
      ({ e with splits := [] } : Group).leaveTrap.splits =
        h.splits.map fun q => if q.id = p.id then { q with pc := p.pc } else q)) ∧
  (∀ (t : Nat) (s : State) (x : Team), s.team? t = some x → x.handler = true → x.timerHeld = false →
    (∀ h ∈ s.groups, h.team = t → h.late = [] ∧ (h.inHandler = true → h.splits = [])) →
    ∃ s' x', exec (.teamResume t) s = .next s' ∧ s'.team? t = some x' ∧ x'.trapCause = 0 ∧ x'.halted = false ∧
      x'.handler = false ∧ s'.storage = s.storage ∧ (∀ g, s'.group? t g = (s.group? t g).map fun y => y.leaveTrap.forgetCause) ∧
      ∀ a g, a ≠ t → s'.group? a g = s.group? a g) ∧
  (∀ (t : Nat) (s : State) (x : Team) (h : Group), s.team? t = some x → x.handler = true → x.timerHeld = false →
    (s.groups.filter fun h => h.team = t) = [h] → h.late ≠ [] → (h.inHandler = true → h.splits = []) →
    ∃ s' h' r, exec (.teamResume t) s = .next s' ∧ (s'.team? t).map Team.halted = some true ∧ s'.group? t h.gid = some h' ∧
      h'.raised = some r ∧ (∃ e ∈ h.late, r.code = e.code ∧ r.split = e.split) ∧ ∀ e ∈ h.late, r.code ≤ e.code) ∧
  (∀ (t : Nat) (s : State) (x : Team), s.team? t = some x →
    (s.timerDue x = true → exec (.timerTrap t) s = .next (s.raiseTimer t)) ∧
    (s.timerDue x = false → exec (.timerTrap t) s = .next s)) ∧
  ∀ (seq : BitVec 63) (s : State), let found := s.mgmt.faults.find? fun f => f.seq = seq.toNat
    (found = none → exec (.fqansRetry seq) s = .next s ∧ exec (.fqansFail seq) s = .next s) ∧
    ∀ f, found = some f →
      exec (.fqansRetry seq) s = .next ((f.joined.foldl State.retryJoiner (s.dropFault seq.toNat)).pruneFaults) ∧
      exec (.fqansFail seq) s = .next ((f.joined.foldl State.failJoiner (s.dropFault seq.toNat)).pruneFaults)

/-! ### Management -/

/-- R112, R388, R389, R391, R393, R394, R434, R436, R437: the commands on contexts, each with its result, and the end of a
drain. CREATE makes a context, DESTROY ends one without resident work or a running stream, KEY gives it a key pair from host memory, INVAL empties its
translations, PREEMPT makes it drain, RESTORE brings it back, FRESET ends its work at once; a command that cannot be done
has result 1 or 2 and no other effect.
Where the rules leave a point open it states the model's choice: assumption logs 27, 32, 34, 37. -/
def Obligations.ContextCommandResults : Prop :=
  (∀ (m : MCmd) (s : State),
    let id := m.ctx.toNat
    let area := s.mgmt.arg0
    let ends (op : Nat) (i : Instr) (t : State) (r : BitVec 8) : Prop := Claims.Runs s op m → exec i s = .next (t.endCommand r)
    (s.ctx? id = none →
      ends 3 (.key m) s 1 ∧ ends 4 (.inval m) s 1 ∧ ends 5 (.preempt m) s 1 ∧ ends 7 (.freset m) s 1 ∧
      (area.toNat % 64 ≠ 0 ∨ s.inBand area.toNat = false ∨ s.areaHeld area.toNat = false → ends 6 (.restore m) s 1) ∧
      (area.toNat % 4096 ≠ 0 ∨ s.inBand area.toNat = false → ends 1 (.create m) s 2) ∧
      (area.toNat % 4096 = 0 → s.inBand area.toNat = true → ends 1 (.create m)
        (({ s with ctxs := s.ctxs ++ [newCtx id area (m.arg.setWidth 16)] } : State).interrupt 0x20) 0)) ∧
    ∀ c, s.ctx? id = some c → c.id = id →
      ends 1 (.create m) s 1 ∧
      (s.reap.ctx? id = some c → s.reap.inUse id = true → ends 2 (.destroy m) s.reap 1) ∧
      (s.reap.ctx? id = some c → s.reap.inUse id = false → ends 2 (.destroy m) ((s.reap.endWork id).dropCtx id) 0) ∧
      (bits m.arg.toNat 1 0 = 0 ∨ s.host.linkUp = false → ends 3 (.key m) s 1) ∧
      (bits m.arg.toNat 1 0 ≠ 0 → s.host.linkUp = true → ends 3 (.key m)
        ((s.unkeyLines fun x y => x = id && y = bits m.arg.toNat 1 0).modCtx id fun c => { c with
          keys := (bits m.arg.toNat 1 0, s.hostRead area.toNat 64) :: c.keys.filter fun e => e.1 ≠ bits m.arg.toNat 1 0 }) 0) ∧
      ends 4 (.inval m) (s.modCtx id fun c => { c with tlb := [] }) 0 ∧
      ends 7 (.freset m) (s.forceReset id) 0 ∧
      (c.phase = .active → area.toNat % 64 ≠ 0 ∨ s.inBand area.toNat = false → ends 5 (.preempt m) s 2) ∧
      (c.phase = .active → area.toNat % 64 = 0 → s.inBand area.toNat = true → ends 5 (.preempt m)
        (((s.modCtx id fun c => { c with
          saveArea := area, deadline := s.devclk.toNat + s.mgmt.arg1.toNat, stopped := [] }).setPhase id .draining).haltIdle id) 0) ∧
      (c.phase ≠ .active → ends 5 (.preempt m) s 1) ∧
      (area.toNat % 64 = 0 → s.inBand area.toNat = true → s.areaHeld area.toNat = true → Claims.Runs s 6 m →
        exec (.restore m) s = .next s) ∧
      (area.toNat % 64 = 0 → s.inBand area.toNat = true → s.areaHeld area.toNat = false →
        (c.phase ≠ .saved → ends 6 (.restore m) s 1) ∧
        ∀ s1, c.phase = .saved → s.restoreFrom c area.toNat = some s1 → ends 6 (.restore m) s1 0) ∧
      (area.toNat % 64 ≠ 0 ∨ s.inBand area.toNat = false → ends 6 (.restore m) s (if c.phase = .saved then 2 else 1))) ∧
  ∀ (ctx : BitVec 4) (s : State) (c : Ctx), s.ctx? ctx.toNat = some c → c.phase = .draining →
    (c.deadline ≤ s.devclk.toNat → exec (.preemptDeadline ctx) s = .next (s.forceReset c.id)) ∧
    (s.devclk.toNat < c.deadline → exec (.preemptDeadline ctx) s = .next s) ∧
    (s.reap.ctx? ctx.toNat = some c →
      let b := s.reap.saveRecords c
      (s.reap.drained c.id = false → exec (.contextDrainComplete ctx) s = .next s.reap) ∧
      (s.reap.drained c.id = true → s.reap.hostOwns c.saveArea.toNat b.length = false →
        ∃ t, exec (.contextDrainComplete ctx) s = .next t ∧ (∀ x ∈ t.teams, x.ctx ≠ c.id) ∧ (∀ g ∈ t.grids, g.ctx ≠ c.id) ∧
          (t.ctx? c.id).map Ctx.phase = some .saved ∧ (t.ctx? c.id).map Ctx.stopped = some [] ∧
          t.streams = s.reap.streams))
end

