-- ==== Sys2Proof/Laws/State.lean ====
section
/-!
SUPPORT. One lemma per field for each named update of State and of Group: what it leaves unchanged; and what a move makes of a
state when no source of records is stalled.
-/
namespace Sys2Proof.Machine

/-! State.modGroup -/
@[simp] theorem modGroup_agenda (s : State) (t g : Nat) (f : Group → Group) : (s.modGroup t g f).agenda = s.agenda := rfl
@[simp] theorem modGroup_issuer (s : State) (t g : Nat) (f : Group → Group) : (s.modGroup t g f).issuer = s.issuer := rfl
@[simp] theorem modGroup_free (s : State) (t g : Nat) (f : Group → Group) : (s.modGroup t g f).free = s.free := rfl
@[simp] theorem modGroup_uid (s : State) (t g : Nat) (f : Group → Group) : (s.modGroup t g f).uid = s.uid := rfl
@[simp] theorem modGroup_devclk (s : State) (t g : Nat) (f : Group → Group) : (s.modGroup t g f).devclk = s.devclk := rfl
@[simp] theorem modGroup_coreclk (s : State) (t g : Nat) (f : Group → Group) : (s.modGroup t g f).coreclk = s.coreclk := rfl
@[simp] theorem modGroup_boot (s : State) (t g : Nat) (f : Group → Group) : (s.modGroup t g f).boot = s.boot := rfl
@[simp] theorem modGroup_flash (s : State) (t g : Nat) (f : Group → Group) : (s.modGroup t g f).flash = s.flash := rfl
@[simp] theorem modGroup_image (s : State) (t g : Nat) (f : Group → Group) : (s.modGroup t g f).image = s.image := rfl
@[simp] theorem modGroup_ctxs (s : State) (t g : Nat) (f : Group → Group) : (s.modGroup t g f).ctxs = s.ctxs := rfl
@[simp] theorem modGroup_streams (s : State) (t g : Nat) (f : Group → Group) : (s.modGroup t g f).streams = s.streams := rfl
@[simp] theorem modGroup_grids (s : State) (t g : Nat) (f : Group → Group) : (s.modGroup t g f).grids = s.grids := rfl
@[simp] theorem modGroup_reservations (s : State) (t g : Nat) (f : Group → Group) : (s.modGroup t g f).reservations = s.reservations := rfl
@[simp] theorem modGroup_turns (s : State) (t g : Nat) (f : Group → Group) : (s.modGroup t g f).turns = s.turns := rfl
@[simp] theorem modGroup_teams (s : State) (t g : Nat) (f : Group → Group) : (s.modGroup t g f).teams = s.teams := rfl
@[simp] theorem modGroup_cores (s : State) (t g : Nat) (f : Group → Group) : (s.modGroup t g f).cores = s.cores := rfl
@[simp] theorem modGroup_copies (s : State) (t g : Nat) (f : Group → Group) : (s.modGroup t g f).copies = s.copies := rfl
@[simp] theorem modGroup_colls (s : State) (t g : Nat) (f : Group → Group) : (s.modGroup t g f).colls = s.colls := rfl
@[simp] theorem modGroup_fabric (s : State) (t g : Nat) (f : Group → Group) : (s.modGroup t g f).fabric = s.fabric := rfl
@[simp] theorem modGroup_host (s : State) (t g : Nat) (f : Group → Group) : (s.modGroup t g f).host = s.host := rfl
@[simp] theorem modGroup_storage (s : State) (t g : Nat) (f : Group → Group) : (s.modGroup t g f).storage = s.storage := rfl
@[simp] theorem modGroup_mgmt (s : State) (t g : Nat) (f : Group → Group) : (s.modGroup t g f).mgmt = s.mgmt := rfl

/-! State.modTeam -/
@[simp] theorem modTeam_agenda (s : State) (t : Nat) (f : Team → Team) : (s.modTeam t f).agenda = s.agenda := rfl
@[simp] theorem modTeam_issuer (s : State) (t : Nat) (f : Team → Team) : (s.modTeam t f).issuer = s.issuer := rfl
@[simp] theorem modTeam_free (s : State) (t : Nat) (f : Team → Team) : (s.modTeam t f).free = s.free := rfl
@[simp] theorem modTeam_uid (s : State) (t : Nat) (f : Team → Team) : (s.modTeam t f).uid = s.uid := rfl
@[simp] theorem modTeam_devclk (s : State) (t : Nat) (f : Team → Team) : (s.modTeam t f).devclk = s.devclk := rfl
@[simp] theorem modTeam_coreclk (s : State) (t : Nat) (f : Team → Team) : (s.modTeam t f).coreclk = s.coreclk := rfl
@[simp] theorem modTeam_boot (s : State) (t : Nat) (f : Team → Team) : (s.modTeam t f).boot = s.boot := rfl
@[simp] theorem modTeam_flash (s : State) (t : Nat) (f : Team → Team) : (s.modTeam t f).flash = s.flash := rfl
@[simp] theorem modTeam_image (s : State) (t : Nat) (f : Team → Team) : (s.modTeam t f).image = s.image := rfl
@[simp] theorem modTeam_ctxs (s : State) (t : Nat) (f : Team → Team) : (s.modTeam t f).ctxs = s.ctxs := rfl
@[simp] theorem modTeam_streams (s : State) (t : Nat) (f : Team → Team) : (s.modTeam t f).streams = s.streams := rfl
@[simp] theorem modTeam_grids (s : State) (t : Nat) (f : Team → Team) : (s.modTeam t f).grids = s.grids := rfl
@[simp] theorem modTeam_reservations (s : State) (t : Nat) (f : Team → Team) : (s.modTeam t f).reservations = s.reservations := rfl
@[simp] theorem modTeam_turns (s : State) (t : Nat) (f : Team → Team) : (s.modTeam t f).turns = s.turns := rfl
@[simp] theorem modTeam_groups (s : State) (t : Nat) (f : Team → Team) : (s.modTeam t f).groups = s.groups := rfl
@[simp] theorem modTeam_cores (s : State) (t : Nat) (f : Team → Team) : (s.modTeam t f).cores = s.cores := rfl
@[simp] theorem modTeam_copies (s : State) (t : Nat) (f : Team → Team) : (s.modTeam t f).copies = s.copies := rfl
@[simp] theorem modTeam_colls (s : State) (t : Nat) (f : Team → Team) : (s.modTeam t f).colls = s.colls := rfl
@[simp] theorem modTeam_fabric (s : State) (t : Nat) (f : Team → Team) : (s.modTeam t f).fabric = s.fabric := rfl
@[simp] theorem modTeam_host (s : State) (t : Nat) (f : Team → Team) : (s.modTeam t f).host = s.host := rfl
@[simp] theorem modTeam_storage (s : State) (t : Nat) (f : Team → Team) : (s.modTeam t f).storage = s.storage := rfl
@[simp] theorem modTeam_mgmt (s : State) (t : Nat) (f : Team → Team) : (s.modTeam t f).mgmt = s.mgmt := rfl

/-! State.modGrid -/
@[simp] theorem modGrid_agenda (s : State) (u : Nat) (f : Grid → Grid) : (s.modGrid u f).agenda = s.agenda := rfl
@[simp] theorem modGrid_issuer (s : State) (u : Nat) (f : Grid → Grid) : (s.modGrid u f).issuer = s.issuer := rfl
@[simp] theorem modGrid_free (s : State) (u : Nat) (f : Grid → Grid) : (s.modGrid u f).free = s.free := rfl
@[simp] theorem modGrid_uid (s : State) (u : Nat) (f : Grid → Grid) : (s.modGrid u f).uid = s.uid := rfl
@[simp] theorem modGrid_devclk (s : State) (u : Nat) (f : Grid → Grid) : (s.modGrid u f).devclk = s.devclk := rfl
@[simp] theorem modGrid_coreclk (s : State) (u : Nat) (f : Grid → Grid) : (s.modGrid u f).coreclk = s.coreclk := rfl
@[simp] theorem modGrid_boot (s : State) (u : Nat) (f : Grid → Grid) : (s.modGrid u f).boot = s.boot := rfl
@[simp] theorem modGrid_flash (s : State) (u : Nat) (f : Grid → Grid) : (s.modGrid u f).flash = s.flash := rfl
@[simp] theorem modGrid_image (s : State) (u : Nat) (f : Grid → Grid) : (s.modGrid u f).image = s.image := rfl
@[simp] theorem modGrid_ctxs (s : State) (u : Nat) (f : Grid → Grid) : (s.modGrid u f).ctxs = s.ctxs := rfl
@[simp] theorem modGrid_streams (s : State) (u : Nat) (f : Grid → Grid) : (s.modGrid u f).streams = s.streams := rfl
@[simp] theorem modGrid_reservations (s : State) (u : Nat) (f : Grid → Grid) : (s.modGrid u f).reservations = s.reservations := rfl
@[simp] theorem modGrid_turns (s : State) (u : Nat) (f : Grid → Grid) : (s.modGrid u f).turns = s.turns := rfl
@[simp] theorem modGrid_teams (s : State) (u : Nat) (f : Grid → Grid) : (s.modGrid u f).teams = s.teams := rfl
@[simp] theorem modGrid_groups (s : State) (u : Nat) (f : Grid → Grid) : (s.modGrid u f).groups = s.groups := rfl
@[simp] theorem modGrid_cores (s : State) (u : Nat) (f : Grid → Grid) : (s.modGrid u f).cores = s.cores := rfl
@[simp] theorem modGrid_copies (s : State) (u : Nat) (f : Grid → Grid) : (s.modGrid u f).copies = s.copies := rfl
@[simp] theorem modGrid_colls (s : State) (u : Nat) (f : Grid → Grid) : (s.modGrid u f).colls = s.colls := rfl
@[simp] theorem modGrid_fabric (s : State) (u : Nat) (f : Grid → Grid) : (s.modGrid u f).fabric = s.fabric := rfl
@[simp] theorem modGrid_host (s : State) (u : Nat) (f : Grid → Grid) : (s.modGrid u f).host = s.host := rfl
@[simp] theorem modGrid_storage (s : State) (u : Nat) (f : Grid → Grid) : (s.modGrid u f).storage = s.storage := rfl
@[simp] theorem modGrid_mgmt (s : State) (u : Nat) (f : Grid → Grid) : (s.modGrid u f).mgmt = s.mgmt := rfl

/-! State.modCtx -/
@[simp] theorem modCtx_agenda (s : State) (c : Nat) (f : Ctx → Ctx) : (s.modCtx c f).agenda = s.agenda := rfl
@[simp] theorem modCtx_issuer (s : State) (c : Nat) (f : Ctx → Ctx) : (s.modCtx c f).issuer = s.issuer := rfl
@[simp] theorem modCtx_free (s : State) (c : Nat) (f : Ctx → Ctx) : (s.modCtx c f).free = s.free := rfl
@[simp] theorem modCtx_uid (s : State) (c : Nat) (f : Ctx → Ctx) : (s.modCtx c f).uid = s.uid := rfl
@[simp] theorem modCtx_devclk (s : State) (c : Nat) (f : Ctx → Ctx) : (s.modCtx c f).devclk = s.devclk := rfl
@[simp] theorem modCtx_coreclk (s : State) (c : Nat) (f : Ctx → Ctx) : (s.modCtx c f).coreclk = s.coreclk := rfl
@[simp] theorem modCtx_boot (s : State) (c : Nat) (f : Ctx → Ctx) : (s.modCtx c f).boot = s.boot := rfl
@[simp] theorem modCtx_flash (s : State) (c : Nat) (f : Ctx → Ctx) : (s.modCtx c f).flash = s.flash := rfl
@[simp] theorem modCtx_image (s : State) (c : Nat) (f : Ctx → Ctx) : (s.modCtx c f).image = s.image := rfl
@[simp] theorem modCtx_streams (s : State) (c : Nat) (f : Ctx → Ctx) : (s.modCtx c f).streams = s.streams := rfl
@[simp] theorem modCtx_grids (s : State) (c : Nat) (f : Ctx → Ctx) : (s.modCtx c f).grids = s.grids := rfl
@[simp] theorem modCtx_reservations (s : State) (c : Nat) (f : Ctx → Ctx) : (s.modCtx c f).reservations = s.reservations := rfl
@[simp] theorem modCtx_turns (s : State) (c : Nat) (f : Ctx → Ctx) : (s.modCtx c f).turns = s.turns := rfl
@[simp] theorem modCtx_teams (s : State) (c : Nat) (f : Ctx → Ctx) : (s.modCtx c f).teams = s.teams := rfl
@[simp] theorem modCtx_groups (s : State) (c : Nat) (f : Ctx → Ctx) : (s.modCtx c f).groups = s.groups := rfl
@[simp] theorem modCtx_cores (s : State) (c : Nat) (f : Ctx → Ctx) : (s.modCtx c f).cores = s.cores := rfl
@[simp] theorem modCtx_copies (s : State) (c : Nat) (f : Ctx → Ctx) : (s.modCtx c f).copies = s.copies := rfl
@[simp] theorem modCtx_colls (s : State) (c : Nat) (f : Ctx → Ctx) : (s.modCtx c f).colls = s.colls := rfl
@[simp] theorem modCtx_fabric (s : State) (c : Nat) (f : Ctx → Ctx) : (s.modCtx c f).fabric = s.fabric := rfl
@[simp] theorem modCtx_host (s : State) (c : Nat) (f : Ctx → Ctx) : (s.modCtx c f).host = s.host := rfl
@[simp] theorem modCtx_storage (s : State) (c : Nat) (f : Ctx → Ctx) : (s.modCtx c f).storage = s.storage := rfl
@[simp] theorem modCtx_mgmt (s : State) (c : Nat) (f : Ctx → Ctx) : (s.modCtx c f).mgmt = s.mgmt := rfl

/-! State.modCopy -/
@[simp] theorem modCopy_agenda (s : State) (u : Nat) (f : Copy → Copy) : (s.modCopy u f).agenda = s.agenda := rfl
@[simp] theorem modCopy_issuer (s : State) (u : Nat) (f : Copy → Copy) : (s.modCopy u f).issuer = s.issuer := rfl
@[simp] theorem modCopy_free (s : State) (u : Nat) (f : Copy → Copy) : (s.modCopy u f).free = s.free := rfl
@[simp] theorem modCopy_uid (s : State) (u : Nat) (f : Copy → Copy) : (s.modCopy u f).uid = s.uid := rfl
@[simp] theorem modCopy_devclk (s : State) (u : Nat) (f : Copy → Copy) : (s.modCopy u f).devclk = s.devclk := rfl
@[simp] theorem modCopy_coreclk (s : State) (u : Nat) (f : Copy → Copy) : (s.modCopy u f).coreclk = s.coreclk := rfl
@[simp] theorem modCopy_boot (s : State) (u : Nat) (f : Copy → Copy) : (s.modCopy u f).boot = s.boot := rfl
@[simp] theorem modCopy_flash (s : State) (u : Nat) (f : Copy → Copy) : (s.modCopy u f).flash = s.flash := rfl
@[simp] theorem modCopy_image (s : State) (u : Nat) (f : Copy → Copy) : (s.modCopy u f).image = s.image := rfl
@[simp] theorem modCopy_ctxs (s : State) (u : Nat) (f : Copy → Copy) : (s.modCopy u f).ctxs = s.ctxs := rfl
@[simp] theorem modCopy_streams (s : State) (u : Nat) (f : Copy → Copy) : (s.modCopy u f).streams = s.streams := rfl
@[simp] theorem modCopy_grids (s : State) (u : Nat) (f : Copy → Copy) : (s.modCopy u f).grids = s.grids := rfl
@[simp] theorem modCopy_reservations (s : State) (u : Nat) (f : Copy → Copy) : (s.modCopy u f).reservations = s.reservations := rfl
@[simp] theorem modCopy_turns (s : State) (u : Nat) (f : Copy → Copy) : (s.modCopy u f).turns = s.turns := rfl
@[simp] theorem modCopy_teams (s : State) (u : Nat) (f : Copy → Copy) : (s.modCopy u f).teams = s.teams := rfl
@[simp] theorem modCopy_groups (s : State) (u : Nat) (f : Copy → Copy) : (s.modCopy u f).groups = s.groups := rfl
@[simp] theorem modCopy_cores (s : State) (u : Nat) (f : Copy → Copy) : (s.modCopy u f).cores = s.cores := rfl
@[simp] theorem modCopy_colls (s : State) (u : Nat) (f : Copy → Copy) : (s.modCopy u f).colls = s.colls := rfl
@[simp] theorem modCopy_fabric (s : State) (u : Nat) (f : Copy → Copy) : (s.modCopy u f).fabric = s.fabric := rfl
@[simp] theorem modCopy_host (s : State) (u : Nat) (f : Copy → Copy) : (s.modCopy u f).host = s.host := rfl
@[simp] theorem modCopy_storage (s : State) (u : Nat) (f : Copy → Copy) : (s.modCopy u f).storage = s.storage := rfl
@[simp] theorem modCopy_mgmt (s : State) (u : Nat) (f : Copy → Copy) : (s.modCopy u f).mgmt = s.mgmt := rfl

/-! State.modColl -/
@[simp] theorem modColl_agenda (s : State) (u : Nat) (f : Coll → Coll) : (s.modColl u f).agenda = s.agenda := rfl
@[simp] theorem modColl_issuer (s : State) (u : Nat) (f : Coll → Coll) : (s.modColl u f).issuer = s.issuer := rfl
@[simp] theorem modColl_free (s : State) (u : Nat) (f : Coll → Coll) : (s.modColl u f).free = s.free := rfl
@[simp] theorem modColl_uid (s : State) (u : Nat) (f : Coll → Coll) : (s.modColl u f).uid = s.uid := rfl
@[simp] theorem modColl_devclk (s : State) (u : Nat) (f : Coll → Coll) : (s.modColl u f).devclk = s.devclk := rfl
@[simp] theorem modColl_coreclk (s : State) (u : Nat) (f : Coll → Coll) : (s.modColl u f).coreclk = s.coreclk := rfl
@[simp] theorem modColl_boot (s : State) (u : Nat) (f : Coll → Coll) : (s.modColl u f).boot = s.boot := rfl
@[simp] theorem modColl_flash (s : State) (u : Nat) (f : Coll → Coll) : (s.modColl u f).flash = s.flash := rfl
@[simp] theorem modColl_image (s : State) (u : Nat) (f : Coll → Coll) : (s.modColl u f).image = s.image := rfl
@[simp] theorem modColl_ctxs (s : State) (u : Nat) (f : Coll → Coll) : (s.modColl u f).ctxs = s.ctxs := rfl
@[simp] theorem modColl_streams (s : State) (u : Nat) (f : Coll → Coll) : (s.modColl u f).streams = s.streams := rfl
@[simp] theorem modColl_grids (s : State) (u : Nat) (f : Coll → Coll) : (s.modColl u f).grids = s.grids := rfl
@[simp] theorem modColl_reservations (s : State) (u : Nat) (f : Coll → Coll) : (s.modColl u f).reservations = s.reservations := rfl
@[simp] theorem modColl_turns (s : State) (u : Nat) (f : Coll → Coll) : (s.modColl u f).turns = s.turns := rfl
@[simp] theorem modColl_teams (s : State) (u : Nat) (f : Coll → Coll) : (s.modColl u f).teams = s.teams := rfl
@[simp] theorem modColl_groups (s : State) (u : Nat) (f : Coll → Coll) : (s.modColl u f).groups = s.groups := rfl
@[simp] theorem modColl_cores (s : State) (u : Nat) (f : Coll → Coll) : (s.modColl u f).cores = s.cores := rfl
@[simp] theorem modColl_copies (s : State) (u : Nat) (f : Coll → Coll) : (s.modColl u f).copies = s.copies := rfl
@[simp] theorem modColl_fabric (s : State) (u : Nat) (f : Coll → Coll) : (s.modColl u f).fabric = s.fabric := rfl
@[simp] theorem modColl_host (s : State) (u : Nat) (f : Coll → Coll) : (s.modColl u f).host = s.host := rfl
@[simp] theorem modColl_storage (s : State) (u : Nat) (f : Coll → Coll) : (s.modColl u f).storage = s.storage := rfl
@[simp] theorem modColl_mgmt (s : State) (u : Nat) (f : Coll → Coll) : (s.modColl u f).mgmt = s.mgmt := rfl

/-! State.modStream -/
@[simp] theorem modStream_agenda (s : State) (n : Nat) (f : Stream → Stream) : (s.modStream n f).agenda = s.agenda := rfl
@[simp] theorem modStream_issuer (s : State) (n : Nat) (f : Stream → Stream) : (s.modStream n f).issuer = s.issuer := rfl
@[simp] theorem modStream_free (s : State) (n : Nat) (f : Stream → Stream) : (s.modStream n f).free = s.free := rfl
@[simp] theorem modStream_uid (s : State) (n : Nat) (f : Stream → Stream) : (s.modStream n f).uid = s.uid := rfl
@[simp] theorem modStream_devclk (s : State) (n : Nat) (f : Stream → Stream) : (s.modStream n f).devclk = s.devclk := rfl
@[simp] theorem modStream_coreclk (s : State) (n : Nat) (f : Stream → Stream) : (s.modStream n f).coreclk = s.coreclk := rfl
@[simp] theorem modStream_boot (s : State) (n : Nat) (f : Stream → Stream) : (s.modStream n f).boot = s.boot := rfl
@[simp] theorem modStream_flash (s : State) (n : Nat) (f : Stream → Stream) : (s.modStream n f).flash = s.flash := rfl
@[simp] theorem modStream_image (s : State) (n : Nat) (f : Stream → Stream) : (s.modStream n f).image = s.image := rfl
@[simp] theorem modStream_ctxs (s : State) (n : Nat) (f : Stream → Stream) : (s.modStream n f).ctxs = s.ctxs := rfl
@[simp] theorem modStream_grids (s : State) (n : Nat) (f : Stream → Stream) : (s.modStream n f).grids = s.grids := rfl
@[simp] theorem modStream_reservations (s : State) (n : Nat) (f : Stream → Stream) : (s.modStream n f).reservations = s.reservations := rfl
@[simp] theorem modStream_turns (s : State) (n : Nat) (f : Stream → Stream) : (s.modStream n f).turns = s.turns := rfl
@[simp] theorem modStream_teams (s : State) (n : Nat) (f : Stream → Stream) : (s.modStream n f).teams = s.teams := rfl
@[simp] theorem modStream_groups (s : State) (n : Nat) (f : Stream → Stream) : (s.modStream n f).groups = s.groups := rfl
@[simp] theorem modStream_cores (s : State) (n : Nat) (f : Stream → Stream) : (s.modStream n f).cores = s.cores := rfl
@[simp] theorem modStream_copies (s : State) (n : Nat) (f : Stream → Stream) : (s.modStream n f).copies = s.copies := rfl
@[simp] theorem modStream_colls (s : State) (n : Nat) (f : Stream → Stream) : (s.modStream n f).colls = s.colls := rfl
@[simp] theorem modStream_fabric (s : State) (n : Nat) (f : Stream → Stream) : (s.modStream n f).fabric = s.fabric := rfl
@[simp] theorem modStream_host (s : State) (n : Nat) (f : Stream → Stream) : (s.modStream n f).host = s.host := rfl
@[simp] theorem modStream_storage (s : State) (n : Nat) (f : Stream → Stream) : (s.modStream n f).storage = s.storage := rfl
@[simp] theorem modStream_mgmt (s : State) (n : Nat) (f : Stream → Stream) : (s.modStream n f).mgmt = s.mgmt := rfl

/-! State.modCore -/
@[simp] theorem modCore_agenda (s : State) (c : Nat) (f : Core → Core) : (s.modCore c f).agenda = s.agenda := by unfold State.modCore; split <;> rfl
@[simp] theorem modCore_issuer (s : State) (c : Nat) (f : Core → Core) : (s.modCore c f).issuer = s.issuer := by unfold State.modCore; split <;> rfl
@[simp] theorem modCore_free (s : State) (c : Nat) (f : Core → Core) : (s.modCore c f).free = s.free := by unfold State.modCore; split <;> rfl
@[simp] theorem modCore_uid (s : State) (c : Nat) (f : Core → Core) : (s.modCore c f).uid = s.uid := by unfold State.modCore; split <;> rfl
@[simp] theorem modCore_devclk (s : State) (c : Nat) (f : Core → Core) : (s.modCore c f).devclk = s.devclk := by unfold State.modCore; split <;> rfl
@[simp] theorem modCore_coreclk (s : State) (c : Nat) (f : Core → Core) : (s.modCore c f).coreclk = s.coreclk := by unfold State.modCore; split <;> rfl
@[simp] theorem modCore_boot (s : State) (c : Nat) (f : Core → Core) : (s.modCore c f).boot = s.boot := by unfold State.modCore; split <;> rfl
@[simp] theorem modCore_flash (s : State) (c : Nat) (f : Core → Core) : (s.modCore c f).flash = s.flash := by unfold State.modCore; split <;> rfl
@[simp] theorem modCore_image (s : State) (c : Nat) (f : Core → Core) : (s.modCore c f).image = s.image := by unfold State.modCore; split <;> rfl
@[simp] theorem modCore_ctxs (s : State) (c : Nat) (f : Core → Core) : (s.modCore c f).ctxs = s.ctxs := by unfold State.modCore; split <;> rfl
@[simp] theorem modCore_streams (s : State) (c : Nat) (f : Core → Core) : (s.modCore c f).streams = s.streams := by unfold State.modCore; split <;> rfl
@[simp] theorem modCore_grids (s : State) (c : Nat) (f : Core → Core) : (s.modCore c f).grids = s.grids := by unfold State.modCore; split <;> rfl
@[simp] theorem modCore_reservations (s : State) (c : Nat) (f : Core → Core) : (s.modCore c f).reservations = s.reservations := by unfold State.modCore; split <;> rfl
@[simp] theorem modCore_turns (s : State) (c : Nat) (f : Core → Core) : (s.modCore c f).turns = s.turns := by unfold State.modCore; split <;> rfl
@[simp] theorem modCore_teams (s : State) (c : Nat) (f : Core → Core) : (s.modCore c f).teams = s.teams := by unfold State.modCore; split <;> rfl
@[simp] theorem modCore_groups (s : State) (c : Nat) (f : Core → Core) : (s.modCore c f).groups = s.groups := by unfold State.modCore; split <;> rfl
@[simp] theorem modCore_copies (s : State) (c : Nat) (f : Core → Core) : (s.modCore c f).copies = s.copies := by unfold State.modCore; split <;> rfl
@[simp] theorem modCore_colls (s : State) (c : Nat) (f : Core → Core) : (s.modCore c f).colls = s.colls := by unfold State.modCore; split <;> rfl
@[simp] theorem modCore_fabric (s : State) (c : Nat) (f : Core → Core) : (s.modCore c f).fabric = s.fabric := by unfold State.modCore; split <;> rfl
@[simp] theorem modCore_host (s : State) (c : Nat) (f : Core → Core) : (s.modCore c f).host = s.host := by unfold State.modCore; split <;> rfl
@[simp] theorem modCore_storage (s : State) (c : Nat) (f : Core → Core) : (s.modCore c f).storage = s.storage := by unfold State.modCore; split <;> rfl
@[simp] theorem modCore_mgmt (s : State) (c : Nat) (f : Core → Core) : (s.modCore c f).mgmt = s.mgmt := by unfold State.modCore; split <;> rfl

/-! State.fresh -/
@[simp] theorem fresh_agenda (s : State) : (s.fresh).agenda = s.agenda := rfl
@[simp] theorem fresh_issuer (s : State) : (s.fresh).issuer = s.issuer := rfl
@[simp] theorem fresh_free (s : State) : (s.fresh).free = s.free := rfl
@[simp] theorem fresh_devclk (s : State) : (s.fresh).devclk = s.devclk := rfl
@[simp] theorem fresh_coreclk (s : State) : (s.fresh).coreclk = s.coreclk := rfl
@[simp] theorem fresh_boot (s : State) : (s.fresh).boot = s.boot := rfl
@[simp] theorem fresh_flash (s : State) : (s.fresh).flash = s.flash := rfl
@[simp] theorem fresh_image (s : State) : (s.fresh).image = s.image := rfl
@[simp] theorem fresh_ctxs (s : State) : (s.fresh).ctxs = s.ctxs := rfl
@[simp] theorem fresh_streams (s : State) : (s.fresh).streams = s.streams := rfl
@[simp] theorem fresh_grids (s : State) : (s.fresh).grids = s.grids := rfl
@[simp] theorem fresh_reservations (s : State) : (s.fresh).reservations = s.reservations := rfl
@[simp] theorem fresh_turns (s : State) : (s.fresh).turns = s.turns := rfl
@[simp] theorem fresh_teams (s : State) : (s.fresh).teams = s.teams := rfl
@[simp] theorem fresh_groups (s : State) : (s.fresh).groups = s.groups := rfl
@[simp] theorem fresh_cores (s : State) : (s.fresh).cores = s.cores := rfl
@[simp] theorem fresh_copies (s : State) : (s.fresh).copies = s.copies := rfl
@[simp] theorem fresh_colls (s : State) : (s.fresh).colls = s.colls := rfl
@[simp] theorem fresh_fabric (s : State) : (s.fresh).fabric = s.fabric := rfl
@[simp] theorem fresh_host (s : State) : (s.fresh).host = s.host := rfl
@[simp] theorem fresh_storage (s : State) : (s.fresh).storage = s.storage := rfl
@[simp] theorem fresh_mgmt (s : State) : (s.fresh).mgmt = s.mgmt := rfl

/-! State.raiseIrq -/
@[simp] theorem raiseIrq_agenda (s : State) (b : BitVec 6) : (s.raiseIrq b).agenda = s.agenda := rfl
@[simp] theorem raiseIrq_issuer (s : State) (b : BitVec 6) : (s.raiseIrq b).issuer = s.issuer := rfl
@[simp] theorem raiseIrq_free (s : State) (b : BitVec 6) : (s.raiseIrq b).free = s.free := rfl
@[simp] theorem raiseIrq_uid (s : State) (b : BitVec 6) : (s.raiseIrq b).uid = s.uid := rfl
@[simp] theorem raiseIrq_devclk (s : State) (b : BitVec 6) : (s.raiseIrq b).devclk = s.devclk := rfl
@[simp] theorem raiseIrq_coreclk (s : State) (b : BitVec 6) : (s.raiseIrq b).coreclk = s.coreclk := rfl
@[simp] theorem raiseIrq_boot (s : State) (b : BitVec 6) : (s.raiseIrq b).boot = s.boot := rfl
@[simp] theorem raiseIrq_flash (s : State) (b : BitVec 6) : (s.raiseIrq b).flash = s.flash := rfl
@[simp] theorem raiseIrq_image (s : State) (b : BitVec 6) : (s.raiseIrq b).image = s.image := rfl
@[simp] theorem raiseIrq_ctxs (s : State) (b : BitVec 6) : (s.raiseIrq b).ctxs = s.ctxs := rfl
@[simp] theorem raiseIrq_streams (s : State) (b : BitVec 6) : (s.raiseIrq b).streams = s.streams := rfl
@[simp] theorem raiseIrq_grids (s : State) (b : BitVec 6) : (s.raiseIrq b).grids = s.grids := rfl
@[simp] theorem raiseIrq_reservations (s : State) (b : BitVec 6) : (s.raiseIrq b).reservations = s.reservations := rfl
@[simp] theorem raiseIrq_turns (s : State) (b : BitVec 6) : (s.raiseIrq b).turns = s.turns := rfl
@[simp] theorem raiseIrq_teams (s : State) (b : BitVec 6) : (s.raiseIrq b).teams = s.teams := rfl
@[simp] theorem raiseIrq_groups (s : State) (b : BitVec 6) : (s.raiseIrq b).groups = s.groups := rfl
@[simp] theorem raiseIrq_cores (s : State) (b : BitVec 6) : (s.raiseIrq b).cores = s.cores := rfl
@[simp] theorem raiseIrq_copies (s : State) (b : BitVec 6) : (s.raiseIrq b).copies = s.copies := rfl
@[simp] theorem raiseIrq_colls (s : State) (b : BitVec 6) : (s.raiseIrq b).colls = s.colls := rfl
@[simp] theorem raiseIrq_fabric (s : State) (b : BitVec 6) : (s.raiseIrq b).fabric = s.fabric := rfl
@[simp] theorem raiseIrq_host (s : State) (b : BitVec 6) : (s.raiseIrq b).host = s.host := rfl
@[simp] theorem raiseIrq_storage (s : State) (b : BitVec 6) : (s.raiseIrq b).storage = s.storage := rfl

/-! State.raiseMsix -/
@[simp] theorem raiseMsix_agenda (s : State) (v : Nat) : (s.raiseMsix v).agenda = s.agenda := by unfold State.raiseMsix; split <;> rfl
@[simp] theorem raiseMsix_issuer (s : State) (v : Nat) : (s.raiseMsix v).issuer = s.issuer := by unfold State.raiseMsix; split <;> rfl
@[simp] theorem raiseMsix_free (s : State) (v : Nat) : (s.raiseMsix v).free = s.free := by unfold State.raiseMsix; split <;> rfl
@[simp] theorem raiseMsix_uid (s : State) (v : Nat) : (s.raiseMsix v).uid = s.uid := by unfold State.raiseMsix; split <;> rfl
@[simp] theorem raiseMsix_devclk (s : State) (v : Nat) : (s.raiseMsix v).devclk = s.devclk := by unfold State.raiseMsix; split <;> rfl
@[simp] theorem raiseMsix_coreclk (s : State) (v : Nat) : (s.raiseMsix v).coreclk = s.coreclk := by unfold State.raiseMsix; split <;> rfl
@[simp] theorem raiseMsix_boot (s : State) (v : Nat) : (s.raiseMsix v).boot = s.boot := by unfold State.raiseMsix; split <;> rfl
@[simp] theorem raiseMsix_flash (s : State) (v : Nat) : (s.raiseMsix v).flash = s.flash := by unfold State.raiseMsix; split <;> rfl
@[simp] theorem raiseMsix_image (s : State) (v : Nat) : (s.raiseMsix v).image = s.image := by unfold State.raiseMsix; split <;> rfl
@[simp] theorem raiseMsix_ctxs (s : State) (v : Nat) : (s.raiseMsix v).ctxs = s.ctxs := by unfold State.raiseMsix; split <;> rfl
@[simp] theorem raiseMsix_streams (s : State) (v : Nat) : (s.raiseMsix v).streams = s.streams := by unfold State.raiseMsix; split <;> rfl
@[simp] theorem raiseMsix_grids (s : State) (v : Nat) : (s.raiseMsix v).grids = s.grids := by unfold State.raiseMsix; split <;> rfl
@[simp] theorem raiseMsix_reservations (s : State) (v : Nat) : (s.raiseMsix v).reservations = s.reservations := by unfold State.raiseMsix; split <;> rfl
@[simp] theorem raiseMsix_turns (s : State) (v : Nat) : (s.raiseMsix v).turns = s.turns := by unfold State.raiseMsix; split <;> rfl
@[simp] theorem raiseMsix_teams (s : State) (v : Nat) : (s.raiseMsix v).teams = s.teams := by unfold State.raiseMsix; split <;> rfl
@[simp] theorem raiseMsix_groups (s : State) (v : Nat) : (s.raiseMsix v).groups = s.groups := by unfold State.raiseMsix; split <;> rfl
@[simp] theorem raiseMsix_cores (s : State) (v : Nat) : (s.raiseMsix v).cores = s.cores := by unfold State.raiseMsix; split <;> rfl
@[simp] theorem raiseMsix_copies (s : State) (v : Nat) : (s.raiseMsix v).copies = s.copies := by unfold State.raiseMsix; split <;> rfl
@[simp] theorem raiseMsix_colls (s : State) (v : Nat) : (s.raiseMsix v).colls = s.colls := by unfold State.raiseMsix; split <;> rfl
@[simp] theorem raiseMsix_fabric (s : State) (v : Nat) : (s.raiseMsix v).fabric = s.fabric := by unfold State.raiseMsix; split <;> rfl
@[simp] theorem raiseMsix_storage (s : State) (v : Nat) : (s.raiseMsix v).storage = s.storage := by unfold State.raiseMsix; split <;> rfl
@[simp] theorem raiseMsix_mgmt (s : State) (v : Nat) : (s.raiseMsix v).mgmt = s.mgmt := by unfold State.raiseMsix; split <;> rfl

/-! State.interrupt -/
@[simp] theorem interrupt_agenda (s : State) (b : BitVec 6) : (s.interrupt b).agenda = s.agenda := by simp [State.interrupt]
@[simp] theorem interrupt_issuer (s : State) (b : BitVec 6) : (s.interrupt b).issuer = s.issuer := by simp [State.interrupt]
@[simp] theorem interrupt_free (s : State) (b : BitVec 6) : (s.interrupt b).free = s.free := by simp [State.interrupt]
@[simp] theorem interrupt_uid (s : State) (b : BitVec 6) : (s.interrupt b).uid = s.uid := by simp [State.interrupt]
@[simp] theorem interrupt_devclk (s : State) (b : BitVec 6) : (s.interrupt b).devclk = s.devclk := by simp [State.interrupt]
@[simp] theorem interrupt_coreclk (s : State) (b : BitVec 6) : (s.interrupt b).coreclk = s.coreclk := by simp [State.interrupt]
@[simp] theorem interrupt_boot (s : State) (b : BitVec 6) : (s.interrupt b).boot = s.boot := by simp [State.interrupt]
@[simp] theorem interrupt_flash (s : State) (b : BitVec 6) : (s.interrupt b).flash = s.flash := by simp [State.interrupt]
@[simp] theorem interrupt_image (s : State) (b : BitVec 6) : (s.interrupt b).image = s.image := by simp [State.interrupt]
@[simp] theorem interrupt_ctxs (s : State) (b : BitVec 6) : (s.interrupt b).ctxs = s.ctxs := by simp [State.interrupt]
@[simp] theorem interrupt_streams (s : State) (b : BitVec 6) : (s.interrupt b).streams = s.streams := by simp [State.interrupt]
@[simp] theorem interrupt_grids (s : State) (b : BitVec 6) : (s.interrupt b).grids = s.grids := by simp [State.interrupt]
@[simp] theorem interrupt_reservations (s : State) (b : BitVec 6) : (s.interrupt b).reservations = s.reservations := by simp [State.interrupt]
@[simp] theorem interrupt_turns (s : State) (b : BitVec 6) : (s.interrupt b).turns = s.turns := by simp [State.interrupt]
@[simp] theorem interrupt_teams (s : State) (b : BitVec 6) : (s.interrupt b).teams = s.teams := by simp [State.interrupt]
@[simp] theorem interrupt_groups (s : State) (b : BitVec 6) : (s.interrupt b).groups = s.groups := by simp [State.interrupt]
@[simp] theorem interrupt_cores (s : State) (b : BitVec 6) : (s.interrupt b).cores = s.cores := by simp [State.interrupt]
@[simp] theorem interrupt_copies (s : State) (b : BitVec 6) : (s.interrupt b).copies = s.copies := by simp [State.interrupt]
@[simp] theorem interrupt_colls (s : State) (b : BitVec 6) : (s.interrupt b).colls = s.colls := by simp [State.interrupt]
@[simp] theorem interrupt_fabric (s : State) (b : BitVec 6) : (s.interrupt b).fabric = s.fabric := by simp [State.interrupt]
@[simp] theorem interrupt_storage (s : State) (b : BitVec 6) : (s.interrupt b).storage = s.storage := by simp [State.interrupt]

/-! State.hostWrite -/
@[simp] theorem hostWrite_agenda (s : State) (pa : Nat) (l : List Byte) : (s.hostWrite pa l).agenda = s.agenda := rfl
@[simp] theorem hostWrite_issuer (s : State) (pa : Nat) (l : List Byte) : (s.hostWrite pa l).issuer = s.issuer := rfl
@[simp] theorem hostWrite_free (s : State) (pa : Nat) (l : List Byte) : (s.hostWrite pa l).free = s.free := rfl
@[simp] theorem hostWrite_uid (s : State) (pa : Nat) (l : List Byte) : (s.hostWrite pa l).uid = s.uid := rfl
@[simp] theorem hostWrite_devclk (s : State) (pa : Nat) (l : List Byte) : (s.hostWrite pa l).devclk = s.devclk := rfl
@[simp] theorem hostWrite_coreclk (s : State) (pa : Nat) (l : List Byte) : (s.hostWrite pa l).coreclk = s.coreclk := rfl
@[simp] theorem hostWrite_boot (s : State) (pa : Nat) (l : List Byte) : (s.hostWrite pa l).boot = s.boot := rfl
@[simp] theorem hostWrite_flash (s : State) (pa : Nat) (l : List Byte) : (s.hostWrite pa l).flash = s.flash := rfl
@[simp] theorem hostWrite_image (s : State) (pa : Nat) (l : List Byte) : (s.hostWrite pa l).image = s.image := rfl
@[simp] theorem hostWrite_ctxs (s : State) (pa : Nat) (l : List Byte) : (s.hostWrite pa l).ctxs = s.ctxs := rfl
@[simp] theorem hostWrite_streams (s : State) (pa : Nat) (l : List Byte) : (s.hostWrite pa l).streams = s.streams := rfl
@[simp] theorem hostWrite_grids (s : State) (pa : Nat) (l : List Byte) : (s.hostWrite pa l).grids = s.grids := rfl
@[simp] theorem hostWrite_reservations (s : State) (pa : Nat) (l : List Byte) : (s.hostWrite pa l).reservations = s.reservations := rfl
@[simp] theorem hostWrite_turns (s : State) (pa : Nat) (l : List Byte) : (s.hostWrite pa l).turns = s.turns := rfl
@[simp] theorem hostWrite_teams (s : State) (pa : Nat) (l : List Byte) : (s.hostWrite pa l).teams = s.teams := rfl
@[simp] theorem hostWrite_groups (s : State) (pa : Nat) (l : List Byte) : (s.hostWrite pa l).groups = s.groups := rfl
@[simp] theorem hostWrite_cores (s : State) (pa : Nat) (l : List Byte) : (s.hostWrite pa l).cores = s.cores := rfl
@[simp] theorem hostWrite_copies (s : State) (pa : Nat) (l : List Byte) : (s.hostWrite pa l).copies = s.copies := rfl
@[simp] theorem hostWrite_colls (s : State) (pa : Nat) (l : List Byte) : (s.hostWrite pa l).colls = s.colls := rfl
@[simp] theorem hostWrite_fabric (s : State) (pa : Nat) (l : List Byte) : (s.hostWrite pa l).fabric = s.fabric := rfl
@[simp] theorem hostWrite_storage (s : State) (pa : Nat) (l : List Byte) : (s.hostWrite pa l).storage = s.storage := rfl
@[simp] theorem hostWrite_mgmt (s : State) (pa : Nat) (l : List Byte) : (s.hostWrite pa l).mgmt = s.mgmt := rfl

/-! State.addResult -/
@[simp] theorem addResult_agenda (s : State) (k : Here) (u : Nat) (d : List Reg) (w : List RegWrite) (r : List Nat) (a : Option Nat) : (s.addResult k u d w r a).agenda = s.agenda := rfl
@[simp] theorem addResult_issuer (s : State) (k : Here) (u : Nat) (d : List Reg) (w : List RegWrite) (r : List Nat) (a : Option Nat) : (s.addResult k u d w r a).issuer = s.issuer := rfl
@[simp] theorem addResult_free (s : State) (k : Here) (u : Nat) (d : List Reg) (w : List RegWrite) (r : List Nat) (a : Option Nat) : (s.addResult k u d w r a).free = s.free := rfl
@[simp] theorem addResult_uid (s : State) (k : Here) (u : Nat) (d : List Reg) (w : List RegWrite) (r : List Nat) (a : Option Nat) : (s.addResult k u d w r a).uid = s.uid := rfl
@[simp] theorem addResult_devclk (s : State) (k : Here) (u : Nat) (d : List Reg) (w : List RegWrite) (r : List Nat) (a : Option Nat) : (s.addResult k u d w r a).devclk = s.devclk := rfl
@[simp] theorem addResult_coreclk (s : State) (k : Here) (u : Nat) (d : List Reg) (w : List RegWrite) (r : List Nat) (a : Option Nat) : (s.addResult k u d w r a).coreclk = s.coreclk := rfl
@[simp] theorem addResult_boot (s : State) (k : Here) (u : Nat) (d : List Reg) (w : List RegWrite) (r : List Nat) (a : Option Nat) : (s.addResult k u d w r a).boot = s.boot := rfl
@[simp] theorem addResult_flash (s : State) (k : Here) (u : Nat) (d : List Reg) (w : List RegWrite) (r : List Nat) (a : Option Nat) : (s.addResult k u d w r a).flash = s.flash := rfl
@[simp] theorem addResult_image (s : State) (k : Here) (u : Nat) (d : List Reg) (w : List RegWrite) (r : List Nat) (a : Option Nat) : (s.addResult k u d w r a).image = s.image := rfl
@[simp] theorem addResult_ctxs (s : State) (k : Here) (u : Nat) (d : List Reg) (w : List RegWrite) (r : List Nat) (a : Option Nat) : (s.addResult k u d w r a).ctxs = s.ctxs := rfl
@[simp] theorem addResult_streams (s : State) (k : Here) (u : Nat) (d : List Reg) (w : List RegWrite) (r : List Nat) (a : Option Nat) : (s.addResult k u d w r a).streams = s.streams := rfl
@[simp] theorem addResult_grids (s : State) (k : Here) (u : Nat) (d : List Reg) (w : List RegWrite) (r : List Nat) (a : Option Nat) : (s.addResult k u d w r a).grids = s.grids := rfl
@[simp] theorem addResult_reservations (s : State) (k : Here) (u : Nat) (d : List Reg) (w : List RegWrite) (r : List Nat) (a : Option Nat) : (s.addResult k u d w r a).reservations = s.reservations := rfl
@[simp] theorem addResult_turns (s : State) (k : Here) (u : Nat) (d : List Reg) (w : List RegWrite) (r : List Nat) (a : Option Nat) : (s.addResult k u d w r a).turns = s.turns := rfl
@[simp] theorem addResult_teams (s : State) (k : Here) (u : Nat) (d : List Reg) (w : List RegWrite) (r : List Nat) (a : Option Nat) : (s.addResult k u d w r a).teams = s.teams := rfl
@[simp] theorem addResult_cores (s : State) (k : Here) (u : Nat) (d : List Reg) (w : List RegWrite) (r : List Nat) (a : Option Nat) : (s.addResult k u d w r a).cores = s.cores := rfl
@[simp] theorem addResult_copies (s : State) (k : Here) (u : Nat) (d : List Reg) (w : List RegWrite) (r : List Nat) (a : Option Nat) : (s.addResult k u d w r a).copies = s.copies := rfl
@[simp] theorem addResult_colls (s : State) (k : Here) (u : Nat) (d : List Reg) (w : List RegWrite) (r : List Nat) (a : Option Nat) : (s.addResult k u d w r a).colls = s.colls := rfl
@[simp] theorem addResult_fabric (s : State) (k : Here) (u : Nat) (d : List Reg) (w : List RegWrite) (r : List Nat) (a : Option Nat) : (s.addResult k u d w r a).fabric = s.fabric := rfl
@[simp] theorem addResult_host (s : State) (k : Here) (u : Nat) (d : List Reg) (w : List RegWrite) (r : List Nat) (a : Option Nat) : (s.addResult k u d w r a).host = s.host := rfl
@[simp] theorem addResult_storage (s : State) (k : Here) (u : Nat) (d : List Reg) (w : List RegWrite) (r : List Nat) (a : Option Nat) : (s.addResult k u d w r a).storage = s.storage := rfl
@[simp] theorem addResult_mgmt (s : State) (k : Here) (u : Nat) (d : List Reg) (w : List RegWrite) (r : List Nat) (a : Option Nat) : (s.addResult k u d w r a).mgmt = s.mgmt := rfl

/-! Group.setG -/
@[simp] theorem setG_team (h : Group) (n : Nat) (x : DWord) : (h.setG n x).team = h.team := by unfold Group.setG; split <;> rfl
@[simp] theorem setG_gid (h : Group) (n : Nat) (x : DWord) : (h.setG n x).gid = h.gid := by unfold Group.setG; split <;> rfl
@[simp] theorem setG_slot (h : Group) (n : Nat) (x : DWord) : (h.setG n x).slot = h.slot := by unfold Group.setG; split <;> rfl
@[simp] theorem setG_role (h : Group) (n : Nat) (x : DWord) : (h.setG n x).role = h.role := by unfold Group.setG; split <;> rfl
@[simp] theorem setG_budget (h : Group) (n : Nat) (x : DWord) : (h.setG n x).budget = h.budget := by unfold Group.setG; split <;> rfl
@[simp] theorem setG_v (h : Group) (n : Nat) (x : DWord) : (h.setG n x).v = h.v := by unfold Group.setG; split <;> rfl
@[simp] theorem setG_p (h : Group) (n : Nat) (x : DWord) : (h.setG n x).p = h.p := by unfold Group.setG; split <;> rfl
@[simp] theorem setG_q (h : Group) (n : Nat) (x : DWord) : (h.setG n x).q = h.q := by unfold Group.setG; split <;> rfl
@[simp] theorem setG_x (h : Group) (n : Nat) (x : DWord) : (h.setG n x).x = h.x := by unfold Group.setG; split <;> rfl
@[simp] theorem setG_weight (h : Group) (n : Nat) (x : DWord) : (h.setG n x).weight = h.weight := by unfold Group.setG; split <;> rfl
@[simp] theorem setG_splits (h : Group) (n : Nat) (x : DWord) : (h.setG n x).splits = h.splits := by unfold Group.setG; split <;> rfl
@[simp] theorem setG_results (h : Group) (n : Nat) (x : DWord) : (h.setG n x).results = h.results := by unfold Group.setG; split <;> rfl
@[simp] theorem setG_queue (h : Group) (n : Nat) (x : DWord) : (h.setG n x).queue = h.queue := by unfold Group.setG; split <;> rfl
@[simp] theorem setG_passed (h : Group) (n : Nat) (x : DWord) : (h.setG n x).passed = h.passed := by unfold Group.setG; split <;> rfl
@[simp] theorem setG_touched (h : Group) (n : Nat) (x : DWord) : (h.setG n x).touched = h.touched := by unfold Group.setG; split <;> rfl
@[simp] theorem setG_stalled (h : Group) (n : Nat) (x : DWord) : (h.setG n x).stalled = h.stalled := by unfold Group.setG; split <;> rfl
@[simp] theorem setG_raised (h : Group) (n : Nat) (x : DWord) : (h.setG n x).raised = h.raised := by unfold Group.setG; split <;> rfl
@[simp] theorem setG_raisers (h : Group) (n : Nat) (x : DWord) : (h.setG n x).raisers = h.raisers := by unfold Group.setG; split <;> rfl
@[simp] theorem setG_late (h : Group) (n : Nat) (x : DWord) : (h.setG n x).late = h.late := by unfold Group.setG; split <;> rfl
@[simp] theorem setG_struck (h : Group) (n : Nat) (x : DWord) : (h.setG n x).struck = h.struck := by unfold Group.setG; split <;> rfl
@[simp] theorem setG_trapPc (h : Group) (n : Nat) (x : DWord) : (h.setG n x).trapPc = h.trapPc := by unfold Group.setG; split <;> rfl
@[simp] theorem setG_skid (h : Group) (n : Nat) (x : DWord) : (h.setG n x).skid = h.skid := by unfold Group.setG; split <;> rfl
@[simp] theorem setG_recorded (h : Group) (n : Nat) (x : DWord) : (h.setG n x).recorded = h.recorded := by unfold Group.setG; split <;> rfl
@[simp] theorem setG_saved (h : Group) (n : Nat) (x : DWord) : (h.setG n x).saved = h.saved := by unfold Group.setG; split <;> rfl
@[simp] theorem setG_arrivals (h : Group) (n : Nat) (x : DWord) : (h.setG n x).arrivals = h.arrivals := by unfold Group.setG; split <;> rfl
@[simp] theorem setG_retired (h : Group) (n : Nat) (x : DWord) : (h.setG n x).retired = h.retired := by unfold Group.setG; split <;> rfl

/-! Group.setLreg -/
@[simp] theorem setLreg_team (h : Group) (r l : Nat) (x : Word) : (h.setLreg r l x).team = h.team := rfl
@[simp] theorem setLreg_gid (h : Group) (r l : Nat) (x : Word) : (h.setLreg r l x).gid = h.gid := rfl
@[simp] theorem setLreg_slot (h : Group) (r l : Nat) (x : Word) : (h.setLreg r l x).slot = h.slot := rfl
@[simp] theorem setLreg_role (h : Group) (r l : Nat) (x : Word) : (h.setLreg r l x).role = h.role := rfl
@[simp] theorem setLreg_budget (h : Group) (r l : Nat) (x : Word) : (h.setLreg r l x).budget = h.budget := rfl
@[simp] theorem setLreg_g (h : Group) (r l : Nat) (x : Word) : (h.setLreg r l x).g = h.g := rfl
@[simp] theorem setLreg_p (h : Group) (r l : Nat) (x : Word) : (h.setLreg r l x).p = h.p := rfl
@[simp] theorem setLreg_q (h : Group) (r l : Nat) (x : Word) : (h.setLreg r l x).q = h.q := rfl
@[simp] theorem setLreg_x (h : Group) (r l : Nat) (x : Word) : (h.setLreg r l x).x = h.x := rfl
@[simp] theorem setLreg_weight (h : Group) (r l : Nat) (x : Word) : (h.setLreg r l x).weight = h.weight := rfl
@[simp] theorem setLreg_splits (h : Group) (r l : Nat) (x : Word) : (h.setLreg r l x).splits = h.splits := rfl
@[simp] theorem setLreg_results (h : Group) (r l : Nat) (x : Word) : (h.setLreg r l x).results = h.results := rfl
@[simp] theorem setLreg_queue (h : Group) (r l : Nat) (x : Word) : (h.setLreg r l x).queue = h.queue := rfl
@[simp] theorem setLreg_passed (h : Group) (r l : Nat) (x : Word) : (h.setLreg r l x).passed = h.passed := rfl
@[simp] theorem setLreg_touched (h : Group) (r l : Nat) (x : Word) : (h.setLreg r l x).touched = h.touched := rfl
@[simp] theorem setLreg_stalled (h : Group) (r l : Nat) (x : Word) : (h.setLreg r l x).stalled = h.stalled := rfl
@[simp] theorem setLreg_raised (h : Group) (r l : Nat) (x : Word) : (h.setLreg r l x).raised = h.raised := rfl
@[simp] theorem setLreg_raisers (h : Group) (r l : Nat) (x : Word) : (h.setLreg r l x).raisers = h.raisers := rfl
@[simp] theorem setLreg_late (h : Group) (r l : Nat) (x : Word) : (h.setLreg r l x).late = h.late := rfl
@[simp] theorem setLreg_struck (h : Group) (r l : Nat) (x : Word) : (h.setLreg r l x).struck = h.struck := rfl
@[simp] theorem setLreg_trapPc (h : Group) (r l : Nat) (x : Word) : (h.setLreg r l x).trapPc = h.trapPc := rfl
@[simp] theorem setLreg_skid (h : Group) (r l : Nat) (x : Word) : (h.setLreg r l x).skid = h.skid := rfl
@[simp] theorem setLreg_recorded (h : Group) (r l : Nat) (x : Word) : (h.setLreg r l x).recorded = h.recorded := rfl
@[simp] theorem setLreg_saved (h : Group) (r l : Nat) (x : Word) : (h.setLreg r l x).saved = h.saved := rfl
@[simp] theorem setLreg_arrivals (h : Group) (r l : Nat) (x : Word) : (h.setLreg r l x).arrivals = h.arrivals := rfl
@[simp] theorem setLreg_retired (h : Group) (r l : Nat) (x : Word) : (h.setLreg r l x).retired = h.retired := rfl

/-! Group.setLpair -/
@[simp] theorem setLpair_team (h : Group) (r l : Nat) (x : DWord) : (h.setLpair r l x).team = h.team := rfl
@[simp] theorem setLpair_gid (h : Group) (r l : Nat) (x : DWord) : (h.setLpair r l x).gid = h.gid := rfl
@[simp] theorem setLpair_slot (h : Group) (r l : Nat) (x : DWord) : (h.setLpair r l x).slot = h.slot := rfl
@[simp] theorem setLpair_role (h : Group) (r l : Nat) (x : DWord) : (h.setLpair r l x).role = h.role := rfl
@[simp] theorem setLpair_budget (h : Group) (r l : Nat) (x : DWord) : (h.setLpair r l x).budget = h.budget := rfl
@[simp] theorem setLpair_g (h : Group) (r l : Nat) (x : DWord) : (h.setLpair r l x).g = h.g := rfl
@[simp] theorem setLpair_p (h : Group) (r l : Nat) (x : DWord) : (h.setLpair r l x).p = h.p := rfl
@[simp] theorem setLpair_q (h : Group) (r l : Nat) (x : DWord) : (h.setLpair r l x).q = h.q := rfl
@[simp] theorem setLpair_x (h : Group) (r l : Nat) (x : DWord) : (h.setLpair r l x).x = h.x := rfl
@[simp] theorem setLpair_weight (h : Group) (r l : Nat) (x : DWord) : (h.setLpair r l x).weight = h.weight := rfl
@[simp] theorem setLpair_splits (h : Group) (r l : Nat) (x : DWord) : (h.setLpair r l x).splits = h.splits := rfl
@[simp] theorem setLpair_results (h : Group) (r l : Nat) (x : DWord) : (h.setLpair r l x).results = h.results := rfl
@[simp] theorem setLpair_queue (h : Group) (r l : Nat) (x : DWord) : (h.setLpair r l x).queue = h.queue := rfl
@[simp] theorem setLpair_passed (h : Group) (r l : Nat) (x : DWord) : (h.setLpair r l x).passed = h.passed := rfl
@[simp] theorem setLpair_touched (h : Group) (r l : Nat) (x : DWord) : (h.setLpair r l x).touched = h.touched := rfl
@[simp] theorem setLpair_stalled (h : Group) (r l : Nat) (x : DWord) : (h.setLpair r l x).stalled = h.stalled := rfl
@[simp] theorem setLpair_raised (h : Group) (r l : Nat) (x : DWord) : (h.setLpair r l x).raised = h.raised := rfl
@[simp] theorem setLpair_raisers (h : Group) (r l : Nat) (x : DWord) : (h.setLpair r l x).raisers = h.raisers := rfl
@[simp] theorem setLpair_late (h : Group) (r l : Nat) (x : DWord) : (h.setLpair r l x).late = h.late := rfl
@[simp] theorem setLpair_struck (h : Group) (r l : Nat) (x : DWord) : (h.setLpair r l x).struck = h.struck := rfl
@[simp] theorem setLpair_trapPc (h : Group) (r l : Nat) (x : DWord) : (h.setLpair r l x).trapPc = h.trapPc := rfl
@[simp] theorem setLpair_skid (h : Group) (r l : Nat) (x : DWord) : (h.setLpair r l x).skid = h.skid := rfl
@[simp] theorem setLpair_recorded (h : Group) (r l : Nat) (x : DWord) : (h.setLpair r l x).recorded = h.recorded := rfl
@[simp] theorem setLpair_saved (h : Group) (r l : Nat) (x : DWord) : (h.setLpair r l x).saved = h.saved := rfl
@[simp] theorem setLpair_arrivals (h : Group) (r l : Nat) (x : DWord) : (h.setLpair r l x).arrivals = h.arrivals := rfl
@[simp] theorem setLpair_retired (h : Group) (r l : Nat) (x : DWord) : (h.setLpair r l x).retired = h.retired := rfl

/-! Group.setPmask -/
@[simp] theorem setPmask_team (h : Group) (n : Nat) (m : LaneMask) : (h.setPmask n m).team = h.team := by unfold Group.setPmask; split <;> rfl
@[simp] theorem setPmask_gid (h : Group) (n : Nat) (m : LaneMask) : (h.setPmask n m).gid = h.gid := by unfold Group.setPmask; split <;> rfl
@[simp] theorem setPmask_slot (h : Group) (n : Nat) (m : LaneMask) : (h.setPmask n m).slot = h.slot := by unfold Group.setPmask; split <;> rfl
@[simp] theorem setPmask_role (h : Group) (n : Nat) (m : LaneMask) : (h.setPmask n m).role = h.role := by unfold Group.setPmask; split <;> rfl
@[simp] theorem setPmask_budget (h : Group) (n : Nat) (m : LaneMask) : (h.setPmask n m).budget = h.budget := by unfold Group.setPmask; split <;> rfl
@[simp] theorem setPmask_v (h : Group) (n : Nat) (m : LaneMask) : (h.setPmask n m).v = h.v := by unfold Group.setPmask; split <;> rfl
@[simp] theorem setPmask_g (h : Group) (n : Nat) (m : LaneMask) : (h.setPmask n m).g = h.g := by unfold Group.setPmask; split <;> rfl
@[simp] theorem setPmask_q (h : Group) (n : Nat) (m : LaneMask) : (h.setPmask n m).q = h.q := by unfold Group.setPmask; split <;> rfl
@[simp] theorem setPmask_x (h : Group) (n : Nat) (m : LaneMask) : (h.setPmask n m).x = h.x := by unfold Group.setPmask; split <;> rfl
@[simp] theorem setPmask_weight (h : Group) (n : Nat) (m : LaneMask) : (h.setPmask n m).weight = h.weight := by unfold Group.setPmask; split <;> rfl
@[simp] theorem setPmask_splits (h : Group) (n : Nat) (m : LaneMask) : (h.setPmask n m).splits = h.splits := by unfold Group.setPmask; split <;> rfl
@[simp] theorem setPmask_results (h : Group) (n : Nat) (m : LaneMask) : (h.setPmask n m).results = h.results := by unfold Group.setPmask; split <;> rfl
@[simp] theorem setPmask_queue (h : Group) (n : Nat) (m : LaneMask) : (h.setPmask n m).queue = h.queue := by unfold Group.setPmask; split <;> rfl
@[simp] theorem setPmask_passed (h : Group) (n : Nat) (m : LaneMask) : (h.setPmask n m).passed = h.passed := by unfold Group.setPmask; split <;> rfl
@[simp] theorem setPmask_touched (h : Group) (n : Nat) (m : LaneMask) : (h.setPmask n m).touched = h.touched := by unfold Group.setPmask; split <;> rfl
@[simp] theorem setPmask_stalled (h : Group) (n : Nat) (m : LaneMask) : (h.setPmask n m).stalled = h.stalled := by unfold Group.setPmask; split <;> rfl
@[simp] theorem setPmask_raised (h : Group) (n : Nat) (m : LaneMask) : (h.setPmask n m).raised = h.raised := by unfold Group.setPmask; split <;> rfl
@[simp] theorem setPmask_raisers (h : Group) (n : Nat) (m : LaneMask) : (h.setPmask n m).raisers = h.raisers := by unfold Group.setPmask; split <;> rfl
@[simp] theorem setPmask_late (h : Group) (n : Nat) (m : LaneMask) : (h.setPmask n m).late = h.late := by unfold Group.setPmask; split <;> rfl
@[simp] theorem setPmask_struck (h : Group) (n : Nat) (m : LaneMask) : (h.setPmask n m).struck = h.struck := by unfold Group.setPmask; split <;> rfl
@[simp] theorem setPmask_trapPc (h : Group) (n : Nat) (m : LaneMask) : (h.setPmask n m).trapPc = h.trapPc := by unfold Group.setPmask; split <;> rfl
@[simp] theorem setPmask_skid (h : Group) (n : Nat) (m : LaneMask) : (h.setPmask n m).skid = h.skid := by unfold Group.setPmask; split <;> rfl
@[simp] theorem setPmask_recorded (h : Group) (n : Nat) (m : LaneMask) : (h.setPmask n m).recorded = h.recorded := by unfold Group.setPmask; split <;> rfl
@[simp] theorem setPmask_saved (h : Group) (n : Nat) (m : LaneMask) : (h.setPmask n m).saved = h.saved := by unfold Group.setPmask; split <;> rfl
@[simp] theorem setPmask_arrivals (h : Group) (n : Nat) (m : LaneMask) : (h.setPmask n m).arrivals = h.arrivals := by unfold Group.setPmask; split <;> rfl
@[simp] theorem setPmask_retired (h : Group) (n : Nat) (m : LaneMask) : (h.setPmask n m).retired = h.retired := by unfold Group.setPmask; split <;> rfl

/-! Group.setQ -/
@[simp] theorem setQ_team (h : Group) (n : Nat) (b : Bool) : (h.setQ n b).team = h.team := by unfold Group.setQ; split <;> rfl
@[simp] theorem setQ_gid (h : Group) (n : Nat) (b : Bool) : (h.setQ n b).gid = h.gid := by unfold Group.setQ; split <;> rfl
@[simp] theorem setQ_slot (h : Group) (n : Nat) (b : Bool) : (h.setQ n b).slot = h.slot := by unfold Group.setQ; split <;> rfl
@[simp] theorem setQ_role (h : Group) (n : Nat) (b : Bool) : (h.setQ n b).role = h.role := by unfold Group.setQ; split <;> rfl
@[simp] theorem setQ_budget (h : Group) (n : Nat) (b : Bool) : (h.setQ n b).budget = h.budget := by unfold Group.setQ; split <;> rfl
@[simp] theorem setQ_v (h : Group) (n : Nat) (b : Bool) : (h.setQ n b).v = h.v := by unfold Group.setQ; split <;> rfl
@[simp] theorem setQ_g (h : Group) (n : Nat) (b : Bool) : (h.setQ n b).g = h.g := by unfold Group.setQ; split <;> rfl
@[simp] theorem setQ_p (h : Group) (n : Nat) (b : Bool) : (h.setQ n b).p = h.p := by unfold Group.setQ; split <;> rfl
@[simp] theorem setQ_x (h : Group) (n : Nat) (b : Bool) : (h.setQ n b).x = h.x := by unfold Group.setQ; split <;> rfl
@[simp] theorem setQ_weight (h : Group) (n : Nat) (b : Bool) : (h.setQ n b).weight = h.weight := by unfold Group.setQ; split <;> rfl
@[simp] theorem setQ_splits (h : Group) (n : Nat) (b : Bool) : (h.setQ n b).splits = h.splits := by unfold Group.setQ; split <;> rfl
@[simp] theorem setQ_results (h : Group) (n : Nat) (b : Bool) : (h.setQ n b).results = h.results := by unfold Group.setQ; split <;> rfl
@[simp] theorem setQ_queue (h : Group) (n : Nat) (b : Bool) : (h.setQ n b).queue = h.queue := by unfold Group.setQ; split <;> rfl
@[simp] theorem setQ_passed (h : Group) (n : Nat) (b : Bool) : (h.setQ n b).passed = h.passed := by unfold Group.setQ; split <;> rfl
@[simp] theorem setQ_touched (h : Group) (n : Nat) (b : Bool) : (h.setQ n b).touched = h.touched := by unfold Group.setQ; split <;> rfl
@[simp] theorem setQ_stalled (h : Group) (n : Nat) (b : Bool) : (h.setQ n b).stalled = h.stalled := by unfold Group.setQ; split <;> rfl
@[simp] theorem setQ_raised (h : Group) (n : Nat) (b : Bool) : (h.setQ n b).raised = h.raised := by unfold Group.setQ; split <;> rfl
@[simp] theorem setQ_raisers (h : Group) (n : Nat) (b : Bool) : (h.setQ n b).raisers = h.raisers := by unfold Group.setQ; split <;> rfl
@[simp] theorem setQ_late (h : Group) (n : Nat) (b : Bool) : (h.setQ n b).late = h.late := by unfold Group.setQ; split <;> rfl
@[simp] theorem setQ_struck (h : Group) (n : Nat) (b : Bool) : (h.setQ n b).struck = h.struck := by unfold Group.setQ; split <;> rfl
@[simp] theorem setQ_trapPc (h : Group) (n : Nat) (b : Bool) : (h.setQ n b).trapPc = h.trapPc := by unfold Group.setQ; split <;> rfl
@[simp] theorem setQ_skid (h : Group) (n : Nat) (b : Bool) : (h.setQ n b).skid = h.skid := by unfold Group.setQ; split <;> rfl
@[simp] theorem setQ_recorded (h : Group) (n : Nat) (b : Bool) : (h.setQ n b).recorded = h.recorded := by unfold Group.setQ; split <;> rfl
@[simp] theorem setQ_saved (h : Group) (n : Nat) (b : Bool) : (h.setQ n b).saved = h.saved := by unfold Group.setQ; split <;> rfl
@[simp] theorem setQ_arrivals (h : Group) (n : Nat) (b : Bool) : (h.setQ n b).arrivals = h.arrivals := by unfold Group.setQ; split <;> rfl
@[simp] theorem setQ_retired (h : Group) (n : Nat) (b : Bool) : (h.setQ n b).retired = h.retired := by unfold Group.setQ; split <;> rfl

/-! Group.setX -/
@[simp] theorem setX_team (h : Group) (n l : Nat) (x : Half) : (h.setX n l x).team = h.team := rfl
@[simp] theorem setX_gid (h : Group) (n l : Nat) (x : Half) : (h.setX n l x).gid = h.gid := rfl
@[simp] theorem setX_slot (h : Group) (n l : Nat) (x : Half) : (h.setX n l x).slot = h.slot := rfl
@[simp] theorem setX_role (h : Group) (n l : Nat) (x : Half) : (h.setX n l x).role = h.role := rfl
@[simp] theorem setX_budget (h : Group) (n l : Nat) (x : Half) : (h.setX n l x).budget = h.budget := rfl
@[simp] theorem setX_v (h : Group) (n l : Nat) (x : Half) : (h.setX n l x).v = h.v := rfl
@[simp] theorem setX_g (h : Group) (n l : Nat) (x : Half) : (h.setX n l x).g = h.g := rfl
@[simp] theorem setX_p (h : Group) (n l : Nat) (x : Half) : (h.setX n l x).p = h.p := rfl
@[simp] theorem setX_q (h : Group) (n l : Nat) (x : Half) : (h.setX n l x).q = h.q := rfl
@[simp] theorem setX_weight (h : Group) (n l : Nat) (x : Half) : (h.setX n l x).weight = h.weight := rfl
@[simp] theorem setX_splits (h : Group) (n l : Nat) (x : Half) : (h.setX n l x).splits = h.splits := rfl
@[simp] theorem setX_results (h : Group) (n l : Nat) (x : Half) : (h.setX n l x).results = h.results := rfl
@[simp] theorem setX_queue (h : Group) (n l : Nat) (x : Half) : (h.setX n l x).queue = h.queue := rfl
@[simp] theorem setX_passed (h : Group) (n l : Nat) (x : Half) : (h.setX n l x).passed = h.passed := rfl
@[simp] theorem setX_touched (h : Group) (n l : Nat) (x : Half) : (h.setX n l x).touched = h.touched := rfl
@[simp] theorem setX_stalled (h : Group) (n l : Nat) (x : Half) : (h.setX n l x).stalled = h.stalled := rfl
@[simp] theorem setX_raised (h : Group) (n l : Nat) (x : Half) : (h.setX n l x).raised = h.raised := rfl
@[simp] theorem setX_raisers (h : Group) (n l : Nat) (x : Half) : (h.setX n l x).raisers = h.raisers := rfl
@[simp] theorem setX_late (h : Group) (n l : Nat) (x : Half) : (h.setX n l x).late = h.late := rfl
@[simp] theorem setX_struck (h : Group) (n l : Nat) (x : Half) : (h.setX n l x).struck = h.struck := rfl
@[simp] theorem setX_trapPc (h : Group) (n l : Nat) (x : Half) : (h.setX n l x).trapPc = h.trapPc := rfl
@[simp] theorem setX_skid (h : Group) (n l : Nat) (x : Half) : (h.setX n l x).skid = h.skid := rfl
@[simp] theorem setX_recorded (h : Group) (n l : Nat) (x : Half) : (h.setX n l x).recorded = h.recorded := rfl
@[simp] theorem setX_saved (h : Group) (n l : Nat) (x : Half) : (h.setX n l x).saved = h.saved := rfl
@[simp] theorem setX_arrivals (h : Group) (n l : Nat) (x : Half) : (h.setX n l x).arrivals = h.arrivals := rfl
@[simp] theorem setX_retired (h : Group) (n l : Nat) (x : Half) : (h.setX n l x).retired = h.retired := rfl

/-! Group.retire -/
@[simp] theorem retire_team (h : Group) (p n : Nat) (b : Bool) : (h.retire p n b).team = h.team := rfl
@[simp] theorem retire_gid (h : Group) (p n : Nat) (b : Bool) : (h.retire p n b).gid = h.gid := rfl
@[simp] theorem retire_slot (h : Group) (p n : Nat) (b : Bool) : (h.retire p n b).slot = h.slot := rfl
@[simp] theorem retire_role (h : Group) (p n : Nat) (b : Bool) : (h.retire p n b).role = h.role := rfl
@[simp] theorem retire_budget (h : Group) (p n : Nat) (b : Bool) : (h.retire p n b).budget = h.budget := rfl
@[simp] theorem retire_v (h : Group) (p n : Nat) (b : Bool) : (h.retire p n b).v = h.v := rfl
@[simp] theorem retire_g (h : Group) (p n : Nat) (b : Bool) : (h.retire p n b).g = h.g := rfl
@[simp] theorem retire_p (h : Group) (p n : Nat) (b : Bool) : (h.retire p n b).p = h.p := rfl
@[simp] theorem retire_q (h : Group) (p n : Nat) (b : Bool) : (h.retire p n b).q = h.q := rfl
@[simp] theorem retire_x (h : Group) (p n : Nat) (b : Bool) : (h.retire p n b).x = h.x := rfl
@[simp] theorem retire_weight (h : Group) (p n : Nat) (b : Bool) : (h.retire p n b).weight = h.weight := rfl
@[simp] theorem retire_queue (h : Group) (p n : Nat) (b : Bool) : (h.retire p n b).queue = h.queue := rfl
@[simp] theorem retire_passed (h : Group) (p n : Nat) (b : Bool) : (h.retire p n b).passed = h.passed := rfl
@[simp] theorem retire_touched (h : Group) (p n : Nat) (b : Bool) : (h.retire p n b).touched = h.touched := rfl
@[simp] theorem retire_stalled (h : Group) (p n : Nat) (b : Bool) : (h.retire p n b).stalled = h.stalled := rfl
@[simp] theorem retire_raised (h : Group) (p n : Nat) (b : Bool) : (h.retire p n b).raised = h.raised := rfl
@[simp] theorem retire_raisers (h : Group) (p n : Nat) (b : Bool) : (h.retire p n b).raisers = h.raisers := rfl
@[simp] theorem retire_late (h : Group) (p n : Nat) (b : Bool) : (h.retire p n b).late = h.late := rfl
@[simp] theorem retire_struck (h : Group) (p n : Nat) (b : Bool) : (h.retire p n b).struck = h.struck := rfl
@[simp] theorem retire_trapPc (h : Group) (p n : Nat) (b : Bool) : (h.retire p n b).trapPc = h.trapPc := rfl
@[simp] theorem retire_recorded (h : Group) (p n : Nat) (b : Bool) : (h.retire p n b).recorded = h.recorded := rfl
@[simp] theorem retire_saved (h : Group) (p n : Nat) (b : Bool) : (h.retire p n b).saved = h.saved := rfl
@[simp] theorem retire_arrivals (h : Group) (p n : Nat) (b : Bool) : (h.retire p n b).arrivals = h.arrivals := rfl

/-! Group.modSplit -/
@[simp] theorem group_modSplit_team (h : Group) (p : Nat) (f : Split → Split) : (h.modSplit p f).team = h.team := rfl
@[simp] theorem group_modSplit_gid (h : Group) (p : Nat) (f : Split → Split) : (h.modSplit p f).gid = h.gid := rfl
@[simp] theorem group_modSplit_slot (h : Group) (p : Nat) (f : Split → Split) : (h.modSplit p f).slot = h.slot := rfl
@[simp] theorem group_modSplit_role (h : Group) (p : Nat) (f : Split → Split) : (h.modSplit p f).role = h.role := rfl
@[simp] theorem group_modSplit_budget (h : Group) (p : Nat) (f : Split → Split) : (h.modSplit p f).budget = h.budget := rfl
@[simp] theorem group_modSplit_v (h : Group) (p : Nat) (f : Split → Split) : (h.modSplit p f).v = h.v := rfl
@[simp] theorem group_modSplit_g (h : Group) (p : Nat) (f : Split → Split) : (h.modSplit p f).g = h.g := rfl
@[simp] theorem group_modSplit_p (h : Group) (p : Nat) (f : Split → Split) : (h.modSplit p f).p = h.p := rfl
@[simp] theorem group_modSplit_q (h : Group) (p : Nat) (f : Split → Split) : (h.modSplit p f).q = h.q := rfl
@[simp] theorem group_modSplit_x (h : Group) (p : Nat) (f : Split → Split) : (h.modSplit p f).x = h.x := rfl
@[simp] theorem group_modSplit_weight (h : Group) (p : Nat) (f : Split → Split) : (h.modSplit p f).weight = h.weight := rfl
@[simp] theorem group_modSplit_results (h : Group) (p : Nat) (f : Split → Split) : (h.modSplit p f).results = h.results := rfl
@[simp] theorem group_modSplit_queue (h : Group) (p : Nat) (f : Split → Split) : (h.modSplit p f).queue = h.queue := rfl
@[simp] theorem group_modSplit_passed (h : Group) (p : Nat) (f : Split → Split) : (h.modSplit p f).passed = h.passed := rfl
@[simp] theorem group_modSplit_touched (h : Group) (p : Nat) (f : Split → Split) : (h.modSplit p f).touched = h.touched := rfl
@[simp] theorem group_modSplit_stalled (h : Group) (p : Nat) (f : Split → Split) : (h.modSplit p f).stalled = h.stalled := rfl
@[simp] theorem group_modSplit_raised (h : Group) (p : Nat) (f : Split → Split) : (h.modSplit p f).raised = h.raised := rfl
@[simp] theorem group_modSplit_raisers (h : Group) (p : Nat) (f : Split → Split) : (h.modSplit p f).raisers = h.raisers := rfl
@[simp] theorem group_modSplit_late (h : Group) (p : Nat) (f : Split → Split) : (h.modSplit p f).late = h.late := rfl
@[simp] theorem group_modSplit_struck (h : Group) (p : Nat) (f : Split → Split) : (h.modSplit p f).struck = h.struck := rfl
@[simp] theorem group_modSplit_trapPc (h : Group) (p : Nat) (f : Split → Split) : (h.modSplit p f).trapPc = h.trapPc := rfl
@[simp] theorem group_modSplit_skid (h : Group) (p : Nat) (f : Split → Split) : (h.modSplit p f).skid = h.skid := rfl
@[simp] theorem group_modSplit_recorded (h : Group) (p : Nat) (f : Split → Split) : (h.modSplit p f).recorded = h.recorded := rfl
@[simp] theorem group_modSplit_saved (h : Group) (p : Nat) (f : Split → Split) : (h.modSplit p f).saved = h.saved := rfl
@[simp] theorem group_modSplit_arrivals (h : Group) (p : Nat) (f : Split → Split) : (h.modSplit p f).arrivals = h.arrivals := rfl
@[simp] theorem group_modSplit_retired (h : Group) (p : Nat) (f : Split → Split) : (h.modSplit p f).retired = h.retired := rfl

/-! State.unlessStalled -/

/-- With no record in the second store, a move makes of the state what it makes (R398). -/
theorem unlessStalled_of_room {s : State} (h : s.unread ≤ 256) (s' : State) : s.unlessStalled s' = s' := by
  simp [State.unlessStalled, show ¬256 < s.unread by omega]

end Sys2Proof.Machine
end

