-- ==== Sys2Proof/Laws/Tables.lean ====
section
/-!
SUPPORT. Sparse tables: a read after a write, and that every operation keeps the canonical form.
-/
namespace Sys2Proof

variable {w : Nat}

theorem SMap.wfFrom_mono {lo lo' : Nat} (m : SMap w) (h : SMap.wfFrom lo m = true) (hl : lo' ≤ lo) :
    SMap.wfFrom lo' m = true := by
  cases m with
  | nil => rfl
  | cons e m => simp only [SMap.wfFrom, Bool.and_eq_true, decide_eq_true_eq] at h ⊢; exact ⟨⟨by omega, h.1.2⟩, h.2⟩

theorem SMap.wfFrom_wf {lo : Nat} (m : SMap w) (h : SMap.wfFrom lo m = true) : SMap.wf m = true :=
  SMap.wfFrom_mono m h (Nat.zero_le lo)

theorem SMap.wfFrom_set {lo : Nat} (m : SMap w) (k : Nat) (x : BitVec w) (hk : lo ≤ k)
    (h : SMap.wfFrom lo m = true) : SMap.wfFrom lo (SMap.set m k x) = true := by
  induction m generalizing lo with
  | nil => by_cases hx : x = 0#w <;> simp [SMap.set, SMap.wfFrom, hx, hk]
  | cons e m ih =>
    obtain ⟨a, b⟩ := e
    simp only [SMap.wfFrom, Bool.and_eq_true, decide_eq_true_eq] at h
    obtain ⟨⟨hla, hb'⟩, hm⟩ := h
    have hb : ¬ b = 0#w := hb'
    by_cases h1 : k < a
    · by_cases hx : x = 0#w
      · simp [SMap.set, h1, hx, SMap.wfFrom, hla, hb, hm]
      · simp [SMap.set, h1, hx, SMap.wfFrom, hk, hb, hm]
    · by_cases h2 : k = a
      · by_cases hx : x = 0#w
        · subst h2 hx
          simp only [SMap.set, lt_irrefl, if_false, if_true]
          exact SMap.wfFrom_mono m hm (by omega)
        · simp [SMap.set, h2, hx, SMap.wfFrom, hla, hm]
      · have := ih (by omega : a + 1 ≤ k) hm
        simp [SMap.set, h1, h2, SMap.wfFrom, hla, hb, this]

theorem SMap.wf_set (m : SMap w) (k : Nat) (x : BitVec w) (h : SMap.wf m = true) : SMap.wf (SMap.set m k x) = true :=
  SMap.wfFrom_set m k x (Nat.zero_le k) h

theorem SMap.wf_setRun (l : List (BitVec w)) (m : SMap w) (k : Nat) (h : SMap.wf m = true) :
    SMap.wf (SMap.setRun m k l) = true := by
  induction l generalizing m k with
  | nil => exact h
  | cons x l ih => exact ih _ _ (SMap.wf_set m k x h)

theorem SMap.wfFrom_filter {lo : Nat} (m : SMap w) (f : Nat × BitVec w → Bool) (h : SMap.wfFrom lo m = true) :
    SMap.wfFrom lo (m.filter f) = true := by
  induction m generalizing lo with
  | nil => rfl
  | cons e m ih =>
    obtain ⟨a, b⟩ := e
    simp only [SMap.wfFrom, Bool.and_eq_true, decide_eq_true_eq] at h
    have hb : ¬ b = 0#w := h.1.2
    rw [List.filter_cons]
    split
    · simp [SMap.wfFrom, h.1.1, hb, ih h.2]
    · exact SMap.wfFrom_mono _ (ih h.2) (by omega)

theorem SMap.wf_filter (m : SMap w) (f : Nat × BitVec w → Bool) (h : SMap.wf m = true) :
    SMap.wf (m.filter f) = true := SMap.wfFrom_filter m f h

theorem SMap.wf_within (m : SMap w) (a n : Nat) (h : SMap.wf m = true) : SMap.wf (SMap.within m a n) = true :=
  SMap.wf_filter m _ h

theorem SMap.wf_without (m : SMap w) (a n : Nat) (h : SMap.wf m = true) : SMap.wf (SMap.without m a n) = true :=
  SMap.wf_filter m _ h

theorem SMap.wf_foldSet {α : Type} (l : List α) (m : SMap w) (k : α → Nat) (x : α → BitVec w) (h : SMap.wf m = true) :
    SMap.wf (l.foldl (fun m e => SMap.set m (k e) (x e)) m) = true := by
  induction l generalizing m with
  | nil => exact h
  | cons e l ih => exact ih _ (SMap.wf_set m _ _ h)

theorem SMap.wf_copyRange (m : SMap w) (src n dst : Nat) (h : SMap.wf m = true) :
    SMap.wf (SMap.copyRange m src n dst) = true :=
  SMap.wf_foldSet (SMap.within m src n) _ (fun e : Nat × BitVec w => e.1 - src + dst) (fun e => e.2) (SMap.wf_without m dst n h)

@[simp] theorem SMap.wf_nil : SMap.wf ([] : SMap w) = true := rfl

/-! ### Reads after writes -/

theorem SMap.get_of_lt {lo k : Nat} (m : SMap w) (h : SMap.wfFrom lo m = true) (hk : k < lo) : SMap.get m k = 0 := by
  cases m with
  | nil => rfl
  | cons e m =>
    obtain ⟨a, b⟩ := e
    simp only [SMap.wfFrom, Bool.and_eq_true, decide_eq_true_eq] at h
    have : k < a := by omega
    simp [SMap.get, this]

theorem SMap.get_set_of_wf {lo : Nat} (m : SMap w) (k j : Nat) (x : BitVec w) (h : SMap.wfFrom lo m = true) :
    SMap.get (SMap.set m k x) j = if j = k then x else SMap.get m j := by
  induction m generalizing lo with
  | nil =>
    by_cases hx : x = 0#w
    · simp [SMap.set, hx, SMap.get]
    · by_cases hj : j = k
      · simp [SMap.set, hx, SMap.get, hj]
      · simp [SMap.set, hx, SMap.get, hj]
  | cons e m ih =>
    obtain ⟨a, b⟩ := e
    simp only [SMap.wfFrom, Bool.and_eq_true, decide_eq_true_eq] at h
    obtain ⟨-, hm⟩ := h
    have hz := SMap.get_of_lt (k := j) m hm
    by_cases h1 : k < a
    · by_cases hx : x = 0#w
      · by_cases hj : j = k
        · subst hj; simp [SMap.set, h1, hx, SMap.get]
        · simp [SMap.set, h1, hx, hj]
      · by_cases hj : j = k
        · subst hj; simp [SMap.set, h1, hx, SMap.get]
        · by_cases h2 : j < k
          · have : j < a := by omega
            simp [SMap.set, h1, hx, SMap.get, h2, hj, this]
          · simp [SMap.set, h1, hx, SMap.get, h2, hj]
    · by_cases h2 : k = a
      · subst h2
        by_cases hx : x = 0#w
        · by_cases hj : j = k
          · subst hj
            simp [SMap.set, hx, SMap.get_of_lt (k := j) m hm (by omega)]
          · by_cases h3 : j < k
            · simp [SMap.set, hx, hj, SMap.get, h3, SMap.get_of_lt (k := j) m hm (by omega)]
            · simp [SMap.set, hx, hj, SMap.get, h3]
        · by_cases hj : j = k
          · subst hj; simp [SMap.set, hx, SMap.get]
          · by_cases h3 : j < k <;> simp [SMap.set, hx, hj, SMap.get, h3]
      · have := ih hm
        by_cases hj : j = k
        · subst hj
          simp [SMap.set, h1, h2, SMap.get, this]
        · simp [SMap.set, h1, h2, SMap.get, this, hj]

/-- A read after a write: the written key reads the word, every other key as before. -/
theorem SMap.get_set (m : SMap w) (k j : Nat) (x : BitVec w) (h : SMap.wf m = true) :
    SMap.get (SMap.set m k x) j = if j = k then x else SMap.get m j := SMap.get_set_of_wf m k j x h

/-- A read after a write of consecutive keys. -/
theorem SMap.get_setRun (l : List (BitVec w)) (m : SMap w) (k j : Nat) (h : SMap.wf m = true) :
    SMap.get (SMap.setRun m k l) j = if k ≤ j ∧ j < k + l.length then l.getD (j - k) 0 else SMap.get m j := by
  induction l generalizing m k with
  | nil =>
    have : ¬(k ≤ j ∧ j < k + ([] : List (BitVec w)).length) := by simp
    rw [if_neg this]; rfl
  | cons x l ih =>
    rw [SMap.setRun, ih _ _ (SMap.wf_set m k x h), SMap.get_set m k j x h]
    by_cases h1 : j = k
    · subst h1; simp
    · by_cases h2 : k + 1 ≤ j ∧ j < k + 1 + l.length
      · have h3 : k ≤ j ∧ j < k + (l.length + 1) := by omega
        have h4 : j - k = (j - (k + 1)) + 1 := by omega
        simp only [List.length_cons, h2, h3, and_self, if_true]
        rw [h4]; simp
      · have h3 : ¬(k ≤ j ∧ j < k + (l.length + 1)) := by omega
        simp only [List.length_cons, if_neg h2, if_neg h3, if_neg h1]

end Sys2Proof
end

