-- ==== Sys2Proof/Laws/Issue.lean ====
section
/-!
SUPPORT. The issue of one fetched instruction: what a ready instruction's meaning ends in, and what it changes.
-/
namespace Sys2Proof.Machine

/-! ### What is ready -/

theorem team?_uid {s : State} {t : Nat} {x : Team} (h : s.team? t = some x) : x.uid = t := by
  have := List.find?_some h; simpa using this

theorem group?_key {s : State} {t g : Nat} {h : Group} (e : s.group? t g = some h) : h.team = t ∧ h.gid = g := by
  have := List.find?_some e; simpa using this

/-- The issuing split, its group and its team are the state's own. -/
theorem issuing_spec {s : State} {x : Team} {h : Group} {p : Split} (e : s.issuing = some (x, h, p)) :
    s.issuer = .split x.uid h.gid p.id ∧ s.team? x.uid = some x ∧ s.group? x.uid h.gid = some h ∧
      h.split? p.id = some p := by
  unfold State.issuing at e
  split at e
  · rename_i t g q hi
    split at e
    · rename_i y k ht hg
      rw [Option.map_eq_some_iff] at e
      obtain ⟨z, hz, e⟩ := e
      simp only [Prod.mk.injEq] at e
      obtain ⟨rfl, rfl, rfl⟩ := e
      have h1 := team?_uid ht
      have h2 := (group?_key hg).2
      have h3 : z.id = q := by have := List.find?_some hz; simpa using this
      subst h1 h2 h3
      exact ⟨hi, ht, hg, hz⟩
    · cases e
  · cases e

/-- What `ready` answers, condition by condition. -/
theorem ready_spec {s : State} {i : Instr} {k : Here} (e : s.ready i = some k) :
    ∃ lp fm p, s.issuing = some (k.team, k.grp, p) ∧ k.sp = p.justIssued ∧ i.form = some (lp, k.f, fm) ∧
      mayIssue k.team k.grp p = true ∧ windowWaits k.grp p = false ∧
      (lp = true ∨ guardHolds k.grp k.f.g = true) ∧ issueCause i k.grp p lp k.f fm = none ∧ k.grp.struck ≠ some p.id ∧
      k.mask = if lp then guardLanes k.grp p k.f.g else p.lanes := by
  unfold State.ready at e
  split at e
  · rename_i x h p lp f fm h1 h2
    split at e
    · rename_i hc
      simp only [Option.some.injEq] at e
      subst e
      simp only [Bool.and_eq_true, Bool.not_eq_true', Bool.or_eq_true, decide_eq_true_eq] at hc
      exact ⟨lp, fm, p, h1, rfl, h2, hc.1.1.1.1, hc.1.1.1.2, hc.1.1.2, hc.1.2, hc.2, rfl⟩
    · cases e
  · cases e

theorem ready_group {s : State} {i : Instr} {k : Here} (e : s.ready i = some k) :
    s.group? k.team.uid k.grp.gid = some k.grp ∧ s.team? k.team.uid = some k.team ∧ k.grp.team = k.team.uid := by
  obtain ⟨_, _, _, h, -⟩ := ready_spec e
  obtain ⟨-, h1, h2, -⟩ := issuing_spec h
  exact ⟨h2, h1, (group?_key h2).1⟩

/-- A ready instruction ends in what its body answers. -/
theorem issue_ready {s : State} {i : Instr} {k : Here} (body : Here → State → Body) (e : s.ready i = some k) :
    issue i s body = .next (match body k (s.issued i k) with
      | .next t => t
      | .wait => s
      | .trap c => s.raise k.team.uid k.grp.gid (some k.sp.id) c k.sp.pc
      | .replay pages kind code => s.stall k.team k.grp.gid k.sp.id pages kind code
      | .late t c => t.lateFrom k.team.uid k.grp.gid (some k.sp.id) (if k.grp.inHandler then some k.sp.pc else none) c
      | .hold f => f s
      | .breaks f c => (f s).raise k.team.uid k.grp.gid (some k.sp.id) c k.sp.pc) := by
  obtain ⟨lp, fm, p, h1, hp, h2, h3, h4, h5, h6, h7, h8⟩ := ready_spec e
  have hk : k = ⟨k.team, k.grp, p.justIssued, k.f, if lp then guardLanes k.grp p k.f.g else p.lanes⟩ := by rw [← h8, ← hp]
  have go : (lp || guardHolds k.grp k.f.g) = true := by simpa using h5
  unfold issue issueWith
  simp only [h1, h2, h3, h4, go, h6, h7, lowerCause, ite_self, Bool.not_true, Bool.or_self, Bool.false_eq_true, if_false]
  rw [← hk]
  unfold State.issued
  rw [hp, show p.justIssued.id = p.id from rfl, show p.justIssued.pc = p.pc from rfl]
  cases body k _ <;> rfl

/-- Likewise where the body is asked first for causes, and there are none. -/
theorem issueWith_ready {s : State} {i : Instr} {k : Here} (more : Here → Option (BitVec 8)) (body : Here → State → Body)
    (e : s.ready i = some k) (hm : more k = none) : issueWith i s more body = issue i s body := by
  obtain ⟨lp, fm, p, h1, hp, h2, h3, h4, h5, h6, h7, h8⟩ := ready_spec e
  have hk : k = ⟨k.team, k.grp, p.justIssued, k.f, if lp then guardLanes k.grp p k.f.g else p.lanes⟩ := by rw [← h8, ← hp]
  have go : (lp || guardHolds k.grp k.f.g) = true := by simpa using h5
  rw [hk] at hm
  unfold issue issueWith
  simp only [h1, h2, h3, h4, go, h6, hm, lowerCause, ite_self]

/-! ### A change of the issuing group alone -/

theorem find?_modGroup (l : List Group) (t g a b : Nat) (f : Group → Group)
    (hf : ∀ h, (f h).team = h.team ∧ (f h).gid = h.gid) :
    (l.map fun h => if h.team = t && h.gid = g then f h else h).find? (fun h => h.team = a && h.gid = b) =
      (l.find? fun h => h.team = a && h.gid = b).map fun h => if h.team = t && h.gid = g then f h else h := by
  rw [List.find?_map]
  congr 2
  funext h
  simp only [Function.comp_apply]
  split
  · rw [(hf h).1, (hf h).2]
  · rfl

theorem group?_modGroup (s : State) (t g a b : Nat) (f : Group → Group)
    (hf : ∀ h, (f h).team = h.team ∧ (f h).gid = h.gid) :
    (s.modGroup t g f).group? a b = (s.group? a b).map fun h => if h.team = t && h.gid = g then f h else h :=
  find?_modGroup s.groups t g a b f hf

/-- A state that differs from `s` in its issuing group alone. -/
theorem onlyGroup_modGroup {s : State} {k : Here} (f : Group → Group)
    (hf : ∀ h, (f h).team = h.team ∧ (f h).gid = h.gid)
    (hk : s.group? k.team.uid k.grp.gid = some k.grp) :
    OnlyGroup s (s.modGroup k.team.uid k.grp.gid f) k (f k.grp) := by
  have key := group?_key hk
  refine ⟨rfl, ?_, ?_⟩
  · rw [group?_modGroup _ _ _ _ _ _ hf, hk]
    simp [key.1]
  · intro a b hab
    rw [group?_modGroup _ _ _ _ _ _ hf]
    cases hg : s.group? a b with
    | none => rfl
    | some h =>
      have := group?_key hg
      have hne : ¬(h.team = k.team.uid ∧ h.gid = k.grp.gid) := by
        rintro ⟨h1, h2⟩; exact hab (by rw [← this.1, ← this.2, h1, h2])
      simp only [Option.map_some]
      rw [if_neg (by simpa using hne)]

theorem modGroup_modGroup (s : State) (t g : Nat) (f f' : Group → Group)
    (hf : ∀ h, (f h).team = h.team ∧ (f h).gid = h.gid) :
    (s.modGroup t g f).modGroup t g f' = s.modGroup t g fun h => f' (f h) := by
  unfold State.modGroup
  simp only [List.map_map, State.mk.injEq, true_and, and_true]
  refine List.map_congr_left fun h _ => ?_
  simp only [Function.comp_apply]
  split
  · rename_i hc
    rw [(hf h).1, (hf h).2, if_pos hc]
  · rfl

theorem retire_key (h : Group) (p n : Nat) (b : Bool) : (h.retire p n b).team = h.team ∧ (h.retire p n b).gid = h.gid :=
  ⟨rfl, rfl⟩

/-- A ready instruction that only changes registers of its group: the group it leaves. -/
theorem issueRegs_ready {s : State} {i : Instr} {k : Here} (f : Here → Group → Group) (e : s.ready i = some k)
    (hf : ∀ h, (f k h).team = h.team ∧ (f k h).gid = h.gid) :
    ∃ t, issueRegs i s f = .next t ∧ OnlyGroup s t k (f k (k.issued i)) := by
  refine ⟨_, issue_ready _ e, ?_⟩
  simp only [State.issued]
  rw [modGroup_modGroup _ _ _ _ _ (fun h => retire_key h _ _ _)]
  exact onlyGroup_modGroup (fun h => f k (h.retire _ _ _)) (fun h => hf _) (ready_group e).1

/-! ### Writes of lane registers -/

theorem laneList_mem (m : LaneMask) (l : Nat) : l ∈ laneList m ↔ m.getLsbD l = true := by
  unfold laneList
  rw [List.mem_filter, List.mem_range]
  exact ⟨fun h => h.2, fun h => ⟨BitVec.lt_of_getLsbD h, h⟩⟩

theorem laneList_lt (m : LaneMask) (l : Nat) (h : l ∈ laneList m) : l < 32 := by
  unfold laneList at h
  rw [List.mem_filter, List.mem_range] at h
  exact h.1

theorem lreg_setLreg (h : Group) (r l r' l' : Nat) (x : Word) (hw : SMap.wf h.v = true) (hl : l < 32) (hl' : l' < 32) :
    (h.setLreg r l x).lreg r' l' = if r' = r ∧ l' = l then x else h.lreg r' l' := by
  unfold Group.lreg Group.setLreg
  rw [SMap.get_set _ _ _ _ hw]
  by_cases hc : r' = r ∧ l' = l
  · simp [hc]
  · rw [if_neg hc, if_neg (by omega)]

/-- The lane-register writes of one lane. -/
def Group.setLane (h : Group) (r n l : Nat) (x : DWord) : Group :=
  if n = 2 then h.setLpair r l x else h.setLreg r l (x.setWidth 32)

theorem extract_low (x : DWord) : x.extractLsb' 0 32 = x.setWidth 32 := by
  ext j hj; simp [BitVec.getElem_extractLsb']

theorem setLane_wf (h : Group) (r n l : Nat) (x : DWord) (hw : SMap.wf h.v = true) :
    SMap.wf (h.setLane r n l x).v = true := by
  unfold Group.setLane
  split
  · exact SMap.wf_set _ _ _ (SMap.wf_set _ _ _ hw)
  · exact SMap.wf_set _ _ _ hw

theorem setLane_rest (h : Group) (r n l : Nat) (x : DWord) (v : SMap 32) :
    { h.setLane r n l x with v := v } = { h with v := v } := by
  unfold Group.setLane
  split <;> rfl

/-- What one lane's write reads as: register `j` of the operand in that lane, else as before. -/
theorem setLane_lreg (h : Group) (r n l r' l' : Nat) (x : DWord) (hn : n = 1 ∨ n = 2) (hw : SMap.wf h.v = true)
    (hl : l < 32) (hl' : l' < 32) :
    (h.setLane r n l x).lreg r' l' =
      if l' = l ∧ r ≤ r' ∧ r' < r + n then x.extractLsb' (32 * (r' - r)) 32 else h.lreg r' l' := by
  unfold Group.setLane
  rcases hn with rfl | rfl
  · simp only [OfNat.one_ne_ofNat, if_false]
    rw [lreg_setLreg _ _ _ _ _ _ hw hl hl']
    by_cases hc : r' = r ∧ l' = l
    · obtain ⟨rfl, rfl⟩ := hc
      simp [extract_low]
    · rw [if_neg hc, if_neg (by omega)]
  · simp only [if_true]
    unfold Group.setLpair
    rw [lreg_setLreg _ _ _ _ _ _ (SMap.wf_set _ _ _ hw) hl hl', lreg_setLreg _ _ _ _ _ _ hw hl hl']
    by_cases h1 : r' = r + 1 ∧ l' = l
    · obtain ⟨rfl, rfl⟩ := h1
      simp
    · by_cases h2 : r' = r ∧ l' = l
      · obtain ⟨rfl, rfl⟩ := h2
        simp [extract_low]
      · rw [if_neg h1, if_neg h2, if_neg (by omega)]

theorem setLanes_eq (h : Group) (r n : Nat) (m : LaneMask) (f : Nat → DWord) :
    h.setLanes r n m f = (laneList m).foldl (fun h l => h.setLane r n l (f l)) h := rfl

theorem foldl_setLane (ls : List Nat) (h : Group) (r n : Nat) (f : Nat → DWord) (hn : n = 1 ∨ n = 2)
    (hw : SMap.wf h.v = true) (hls : ∀ l ∈ ls, l < 32) :
    let h' := ls.foldl (fun h l => h.setLane r n l (f l)) h
    SMap.wf h'.v = true ∧ (∀ v, { h' with v := v } = { h with v := v }) ∧
      ∀ r' l', l' < 32 → h'.lreg r' l' =
        if l' ∈ ls ∧ r ≤ r' ∧ r' < r + n then (f l').extractLsb' (32 * (r' - r)) 32 else h.lreg r' l' := by
  induction ls generalizing h with
  | nil => exact ⟨hw, fun _ => rfl, fun r' l' _ => by simp⟩
  | cons l ls ih =>
    obtain ⟨h1, h2, h3⟩ := ih (h.setLane r n l (f l)) (setLane_wf _ _ _ _ _ hw) fun x hx => hls x (List.mem_cons_of_mem _ hx)
    refine ⟨h1, fun v => (h2 v).trans (setLane_rest _ _ _ _ _ _), fun r' l' hl' => ?_⟩
    refine (h3 r' l' hl').trans ?_
    rw [setLane_lreg _ _ _ _ _ _ _ hn hw (hls l (List.mem_cons_self ..)) hl']
    by_cases ha : l' ∈ ls <;> by_cases hb : l' = l <;> by_cases hc : r ≤ r' ∧ r' < r + n <;> simp_all

/-- What an operand of `n` lane registers from `r` holds in a lane. -/
theorem operand_setLanes (h : Group) (r n : Nat) (m : LaneMask) (f : Nat → DWord) (hn : n = 1 ∨ n = 2)
    (hw : SMap.wf h.v = true) (l : Nat) (hl : m.getLsbD l = true) :
    (h.setLanes r n m f).operand r n l = if n = 2 then f l else ((f l).setWidth 32).setWidth 64 := by
  have hl32 : l < 32 := BitVec.lt_of_getLsbD hl
  obtain ⟨-, -, h3⟩ := foldl_setLane (laneList m) h r n f hn hw fun l hl => laneList_lt m l hl
  rw [← setLanes_eq] at h3
  have hm := (laneList_mem m l).2 hl
  unfold Group.operand Group.lpair
  rcases hn with rfl | rfl
  · simp [h3 r l hl32, hm, extract_low]
  · simp only [if_true]
    rw [h3 r l hl32, h3 (r + 1) l hl32]
    simp only [hm, true_and]
    rw [if_pos (by omega), if_pos (by omega)]
    ext j hj
    simp only [BitVec.getElem_append, BitVec.getElem_extractLsb']
    by_cases hj' : j < 32 <;> simp [hj', BitVec.getLsbD_eq_getElem hj]
    rw [show 32 + (j - 32) = j by omega]
    exact BitVec.getLsbD_eq_getElem hj

theorem setLane_key (h : Group) (r n l : Nat) (x : DWord) :
    (h.setLane r n l x).team = h.team ∧ (h.setLane r n l x).gid = h.gid := by
  unfold Group.setLane
  split
  · exact ⟨rfl, rfl⟩
  · exact ⟨rfl, rfl⟩

theorem setLanes_key (h : Group) (r n : Nat) (m : LaneMask) (f : Nat → DWord) :
    (h.setLanes r n m f).team = h.team ∧ (h.setLanes r n m f).gid = h.gid := by
  rw [setLanes_eq]
  induction laneList m generalizing h with
  | nil => exact ⟨rfl, rfl⟩
  | cons l ls ih =>
    rw [List.foldl_cons]
    exact ⟨(ih _).1.trans (setLane_key ..).1, (ih _).2.trans (setLane_key ..).2⟩

/-- The lane registers of a group and the rest of it after a write of lane registers. -/
theorem laneFrame_setLanes (k : Here) (i : Instr) (r n : Nat) (f : Nat → DWord) (hn : n = 1 ∨ n = 2)
    (hw : SMap.wf k.grp.v = true) : LaneFrame k i r n ((k.issued i).setLanes r n k.mask f) := by
  have hv : (k.issued i).v = k.grp.v := rfl
  have hl : ∀ r lane, (k.issued i).lreg r lane = k.grp.lreg r lane := fun _ _ => rfl
  have hr : { k.issued i with v := k.grp.v } = k.issued i := rfl
  obtain ⟨-, h2, h3⟩ := foldl_setLane (laneList k.mask) (k.issued i) r n f hn (by rw [hv]; exact hw) fun l hl => laneList_lt _ l hl
  refine ⟨(h2 k.grp.v).trans hr, fun r' lane hn' hlt => (h3 r' lane hlt).trans ?_⟩
  rw [if_neg, hl]
  rw [laneList_mem]
  rintro ⟨a, b, c⟩
  exact hn' ⟨b, c, a⟩

/-- A ready instruction that writes `n` lane registers of D: the lane frame and each lane's operand. -/
theorem issueLanes_ready {s : State} {i : Instr} {k : Here} (n : Nat) (f : Here → Nat → DWord) (hn : n = 1 ∨ n = 2)
    (e : s.ready i = some k) (hw : SMap.wf k.grp.v = true) :
    ∃ t h, issueLanes i s n f = .next t ∧ OnlyGroup s t k h ∧ LaneFrame k i k.f.d.toNat n h ∧
      ∀ l, k.mask.getLsbD l = true →
        h.operand k.f.d.toNat n l = if n = 2 then f k l else ((f k l).setWidth 32).setWidth 64 := by
  obtain ⟨t, h1, h2⟩ := issueRegs_ready (fun k h => h.setLanes k.f.d.toNat n k.mask (f k)) e fun h => setLanes_key h ..
  exact ⟨t, _, h1, h2, laneFrame_setLanes k i _ _ _ hn hw, fun l hl => operand_setLanes (k.issued i) _ _ _ _ hn hw l hl⟩

/-! ### Group registers -/

theorem greg_setG (h : Group) (n r : Nat) (x : DWord) (hw : SMap.wf h.g = true) :
    (h.setG n x).greg r = if r = n ∧ n ≠ 0 then x else h.greg r := by
  unfold Group.greg Group.setG
  by_cases hn : n = 0
  · subst hn; by_cases hr : r = 0 <;> simp [hr]
  · by_cases hr : r = 0
    · subst hr; simp [hn, Ne.symm hn]
    · simp only [hn, hr, if_false]
      rw [SMap.get_set _ _ _ _ hw]
      by_cases h1 : r = n <;> simp [h1, hn]

/-- A ready instruction that writes gD: the group frame and gD, whose write g0 discards (R181). -/
theorem issueGroup_ready {s : State} {i : Instr} {k : Here} (f : Here → DWord) (e : s.ready i = some k)
    (hw : SMap.wf k.grp.g = true) :
    ∃ t h, issueGroup i s f = .next t ∧ OnlyGroup s t k h ∧ GroupFrame k i k.f.d.toNat h ∧
      h.greg k.f.d.toNat = if k.f.d = 0 then 0 else f k := by
  obtain ⟨t, h1, h2⟩ := issueRegs_ready (fun k h => h.setG k.f.d.toNat (f k)) e fun h => by
    unfold Group.setG; split <;> exact ⟨rfl, rfl⟩
  refine ⟨t, _, h1, h2, ⟨?_, ?_⟩, ?_⟩
  · unfold Group.setG; split <;> rfl
  · intro r hr
    refine (greg_setG (k.issued i) _ _ _ hw).trans ?_
    rw [if_neg (by tauto)]; rfl
  · refine (greg_setG (k.issued i) _ _ _ hw).trans ?_
    have hd : k.f.d.toNat = 0 ↔ k.f.d = 0 := by rw [← BitVec.toNat_inj]; rfl
    by_cases h0 : k.f.d = 0
    · have := hd.2 h0
      rw [if_neg (by tauto), if_pos h0, this]; rfl
    · rw [if_pos ⟨rfl, by rwa [Ne, hd]⟩, if_neg h0]

end Sys2Proof.Machine
end

