-- ==== Sys2Proof/Laws/Keeps.lean ====
section
/-!
SUPPORT. What every operation keeps: a legal machine stays legal, and what R432 guards stays as it is. One lemma per
shared operation; each extends a chain of operations by one.
-/
namespace Sys2Proof.Machine

/-- `t` follows from `s`: legal if `s` is, with the same guarded data. -/
structure Keeps (s t : State) : Prop where
  legal : s.Legal → t.Legal
  guarded : t.guarded = s.guarded

theorem Keeps.refl (s : State) : Keeps s s := ⟨id, rfl⟩

theorem Keeps.trans {a b c : State} (h : Keeps a b) (g : Keeps b c) : Keeps a c :=
  ⟨fun x => g.legal (h.legal x), g.guarded.trans h.guarded⟩

/-- A state whose parts of interest follow from another's. The first premise finds that other state. -/
theorem Keeps.of {s0 s t : State} (_ : t.boot = s.boot) (h : Keeps s0 s)
    (mem : SMap.wf s.storage.mem = true → SMap.wf t.storage.mem = true)
    (media : SMap.wf s.storage.media = true → SMap.wf t.storage.media = true)
    (host : SMap.wf s.host.mem = true → SMap.wf t.host.mem = true)
    (teams : (∀ x ∈ s.teams, Team.tidy x = true) → ∀ x ∈ t.teams, Team.tidy x = true)
    (groups : (∀ x ∈ s.groups, Group.tidy x = true) → ∀ x ∈ t.groups, Group.tidy x = true)
    (mgmt : s.mgmt.Legal → t.mgmt.Legal)
    (streams : t.streams.length = s.streams.length)
    (ctxs : t.ctxs.map Ctx.guarded = s.ctxs.map Ctx.guarded)
    (device : t.fabric.deviceId = s.fabric.deviceId) : Keeps s0 t := by
  refine h.trans ⟨fun l => ⟨?_, teams l.teams, groups l.groups, mgmt l.mgmt, streams.trans l.streams, ?_⟩, ?_⟩
  · have m := l.memory
    simp only [Memory.wf, Bool.and_eq_true] at m ⊢
    exact ⟨⟨mem m.1.1, media m.1.2⟩, host m.2⟩
  · rw [ctxs]; exact l.ctxs
  · simp only [State.guarded, ctxs, device]

/-- Management registers that differ in none of the fields with a rule are as legal as before. -/
theorem Mgmt.Legal.of {m n : Mgmt} (pcap : n.pcap = m.pcap) (clk : n.clk = m.clk) (tmout : n.tmout = m.tmout)
    (sar : n.sar.length = m.sar.length) (h : m.Legal) : n.Legal :=
  ⟨by simp only [Mgmt.capLegal, pcap]; exact h.cap, by simp only [Mgmt.clockLegal, clk]; exact h.clock,
   by simp only [Mgmt.timeoutsLegal, tmout]; exact h.timeouts, sar.trans h.sars⟩

theorem Keeps.foldl {α : Type} {s0 s : State} (l : List α) (f : State → α → State)
    (h : Keeps s0 s) (hf : ∀ s a, Keeps s0 s → Keeps s0 (f s a)) : Keeps s0 (l.foldl f s) := by
  induction l generalizing s with
  | nil => exact h
  | cons a l ih => exact ih (hf s a h)

theorem forall_map {α : Type} {p : α → Prop} {l : List α} {f : α → α} (hf : ∀ a, p a → p (f a)) (h : ∀ a ∈ l, p a) :
    ∀ a ∈ l.map f, p a := by
  intro a ha; obtain ⟨b, hb, rfl⟩ := List.mem_map.mp ha; exact hf b (h b hb)

theorem forall_filter {α : Type} {p : α → Prop} {l : List α} {f : α → Bool} (h : ∀ a ∈ l, p a) :
    ∀ a ∈ l.filter f, p a := fun a ha => h a (List.mem_filter.mp ha).1

theorem forall_append {α : Type} {p : α → Prop} {l m : List α} (h : ∀ a ∈ l, p a) (h' : ∀ a ∈ m, p a) :
    ∀ a ∈ l ++ m, p a := fun a ha => (List.mem_append.mp ha).elim (h a) (h' a)

variable {base s : State}

theorem keeps_fresh (h : Keeps base s) : Keeps base s.fresh := Keeps.of (s := s) rfl h id id id id id id rfl rfl rfl

theorem keeps_modGroup {t g : Nat} {f : Group → Group} (h : Keeps base s)
    (hf : ∀ h, Group.tidy h = true → Group.tidy (f h) = true) : Keeps base (s.modGroup t g f) := by
  refine Keeps.of (s := s) rfl h id id id id (forall_map fun a ha => ?_) id rfl rfl rfl
  split
  · exact hf a ha
  · exact ha

theorem keeps_modTeam {t : Nat} {f : Team → Team} (h : Keeps base s)
    (hf : ∀ h, Team.tidy h = true → Team.tidy (f h) = true) : Keeps base (s.modTeam t f) := by
  refine Keeps.of (s := s) rfl h id id id (forall_map fun a ha => ?_) id id rfl rfl rfl
  split
  · exact hf a ha
  · exact ha

theorem keeps_modGrid {u : Nat} {f : Grid → Grid} (h : Keeps base s) : Keeps base (s.modGrid u f) :=
  Keeps.of (s := s) rfl h id id id id id id rfl rfl rfl
theorem keeps_modCopy {u : Nat} {f : Copy → Copy} (h : Keeps base s) : Keeps base (s.modCopy u f) :=
  Keeps.of (s := s) rfl h id id id id id id rfl rfl rfl
theorem keeps_modColl {u : Nat} {f : Coll → Coll} (h : Keeps base s) : Keeps base (s.modColl u f) :=
  Keeps.of (s := s) rfl h id id id id id id rfl rfl rfl
theorem keeps_modStream {n : Nat} {f : Stream → Stream} (h : Keeps base s) : Keeps base (s.modStream n f) :=
  Keeps.of (s := s) rfl h id id id id id id (by simp [State.modStream]) rfl rfl

theorem map_guarded_modCtx {l : List Ctx} {c : Nat} {f : Ctx → Ctx} (hf : ∀ x, (f x).guarded = x.guarded) :
    (l.map fun x => if x.id = c then f x else x).map Ctx.guarded = l.map Ctx.guarded := by
  rw [List.map_map]; apply List.map_congr_left; intro x _; simp only [Function.comp]; split
  · exact hf x
  · rfl

theorem keeps_modCtx {c : Nat} {f : Ctx → Ctx} (h : Keeps base s) (hf : ∀ x, (f x).guarded = x.guarded) :
    Keeps base (s.modCtx c f) :=
  Keeps.of (s := s) rfl h id id id id id id rfl (map_guarded_modCtx hf) rfl

theorem keeps_modCore {c : Nat} {f : Core → Core} (h : Keeps base s) : Keeps base (s.modCore c f) := by
  unfold State.modCore; split <;> exact Keeps.of (s := s) rfl h id id id id id id rfl rfl rfl

theorem keeps_raiseIrq {b : BitVec 6} (h : Keeps base s) : Keeps base (s.raiseIrq b) :=
  Keeps.of (s := s) rfl h id id id id id (Mgmt.Legal.of rfl rfl rfl rfl) rfl rfl rfl

theorem keeps_hostWrite {pa : Nat} {b : List Byte} (h : Keeps base s) : Keeps base (s.hostWrite pa b) :=
  Keeps.of (s := s) rfl h id id (SMap.wf_setRun _ _ _) id id id rfl rfl rfl

/-! ### Groups and teams -/

/-- A group is tidy when its registers are those of a tidy group. -/
theorem tidy_of {h g : Group} (hh : Group.tidy h = true) (v : g.v = h.v) (gg : g.g = h.g) (p : g.p = h.p) (x : g.x = h.x)
    (w : g.weight = h.weight) : Group.tidy g = true := by
  simp only [Group.tidy, v, gg, p, x, w] at hh ⊢; exact hh

theorem tidy_setG {h : Group} {n : Nat} {x : DWord} (hh : Group.tidy h = true) : Group.tidy (h.setG n x) = true := by
  unfold Group.setG
  split
  · exact hh
  · simp only [Group.tidy, Bool.and_eq_true] at hh ⊢
    exact ⟨⟨⟨⟨hh.1.1.1.1, SMap.wf_set _ _ _ hh.1.1.1.2⟩, hh.1.1.2⟩, hh.1.2⟩, hh.2⟩

theorem tidy_setLreg {h : Group} {r l : Nat} {x : Word} (hh : Group.tidy h = true) : Group.tidy (h.setLreg r l x) = true := by
  simp only [Group.setLreg, Group.tidy, Bool.and_eq_true] at hh ⊢
  exact ⟨⟨⟨⟨SMap.wf_set _ _ _ hh.1.1.1.1, hh.1.1.1.2⟩, hh.1.1.2⟩, hh.1.2⟩, hh.2⟩

theorem tidy_setLpair {h : Group} {r l : Nat} {x : DWord} (hh : Group.tidy h = true) : Group.tidy (h.setLpair r l x) = true :=
  tidy_setLreg (tidy_setLreg hh)

theorem tidy_setPmask {h : Group} {n : Nat} {m : LaneMask} (hh : Group.tidy h = true) : Group.tidy (h.setPmask n m) = true := by
  unfold Group.setPmask
  split
  · exact hh
  · simp only [Group.tidy, Bool.and_eq_true] at hh ⊢
    exact ⟨⟨⟨hh.1.1.1, SMap.wf_set _ _ _ hh.1.1.2⟩, hh.1.2⟩, hh.2⟩

theorem tidy_setQ {h : Group} {n : Nat} {b : Bool} (hh : Group.tidy h = true) : Group.tidy (h.setQ n b) = true := by
  unfold Group.setQ; split <;> exact hh

theorem tidy_setX {h : Group} {n l : Nat} {x : Half} (hh : Group.tidy h = true) : Group.tidy (h.setX n l x) = true := by
  simp only [Group.setX, Group.tidy, Bool.and_eq_true] at hh ⊢
  exact ⟨⟨hh.1.1, SMap.wf_set _ _ _ hh.1.2⟩, hh.2⟩

theorem tidy_foldl {α : Type} {h : Group} (l : List α) (f : Group → α → Group) (hh : Group.tidy h = true)
    (hf : ∀ g a, Group.tidy g = true → Group.tidy (f g a) = true) : Group.tidy (l.foldl f h) = true := by
  induction l generalizing h with
  | nil => exact hh
  | cons a l ih => exact ih (hf h a hh)

theorem tidy_setLanes {h : Group} {r n : Nat} {m : LaneMask} {f : Nat → DWord} (hh : Group.tidy h = true) :
    Group.tidy (h.setLanes r n m f) = true := by
  refine tidy_foldl _ _ hh fun g a hg => ?_
  split
  · exact tidy_setLpair hg
  · exact tidy_setLreg hg

theorem tidy_setPred {h : Group} {n : Nat} {m : LaneMask} {f : Nat → Bool} (hh : Group.tidy h = true) :
    Group.tidy (h.setPred n m f) = true := tidy_setPmask hh

theorem tidy_setIdx {h : Group} {n : Nat} {m : LaneMask} {f : Nat → Half} (hh : Group.tidy h = true) :
    Group.tidy (h.setIdx n m f) = true := tidy_foldl _ _ hh fun _ _ hg => tidy_setX hg

theorem tidy_applyWrite {h : Group} {w : RegWrite} (hh : Group.tidy h = true) : Group.tidy (h.applyWrite w) = true := by
  cases w with
  | v r l x => exact tidy_setLreg hh
  | g r x => exact tidy_setG hh
  | q r b => exact tidy_setQ hh
  | p r l b => exact tidy_setPmask hh

theorem tidy_unpark {h : Group} {f : Split → Bool} (hh : Group.tidy h = true) : Group.tidy (h.unpark f) = true := hh
theorem tidy_enterTrap {h : Group} {n : Nat} (hh : Group.tidy h = true) : Group.tidy (h.enterTrap n) = true := by
  unfold Group.enterTrap; dsimp only; split <;> exact hh
theorem tidy_leaveTrap {h : Group} (hh : Group.tidy h = true) : Group.tidy h.leaveTrap = true := by
  unfold Group.leaveTrap; split <;> exact hh
theorem tidy_forgetCause {h : Group} (hh : Group.tidy h = true) : Group.tidy h.forgetCause = true := hh
theorem tidy_retire {h : Group} {p n : Nat} {b : Bool} (hh : Group.tidy h = true) : Group.tidy (h.retire p n b) = true := hh
theorem tidy_modSplit {h : Group} {p : Nat} {f : Split → Split} (hh : Group.tidy h = true) :
    Group.tidy (h.modSplit p f) = true := hh
theorem tidy_closeWindows {h : Group} {p : Nat} (hh : Group.tidy h = true) : Group.tidy (h.closeWindows p) = true := hh
theorem tidy_dropSplit {h : Group} {p : Nat} (hh : Group.tidy h = true) : Group.tidy (h.dropSplit p) = true := hh
theorem tidy_absorb {h : Group} {k : Split} {l : List Split} (hh : Group.tidy h = true) : Group.tidy (h.absorb k l) = true := hh
theorem tidy_mergeAt {h : Group} {pc : DWord} (hh : Group.tidy h = true) : Group.tidy (h.mergeAt pc) = true := by
  unfold Group.mergeAt; dsimp only; repeat' split
  all_goals exact hh
theorem tidy_mergeAll {h : Group} (hh : Group.tidy h = true) : Group.tidy h.mergeAll = true :=
  tidy_foldl _ _ hh fun _ _ hg => tidy_mergeAt hg
theorem tidy_releaseHeld {h : Group} (hh : Group.tidy h = true) : Group.tidy h.releaseHeld = true := by
  unfold Group.releaseHeld; split <;> exact hh
theorem tidy_endLanes {h : Group} {p : Split} {m : LaneMask} (hh : Group.tidy h = true) : Group.tidy (h.endLanes p m) = true := by
  unfold Group.endLanes; dsimp only; repeat' split
  all_goals exact hh
theorem tidy_clearWeights {h : Group} {l : List Nat} (hh : Group.tidy h = true) : Group.tidy (h.clearWeights l) = true := by
  simp only [Group.clearWeights, Group.tidy, Bool.and_eq_true] at hh ⊢
  exact ⟨hh.1, SMap.wf_foldSet l _ _ _ hh.2⟩
theorem tidy_diverge {h g : Group} {p : Split} {b : Option DWord} {ts : List (DWord × LaneMask)} (hh : Group.tidy h = true)
    (e : h.diverge p b ts = some g) : Group.tidy g = true := by
  cases ts with
  | nil => cases e; exact hh
  | cons t l =>
    simp only [Group.diverge, Option.ite_none_left_eq_some, Option.some.injEq] at e
    rw [← e.2]; exact hh

/-! ### A state written out field by field -/

theorem Keeps.mk' {s0 s : State} {a b c d e e'} {boot : Boot} {f g ctxs streams h' i j teams groups k l m fabric host storage mgmt}
    (_ : boot = s.boot) (h : Keeps s0 s)
    (mem : SMap.wf s.storage.mem = true → SMap.wf storage.mem = true := by
      first | with_reducible exact fun x => x | with_reducible exact SMap.wf_setRun _ _ _ | exact fun x => x)
    (media : SMap.wf s.storage.media = true → SMap.wf storage.media = true := by
      first | with_reducible exact fun x => x | with_reducible exact SMap.wf_setRun _ _ _ | exact fun x => x)
    (host' : SMap.wf s.host.mem = true → SMap.wf host.mem = true := by
      first | with_reducible exact fun x => x | with_reducible exact SMap.wf_setRun _ _ _ | exact fun x => x)
    (teams' : (∀ x ∈ s.teams, Team.tidy x = true) → ∀ x ∈ teams, Team.tidy x = true := by
      first
        | with_reducible exact fun x => x
        | with_reducible exact forall_filter
        | with_reducible exact forall_map fun a ha => ha
        | (refine forall_map ?_; intro a ha; (repeat' split) <;> exact ha)
        | exact fun x => x)
    (groups' : (∀ x ∈ s.groups, Group.tidy x = true) → ∀ x ∈ groups, Group.tidy x = true := by
      first
        | with_reducible exact fun x => x
        | with_reducible exact forall_filter
        | with_reducible exact fun g => forall_filter (forall_filter g)
        | with_reducible exact forall_map fun a ha => ha
        | (refine forall_map ?_; intro a ha; (repeat' split) <;> first
            | with_reducible exact tidy_setG ha | with_reducible exact tidy_setLreg ha | with_reducible exact tidy_setLpair ha | with_reducible exact tidy_setPmask ha
            | with_reducible exact tidy_setQ ha | with_reducible exact tidy_setX ha | with_reducible exact tidy_setLanes ha | with_reducible exact tidy_setPred ha
            | with_reducible exact tidy_setIdx ha | with_reducible exact tidy_applyWrite ha | with_reducible exact tidy_unpark ha | with_reducible exact tidy_enterTrap ha
            | with_reducible exact tidy_leaveTrap ha | with_reducible exact tidy_forgetCause (tidy_leaveTrap ha) | with_reducible exact tidy_retire ha | with_reducible exact tidy_modSplit ha | with_reducible exact tidy_closeWindows ha
            | with_reducible exact tidy_dropSplit ha | with_reducible exact tidy_absorb ha | with_reducible exact tidy_mergeAt ha | with_reducible exact tidy_mergeAll ha
            | with_reducible exact tidy_releaseHeld ha | with_reducible exact tidy_endLanes ha | with_reducible exact tidy_clearWeights ha
            | exact ha)
        | exact fun x => x)
    (mgmt' : s.mgmt.Legal → mgmt.Legal := by
      first | with_reducible exact fun x => x | with_reducible exact Mgmt.Legal.of rfl rfl rfl rfl | exact fun x => x)
    (streams' : streams.length = s.streams.length := by first | with_reducible rfl | rfl | simp)
    (ctxs' : ctxs.map Ctx.guarded = s.ctxs.map Ctx.guarded := by first | with_reducible rfl | rfl)
    (device : fabric.deviceId = s.fabric.deviceId := by first | with_reducible rfl | rfl) :
    Keeps s0 (State.mk a b c d e e' boot f g ctxs streams h' i j teams groups k l m fabric host storage mgmt) :=
  Keeps.of (s := s) (t := State.mk a b c d e e' boot f g ctxs streams h' i j teams groups k l m fabric host storage mgmt)
    ‹_› h mem media host' teams' groups' mgmt' streams' ctxs' device

end Sys2Proof.Machine
end

