-- ==== Sys2Proof/Laws/KeepsOps.lean ====
section
/-!
SUPPORT. The operations from records to control flow keep a legal machine.
-/
set_option Elab.async false
set_option linter.all false

namespace Sys2Proof.Machine

variable {base s : State}

theorem keeps_raiseMsix {v : Nat} (h : Keeps base s) : Keeps base (State.raiseMsix s v) := by
  unfold State.raiseMsix
  (try dsimp only)
  repeat' first
    | with_reducible assumption
    | split
    | refine Keeps.mk' rfl ?_
    | (intro _ hh; (repeat' split) <;> exact hh)
    | (intro (_ : Ctx); rfl)

theorem keeps_interrupt {b : BitVec 6} (h : Keeps base s) : Keeps base (State.interrupt s b) := by
  unfold State.interrupt
  (try dsimp only)
  repeat' first
    | with_reducible assumption
    | with_reducible apply keeps_raiseIrq
    | with_reducible apply keeps_raiseMsix
    | split
    | refine Keeps.mk' rfl ?_
    | (intro _ hh; (repeat' split) <;> exact hh)
    | (intro (_ : Ctx); rfl)

theorem keeps_flushErrors (l : List Record) (h : Keeps base s) : Keeps base (State.flushErrors l s) := by
  induction l generalizing s with
  | nil => exact Keeps.mk' (s := s) rfl h id id id id id (Mgmt.Legal.of rfl rfl rfl rfl) rfl rfl rfl
  | cons r l ih =>
    unfold State.flushErrors
    split
    · refine ih (keeps_interrupt ?_)
      exact Keeps.mk' rfl (keeps_hostWrite h) id id id id id (Mgmt.Legal.of rfl rfl rfl rfl) rfl rfl rfl
    · exact Keeps.mk' (s := s) rfl h id id id id id (Mgmt.Legal.of rfl rfl rfl rfl) rfl rfl rfl

theorem keeps_flushFaults (l : List Record) (h : Keeps base s) : Keeps base (State.flushFaults l s) := by
  induction l generalizing s with
  | nil => exact Keeps.mk' (s := s) rfl h id id id id id (Mgmt.Legal.of rfl rfl rfl rfl) rfl rfl rfl
  | cons r l ih =>
    unfold State.flushFaults
    split
    · refine ih (keeps_interrupt ?_)
      exact Keeps.mk' rfl (keeps_hostWrite h) id id id id id (Mgmt.Legal.of rfl rfl rfl rfl) rfl rfl rfl
    · exact Keeps.mk' (s := s) rfl h id id id id id (Mgmt.Legal.of rfl rfl rfl rfl) rfl rfl rfl

theorem keeps_flushRecords (h : Keeps base s) : Keeps base s.flushRecords := keeps_flushFaults _ (keeps_flushErrors _ h)

theorem keeps_report {sev src unit ctx detail : Nat} {addr : DWord} (h : Keeps base s) :
    Keeps base (s.report sev src unit ctx detail addr) := by
  unfold State.report
  split
  · exact Keeps.mk' (s := s) rfl h id id id id id (Mgmt.Legal.of rfl rfl rfl rfl) rfl rfl rfl
  · apply keeps_flushErrors
    exact Keeps.mk' (s := s) rfl h id id id id id (Mgmt.Legal.of rfl rfl rfl rfl) rfl rfl rfl

theorem keeps_unlessStalled {s' : State} (h : Keeps base s) (h' : Keeps base s') : Keeps base (s.unlessStalled s') := by
  unfold State.unlessStalled
  split
  · exact h
  · exact h'

theorem keeps_forget {ctx : Nat} {va : DWord} (h : Keeps base s) : Keeps base (State.forget s ctx va) := by
  unfold State.forget
  (try dsimp only)
  repeat' first
    | with_reducible assumption
    | with_reducible apply keeps_modCtx
    | split
    | refine Keeps.mk' rfl ?_
    | (intro _ hh; (repeat' split) <;> exact hh)
    | (intro (_ : Ctx); rfl)

theorem keeps_faultRecord {ctx : Nat} {va : DWord} {kind why : Nat} {grid team : Word} {j : Joiner} (h : Keeps base s) :
    Keeps base (s.faultRecord ctx va kind why grid team j) := by
  unfold State.faultRecord
  dsimp only
  split
  · exact Keeps.mk' rfl (keeps_forget h)
  · split
    · exact Keeps.mk' rfl (keeps_forget h)
    · exact keeps_flushFaults _ (Keeps.mk' rfl (keeps_forget h))

theorem keeps_retryJoiner {j : Joiner} (h : Keeps base s) : Keeps base (State.retryJoiner s j) := by
  unfold State.retryJoiner
  (try dsimp only)
  repeat' first
    | with_reducible assumption
    | with_reducible apply keeps_modGroup
    | with_reducible apply keeps_modCopy
    | with_reducible apply keeps_modColl
    | with_reducible apply keeps_modStream
    | with_reducible apply keeps_modCore
    | split
    | refine Keeps.mk' rfl ?_
    | with_reducible exact Mgmt.Legal.of rfl rfl rfl rfl
    | (intro _ hh; (repeat' split) <;> exact hh)
    | (intro (_ : Ctx); rfl)

theorem keeps_pruneFaults (h : Keeps base s) : Keeps base (State.pruneFaults s) := by
  unfold State.pruneFaults
  (try dsimp only)
  repeat' first
    | with_reducible assumption
    | with_reducible apply keeps_retryJoiner
    | (with_reducible apply Keeps.foldl; rotate_left; intro _ _ _)
    | split
    | refine Keeps.mk' rfl ?_
    | with_reducible exact Mgmt.Legal.of rfl rfl rfl rfl
    | (intro _ hh; (repeat' split) <;> exact hh)
    | (intro (_ : Ctx); rfl)

theorem keeps_poisonLine {src : Nat} {unit : Nat} {detail : Nat} {line : Nat}
    (h : Keeps base s) : Keeps base (State.poisonLine s src unit detail line) := by
  unfold State.poisonLine
  (try dsimp only)
  repeat' first
    | with_reducible assumption
    | with_reducible apply keeps_report
    | split
    | refine Keeps.mk' rfl ?_
    | (intro _ hh; (repeat' split) <;> exact hh)
    | (intro (_ : Ctx); rfl)

theorem keeps_writeBackLine {line : Nat} (h : Keeps base s) : Keeps base (State.writeBackLine s line) := by
  unfold State.writeBackLine
  (try dsimp only)
  repeat' first
    | with_reducible assumption
    | with_reducible apply keeps_poisonLine
    | (with_reducible apply Keeps.foldl; rotate_left; intro _ _ _)
    | split
    | refine Keeps.mk' rfl ?_
    | (intro _ hh; (repeat' split) <;> exact hh)
    | (intro (_ : Ctx); rfl)

theorem keeps_writeStripe {lines : List Nat} (h : Keeps base s) : Keeps base (s.writeStripe lines) := by
  unfold State.writeStripe
  split
  exact Keeps.mk' (s := s) rfl h

theorem keeps_writeBackQueue {l m : List Nat} (h : Keeps base s) : Keeps base (s.writeBackQueue l m) := by
  induction m generalizing s with
  | nil => exact h
  | cons x m ih =>
    unfold State.writeBackQueue
    split
    · exact ih h
    · dsimp only
      split
      · exact ih (keeps_writeStripe h)
      · exact ih (keeps_writeBackLine h)

theorem keeps_writeBackLines {l : List Nat} (h : Keeps base s) : Keeps base (State.writeBackLines s l) := by
  unfold State.writeBackLines
  (try dsimp only)
  repeat' first
    | with_reducible assumption
    | with_reducible apply keeps_writeBackQueue
    | split
    | refine Keeps.mk' rfl ?_
    | (intro _ hh; (repeat' split) <;> exact hh)
    | (intro (_ : Ctx); rfl)

theorem keeps_retag {s0 : State} {key : KeyTag} {line : Nat} (h : Keeps base s0) : Keeps base (State.retag s0 key line) := by
  unfold State.retag
  (try dsimp only)
  repeat' first
    | with_reducible assumption
    | with_reducible apply keeps_writeBackLine
    | split
    | refine Keeps.mk' rfl ?_
    | (intro _ hh; (repeat' split) <;> exact hh)
    | (intro (_ : Ctx); rfl)

theorem keeps_unkeyLines {which : Nat → Nat → Bool} (h : Keeps base s) : Keeps base (State.unkeyLines s which) := by
  unfold State.unkeyLines
  (try dsimp only)
  repeat' first
    | with_reducible assumption
    | with_reducible apply keeps_retag
    | (with_reducible apply Keeps.foldl; rotate_left; intro _ _ _)
    | split
    | refine Keeps.mk' rfl ?_
    | (intro _ hh; (repeat' split) <;> exact hh)
    | (intro (_ : Ctx); rfl)

theorem keeps_spillSlice {line : Nat} (h : Keeps base s) : Keeps base (State.spillSlice s line) := by
  unfold State.spillSlice
  (try dsimp only)
  repeat' first
    | with_reducible assumption
    | with_reducible apply keeps_writeBackLine
    | split
    | refine Keeps.mk' rfl ?_
    | (intro _ hh; (repeat' split) <;> exact hh)
    | (intro (_ : Ctx); rfl)

theorem keeps_writeMem {key : KeyTag} {pol : Caching} {pa : Nat} {bytes : List Byte}
    (h : Keeps base s) : Keeps base (State.writeMem s key pol pa bytes) := by
  unfold State.writeMem
  (try dsimp only)
  repeat' first
    | with_reducible assumption
    | with_reducible apply keeps_writeBackLines
    | with_reducible apply keeps_retag
    | with_reducible apply keeps_spillSlice
    | (with_reducible apply Keeps.foldl; rotate_left; intro _ _ _)
    | split
    | refine Keeps.mk' rfl ?_
    | (intro _ hh; (repeat' split) <;> exact hh)
    | (intro (_ : Ctx); rfl)

theorem keeps_noteTlb {ctx : Nat} {vas : List DWord} (h : Keeps base s) : Keeps base (s.noteTlb ctx vas) := by
  refine keeps_modCtx h fun x => ?_
  induction vas generalizing x with
  | nil => rfl
  | cons va l ih =>
    rw [List.foldl_cons, ih]
    split
    · split <;> rfl
    · rfl

theorem keeps_sendRequest {dev : Option Nat} {job : Half} {addr : Nat} {ask : OutAsk} {use : ReqUse}
    (h : Keeps base s) : Keeps base (State.sendRequest s dev job addr ask use) := by
  unfold State.sendRequest
  (try dsimp only)
  repeat' first
    | with_reducible assumption
    | with_reducible apply keeps_fresh
    | split
    | refine Keeps.mk' rfl ?_
    | (intro _ hh; (repeat' split) <;> exact hh)
    | (intro (_ : Ctx); rfl)

theorem keeps_takeAnswers {key : Nat × Nat} (h : Keeps base s) : Keeps base (State.takeAnswers s key) := by
  unfold State.takeAnswers
  (try dsimp only)
  repeat' first
    | with_reducible assumption
    | split
    | refine Keeps.mk' rfl ?_
    | (intro _ hh; (repeat' split) <;> exact hh)
    | (intro (_ : Ctx); rfl)

theorem keeps_askFor {key : Nat × Nat} {va : DWord} {dev : Option Nat} {job : Half} {pa : Nat} {n : Nat}
    (h : Keeps base s) : Keeps base (State.askFor s key va dev job pa n) := by
  unfold State.askFor
  (try dsimp only)
  repeat' first
    | with_reducible assumption
    | with_reducible apply keeps_sendRequest
    | split
    | refine Keeps.mk' rfl ?_
    | (intro _ hh; (repeat' split) <;> exact hh)
    | (intro (_ : Ctx); rfl)

theorem keeps_emptyCaches {core : Nat} (h : Keeps base s) : Keeps base (State.emptyCaches s core) := by
  unfold State.emptyCaches
  (try dsimp only)
  repeat' first
    | with_reducible assumption
    | with_reducible apply keeps_modCore
    | split
    | refine Keeps.mk' rfl ?_
    | (intro _ hh; (repeat' split) <;> exact hh)
    | (intro (_ : Ctx); rfl)

theorem keeps_dropLines {core : Nat} {l : Loc} {n : Nat} (h : Keeps base s) : Keeps base (State.dropLines s core l n) := by
  unfold State.dropLines
  (try dsimp only)
  repeat' first
    | with_reducible assumption
    | with_reducible apply keeps_modCore
    | split
    | refine Keeps.mk' rfl ?_
    | (intro _ hh; (repeat' split) <;> exact hh)
    | (intro (_ : Ctx); rfl)

theorem Team.tidy_scratch {x : Team} {m : SMap 8}
    (h : Team.tidy x = true) (hm : SMap.wf x.scratch = true → SMap.wf m = true) :
    Team.tidy { x with scratch := m } = true := by
  simp only [Team.tidy, Bool.and_eq_true] at h ⊢; exact ⟨hm h.1, h.2⟩

theorem Team.tidy_acc {x : Team} {m : SMap 32} (h : Team.tidy x = true) (hm : SMap.wf x.acc = true → SMap.wf m = true) :
    Team.tidy { x with acc := m } = true := by
  simp only [Team.tidy, Bool.and_eq_true] at h ⊢; exact ⟨h.1, hm h.2⟩

theorem keeps_setScratch {t off : Nat} {bytes : List Byte} (h : Keeps base s) : Keeps base (s.setScratch t off bytes) :=
  keeps_modTeam h fun _ hx => Team.tidy_scratch hx (SMap.wf_setRun _ _ _)

theorem keeps_wakeWaits {which : Split → Bool} (h : Keeps base s) : Keeps base (State.wakeWaits s which) := by
  unfold State.wakeWaits
  (try dsimp only)
  repeat' first
    | with_reducible assumption
    | with_reducible apply keeps_emptyCaches
    | (with_reducible apply Keeps.foldl; rotate_left; intro _ _ _)
    | split
    | refine Keeps.mk' rfl ?_
    | (intro _ hh; (repeat' split) <;> (repeat with_reducible first | apply tidy_unpark) <;> exact hh)
    | (intro (_ : Ctx); rfl)

theorem keeps_barWritten {t off : Nat} {old w : DWord} (h : Keeps base s) : Keeps base (State.barWritten s t off old w) := by
  unfold State.barWritten
  repeat' first
    | with_reducible assumption
    | with_reducible apply keeps_setScratch
    | with_reducible apply keeps_wakeWaits
    | split

theorem keeps_setBar {t : Nat} {off : Nat} {w : DWord} (h : Keeps base s) : Keeps base (State.setBar s t off w) :=
  keeps_barWritten (keeps_setScratch h)

theorem keeps_nameBar {t : Nat} {off : Nat} (h : Keeps base s) : Keeps base (State.nameBar s t off) := by
  unfold State.nameBar
  (try dsimp only)
  repeat' first
    | with_reducible assumption
    | with_reducible apply keeps_modTeam
    | split
    | refine Keeps.mk' rfl ?_
    | (intro _ hh; (repeat' split) <;> exact hh)
    | (intro (_ : Ctx); rfl)

theorem keeps_writeScratch {t : Nat} {off : Nat} {bytes : List Byte}
    (h : Keeps base s) : Keeps base (State.writeScratch s t off bytes) :=
  Keeps.foldl _ _ (keeps_setScratch h) fun _ _ hs => keeps_barWritten hs

theorem keeps_consumedBy {ctx : Nat} {c : LateCause} (h : Keeps base s) : Keeps base (State.consumedBy s ctx c) := by
  unfold State.consumedBy
  (try dsimp only)
  repeat' first
    | with_reducible assumption
    | with_reducible apply keeps_report
    | split
    | refine Keeps.mk' rfl ?_
    | (intro _ hh; (repeat' split) <;> exact hh)
    | (intro (_ : Ctx); rfl)

theorem keeps_placeBytes {l : Loc} {b : List Byte} (h : Keeps base s) : Keeps base (State.placeBytes s l b) := by
  unfold State.placeBytes
  (try dsimp only)
  repeat' first
    | with_reducible assumption
    | with_reducible apply keeps_hostWrite
    | with_reducible apply keeps_writeMem
    | with_reducible apply keeps_writeScratch
    | split
    | refine Keeps.mk' rfl ?_
    | (intro _ hh; (repeat' split) <;> exact hh)
    | (intro (_ : Ctx); rfl)

theorem keeps_sendUnits {job : Half} {key : Nat × Nat} {l : List (List PutPiece)} (h : Keeps base s) :
    Keeps base (s.sendUnits job key l).2 := by
  induction l generalizing s with
  | nil => exact h
  | cons u l ih =>
    cases u with
    | nil => exact ih h
    | cons p ps => exact ih (keeps_sendRequest h)

theorem keeps_putAll {job : Half} {key : Nat × Nat} {l : List PutPiece} (h : Keeps base s) :
    Keeps base (s.putAll job key l).2 :=
  keeps_sendUnits (Keeps.foldl _ _ h fun _ _ hs => keeps_placeBytes hs)

theorem keeps_addCount {job : Half} {key : Nat × Nat} {va : DWord} {l : Loc} {n : Nat} (h : Keeps base s) :
    Keeps base (s.addCount job key va l n).2 := by
  unfold State.addCount
  split
  · exact keeps_sendRequest h
  · exact keeps_placeBytes h

theorem keeps_sendAsk {job : Half} {key : Nat × Nat} {g : Got}
    (h : Keeps base s) : Keeps base (State.sendAsk s job key g) := by
  unfold State.sendAsk
  (try dsimp only)
  repeat' first
    | with_reducible assumption
    | with_reducible apply keeps_askFor
    | split
    | refine Keeps.mk' rfl ?_
    | (intro _ hh; (repeat' split) <;> exact hh)
    | (intro (_ : Ctx); rfl)

theorem keeps_settleUnits {s0 : State} {key : Nat} {l : List PutPiece}
    (h : Keeps base s) : Keeps base (State.settleUnits s0 key s l) := by
  unfold State.settleUnits
  (try dsimp only)
  repeat' first
    | with_reducible assumption
    | with_reducible apply keeps_placeBytes
    | (with_reducible apply Keeps.foldl; rotate_left; intro _ _ _)
    | split
    | refine Keeps.mk' rfl ?_
    | (intro _ hh; (repeat' split) <;> exact hh)
    | (intro (_ : Ctx); rfl)

theorem keeps_settleCopy {c : Copy} (h : Keeps base s) : Keeps base (State.settleCopy s c) := by
  unfold State.settleCopy
  (try dsimp only)
  repeat' first
    | with_reducible assumption
    | with_reducible apply keeps_settleUnits
    | (with_reducible apply Keeps.foldl; rotate_left; intro _ _ _)
    | split
    | refine Keeps.mk' rfl ?_
    | (intro _ hh; (repeat' split) <;> exact hh)
    | (intro (_ : Ctx); rfl)

theorem keeps_settleEngineOp {o : EngineOp} (h : Keeps base s) : Keeps base (State.settleEngineOp s o) := by
  unfold State.settleEngineOp
  (try dsimp only)
  repeat' first
    | with_reducible assumption
    | with_reducible apply keeps_placeBytes
    | with_reducible apply keeps_settleUnits
    | (with_reducible apply Keeps.foldl; rotate_left; intro _ _ _)
    | split
    | refine Keeps.mk' rfl ?_
    | (intro _ hh; (repeat' split) <;> exact hh)
    | (intro (_ : Ctx); rfl)

theorem keeps_haltTeam {t : Nat} (h : Keeps base s) : Keeps base (State.haltTeam s t) := by
  unfold State.haltTeam
  (try dsimp only)
  repeat' first
    | with_reducible assumption
    | with_reducible apply keeps_modTeam
    | split
    | refine Keeps.mk' rfl ?_
    | (intro _ hh; (repeat' split) <;> exact hh)
    | (intro (_ : Ctx); rfl)

theorem keeps_consumed {t : Nat} {c : LateCause} (h : Keeps base s) : Keeps base (State.consumed s t c) := by
  unfold State.consumed
  (try dsimp only)
  repeat' first
    | with_reducible assumption
    | with_reducible apply keeps_report
    | split
    | refine Keeps.mk' rfl ?_
    | (intro _ hh; (repeat' split) <;> exact hh)
    | (intro (_ : Ctx); rfl)

theorem keeps_dropTeam {t : Nat} (h : Keeps base s) : Keeps base (State.dropTeam s t) := by
  unfold State.dropTeam
  (try dsimp only)
  repeat' first
    | with_reducible assumption
    | split
    | refine Keeps.mk' rfl ?_
    | with_reducible exact Mgmt.Legal.of rfl rfl rfl rfl
    | (intro _ hh; (repeat' split) <;> exact hh)
    | (intro (_ : Ctx); rfl)

theorem keeps_settleStore {e : QEntry} (h : Keeps base s) : Keeps base (State.settleStore s e) := by
  unfold State.settleStore
  (try dsimp only)
  repeat' first
    | with_reducible assumption
    | with_reducible apply keeps_placeBytes
    | split
    | refine Keeps.mk' rfl ?_
    | (intro _ hh; (repeat' split) <;> exact hh)
    | (intro (_ : Ctx); rfl)

theorem keeps_settlePend {uid : Nat} {a : Pend} (h : Keeps base s) : Keeps base (State.settlePend uid s a) := by
  unfold State.settlePend
  (try dsimp only)
  repeat' first
    | with_reducible assumption
    | with_reducible apply keeps_fresh
    | with_reducible apply keeps_placeBytes
    | split
    | refine Keeps.mk' rfl ?_
    | (intro _ hh; (repeat' split) <;> exact hh)
    | (intro (_ : Ctx); rfl)

theorem keeps_settleFetchAdd {s0 : State} {f : FetchAdd} (h : Keeps base s) : Keeps base (State.settleFetchAdd s0 s f) := by
  unfold State.settleFetchAdd
  (try dsimp only)
  repeat' first
    | with_reducible assumption
    | with_reducible apply keeps_hostWrite
    | split
    | refine Keeps.mk' rfl ?_
    | (intro _ hh; (repeat' split) <;> exact hh)
    | (intro (_ : Ctx); rfl)

theorem keeps_endTeams {which : Team → Bool} {whichCopy : Copy → Bool}
    (h : Keeps base s) : Keeps base (State.endTeams s which whichCopy) := by
  unfold State.endTeams
  (try dsimp only)
  repeat' first
    | with_reducible assumption
    | with_reducible apply keeps_settleCopy
    | with_reducible apply keeps_settleEngineOp
    | with_reducible apply keeps_dropTeam
    | with_reducible apply keeps_settleStore
    | with_reducible apply keeps_settlePend
    | with_reducible apply keeps_settleFetchAdd
    | (with_reducible apply Keeps.foldl; rotate_left; intro _ _ _)
    | split
    | refine Keeps.mk' rfl ?_
    | with_reducible exact Mgmt.Legal.of rfl rfl rfl rfl
    | (intro _ hh; (repeat' split) <;> exact hh)
    | (intro (_ : Ctx); rfl)

theorem keeps_stopStream {n : Nat} {err : BitVec 8} {report : BitVec 8} {info : DWord}
    (h : Keeps base s) : Keeps base (State.stopStream s n err report info) := by
  unfold State.stopStream
  (try dsimp only)
  repeat' first
    | with_reducible assumption
    | with_reducible apply keeps_modStream
    | with_reducible apply keeps_raiseIrq
    | with_reducible apply keeps_raiseMsix
    | with_reducible apply keeps_report
    | split
    | refine Keeps.mk' rfl ?_
    | (intro _ hh; (repeat' split) <;> exact hh)
    | (intro (_ : Ctx); rfl)

theorem keeps_dropColls {which : Coll → Bool} (h : Keeps base s) : Keeps base (State.dropColls s which) := by
  unfold State.dropColls
  (try dsimp only)
  repeat' first
    | with_reducible assumption
    | split
    | refine Keeps.mk' rfl ?_
    | with_reducible exact Mgmt.Legal.of rfl rfl rfl rfl
    | (intro _ hh; (repeat' split) <;> exact hh)
    | (intro (_ : Ctx); rfl)

theorem keeps_killGrid {u : Nat} {code : BitVec 8} {addr : DWord}
    (h : Keeps base s) : Keeps base (State.killGrid s u code addr) := by
  unfold State.killGrid
  (try dsimp only)
  repeat' first
    | with_reducible assumption
    | with_reducible apply keeps_report
    | with_reducible apply keeps_pruneFaults
    | with_reducible apply keeps_endTeams
    | with_reducible apply keeps_stopStream
    | with_reducible apply keeps_dropColls
    | split
    | refine Keeps.mk' rfl ?_
    | (intro _ hh; (repeat' split) <;> exact hh)
    | (intro (_ : Ctx); rfl)

theorem keeps_raise {t : Nat} {g : Nat} {split : Option Nat} {code : BitVec 8} {pc : DWord}
    (h : Keeps base s) : Keeps base (State.raise s t g split code pc) := by
  unfold State.raise
  (try dsimp only)
  repeat' first
    | with_reducible assumption
    | with_reducible apply keeps_modGroup
    | with_reducible apply keeps_haltTeam
    | with_reducible apply keeps_killGrid
    | split
    | refine Keeps.mk' rfl ?_
    | (intro _ hh; (repeat' split) <;> exact hh)
    | (intro (_ : Ctx); rfl)

theorem keeps_raiseLate {t : Nat} {g : Nat} {split : Option Nat} {c : LateCause}
    (h : Keeps base s) : Keeps base (State.raiseLate s t g split c) := by
  unfold State.raiseLate
  (try dsimp only)
  repeat' first
    | with_reducible assumption
    | with_reducible apply keeps_modGroup
    | with_reducible apply keeps_haltTeam
    | with_reducible apply keeps_consumed
    | split
    | refine Keeps.mk' rfl ?_
    | (intro _ hh; (repeat' split) <;> exact hh)
    | (intro (_ : Ctx); rfl)

theorem keeps_lateFrom {t : Nat} {g : Nat} {split : Option Nat} {handlerPc : Option DWord} {c : LateCause}
    (h : Keeps base s) : Keeps base (State.lateFrom s t g split handlerPc c) := by
  unfold State.lateFrom
  (try dsimp only)
  repeat' first
    | with_reducible assumption
    | with_reducible apply keeps_consumed
    | with_reducible apply keeps_killGrid
    | with_reducible apply keeps_raiseLate
    | split
    | refine Keeps.mk' rfl ?_
    | (intro _ hh; (repeat' split) <;> exact hh)
    | (intro (_ : Ctx); rfl)

theorem keeps_faultBar {t : Nat} {off : Nat} (h : Keeps base s) : Keeps base (State.faultBar s t off) := by
  unfold State.faultBar
  (try dsimp only)
  repeat' first
    | with_reducible assumption
    | with_reducible apply keeps_setScratch
    | with_reducible apply keeps_raise
    | (with_reducible apply Keeps.foldl; rotate_left; intro _ _ _)
    | split
    | refine Keeps.mk' rfl ?_
    | (intro _ hh; (repeat' split) <;> exact hh)
    | (intro (_ : Ctx); rfl)

theorem keeps_timerCause {t : Nat} (h : Keeps base s) : Keeps base (State.timerCause s t) := by
  unfold State.timerCause
  (try dsimp only)
  repeat' first
    | with_reducible assumption
    | with_reducible apply keeps_modGroup
    | with_reducible apply keeps_modTeam
    | with_reducible apply keeps_haltTeam
    | split
    | refine Keeps.mk' rfl ?_
    | (intro _ hh; (repeat' split) <;> exact hh)
    | (intro (_ : Ctx); rfl)

theorem keeps_raiseTimer {t : Nat} (h : Keeps base s) : Keeps base (State.raiseTimer s t) := by
  unfold State.raiseTimer
  (try dsimp only)
  repeat' first
    | with_reducible assumption
    | with_reducible apply keeps_modTeam
    | with_reducible apply keeps_timerCause
    | split
    | refine Keeps.mk' rfl ?_
    | (intro _ hh; (repeat' split) <;> exact hh)
    | (intro (_ : Ctx); rfl)

theorem keeps_enterHandlers {t : Nat} (h : Keeps base s) : Keeps base (State.enterHandlers s t) := by
  unfold State.enterHandlers
  (try dsimp only)
  repeat' first
    | with_reducible assumption
    | with_reducible apply keeps_modTeam
    | with_reducible apply keeps_pruneFaults
    | with_reducible apply keeps_killGrid
    | split
    | refine Keeps.mk' rfl ?_
    | with_reducible exact Mgmt.Legal.of rfl rfl rfl rfl
    | (intro _ hh; (repeat' split) <;> (repeat with_reducible first | apply tidy_enterTrap) <;> exact hh)
    | (intro (_ : Ctx); rfl)

theorem keeps_resumeTeam {t : Nat} (h : Keeps base s) : Keeps base (State.resumeTeam s t) := by
  unfold State.resumeTeam
  (try dsimp only)
  repeat' first
    | with_reducible assumption
    | with_reducible apply keeps_modGroup
    | with_reducible apply keeps_modTeam
    | with_reducible apply keeps_haltTeam
    | with_reducible apply keeps_timerCause
    | (with_reducible apply Keeps.foldl; rotate_left; intro _ _ _)
    | split
    | refine Keeps.mk' rfl ?_
    | (intro _ hh; (repeat' split) <;> (repeat with_reducible first | apply tidy_forgetCause | apply tidy_leaveTrap) <;> exact hh)
    | (intro (_ : Ctx); rfl)

theorem keeps_stall {x : Team} {g : Nat} {p : Nat} {pages : List (DWord × BitVec 8)} {kind : Nat} {code : BitVec 8}
    (h : Keeps base s) : Keeps base (State.stall s x g p pages kind code) := by
  unfold State.stall
  (try dsimp only)
  repeat' first
    | with_reducible assumption
    | with_reducible apply keeps_modGroup
    | with_reducible apply keeps_faultRecord
    | (with_reducible apply Keeps.foldl; rotate_left; intro _ _ _)
    | split
    | refine Keeps.mk' rfl ?_
    | (intro _ hh; (repeat' split) <;> exact hh)
    | (intro (_ : Ctx); rfl)

theorem keeps_fetchFails {x : Team} {g : Group} {p : Split} {va : DWord} {r : FetchRes} (h : Keeps base s) :
    Keeps base (s.fetchFails x g p va r) := by
  cases r with
  | bytes l => exact h
  | held => exact h
  | cause c => exact keeps_raise h
  | replay why => exact keeps_stall h
  | late c => exact keeps_lateFrom (keeps_takeAnswers h)
  | remote d pa n => exact keeps_askFor h

theorem keeps_cpFails {n : Nat} {va : DWord} {kind : Nat} {grid : Word} {r : FetchRes} (h : Keeps base s) :
    Keeps base (s.cpFails n va kind grid r) := by
  cases r with
  | bytes l => exact h
  | held => exact h
  | cause c => exact keeps_stopStream (keeps_takeAnswers h)
  | replay why => exact keeps_faultRecord (keeps_modStream h)
  | late c => exact keeps_stopStream (keeps_consumedBy (keeps_takeAnswers h))
  | remote d pa n =>
    cases d with
    | none => exact keeps_stopStream (keeps_takeAnswers h)
    | some d => exact keeps_askFor h

theorem keeps_addResult {k : Here} {uid : Nat} {dests : List Reg} {writes : List RegWrite} {waits : List Nat} {acq : Option Nat}
    (h : Keeps base s) : Keeps base (State.addResult s k uid dests writes waits acq) := by
  unfold State.addResult
  (try dsimp only)
  repeat' first
    | with_reducible assumption
    | with_reducible apply keeps_modGroup
    | split
    | refine Keeps.mk' rfl ?_
    | (intro _ hh; (repeat' split) <;> exact hh)
    | (intro (_ : Ctx); rfl)

theorem keeps_notePassed {h : Group} {l : List (Nat × Nat)} (hk : Keeps base s) : Keeps base (State.notePassed s h l) := by
  unfold State.notePassed
  (try dsimp only)
  repeat' first
    | with_reducible assumption
    | with_reducible apply keeps_modGroup
    | split
    | refine Keeps.mk' rfl ?_
    | (intro _ hh; (repeat' split) <;> exact hh)
    | (intro (_ : Ctx); rfl)

theorem keeps_writeLoc {core : Nat} {l : Loc} {bytes : List Byte}
    (h : Keeps base s) : Keeps base (State.writeLoc s core l bytes) := by
  unfold State.writeLoc
  (try dsimp only)
  repeat' first
    | with_reducible assumption
    | with_reducible apply keeps_hostWrite
    | with_reducible apply keeps_writeMem
    | with_reducible apply keeps_dropLines
    | with_reducible apply keeps_writeScratch
    | split
    | refine Keeps.mk' rfl ?_
    | (intro _ hh; (repeat' split) <;> exact hh)
    | (intro (_ : Ctx); rfl)

/-! ### Accesses under another key (R112) -/

theorem keeps_rekeyMem {key : KeyTag} {pa n : Nat} (h : Keeps base s) : Keeps base (s.rekeyMem key pa n) := by
  unfold State.rekeyMem
  split
  · exact h
  · refine Keeps.foldl _ _ h fun s a hs => ?_
    split
    · exact keeps_retag hs
    · exact hs

theorem keeps_rekeyWalk {ctx : Nat} {va : DWord} (h : Keeps base s) : Keeps base (s.rekeyWalk ctx va) := by
  unfold State.rekeyWalk
  split
  · exact Keeps.foldl _ _ h fun _ _ hs => keeps_rekeyMem hs
  · exact h

theorem keeps_rekeyWalks {ctx : Nat} {l : List DWord} (h : Keeps base s) : Keeps base (s.rekeyWalks ctx l) := by
  unfold State.rekeyWalks
  split
  · exact h
  · exact Keeps.foldl _ _ h fun _ _ hs => keeps_rekeyWalk hs

theorem keeps_rekeyPage {ctx n : Nat} {va : DWord} (h : Keeps base s) : Keeps base (s.rekeyPage ctx va n) := by
  unfold State.rekeyPage
  split
  · exact keeps_rekeyMem (keeps_rekeyWalk h)
  · exact keeps_rekeyWalk h

theorem keeps_rekeyPages {ctx k n : Nat} {va : DWord} (h : Keeps base s) : Keeps base (State.rekeyPages ctx k va n s) := by
  induction k generalizing va n s with
  | zero => exact h
  | succ k ih =>
    unfold State.rekeyPages
    split
    · exact h
    · exact ih (keeps_rekeyPage h)

theorem keeps_rekeySpans {ctx : Nat} {l : List (DWord × Nat)} (h : Keeps base s) : Keeps base (s.rekeySpans ctx l) := by
  unfold State.rekeySpans
  split
  · exact h
  · exact Keeps.foldl _ _ h fun _ _ hs => keeps_rekeyPages hs

theorem keeps_rekey {l : Loc} {n : Nat} (h : Keeps base s) : Keeps base (State.rekey s l n) := by
  unfold State.rekey
  split
  · exact keeps_rekeyMem h
  all_goals exact h

theorem keeps_atomicAt {core : Nat} {l : Loc} {op : AtomOp} {ty : AtomTy} {b sv : DWord} (h : Keeps base s) :
    Keeps base (s.atomicAt core l op ty b sv).2 := by
  unfold State.atomicAt
  dsimp only
  split
  · exact keeps_writeLoc (keeps_rekey h)
  · exact keeps_dropLines (keeps_rekey h)

theorem keeps_protect {t : Nat} {g : Nat} (h : Keeps base s) : Keeps base (State.protect s t g) := by
  unfold State.protect
  (try dsimp only)
  repeat' first
    | with_reducible assumption
    | with_reducible apply keeps_modGroup
    | with_reducible apply keeps_writeBackLines
    | split
    | refine Keeps.mk' rfl ?_
    | (intro _ hh; (repeat' split) <;> exact hh)
    | (intro (_ : Ctx); rfl)

theorem keeps_protectFor {h : Group} {rel : Option Nat} (hk : Keeps base s) : Keeps base (State.protectFor s h rel) := by
  unfold State.protectFor
  (try dsimp only)
  repeat' first
    | with_reducible assumption
    | with_reducible apply keeps_protect
    | split
    | refine Keeps.mk' rfl ?_
    | (intro _ hh; (repeat' split) <;> exact hh)
    | (intro (_ : Ctx); rfl)

theorem tidy_touch {h : Group} {l : Loc} {n : Nat} (hh : Group.tidy h = true) : Group.tidy (h.touch l n) = true := by
  unfold Group.touch; split <;> exact hh

theorem keeps_performEntry {x : Team} {g : Nat} {e : QEntry} (h : Keeps base s) : Keeps base (s.performEntry x g e) := by
  have h1 : Keeps base (s.modGroup x.uid g fun h => { h with queue := h.queue.filter fun q => q.uid ≠ e.uid }) :=
    keeps_modGroup h fun _ hh => hh
  unfold State.performEntry
  dsimp only
  split
  · exact keeps_sendRequest h1
  · exact keeps_sendRequest h1
  · split
    · exact keeps_sendRequest h1
    · split
      · exact keeps_writeLoc (keeps_modGroup h1 fun _ hh => tidy_touch hh)
      · split
        · exact keeps_lateFrom h1
        · exact keeps_atomicAt (keeps_modGroup h1 fun _ hh => tidy_touch hh)
      · exact h1

theorem keeps_performNow {x : Team} {h : Group} {e : QEntry} (hk : Keeps base s) : Keeps base (State.performNow s x h e) := by
  unfold State.performNow
  (try dsimp only)
  repeat' first
    | with_reducible assumption
    | with_reducible apply keeps_notePassed
    | with_reducible apply keeps_protectFor
    | with_reducible apply keeps_performEntry
    | split
    | refine Keeps.mk' rfl ?_
    | (intro _ hh; (repeat' split) <;> exact hh)
    | (intro (_ : Ctx); rfl)

theorem keeps_performUpTo {x : Team} {g : Nat} {which : QEntry → Bool} {q : List QEntry} {t : State} (h : Keeps base s)
    (e : s.performUpTo x g which q = some t) : Keeps base t := by
  induction q generalizing s with
  | nil => cases e; exact h
  | cons a q ih =>
    unfold State.performUpTo at e
    split at e
    · split at e
      · cases e
      · split at e
        · exact ih (keeps_performNow h) e
        · cases e
    · cases e; exact h

theorem keeps_serve {core : Nat} {q : List QEntry} {op : PendOp} {l : Loc} {n : Nat} (h : Keeps base s) :
    Keeps base (s.serve core q op l n).2 := by
  unfold State.serve
  dsimp only
  split <;> dsimp only
  · exact keeps_modCore (keeps_rekey h)
  · exact keeps_modCore (keeps_rekey h)
  · exact keeps_rekey h

theorem keeps_modResult {t : Nat} {g : Nat} {uid : Nat} {f : Result → Result}
    (h : Keeps base s) : Keeps base (State.modResult s t g uid f) := by
  unfold State.modResult
  (try dsimp only)
  repeat' first
    | with_reducible assumption
    | with_reducible apply keeps_modGroup
    | split
    | refine Keeps.mk' rfl ?_
    | (intro _ hh; (repeat' split) <;> exact hh)
    | (intro (_ : Ctx); rfl)

theorem keeps_performPend {x : Team} {g : Group} {r : Result} {a : Pend} (h : Keeps base s) :
    Keeps base (s.performPend x g r a) := by
  unfold State.performPend
  dsimp only
  split
  · exact keeps_notePassed (keeps_modResult (keeps_sendRequest (keeps_protectFor h)))
  · split
    · exact keeps_notePassed (keeps_modResult (keeps_protectFor h))
    · split
      · exact keeps_notePassed (keeps_modResult (keeps_atomicAt (keeps_modGroup (keeps_protectFor h) fun _ hh => tidy_touch hh)))
      · exact keeps_notePassed (keeps_modResult (keeps_protectFor h))
      all_goals exact keeps_notePassed (keeps_modResult (keeps_serve (keeps_protectFor h)))

/-- What a meaning ends with keeps a chain. -/
def Body.Keeps (base : State) : Body → Prop
  | .next s | .late s _ => Machine.Keeps base s
  | .hold f | .breaks f _ => ∀ s, Machine.Keeps base s → Machine.Keeps base (f s)
  | .trap _ | .wait | .replay _ _ _ => True

theorem probes_error {k : Here} {glob : Bool} {kind : AccessKind} {align : Nat} {bad : Loc → Option (BitVec 8)}
    {l : List (Nat × Nat × DWord)} {b : Body} (h : Keeps base s) (e : s.probes k glob kind align bad l = .error b) :
    Body.Keeps base b := by
  unfold State.probes at e
  dsimp only at e
  generalize List.foldl _ _ l = a at e
  by_cases hh : a.held = true
  · rw [if_pos hh] at e; cases e; trivial
  · rw [if_neg hh] at e
    split at e <;> cases e
    · trivial
    · trivial
    · exact h

theorem keeps_noteSites {k : Here} {glob : Bool} {l : List Site} (h : Keeps base s) : Keeps base (State.noteSites s k glob l) := by
  unfold State.noteSites
  split
  · exact keeps_rekeyWalks (keeps_noteTlb h)
  · exact h

theorem keeps_acquire {k : Here} {scope : Nat} (h : Keeps base s) : Keeps base (State.acquire s k scope) := by
  unfold State.acquire
  (try dsimp only)
  repeat' first
    | with_reducible assumption
    | with_reducible apply keeps_emptyCaches
    | split
    | refine Keeps.mk' rfl ?_
    | (intro _ hh; (repeat' split) <;> exact hh)
    | (intro (_ : Ctx); rfl)

theorem keeps_addAccesses {k : Here} {dests : List Reg} {kind : ResultKind} {acq : Option Nat} {rel : Option Nat} {l : List Pend}
    (h : Keeps base s) : Keeps base (State.addAccesses s k dests kind acq rel l) := by
  unfold State.addAccesses
  (try dsimp only)
  repeat' first
    | with_reducible assumption
    | with_reducible apply keeps_fresh
    | with_reducible apply keeps_modGroup
    | split
    | refine Keeps.mk' rfl ?_
    | (intro _ hh; (repeat' split) <;> exact hh)
    | (intro (_ : Ctx); rfl)

theorem keeps_enqueue {k : Here} {rel : Option Nat} {l : List (Site × QOp)} (h : Keeps base s) :
    Keeps base (s.enqueue k rel l) := by
  induction l generalizing s with
  | nil => exact h
  | cons e l ih => exact ih (keeps_modGroup (keeps_fresh h) fun _ hh => hh)

theorem keeps_protectAt {k : Here} {scope : Nat} (h : Keeps base s) : Keeps base (State.protectAt s k scope) := by
  unfold State.protectAt
  (try dsimp only)
  repeat' first
    | with_reducible assumption
    | with_reducible apply keeps_protect
    | split
    | refine Keeps.mk' rfl ?_
    | (intro _ hh; (repeat' split) <;> exact hh)
    | (intro (_ : Ctx); rfl)

theorem keeps_modConv {t : Nat} {u : Nat} {f : Conv → Conv} (h : Keeps base s) : Keeps base (State.modConv s t u f) := by
  unfold State.modConv
  (try dsimp only)
  repeat' first
    | with_reducible assumption
    | with_reducible apply keeps_modTeam
    | split
    | refine Keeps.mk' rfl ?_
    | (intro _ hh; (repeat' split) <;> exact hh)
    | (intro (_ : Ctx); rfl)

theorem keeps_deliver {t : Nat} {u : Nat} {g : Nat} {split : Option Nat}
    (h : Keeps base s) : Keeps base (State.deliver s t u g split) := by
  unfold State.deliver
  (try dsimp only)
  repeat' first
    | with_reducible assumption
    | with_reducible apply keeps_raiseLate
    | with_reducible apply keeps_modConv
    | split
    | refine Keeps.mk' rfl ?_
    | (intro _ hh; (repeat' split) <;> exact hh)
    | (intro (_ : Ctx); rfl)

theorem keeps_wakeBatches {t : Nat} {u : Nat} (h : Keeps base s) : Keeps base (State.wakeBatches s t u) := by
  unfold State.wakeBatches
  (try dsimp only)
  repeat' first
    | with_reducible assumption
    | with_reducible apply keeps_emptyCaches
    | with_reducible apply keeps_deliver
    | (with_reducible apply Keeps.foldl; rotate_left; intro _ _ _)
    | split
    | refine Keeps.mk' rfl ?_
    | (intro _ hh; (repeat' split) <;> (repeat with_reducible first | apply tidy_unpark) <;> exact hh)
    | (intro (_ : Ctx); rfl)

theorem keeps_endConv {t : Nat} {u : Nat} (h : Keeps base s) : Keeps base (State.endConv s t u) := by
  unfold State.endConv
  (try dsimp only)
  repeat' first
    | with_reducible assumption
    | with_reducible apply keeps_modTeam
    | split
    | refine Keeps.mk' rfl ?_
    | (intro _ hh; (repeat' split) <;> (repeat with_reducible first | apply tidy_unpark) <;> exact hh)
    | (intro (_ : Ctx); rfl)

theorem keeps_breakConv {t : Nat} {u : Nat} {cause : Option LateCause}
    (h : Keeps base s) : Keeps base (State.breakConv s t u cause) := by
  unfold State.breakConv
  (try dsimp only)
  repeat' first
    | with_reducible assumption
    | with_reducible apply keeps_modConv
    | with_reducible apply keeps_wakeBatches
    | split
    | refine Keeps.mk' rfl ?_
    | (intro _ hh; (repeat' split) <;> exact hh)
    | (intro (_ : Ctx); rfl)

theorem keeps_leaveConv {t : Nat} {g : Nat} (h : Keeps base s) : Keeps base (State.leaveConv s t g) := by
  unfold State.leaveConv
  (try dsimp only)
  repeat' first
    | with_reducible assumption
    | with_reducible apply keeps_modConv
    | with_reducible apply keeps_endConv
    | with_reducible apply keeps_breakConv
    | split
    | refine Keeps.mk' rfl ?_
    | (intro _ hh; (repeat' split) <;> exact hh)
    | (intro (_ : Ctx); rfl)

theorem keeps_joinConv {k : Here} (h : Keeps base s) : Keeps base (State.joinConv s k) := by
  unfold State.joinConv
  (try dsimp only)
  repeat' first
    | with_reducible assumption
    | with_reducible apply keeps_fresh
    | with_reducible apply keeps_modGroup
    | with_reducible apply keeps_modTeam
    | with_reducible apply keeps_modConv
    | (with_reducible apply Keeps.foldl; rotate_left; intro _ _ _)
    | split
    | refine Keeps.mk' rfl ?_
    | (intro _ hh; (repeat' split) <;> (repeat with_reducible first | apply tidy_setG | apply tidy_unpark | apply tidy_modSplit) <;> exact hh)
    | (intro (_ : Ctx); rfl)

theorem keeps_matched {x : Team} {u : Nat} {o : MOp} (h : Keeps base s) : Keeps base (State.matched s x u o) := by
  unfold State.matched
  (try dsimp only)
  repeat' first
    | with_reducible assumption
    | with_reducible apply keeps_fresh
    | with_reducible apply keeps_modCore
    | with_reducible apply keeps_modConv
    | with_reducible apply keeps_wakeBatches
    | split
    | refine Keeps.mk' rfl ?_
    | (intro _ hh; (repeat' split) <;> exact hh)
    | (intro (_ : Ctx); rfl)

theorem keeps_modOp {core : Nat} {op : Nat} {f : EngineOp → EngineOp}
    (h : Keeps base s) : Keeps base (State.modOp s core op f) := by
  unfold State.modOp
  (try dsimp only)
  repeat' first
    | with_reducible assumption
    | with_reducible apply keeps_modCore
    | split
    | refine Keeps.mk' rfl ?_
    | (intro _ hh; (repeat' split) <;> exact hh)
    | (intro (_ : Ctx); rfl)

theorem keeps_runOp {core : Nat} {o : EngineOp} {f : EngineOp → EngineOp} (h : Keeps base s) :
    Keeps base (s.runOp core o f) := keeps_modOp h

theorem keeps_failOp {core : Nat} {o : EngineOp} {c : LateCause} (h : Keeps base s) : Keeps base (s.failOp core o c) :=
  keeps_breakConv (keeps_runOp (keeps_takeAnswers h))

theorem keeps_opStops {core : Nat} {x : Team} {o : EngineOp} {g : Got}
    (h : Keeps base s) : Keeps base (State.opStops s core x o g) := by
  unfold State.opStops
  (try dsimp only)
  repeat' first
    | with_reducible assumption
    | with_reducible apply keeps_faultRecord
    | with_reducible apply keeps_sendAsk
    | with_reducible apply keeps_modOp
    | with_reducible apply keeps_failOp
    | split
    | refine Keeps.mk' rfl ?_
    | (intro _ hh; (repeat' split) <;> exact hh)
    | (intro (_ : Ctx); rfl)

theorem wf_regionSet {a : SMap 32} {kind d r n x : Nat} (h : SMap.wf a = true) :
    SMap.wf (regionSet a kind d r n x) = true := by
  unfold regionSet
  split
  · exact SMap.wf_set _ _ _ h
  · exact SMap.wf_set _ _ _ (SMap.wf_set _ _ _ h)

theorem wf_fold {α : Type} {w : Nat} {m : SMap w} (l : List α) (f : SMap w → α → SMap w) (h : SMap.wf m = true)
    (hf : ∀ m a, SMap.wf m = true → SMap.wf (f m a) = true) : SMap.wf (l.foldl f m) = true := by
  induction l generalizing m with
  | nil => exact h
  | cons a l ih => exact ih (hf m a h)

theorem wf_regionMap {a : SMap 32} {kind d m : Nat} {f : Nat → Nat → Nat → Nat} (h : SMap.wf a = true) :
    SMap.wf (regionMap a kind d m f) = true :=
  wf_fold _ _ h fun _ _ h => wf_fold _ _ h fun _ _ h => wf_regionSet h

theorem wf_mmaRegion {a : SMap 32} {kind d : Nat} {mode : Mode} {fa fb : Nat} {l : List Latch} {b : List Byte}
    (h : SMap.wf a = true) : SMap.wf (mmaRegion a kind d mode fa fb l b) = true :=
  wf_fold _ _ h fun _ _ h => wf_fold _ _ h fun _ _ h => wf_fold _ _ h fun _ _ h => wf_regionSet h

theorem wf_apply {o : EngineOp} {a : SMap 32} (h : SMap.wf a = true) : SMap.wf (o.apply a) = true := by
  unfold EngineOp.apply
  dsimp only
  split
  · exact wf_regionMap h
  · exact wf_mmaRegion h
  · exact wf_mmaRegion h
  · exact wf_regionMap h
  all_goals exact h

theorem keeps_finishOp {o : EngineOp} (h : Keeps base s) : Keeps base (s.finishOp o) := by
  unfold State.finishOp
  split
  · exact keeps_modTeam h fun _ hx => Team.tidy_acc hx wf_apply
  · exact h

theorem keeps_beginOp {core : Nat} {x : Team} {o : EngineOp} (h : Keeps base s) : Keeps base (s.beginOp core x o) := by
  unfold State.beginOp
  dsimp only
  split
  · exact keeps_runOp h
  · exact keeps_runOp h
  · exact keeps_runOp h
  · split
    · exact keeps_failOp h
    · split
      · exact keeps_runOp h
      · exact keeps_opStops h
  · split
    · exact keeps_failOp h
    · split
      · exact keeps_runOp h
      · exact keeps_opStops h
  · split
    · exact keeps_opStops h
    · exact keeps_runOp (keeps_rekeySpans (keeps_takeAnswers h))
  · split
    · exact keeps_opStops h
    · exact keeps_opStops h
    · split
      · exact keeps_addCount (keeps_putAll (keeps_runOp h))
      · exact keeps_putAll (keeps_runOp h)
  · split
    · exact keeps_opStops h
    · exact keeps_opStops h
    · split
      · exact keeps_addCount (keeps_putAll (keeps_runOp h))
      · exact keeps_putAll (keeps_runOp h)

theorem keeps_jump {k : Here} {t : DWord} (h : Keeps base s) : Keeps base (State.jump s k t) := by
  unfold State.jump
  (try dsimp only)
  repeat' first
    | with_reducible assumption
    | with_reducible apply keeps_modGroup
    | split
    | refine Keeps.mk' rfl ?_
    | (intro _ hh; (repeat' split) <;> (repeat with_reducible first | apply tidy_modSplit) <;> exact hh)
    | (intro (_ : Ctx); rfl)

theorem keeps_addWeights {k : Here} {l : Loc} {lanes : List Nat}
    (h : Keeps base s) : Keeps base (State.addWeights s k l lanes) := by
  unfold State.addWeights
  (try dsimp only)
  repeat' first
    | with_reducible assumption
    | with_reducible apply keeps_modGroup
    | with_reducible apply keeps_atomicAt
    | (with_reducible apply Keeps.foldl; rotate_left; intro _ _ _)
    | split
    | refine Keeps.mk' rfl ?_
    | (intro _ hh; (repeat' split) <;> (repeat with_reducible first | apply tidy_touch | apply tidy_weight) <;> exact hh)
    | (intro (_ : Ctx); rfl)

theorem keeps_returnWeights {k : Here} {m : LaneMask} (h : Keeps base s) :
    match s.returnWeights k m with
    | .ok t => Keeps base t
    | .error b => Body.Keeps base b := by
  unfold State.returnWeights preciseLate
  dsimp only
  by_cases hw : k.weighted m = []
  · rw [if_pos hw]; exact h
  rw [if_neg hw]
  generalize hr : s.probes k true .write 8 _ _ = r
  cases r with
  | error b =>
    have hb := probes_error h hr
    cases b with
    | late s c => exact fun s hs => keeps_consumed (keeps_takeAnswers hs)
    | _ => exact hb
  | ok sites =>
    cases sites with
    | nil => exact h
    | cons e l =>
      dsimp only
      by_cases h1 : s.locPoisoned e.loc 8 = true
      · rw [if_pos h1]; exact fun s hs => keeps_consumed (keeps_takeAnswers hs)
      rw [if_neg h1]
      by_cases h3 : (s.accessWaits k e.loc 8 || !s.released k 8) = true
      · rw [if_pos h3]; trivial
      rw [if_neg h3]
      by_cases h2 : s.isRemote e.loc = true
      · rw [if_pos h2]
        generalize s.answerFor _ _ _ = a
        cases a with
        | bytes b => exact keeps_modGroup (keeps_takeAnswers h) fun _ hh => tidy_clearWeights hh
        | fail c => exact fun s hs => keeps_consumed (keeps_takeAnswers hs)
        | none =>
          intro s hs
          dsimp only
          split
          · exact hs
          · exact keeps_sendRequest hs
      · rw [if_neg h2]
        exact keeps_modGroup (keeps_addWeights (keeps_noteSites h)) fun _ hh => tidy_clearWeights hh

theorem keeps_noteEnd {t : Nat} (h : Keeps base s) : Keeps base (State.noteEnd s t) := by
  unfold State.noteEnd
  (try dsimp only)
  repeat' first
    | with_reducible assumption
    | with_reducible apply keeps_modTeam
    | split
    | refine Keeps.mk' rfl ?_
    | (intro _ hh; (repeat' split) <;> exact hh)
    | (intro (_ : Ctx); rfl)


end Sys2Proof.Machine
end

