-- ==== Sys2Proof/Laws/KeepsUnits.lean ====
section
/-!
SUPPORT. The operations of barriers, copies, gathers, results, commands and placement keep a legal machine.
-/
set_option Elab.async false
set_option linter.all false

namespace Sys2Proof.Machine

variable {base s : State}

theorem keeps_Here_barAcquire {k : Here} (h : Keeps base s) : Keeps base (Here.barAcquire k s) := by
  unfold Here.barAcquire
  (try dsimp only)
  repeat' first
    | with_reducible assumption
    | with_reducible apply keeps_acquire
    | split
    | refine Keeps.mk' rfl ?_
    | (intro _ hh; (repeat' split) <;> exact hh)
    | (intro (_ : Ctx); rfl)

theorem keeps_endFence {x : Team} {g : Nat} {sc : Nat} (h : Keeps base s) : Keeps base (State.endFence s x g sc) := by
  unfold State.endFence
  (try dsimp only)
  repeat' first
    | with_reducible assumption
    | with_reducible apply keeps_emptyCaches
    | with_reducible apply keeps_protect
    | split
    | refine Keeps.mk' rfl ?_
    | (intro _ hh; (repeat' split) <;> exact hh)
    | (intro (_ : Ctx); rfl)

theorem keeps_endFences (h : Keeps base s) : Keeps base (State.endFences s) := by
  unfold State.endFences
  (try dsimp only)
  repeat' first
    | with_reducible assumption
    | with_reducible apply keeps_modGroup
    | with_reducible apply keeps_endFence
    | (with_reducible apply Keeps.foldl; rotate_left; intro _ _ _)
    | split
    | refine Keeps.mk' rfl ?_
    | (intro _ hh; (repeat' split) <;> (repeat with_reducible first | apply tidy_modSplit) <;> exact hh)
    | (intro (_ : Ctx); rfl)

theorem keeps_wakeDrains (h : Keeps base s) : Keeps base (State.wakeDrains s) := by
  unfold State.wakeDrains
  (try dsimp only)
  repeat' first
    | with_reducible assumption
    | with_reducible apply keeps_emptyCaches
    | (with_reducible apply Keeps.foldl; rotate_left; intro _ _ _)
    | split
    | refine Keeps.mk' rfl ?_
    | (intro _ hh; (repeat' split) <;> (repeat with_reducible first | apply tidy_unpark) <;> exact hh)
    | (intro (_ : Ctx); rfl)

theorem keeps_endCopy {u : Nat} (h : Keeps base s) : Keeps base (State.endCopy s u) := by
  unfold State.endCopy
  (try dsimp only)
  repeat' first
    | with_reducible assumption
    | with_reducible apply keeps_takeAnswers
    | with_reducible apply keeps_wakeDrains
    | split
    | refine Keeps.mk' rfl ?_
    | (intro _ hh; (repeat' split) <;> exact hh)
    | (intro (_ : Ctx); rfl)

theorem keeps_credit {t : Nat} {off : Nat} {n : Nat} (h : Keeps base s) : Keeps base (State.credit s t off n) := by
  unfold State.credit
  (try dsimp only)
  repeat' first
    | with_reducible assumption
    | with_reducible apply keeps_setBar
    | with_reducible apply keeps_faultBar
    | split
    | refine Keeps.mk' rfl ?_
    | (intro _ hh; (repeat' split) <;> exact hh)
    | (intro (_ : Ctx); rfl)

theorem keeps_reportCopy {c : Copy} {va : DWord} (h : Keeps base s) : Keeps base (State.reportCopy s c va) := by
  unfold State.reportCopy
  (try dsimp only)
  repeat' first
    | with_reducible assumption
    | with_reducible apply keeps_interrupt
    | with_reducible apply keeps_endCopy
    | split
    | refine Keeps.mk' rfl ?_
    | with_reducible exact Mgmt.Legal.of rfl rfl rfl rfl
    | (intro _ hh; (repeat' split) <;> exact hh)
    | (intro (_ : Ctx); rfl)

theorem keeps_faultCopy {c : Copy} {va : DWord} (h : Keeps base s) : Keeps base (State.faultCopy s c va) := by
  unfold State.faultCopy
  split
  · exact keeps_reportCopy h
  · exact keeps_reportCopy (keeps_faultBar h)

theorem keeps_writeUnits {c : Copy} {f : Formed} (h : Keeps base s) : Keeps base (State.writeUnits s c f) := keeps_putAll h

theorem keeps_copyStops {c : Copy} {f : Formed} {g : Got} (h : Keeps base s) : Keeps base (State.copyStops s c f g) := by
  cases g with
  | fail l =>
    unfold State.copyStops
    dsimp only
    split
    · exact keeps_faultCopy (keeps_writeUnits (keeps_consumedBy h))
    · exact keeps_faultCopy (keeps_writeUnits h)
  | replay va why => exact keeps_faultRecord (keeps_modCopy h)
  | bytes b => exact h
  | held => exact h
  | ask d pa n va => exact keeps_askFor h

theorem keeps_startCopy {u : Nat} (h : Keeps base s) : Keeps base (State.startCopy s u) := by
  unfold State.startCopy
  split
  · exact h
  · split
    · exact h
    · split
      · exact keeps_copyStops h
      · split
        · exact keeps_copyStops (keeps_modCopy h)
        · dsimp only
          split
          · exact keeps_faultCopy h
          · exact keeps_modCopy (keeps_rekeySpans (keeps_takeAnswers h))

theorem keeps_creditTile {c : Copy} {k : Nat} (h : Keeps base s) : Keeps base (State.creditTile s c k) := by
  unfold State.creditTile
  split
  · exact keeps_reportCopy (keeps_consumedBy h)
  · dsimp only
    split
    · exact keeps_endCopy (keeps_credit (keeps_modCopy h))
    · exact keeps_credit (keeps_modCopy h)

theorem keeps_finishTile {c : Copy} {k : Nat} {t : Tile} (h : Keeps base s) : Keeps base (State.finishTile s c k t) := by
  unfold State.finishTile
  dsimp only
  split
  · split
    · exact keeps_copyStops h
    · exact keeps_modCopy (keeps_putAll h)
  · split
    · split
      · exact keeps_copyStops h
      · exact keeps_modCopy (keeps_addCount h)
    · exact keeps_creditTile h

theorem keeps_sentTile {u k n : Nat} (h : Keeps base s) : Keeps base (s.sentTile u k n) := by
  induction n generalizing s with
  | zero => exact h
  | succ n ih =>
    unfold State.sentTile
    split
    · exact h
    · split
      · exact h
      · split
        · exact h
        · exact ih (keeps_finishTile h)

theorem keeps_writeTile {c : Copy} {k : Nat} (h : Keeps base s) : Keeps base (s.writeTile c k) := by
  unfold State.writeTile
  dsimp only
  split
  · exact keeps_copyStops h
  · split
    · exact keeps_copyStops h
    · exact keeps_copyStops h
    · exact keeps_sentTile (keeps_modCopy (keeps_putAll (keeps_rekeySpans (keeps_takeAnswers h))))

theorem keeps_copyWriteFails {c : Copy} {l : LateCause} (h : Keeps base s) : Keeps base (State.copyWriteFails s c l) :=
  keeps_faultCopy (keeps_consumedBy h)

theorem keeps_failCopy {u : Nat} {va : DWord} (h : Keeps base s) : Keeps base (State.failCopy s u va) := by
  unfold State.failCopy
  split
  · exact h
  · refine keeps_faultCopy ?_
    split
    · exact keeps_writeUnits h
    · exact h

theorem remoteReads_keeps {k : Here} {l : List Site} {b : Body} (h : Keeps base s) (e : s.remoteReads k l = some b) :
    Body.Keeps base b := by
  unfold State.remoteReads at e
  dsimp only at e
  split at e
  · cases e; exact keeps_takeAnswers h
  · split at e
    · cases e
    · cases e; exact fun s hs => Keeps.foldl _ _ hs fun _ _ ha => keeps_askFor ha

theorem keeps_keepDesc {k : Here} {va : DWord} {d : List DWord}
    (h : Keeps base s) : Keeps base (State.keepDesc s k va d) := by
  unfold State.keepDesc
  (try dsimp only)
  repeat' first
    | with_reducible assumption
    | with_reducible apply keeps_modCore
    | split
    | refine Keeps.mk' rfl ?_
    | (intro _ hh; (repeat' split) <;> exact hh)
    | (intro (_ : Ctx); rfl)

theorem keeps_gatherDesc {k : Here} (h : Keeps base s) :
    match s.gatherDesc k with
    | .ok r => Keeps base r.2
    | .error b => Body.Keeps base b := by
  unfold State.gatherDesc
  dsimp only
  by_cases h1 : (k.grp.greg k.f.a.toNat).toNat % 64 ≠ 0
  · rw [if_pos h1]; trivial
  rw [if_neg h1]
  generalize s.descCached k _ = d
  cases d with
  | some d => exact h
  | none =>
    dsimp only
    generalize hr : s.probes k true .read 64 _ _ = r
    cases r with
    | error b => exact probes_error h hr
    | ok sites =>
      dsimp only
      by_cases h2 : s.sitesWait k sites = true
      · rw [if_pos h2]; trivial
      rw [if_neg h2]
      generalize hp : s.performUpTo _ _ _ _ = r
      cases r with
      | none => trivial
      | some s1 =>
        have hk := keeps_performUpTo h hp
        dsimp only
        generalize List.find? _ sites = f
        cases f with
        | some e => exact hk
        | none =>
          dsimp only
          generalize hq : s1.remoteReads k sites = q
          cases q with
          | some b => exact remoteReads_keeps hk hq
          | none => exact keeps_keepDesc (keeps_rekeySpans (keeps_noteSites (keeps_takeAnswers hk)))

theorem keeps_dropDescReads {core : Nat} {ctx : Nat} {which : DWord → Bool}
    (h : Keeps base s) : Keeps base (State.dropDescReads s core ctx which) := by
  unfold State.dropDescReads
  (try dsimp only)
  repeat' first
    | with_reducible assumption
    | split
    | refine Keeps.mk' rfl ?_
    | (intro _ hh; (repeat' split) <;> exact hh)
    | (intro (_ : Ctx); rfl)

theorem keeps_dropDescs {core : Nat} {ctx : Nat} {which : DWord → Bool}
    (h : Keeps base s) : Keeps base (State.dropDescs s core ctx which) := by
  unfold State.dropDescs
  (try dsimp only)
  repeat' first
    | with_reducible assumption
    | with_reducible apply keeps_modCore
    | with_reducible apply keeps_dropDescReads
    | split
    | refine Keeps.mk' rfl ?_
    | (intro _ hh; (repeat' split) <;> exact hh)
    | (intro (_ : Ctx); rfl)

theorem keeps_collect {core : Nat} {grid : Nat} {entry : DWord} {it : Item}
    (h : Keeps base s) : Keeps base (State.collect s core grid entry it) := by
  unfold State.collect
  (try dsimp only)
  repeat' first
    | with_reducible assumption
    | with_reducible apply keeps_modCore
    | split
    | refine Keeps.mk' rfl ?_
    | (intro _ hh; (repeat' split) <;> exact hh)
    | (intro (_ : Ctx); rfl)

theorem tidy_weight {h : Group} {l : Nat} {x : DWord} (hh : Group.tidy h = true) :
    Group.tidy { h with weight := SMap.set h.weight l x } = true := by
  simp only [Group.tidy, Bool.and_eq_true] at hh ⊢
  exact ⟨hh.1, SMap.wf_set _ _ _ hh.2⟩

theorem keeps_offers {k : Here} {entry : Nat → DWord} {l : List Nat} (h : Keeps base s) :
    Keeps base (s.offers k entry l).2 := by
  induction l generalizing s with
  | nil => exact h
  | cons a l ih =>
    unfold State.offers
    dsimp only
    split
    · exact ih (keeps_modGroup (keeps_collect h) fun _ hh => tidy_weight hh)
    · exact ih h

theorem keeps_deliverResult {x : Team} {g : Group} {idx : Nat} {r : Result} (h : Keeps base s) :
    Keeps base (s.deliverResult x g idx r) := by
  unfold State.deliverResult
  have h1 : Keeps base (match r.acq with
      | some sc => if 6 ≤ sc then s.emptyCaches x.core else s
      | none => s) := by
    split
    · split
      · exact keeps_emptyCaches h
      · exact h
    · exact h
  dsimp only
  split
  · exact keeps_lateFrom (keeps_modGroup h1 fun _ hh => hh)
  · exact keeps_modGroup h1 fun _ hh => by
      have hw := tidy_foldl (r.writes.filter fun w => w.alive g.everyLane) Group.applyWrite hh fun _ _ hg => tidy_applyWrite hg
      exact tidy_of hw rfl rfl rfl rfl rfl

theorem keeps_dropAnswers {n : Nat} (h : Keeps base s) : Keeps base (State.dropAnswers s n) := by
  unfold State.dropAnswers
  (try dsimp only)
  repeat' first
    | with_reducible assumption
    | with_reducible apply keeps_takeAnswers
    | split
    | refine Keeps.mk' rfl ?_
    | (intro _ hh; (repeat' split) <;> exact hh)
    | (intro (_ : Ctx); rfl)

theorem keeps_haltStream {n : Nat} (h : Keeps base s) : Keeps base (State.haltStream s n) := by
  unfold State.haltStream
  (try dsimp only)
  repeat' first
    | with_reducible assumption
    | with_reducible apply keeps_modCtx
    | with_reducible apply keeps_stopStream
    | with_reducible apply keeps_dropAnswers
    | split
    | refine Keeps.mk' rfl ?_
    | (intro _ hh; (repeat' split) <;> exact hh)
    | (intro (_ : Ctx); rfl)

theorem keeps_advance {n : Nat} {pc : DWord} {irq : Bool} (h : Keeps base s) : Keeps base (State.advance s n pc irq) := by
  unfold State.advance
  (try dsimp only)
  repeat' first
    | with_reducible assumption
    | with_reducible apply keeps_modStream
    | with_reducible apply keeps_raiseMsix
    | with_reducible apply keeps_dropAnswers
    | with_reducible apply keeps_haltStream
    | split
    | refine Keeps.mk' rfl ?_
    | (intro _ hh; (repeat' split) <;> exact hh)
    | (intro (_ : Ctx); rfl)

/-- What a command processor reads keeps a chain, and so does what happened instead. -/
def ReadKeeps {α : Type} (base : State) : Except State (α × State) → Prop
  | .ok r => Keeps base r.2
  | .error t => Keeps base t

theorem keeps_cpBytes {n k : Nat} {va : DWord} {grid : Word} (h : Keeps base s) : ReadKeeps base (s.cpBytes n va k grid) := by
  unfold State.cpBytes
  split
  · exact keeps_rekeySpans h
  · exact keeps_cpFails h

theorem keeps_cpDword {n : Nat} {va : DWord} {grid : Word} (h : Keeps base s) : ReadKeeps base (s.cpDword n va grid) := by
  have hb := keeps_cpBytes (n := n) (k := 8) (va := va) (grid := grid) h
  unfold State.cpDword
  split <;> simp_all only [ReadKeeps]

theorem keeps_touchStream {n : Nat} {l : Loc} (h : Keeps base s) : Keeps base (State.touchStream s n l) := by
  unfold State.touchStream
  (try dsimp only)
  repeat' first
    | with_reducible assumption
    | with_reducible apply keeps_modStream
    | split
    | refine Keeps.mk' rfl ?_
    | (intro _ hh; (repeat' split) <;> exact hh)
    | (intro (_ : Ctx); rfl)

theorem keeps_protectStream {n : Nat} (h : Keeps base s) : Keeps base (State.protectStream s n) := by
  unfold State.protectStream
  (try dsimp only)
  repeat' first
    | with_reducible assumption
    | with_reducible apply keeps_modStream
    | with_reducible apply keeps_writeBackLines
    | split
    | refine Keeps.mk' rfl ?_
    | (intro _ hh; (repeat' split) <;> exact hh)
    | (intro (_ : Ctx); rfl)

/-- Either outcome of an operation that may stop keeps a chain. -/
def EndKeeps (base : State) : Except State State → Prop
  | .ok t | .error t => Keeps base t

theorem keeps_cpPut {n : Nat} {va : DWord} {ask : OutAsk} {grid : Word} (h : Keeps base s) :
    EndKeeps base (s.cpPut n va ask grid) := by
  unfold State.cpPut
  dsimp only
  repeat' first
    | exact h
    | exact keeps_cpFails h
    | exact keeps_touchStream (keeps_placeBytes h)
    | (show Keeps base (ite _ _ _); split; exact h; exact keeps_sendRequest h)
    | split

theorem keeps_writeBackAll (h : Keeps base s) : Keeps base (State.writeBackAll s) := by
  unfold State.writeBackAll
  (try dsimp only)
  repeat' first
    | with_reducible assumption
    | with_reducible apply keeps_writeBackLines
    | split
    | refine Keeps.mk' rfl ?_
    | (intro _ hh; (repeat' split) <;> exact hh)
    | (intro (_ : Ctx); rfl)

theorem keeps_dropHostCopy {n : Nat} {i : Nat} (h : Keeps base s) : Keeps base (State.dropHostCopy s n i) := by
  unfold State.dropHostCopy
  (try dsimp only)
  repeat' first
    | with_reducible assumption
    | with_reducible apply keeps_modStream
    | split
    | refine Keeps.mk' rfl ?_
    | (intro _ hh; (repeat' split) <;> exact hh)
    | (intro (_ : Ctx); rfl)

theorem keeps_failHostCopy {n : Nat} {i : Nat} {c : HostCopy}
    (h : Keeps base s) : Keeps base (State.failHostCopy s n i c) := by
  unfold State.failHostCopy
  (try dsimp only)
  repeat' first
    | with_reducible assumption
    | with_reducible apply keeps_stopStream
    | with_reducible apply keeps_dropAnswers
    | with_reducible apply keeps_dropHostCopy
    | split
    | refine Keeps.mk' rfl ?_
    | (intro _ hh; (repeat' split) <;> exact hh)
    | (intro (_ : Ctx); rfl)

theorem keeps_hostCopyStops {n : Nat} {i : Nat} {c : HostCopy} {kind : Nat} {g : Got}
    (h : Keeps base s) : Keeps base (State.hostCopyStops s n i c kind g) := by
  unfold State.hostCopyStops
  (try dsimp only)
  repeat' first
    | with_reducible assumption
    | with_reducible apply keeps_modStream
    | with_reducible apply keeps_faultRecord
    | with_reducible apply keeps_consumedBy
    | with_reducible apply keeps_failHostCopy
    | split
    | refine Keeps.mk' rfl ?_
    | (intro _ hh; (repeat' split) <;> exact hh)
    | (intro (_ : Ctx); rfl)

theorem keeps_settleHostCopies {ctx : Nat} (h : Keeps base s) : Keeps base (State.settleHostCopies s ctx) := by
  unfold State.settleHostCopies
  (try dsimp only)
  repeat' first
    | with_reducible assumption
    | with_reducible apply keeps_modStream
    | with_reducible apply keeps_settleUnits
    | (with_reducible apply Keeps.foldl; rotate_left; intro _ _ _)
    | split
    | refine Keeps.mk' rfl ?_
    | (intro _ hh; (repeat' split) <;> exact hh)
    | (intro (_ : Ctx); rfl)

theorem keeps_endSpawnTeams (h : Keeps base s) : Keeps base (State.endSpawnTeams s) := by
  unfold State.endSpawnTeams
  (try dsimp only)
  repeat' first
    | with_reducible assumption
    | split
    | refine Keeps.mk' rfl ?_
    | (intro _ hh; (repeat' split) <;> exact hh)
    | (intro (_ : Ctx); rfl)

theorem keeps_reap (h : Keeps base s) : Keeps base (State.reap s) := by
  unfold State.reap
  (try dsimp only)
  repeat' first
    | with_reducible assumption
    | with_reducible apply keeps_dropTeam
    | with_reducible apply keeps_endSpawnTeams
    | (with_reducible apply Keeps.foldl; rotate_left; intro _ _ _)
    | split
    | refine Keeps.mk' rfl ?_
    | (intro _ hh; (repeat' split) <;> exact hh)
    | (intro (_ : Ctx); rfl)

theorem tidy_newTeam {u : Nat} {g : Grid} {core : Nat} {sp : Bool} {t w : Word} : Team.tidy (newTeam u g core sp t w) = true := rfl

theorem keeps_addTeams {l : List Team} {m : List Group} (h : Keeps base s) (hl : ∀ x ∈ l, Team.tidy x = true)
    (hm : ∀ x ∈ m, Group.tidy x = true) : Keeps base { s with teams := s.teams ++ l, groups := s.groups ++ m } :=
  Keeps.mk' rfl h id id id (fun g => forall_append g hl) (fun g => forall_append g hm) id rfl rfl rfl

theorem keeps_addSpawnTeam {g : Grid} {core : Nat} (h : Keeps base s) : Keeps base (s.addSpawnTeam g core) := by
  unfold State.addSpawnTeam
  split
  · exact h
  · exact Keeps.mk' rfl (keeps_fresh h) id id id
      (fun g => forall_append (p := fun x => Team.tidy x = true) g (by simp [tidy_newTeam])) id id rfl rfl rfl

theorem keeps_placedOn {g : Grid} {core : Nat} (h : Keeps base s) : Keeps base (State.placedOn s g core) := by
  unfold State.placedOn
  (try dsimp only)
  repeat' first
    | with_reducible assumption
    | with_reducible apply keeps_modCore
    | with_reducible apply keeps_emptyCaches
    | with_reducible apply keeps_dropDescReads
    | split
    | refine Keeps.mk' rfl ?_
    | (intro _ hh; (repeat' split) <;> exact hh)
    | (intro (_ : Ctx); rfl)

theorem tidy_start {t gid slot : Nat} {role : BitVec 2} {budget : Nat} {argp root entry : DWord} {lanes : LaneMask} :
    Group.tidy (Group.start t gid slot role budget argp root entry lanes) = true := by
  simp only [Group.start, Group.tidy, Bool.and_eq_true]
  exact ⟨⟨⟨⟨rfl, SMap.wf_set _ _ _ (SMap.wf_set _ _ _ rfl)⟩, rfl⟩, rfl⟩, rfl⟩

theorem wf_startWeights {l : List DWord} : SMap.wf (startWeights l) = true := SMap.wf_foldSet _ _ _ _ rfl

theorem tidy_weights {h : Group} {w : SMap 64} (hh : Group.tidy h = true) (hw : SMap.wf w = true) :
    Group.tidy { h with weight := w } = true := by
  simp only [Group.tidy, Bool.and_eq_true] at hh ⊢
  exact ⟨hh.1, hw⟩

theorem tidy_startGroups {g : Grid} {t : Nat} {l : List Nat} (taken : List Nat) :
    ∀ h ∈ g.startGroups t taken l, Group.tidy h = true := by
  induction l generalizing taken with
  | nil => intro h hh; cases hh
  | cons i l ih =>
    intro h hh
    rcases List.mem_cons.mp hh with rfl | hh
    · refine tidy_weights tidy_start ?_
      split
      · rfl
      · exact wf_startWeights
    · exact ih _ h hh

theorem keeps_placeTeam {u core : Nat} (h : Keeps base s) : Keeps base (s.placeTeam u core) := by
  unfold State.placeTeam
  split
  · exact h
  · dsimp only
    refine keeps_modGrid ?_
    refine Keeps.mk' rfl (keeps_fresh (keeps_placedOn (keeps_addSpawnTeam h))) id id id
      (fun g => forall_append (p := fun x => Team.tidy x = true) g (by simp [tidy_newTeam]))
      (fun g => forall_append g (tidy_startGroups _)) id rfl rfl rfl

theorem keeps_distribute {core : Nat} {l : List Grid} (h : Keeps base s) : Keeps base (State.distribute core l s) := by
  induction l generalizing s with
  | nil => exact h
  | cons g l ih =>
    unfold State.distribute
    split
    · split
      · exact Keeps.mk' rfl (Keeps.foldl _ _ h fun _ _ hs => keeps_placeTeam hs) id id id id id id rfl rfl rfl
      · exact h
    · split
      · split
        · exact ih (Keeps.mk' (s := s) rfl h id id id id id id rfl rfl rfl)
        · exact ih h
      · exact ih h

theorem keeps_takeRestored {core : Nat} {entry : DWord}
    (h : Keeps base s) : Keeps base (State.takeRestored s core entry) := by
  unfold State.takeRestored
  (try dsimp only)
  repeat' first
    | with_reducible assumption
    | with_reducible apply keeps_modGrid
    | with_reducible apply keeps_collect
    | with_reducible apply keeps_addSpawnTeam
    | (with_reducible apply Keeps.foldl; rotate_left; intro _ _ _)
    | split
    | refine Keeps.mk' rfl ?_
    | (intro _ hh; (repeat' split) <;> (repeat with_reducible first | apply tidy_weight) <;> exact hh)
    | (intro (_ : Ctx); rfl)

theorem keeps_renumber {t g g' : Nat} (h : Keeps base s) : Keeps base (s.renumber t g g') := Keeps.mk' rfl h

theorem keeps_startSpawned {core : Nat} {f : Forming} {g : Grid} (h : Keeps base s) :
    Keeps base (s.startSpawned core f g) := by
  unfold State.startSpawned
  dsimp only
  split
  · exact keeps_emptyCaches (keeps_addSpawnTeam h)
  · refine Keeps.mk' rfl (keeps_renumber (keeps_fresh (keeps_modCore (keeps_emptyCaches (keeps_addSpawnTeam h))))) id id id id
      (fun g => forall_append g ?_) id rfl rfl rfl
    intro y hy
    rw [List.mem_singleton.mp hy]
    exact tidy_weights (tidy_foldl _ _ tidy_start fun _ _ hg => tidy_setLreg (tidy_setLreg hg)) wf_startWeights


end Sys2Proof.Machine
end

