-- ==== Sys2Proof/Laws/KeepsPlatform.lean ====
section
/-!
SUPPORT. The operations of collectives, fabric, traps, storage, management, host link and clock keep a legal machine.
-/
set_option Elab.async false
set_option linter.all false

namespace Sys2Proof.Machine

variable {base s : State}

theorem keeps_keepResponse {source : Nat} {tag : Nat} {r : Response}
    (h : Keeps base s) : Keeps base (State.keepResponse s source tag r) := by
  unfold State.keepResponse
  (try dsimp only)
  repeat' first
    | with_reducible assumption
    | split
    | refine Keeps.mk' rfl ?_
    | (intro _ hh; (repeat' split) <;> exact hh)
    | (intro (_ : Ctx); rfl)

theorem keeps_respond {get : Option CollPacket} {source : Nat} {tag : Nat} {r : Response}
    (h : Keeps base s) : Keeps base (State.respond s get source tag r) := by
  unfold State.respond
  (try dsimp only)
  repeat' first
    | with_reducible assumption
    | split
    | refine Keeps.mk' rfl ?_
    | (intro _ hh; (repeat' split) <;> exact hh)
    | (intro (_ : Ctx); rfl)

theorem keeps_complete {get : Option CollPacket} {source : Nat} {tag : Nat} {r : Response}
    (h : Keeps base s) : Keeps base (State.complete s get source tag r) := by
  unfold State.complete
  (try dsimp only)
  repeat' first
    | with_reducible assumption
    | with_reducible apply keeps_keepResponse
    | with_reducible apply keeps_respond
    | split
    | refine Keeps.mk' rfl ?_
    | (intro _ hh; (repeat' split) <;> exact hh)
    | (intro (_ : Ctx); rfl)

theorem keeps_refuse {source : Nat} {tag : Nat} (h : Keeps base s) : Keeps base (State.refuse s source tag) := by
  unfold State.refuse
  (try dsimp only)
  repeat' first
    | with_reducible assumption
    | with_reducible apply keeps_report
    | with_reducible apply keeps_complete
    | split
    | refine Keeps.mk' rfl ?_
    | (intro _ hh; (repeat' split) <;> exact hh)
    | (intro (_ : Ctx); rfl)

theorem keeps_replan {c : Coll} {which : Nat → Bool} (h : Keeps base s) : Keeps base (State.replan s c which) := by
  unfold State.replan
  split
  · exact h
  · exact keeps_modColl h

theorem keeps_endColl {u : Nat} (h : Keeps base s) : Keeps base (State.endColl s u) := keeps_modColl (keeps_takeAnswers h)

theorem keeps_stallColl {c : Coll} {kind : Nat} {va : DWord} {why : BitVec 8}
    (h : Keeps base s) : Keeps base (State.stallColl s c kind va why) := by
  unfold State.stallColl
  (try dsimp only)
  repeat' first
    | with_reducible assumption
    | with_reducible apply keeps_modColl
    | with_reducible apply keeps_faultRecord
    | split
    | refine Keeps.mk' rfl ?_
    | (intro _ hh; (repeat' split) <;> exact hh)
    | (intro (_ : Ctx); rfl)

theorem keeps_collConsumed {c : Coll} {l : LateCause} (h : Keeps base s) : Keeps base (State.collConsumed s c l) := by
  unfold State.collConsumed
  (try dsimp only)
  repeat' first
    | with_reducible assumption
    | with_reducible apply keeps_consumedBy
    | split
    | refine Keeps.mk' rfl ?_
    | (intro _ hh; (repeat' split) <;> exact hh)
    | (intro (_ : Ctx); rfl)

theorem keeps_putDone {c : Coll} {tag : DWord} {stage : Nat} {ended : State → State} (h : Keeps base s)
    (he : ∀ s, Keeps base s → Keeps base (ended s)) : Keeps base (s.putDone c tag stage ended) := by
  unfold State.putDone
  split
  · exact h
  · split
    · exact keeps_stallColl h
    · exact he _ (keeps_collConsumed h)
    · exact h
    · dsimp only
      split
      · exact he _ (keeps_putAll (keeps_writeBackAll h))
      · exact keeps_modColl (keeps_putAll (keeps_writeBackAll h))

theorem keeps_failStep {u : Nat} (h : Keeps base s) : Keeps base (s.failStep u) := by
  unfold State.failStep
  split
  · exact h
  · split
    · exact h
    · split
      · split
        · exact h
        · exact keeps_endColl h
      · exact keeps_putDone h fun _ hs => keeps_endColl hs

theorem keeps_failOne {u reason : Nat} {mark : Bool} (h : Keeps base s) : Keeps base (s.failOne u reason mark) := by
  unfold State.failOne
  split
  · exact h
  · split
    · exact h
    · dsimp only
      split
      · exact keeps_failStep (keeps_report (Keeps.mk' rfl (keeps_modColl (keeps_takeAnswers h))))
      · exact keeps_endColl (keeps_report (Keeps.mk' rfl (keeps_modColl (keeps_takeAnswers h))))

theorem keeps_failCollAt {u reason : Nat} {mark : Bool} (h : Keeps base s) : Keeps base (s.failCollAt u reason mark) := by
  unfold State.failCollAt
  split
  · exact h
  · split
    · exact h
    · exact Keeps.foldl _ _ (Keeps.mk' rfl (keeps_failOne h)) fun _ _ hs => keeps_failOne hs

theorem keeps_failColl {u : Nat} {reason : Nat} (h : Keeps base s) : Keeps base (State.failColl s u reason) := by
  unfold State.failColl
  (try dsimp only)
  repeat' first
    | with_reducible assumption
    | with_reducible apply keeps_failCollAt
    | split
    | refine Keeps.mk' rfl ?_
    | (intro _ hh; (repeat' split) <;> exact hh)
    | (intro (_ : Ctx); rfl)

theorem keeps_failCollAccess {u : Nat} (h : Keeps base s) : Keeps base (State.failCollAccess s u) := by
  unfold State.failCollAccess
  (try dsimp only)
  repeat' first
    | with_reducible assumption
    | with_reducible apply keeps_endColl
    | with_reducible apply keeps_failCollAt
    | split
    | refine Keeps.mk' rfl ?_
    | (intro _ hh; (repeat' split) <;> exact hh)
    | (intro (_ : Ctx); rfl)

theorem keeps_collWriteFails {c : Coll} {l : LateCause} (h : Keeps base s) : Keeps base (State.collWriteFails s c l) := by
  unfold State.collWriteFails
  (try dsimp only)
  repeat' first
    | with_reducible assumption
    | with_reducible apply keeps_consumedBy
    | with_reducible apply keeps_endColl
    | with_reducible apply keeps_failCollAt
    | with_reducible apply keeps_failColl
    | split
    | refine Keeps.mk' rfl ?_
    | (intro _ hh; (repeat' split) <;> exact hh)
    | (intro (_ : Ctx); rfl)

theorem keeps_collStops {c : Coll} {kind : Nat} {g : Got} (h : Keeps base s) : Keeps base (State.collStops s c kind g) := by
  unfold State.collStops
  (try dsimp only)
  repeat' first
    | with_reducible assumption
    | with_reducible apply keeps_sendAsk
    | with_reducible apply keeps_stallColl
    | with_reducible apply keeps_collConsumed
    | with_reducible apply keeps_failColl
    | split
    | refine Keeps.mk' rfl ?_
    | (intro _ hh; (repeat' split) <;> exact hh)
    | (intro (_ : Ctx); rfl)

theorem keeps_contribution {c : Coll} {k : Nat} (h : Keeps base s) : ReadKeeps base (s.contribution c k) := by
  unfold State.contribution
  split
  · exact h
  · split
    · exact keeps_rekeySpans h
    · exact keeps_collStops h

theorem keeps_collMap {c : Coll} (h : Keeps base s) : ReadKeeps base (s.collMap c) := by
  unfold State.collMap
  split
  · exact h
  · split
    · exact keeps_modColl (keeps_rekeySpans h)
    · exact keeps_collStops h

theorem keeps_readOk {α : Type} {r : Except State (α × State)} {a : α} {t : State} (e : r = .ok (a, t)) (h : ReadKeeps base r) :
    Keeps base t := by subst e; exact h
theorem keeps_readError {α : Type} {r : Except State (α × State)} {t : State} (e : r = .error t) (h : ReadKeeps base r) :
    Keeps base t := by subst e; exact h

theorem keeps_emit {dev : Nat} {kind : Nat} {c : Chunk} (h : Keeps base s) : Keeps base (State.emit s dev kind c) := by
  unfold State.emit
  (try dsimp only)
  repeat' first
    | with_reducible assumption
    | split
    | refine Keeps.mk' rfl ?_
    | (intro _ hh; (repeat' split) <;> exact hh)
    | (intro (_ : Ctx); rfl)

theorem keeps_cutOff {c : Coll} {r : Nat} (h : Keeps base s) : Keeps base (State.cutOff s c r) := keeps_failColl h

theorem keeps_sendPacket {c : Coll} {map : List Nat} {kind rank : Nat} {out : Chunk} (h : Keeps base s) :
    Keeps base (State.sendPacket s c map kind rank out) := by
  unfold State.sendPacket
  dsimp only
  split
  · exact keeps_modColl (keeps_emit (keeps_fresh h))
  · exact keeps_cutOff h

theorem keeps_sendTo {c : Coll} {map : List Nat} {k kind stepNo : Nat} {data : List Int} {rank : Nat} (h : Keeps base s) :
    Keeps base (State.sendTo s c map k kind stepNo data rank) := keeps_sendPacket h

theorem keeps_passOn {c : Coll} {map : List Nat} {p : Chunk} {parent : Option Nat} (h : Keeps base s) :
    Keeps base (State.passOn s c map p parent) := by
  unfold State.passOn
  split
  · exact keeps_sendPacket h
  · exact h

theorem keeps_sendAll {c : Coll} {map : List Nat} {k kind n : Nat} {d : List Int} {l : List Nat} (h : Keeps base s) :
    Keeps base (s.sendAll c map k kind n d l) :=
  Keeps.foldl _ _ h fun _ _ hs => by
    split
    · exact keeps_sendTo hs
    · exact hs

theorem keeps_creditChunk {c : Coll} {map : List Nat} {p : Chunk}
    (h : Keeps base s) : Keeps base (State.creditChunk s c map p) := by
  unfold State.creditChunk
  (try dsimp only)
  repeat' first
    | with_reducible assumption
    | with_reducible apply keeps_emit
    | split
    | refine Keeps.mk' rfl ?_
    | (intro _ hh; (repeat' split) <;> exact hh)
    | (intro (_ : Ctx); rfl)

theorem keeps_consume {c : Coll} {map : List Nat} {e : Nat × Chunk}
    (h : Keeps base s) : Keeps base (State.consume s c map e) := by
  unfold State.consume
  (try dsimp only)
  repeat' first
    | with_reducible assumption
    | with_reducible apply keeps_modColl
    | with_reducible apply keeps_creditChunk
    | split
    | refine Keeps.mk' rfl ?_
    | (intro _ hh; (repeat' split) <;> exact hh)
    | (intro (_ : Ctx); rfl)

theorem keeps_writeFinal {c : Coll} {k : Nat} {data : List Int}
    (h : Keeps base s) : EndKeeps base (s.writeFinal c k data) := by
  unfold State.writeFinal
  split
  · exact h
  · split
    · exact h
    · dsimp only
      split
      · exact keeps_modColl (keeps_putAll h)
      · exact keeps_collStops h

theorem keeps_ofError {r : Except State State} {t : State} (e : r = .error t) (h : EndKeeps base r) : Keeps base t := by
  rw [e] at h; exact h
theorem keeps_ofOk {r : Except State State} {t : State} (e : r = .ok t) (h : EndKeeps base r) : Keeps base t := by
  rw [e] at h; exact h

theorem keeps_consumeAll {c : Coll} {map : List Nat} {l : List (Nat × Chunk)} {f : Coll → Coll} (h : Keeps base s) :
    Keeps base ((l.foldl (fun s e => s.consume c map e) s).modColl c.uid f) :=
  keeps_modColl (Keeps.foldl _ _ h fun _ _ hs => keeps_consume hs)

theorem keeps_stepChunk {c : Coll} {map : List Nat} {k : Nat} (h : Keeps base s) : Keeps base (s.stepChunk c map k) := by
  unfold State.stepChunk
  dsimp only
  split
  · exact h
  · split
    · next e => exact keeps_consumeAll (l := [_]) (keeps_ofOk e (keeps_writeFinal h))
    · next e => exact keeps_ofError e (keeps_writeFinal h)
  · exact keeps_consumeAll (l := [_]) (keeps_passOn h)
  · split
    · next e => exact keeps_readError e (keeps_contribution h)
    · next e =>
      have h1 := keeps_readOk e (keeps_contribution h)
      split
      · next e => exact keeps_ofError e (keeps_writeFinal h1)
      · next e => exact keeps_modColl (keeps_sendAll (keeps_ofOk e (keeps_writeFinal h1)))
  · split
    · next e => exact keeps_readError e (keeps_contribution h)
    · next e =>
      have h1 := keeps_readOk e (keeps_contribution h)
      split
      · exact keeps_sendAll (keeps_consumeAll h1)
      · exact keeps_modColl (keeps_sendAll (keeps_consumeAll h1))
  · exact keeps_sendAll (keeps_consumeAll (l := [_]) h)
  · split
    · next e => exact keeps_readError e (keeps_contribution h)
    · next e =>
      have h1 := keeps_readOk e (keeps_contribution h)
      split
      · exact keeps_sendAll (keeps_consumeAll h1)
      · split
        · next e => exact keeps_ofError e (keeps_writeFinal h1)
        · next e => exact keeps_sendAll (keeps_consumeAll (keeps_ofOk e (keeps_writeFinal h1)))

theorem keeps_workChunk {u k n : Nat} (h : Keeps base s) : Keeps base (s.workChunk u k n) := by
  induction n generalizing s with
  | zero => exact h
  | succ n ih =>
    unfold State.workChunk
    split
    · exact h
    · split
      · exact h
      · split
        · next e => exact keeps_readError e (keeps_collMap h)
        · next e => exact ih (keeps_stepChunk (keeps_readOk e (keeps_collMap h)))

theorem keeps_acceptChunk {c : Coll} {kind : Nat} {p : Chunk}
    (h : Keeps base s) : Keeps base (State.acceptChunk s c kind p) := by
  unfold State.acceptChunk
  (try dsimp only)
  repeat' first
    | with_reducible assumption
    | with_reducible apply keeps_modColl
    | with_reducible apply keeps_failColl
    | with_reducible apply keeps_creditChunk
    | with_reducible apply keeps_workChunk
    | split
    | refine Keeps.mk' rfl ?_
    | (intro _ hh; (repeat' split) <;> exact hh)
    | (intro (_ : Ctx); rfl)

theorem keeps_arrive {kind : Nat} {p : Chunk} (h : Keeps base s) : Keeps base (State.arrive s kind p) := by
  unfold State.arrive
  (try dsimp only)
  repeat' first
    | with_reducible assumption
    | with_reducible apply keeps_respond
    | with_reducible apply keeps_refuse
    | with_reducible apply keeps_emit
    | with_reducible apply keeps_acceptChunk
    | split
    | refine Keeps.mk' rfl ?_
    | (intro _ hh; (repeat' split) <;> exact hh)
    | (intro (_ : Ctx); rfl)

theorem keeps_chunkAnswered {tag : Nat} {r : Response} (h : Keeps base s) : Keeps base (State.chunkAnswered s tag r) := by
  unfold State.chunkAnswered
  (try dsimp only)
  repeat' first
    | with_reducible assumption
    | with_reducible apply keeps_modColl
    | with_reducible apply keeps_failColl
    | split
    | refine Keeps.mk' rfl ?_
    | (intro _ hh; (repeat' split) <;> exact hh)
    | (intro (_ : Ctx); rfl)

theorem keeps_finishColl {u : Nat} (h : Keeps base s) : Keeps base (s.finishColl u) := by
  unfold State.finishColl
  split
  · exact h
  · split
    · exact h
    · split
      · split
        · exact keeps_failCollAt (keeps_collConsumed h)
        · exact keeps_putDone h fun _ hs => keeps_endColl hs
      · split
        · exact keeps_endColl h
        · exact h

theorem keeps_countColl {u : Nat} (h : Keeps base s) : Keeps base (State.countColl s u) := by
  unfold State.countColl
  (try dsimp only)
  repeat' first
    | with_reducible assumption
    | with_reducible apply keeps_modColl
    | with_reducible apply keeps_addCount
    | with_reducible apply keeps_collConsumed
    | with_reducible apply keeps_failCollAt
    | with_reducible apply keeps_collStops
    | with_reducible apply keeps_finishColl
    | split
    | refine Keeps.mk' rfl ?_
    | (intro _ hh; (repeat' split) <;> exact hh)
    | (intro (_ : Ctx); rfl)

theorem keeps_commDesc {k : Here} (h : Keeps base s) :
    match s.commDesc k with
    | .ok r => Keeps base r.2
    | .error b => Body.Keeps base b := by
  unfold State.commDesc
  dsimp only
  by_cases h1 : (k.grp.greg k.f.a.toNat).toNat % 64 ≠ 0
  · rw [if_pos h1]; trivial
  rw [if_neg h1]
  generalize hr : s.probes k true .read 64 _ _ = r
  cases r with
  | error b => exact probes_error h hr
  | ok sites =>
    dsimp only
    by_cases h2 : s.sitesWait k sites = true
    · rw [if_pos h2]; trivial
    rw [if_neg h2]
    generalize List.find? _ sites = f
    cases f with
    | some e => exact h
    | none =>
      dsimp only
      generalize hq : s.remoteReads k sites = q
      cases q with
      | some b => exact remoteReads_keeps h hq
      | none => dsimp only; exact keeps_rekeySpans (keeps_noteSites (keeps_takeAnswers h))

theorem keeps_takeEarly {c : Coll} (h : Keeps base s) : Keeps base (State.takeEarly s c) := by
  unfold State.takeEarly
  (try dsimp only)
  repeat' first
    | with_reducible assumption
    | with_reducible apply keeps_acceptChunk
    | (with_reducible apply Keeps.foldl; rotate_left; intro _ _ _)
    | split
    | refine Keeps.mk' rfl ?_
    | (intro _ hh; (repeat' split) <;> exact hh)
    | (intro (_ : Ctx); rfl)

theorem keeps_dropRequest {tag : Nat} (h : Keeps base s) : Keeps base (State.dropRequest s tag) := by
  unfold State.dropRequest
  (try dsimp only)
  repeat' first
    | with_reducible assumption
    | split
    | refine Keeps.mk' rfl ?_
    | (intro _ hh; (repeat' split) <;> exact hh)
    | (intro (_ : Ctx); rfl)

theorem keeps_keepAnswer {key : Nat × Nat} {va : DWord} {port : Nat} {r : Option Response}
    (h : Keeps base s) : Keeps base (State.keepAnswer s key va port r) := by
  unfold State.keepAnswer
  (try dsimp only)
  repeat' first
    | with_reducible assumption
    | split
    | refine Keeps.mk' rfl ?_
    | (intro _ hh; (repeat' split) <;> exact hh)
    | (intro (_ : Ctx); rfl)

theorem keeps_dropFetchAdd {id : Nat} (h : Keeps base s) : Keeps base (State.dropFetchAdd s id) := Keeps.mk' rfl h

theorem keeps_countVersion {pa : Nat} (h : Keeps base s) : Keeps base (s.countVersion pa).2 := keeps_hostWrite h

theorem keeps_endFetchAdd {f : FetchAdd} (h : Keeps base s) : Keeps base (s.endFetchAdd f) := by
  have h1 : Keeps base (s.dropFetchAdd f.id) := keeps_dropFetchAdd h
  unfold State.endFetchAdd
  dsimp only
  split
  · exact keeps_modResult h1
  · split
    · split
      · exact keeps_stopStream (keeps_dropAnswers h1)
      · exact h1
    · exact h1

theorem keeps_failFetchAdd {f : FetchAdd} (h : Keeps base s) : Keeps base (s.failFetchAdd f) := by
  unfold State.failFetchAdd
  refine keeps_endFetchAdd ?_
  split
  · exact keeps_countVersion h
  · exact h

theorem keeps_loseWindowWrite {t e : Nat} (h : Keeps base s) : Keeps base (State.loseWindowWrite s t e) := by
  have h1 : Keeps base ((s.host.fetchAdds.filter fun f => f.covers.contains e).foldl State.endFetchAdd s) :=
    Keeps.foldl _ _ h fun _ _ hs => keeps_endFetchAdd hs
  have h2 := keeps_modTeam (t := t) (f := fun x => { x with lostWrites := true }) h1 fun _ hh => hh
  unfold State.loseWindowWrite
  dsimp only
  split
  · exact keeps_modStream h2
  · exact h2

theorem keeps_engineWriteFails {uid : Nat} {c : LateCause}
    (h : Keeps base s) : Keeps base (State.engineWriteFails s uid c) := by
  unfold State.engineWriteFails
  (try dsimp only)
  repeat' first
    | with_reducible assumption
    | with_reducible apply keeps_failOp
    | with_reducible apply keeps_copyWriteFails
    | with_reducible apply keeps_collWriteFails
    | split
    | refine Keeps.mk' rfl ?_
    | (intro _ hh; (repeat' split) <;> exact hh)
    | (intro (_ : Ctx); rfl)

theorem keeps_failRequest {q : Request} {c : LateCause} {r : Option Response} (h : Keeps base s) :
    Keeps base (State.failRequest s q c r) := by
  have h1 : Keeps base (s.dropRequest q.tag) := keeps_dropRequest h
  unfold State.failRequest
  dsimp only
  split
  · exact keeps_modResult h1
  · refine keeps_lateFrom ?_
    split
    · exact keeps_loseWindowWrite h1
    · exact h1
  · exact keeps_keepAnswer h1
  · exact keeps_engineWriteFails h1

theorem keeps_performAtHost {q : Request} {b : List Byte} (h : Keeps base s) : Keeps base (State.performAtHost s q b) := by
  unfold State.performAtHost
  dsimp only
  split
  · exact keeps_hostWrite h
  · exact Keeps.foldl _ _ h fun _ _ hs => keeps_hostWrite hs
  · split
    · exact keeps_hostWrite h
    · exact h
  · exact h

theorem keeps_answerRequest {q : Request} {b : List Byte} (h : Keeps base s) : Keeps base (State.answerRequest s q b) := by
  have h1 : Keeps base ((s.performAtHost q b).dropRequest q.tag) := keeps_dropRequest (keeps_performAtHost h)
  unfold State.answerRequest
  dsimp only
  split
  · exact keeps_modResult h1
  · exact h1
  · exact h1
  · exact keeps_keepAnswer h1

theorem keeps_expireRequest {q : Request} (h : Keeps base s) : Keeps base (State.expireRequest s q) := by
  unfold State.expireRequest
  (try dsimp only)
  repeat' first
    | with_reducible assumption
    | with_reducible apply keeps_failRequest
    | split
    | refine Keeps.mk' rfl ?_
    | (intro _ hh; (repeat' split) <;> exact hh)
    | (intro (_ : Ctx); rfl)

theorem keeps_resend {port : Nat} {q : Request} (h : Keeps base s) : Keeps base (State.resend s port q) := by
  unfold State.resend
  (try dsimp only)
  repeat' first
    | with_reducible assumption
    | with_reducible apply keeps_expireRequest
    | split
    | refine Keeps.mk' rfl ?_
    | (intro _ hh; (repeat' split) <;> exact hh)
    | (intro (_ : Ctx); rfl)

theorem keeps_resendChunks {port : Nat} {c : Coll} (h : Keeps base s) : Keeps base (State.resendChunks s port c) :=
  Keeps.foldl _ _ h fun _ _ hs => by
    split
    · exact keeps_emit hs
    · exact hs

theorem keeps_portWorse {port : Nat} {down : Bool} {u : Nat} (h : Keeps base s) : Keeps base (State.portWorse s port down u) := by
  unfold State.portWorse
  split
  · exact h
  · split
    · exact h
    · split
      · exact keeps_cutOff h
      · refine keeps_replan ?_
        split
        · exact keeps_resendChunks h
        · exact h

theorem keeps_poisonServed {ctx : Nat} {pa : Nat} (h : Keeps base s) : Keeps base (State.poisonServed s ctx pa) := by
  unfold State.poisonServed
  (try dsimp only)
  repeat' first
    | with_reducible assumption
    | with_reducible apply keeps_report
    | split
    | refine Keeps.mk' rfl ?_
    | (intro _ hh; (repeat' split) <;> exact hh)
    | (intro (_ : Ctx); rfl)

theorem keeps_protectPlaces {l : List (Loc × Nat)} (h : Keeps base s) : Keeps base (State.protectPlaces s l) := by
  unfold State.protectPlaces
  (try dsimp only)
  repeat' first
    | with_reducible assumption
    | with_reducible apply keeps_writeBackLines
    | split
    | refine Keeps.mk' rfl ?_
    | (intro _ hh; (repeat' split) <;> exact hh)
    | (intro (_ : Ctx); rfl)

theorem keeps_foldlPair {α β : Type} (l : List α) (f : β × State → α → β × State) (a : β × State)
    (h : Keeps base a.2) (hf : ∀ b a, Keeps base b.2 → Keeps base (f b a).2) : Keeps base (l.foldl f a).2 := by
  induction l generalizing a with
  | nil => exact h
  | cons x l ih => exact ih _ (hf a x h)

theorem keeps_packet {p : CollPacket} {write reads get : Bool} {bad : Loc → Bool}
    {f : State → LanePart → Loc → List Byte × State} (hf : ∀ s q l, Keeps base s → Keeps base (f s q l).2)
    (h : Keeps base s) : Keeps base (s.packet p write reads get bad f) := by
  unfold State.packet
  dsimp only
  split
  · exact keeps_respond h
  · split
    · exact h
    · exact keeps_refuse h
    · exact keeps_complete (keeps_poisonServed h)
    · split
      · exact h
      · generalize (if reads = true then _ else none : Option (LanePart × Loc)) = r
        cases r with
        | some e => exact keeps_complete (keeps_poisonServed h)
        | none =>
          refine keeps_complete ?_
          have h1 := keeps_foldlPair ‹List (LanePart × Loc)› (fun a e => (a.1 ++ (f a.2 e.1 e.2).1, (f a.2 e.1 e.2).2))
            (([] : List Byte), _) (keeps_rekeySpans (ctx := ‹Nat›) (l := ‹List (LanePart × Loc)›.map fun e =>
              (p.base + BitVec.ofNat 64 e.1.offset, atomSize (atomTyOf (ctlType p.ctl)))) h) fun b a hb => hf _ _ _ hb
          split
          · exact keeps_protectPlaces h1
          · exact h1

theorem keeps_dropFault {seq : Nat} (h : Keeps base s) : Keeps base (State.dropFault s seq) := by
  unfold State.dropFault
  (try dsimp only)
  repeat' first
    | with_reducible assumption
    | split
    | refine Keeps.mk' rfl ?_
    | with_reducible exact Mgmt.Legal.of rfl rfl rfl rfl
    | (intro _ hh; (repeat' split) <;> exact hh)
    | (intro (_ : Ctx); rfl)

theorem keeps_failJoiner {j : Joiner} (h : Keeps base s) : Keeps base (State.failJoiner s j) := by
  unfold State.failJoiner
  (try dsimp only)
  repeat' first
    | with_reducible assumption
    | with_reducible apply keeps_modGroup
    | with_reducible apply keeps_stopStream
    | with_reducible apply keeps_raise
    | with_reducible apply keeps_failOp
    | with_reducible apply keeps_failCopy
    | with_reducible apply keeps_dropAnswers
    | with_reducible apply keeps_failHostCopy
    | with_reducible apply keeps_failCollAccess
    | split
    | refine Keeps.mk' rfl ?_
    | (intro _ hh; (repeat' split) <;> exact hh)
    | (intro (_ : Ctx); rfl)

theorem keeps_setPhase {ctx : Nat} {p : Phase} (h : Keeps base s) : Keeps base (State.setPhase s ctx p) := by
  unfold State.setPhase
  (try dsimp only)
  repeat' first
    | with_reducible assumption
    | with_reducible apply keeps_modCtx
    | with_reducible apply keeps_interrupt
    | split
    | refine Keeps.mk' rfl ?_
    | (intro _ hh; (repeat' split) <;> exact hh)
    | (intro (_ : Ctx); rfl)

theorem keeps_dropGrids {which : Grid → Bool} (h : Keeps base s) : Keeps base (State.dropGrids s which) := by
  unfold State.dropGrids
  (try dsimp only)
  repeat' first
    | with_reducible assumption
    | split
    | refine Keeps.mk' rfl ?_
    | (intro _ hh; (repeat' split) <;> exact hh)
    | (intro (_ : Ctx); rfl)

theorem keeps_stopStreams {which : Stream → Bool} {err : BitVec 8}
    (h : Keeps base s) : Keeps base (State.stopStreams s which err) := by
  unfold State.stopStreams
  (try dsimp only)
  repeat' first
    | with_reducible assumption
    | with_reducible apply keeps_stopStream
    | with_reducible apply keeps_dropAnswers
    | (with_reducible apply Keeps.foldl; rotate_left; intro _ _ _)
    | split
    | refine Keeps.mk' rfl ?_
    | (intro _ hh; (repeat' split) <;> exact hh)
    | (intro (_ : Ctx); rfl)

theorem keeps_settlePublishes {ctx : Nat} (h : Keeps base s) : Keeps base (State.settlePublishes s ctx) := by
  unfold State.settlePublishes
  (try dsimp only)
  repeat' first
    | with_reducible assumption
    | with_reducible apply keeps_settleFetchAdd
    | (with_reducible apply Keeps.foldl; rotate_left; intro _ _ _)
    | split
    | refine Keeps.mk' rfl ?_
    | (intro _ hh; (repeat' split) <;> exact hh)
    | (intro (_ : Ctx); rfl)

theorem keeps_endStopped {ctx : Nat} (h : Keeps base s) : Keeps base (State.endStopped s ctx) :=
  Keeps.foldl _ _ h fun _ _ hs => by
    split
    · exact hs
    · exact keeps_stopStream hs

theorem keeps_setFaults {l : List FaultRec} (h : Keeps base s) : Keeps base { s with mgmt := { s.mgmt with faults := l } } :=
  Keeps.mk' rfl h (mgmt' := Mgmt.Legal.of rfl rfl rfl rfl)

theorem keeps_endWork {ctx : Nat} (h : Keeps base s) : Keeps base (State.endWork s ctx) := by
  have h3 := keeps_endStopped (ctx := ctx) (keeps_stopStreams (which := fun x => x.ctx = ctx) (err := 7) (keeps_dropGrids
    (which := fun g => g.ctx = ctx) (keeps_settleHostCopies (ctx := ctx) (keeps_dropColls (which := fun c => c.ctx = ctx) (keeps_endTeams
      (which := fun x => x.ctx = ctx) (whichCopy := fun c => c.ctx = ctx) (keeps_settlePublishes (ctx := ctx) h))))))
  exact keeps_modCtx (keeps_pruneFaults (keeps_setFaults h3)) fun _ => rfl

theorem keeps_forceReset {ctx : Nat} (h : Keeps base s) : Keeps base (State.forceReset s ctx) := by
  unfold State.forceReset
  (try dsimp only)
  repeat' first
    | with_reducible assumption
    | with_reducible apply keeps_setPhase
    | with_reducible apply keeps_endWork
    | split
    | refine Keeps.mk' rfl ?_
    | (intro _ hh; (repeat' split) <;> exact hh)
    | (intro (_ : Ctx); rfl)

theorem keeps_setMedia {stack : Nat} {row : Nat} {half : Nat} {b : List Byte}
    (h : Keeps base s) : Keeps base (State.setMedia s stack row half b) := by
  unfold State.setMedia
  (try dsimp only)
  repeat' first
    | with_reducible assumption
    | split
    | refine Keeps.mk' rfl ?_
    | (intro _ hh; (repeat' split) <;> exact hh)
    | (intro (_ : Ctx); rfl)

theorem keeps_applyEntry {e : JournalEntry} (h : Keeps base s) : Keeps base (State.applyEntry s e) := by
  unfold State.applyEntry
  (try dsimp only)
  repeat' first
    | with_reducible assumption
    | with_reducible apply keeps_setMedia
    | split
    | refine Keeps.mk' rfl ?_
    | (intro _ hh; (repeat' split) <;> exact hh)
    | (intro (_ : Ctx); rfl)

theorem keeps_spoilParity {row : Nat} {half : Nat} (h : Keeps base s) : Keeps base (State.spoilParity s row half) := by
  unfold State.spoilParity
  (try dsimp only)
  repeat' first
    | with_reducible assumption
    | split
    | refine Keeps.mk' rfl ?_
    | (intro _ hh; (repeat' split) <;> exact hh)
    | (intro (_ : Ctx); rfl)

theorem keeps_loseEntry {idx : Nat} {e : JournalEntry} {both : Bool}
    (h : Keeps base s) : Keeps base (State.loseEntry s idx e both) := by
  unfold State.loseEntry
  (try dsimp only)
  repeat' first
    | with_reducible assumption
    | with_reducible apply keeps_poisonLine
    | with_reducible apply keeps_spoilParity
    | (with_reducible apply Keeps.foldl; rotate_left; intro _ _ _)
    | split
    | refine Keeps.mk' rfl ?_
    | (intro _ hh; (repeat' split) <;> exact hh)
    | (intro (_ : Ctx); rfl)

theorem keeps_poisonHalves {stack : Nat} {row : Nat} {half : Nat}
    (h : Keeps base s) : Keeps base (State.poisonHalves s stack row half) := by
  unfold State.poisonHalves
  (try dsimp only)
  repeat' first
    | with_reducible assumption
    | with_reducible apply keeps_poisonLine
    | with_reducible apply keeps_spoilParity
    | (with_reducible apply Keeps.foldl; rotate_left; intro _ _ _)
    | split
    | refine Keeps.mk' rfl ?_
    | (intro _ hh; (repeat' split) <;> exact hh)
    | (intro (_ : Ctx); rfl)

theorem keeps_reportStack {k : Nat} {code : Nat} (h : Keeps base s) : Keeps base (State.reportStack s k code) := by
  unfold State.reportStack
  (try dsimp only)
  repeat' first
    | with_reducible assumption
    | with_reducible apply keeps_report
    | split
    | refine Keeps.mk' rfl ?_
    | (intro _ hh; (repeat' split) <;> exact hh)
    | (intro (_ : Ctx); rfl)

theorem keeps_loseStack {k : Nat} (h : Keeps base s) : Keeps base (State.loseStack s k) := by
  unfold State.loseStack
  (try dsimp only)
  repeat' first
    | with_reducible assumption
    | with_reducible apply keeps_poisonLine
    | with_reducible apply keeps_reportStack
    | (with_reducible apply Keeps.foldl; rotate_left; intro _ _ _)
    | split
    | refine Keeps.mk' rfl ?_
    | (intro _ hh; (repeat' split) <;> exact hh)
    | (intro (_ : Ctx); rfl)

theorem keeps_noteCwd {k : Nat} {row : Nat} (h : Keeps base s) : Keeps base (State.noteCwd s k row) := by
  unfold State.noteCwd
  (try dsimp only)
  repeat' first
    | with_reducible assumption
    | with_reducible apply keeps_loseStack
    | split
    | refine Keeps.mk' rfl ?_
    | (intro _ hh; (repeat' split) <;> exact hh)
    | (intro (_ : Ctx); rfl)

theorem keeps_reportSector {src : Nat} {unit : Nat} {detail : Nat} {pa : Nat} {n : Nat}
    (h : Keeps base s) : Keeps base (State.reportSector s src unit detail pa n) := by
  unfold State.reportSector
  (try dsimp only)
  repeat' first
    | with_reducible assumption
    | with_reducible apply keeps_report
    | split
    | refine Keeps.mk' rfl ?_
    | (intro _ hh; (repeat' split) <;> exact hh)
    | (intro (_ : Ctx); rfl)

theorem keeps_scrubRow {k : Nat} {row : Nat} {f : ScrubFinding}
    (h : Keeps base s) : Keeps base (State.scrubRow s k row f) := by
  unfold State.scrubRow
  (try dsimp only)
  repeat' first
    | with_reducible assumption
    | with_reducible apply keeps_report
    | with_reducible apply keeps_poisonHalves
    | with_reducible apply keeps_noteCwd
    | with_reducible apply keeps_reportSector
    | split
    | refine Keeps.mk' rfl ?_
    | (intro _ hh; (repeat' split) <;> exact hh)
    | (intro (_ : Ctx); rfl)

theorem keeps_loseCapacityLine {l : Nat} (h : Keeps base s) : Keeps base (State.loseCapacityLine s l) := by
  unfold State.loseCapacityLine
  (try dsimp only)
  repeat' first
    | with_reducible assumption
    | with_reducible apply keeps_poisonLine
    | split
    | refine Keeps.mk' rfl ?_
    | (intro _ hh; (repeat' split) <;> exact hh)
    | (intro (_ : Ctx); rfl)

theorem keeps_loseLine {l : Nat} (h : Keeps base s) : Keeps base (State.loseLine s l) := by
  unfold State.loseLine
  (try dsimp only)
  repeat' first
    | with_reducible assumption
    | with_reducible apply keeps_poisonLine
    | with_reducible apply keeps_loseCapacityLine
    | split
    | refine Keeps.mk' rfl ?_
    | (intro _ hh; (repeat' split) <;> exact hh)
    | (intro (_ : Ctx); rfl)

theorem keeps_correctLine {l : Nat} (h : Keeps base s) : Keeps base (State.correctLine s l) := by
  unfold State.correctLine
  (try dsimp only)
  repeat' first
    | with_reducible assumption
    | with_reducible apply keeps_reportSector
    | split
    | refine Keeps.mk' rfl ?_
    | (intro _ hh; (repeat' split) <;> exact hh)
    | (intro (_ : Ctx); rfl)

theorem keeps_moveRow {b : Nat} {r : Nat} (h : Keeps base s) : Keeps base (State.moveRow s b r) := by
  unfold State.moveRow
  (try dsimp only)
  repeat' first
    | with_reducible assumption
    | with_reducible apply keeps_setMedia
    | (with_reducible apply Keeps.foldl; rotate_left; intro _ _ _)
    | split
    | refine Keeps.mk' rfl ?_
    | (intro _ hh; (repeat' split) <;> exact hh)
    | (intro (_ : Ctx); rfl)

theorem keeps_reshapeRow {b : Nat} (h : Keeps base s) : Keeps base (State.reshapeRow s b) := by
  unfold State.reshapeRow
  (try dsimp only)
  repeat' first
    | with_reducible assumption
    | with_reducible apply keeps_moveRow
    | split
    | refine Keeps.mk' rfl ?_
    | (intro _ hh; (repeat' split) <;> exact hh)
    | (intro (_ : Ctx); rfl)

theorem keeps_applyJournal {which : JournalEntry → Bool} (h : Keeps base s) : Keeps base (State.applyJournal s which) := by
  unfold State.applyJournal
  (try dsimp only)
  repeat' first
    | with_reducible assumption
    | with_reducible apply keeps_applyEntry
    | (with_reducible apply Keeps.foldl; rotate_left; intro _ _ _)
    | split
    | refine Keeps.mk' rfl ?_
    | (intro _ hh; (repeat' split) <;> exact hh)
    | (intro (_ : Ctx); rfl)

theorem keeps_copyBand {src n dst : Nat} (h : Keeps base s) : Keeps base (s.copyBand src n dst) :=
  Keeps.mk' (s := s) rfl h (SMap.wf_copyRange _ _ _ _) id id id id id rfl rfl rfl

theorem keeps_retainBand {b area : Nat} (h : Keeps base s) : Keeps base (s.retainBand b area) := by
  unfold State.retainBand
  dsimp only
  exact Keeps.mk' rfl (keeps_copyBand (Keeps.foldl _ _ (keeps_applyJournal (keeps_writeBackLines h)) fun _ _ hs => keeps_retag hs))
    (SMap.wf_without _ _ _) (SMap.wf_filter _ _) id id id id rfl rfl rfl

theorem keeps_releaseBand {b : Nat} {area : Nat} (h : Keeps base s) : Keeps base (State.releaseBand s b area) := by
  unfold State.releaseBand
  (try dsimp only)
  repeat' first
    | with_reducible assumption
    | with_reducible apply keeps_poisonLine
    | with_reducible apply keeps_writeBackLine
    | with_reducible apply keeps_copyBand
    | (with_reducible apply Keeps.foldl; rotate_left; intro _ _ _)
    | split
    | refine Keeps.mk' rfl ?_
    | (intro _ hh; (repeat' split) <;> exact hh)
    | (intro (_ : Ctx); rfl)

theorem keeps_befall {e : Hardware} (h : Keeps base s) : Keeps base (State.befall s e) := by
  unfold State.befall
  (try dsimp only)
  repeat' first
    | with_reducible assumption
    | with_reducible apply keeps_modGroup
    | with_reducible apply keeps_modTeam
    | with_reducible apply keeps_report
    | with_reducible apply keeps_writeMem
    | with_reducible apply keeps_modOp
    | with_reducible apply keeps_loseEntry
    | with_reducible apply keeps_noteCwd
    | with_reducible apply keeps_loseLine
    | with_reducible apply keeps_correctLine
    | with_reducible apply keeps_reshapeRow
    | split
    | refine Keeps.mk' rfl ?_
    | (intro _ hh; (repeat' split) <;> exact hh)
    | (intro (_ : Ctx); rfl)

theorem keeps_modMgmt {f : Mgmt → Mgmt} (h : Keeps base s) (hf : s.mgmt.Legal → (f s.mgmt).Legal) :
    Keeps base (s.modMgmt f) := Keeps.mk' (s := s) rfl h id id id id id hf rfl rfl rfl

theorem keeps_endCommand {r : BitVec 8} (h : Keeps base s) : Keeps base (s.endCommand r) :=
  keeps_interrupt (keeps_modMgmt h (Mgmt.Legal.of rfl rfl rfl rfl))

theorem keeps_startCommand {v : DWord} (h : Keeps base s) : Keeps base (State.startCommand s v) := by
  unfold State.startCommand
  (try dsimp only)
  repeat' first
    | with_reducible assumption
    | with_reducible apply keeps_modMgmt
    | split
    | refine Keeps.mk' rfl ?_
    | with_reducible exact Mgmt.Legal.of rfl rfl rfl rfl
    | (intro _ hh; (repeat' split) <;> exact hh)
    | (intro (_ : Ctx); rfl)

theorem keeps_onContext {m : MCmd} {f : Ctx → State × BitVec 8} (h : Keeps base s) (hf : ∀ c, Keeps base (f c).1) :
    Keeps base (onContext s m f).1 := by
  unfold onContext
  split
  · exact h
  · exact hf _

theorem keeps_haltIdle {ctx : Nat} (h : Keeps base s) : Keeps base (State.haltIdle s ctx) := by
  unfold State.haltIdle
  (try dsimp only)
  repeat' first
    | with_reducible assumption
    | with_reducible apply keeps_haltStream
    | (with_reducible apply Keeps.foldl; rotate_left; intro _ _ _)
    | split
    | refine Keeps.mk' rfl ?_
    | (intro _ hh; (repeat' split) <;> exact hh)
    | (intro (_ : Ctx); rfl)

theorem keeps_restoreGrid {c : Ctx} {r : List DWord} {items : List (List DWord)} {t : State} (h : Keeps base s)
    (e : s.restoreGrid c r items = some t) : Keeps base t := by
  unfold State.restoreGrid at e
  split at e
  · cases e; exact Keeps.mk' rfl (keeps_fresh (keeps_rekeySpans h)) id id id id id id rfl rfl rfl
  · cases e

theorem keeps_restoreGrids {c : Ctx} {pa : Nat} {l : List (List DWord)} {t : State} (h : Keeps base s)
    (e : State.restoreGrids c pa l s = some t) : Keeps base t := by
  induction l generalizing s pa with
  | nil => cases e; exact h
  | cons r l ih =>
    unfold State.restoreGrids at e
    dsimp only at e
    split at e
    · next hr => exact ih (keeps_restoreGrid h hr) e
    · cases e

theorem keeps_resumeStream {ctx : Nat} {r : List DWord} (h : Keeps base s) : Keeps base (State.resumeStream s ctx r) := by
  unfold State.resumeStream
  (try dsimp only)
  repeat' first
    | with_reducible assumption
    | with_reducible apply keeps_modStream
    | with_reducible apply keeps_report
    | split
    | refine Keeps.mk' rfl ?_
    | (intro _ hh; (repeat' split) <;> exact hh)
    | (intro (_ : Ctx); rfl)

theorem keeps_restoreFrom {c : Ctx} {pa : Nat} {t : State} (h : Keeps base s) (e : s.restoreFrom c pa = some t) :
    Keeps base t := by
  unfold State.restoreFrom at e
  dsimp only at e
  obtain ⟨s1, hs, rfl⟩ := Option.map_eq_some_iff.mp e
  exact keeps_setPhase (keeps_modCtx (Keeps.foldl _ _ (keeps_restoreGrids (keeps_rekeyMem h) hs) fun _ _ ha => keeps_resumeStream ha)
    fun _ => rfl)

theorem keeps_reportRefusal (h : Keeps base s) : Keeps base (State.reportRefusal s) := by
  unfold State.reportRefusal
  (try dsimp only)
  repeat' first
    | with_reducible assumption
    | with_reducible apply keeps_report
    | split
    | refine Keeps.mk' rfl ?_
    | (intro _ hh; (repeat' split) <;> exact hh)
    | (intro (_ : Ctx); rfl)

theorem keeps_reportFirmware {unit : Nat} {code : Nat}
    (h : Keeps base s) : Keeps base (State.reportFirmware s unit code) := by
  unfold State.reportFirmware
  (try dsimp only)
  repeat' first
    | with_reducible assumption
    | with_reducible apply keeps_report
    | split
    | refine Keeps.mk' rfl ?_
    | (intro _ hh; (repeat' split) <;> exact hh)
    | (intro (_ : Ctx); rfl)

theorem keeps_restartCp {die : BitVec 2} {why : Nat} (h : Keeps base s) : Keeps base (State.restartCp s die why) := by
  unfold State.restartCp
  (try dsimp only)
  repeat' first
    | with_reducible assumption
    | with_reducible apply keeps_stopStreams
    | with_reducible apply keeps_reportFirmware
    | split
    | refine Keeps.mk' rfl ?_
    | (intro _ hh; (repeat' split) <;> exact hh)
    | (intro (_ : Ctx); rfl)

theorem keeps_reply {r : HostReply} (h : Keeps base s) : Keeps base (State.reply s r) := by
  unfold State.reply
  (try dsimp only)
  repeat' first
    | with_reducible assumption
    | split
    | refine Keeps.mk' rfl ?_
    | (intro _ hh; (repeat' split) <;> exact hh)
    | (intro (_ : Ctx); rfl)

theorem keeps_unsupported {pa : Nat} (h : Keeps base s) : Keeps base (State.unsupported s pa) := by
  unfold State.unsupported
  (try dsimp only)
  repeat' first
    | with_reducible assumption
    | with_reducible apply keeps_report
    | with_reducible apply keeps_reply
    | split
    | refine Keeps.mk' rfl ?_
    | (intro _ hh; (repeat' split) <;> exact hh)
    | (intro (_ : Ctx); rfl)

theorem keeps_choosePipe {core q : Nat} {lane : Bool} {l : List Ready} (h : Keeps base s) :
    Keeps base (s.choosePipe core q lane l).2 := by
  unfold State.choosePipe
  dsimp only
  split
  · exact Keeps.mk' rfl h
  · exact h

theorem keeps_chooseQuarter {core q : Nat} {can : State → Nat → Nat → Nat → Bool} (h : Keeps base s) :
    Keeps base (s.chooseQuarter core q can).2 := by
  unfold State.chooseQuarter
  dsimp only
  exact Keeps.mk' rfl (keeps_choosePipe (keeps_choosePipe h))

theorem keeps_issueCycle {can : State → Nat → Nat → Nat → Bool} (h : Keeps base s) : Keeps base (s.issueCycle can) := by
  unfold State.issueCycle
  dsimp only
  exact Keeps.mk' rfl (keeps_foldlPair _ _ (([] : List Ready), _)
    (Keeps.mk' (s := s) (groups := s.groups.map Group.wait) rfl h) fun _ _ hb => keeps_chooseQuarter hb)

theorem keeps_takeLines (h : Keeps base s) : Keeps base s.takeLines := by
  unfold State.takeLines
  repeat' first
    | with_reducible assumption
    | split
    | refine Keeps.mk' rfl ?_

theorem keeps_count (h : Keeps base s) : Keeps base s.count := by
  refine Keeps.mk' (s := s) rfl h (ctxs' := ?_)
  rw [List.map_map]
  apply List.map_congr_left
  intro x _
  simp only [Function.comp]
  split <;> rfl

theorem keeps_tick {s0 : State} (h : Keeps base s0) : Keeps base (State.tick s0) := by
  unfold State.tick
  (try dsimp only)
  repeat' first
    | with_reducible assumption
    | with_reducible apply keeps_takeLines
    | with_reducible apply keeps_endFences
    | with_reducible apply keeps_reap
    | with_reducible apply keeps_count
    | split
    | refine Keeps.mk' rfl ?_
    | (intro _ hh; (repeat' split) <;> exact hh)
    | (intro (_ : Ctx); rfl)


end Sys2Proof.Machine
end

