-- ==== Sys2Proof/Laws/KeepsIssue.lean ====
section
/-!
SUPPORT. An instruction's issue keeps a legal machine if its effect does.
-/
set_option Elab.async false
namespace Sys2Proof.Machine
variable {base s : State}

/-- An outcome that is a next state keeps a chain. -/
def OutKeeps (base : State) : Host.Outcome State Fault Refusal → Prop
  | .next t => Keeps base t
  | .fault _ | .refused _ => True

theorem outKeeps_issueWith {i : Instr} {more : Here → Option (BitVec 8)} {body : Here → State → Body} (h : Keeps base s)
    (hb : ∀ k s1, Keeps base s1 → Body.Keeps base (body k s1)) : OutKeeps base (issueWith i s more body) := by
  unfold issueWith
  split
  · next x g p lp f fm _ _ =>
    dsimp only
    split
    · exact h
    · split
      · exact keeps_raise h
      · have h1 : Keeps base (s.modGroup x.uid g.gid fun h => h.retire p.id i.length (x.halted && !x.handler)) :=
          keeps_modGroup h fun _ hh => hh
        split
        · exact h1
        split
        · exact keeps_lateFrom (keeps_modGroup h1 fun _ hh => hh)
        · generalize (⟨x, g, p.justIssued, f, _⟩ : Here) = k
          have hk := hb k _ h1
          revert hk
          generalize body k _ = b
          intro hk
          cases b with
          | next s2 => exact hk
          | wait => exact h
          | trap c => exact keeps_raise h
          | replay pages kind code => exact keeps_stall h
          | late s2 c => exact keeps_lateFrom hk
          | hold f => exact hk s h
          | breaks f c => exact keeps_raise (hk s h)
  · trivial

theorem outKeeps_issue {i : Instr} {body : Here → State → Body} (h : Keeps base s)
    (hb : ∀ k s1, Keeps base s1 → Body.Keeps base (body k s1)) : OutKeeps base (issue i s body) := outKeeps_issueWith h hb

theorem outKeeps_issueMatched {i : Instr} {more : Here → Option (BitVec 8)} {body : Here → State → Body} (h : Keeps base s)
    (hb : ∀ k s1, Keeps base s1 → Body.Keeps base (body k s1)) : OutKeeps base (issueMatched i s more body) := by
  unfold issueMatched
  split
  · split
    · exact keeps_killGrid h
    · exact outKeeps_issueWith h hb
  · trivial

theorem outKeeps_issueRegs {i : Instr} {f : Here → Group → Group} (h : Keeps base s)
    (hf : ∀ k g, Group.tidy g = true → Group.tidy (f k g) = true) : OutKeeps base (issueRegs i s f) :=
  outKeeps_issue h fun k _ h1 => keeps_modGroup h1 (hf k)

theorem outKeeps_issueLanes {i : Instr} {n : Nat} {f : Here → Nat → DWord} (h : Keeps base s) :
    OutKeeps base (issueLanes i s n f) := outKeeps_issueRegs h fun _ _ hg => tidy_setLanes hg

theorem outKeeps_issueGroup {i : Instr} {f : Here → DWord} (h : Keeps base s) :
    OutKeeps base (issueGroup i s f) := outKeeps_issueRegs h fun _ _ hg => tidy_setG hg

theorem outKeeps_issueLong {i : Instr} {n : Nat} {f : Here → Nat → DWord} (h : Keeps base s) :
    OutKeeps base (issueLong i s n f) := outKeeps_issue h fun _ _ h1 => keeps_addResult (keeps_fresh h1)

theorem outNext {t : State} (h : Keeps base t) : OutKeeps base (.next t) := h
theorem bodyNext {t : State} (h : Keeps base t) : Body.Keeps base (.next t) := h
theorem bodyLate {t : State} {c : LateCause} (h : Keeps base t) : Body.Keeps base (.late t c) := h
theorem bodyHold {f : State → State} (h : ∀ s, Keeps base s → Keeps base (f s)) : Body.Keeps base (.hold f) := h
theorem bodyBreaks {f : State → State} {c : BitVec 8} (h : ∀ s, Keeps base s → Keeps base (f s)) :
    Body.Keeps base (.breaks f c) := h

theorem outKeeps_bar0 {f : State → State} (h : Keeps base s) (hf : Keeps base s → Keeps base (f s)) :
    OutKeeps base (s.bar0 f) := by
  unfold State.bar0
  apply outNext
  split
  · exact h
  · exact hf h

theorem outKeeps_mgmtCommand {op : Nat} {m : MCmd} {rom : Bool} {f : State → State × BitVec 8} (h : Keeps base s)
    (hf : ∀ s1, Keeps base s1 → Keeps base (f s1).1) : OutKeeps base (mgmtCommand op m rom s f) := by
  unfold mgmtCommand
  apply outNext
  split
  · exact h
  · split
    · exact keeps_endCommand h
    · exact keeps_endCommand (hf _ h)

end Sys2Proof.Machine
end

