-- ==== Sys2Proof/Laws/KeepsArith.lean ====
section
/-!
SUPPORT. The meanings of arithmetic instructions keep a legal machine.
-/
set_option Elab.async false
set_option linter.all false

namespace Sys2Proof.Machine

variable {base s : State}

theorem outKeeps_execIadd {i : Long} (h : Keeps base s) : OutKeeps base (execIadd i s) := by
  unfold execIadd issueInt
  (try dsimp only)
  exact outKeeps_issueLanes h

theorem outKeeps_execIsub {i : Long} (h : Keeps base s) : OutKeeps base (execIsub i s) := by
  unfold execIsub issueInt
  (try dsimp only)
  exact outKeeps_issueLanes h

theorem outKeeps_execImul {i : Long} (h : Keeps base s) : OutKeeps base (execImul i s) := by
  unfold execImul issueInt
  (try dsimp only)
  exact outKeeps_issueLanes h

theorem outKeeps_execImad {i : Long} (h : Keeps base s) : OutKeeps base (execImad i s) := by
  unfold execImad issueInt
  (try dsimp only)
  exact outKeeps_issueLanes h

theorem outKeeps_execImulhi {i : Long} (h : Keeps base s) : OutKeeps base (execImulhi i s) := by
  unfold execImulhi issueInt
  (try dsimp only)
  exact outKeeps_issueLanes h

theorem outKeeps_execImin {i : Long} (h : Keeps base s) : OutKeeps base (execImin i s) := by
  unfold execImin issueInt
  (try dsimp only)
  exact outKeeps_issueLanes h

theorem outKeeps_execImax {i : Long} (h : Keeps base s) : OutKeeps base (execImax i s) := by
  unfold execImax issueInt
  (try dsimp only)
  exact outKeeps_issueLanes h

theorem outKeeps_execIabs {i : Long} (h : Keeps base s) : OutKeeps base (execIabs i s) := by
  unfold execIabs issueInt
  (try dsimp only)
  exact outKeeps_issueLanes h

theorem outKeeps_execAnd {i : Long} (h : Keeps base s) : OutKeeps base (execAnd i s) := by
  unfold execAnd issueLogic
  (try dsimp only)
  exact outKeeps_issueLanes h

theorem outKeeps_execOr {i : Long} (h : Keeps base s) : OutKeeps base (execOr i s) := by
  unfold execOr issueLogic
  (try dsimp only)
  exact outKeeps_issueLanes h

theorem outKeeps_execXor {i : Long} (h : Keeps base s) : OutKeeps base (execXor i s) := by
  unfold execXor issueLogic
  (try dsimp only)
  exact outKeeps_issueLanes h

theorem outKeeps_execAndn {i : Long} (h : Keeps base s) : OutKeeps base (execAndn i s) := by
  unfold execAndn issueLogic
  (try dsimp only)
  exact outKeeps_issueLanes h

theorem outKeeps_execShl {i : Long} (h : Keeps base s) : OutKeeps base (execShl i s) := by
  unfold execShl issueShift
  (try dsimp only)
  exact outKeeps_issueLanes h

theorem outKeeps_execShr {i : Long} (h : Keeps base s) : OutKeeps base (execShr i s) := by
  unfold execShr issueShift
  (try dsimp only)
  exact outKeeps_issueLanes h

theorem outKeeps_execSar {i : Long} (h : Keeps base s) : OutKeeps base (execSar i s) := by
  unfold execSar issueShift
  (try dsimp only)
  exact outKeeps_issueLanes h

theorem outKeeps_execFsh {i : Long} (h : Keeps base s) : OutKeeps base (execFsh i s) := by
  unfold execFsh
  (try dsimp only)
  exact outKeeps_issueLanes h

theorem outKeeps_execPopc {i : Long} (h : Keeps base s) : OutKeeps base (execPopc i s) := by
  unfold execPopc issueCount
  (try dsimp only)
  exact outKeeps_issueLanes h

theorem outKeeps_execClz {i : Long} (h : Keeps base s) : OutKeeps base (execClz i s) := by
  unfold execClz issueCount
  (try dsimp only)
  exact outKeeps_issueLanes h

theorem outKeeps_execCtz {i : Long} (h : Keeps base s) : OutKeeps base (execCtz i s) := by
  unfold execCtz issueCount
  (try dsimp only)
  exact outKeeps_issueLanes h

theorem outKeeps_execBrev {i : Long} (h : Keeps base s) : OutKeeps base (execBrev i s) := by
  unfold execBrev issueCount
  (try dsimp only)
  exact outKeeps_issueLanes h

theorem outKeeps_execBfx {i : Long} (h : Keeps base s) : OutKeeps base (execBfx i s) := by
  unfold execBfx
  (try dsimp only)
  exact outKeeps_issueLanes h

theorem outKeeps_execBfi {i : Long} (h : Keeps base s) : OutKeeps base (execBfi i s) := by
  unfold execBfi
  (try dsimp only)
  exact outKeeps_issueLanes h

theorem outKeeps_execPerm {i : Long} (h : Keeps base s) : OutKeeps base (execPerm i s) := by
  unfold execPerm
  (try dsimp only)
  exact outKeeps_issueLanes h

theorem outKeeps_execLea {i : Long} (h : Keeps base s) : OutKeeps base (execLea i s) := by
  unfold execLea
  (try dsimp only)
  exact outKeeps_issueLanes h

theorem outKeeps_execIcmp {i : Long} (h : Keeps base s) : OutKeeps base (execIcmp i s) := by
  unfold execIcmp
  (try dsimp only)
  exact outKeeps_issueRegs h fun _ _ hg => by (repeat' split) <;> first | exact hg | exact tidy_setPred hg

theorem outKeeps_execSel {i : Long} (h : Keeps base s) : OutKeeps base (execSel i s) := by
  unfold execSel
  (try dsimp only)
  exact outKeeps_issueLanes h

theorem outKeeps_execPlop {i : Long} (h : Keeps base s) : OutKeeps base (execPlop i s) := by
  unfold execPlop
  (try dsimp only)
  exact outKeeps_issueRegs h fun _ _ hg => by (repeat' split) <;> first | exact hg | exact tidy_setPred hg

theorem outKeeps_execMov {i : Long} (h : Keeps base s) : OutKeeps base (execMov i s) := by
  refine outKeeps_issueRegs h fun k g hg => ?_
  dsimp only
  split
  · refine tidy_foldl _ _ hg fun _ _ hg => ?_
    split
    · exact tidy_setLpair hg
    · exact tidy_setLreg hg
  · exact tidy_setLanes hg

theorem outKeeps_execIcvt {i : Long} (h : Keeps base s) : OutKeeps base (execIcvt i s) := by
  unfold execIcvt
  (try dsimp only)
  exact outKeeps_issueLanes h

theorem outKeeps_execMovi {i : Imm} (h : Keeps base s) : OutKeeps base (execMovi i s) := by
  unfold execMovi issueImm
  (try dsimp only)
  exact outKeeps_issueLanes h

theorem outKeeps_execIaddi {i : Imm} (h : Keeps base s) : OutKeeps base (execIaddi i s) := by
  unfold execIaddi issueImm
  (try dsimp only)
  exact outKeeps_issueLanes h

theorem outKeeps_execImuli {i : Imm} (h : Keeps base s) : OutKeeps base (execImuli i s) := by
  unfold execImuli issueImm
  (try dsimp only)
  exact outKeeps_issueLanes h

theorem outKeeps_execIandi {i : Imm} (h : Keeps base s) : OutKeeps base (execIandi i s) := by
  unfold execIandi issueImm
  (try dsimp only)
  exact outKeeps_issueLanes h

theorem outKeeps_execIori {i : Imm} (h : Keeps base s) : OutKeeps base (execIori i s) := by
  unfold execIori issueImm
  (try dsimp only)
  exact outKeeps_issueLanes h

theorem outKeeps_execIxori {i : Imm} (h : Keeps base s) : OutKeeps base (execIxori i s) := by
  unfold execIxori issueImm
  (try dsimp only)
  exact outKeeps_issueLanes h

theorem outKeeps_execIcmpi {i : Imm} (h : Keeps base s) : OutKeeps base (execIcmpi i s) := by
  unfold execIcmpi
  (try dsimp only)
  exact outKeeps_issueRegs h fun _ _ hg => by (repeat' split) <;> first | exact hg | exact tidy_setPred hg

theorem outKeeps_execSetxi {i : Imm} (h : Keeps base s) : OutKeeps base (execSetxi i s) := by
  unfold execSetxi
  (try dsimp only)
  exact outKeeps_issueRegs h fun _ _ hg => by (repeat' split) <;> first | exact hg | exact tidy_setIdx hg

theorem outKeeps_execSetx {i : Long} (h : Keeps base s) : OutKeeps base (execSetx i s) := by
  unfold execSetx
  (try dsimp only)
  exact outKeeps_issueRegs h fun _ _ hg => by (repeat' split) <;> first | exact hg | exact tidy_setIdx hg

theorem outKeeps_execAddx {i : Long} (h : Keeps base s) : OutKeeps base (execAddx i s) := by
  unfold execAddx
  (try dsimp only)
  exact outKeeps_issueRegs h fun _ _ hg => by (repeat' split) <;> first | exact hg | exact tidy_setIdx hg

theorem outKeeps_execNop {i : Short} (h : Keeps base s) : OutKeeps base (execNop i s) := by
  unfold execNop
  (try dsimp only)
  exact outKeeps_issueRegs h fun _ _ hg => by (repeat' split) <;> first | exact hg | exact tidy_retire hg

theorem outKeeps_execLsr {i : Short} (h : Keeps base s) : OutKeeps base (execLsr i s) := by
  unfold execLsr
  (try dsimp only)
  exact outKeeps_issueLanes h

theorem outKeeps_execGadd {i : Long} (h : Keeps base s) : OutKeeps base (execGadd i s) := by
  unfold execGadd issueGint
  (try dsimp only)
  exact outKeeps_issueGroup h

theorem outKeeps_execGsub {i : Long} (h : Keeps base s) : OutKeeps base (execGsub i s) := by
  unfold execGsub issueGint
  (try dsimp only)
  exact outKeeps_issueGroup h

theorem outKeeps_execGmul {i : Long} (h : Keeps base s) : OutKeeps base (execGmul i s) := by
  unfold execGmul issueGint
  (try dsimp only)
  exact outKeeps_issueGroup h

theorem outKeeps_execGmad {i : Long} (h : Keeps base s) : OutKeeps base (execGmad i s) := by
  unfold execGmad issueGint
  (try dsimp only)
  exact outKeeps_issueGroup h

theorem outKeeps_execGmin {i : Long} (h : Keeps base s) : OutKeeps base (execGmin i s) := by
  unfold execGmin issueGint
  (try dsimp only)
  exact outKeeps_issueGroup h

theorem outKeeps_execGmax {i : Long} (h : Keeps base s) : OutKeeps base (execGmax i s) := by
  unfold execGmax issueGint
  (try dsimp only)
  exact outKeeps_issueGroup h

theorem outKeeps_execGand {i : Long} (h : Keeps base s) : OutKeeps base (execGand i s) := by
  unfold execGand issueGlogic
  (try dsimp only)
  exact outKeeps_issueGroup h

theorem outKeeps_execGor {i : Long} (h : Keeps base s) : OutKeeps base (execGor i s) := by
  unfold execGor issueGlogic
  (try dsimp only)
  exact outKeeps_issueGroup h

theorem outKeeps_execGxor {i : Long} (h : Keeps base s) : OutKeeps base (execGxor i s) := by
  unfold execGxor issueGlogic
  (try dsimp only)
  exact outKeeps_issueGroup h

theorem outKeeps_execGshl {i : Long} (h : Keeps base s) : OutKeeps base (execGshl i s) := by
  unfold execGshl issueGshift
  (try dsimp only)
  exact outKeeps_issueGroup h

theorem outKeeps_execGshr {i : Long} (h : Keeps base s) : OutKeeps base (execGshr i s) := by
  unfold execGshr issueGshift
  (try dsimp only)
  exact outKeeps_issueGroup h

theorem outKeeps_execGsar {i : Long} (h : Keeps base s) : OutKeeps base (execGsar i s) := by
  unfold execGsar issueGshift
  (try dsimp only)
  exact outKeeps_issueGroup h

theorem outKeeps_execGpopc {i : Long} (h : Keeps base s) : OutKeeps base (execGpopc i s) := by
  unfold execGpopc
  (try dsimp only)
  exact outKeeps_issueGroup h

theorem outKeeps_execGclz {i : Long} (h : Keeps base s) : OutKeeps base (execGclz i s) := by
  unfold execGclz
  (try dsimp only)
  exact outKeeps_issueGroup h

theorem outKeeps_execGbfx {i : Long} (h : Keeps base s) : OutKeeps base (execGbfx i s) := by
  unfold execGbfx
  (try dsimp only)
  exact outKeeps_issueGroup h

theorem outKeeps_execGbfi {i : Long} (h : Keeps base s) : OutKeeps base (execGbfi i s) := by
  unfold execGbfi
  (try dsimp only)
  exact outKeeps_issueGroup h

theorem outKeeps_execGcmp {i : Long} (h : Keeps base s) : OutKeeps base (execGcmp i s) := by
  unfold execGcmp
  (try dsimp only)
  exact outKeeps_issueRegs h fun _ _ hg => by (repeat' split) <;> first | exact hg | exact tidy_setQ hg

theorem outKeeps_execGsel {i : Long} (h : Keeps base s) : OutKeeps base (execGsel i s) := by
  unfold execGsel
  (try dsimp only)
  exact outKeeps_issueGroup h

theorem outKeeps_execGmov {i : Long} (h : Keeps base s) : OutKeeps base (execGmov i s) := by
  unfold execGmov
  (try dsimp only)
  exact outKeeps_issueGroup h

theorem outKeeps_execGplop {i : Long} (h : Keeps base s) : OutKeeps base (execGplop i s) := by
  unfold execGplop
  (try dsimp only)
  exact outKeeps_issueRegs h fun _ _ hg => by (repeat' split) <;> first | exact hg | exact tidy_setQ hg

theorem outKeeps_execGmovi {i : Imm} (h : Keeps base s) : OutKeeps base (execGmovi i s) := by
  unfold execGmovi
  (try dsimp only)
  exact outKeeps_issueGroup h

theorem outKeeps_execGaddi {i : Imm} (h : Keeps base s) : OutKeeps base (execGaddi i s) := by
  unfold execGaddi
  (try dsimp only)
  exact outKeeps_issueGroup h

theorem outKeeps_execGandi {i : Imm} (h : Keeps base s) : OutKeeps base (execGandi i s) := by
  unfold execGandi
  (try dsimp only)
  exact outKeeps_issueGroup h

theorem outKeeps_execGcmpi {i : Imm} (h : Keeps base s) : OutKeeps base (execGcmpi i s) := by
  unfold execGcmpi
  (try dsimp only)
  exact outKeeps_issueRegs h fun _ _ hg => by (repeat' split) <;> first | exact hg | exact tidy_setQ hg

theorem outKeeps_execGnop {i : Short} (h : Keeps base s) : OutKeeps base (execGnop i s) := by
  unfold execGnop
  (try dsimp only)
  exact outKeeps_issueRegs h fun _ _ hg => by (repeat' split) <;> first | exact hg | exact tidy_retire hg

theorem outKeeps_execGsr {i : Short} (h : Keeps base s) : OutKeeps base (execGsr i s) := by
  unfold execGsr
  (try dsimp only)
  exact outKeeps_issueGroup h

theorem outKeeps_execGsw {i : Short} (h : Keeps base s) : OutKeeps base (execGsw i s) := by
  unfold execGsw
  (try dsimp only)
  repeat' first
    | with_reducible assumption
    | trivial
    | with_reducible apply outKeeps_issue
    | with_reducible apply outKeeps_issueMatched
    | with_reducible apply outKeeps_issueWith
    | with_reducible apply outNext
    | with_reducible apply bodyNext
    | with_reducible apply bodyLate
    | (with_reducible apply bodyHold; intro _ _)
    | (with_reducible apply bodyBreaks; intro _ _)
    | with_reducible apply keeps_modGroup
    | with_reducible apply keeps_modTeam
    | split
    | refine Keeps.mk' rfl ?_
    | (intro _ hh; (repeat' split) <;> exact hh)
    | (intro (_ : Ctx); rfl)
    | (intro _ _ hh; (repeat' split) <;> exact hh)
    | (intro _ _ _)

theorem outKeeps_execFadd {i : Long} (h : Keeps base s) : OutKeeps base (execFadd i s) := by
  unfold execFadd issueFloat
  (try dsimp only)
  exact outKeeps_issueLanes h

theorem outKeeps_execFsub {i : Long} (h : Keeps base s) : OutKeeps base (execFsub i s) := by
  unfold execFsub issueFloat
  (try dsimp only)
  exact outKeeps_issueLanes h

theorem outKeeps_execFmul {i : Long} (h : Keeps base s) : OutKeeps base (execFmul i s) := by
  unfold execFmul issueFloat
  (try dsimp only)
  exact outKeeps_issueLanes h

theorem outKeeps_execFfma {i : Long} (h : Keeps base s) : OutKeeps base (execFfma i s) := by
  unfold execFfma issueFloat
  (try dsimp only)
  exact outKeeps_issueLanes h

theorem outKeeps_execFdiv {i : Long} (h : Keeps base s) : OutKeeps base (execFdiv i s) := by
  unfold execFdiv issueFloatLong
  (try dsimp only)
  exact outKeeps_issueLong h

theorem outKeeps_execFsqrt {i : Long} (h : Keeps base s) : OutKeeps base (execFsqrt i s) := by
  unfold execFsqrt issueFloatLong
  (try dsimp only)
  exact outKeeps_issueLong h

theorem outKeeps_execFmin {i : Long} (h : Keeps base s) : OutKeeps base (execFmin i s) := by
  unfold execFmin issueFloat
  (try dsimp only)
  exact outKeeps_issueLanes h

theorem outKeeps_execFmax {i : Long} (h : Keeps base s) : OutKeeps base (execFmax i s) := by
  unfold execFmax issueFloat
  (try dsimp only)
  exact outKeeps_issueLanes h

theorem outKeeps_execFsgn {i : Long} (h : Keeps base s) : OutKeeps base (execFsgn i s) := by
  unfold execFsgn
  (try dsimp only)
  exact outKeeps_issueLanes h

theorem outKeeps_execFcmp {i : Long} (h : Keeps base s) : OutKeeps base (execFcmp i s) := by
  unfold execFcmp
  (try dsimp only)
  exact outKeeps_issueRegs h fun _ _ hg => by (repeat' split) <;> first | exact hg | exact tidy_setPred hg

theorem outKeeps_execFclass {i : Long} (h : Keeps base s) : OutKeeps base (execFclass i s) := by
  unfold execFclass
  (try dsimp only)
  exact outKeeps_issueLanes h

theorem outKeeps_execFcvt {i : Long} (h : Keeps base s) : OutKeeps base (execFcvt i s) := by
  unfold execFcvt
  (try dsimp only)
  exact outKeeps_issueLanes h

theorem outKeeps_execF2i {i : Long} (h : Keeps base s) : OutKeeps base (execF2i i s) := by
  unfold execF2i
  (try dsimp only)
  exact outKeeps_issueLanes h

theorem outKeeps_execI2f {i : Long} (h : Keeps base s) : OutKeeps base (execI2f i s) := by
  unfold execI2f
  (try dsimp only)
  exact outKeeps_issueLanes h

theorem outKeeps_execFrnd {i : Long} (h : Keeps base s) : OutKeeps base (execFrnd i s) := by
  unfold execFrnd issueFloat
  (try dsimp only)
  exact outKeeps_issueLanes h

theorem outKeeps_execFrcp {i : Long} (h : Keeps base s) : OutKeeps base (execFrcp i s) := by
  unfold execFrcp issueFloatLong
  (try dsimp only)
  exact outKeeps_issueLong h

theorem outKeeps_execFrsq {i : Long} (h : Keeps base s) : OutKeeps base (execFrsq i s) := by
  unfold execFrsq issueFloatLong
  (try dsimp only)
  exact outKeeps_issueLong h

theorem outKeeps_execFexp2 {i : Long} (h : Keeps base s) : OutKeeps base (execFexp2 i s) := by
  unfold execFexp2 issueFloatLong
  (try dsimp only)
  exact outKeeps_issueLong h

theorem outKeeps_execFlog2 {i : Long} (h : Keeps base s) : OutKeeps base (execFlog2 i s) := by
  unfold execFlog2 issueFloatLong
  (try dsimp only)
  exact outKeeps_issueLong h

theorem outKeeps_execFsin {i : Long} (h : Keeps base s) : OutKeeps base (execFsin i s) := by
  unfold execFsin issueFloatLong
  (try dsimp only)
  exact outKeeps_issueLong h

theorem outKeeps_execFcos {i : Long} (h : Keeps base s) : OutKeeps base (execFcos i s) := by
  unfold execFcos issueFloatLong
  (try dsimp only)
  exact outKeeps_issueLong h

theorem outKeeps_execBmax {i : Long} (h : Keeps base s) : OutKeeps base (execBmax i s) := by
  unfold execBmax
  (try dsimp only)
  exact outKeeps_issueRegs h fun _ _ hg => by (repeat' split) <;> first | exact hg | exact tidy_setG hg

theorem outKeeps_execBscale {i : Long} (h : Keeps base s) : OutKeeps base (execBscale i s) := by
  unfold execBscale
  (try dsimp only)
  exact outKeeps_issueRegs h fun _ _ hg => by (repeat' split) <;> first | exact hg | exact tidy_setG hg

theorem outKeeps_execBquant {i : Long} (h : Keeps base s) : OutKeeps base (execBquant i s) :=
  outKeeps_issueRegs h fun _ _ hg => tidy_setPred (tidy_setLanes hg)

theorem outKeeps_execBdequant {i : Long} (h : Keeps base s) : OutKeeps base (execBdequant i s) := by
  unfold execBdequant
  (try dsimp only)
  exact outKeeps_issueLanes h

theorem outKeeps_execBnf {i : Long} (h : Keeps base s) : OutKeeps base (execBnf i s) := by
  unfold execBnf
  (try dsimp only)
  exact outKeeps_issueRegs h fun _ _ hg => by (repeat' split) <;> first | exact hg | exact tidy_setQ hg

theorem outKeeps_execLxch {i : Long} (h : Keeps base s) : OutKeeps base (execLxch i s) := by
  unfold execLxch
  (try dsimp only)
  exact outKeeps_issueLanes h

theorem outKeeps_execLpred {i : Long} (h : Keeps base s) : OutKeeps base (execLpred i s) := by
  unfold execLpred
  (try dsimp only)
  exact outKeeps_issueRegs h fun _ _ hg => by (repeat' split) <;> first | exact hg | exact tidy_setG hg | exact tidy_setQ hg

theorem outKeeps_execLred {i : Long} (h : Keeps base s) : OutKeeps base (execLred i s) := by
  unfold execLred
  (try dsimp only)
  exact outKeeps_issueRegs h fun _ _ hg => by (repeat' split) <;> first | exact hg | exact tidy_setG hg

theorem outKeeps_execLscan {i : Long} (h : Keeps base s) : OutKeeps base (execLscan i s) := by
  unfold execLscan
  (try dsimp only)
  exact outKeeps_issueLanes h


end Sys2Proof.Machine
end

