-- ==== Sys2Proof/Laws/KeepsMemory.lean ====
section
/-!
SUPPORT. The meanings of memory, matrix and control instructions keep a legal machine.
-/
set_option Elab.async false
namespace Sys2Proof.Machine

variable {base s : State}

/-! ### Memory -/

theorem body_loadBody {k : Here} {glob group : Bool} {l : List (Nat × DWord)} (h : Keeps base s) :
    Body.Keeps base (loadBody k s glob group l) := by
  unfold loadBody
  dsimp only
  generalize hr : s.probes k glob .read _ _ _ = r
  cases r with
  | error b => exact probes_error h hr
  | ok sites => exact bodyNext (keeps_addAccesses (keeps_noteSites h))

theorem body_storeBody {k : Here} {glob : Bool} {align : Nat} {l : List (Nat × DWord × List Byte)} (h : Keeps base s) :
    Body.Keeps base (storeBody k s glob align l) := by
  unfold storeBody
  generalize hr : s.probes k glob .write _ _ _ = r
  cases r with
  | error b => exact probes_error h hr
  | ok sites => exact bodyNext (keeps_enqueue (keeps_noteSites h))

theorem body_atomBody {k : Here} {glob ret : Bool} (h : Keeps base s) : Body.Keeps base (atomBody k s glob ret) := by
  unfold atomBody
  dsimp only
  generalize hr : s.probes k glob .write _ _ _ = r
  cases r with
  | error b => exact probes_error h hr
  | ok sites =>
    apply bodyNext
    split
    · exact keeps_enqueue (keeps_noteSites h)
    · exact keeps_addAccesses (keeps_noteSites h)

theorem body_unpkBody {k : Here} (h : Keeps base s) : Body.Keeps base (s.unpkBody k) := by
  unfold State.unpkBody
  dsimp only
  split
  · trivial
  · split
    · trivial
    · split
      · trivial
      · generalize hp : s.performUpTo _ _ _ _ = r
        cases r with
        | none => trivial
        | some s1 =>
          have h2 := keeps_performUpTo h hp
          dsimp only
          generalize ite (chunkOk _ _ = true) _ 0 = n
          split
          · trivial
          · split
            · exact bodyLate h2
            · exact bodyNext (keeps_addAccesses h2)

theorem outKeeps_execLd {i : Long} (h : Keeps base s) : OutKeeps base (execLd i s) :=
  outKeeps_issue h fun _ _ h1 => body_loadBody h1
theorem outKeeps_execLds {i : Long} (h : Keeps base s) : OutKeeps base (execLds i s) :=
  outKeeps_issue h fun _ _ h1 => body_loadBody h1
theorem outKeeps_execGld {i : Long} (h : Keeps base s) : OutKeeps base (execGld i s) :=
  outKeeps_issue h fun _ _ h1 => body_loadBody h1
theorem outKeeps_execSt {i : Long} (h : Keeps base s) : OutKeeps base (execSt i s) :=
  outKeeps_issue h fun _ _ h1 => body_storeBody h1
theorem outKeeps_execSts {i : Long} (h : Keeps base s) : OutKeeps base (execSts i s) :=
  outKeeps_issue h fun _ _ h1 => body_storeBody h1
theorem outKeeps_execGst {i : Long} (h : Keeps base s) : OutKeeps base (execGst i s) :=
  outKeeps_issue h fun _ _ h1 => body_storeBody h1
theorem outKeeps_execStm {i : Long} (h : Keeps base s) : OutKeeps base (execStm i s) :=
  outKeeps_issue h fun _ _ h1 => body_storeBody h1
theorem outKeeps_execAtom {i : Long} (h : Keeps base s) : OutKeeps base (execAtom i s) :=
  outKeeps_issue h fun _ _ h1 => body_atomBody h1
theorem outKeeps_execAtoms {i : Long} (h : Keeps base s) : OutKeeps base (execAtoms i s) :=
  outKeeps_issue h fun _ _ h1 => body_atomBody h1
theorem outKeeps_execRed {i : Long} (h : Keeps base s) : OutKeeps base (execRed i s) :=
  outKeeps_issue h fun _ _ h1 => body_atomBody h1
theorem outKeeps_execReds {i : Long} (h : Keeps base s) : OutKeeps base (execReds i s) :=
  outKeeps_issue h fun _ _ h1 => body_atomBody h1
theorem outKeeps_execUnpk {i : Long} (h : Keeps base s) : OutKeeps base (execUnpk i s) :=
  outKeeps_issue h fun _ _ h1 => body_unpkBody h1

theorem outKeeps_execStorePerformed {t g idx : Nat} (h : Keeps base s) : OutKeeps base (execStorePerformed t g idx s) := by
  unfold execStorePerformed
  split
  · split
    · split
      · exact keeps_performNow h
      · exact h
    · exact h
  · exact h

theorem outKeeps_execLongLatencyResult {t g : Nat} {part : ResultPart} (h : Keeps base s) :
    OutKeeps base (execLongLatencyResult t g part s) := by
  unfold execLongLatencyResult
  repeat' split
  all_goals first
    | exact h
    | exact keeps_deliverResult h
    | exact keeps_performPend h

/-! ### Matrix -/

theorem body_matchedBody {op : MatchedOp} {k : Here} {part : Part} {upd : Member → Member} {after : State → State}
    (h : Keeps base s) (ha : ∀ s, Keeps base s → Keeps base (after s)) :
    Body.Keeps base (matchedBody op k s part upd after) := by
  unfold matchedBody
  dsimp only
  split
  · trivial
  · split
    · exact bodyNext (keeps_raiseLate (keeps_endConv (ha _ (keeps_modConv h))))
    · split
      · exact bodyNext (keeps_endConv (ha _ (keeps_modConv h)))
      · repeat' split
        all_goals first
          | trivial
          | exact bodyNext (keeps_modConv (ha _ (keeps_modConv h)))
          | exact bodyBreaks fun _ hs => keeps_breakConv hs
          | exact bodyNext (keeps_endConv (keeps_matched (keeps_modConv (ha _ (keeps_modConv h)))))

theorem outKeeps_execConv {i : Long} (h : Keeps base s) : OutKeeps base (execConv i s) :=
  outKeeps_issueMatched h fun _ _ h1 => bodyNext (keeps_joinConv h1)
theorem outKeeps_execMma {i : Long} (h : Keeps base s) : OutKeeps base (execMma i s) :=
  outKeeps_issueMatched h fun _ _ h1 => body_matchedBody h1 fun _ hs => hs
theorem outKeeps_execMmaSp {i : Long} (h : Keeps base s) : OutKeeps base (execMmaSp i s) :=
  outKeeps_issueMatched h fun _ _ h1 => body_matchedBody h1 fun _ hs => hs
theorem outKeeps_execAccZero {i : Long} (h : Keeps base s) : OutKeeps base (execAccZero i s) :=
  outKeeps_issueMatched h fun _ _ h1 => body_matchedBody h1 fun _ hs => hs
theorem outKeeps_execAccLd {i : Long} (h : Keeps base s) : OutKeeps base (execAccLd i s) :=
  outKeeps_issueMatched h fun _ _ h1 => body_matchedBody h1 fun _ hs => hs
theorem outKeeps_execAccSt {i : Long} (h : Keeps base s) : OutKeeps base (execAccSt i s) :=
  outKeeps_issueMatched h fun _ _ h1 => body_matchedBody h1 fun _ hs => hs
theorem outKeeps_execAccAdd {i : Long} (h : Keeps base s) : OutKeeps base (execAccAdd i s) :=
  outKeeps_issueMatched h fun _ _ h1 => body_matchedBody h1 fun _ hs => hs
theorem outKeeps_execMcommit {i : Short} (h : Keeps base s) : OutKeeps base (execMcommit i s) :=
  outKeeps_issueMatched h fun _ _ h1 => body_matchedBody h1 fun _ hs => keeps_modGroup hs fun _ hg => tidy_setG hg
theorem outKeeps_execConvDis {i : Long} (h : Keeps base s) : OutKeeps base (execConvDis i s) :=
  outKeeps_issueMatched h fun _ _ h1 => body_matchedBody h1 fun _ hs => keeps_modGroup hs fun _ hg => hg

theorem outKeeps_execMwait {i : Short} (h : Keeps base s) : OutKeeps base (execMwait i s) := by
  refine outKeeps_issueWith h fun k s1 h1 => ?_
  split
  · trivial
  · split
    · exact bodyNext (keeps_deliver h1)
    · split
      · refine bodyNext ?_
        split
        · exact keeps_emptyCaches h1
        · exact h1
      · exact bodyNext (keeps_modGroup (keeps_fresh h1) fun _ hg => hg)

theorem tidy_pruneGroup {t : Bool} {k : Here} {h : Group} (hh : Group.tidy h = true) :
    Group.tidy (pruneGroup t k h) = true :=
  tidy_setG (tidy_foldl _ _ hh fun _ _ hg => tidy_foldl _ _ hg fun _ _ hg => tidy_setLreg hg)

theorem outKeeps_execPrune {i : Long} (h : Keeps base s) : OutKeeps base (execPrune i s) :=
  outKeeps_issueWith h fun _ _ h1 => bodyNext (keeps_modGroup h1 fun _ hg => tidy_pruneGroup hg)
theorem outKeeps_execPruneT {i : Long} (h : Keeps base s) : OutKeeps base (execPruneT i s) :=
  outKeeps_issueWith h fun _ _ h1 => bodyNext (keeps_modGroup h1 fun _ hg => tidy_pruneGroup hg)

theorem outKeeps_execMatrixOpStart {core : Nat} (h : Keeps base s) : OutKeeps base (execMatrixOpStart core s) := by
  unfold execMatrixOpStart
  repeat' split
  all_goals first
    | exact h
    | exact keeps_runOp h
    | exact keeps_failOp h
    | exact keeps_beginOp h

theorem outKeeps_execMatrixOpComplete {core op : Nat} (h : Keeps base s) : OutKeeps base (execMatrixOpComplete core op s) := by
  unfold execMatrixOpComplete
  dsimp only
  split
  · exact h
  · split
    · exact h
    · exact outNext (keeps_wakeBatches (keeps_modConv (keeps_modCore (keeps_takeAnswers (keeps_finishOp h)))))

theorem outKeeps_execConvocationEnd {team : Nat} {tag : BitVec 4} (h : Keeps base s) :
    OutKeeps base (execConvocationEnd team tag s) := by
  unfold execConvocationEnd
  split
  · exact keeps_endConv h
  · exact h

/-! ### Control flow -/

theorem outKeeps_execSplitMerge {t g : Nat} (h : Keeps base s) : OutKeeps base (execSplitMerge t g s) :=
  outNext (keeps_modGroup h fun _ hg => tidy_releaseHeld (tidy_mergeAll hg))
theorem outKeeps_execHoldTimeout {t g p : Nat} (h : Keeps base s) : OutKeeps base (execHoldTimeout t g p s) :=
  outNext (keeps_modGroup h fun _ hg => hg)

theorem group?_tidy {t g : Nat} {x : Group} (l : s.Legal) (e : s.group? t g = some x) : Group.tidy x = true :=
  l.groups x (List.mem_of_find?_eq_some e)

theorem body_divide {k : Here} {back : Option DWord} {ts : List (DWord × LaneMask)} (h : Keeps base s) :
    Body.Keeps base (s.divide k back ts) := by
  unfold State.divide
  split
  · next g e =>
    obtain ⟨y, hy, he⟩ := Option.bind_eq_some_iff.mp e
    split
    · trivial
    · exact bodyNext (h.trans ⟨fun l => (keeps_modGroup (Keeps.refl s) fun _ _ => tidy_diverge (group?_tidy l hy) he).legal l, rfl⟩)
  · trivial

theorem outKeeps_execBr {i : Imm} (h : Keeps base s) : OutKeeps base (execBr i s) := by
  refine outKeeps_issue h fun k s1 h1 => ?_
  dsimp only
  repeat' split
  all_goals first
    | trivial
    | exact bodyNext (keeps_jump h1)
    | exact body_divide h1

theorem outKeeps_execCall {i : Imm} (h : Keeps base s) : OutKeeps base (execCall i s) := by
  refine outKeeps_issue h fun k s1 h1 => ?_
  dsimp only
  split
  · trivial
  · exact bodyNext (keeps_modGroup (keeps_jump h1) fun _ hg => tidy_setLanes hg)

theorem body_indirect {k : Here} (h : Keeps base s) : Body.Keeps base (indirect k s) := by
  unfold indirect
  dsimp only
  repeat' split
  all_goals first
    | trivial
    | exact bodyNext (keeps_jump h)
    | exact body_divide h

theorem outKeeps_execBrx {i : Short} (h : Keeps base s) : OutKeeps base (execBrx i s) :=
  outKeeps_issue h fun _ _ h1 => body_indirect h1
theorem outKeeps_execRet {i : Short} (h : Keeps base s) : OutKeeps base (execRet i s) :=
  outKeeps_issue h fun _ _ h1 => body_indirect h1

theorem outKeeps_execJoin {i : Imm} (h : Keeps base s) : OutKeeps base (execJoin i s) := by
  refine outKeeps_issue h fun k s1 h1 => ?_
  dsimp only
  split
  · trivial
  · refine bodyNext (keeps_modGroup h1 fun g hg => ?_)
    repeat' split
    all_goals first
      | exact hg
      | exact tidy_releaseHeld (tidy_modSplit (tidy_closeWindows hg))

theorem outKeeps_execTrap {i : Short} (h : Keeps base s) : OutKeeps base (execTrap i s) :=
  outKeeps_issue h fun _ _ _ => trivial

theorem outKeeps_execDone {i : Short} (h : Keeps base s) : OutKeeps base (execDone i s) := by
  refine outKeeps_issue h fun k s1 h1 => ?_
  have hr := keeps_returnWeights (k := k) (m := k.mask) h1
  split
  · next e => rw [e] at hr; exact hr
  · next e => rw [e] at hr; exact hr

theorem outKeeps_execExit {i : Short} (h : Keeps base s) : OutKeeps base (execExit i s) := by
  refine outKeeps_issue h fun k s1 h1 => ?_
  dsimp only
  split
  · exact bodyNext (keeps_modGroup h1 fun _ hg => tidy_endLanes hg)
  · have hr := keeps_returnWeights (k := k) (m := k.condLanes) h1
    split
    · next e => rw [e] at hr; exact hr
    · next e =>
      rw [e] at hr
      exact bodyNext (keeps_noteEnd (keeps_modGroup (keeps_leaveConv hr) fun _ hg => tidy_endLanes hg))

end Sys2Proof.Machine
end

