-- ==== Sys2Proof/Laws/Packets.lean ====
section
/-!
SUPPORT. The header of a chunk packet (R326) loses nothing: read back, it gives the packet.
-/
namespace Sys2Proof.Machine

/-- A bit of a header field. -/
theorem fieldAt_bit (w lo x i : Nat) :
    (fieldAt w lo x).getLsbD i = (decide (i < 64) && decide (lo ≤ i) && decide (i - lo < w) && x.testBit (i - lo)) := by
  unfold fieldAt
  rw [BitVec.getLsbD_ofNat, Nat.testBit_mul_two_pow, Nat.testBit_mod_two_pow]
  simp only [Bool.and_assoc]

/-- A field of a header is read back where no other field lies. -/
theorem chunkOfHeader_chunkV (kind : Nat) (c : Chunk) (h : c.payload.length < 2 ^ 32) :
    chunkOfHeader (chunkV0 kind c) (chunkV1 c) c.source c.tag c.job c.poison c.payload = c := by
  have f (w lo : Nat) (v : DWord) (x : BitVec w) (hb : ∀ i, i < w → v.getLsbD (lo + i) = x.getLsbD i) : v.extractLsb' lo w = x := by
    apply BitVec.eq_of_getLsbD_eq
    intro i hi
    rw [BitVec.getLsbD_extractLsb', hb i hi]; simp [hi]
  have hn : bits (chunkV1 c).toNat 31 0 = c.payload.length := by
    apply Nat.eq_of_testBit_eq
    intro i
    by_cases hi : i < 32
    · have e : (chunkV1 c).toNat.testBit i = c.payload.length.testBit i := by
        simp only [BitVec.testBit_toNat, chunkV1, headerV1, BitVec.getLsbD_or, fieldAt_bit]
        interval_cases i <;> simp
      rw [bits, Nat.pow_zero, Nat.div_one, Nat.testBit_mod_two_pow, e]; simp [hi]
    · rw [Nat.testBit_lt_two_pow (Nat.lt_of_lt_of_le h (Nat.pow_le_pow_right (by omega) (by omega)))]
      rw [bits, Nat.pow_zero, Nat.div_one, Nat.testBit_mod_two_pow]; simp [hi]
  unfold chunkOfHeader
  rw [hn, List.take_length]
  cases c
  simp only [Chunk.mk.injEq, true_and, and_true]
  refine ⟨?_, ?_, ?_, ?_, ?_, ?_, ?_⟩
  all_goals
    apply f
    intro i hi
    simp only [chunkV0, chunkV1, headerV0, headerV1, BitVec.getLsbD_or, fieldAt_bit, BitVec.testBit_toNat]
    interval_cases i <;> simp

end Sys2Proof.Machine
end

