-- ==== Sys2Proof/Laws/Words.lean ====
section
/-!
SUPPORT. The fields of the words that the encoder writes (R175, R176) are the fields it was given; what decodes again.
-/
namespace Sys2Proof

theorem field_of_ofNat (N lo k : Nat) (x : BitVec k) (h : N / 2 ^ lo % 2 ^ k = x.toNat) (hN : N < 2 ^ 32) :
    (BitVec.ofNat 32 N).extractLsb' lo k = x := by
  apply BitVec.eq_of_toNat_eq
  rw [BitVec.extractLsb'_toNat, BitVec.toNat_ofNat, Nat.mod_eq_of_lt hN, Nat.shiftRight_eq_div_pow, h]

theorem bit_of_ofNat (N i : Nat) (b : Bool) (hi : i < 32) (h : N / 2 ^ i % 2 = b.toNat) :
    (BitVec.ofNat 32 N).getLsbD i = b := by
  rw [BitVec.getLsbD_ofNat, Nat.testBit_eq_decide_div_mod_eq, h]
  cases b <;> simp [hi]

theorem word0_pipe (p l : Bool) (op : BitVec 7) (g : Guard) (d a : BitVec 8) (f : BitVec 3) :
    (word0 p l op g d a f).getLsbD 31 = p := by
  have := op.isLt; have := g.pred.isLt; have := d.isLt; have := a.isLt; have := f.isLt
  have := p.toNat_lt; have := l.toNat_lt; have := g.neg.toNat_lt
  apply bit_of_ofNat <;> omega

theorem word0_long (p l : Bool) (op : BitVec 7) (g : Guard) (d a : BitVec 8) (f : BitVec 3) :
    (word0 p l op g d a f).getLsbD 30 = l := by
  have := op.isLt; have := g.pred.isLt; have := d.isLt; have := a.isLt; have := f.isLt
  have := p.toNat_lt; have := l.toNat_lt; have := g.neg.toNat_lt
  apply bit_of_ofNat <;> omega

theorem word0_op (p l : Bool) (op : BitVec 7) (g : Guard) (d a : BitVec 8) (f : BitVec 3) :
    (word0 p l op g d a f).extractLsb' 23 7 = op := by
  have := op.isLt; have := g.pred.isLt; have := d.isLt; have := a.isLt; have := f.isLt
  have := p.toNat_lt; have := l.toNat_lt; have := g.neg.toNat_lt
  apply field_of_ofNat <;> omega

theorem word0_pred (p l : Bool) (op : BitVec 7) (g : Guard) (d a : BitVec 8) (f : BitVec 3) :
    (word0 p l op g d a f).extractLsb' 20 3 = g.pred := by
  have := op.isLt; have := g.pred.isLt; have := d.isLt; have := a.isLt; have := f.isLt
  have := p.toNat_lt; have := l.toNat_lt; have := g.neg.toNat_lt
  apply field_of_ofNat <;> omega

theorem word0_neg (p l : Bool) (op : BitVec 7) (g : Guard) (d a : BitVec 8) (f : BitVec 3) :
    (word0 p l op g d a f).getLsbD 19 = g.neg := by
  have := op.isLt; have := g.pred.isLt; have := d.isLt; have := a.isLt; have := f.isLt
  have := p.toNat_lt; have := l.toNat_lt; have := g.neg.toNat_lt
  apply bit_of_ofNat <;> omega

theorem word0_d (p l : Bool) (op : BitVec 7) (g : Guard) (d a : BitVec 8) (f : BitVec 3) :
    (word0 p l op g d a f).extractLsb' 11 8 = d := by
  have := op.isLt; have := g.pred.isLt; have := d.isLt; have := a.isLt; have := f.isLt
  have := p.toNat_lt; have := l.toNat_lt; have := g.neg.toNat_lt
  apply field_of_ofNat <;> omega

theorem word0_a (p l : Bool) (op : BitVec 7) (g : Guard) (d a : BitVec 8) (f : BitVec 3) :
    (word0 p l op g d a f).extractLsb' 3 8 = a := by
  have := op.isLt; have := g.pred.isLt; have := d.isLt; have := a.isLt; have := f.isLt
  have := p.toNat_lt; have := l.toNat_lt; have := g.neg.toNat_lt
  apply field_of_ofNat <;> omega

theorem word0_f (p l : Bool) (op : BitVec 7) (g : Guard) (d a : BitVec 8) (f : BitVec 3) :
    (word0 p l op g d a f).extractLsb' 0 3 = f := by
  have := op.isLt; have := g.pred.isLt; have := d.isLt; have := a.isLt; have := f.isLt
  have := p.toNat_lt; have := l.toNat_lt; have := g.neg.toNat_lt
  apply field_of_ofNat <;> omega

theorem guardOf_word0 (p l : Bool) (op : BitVec 7) (g : Guard) (d a : BitVec 8) (f : BitVec 3) :
    guardOf (word0 p l op g d a f) = g := by
  simp only [guardOf, word0_pred, word0_neg]

theorem shortOf_word0 (p l : Bool) (op : BitVec 7) (i : Short) : shortOf (word0 p l op i.g i.d i.a i.f) = i := by
  simp only [shortOf, guardOf_word0, word0_d, word0_a, word0_f]

theorem immOf_word0 (p l : Bool) (op : BitVec 7) (i : Imm) : immOf (word0 p l op i.g i.d i.a i.f) i.imm = i := by
  simp only [immOf, guardOf_word0, word0_d, word0_a, word0_f]

/-- Bounds of the fields of word 1. -/
theorem word1_bounds (i : Long) :
    i.b.toNat < 256 ∧ i.c.toNat < 256 ∧ i.la.toNat < 16 ∧ i.m.toNat < 16 ∧ i.xi.toNat < 4 ∧ i.h.toNat < 4 ∧
    i.ka.toNat < 2 ∧ i.kb.toNat < 2 ∧ i.kc.toNat < 2 ∧ i.x.toNat < 2 :=
  ⟨i.b.isLt, i.c.isLt, i.la.isLt, i.m.isLt, i.xi.isLt, i.h.isLt, i.ka.toNat_lt, i.kb.toNat_lt, i.kc.toNat_lt, i.x.toNat_lt⟩

theorem word1_fields (i : Long) :
    (word1 i).extractLsb' 24 8 = i.b ∧ (word1 i).extractLsb' 16 8 = i.c ∧ (word1 i).extractLsb' 12 4 = i.la ∧
    (word1 i).extractLsb' 8 4 = i.m ∧ (word1 i).extractLsb' 2 2 = i.xi ∧ (word1 i).extractLsb' 0 2 = i.h := by
  obtain ⟨h1, h2, h3, h4, h5, h6, h7, h8, h9, h10⟩ := word1_bounds i
  refine ⟨?_, ?_, ?_, ?_, ?_, ?_⟩ <;> apply field_of_ofNat <;> omega

theorem word1_bits (i : Long) :
    (word1 i).getLsbD 7 = i.ka ∧ (word1 i).getLsbD 6 = i.kb ∧ (word1 i).getLsbD 5 = i.kc ∧ (word1 i).getLsbD 4 = i.x := by
  obtain ⟨h1, h2, h3, h4, h5, h6, h7, h8, h9, h10⟩ := word1_bounds i
  refine ⟨?_, ?_, ?_, ?_⟩ <;> apply bit_of_ofNat <;> omega

theorem longOf_words (p l : Bool) (op : BitVec 7) (i : Long) : longOf (word0 p l op i.g i.d i.a i.f) (word1 i) = i := by
  obtain ⟨h1, h2, h3, h4, h5, h6⟩ := word1_fields i
  obtain ⟨k1, k2, k3, k4⟩ := word1_bits i
  simp only [longOf, guardOf_word0, word0_d, word0_a, word0_f, h1, h2, h3, h4, h5, h6, k1, k2, k3, k4]

theorem wordsOf_one (p : Bool) (op : BitVec 7) (i : Short) (v : Word) :
    wordsOf (word0 p false op i.g i.d i.a i.f) v = .one i := by
  unfold wordsOf
  rw [word0_long, shortOf_word0]
  rfl

theorem wordsOf_imm (p : Bool) (op : BitVec 7) (i : Imm) (h : immClass p op.toNat = true) :
    wordsOf (word0 p true op i.g i.d i.a i.f) i.imm = .imm i := by
  unfold wordsOf
  rw [word0_long, word0_pipe, word0_op, immOf_word0, h]
  rfl

theorem wordsOf_long (p : Bool) (op : BitVec 7) (i : Long) (h : immClass p op.toNat = false) :
    wordsOf (word0 p true op i.g i.d i.a i.f) (word1 i) = .long i := by
  unfold wordsOf
  rw [word0_long, word0_pipe, word0_op, longOf_words, h]
  rfl

/-- What decoding answers when the fields name an instruction that no check refuses. -/
theorem decode_of_build (w v : Word) (p : Bool) (op : BitVec 7) (ws : Words) (i : Instr) (hp : w.getLsbD 31 = p)
    (ho : w.extractLsb' 23 7 = op) (hw : wordsOf w v = ws) (hb : build p op.toNat ws = some i)
    (hc : i.encodingCause = none) : decode w v = i := by
  unfold decode
  rw [hp, ho, hw, hb]
  simp only [hc]

/-- The words of an instruction whose parts build it again, and whose encoding no check refuses, decode to it. -/
theorem decodeWords_encode (i : Instr) (p : Bool) (op : BitVec 7) (w : Words) (hp : i.parts = some (p, op, w))
    (hb : build p op.toNat w = some i) (hc : i.encodingCause = none)
    (hl : (∀ x, w = .imm x → immClass p op.toNat = true) ∧ ∀ x, w = .long x → immClass p op.toNat = false) :
    decodeWords (encode i) = i := by
  unfold encode
  rw [hp]
  cases w with
  | one x => exact decode_of_build _ _ p op _ i (word0_pipe ..) (word0_op ..) (wordsOf_one p op x 0) hb hc
  | imm x => exact decode_of_build _ _ p op _ i (word0_pipe ..) (word0_op ..) (wordsOf_imm p op x (hl.1 x rfl)) hb hc
  | long x => exact decode_of_build _ _ p op _ i (word0_pipe ..) (word0_op ..) (wordsOf_long p op x (hl.2 x rfl)) hb hc

end Sys2Proof
end

