-- ==== Sys2Proof/Laws/PerInstr.lean ====
section
/-!
SUPPORT. Decoding gives back every well-formed fetched instruction that was encoded (R174 to R178): one lemma for each
constructor.
-/
namespace Sys2Proof.Laws.RoundTrip

/-- The words of a well-formed fetched instruction decode to it. -/
def Statement (i : Instr) : Prop := i.wellFormed = true → decodeWords (encode i) = i

theorem of_parts (i : Instr) (p : Bool) (op : BitVec 7) (w : Words) (hp : i.parts = some (p, op, w))
    (hb : i.selects = true → build p op.toNat w = some i)
    (hl : (∀ x, w = .imm x → immClass p op.toNat = true) ∧ ∀ x, w = .long x → immClass p op.toNat = false) :
    Statement i := by
  intro h
  simp only [Instr.wellFormed, Bool.and_eq_true, decide_eq_true_eq] at h
  exact decodeWords_encode i p op w hp (hb h.1.1) h.2 hl

theorem nop (x : Short) : Statement (.nop x) := of_parts _ false 0x00 (.one x) rfl (fun _ => rfl) ⟨nofun, nofun⟩

theorem iadd (x : Long) : Statement (.iadd x) := of_parts _ false 0x01 (.long x) rfl (fun _ => rfl) ⟨nofun, fun _ _ => rfl⟩

theorem isub (x : Long) : Statement (.isub x) := of_parts _ false 0x02 (.long x) rfl (fun _ => rfl) ⟨nofun, fun _ _ => rfl⟩

theorem imul (x : Long) : Statement (.imul x) := of_parts _ false 0x03 (.long x) rfl (fun _ => rfl) ⟨nofun, fun _ _ => rfl⟩

theorem imad (x : Long) : Statement (.imad x) := of_parts _ false 0x04 (.long x) rfl (fun _ => rfl) ⟨nofun, fun _ _ => rfl⟩

theorem imulhi (x : Long) : Statement (.imulhi x) := of_parts _ false 0x05 (.long x) rfl (fun _ => rfl) ⟨nofun, fun _ _ => rfl⟩

theorem imin (x : Long) : Statement (.imin x) := of_parts _ false 0x06 (.long x) rfl (fun _ => rfl) ⟨nofun, fun _ _ => rfl⟩

theorem imax (x : Long) : Statement (.imax x) := of_parts _ false 0x07 (.long x) rfl (fun _ => rfl) ⟨nofun, fun _ _ => rfl⟩

theorem iabs (x : Long) : Statement (.iabs x) := of_parts _ false 0x08 (.long x) rfl (fun _ => rfl) ⟨nofun, fun _ _ => rfl⟩

theorem and (x : Long) : Statement (.and x) := of_parts _ false 0x09 (.long x) rfl (fun _ => rfl) ⟨nofun, fun _ _ => rfl⟩

theorem or (x : Long) : Statement (.or x) := of_parts _ false 0x0A (.long x) rfl (fun _ => rfl) ⟨nofun, fun _ _ => rfl⟩

theorem xor (x : Long) : Statement (.xor x) := of_parts _ false 0x0B (.long x) rfl (fun _ => rfl) ⟨nofun, fun _ _ => rfl⟩

theorem andn (x : Long) : Statement (.andn x) := of_parts _ false 0x0C (.long x) rfl (fun _ => rfl) ⟨nofun, fun _ _ => rfl⟩

theorem shl (x : Long) : Statement (.shl x) := of_parts _ false 0x0D (.long x) rfl (fun _ => rfl) ⟨nofun, fun _ _ => rfl⟩

theorem shr (x : Long) : Statement (.shr x) := of_parts _ false 0x0E (.long x) rfl (fun _ => rfl) ⟨nofun, fun _ _ => rfl⟩

theorem sar (x : Long) : Statement (.sar x) := of_parts _ false 0x0F (.long x) rfl (fun _ => rfl) ⟨nofun, fun _ _ => rfl⟩

theorem fsh (x : Long) : Statement (.fsh x) := of_parts _ false 0x10 (.long x) rfl (fun _ => rfl) ⟨nofun, fun _ _ => rfl⟩

theorem popc (x : Long) : Statement (.popc x) := of_parts _ false 0x11 (.long x) rfl (fun _ => rfl) ⟨nofun, fun _ _ => rfl⟩

theorem clz (x : Long) : Statement (.clz x) := of_parts _ false 0x12 (.long x) rfl (fun _ => rfl) ⟨nofun, fun _ _ => rfl⟩

theorem ctz (x : Long) : Statement (.ctz x) := of_parts _ false 0x13 (.long x) rfl (fun _ => rfl) ⟨nofun, fun _ _ => rfl⟩

theorem brev (x : Long) : Statement (.brev x) := of_parts _ false 0x14 (.long x) rfl (fun _ => rfl) ⟨nofun, fun _ _ => rfl⟩

theorem bfx (x : Long) : Statement (.bfx x) := of_parts _ false 0x15 (.long x) rfl (fun _ => rfl) ⟨nofun, fun _ _ => rfl⟩

theorem bfi (x : Long) : Statement (.bfi x) := of_parts _ false 0x16 (.long x) rfl (fun _ => rfl) ⟨nofun, fun _ _ => rfl⟩

theorem perm (x : Long) : Statement (.perm x) := of_parts _ false 0x17 (.long x) rfl (fun _ => rfl) ⟨nofun, fun _ _ => rfl⟩

theorem lea (x : Long) : Statement (.lea x) := of_parts _ false 0x18 (.long x) rfl (fun _ => rfl) ⟨nofun, fun _ _ => rfl⟩

theorem icmp (x : Long) : Statement (.icmp x) := of_parts _ false 0x19 (.long x) rfl (fun _ => rfl) ⟨nofun, fun _ _ => rfl⟩

theorem sel (x : Long) : Statement (.sel x) := of_parts _ false 0x1A (.long x) rfl (fun _ => rfl) ⟨nofun, fun _ _ => rfl⟩

theorem mov (x : Long) : Statement (.mov x) := of_parts _ false 0x1B (.long x) rfl (fun _ => rfl) ⟨nofun, fun _ _ => rfl⟩

theorem icvt (x : Long) : Statement (.icvt x) := of_parts _ false 0x1C (.long x) rfl (fun _ => rfl) ⟨nofun, fun _ _ => rfl⟩

theorem plop (x : Long) : Statement (.plop x) := of_parts _ false 0x1D (.long x) rfl (fun _ => rfl) ⟨nofun, fun _ _ => rfl⟩

theorem setx (x : Long) : Statement (.setx x) := of_parts _ false 0x1E (.long x) rfl (fun _ => rfl) ⟨nofun, fun _ _ => rfl⟩

theorem addx (x : Long) : Statement (.addx x) := of_parts _ false 0x1F (.long x) rfl (fun _ => rfl) ⟨nofun, fun _ _ => rfl⟩

theorem movi (x : Imm) : Statement (.movi x) := of_parts _ false 0x20 (.imm x) rfl (fun _ => rfl) ⟨fun _ _ => rfl, nofun⟩

theorem iaddi (x : Imm) : Statement (.iaddi x) := of_parts _ false 0x21 (.imm x) rfl (fun _ => rfl) ⟨fun _ _ => rfl, nofun⟩

theorem imuli (x : Imm) : Statement (.imuli x) := of_parts _ false 0x22 (.imm x) rfl (fun _ => rfl) ⟨fun _ _ => rfl, nofun⟩

theorem iandi (x : Imm) : Statement (.iandi x) := of_parts _ false 0x23 (.imm x) rfl (fun _ => rfl) ⟨fun _ _ => rfl, nofun⟩

theorem iori (x : Imm) : Statement (.iori x) := of_parts _ false 0x24 (.imm x) rfl (fun _ => rfl) ⟨fun _ _ => rfl, nofun⟩

theorem ixori (x : Imm) : Statement (.ixori x) := of_parts _ false 0x25 (.imm x) rfl (fun _ => rfl) ⟨fun _ _ => rfl, nofun⟩

theorem icmpi (x : Imm) : Statement (.icmpi x) := of_parts _ false 0x26 (.imm x) rfl (fun _ => rfl) ⟨fun _ _ => rfl, nofun⟩

theorem setxi (x : Imm) : Statement (.setxi x) := of_parts _ false 0x27 (.imm x) rfl (fun _ => rfl) ⟨fun _ _ => rfl, nofun⟩

theorem fadd (x : Long) : Statement (.fadd x) := of_parts _ false 0x28 (.long x) rfl (fun _ => rfl) ⟨nofun, fun _ _ => rfl⟩

theorem fsub (x : Long) : Statement (.fsub x) := of_parts _ false 0x29 (.long x) rfl (fun _ => rfl) ⟨nofun, fun _ _ => rfl⟩

theorem fmul (x : Long) : Statement (.fmul x) := of_parts _ false 0x2A (.long x) rfl (fun _ => rfl) ⟨nofun, fun _ _ => rfl⟩

theorem ffma (x : Long) : Statement (.ffma x) := of_parts _ false 0x2B (.long x) rfl (fun _ => rfl) ⟨nofun, fun _ _ => rfl⟩

theorem fdiv (x : Long) : Statement (.fdiv x) := of_parts _ false 0x30 (.long x) rfl (fun _ => rfl) ⟨nofun, fun _ _ => rfl⟩

theorem fsqrt (x : Long) : Statement (.fsqrt x) := of_parts _ false 0x31 (.long x) rfl (fun _ => rfl) ⟨nofun, fun _ _ => rfl⟩

theorem fmin (x : Long) : Statement (.fmin x) := of_parts _ false 0x2C (.long x) rfl (fun _ => rfl) ⟨nofun, fun _ _ => rfl⟩

theorem fmax (x : Long) : Statement (.fmax x) := of_parts _ false 0x2D (.long x) rfl (fun _ => rfl) ⟨nofun, fun _ _ => rfl⟩

theorem fsgn (x : Long) : Statement (.fsgn x) := of_parts _ false 0x2E (.long x) rfl (fun _ => rfl) ⟨nofun, fun _ _ => rfl⟩

theorem fcmp (x : Long) : Statement (.fcmp x) := of_parts _ false 0x2F (.long x) rfl (fun _ => rfl) ⟨nofun, fun _ _ => rfl⟩

theorem frcp (x : Long) : Statement (.frcp x) := of_parts _ false 0x32 (.long x) rfl (fun _ => rfl) ⟨nofun, fun _ _ => rfl⟩

theorem frsq (x : Long) : Statement (.frsq x) := of_parts _ false 0x33 (.long x) rfl (fun _ => rfl) ⟨nofun, fun _ _ => rfl⟩

theorem fexp2 (x : Long) : Statement (.fexp2 x) := of_parts _ false 0x34 (.long x) rfl (fun _ => rfl) ⟨nofun, fun _ _ => rfl⟩

theorem flog2 (x : Long) : Statement (.flog2 x) := of_parts _ false 0x35 (.long x) rfl (fun _ => rfl) ⟨nofun, fun _ _ => rfl⟩

theorem fsin (x : Long) : Statement (.fsin x) := of_parts _ false 0x36 (.long x) rfl (fun _ => rfl) ⟨nofun, fun _ _ => rfl⟩

theorem fcos (x : Long) : Statement (.fcos x) := of_parts _ false 0x37 (.long x) rfl (fun _ => rfl) ⟨nofun, fun _ _ => rfl⟩

theorem fclass (x : Long) : Statement (.fclass x) := of_parts _ false 0x38 (.long x) rfl (fun _ => rfl) ⟨nofun, fun _ _ => rfl⟩

theorem fcvt (x : Long) : Statement (.fcvt x) := of_parts _ false 0x39 (.long x) rfl (fun _ => rfl) ⟨nofun, fun _ _ => rfl⟩

theorem f2i (x : Long) : Statement (.f2i x) := of_parts _ false 0x3A (.long x) rfl (fun _ => rfl) ⟨nofun, fun _ _ => rfl⟩

theorem i2f (x : Long) : Statement (.i2f x) := of_parts _ false 0x3B (.long x) rfl (fun _ => rfl) ⟨nofun, fun _ _ => rfl⟩

theorem frnd (x : Long) : Statement (.frnd x) := of_parts _ false 0x3C (.long x) rfl (fun _ => rfl) ⟨nofun, fun _ _ => rfl⟩

theorem bmax (x : Long) : Statement (.bmax x) := of_parts _ false 0x40 (.long x) rfl (fun _ => rfl) ⟨nofun, fun _ _ => rfl⟩

theorem bscale (x : Long) : Statement (.bscale x) := of_parts _ false 0x41 (.long x) rfl (fun _ => rfl) ⟨nofun, fun _ _ => rfl⟩

theorem bquant (x : Long) : Statement (.bquant x) := of_parts _ false 0x42 (.long x) rfl (fun _ => rfl) ⟨nofun, fun _ _ => rfl⟩

theorem bdequant (x : Long) : Statement (.bdequant x) := of_parts _ false 0x43 (.long x) rfl (fun _ => rfl) ⟨nofun, fun _ _ => rfl⟩

theorem bnf (x : Long) : Statement (.bnf x) := of_parts _ false 0x44 (.long x) rfl (fun _ => rfl) ⟨nofun, fun _ _ => rfl⟩

theorem unpk (x : Long) : Statement (.unpk x) := of_parts _ false 0x45 (.long x) rfl (fun _ => rfl) ⟨nofun, fun _ _ => rfl⟩

theorem lxch (x : Long) : Statement (.lxch x) := of_parts _ false 0x48 (.long x) rfl (fun _ => rfl) ⟨nofun, fun _ _ => rfl⟩

theorem lpred (x : Long) : Statement (.lpred x) := of_parts _ false 0x49 (.long x) rfl (fun _ => rfl) ⟨nofun, fun _ _ => rfl⟩

theorem lred (x : Long) : Statement (.lred x) := of_parts _ false 0x4A (.long x) rfl (fun _ => rfl) ⟨nofun, fun _ _ => rfl⟩

theorem lscan (x : Long) : Statement (.lscan x) := of_parts _ false 0x4B (.long x) rfl (fun _ => rfl) ⟨nofun, fun _ _ => rfl⟩

theorem ld (x : Long) : Statement (.ld x) := of_parts _ false 0x50 (.long x) rfl (fun _ => rfl) ⟨nofun, fun _ _ => rfl⟩

theorem st (x : Long) : Statement (.st x) := of_parts _ false 0x51 (.long x) rfl (fun _ => rfl) ⟨nofun, fun _ _ => rfl⟩

theorem lds (x : Long) : Statement (.lds x) := of_parts _ false 0x52 (.long x) rfl (fun _ => rfl) ⟨nofun, fun _ _ => rfl⟩

theorem sts (x : Long) : Statement (.sts x) := of_parts _ false 0x53 (.long x) rfl (fun _ => rfl) ⟨nofun, fun _ _ => rfl⟩

theorem stm (x : Long) : Statement (.stm x) := of_parts _ false 0x54 (.long x) rfl (fun _ => rfl) ⟨nofun, fun _ _ => rfl⟩

theorem atom (x : Long) : Statement (.atom x) := of_parts _ false 0x55 (.long x) rfl (fun _ => rfl) ⟨nofun, fun _ _ => rfl⟩

theorem atoms (x : Long) : Statement (.atoms x) := of_parts _ false 0x56 (.long x) rfl (fun _ => rfl) ⟨nofun, fun _ _ => rfl⟩

theorem red (x : Long) : Statement (.red x) := of_parts _ false 0x57 (.long x) rfl (fun _ => rfl) ⟨nofun, fun _ _ => rfl⟩

theorem reds (x : Long) : Statement (.reds x) := of_parts _ false 0x58 (.long x) rfl (fun _ => rfl) ⟨nofun, fun _ _ => rfl⟩

theorem gath (x : Long) : Statement (.gath x) := of_parts _ false 0x59 (.long x) rfl (fun _ => rfl) ⟨nofun, fun _ _ => rfl⟩

theorem spawn (x : Long) : Statement (.spawn x) := of_parts _ false 0x5A (.long x) rfl (fun _ => rfl) ⟨nofun, fun _ _ => rfl⟩

theorem done (x : Short) : Statement (.done x) := of_parts _ false 0x5B (.one x) rfl (fun _ => rfl) ⟨nofun, nofun⟩

theorem collPut (x : Long) : Statement (.collPut x) := of_parts _ false 0x5C (.long x) rfl (fun h => by
    show buildColl x = some (.collPut x)
    simp only [buildColl, of_decide_eq_true h]) ⟨nofun, fun _ _ => rfl⟩

theorem collGet (x : Long) : Statement (.collGet x) := of_parts _ false 0x5C (.long x) rfl (fun h => by
    show buildColl x = some (.collGet x)
    simp only [buildColl, of_decide_eq_true h]) ⟨nofun, fun _ _ => rfl⟩

theorem collRed (x : Long) : Statement (.collRed x) := of_parts _ false 0x5C (.long x) rfl (fun h => by
    show buildColl x = some (.collRed x)
    simp only [buildColl, of_decide_eq_true h]) ⟨nofun, fun _ _ => rfl⟩

theorem lsr (x : Short) : Statement (.lsr x) := of_parts _ false 0x5D (.one x) rfl (fun _ => rfl) ⟨nofun, nofun⟩

theorem gnop (x : Short) : Statement (.gnop x) := of_parts _ true 0x00 (.one x) rfl (fun _ => rfl) ⟨nofun, nofun⟩

theorem gadd (x : Long) : Statement (.gadd x) := of_parts _ true 0x01 (.long x) rfl (fun _ => rfl) ⟨nofun, fun _ _ => rfl⟩

theorem gsub (x : Long) : Statement (.gsub x) := of_parts _ true 0x02 (.long x) rfl (fun _ => rfl) ⟨nofun, fun _ _ => rfl⟩

theorem gmul (x : Long) : Statement (.gmul x) := of_parts _ true 0x03 (.long x) rfl (fun _ => rfl) ⟨nofun, fun _ _ => rfl⟩

theorem gmad (x : Long) : Statement (.gmad x) := of_parts _ true 0x04 (.long x) rfl (fun _ => rfl) ⟨nofun, fun _ _ => rfl⟩

theorem gmin (x : Long) : Statement (.gmin x) := of_parts _ true 0x05 (.long x) rfl (fun _ => rfl) ⟨nofun, fun _ _ => rfl⟩

theorem gmax (x : Long) : Statement (.gmax x) := of_parts _ true 0x06 (.long x) rfl (fun _ => rfl) ⟨nofun, fun _ _ => rfl⟩

theorem gand (x : Long) : Statement (.gand x) := of_parts _ true 0x07 (.long x) rfl (fun _ => rfl) ⟨nofun, fun _ _ => rfl⟩

theorem gor (x : Long) : Statement (.gor x) := of_parts _ true 0x08 (.long x) rfl (fun _ => rfl) ⟨nofun, fun _ _ => rfl⟩

theorem gxor (x : Long) : Statement (.gxor x) := of_parts _ true 0x09 (.long x) rfl (fun _ => rfl) ⟨nofun, fun _ _ => rfl⟩

theorem gshl (x : Long) : Statement (.gshl x) := of_parts _ true 0x0A (.long x) rfl (fun _ => rfl) ⟨nofun, fun _ _ => rfl⟩

theorem gshr (x : Long) : Statement (.gshr x) := of_parts _ true 0x0B (.long x) rfl (fun _ => rfl) ⟨nofun, fun _ _ => rfl⟩

theorem gsar (x : Long) : Statement (.gsar x) := of_parts _ true 0x0C (.long x) rfl (fun _ => rfl) ⟨nofun, fun _ _ => rfl⟩

theorem gpopc (x : Long) : Statement (.gpopc x) := of_parts _ true 0x0D (.long x) rfl (fun _ => rfl) ⟨nofun, fun _ _ => rfl⟩

theorem gclz (x : Long) : Statement (.gclz x) := of_parts _ true 0x0E (.long x) rfl (fun _ => rfl) ⟨nofun, fun _ _ => rfl⟩

theorem gbfx (x : Long) : Statement (.gbfx x) := of_parts _ true 0x0F (.long x) rfl (fun _ => rfl) ⟨nofun, fun _ _ => rfl⟩

theorem gbfi (x : Long) : Statement (.gbfi x) := of_parts _ true 0x10 (.long x) rfl (fun _ => rfl) ⟨nofun, fun _ _ => rfl⟩

theorem gcmp (x : Long) : Statement (.gcmp x) := of_parts _ true 0x11 (.long x) rfl (fun _ => rfl) ⟨nofun, fun _ _ => rfl⟩

theorem gsel (x : Long) : Statement (.gsel x) := of_parts _ true 0x12 (.long x) rfl (fun _ => rfl) ⟨nofun, fun _ _ => rfl⟩

theorem gmov (x : Long) : Statement (.gmov x) := of_parts _ true 0x13 (.long x) rfl (fun _ => rfl) ⟨nofun, fun _ _ => rfl⟩

theorem gplop (x : Long) : Statement (.gplop x) := of_parts _ true 0x14 (.long x) rfl (fun _ => rfl) ⟨nofun, fun _ _ => rfl⟩

theorem gsr (x : Short) : Statement (.gsr x) := of_parts _ true 0x15 (.one x) rfl (fun _ => rfl) ⟨nofun, nofun⟩

theorem gsw (x : Short) : Statement (.gsw x) := of_parts _ true 0x16 (.one x) rfl (fun _ => rfl) ⟨nofun, nofun⟩

theorem gmovi (x : Imm) : Statement (.gmovi x) := of_parts _ true 0x18 (.imm x) rfl (fun _ => rfl) ⟨fun _ _ => rfl, nofun⟩

theorem gaddi (x : Imm) : Statement (.gaddi x) := of_parts _ true 0x19 (.imm x) rfl (fun _ => rfl) ⟨fun _ _ => rfl, nofun⟩

theorem gandi (x : Imm) : Statement (.gandi x) := of_parts _ true 0x1A (.imm x) rfl (fun _ => rfl) ⟨fun _ _ => rfl, nofun⟩

theorem gcmpi (x : Imm) : Statement (.gcmpi x) := of_parts _ true 0x1B (.imm x) rfl (fun _ => rfl) ⟨fun _ _ => rfl, nofun⟩

theorem br (x : Imm) : Statement (.br x) := of_parts _ true 0x20 (.imm x) rfl (fun _ => rfl) ⟨fun _ _ => rfl, nofun⟩

theorem brx (x : Short) : Statement (.brx x) := of_parts _ true 0x21 (.one x) rfl (fun _ => rfl) ⟨nofun, nofun⟩

theorem call (x : Imm) : Statement (.call x) := of_parts _ true 0x22 (.imm x) rfl (fun _ => rfl) ⟨fun _ _ => rfl, nofun⟩

theorem ret (x : Short) : Statement (.ret x) := of_parts _ true 0x23 (.one x) rfl (fun _ => rfl) ⟨nofun, nofun⟩

theorem join (x : Imm) : Statement (.join x) := of_parts _ true 0x24 (.imm x) rfl (fun _ => rfl) ⟨fun _ _ => rfl, nofun⟩

theorem exit (x : Short) : Statement (.exit x) := of_parts _ true 0x25 (.one x) rfl (fun _ => rfl) ⟨nofun, nofun⟩

theorem trap (x : Short) : Statement (.trap x) := of_parts _ true 0x26 (.one x) rfl (fun _ => rfl) ⟨nofun, nofun⟩

theorem gld (x : Long) : Statement (.gld x) := of_parts _ true 0x28 (.long x) rfl (fun _ => rfl) ⟨nofun, fun _ _ => rfl⟩

theorem gst (x : Long) : Statement (.gst x) := of_parts _ true 0x29 (.long x) rfl (fun _ => rfl) ⟨nofun, fun _ _ => rfl⟩

theorem gbarInit (x : Long) : Statement (.gbarInit x) := of_parts _ true 0x2A (.long x) rfl (fun h => by
    show buildGbar x = some (.gbarInit x)
    simp only [buildGbar, of_decide_eq_true h]) ⟨nofun, fun _ _ => rfl⟩

theorem gbarArrive (x : Long) : Statement (.gbarArrive x) := of_parts _ true 0x2A (.long x) rfl (fun h => by
    show buildGbar x = some (.gbarArrive x)
    simp only [buildGbar, of_decide_eq_true h]) ⟨nofun, fun _ _ => rfl⟩

theorem gbarExpect (x : Long) : Statement (.gbarExpect x) := of_parts _ true 0x2A (.long x) rfl (fun h => by
    show buildGbar x = some (.gbarExpect x)
    simp only [buildGbar, of_decide_eq_true h]) ⟨nofun, fun _ _ => rfl⟩

theorem gbarExpa (x : Long) : Statement (.gbarExpa x) := of_parts _ true 0x2A (.long x) rfl (fun h => by
    show buildGbar x = some (.gbarExpa x)
    simp only [buildGbar, of_decide_eq_true h]) ⟨nofun, fun _ _ => rfl⟩

theorem gbarWait (x : Long) : Statement (.gbarWait x) := of_parts _ true 0x2A (.long x) rfl (fun h => by
    show buildGbar x = some (.gbarWait x)
    simp only [buildGbar, of_decide_eq_true h]) ⟨nofun, fun _ _ => rfl⟩

theorem gbarTry (x : Long) : Statement (.gbarTry x) := of_parts _ true 0x2A (.long x) rfl (fun h => by
    show buildGbar x = some (.gbarTry x)
    simp only [buildGbar, of_decide_eq_true h]) ⟨nofun, fun _ _ => rfl⟩

theorem fence (x : Short) : Statement (.fence x) := of_parts _ true 0x2B (.one x) rfl (fun _ => rfl) ⟨nofun, nofun⟩

theorem drain (x : Long) : Statement (.drain x) := of_parts _ true 0x2C (.long x) rfl (fun _ => rfl) ⟨nofun, fun _ _ => rfl⟩

theorem cpyaB2t (x : Long) : Statement (.cpyaB2t x) := of_parts _ true 0x2D (.long x) rfl (fun h => by
    show buildCpya x = some (.cpyaB2t x)
    simp only [buildCpya, of_decide_eq_true h]) ⟨nofun, fun _ _ => rfl⟩

theorem cpyaT2b (x : Long) : Statement (.cpyaT2b x) := of_parts _ true 0x2D (.long x) rfl (fun h => by
    show buildCpya x = some (.cpyaT2b x)
    simp only [buildCpya, of_decide_eq_true h]) ⟨nofun, fun _ _ => rfl⟩

theorem cpyaB2b (x : Long) : Statement (.cpyaB2b x) := of_parts _ true 0x2D (.long x) rfl (fun h => by
    show buildCpya x = some (.cpyaB2b x)
    simp only [buildCpya, of_decide_eq_true h]) ⟨nofun, fun _ _ => rfl⟩

theorem cpyaFlat (x : Long) : Statement (.cpyaFlat x) := of_parts _ true 0x2D (.long x) rfl (fun h => by
    show buildCpya x = some (.cpyaFlat x)
    simp only [buildCpya, of_decide_eq_true h]) ⟨nofun, fun _ _ => rfl⟩

theorem dinv (x : Long) : Statement (.dinv x) := of_parts _ true 0x2E (.long x) rfl (fun h => by
    show buildDinv x = some (.dinv x)
    simp only [buildDinv, of_decide_eq_true h]) ⟨nofun, fun _ _ => rfl⟩

theorem dinvAll (x : Long) : Statement (.dinvAll x) := of_parts _ true 0x2E (.long x) rfl (fun h => by
    show buildDinv x = some (.dinvAll x)
    simp only [buildDinv, of_decide_eq_true h]) ⟨nofun, fun _ _ => rfl⟩

theorem pub (x : Long) : Statement (.pub x) := of_parts _ true 0x2F (.long x) rfl (fun _ => rfl) ⟨nofun, fun _ _ => rfl⟩

theorem gcollAr (x : Long) : Statement (.gcollAr x) := of_parts _ true 0x30 (.long x) rfl (fun h => by
    show buildGcoll x = some (.gcollAr x)
    simp only [buildGcoll, of_decide_eq_true h]) ⟨nofun, fun _ _ => rfl⟩

theorem gcollRs (x : Long) : Statement (.gcollRs x) := of_parts _ true 0x30 (.long x) rfl (fun h => by
    show buildGcoll x = some (.gcollRs x)
    simp only [buildGcoll, of_decide_eq_true h]) ⟨nofun, fun _ _ => rfl⟩

theorem gcollAg (x : Long) : Statement (.gcollAg x) := of_parts _ true 0x30 (.long x) rfl (fun h => by
    show buildGcoll x = some (.gcollAg x)
    simp only [buildGcoll, of_decide_eq_true h]) ⟨nofun, fun _ _ => rfl⟩

theorem conv (x : Long) : Statement (.conv x) := of_parts _ true 0x31 (.long x) rfl (fun h => by
    simp only [Instr.selects, Bool.or_eq_true, decide_eq_true_eq] at h
    show buildConv x = some (.conv x)
    rcases h with (h | h) | h <;> simp only [buildConv, h]) ⟨nofun, fun _ _ => rfl⟩

theorem convDis (x : Long) : Statement (.convDis x) := of_parts _ true 0x31 (.long x) rfl (fun h => by
    show buildConv x = some (.convDis x)
    simp only [buildConv, of_decide_eq_true h]) ⟨nofun, fun _ _ => rfl⟩

theorem mma (x : Long) : Statement (.mma x) := of_parts _ true 0x32 (.long x) rfl (fun _ => rfl) ⟨nofun, fun _ _ => rfl⟩

theorem mmaSp (x : Long) : Statement (.mmaSp x) := of_parts _ true 0x33 (.long x) rfl (fun _ => rfl) ⟨nofun, fun _ _ => rfl⟩

theorem prune (x : Long) : Statement (.prune x) := of_parts _ true 0x34 (.long x) rfl (fun h => by
    show buildPrune x = some (.prune x)
    simp only [buildPrune, of_decide_eq_true h]) ⟨nofun, fun _ _ => rfl⟩

theorem pruneT (x : Long) : Statement (.pruneT x) := of_parts _ true 0x34 (.long x) rfl (fun h => by
    show buildPrune x = some (.pruneT x)
    simp only [buildPrune, of_decide_eq_true h]) ⟨nofun, fun _ _ => rfl⟩

theorem accZero (x : Long) : Statement (.accZero x) := of_parts _ true 0x35 (.long x) rfl (fun h => by
    show buildAcc x = some (.accZero x)
    simp only [buildAcc, of_decide_eq_true h]) ⟨nofun, fun _ _ => rfl⟩

theorem accLd (x : Long) : Statement (.accLd x) := of_parts _ true 0x35 (.long x) rfl (fun h => by
    show buildAcc x = some (.accLd x)
    simp only [buildAcc, of_decide_eq_true h]) ⟨nofun, fun _ _ => rfl⟩

theorem accSt (x : Long) : Statement (.accSt x) := of_parts _ true 0x35 (.long x) rfl (fun h => by
    show buildAcc x = some (.accSt x)
    simp only [buildAcc, of_decide_eq_true h]) ⟨nofun, fun _ _ => rfl⟩

theorem accAdd (x : Long) : Statement (.accAdd x) := of_parts _ true 0x35 (.long x) rfl (fun h => by
    show buildAcc x = some (.accAdd x)
    simp only [buildAcc, of_decide_eq_true h]) ⟨nofun, fun _ _ => rfl⟩

theorem mcommit (x : Short) : Statement (.mcommit x) := of_parts _ true 0x36 (.one x) rfl (fun _ => rfl) ⟨nofun, nofun⟩

theorem mwait (x : Short) : Statement (.mwait x) := of_parts _ true 0x37 (.one x) rfl (fun _ => rfl) ⟨nofun, nofun⟩

theorem splitMerge (team grp : Nat) : Statement (.splitMerge team grp) := fun h => nomatch h

theorem holdTimeout (team grp split : Nat) : Statement (.holdTimeout team grp split) := fun h => nomatch h

theorem longLatencyResult (team grp : Nat) (part : ResultPart) : Statement (.longLatencyResult team grp part) := fun h => nomatch h

theorem nopCommand (c : Command) : Statement (.nopCommand c) := fun h => nomatch h

theorem launch (c : Command) : Statement (.launch c) := fun h => nomatch h

theorem launchi (c : Command) : Statement (.launchi c) := fun h => nomatch h

theorem loop (c : Command) : Statement (.loop c) := fun h => nomatch h

theorem branch (c : Command) : Statement (.branch c) := fun h => nomatch h

theorem waitph (c : Command) : Statement (.waitph c) := fun h => nomatch h

theorem waitphPoll (stream : Nat) : Statement (.waitphPoll stream) := fun h => nomatch h

theorem signal (c : Command) : Statement (.signal c) := fun h => nomatch h

theorem publish (c : Command) : Statement (.publish c) := fun h => nomatch h

theorem hcopy (c : Command) : Statement (.hcopy c) := fun h => nomatch h

theorem hcopyComplete (stream : Nat) : Statement (.hcopyComplete stream) := fun h => nomatch h

theorem fenceCommand (c : Command) : Statement (.fenceCommand c) := fun h => nomatch h

theorem seed (c : Command) : Statement (.seed c) := fun h => nomatch h

theorem stop (c : Command) : Statement (.stop c) := fun h => nomatch h

theorem teamPlacement (core : Nat) : Statement (.teamPlacement core) := fun h => nomatch h

theorem spawnedGroupStart (core : Nat) (entry : DWord) : Statement (.spawnedGroupStart core entry) := fun h => nomatch h

theorem gridComplete (grid : Nat) : Statement (.gridComplete grid) := fun h => nomatch h

theorem permitGrant (copy : Nat) : Statement (.permitGrant copy) := fun h => nomatch h

theorem tileLanding (copy tile : Nat) : Statement (.tileLanding copy tile) := fun h => nomatch h

theorem copyCredit (copy tile : Nat) : Statement (.copyCredit copy tile) := fun h => nomatch h

theorem matrixOpStart (core : Nat) : Statement (.matrixOpStart core) := fun h => nomatch h

theorem matrixOpComplete (core op : Nat) : Statement (.matrixOpComplete core op) := fun h => nomatch h

theorem convocationEnd (team : Nat) (tag : BitVec 4) : Statement (.convocationEnd team tag) := fun h => nomatch h

theorem timerTrap (team : Nat) : Statement (.timerTrap team) := fun h => nomatch h

theorem handlerEntry (team : Nat) : Statement (.handlerEntry team) := fun h => nomatch h

theorem teamResume (team : Nat) : Statement (.teamResume team) := fun h => nomatch h

theorem fqansRetry (seq : BitVec 63) : Statement (.fqansRetry seq) := fun h => nomatch h

theorem fqansFail (seq : BitVec 63) : Statement (.fqansFail seq) := fun h => nomatch h

theorem contextDrainComplete (ctx : BitVec 4) : Statement (.contextDrainComplete ctx) := fun h => nomatch h

theorem preemptDeadline (ctx : BitVec 4) : Statement (.preemptDeadline ctx) := fun h => nomatch h

theorem create (m : MCmd) : Statement (.create m) := fun h => nomatch h

theorem destroy (m : MCmd) : Statement (.destroy m) := fun h => nomatch h

theorem key (m : MCmd) : Statement (.key m) := fun h => nomatch h

theorem inval (m : MCmd) : Statement (.inval m) := fun h => nomatch h

theorem preempt (m : MCmd) : Statement (.preempt m) := fun h => nomatch h

theorem restore (m : MCmd) : Statement (.restore m) := fun h => nomatch h

theorem freset (m : MCmd) : Statement (.freset m) := fun h => nomatch h

theorem retain (m : MCmd) : Statement (.retain m) := fun h => nomatch h

theorem unretain (m : MCmd) : Statement (.unretain m) := fun h => nomatch h

theorem retentionComplete (band : BitVec 4) : Statement (.retentionComplete band) := fun h => nomatch h

theorem reshape (m : MCmd) : Statement (.reshape m) := fun h => nomatch h

theorem lose (m : MCmd) : Statement (.lose m) := fun h => nomatch h

theorem topo (m : MCmd) : Statement (.topo m) := fun h => nomatch h

theorem attest (m : MCmd) : Statement (.attest m) := fun h => nomatch h

theorem wreset (m : MCmd) : Statement (.wreset m) := fun h => nomatch h

theorem update (m : MCmd) : Statement (.update m) := fun h => nomatch h

theorem start (stream : BitVec 6) (value : DWord) : Statement (.start stream value) := fun h => nomatch h

theorem irqClear (value : DWord) : Statement (.irqClear value) := fun h => nomatch h

theorem eqptrHead (value : DWord) : Statement (.eqptrHead value) := fun h => nomatch h

theorem fqptrHead (value : DWord) : Statement (.fqptrHead value) := fun h => nomatch h

theorem pcapWrite (value : DWord) : Statement (.pcapWrite value) := fun h => nomatch h

theorem tmoutWrite (value : DWord) : Statement (.tmoutWrite value) := fun h => nomatch h

theorem rmctlGo (value : DWord) : Statement (.rmctlGo value) := fun h => nomatch h

theorem registerWrite (offset : BitVec 16) (value : DWord) : Statement (.registerWrite offset value) := fun h => nomatch h

theorem powerStep (up : Bool) : Statement (.powerStep up) := fun h => nomatch h

theorem dieThermalLimit (die : BitVec 2) : Statement (.dieThermalLimit die) := fun h => nomatch h

theorem dieThermalTrip (die : BitVec 2) : Statement (.dieThermalTrip die) := fun h => nomatch h

theorem stackLost (stack : Nat) (why : LossReason) : Statement (.stackLost stack why) := fun h => nomatch h

theorem stackTimeout (stack : Nat) : Statement (.stackTimeout stack) := fun h => nomatch h

theorem patrolScrub (stack row : Nat) (finding : ScrubFinding) : Statement (.patrolScrub stack row finding) := fun h => nomatch h

theorem journalApply (stack idx : Nat) : Statement (.journalApply stack idx) := fun h => nomatch h

theorem writeBack (line : Nat) : Statement (.writeBack line) := fun h => nomatch h

theorem capacityPackageLost (package : Nat) : Statement (.capacityPackageLost package) := fun h => nomatch h

theorem portStateChange (port : Nat) (state : PortState) : Statement (.portStateChange port state) := fun h => nomatch h

theorem peerTimeout (tag : Nat) : Statement (.peerTimeout tag) := fun h => nomatch h

theorem peerAccessRequest (r : PeerReq) : Statement (.peerAccessRequest r) := fun h => nomatch h

theorem peerResponse (tag : Nat) (r : Response) : Statement (.peerResponse tag r) := fun h => nomatch h

theorem put (p : CollPacket) : Statement (.put p) := fun h => nomatch h

theorem get (p : CollPacket) : Statement (.get p) := fun h => nomatch h

theorem getResponse (tag : Nat) (data : List DWord) : Statement (.getResponse tag data) := fun h => nomatch h

theorem remoteReduction (p : CollPacket) : Statement (.remoteReduction p) := fun h => nomatch h

theorem forward (c : Chunk) : Statement (.forward c) := fun h => nomatch h

theorem addAndForward (c : Chunk) : Statement (.addAndForward c) := fun h => nomatch h

theorem final (c : Chunk) : Statement (.final c) := fun h => nomatch h

theorem scaleMax (c : Chunk) : Statement (.scaleMax c) := fun h => nomatch h

theorem plan (c : Chunk) : Statement (.plan c) := fun h => nomatch h

theorem chunkCredit (c : Chunk) : Statement (.chunkCredit c) := fun h => nomatch h

theorem collectiveComplete (id : Nat) : Statement (.collectiveComplete id) := fun h => nomatch h

theorem collectiveTimeout (id : Nat) : Statement (.collectiveTimeout id) := fun h => nomatch h

theorem hostBar2Read (pa size : Nat) : Statement (.hostBar2Read pa size) := fun h => nomatch h

theorem hostBar2Write (pa : Nat) (data : List Byte) (poisoned : Bool) : Statement (.hostBar2Write pa data poisoned) := fun h => nomatch h

theorem hostAtomicop (pa : Nat) (op : HostAtomic) (wide : Bool) (operand newValue : DWord) : Statement (.hostAtomicop pa op wide operand newValue) := fun h => nomatch h

theorem fetchaddComplete (id : Nat) : Statement (.fetchaddComplete id) := fun h => nomatch h

theorem cpRestart (die : BitVec 2) (why : BitVec 4) : Statement (.cpRestart die why) := fun h => nomatch h

theorem cpWatchdog (die : BitVec 2) : Statement (.cpWatchdog die) := fun h => nomatch h

theorem storePerformed (team grp idx : Nat) : Statement (.storePerformed team grp idx) := fun h => nomatch h

theorem undefinedEncoding (cause : BitVec 8) : Statement (.undefinedEncoding cause) := fun h => nomatch h

theorem reservedCommand (c : Command) : Statement (.reservedCommand c) := fun h => nomatch h

theorem hostLineOwnership (line : Nat) (take : Bool) (data : List Byte) : Statement (.hostLineOwnership line take data) := fun h => nomatch h

theorem reshapeComplete : Statement (.reshapeComplete) := fun h => nomatch h

theorem coldReset : Statement (.coldReset) := fun h => nomatch h

theorem hostLinkDown : Statement (.hostLinkDown) := fun h => nomatch h

theorem hostLinkUp : Statement (.hostLinkUp) := fun h => nomatch h

theorem rootFirmwareFault : Statement (.rootFirmwareFault) := fun h => nomatch h

theorem hostCompletionTimeout : Statement (.hostCompletionTimeout) := fun h => nomatch h

end Sys2Proof.Laws.RoundTrip
end

