-- ==== Sys2Proof/Tests/Slice0.lean ====
section
/-!
SUPPORT. Tests on small states: words and terms that the decoder and the well-formedness check take or refuse, a witness
for the hypotheses of every statement that has some, and single steps whose results the spec gives.
-/
set_option Elab.async false

namespace Sys2Proof.Tests
open Sys2Proof.Machine

/-! ### Small states and operands -/

/-- The guard p7 or q7, which always holds. -/
def always : Guard := ⟨7, false⟩

/-- Fields of the three forms. -/
def long (d a f b c m : Nat) (la : Nat := 0) (h : Nat := 0) (k : Bool := false) : Long :=
  {
    g := always, d := BitVec.ofNat 8 d, a := BitVec.ofNat 8 a, f := BitVec.ofNat 3 f, b := BitVec.ofNat 8 b,
    c := BitVec.ofNat 8 c, la := BitVec.ofNat 4 la, m := BitVec.ofNat 4 m, ka := k, kb := false, kc := false, x := false,
    xi := 0, h := BitVec.ofNat 2 h }
def short (d a f : Nat) : Short := { g := always, d := BitVec.ofNat 8 d, a := BitVec.ofNat 8 a, f := BitVec.ofNat 3 f }
def imm (d a f : Nat) (x : Word) : Imm :=
  { g := always, d := BitVec.ofNat 8 d, a := BitVec.ofNat 8 a, f := BitVec.ofNat 3 f, imm := x }

/-- An address of the issuing team's own scratchpad (R103). -/
def ownScratch : Nat := 0x7F000000

/-- The team of one group after bring-up, about to issue: the first GiB is node 0's, the second the host's memory, the
third that of peer 5 and the fourth a window; the team has one unit of scratchpad and all of the accumulator. Lane registers 12 and g5 hold
`ownScratch`, g6 a host address, g9 an address of node 0, g10 one of the window, g20 128, every other register 0. -/
def baseGroup : Group :=
  { Group.start 1 0 0 0 256 0 0 0x1000 0xFFFFFFFF#32 with
    g := [(5, 0x7F000000), (6, 0x40000000), (9, 0x3000), (10, 0xC0000000), (20, 128)],
    v := (List.range 32).map fun l => (32 * 12 + l, 0x7F000000) }

def base : State :=
  let s := State.reset.placeWord 32 0
  { s with
    agenda := [], issuer := .split 1 0 0,
    groups := [baseGroup],
    teams := [{ probeTeam with partword := 0x80102 }],
    host := { s.host with linkUp := true },
    fabric := { s.fabric with topology := [(5, [0])], ports := List.replicate 36 .up },
    storage := { s.storage with
      mem := SMap.setRun (SMap.setRun (SMap.setRun s.storage.mem 0x102008 (leBytes 8 0x00200000000001C7)) 0x102010
        (leBytes 8 0x01500000000001C7)) 0x102018 (leBytes 8 0x00300000000001C7) } }

/-- The state after a step that went on. -/
def after (o : Host.Outcome State Fault Refusal) : State :=
  match o with
  | .next s => s
  | _ => State.reset

/-- `p` of what an instruction works on where it is ready in `s` and the group is canonical. -/
def readyWith (s : State) (i : Instr) (p : Here → Bool) : Bool :=
  match s.ready i with
  | some k => k.grp.tidy && p k
  | none => false

def isReady (i : Instr) : Bool := readyWith base i fun _ => true

/-- `p` of a value that is there. -/
def holds {α : Type} (o : Option α) (p : α → Bool) : Bool :=
  match o with
  | some x => p x
  | none => false
def holdsOk {ε α : Type} (o : Except ε α) (p : α → Bool) : Bool :=
  match o with
  | .ok x => p x
  | .error _ => false
def isOk {ε α : Type} (o : Except ε α) : Bool := holdsOk o fun _ => true

/-- `f` of the issuing group. -/
def withGroup (s : State) (f : Group → Group) : State := s.modGroup 1 0 f

/-! ### Well-formedness -/

/-- One well-formed term of each lane integer instruction. -/
def laneTerms : List Instr := [
  .nop (short 0 0 0), .iadd (long 8 4 0 2 0 0), .isub (long 8 4 0 2 0 0), .imul (long 8 4 0 2 0 0), .imad (long 8 4 0 2 0 0),
  .imulhi (long 8 4 0 2 0 0), .imin (long 8 4 0 2 0 0), .imax (long 8 4 0 2 0 0), .iabs (long 8 4 0 0 0 0),
  .and (long 8 4 0 2 0 0), .or (long 8 4 0 2 0 0), .xor (long 8 4 0 2 0 0), .andn (long 8 4 0 2 0 0),
  .shl (long 8 4 0 2 0 0), .shr (long 8 4 0 2 0 0), .sar (long 8 4 0 2 0 0), .fsh (long 8 4 0 2 0 8),
  .popc (long 8 4 0 0 0 0), .clz (long 8 4 0 0 0 0), .ctz (long 8 4 0 0 0 0), .brev (long 8 4 0 0 0 0),
  .bfx (long 8 4 0 2 0 0), .bfi (long 8 4 0 2 0 0), .perm (long 8 4 0 2 0 8), .lea (long 8 4 0 2 0 0),
  .icmp (long 0 0 0 0 0 0), .sel (long 8 4 0 2 0 0), .mov (long 8 4 0 0 0 0), .icvt (long 8 4 0 0 0 0),
  .plop (long 0 0 0 0 0 0), .setx (long 0 0 0 0 0 0), .addx (long 0 0 0 0 0 0), .movi (imm 8 0 0 8), .iaddi (imm 8 4 0 8),
  .imuli (imm 8 4 0 8), .iandi (imm 8 4 0 8), .iori (imm 8 4 0 8), .ixori (imm 8 4 0 8), .icmpi (imm 0 4 0 8),
  .setxi (imm 0 0 0 8)]

theorem witness_roundTrip_laneTerms : laneTerms.all Instr.wellFormed = true := by decide +kernel

/-- The hypotheses of every statement that asks no more than that the instruction is ready. -/
theorem witness_ready_laneTerms : (laneTerms.filter fun i => !isReady i) = [] := by decide +kernel

/-- One well-formed term of each floating-point and block instruction. -/
def floatTerms : List Instr := [
  .fadd (long 8 4 0 2 0 0), .fsub (long 8 4 0 2 0 0), .fmul (long 8 4 0 2 0 0), .ffma (long 8 4 0 2 0 0),
  .fdiv (long 8 4 0 2 0 0), .fsqrt (long 8 4 0 0 0 0), .fmin (long 8 4 0 2 0 0), .fmax (long 8 4 0 2 0 0),
  .fsgn (long 8 4 0 2 0 0), .fcmp (long 0 0 0 0 0 0), .frcp (long 8 4 0 0 0 0), .frsq (long 8 4 0 0 0 0),
  .fexp2 (long 8 4 0 0 0 0), .flog2 (long 8 4 0 0 0 0), .fsin (long 8 4 0 0 0 0), .fcos (long 8 4 0 0 0 0),
  .fclass (long 8 4 0 0 0 0), .fcvt (long 8 4 4 2 0 0), .f2i (long 8 4 0 0 0 0), .i2f (long 8 4 0 0 0 0),
  .frnd (long 8 4 0 0 0 0), .bmax (long 8 4 0 0 0 0), .bscale (long 7 4 0 0 5 1), .bquant (long 8 4 0 2 0 5),
  .bdequant (long 8 4 0 2 0 5), .bnf (long 0 0 0 0 0 0), .unpk (long 20 6 0 0 1 0 4 0 true), .lxch (long 8 4 0 2 0 8),
  .lpred (long 8 4 2 0 0 0), .lred (long 8 4 0 0 0 0), .lscan (long 8 4 0 0 0 0)]

theorem witness_roundTrip_floatTerms : floatTerms.all Instr.wellFormed = true := by decide +kernel

/-- The hypotheses of every statement that asks no more than that the instruction is ready. -/
theorem witness_ready_floatTerms : (floatTerms.filter fun i => !isReady i) = [] := by decide +kernel

/-- One well-formed term of each memory and lane system instruction. -/
def memoryTerms : List Instr := [
  .ld (long 8 4 0 2 0 0), .st (long 8 4 0 2 0 0), .lds (long 8 4 0 2 0 0), .sts (long 8 4 0 2 0 0), .stm (long 8 4 0 2 0 0),
  .atom (long 8 4 0 2 0 0), .atoms (long 8 4 0 2 0 0), .red (long 0 0 0 0 0 0), .reds (long 0 0 0 0 0 0),
  .gath (long 8 4 0 12 0 0 0 0 true), .spawn (long 0 0 0 0 0 0), .done (short 0 0 0), .collPut (long 8 4 0 2 0x30 0),
  .collGet (long 8 4 1 2 0x30 0), .collRed (long 8 4 2 2 0 0), .lsr (short 8 4 0)]

theorem witness_roundTrip_memoryTerms : memoryTerms.all Instr.wellFormed = true := by decide +kernel

/-- The hypotheses of every statement that asks no more than that the instruction is ready. -/
theorem witness_ready_memoryTerms : (memoryTerms.filter fun i => !isReady i) = [] := by decide +kernel

/-- One well-formed term of each group instruction. -/
def groupTerms : List Instr := [
  .gnop (short 0 0 0), .gadd (long 8 4 0 2 0 0), .gsub (long 8 4 0 2 0 0), .gmul (long 8 4 0 2 0 0),
  .gmad (long 8 4 0 2 0 0), .gmin (long 8 4 0 2 0 0), .gmax (long 8 4 0 2 0 0), .gand (long 8 4 0 2 0 0),
  .gor (long 8 4 0 2 0 0), .gxor (long 8 4 0 2 0 0), .gshl (long 8 4 0 2 0 0), .gshr (long 8 4 0 2 0 0),
  .gsar (long 8 4 0 2 0 0), .gpopc (long 8 4 0 0 0 0), .gclz (long 8 4 0 0 0 0), .gbfx (long 8 4 0 2 0 0),
  .gbfi (long 8 4 0 2 0 0), .gcmp (long 0 0 0 0 0 0), .gsel (long 8 4 0 2 0 0), .gmov (long 8 4 0 0 0 8),
  .gplop (long 0 0 0 0 0 0), .gsr (short 8 4 0), .gsw (short 13 4 0), .gmovi (imm 8 0 0 8), .gaddi (imm 8 4 0 8),
  .gandi (imm 8 4 0 8), .gcmpi (imm 0 4 0 8)]

theorem witness_roundTrip_groupTerms : groupTerms.all Instr.wellFormed = true := by decide +kernel

/-- The hypotheses of every statement that asks no more than that the instruction is ready. -/
theorem witness_ready_groupTerms : (groupTerms.filter fun i => !isReady i) = [] := by decide +kernel

/-- One well-formed term of each control, engine and matrix instruction. -/
def controlTerms : List Instr := [
  .br (imm 0 4 1 8), .brx (short 0 4 0), .call (imm 8 0 0 8), .ret (short 0 4 0), .join (imm 0 0 0 8), .exit (short 0 4 1),
  .trap (short 0 4 0), .gld (long 8 4 0 2 0 0), .gst (long 8 4 0 2 0 0), .gbarInit (long 0 0 0 0 0 0),
  .gbarArrive (long 8 4 1 0 0 0), .gbarExpect (long 8 4 2 2 0 0), .gbarExpa (long 8 4 3 2 0 0), .gbarWait (long 0 0 4 0 0 0),
  .gbarTry (long 8 4 5 2 0 0), .fence (short 0 4 0), .drain (long 0 0 0 0 0 0), .cpyaB2t (long 8 4 0 2 0 0),
  .cpyaT2b (long 8 4 1 2 0 0), .cpyaB2b (long 8 4 2 2 0 0), .cpyaFlat (long 8 4 3 2 0 0), .dinv (long 0 0 0 0 0 0),
  .dinvAll (long 0 0 1 0 0 0), .pub (long 8 4 0 0 0 0), .gcollAr (long 0 0 0 0 0 0), .gcollRs (long 0 0 1 0 0 0),
  .gcollAg (long 0 0 2 0 0 0), .conv (long 8 0 0 0 0 0), .convDis (long 0 0 3 0 0 0), .mma (long 8 4 0 2 0 0),
  .mmaSp (long 4 40 0 6 7 5 0 1), .prune (long 8 4 0 2 0 0), .pruneT (long 8 4 1 2 0 0), .accZero (long 8 0 0 0 0 0),
  .accLd (long 8 4 1 2 0 2), .accSt (long 8 4 2 2 0 0), .accAdd (long 8 4 3 2 0 2), .mcommit (short 8 0 0),
  .mwait (short 0 4 0)]

theorem witness_roundTrip_controlTerms : controlTerms.all Instr.wellFormed = true := by decide +kernel

/-- The hypotheses of every statement that asks no more than that the instruction is ready. -/
theorem witness_ready_controlTerms : (controlTerms.filter fun i => !isReady i) = [] := by decide +kernel

/-- For every check of `Instr.wellFormed` a term that it refuses: an F of another constructor, a step that is not fetched,
guard p7 negated, a reserved value or pair, an odd field of a pair, a group register above g63, a lookahead count, a K bit
or an index where there is none, a reserved field that is not zero, a predicate above p7, a special register above the last. -/
theorem test_illFormed :
    ([.collPut (long 8 4 1 2 0x30 0), .collGet (long 8 4 0 2 0x30 0), .gbarTry (long 8 4 0 2 0 0), .cpyaFlat (long 8 4 0 2 0 0),
      .dinvAll (long 0 0 0 0 0 0), .gcollAg (long 0 0 0 0 0 0), .convDis (long 0 0 0 0 0 0), .pruneT (long 8 4 0 2 0 0),
      .accAdd (long 8 4 0 2 0 2),
      .splitMerge 0 0,
      .iadd { long 8 4 0 2 0 0 with g := ⟨7, true⟩ }, .iadd (long 8 4 0 2 0 13), .imul (long 8 4 0 2 0 6), .fadd (long 8 4 4 2 0 0),
      .iadd (long 9 4 0 2 0 2), .gadd (long 64 4 0 2 0 0), .iadd (long 8 4 0 2 0 0 1), .iadd { long 8 4 0 2 0 0 with xi := 1 },
      .gadd (long 8 4 0 2 0 0 0 0 true), .iadd (long 8 4 2 2 0 0), .iadd (long 8 4 0 2 1 0), .icmp (long 8 4 0 2 0 0),
      .lsr (short 8 200 0), .nop (short 1 0 0)] : List Instr).filter Instr.wellFormed = [] := by decide +kernel

/-! ### Words written out from the spec's encodings -/

/-- The program of R201's worked case: lsr v0, LANEID; movi v1, 0x3F80_0000; iadd.i32 v2, v0, g5; (p2) fadd.f32.rtz v3,
v[x1+40], v1. -/
theorem test_decode_lane :
    decodeWords [0x2EF00000] = .lsr (short 0 0 0) ∧
    decodeWords [0x50700800, 0x3F800000] = .movi (imm 1 0 0 0x3F800000) ∧
    decodeWords [0x40F01000, 0x05000040] = .iadd { long 2 0 0 5 0 0 with kb := true } ∧
    decodeWords [0x54201941, 0x01000114] = .fadd { long 3 40 1 1 0 1 with g := ⟨2, false⟩, x := true, xi := 1 } := by
  decide +kernel

/-- ld.b32 v8, [d4] (OP 0x50, F 4), lds (0x52), atom (0x55), spawn (0x5A), lxch (0x48): word 0 is L, OP << 23, G << 20,
D << 11, A << 3 and F; word 1 is B << 24 and on. -/
theorem test_decode_memory :
    decodeWords [0x68704024, 0x00000000] = .ld (long 8 4 4 0 0 0) ∧
    decodeWords [0x69704024, 0x00000000] = .lds (long 8 4 4 0 0 0) ∧
    decodeWords [0x6AF04020, 0x02000000] = .atom (long 8 4 0 2 0 0) ∧
    decodeWords [0x6D700000, 0x00000000] = .spawn (long 0 0 0 0 0 0) ∧
    decodeWords [0x64704020, 0x02000800] = .lxch (long 8 4 0 2 0 8) := by decide +kernel

/-- fence.dev (R283), gbar.expa.rel.team and cpya.b2t (chapter 09), gcoll.ar [g4] and gcoll.rs [g4] (R334), gadd g8, g4, g2
(OP 0x01). -/
theorem test_decode_group :
    decodeWords [0x95F00040] = .fence (short 0 8 0) ∧
    decodeWords [0xD5704853, 0x0F800400] = .gbarExpa (long 9 10 3 15 0x80 4) ∧
    decodeWords [0xD6F07018, 0x0C0B0000] = .cpyaB2t (long 14 3 0 12 11 0) ∧
    decodeWords [0xD8700020, 0] = .gcollAr (long 0 4 0 0 0 0) ∧ decodeWords [0xD8700021, 0] = .gcollRs (long 0 4 1 0 0 0) ∧
    decodeWords [0xC0F04020, 0x02000000] = .gadd (long 8 4 0 2 0 0) := by decide +kernel

/-- conv g2, 3, 2; prune.t.e4m3 v60, v40, g7, 2, 4; mma.sp.e4m3.e3m2.pin a4, v40, [g6], g7; mwait g5 (chapter 10). -/
theorem test_decode_matrix :
    decodeWords [0xD8F01001, 0x00030000] = .conv (long 2 0 1 0 3 0) ∧
    decodeWords [0xDA71E141, 0x07020500] = .pruneT (long 60 40 1 7 2 5) ∧
    decodeWords [0xD9F02140, 0x06070501] = .mmaSp (long 4 40 0 6 7 5 0 1) ∧
    decodeWords [0x9BF00028] = .mwait (short 0 5 0) := by decide +kernel

/-- Words that no row has: cause 0x02 (R362). -/
theorem test_decode_undefined :
    decodeWords [0x30000000] = .undefinedEncoding 0x02 ∧ decodeWords [0x8BF00000] = .undefinedEncoding 0x02 := by decide +kernel

/-! ### Single steps on the spec's own numbers -/

/-- Lane 0's register 8 after a lane instruction on v4 and v2 in `base`. -/
def laneResult (i : Instr) (a b : Word) : Word :=
  ((after (exec i (withGroup base fun h => (h.setLreg 4 0 a).setLreg 2 0 b))).groups.headD baseGroup).lreg 8 0

/-- R206: iadd.i16 and iadd.n16 of 0x7FF0_8005 and 0x0020_FFF0, without and with .sat. -/
theorem test_iadd :
    laneResult (.iadd (long 8 4 0 2 0 4)) 0x7FF08005 0x0020FFF0 = 0x80107FF5 ∧
    laneResult (.iadd (long 8 4 1 2 0 4)) 0x7FF08005 0x0020FFF0 = 0x7FFF8000 ∧
    laneResult (.iadd (long 8 4 1 2 0 5)) 0x7FF08005 0x0020FFF0 = 0x8010FFFF := by decide +kernel

/-- R209: fsh of A = 0x8765_4321 and B = 0x0000_00AB by immediates 12 and 40. -/
theorem test_fsh :
    laneResult (.fsh (long 8 4 2 2 12 8)) 0x87654321 0xAB = 0x0AB87654 ∧
    laneResult (.fsh (long 8 4 3 2 12 8)) 0x87654321 0xAB = 0x000AB876 ∧
    laneResult (.fsh (long 8 4 2 2 40 8)) 0x87654321 0xAB = 0xAB876543 ∧
    laneResult (.fsh (long 8 4 6 2 40 8)) 0x87654321 0xAB = 0xAB := by decide +kernel

/-- R243: 1.0 / 3.0 in binary64, rounded up and to nearest. -/
theorem test_fdiv :
    f64.roundCode .up (FVal.div (f64.value 0x3FF0000000000000) (f64.value 0x4008000000000000)) = 0x3FD5555555555556 ∧
    f64.roundCode .ne (FVal.div (f64.value 0x3FF0000000000000) (f64.value 0x4008000000000000)) = 0x3FD5555555555555 := by
  decide +kernel

/-- R261: lred.fadd.f32 of 2^24 in lane 0, 1.0 in lanes 1 to 3 and +0 in the rest gives 0x4B80_0001. -/
theorem test_lred :
    ((after (exec (.lred (long 8 4 0 0 6 1)) (withGroup base fun h =>
      (((h.setLreg 4 0 0x4B800000).setLreg 4 1 0x3F800000).setLreg 4 2 0x3F800000).setLreg 4 3 0x3F800000))).groups.headD
        baseGroup).greg 8 = 0x4B800001 := by decide +kernel

/-- R259: with 100 + i in lane i and w = 8, lxch.rot by 3 gives lane 6 the value 101 and lane 13 the value 108. -/
theorem test_lxch :
    let t := after (exec (.lxch (long 8 4 5 3 3 8)) (withGroup base fun h =>
      (List.range 32).foldl (fun h l => h.setLreg 4 l (BitVec.ofNat 32 (100 + l))) h))
    ((t.groups.headD baseGroup).lreg 8 6).toNat = 101 ∧ ((t.groups.headD baseGroup).lreg 8 13).toNat = 108 := by
  decide +kernel

/-! ### Witnesses: the step, registers -/

def bytesOf (r : FetchRes) : Option (List Byte) :=
  match r with
  | .bytes b => some b
  | _ => none

/-- The hypotheses of `StepRunsDecodedInstruction`: split 0 may issue, and the words at its program counter can be read; `two`
says that L is 1. -/
def stepHypotheses (s : State) (two : Bool) : Bool :=
  let s1 : State := { s with free := s.free + 1, agenda := [] }
  decide (s.agenda = [.issue 1 0 0]) && decide (s.unread ≤ 256) && holds (s.team? 1) fun x => holds (s.group? 1 0) fun h => holds (h.split? 0) fun p =>
    mayIssue x h p && holds (bytesOf (s1.fetchWord x.ctx (2, 0) p.pc)) fun b =>
      (b.getD 3 0).getLsbD 6 = two && (!two || (bytesOf (s1.fetchWord x.ctx (2, 0) (p.pc + 4))).isSome)

theorem witness_stepRuns :
    stepHypotheses (State.reset.withFetchWord 32 0x00700000) false = true ∧
    stepHypotheses (State.reset.withFetchWord 64 0x0200000040F04020) true = true ∧
    (State.reset.withFetchWord 32 0x00700000).keyless 0 = true := by decide +kernel

/-- `base` with stream 0 running in context 0 at 0x1000, its command processor about to act. -/
def streamState : State :=
  { base with
    agenda := [.command 0], issuer := .stream 0,
    streams := base.streams.set 0 { base.stream 0 with running := true, ctx := 0, pc := 0x1000, wait := .none } }

theorem witness_stepRunsCommands :
    (streamState.stream 0).running = true ∧ (streamState.stream 0).wait = .none ∧
    (bytesOf (({ streamState with free := streamState.free + 1, agenda := [] } : State).cpRead 0 0x1000 32)).isSome = true := by
  decide +kernel

/-- A reserved field that is not zero (0x03), a register above a budget of 8 (0x04). -/
theorem witness_issueRaisesCause :
    (holds base.issuing fun e => mayIssue e.1 e.2.1 e.2.2 && !windowWaits e.2.1 e.2.2 &&
      holds (Instr.iadd (long 8 4 2 2 0 0)).form fun f =>
        issueCause (.iadd (long 8 4 2 2 0 0)) e.2.1 e.2.2 f.1 f.2.1 f.2.2 = some 0x03) = true ∧
    (holds (withGroup base fun h => { h with budget := 8 }).issuing fun e => holds (Instr.iadd (long 8 4 0 2 0 0)).form fun f =>
      issueCause (.iadd (long 8 4 0 2 0 0)) e.2.1 e.2.2 f.1 f.2.1 f.2.2 = some 0x04) = true := by decide +kernel

theorem witness_falseGuard :
    (holds base.issuing fun e => mayIssue e.1 e.2.1 e.2.2 && !windowWaits e.2.1 e.2.2 && !e.2.1.inHandler &&
      holds (Instr.gadd { long 8 4 0 2 0 0 with g := ⟨0, false⟩ }).form fun f =>
        !f.1 && issueCause (.gadd { long 8 4 0 2 0 0 with g := ⟨0, false⟩ }) e.2.1 e.2.2 f.1 f.2.1 f.2.2 = none &&
          !guardHolds e.2.1 f.2.1.g) = true := by decide +kernel

theorem reset_legal : State.reset.Legal where
  memory := by decide
  teams := by intro x hx; cases hx
  groups := by intro h hh; cases hh
  mgmt :=
    { cap := by
        unfold Mgmt.capLegal
        show 600 ≤ powerCeiling Config.orderingCode ∧ powerCeiling Config.orderingCode ≤ powerCeiling Config.orderingCode
        unfold powerCeiling
        split <;> decide
      clock := by unfold Mgmt.clockLegal; decide
      timeouts := by unfold Mgmt.timeoutsLegal; decide
      sars := by decide }
  streams := by decide
  ctxs := ⟨List.Pairwise.nil, by intro c hc; cases hc⟩

theorem witness_everyStepKeepsLegal :
    State.reset.Legal ∧ (match step State.reset with
      | .next _ => true
      | _ => false) = true := ⟨reset_legal, by decide +kernel⟩

theorem witness_onlyFirmwareWrites :
    State.reset.Legal ∧ Claims.firmwareStep (.splitMerge 0 0) = false ∧ (match exec (.splitMerge 0 0) State.reset with
      | .next _ => true
      | _ => false) = true := ⟨reset_legal, by decide +kernel, by decide +kernel⟩

/-- mov to an indexed register, lpred's two kinds of result, gsw of TIMER and of TRAPPC with a good, a misaligned and a
non-canonical value. -/
theorem witness_registerForms :
    [Instr.mov { long 8 4 1 0 0 0 with x := true }, .lpred (long 1 2 0 0 0 0), .lpred (long 8 4 2 0 0 0), .gsw (short 13 4 0),
      .gsw (short 17 4 0)].all isReady = true ∧
    readyWith base (.gsw (short 17 4 0)) (fun k => canonical (k.grp.greg 4) && (k.grp.greg 4).toNat % 4 = 0) = true ∧
    readyWith (withGroup base fun h => h.setG 4 2) (.gsw (short 17 4 0)) (fun k => (k.grp.greg 4).toNat % 4 ≠ 0) = true ∧
    readyWith (withGroup base fun h => h.setG 4 0x8000000000000000) (.gsw (short 17 4 0))
      (fun k => !canonical (k.grp.greg 4)) = true := by decide +kernel


/-! ### Witnesses: memory -/

/-- The group's queued writes that `p` picks performed. -/
def performed (s : State) (k : Here) (p : QEntry → Bool) : Option State := s.performUpTo k.team k.grp.gid p (s.queueOf k)

/-- The hypotheses of `LoadResults`, with a place that satisfies `p`. -/
def loadHypotheses (s : State) (row : (Long → Instr) × (Long → Bool) × Bool × (Here → Bool → List (Nat × DWord))) (l : Long)
    (p : Loc → Bool) : Bool :=
  readyWith s (row.1 l) fun k =>
    let s0 := s.issued (row.1 l) k
    let glob := row.2.1 l
    holdsOk (s0.probes k glob .read (widthBytes l.f) (fun _ => none)
      ((row.2.2.2 k glob).map fun e => (e.1, widthBytes l.f, e.2))) fun sites => sites.any fun e => p e.loc

def isMem : Loc → Bool
  | .mem _ _ _ => true
  | _ => false
def isHost : Loc → Bool
  | .host _ => true
  | _ => false
def isPeer : Loc → Bool
  | .peer _ _ => true
  | _ => false
def isScr : Loc → Bool
  | .scr _ _ => true
  | _ => false

/-- `base` with `x` in lane register pair d20 of every lane. -/
def withPair (x : Nat) : State := withGroup base fun h =>
  { h with v := (List.range 32).foldl (fun v l => SMap.set (SMap.set v (32 * 20 + l) (BitVec.ofNat 32 x)) (32 * 21 + l)
      (BitVec.ofNat 32 (x / 2 ^ 32))) h.v }

/-- The state with lane 0 alone active. -/
def oneLane (s : State) : State := withGroup s fun h => { h with splits := h.splits.map fun p => { p with lanes := 1 } }

/-- The last loads of each width that the first page allows, from memory, the host, a peer and the scratchpad. -/
theorem witness_loadResults :
    loadHypotheses (oneLane base) (.ld, fun _ => true, false, fun k _ => k.eas true) (long 8 4 6 2 0 0) isMem = true ∧
    loadHypotheses (oneLane (withPair 0x7FFFFFE8)) (.ld, fun _ => true, false, fun k _ => k.eas true) (long 8 20 5 2 0 0) isHost = true ∧
    loadHypotheses (oneLane (withPair 0x80000000)) (.ld, fun _ => true, false, fun k _ => k.eas true) (long 8 20 0 2 0 0) isPeer = true ∧
    loadHypotheses (oneLane base) (.lds, fun _ => false, false, fun k _ => k.eas false) (long 8 12 4 2 0 0) isScr = true ∧
    loadHypotheses (oneLane base) (.gld, fun l => !l.c.getLsbD 0, true, fun k g => [(0, k.gea g)]) (long 8 4 5 0 0 0) isMem = true ∧
    loadHypotheses (oneLane base) (.gld, fun l => !l.c.getLsbD 0, true, fun k g => [(0, k.gea g)]) (long 8 5 5 0 1 0) isScr = true := by
  decide +kernel

/-- The hypotheses of the first part of `StoresAndReductionsEnterQueue`. -/
def storeHypotheses (s : State)
    (row : (Long → Instr) × (Long → Bool) × (Long → Nat) × (Here → Bool → List (Nat × DWord × List Byte))) (l : Long)
    (p : Loc → Bool) : Bool :=
  readyWith s (row.1 l) fun k =>
    let glob := row.2.1 l
    holdsOk ((s.issued (row.1 l) k).probes k glob .write (row.2.2.1 l) (fun _ => none)
      ((row.2.2.2 k glob).map fun e => (e.1, e.2.2.length, e.2.1))) fun sites => sites.any fun e => p e.loc

/-- The hypotheses of its second part and of the first part of `AtomicResults`. -/
def queuedAtom (s : State) (row : (Long → Instr) × Bool × Bool) (l : Long) : Bool :=
  let ty := atomTyOf (ctlType l.c)
  readyWith s (row.1 l) fun k => acqScope l = none &&
    (holdsOk ((s.issued (row.1 l) k).probes k row.2.1 .write (atomSize ty) (atomTarget (atomOpOf (ctlOp l.c)) ty)
      ((laneList k.mask).map fun lane => (lane, atomSize ty, k.base row.2.1 lane))) fun sites => !sites.isEmpty)

/-- `base` with all ones in lane register 2, which masks all eight bytes of a masked store. -/
def masked : State := withGroup base fun h =>
  { h with v := (List.range 32).foldl (fun v l => SMap.set v (32 * 2 + l) 0xFF#32) h.v }

theorem witness_storesAndReductions :
    storeHypotheses (oneLane base) (.st, fun _ => true, fun l => widthBytes l.f, fun k _ => k.stores true) (long 8 4 6 2 0 0) isMem = true ∧
    storeHypotheses (oneLane base) (.sts, fun _ => false, fun l => widthBytes l.f, fun k _ => k.stores false) (long 8 12 0 2 0 0) isScr = true ∧
    storeHypotheses (oneLane masked) (.stm, fun l => !l.f.getLsbD 0, fun _ => 1, fun k g => k.maskedStores g) (long 8 4 0 2 0 0) isMem = true ∧
    storeHypotheses (oneLane masked) (.stm, fun l => !l.f.getLsbD 0, fun _ => 1, fun k g => k.maskedStores g) (long 8 12 1 2 0 0) isScr = true ∧
    storeHypotheses (oneLane base) (.gst, fun l => !l.c.getLsbD 0, fun l => widthBytes l.f,
      fun k g => [(0, k.gea g, leBytes (widthBytes k.f.f) (k.grp.greg k.f.d.toNat).toNat)]) (long 8 6 5 0 0 0) isHost = true ∧
    storeHypotheses (oneLane base) (.gst, fun l => !l.c.getLsbD 0, fun l => widthBytes l.f,
      fun k g => [(0, k.gea g, leBytes (widthBytes k.f.f) (k.grp.greg k.f.d.toNat).toNat)]) (long 8 9 5 0 0 0) isMem = true ∧
    queuedAtom (oneLane base) (.red, true, false) (long 0 4 0 2 0 0) = true ∧
    queuedAtom (oneLane base) (.reds, false, false) (long 0 12 0 2 0 0) = true := by decide +kernel

/-- The hypotheses of the first part of `AtomicResults`. -/
def atomHypotheses (s : State) (row : (Long → Instr) × Bool × Bool) (l : Long) : Bool :=
  let ty := atomTyOf (ctlType l.c)
  let i := row.1 l
  readyWith s i fun k =>
    let s0 := s.issued i k
    (row.2.2 || (acqScope l).isSome) &&
    holdsOk (s0.probes k row.2.1 .write (atomSize ty) (atomTarget (atomOpOf (ctlOp l.c)) ty)
      ((laneList k.mask).map fun lane => (lane, atomSize ty, k.base row.2.1 lane))) fun sites => !sites.isEmpty

/-- A relaxed 32-bit add; one that acquires and releases; reductions that acquire (ORD is C[7:6]). -/
theorem witness_atomicResults :
    atomHypotheses (oneLane base) (.atom, true, true) (long 8 4 0 2 0 0) = true ∧
    atomHypotheses (oneLane base) (.atom, true, true) (long 8 4 0 2 0xC0 8) = true ∧
    atomHypotheses (oneLane base) (.atoms, false, true) (long 8 12 0 2 0 0) = true ∧
    atomHypotheses (oneLane base) (.red, true, false) (long 0 4 0 2 0x40 8) = true ∧
    atomHypotheses (oneLane base) (.reds, false, false) (long 0 12 0 2 0x40 4) = true := by decide +kernel

/-- `base` after a store of g8 at the address in gA. -/
def stored (a : Nat) (scr : Bool) : State := after (exec (.gst (long 8 a 5 0 (if scr then 1 else 0) 0)) base)

def entryOf (s : State) : Option QEntry := (s.group? 1 0).bind fun h => h.queue[0]?

/-- What `p` says of the issuing group, its team and the first entry of its queue. -/
def withEntry (s : State) (p : Team → Group → QEntry → Bool) : Bool :=
  holds (s.team? 1) fun x => holds (s.group? 1 0) fun h => holds h.queue[0]? fun e => p x h e

theorem witness_storePerformedToMemory :
    (let s := stored 9 false
     withEntry s fun x h e => match e.loc, e.op with
      | .mem pa key _, .write b => s.mayPerform x h e && !s.packageLost pa && SMap.wf s.storage.mem &&
          (linesOf pa b.length).all fun l => (s.viewLine key l).length = 128
      | _, _ => false) = true := by decide +kernel

/-- In a scratchpad with and without a barrier word under the store; at a peer. -/
theorem witness_storePerformedElsewhere :
    (let s := stored 5 true
     withEntry s fun x h e => match e.loc, e.op with
      | .scr u off, .write b => s.mayPerform x h e && e.rel ≠ some 11 && s.teams.all Team.tidy &&
          s.barsIn u off b.length = [] && (s.nameBar u off).barsIn u off b.length = [off]
      | _, _ => false) = true ∧
    (let s := after (exec (.gst (long 8 9 5 0 0 0)) (withGroup base fun h => h.setG 9 0x80000000))
     withEntry s fun x h e => match e.loc with
      | .peer _ _ => s.mayPerform x h e && e.rel ≠ some 11
      | _ => false) = true := by decide +kernel

/-- What `p` says of the issuing group's first result, its team and the group. -/
def withResult (s : State) (p : Team → Group → Result → Bool) : Bool :=
  holds (s.team? 1) fun x => holds (s.group? 1 0) fun h => holds h.results[0]? fun r => p x h r

/-- The first access of the first result may be performed (or not), at a place that satisfies `p`. -/
def pending (s : State) (may : Bool) (p : Pend → Bool) : Bool := withResult s fun x h r =>
  !r.done && holds (r.pend.find? fun a => a.idx = 0) fun a => s.mayPerformPend x h r a = may && p a

/-- The state after the first access of the first result has been performed. -/
def onePerformed (s : State) : State := after (exec (.longLatencyResult 1 0 ⟨0, 0⟩) s)

/-- A load of node 0, one from poison, one from a peer, an atomic, and a load behind an unfinished acquire; then results with
nothing left to wait for: one that is written, one that met poison, one whose window is open still, one that waits for a peer. -/
theorem witness_longLatencyResult :
    (let loaded := after (exec (.ld (long 8 4 4 2 0 0)) (oneLane base))
     let sour : State := { loaded with storage := { loaded.storage with poison := [(0, 0xF)] } }
     let asked := after (exec (.ld (long 8 20 4 2 0 0)) (oneLane (withPair 0x80000000)))
     let atomic := after (exec (.atom (long 8 4 0 2 0 0)) (oneLane base))
     let behind := withGroup loaded fun h =>
       let rs := h.results.map fun r => { r with uid := r.uid + 9 }
       { h with results := rs, splits := h.splits.map fun p => { p with park := some (.copies [] true 0) } }
     pending loaded true (fun a => a.op.isRead && !loaded.isRemote a.loc && !loaded.locPoisoned a.loc a.n) = true ∧
     pending sour true (fun a => a.op.reads && !sour.isRemote a.loc && sour.locPoisoned a.loc a.n) = true ∧
     pending asked true (fun a => asked.isRemote a.loc) = true ∧ pending atomic true (fun a => !a.op.isRead && a.op.reads && !atomic.isRemote a.loc && !atomic.locPoisoned a.loc a.n) = true ∧
     pending behind false (fun _ => true) = true ∧
     withResult (onePerformed loaded) (fun _ _ r => !r.done && r.pend = [] && r.waits = [] && r.fail = none && r.raw ≠ []) = true ∧
     withResult (onePerformed sour) (fun _ _ r => !r.done && r.pend = [] && r.waits = [] && r.fail.isSome) = true ∧
     withResult (onePerformed asked) (fun _ _ r => r.pend = [] && r.waits ≠ []) = true) ∧
    withResult (onePerformed (after (exec (.fdiv { long 8 4 0 2 0 0 with la := 3 }) base))) (fun _ _ r => r.done) = true := by
  decide +kernel

/-- The hypotheses of `UnpkResults`. -/
def unpkHypotheses (s : State) (l : Long) (bad : Bool) : Bool :=
  readyWith s (.unpk l) fun k =>
    let a : Word := (k.grp.greg l.a.toNat).setWidth 32
    let rows := l.f.toNat + 1
    let s0 := s.issued (.unpk l) k
    a.toNat % 8 = 0 && holds (s0.scrPlace k.team a 8) fun p => !s0.accessWaits k (.scr p.1 p.2) 8 &&
      holds (performed s0 k (s0.needsPerform (.scr p.1 p.2) 8)) fun s1 =>
        let hd := leNat (s1.readScratch k p.1 p.2 8)
        let n := if hd % 64 ≤ 32 ∧ hd / 2 ^ 12 % 16 = 0 ∧ hd / 2 ^ 6 % 4 = 0 ∧ hd / 2 ^ 9 % 8 + 1 = rows then
          (hd % 64 * 32 * rows + 7) / 8 else 0
        (s1.scrPlace k.team a (8 + n)).isSome && (s1.group? k.team.uid k.grp.gid).isSome &&
          s1.locPoisoned (.scr p.1 p.2) 8 = bad

/-- The empty chunk of one row of width 0, and eight rows of 32 bits; a chunk whose header the SRAM has lost. -/
theorem witness_unpkResults :
    unpkHypotheses base (long 20 5 0 0 1 0 4 0 true) false = true ∧
    unpkHypotheses (after (.next (base.befall (.scratchLost 1 0)))) (long 20 5 0 0 1 0 4 0 true) true = true ∧
    unpkHypotheses (base.modTeam 1 fun x => { x with scratch := SMap.set (SMap.set x.scratch 0 32#8) 1 0x0E#8 })
      (long 20 5 7 0 1 0 4 0 true) false = true := by decide +kernel

/-- The hypotheses of the first part of `BarrierResults`, with a word that BAROP of the function satisfies `p` on. -/
def barHypotheses (s : State) (row : (Long → Instr) × BarFn) (l : Long) (p : Except (BitVec 8) DWord → DWord → DWord → Bool)
    (bad : Bool := false) : Bool :=
  let i := row.1 l
  let fn := row.2
  readyWith s i fun k =>
    let a : Word := (k.grp.greg l.a.toNat).setWidth 32
    let b := k.grp.greg l.b.toNat
    let s0 := s.issued i k
    a.toNat % 8 = 0 && holds (s0.scrPlace k.team a 8) fun q => !s0.accessWaits k (.scr q.1 q.2) 8 &&
      (!fn.waits || s0.onCore k.team.core (.scr q.1 q.2)) && !barOperandBad fn b &&
      (relScope l).all (fun sc => s0.released k sc) &&
      holds (performed s0 k (beforeBar s0 k fn (.scr q.1 q.2))) fun s1 =>
        let s2 := match relScope l with
          | some sc => s1.protectAt k sc
          | none => s1
        s1.locPoisoned (.scr q.1 q.2) 8 = bad && p (barOp fn (s2.barWord q.1 q.2) b) (s2.barWord q.1 q.2) b

def answers : Except (BitVec 8) DWord → DWord → DWord → Bool
  | .ok _, _, _ => true
  | _, _, _ => false
def misuse : Except (BitVec 8) DWord → DWord → DWord → Bool
  | .error _, _, _ => true
  | _, _, _ => false

/-- `base` with an all-zero barrier word at 0, expecting one arrival. -/
def barred : State := (base.nameBar 1 0).setBar 1 0 0x0001000000000000

/-- Each function on a word that takes it; the misuse of an arrival at a word that expects none; wait and try for the
current phase and the one before; an arrival at a word that the SRAM has lost. -/
theorem witness_barrierResults :
    barHypotheses (withGroup base fun h => h.setG 9 4095) (.gbarInit, .init) (long 0 5 0 9 0 0) answers = true ∧
    barHypotheses barred (.gbarArrive, .arrive) (long 8 5 1 0 0 0) answers = true ∧
    barHypotheses base (.gbarArrive, .arrive) (long 8 5 1 0 0 0) misuse = true ∧
    barHypotheses barred (.gbarExpect, .expect) (long 8 5 2 9 0 0) answers = true ∧
    barHypotheses barred (.gbarExpa, .expa) (long 8 5 3 9 0 0) answers = true ∧
    barHypotheses barred (.gbarWait, .wait) (long 0 5 4 0 0 0) (fun o w b => answers o w b && barPar w = b.getLsbD 0) = true ∧
    barHypotheses (withGroup barred fun h => h.setG 9 1) (.gbarWait, .wait) (long 0 5 4 9 0 0)
      (fun o w b => answers o w b && barPar w ≠ b.getLsbD 0) = true ∧
    barHypotheses barred (.gbarTry, .try) (long 8 5 5 0 0 0) (fun o w b => answers o w b && barPar w = b.getLsbD 0) = true ∧
    barHypotheses (withGroup barred fun h => h.setG 9 1) (.gbarTry, .try) (long 8 5 5 9 0 0)
      (fun o w b => answers o w b && barPar w ≠ b.getLsbD 0) = true ∧
    barHypotheses (barred.befall (.scratchLost 1 0)) (.gbarArrive, .arrive) (long 8 5 1 0 0 0) (fun _ _ _ => true) true = true := by
  decide +kernel

/-- R278, R280 on words: init takes 4,095, the last arrival reaches EXP, expect's largest count, the largest PEND. -/
theorem witness_barOp :
    barRsv 0 = 0 ∧ answers (barOp .init 0 4095) 0 0 = true ∧ answers (barOp .arrive 0x0001000000000000 0) 0 0 = true ∧
    answers (barOp .expect 0x0001000000000000 0x7FFFFFFFF) 0 0 = true ∧ answers (barOp .expa 0x0001000000000000 0x7FFFFFFFF) 0 0 = true := by decide +kernel

/-- fence at system scope with nothing outstanding, and with a store to a peer under way; a split parked on each; drain with no
copy in flight, and with one of its class; a store queued behind each park. -/
theorem witness_fenceAndDrain :
    (let sent := after (exec (.storePerformed 1 0 0) (after (exec (.gst (long 8 9 5 0 0 0)) (withGroup base fun h => h.setG 9 0x80000000))))
     let i := Instr.fence (short 0 11 0)
     let u := after (exec i sent)
     let here (q : State) (done : Bool) : Bool := holds q.groups[0]? fun h => q.groups.length = 1 && (q.team? h.team).isSome &&
       ((h.splits.length = 1 && h.saved = none) || (h.splits = [] && (h.saved.map List.length) = some 1)) &&
       (h.splits ++ h.saved.getD []).map Split.park = [some (.fence 11 sent.uid)] && q.completeAt h sent.uid 11 = done
     readyWith base i (fun k => (base.issued i k).completeAt (k.issued i) base.uid 11) = true ∧
     readyWith sent i (fun k => !(sent.issued i k).completeAt (k.issued i) sent.uid 11) = true ∧
     let aside (q : State) : State := withGroup q fun h => { h with splits := [], saved := some h.splits }
     here u false = true ∧ here { u with fabric := base.fabric } true = true ∧
     here (aside u) false = true ∧ here (aside { u with fabric := base.fabric }) true = true) ∧
    (let s := stored 9 false
     let toWindow := after (exec (.gst (long 8 10 5 0 0 0)) (withGroup base fun h => h.setG 10 0xC0000000))
     let behind (s : State) (w : Park) (p : Group → QEntry → Bool) : Bool :=
       let s := withGroup s fun h => { h with splits := h.splits.map fun p => { p with park := some w } }
       withEntry s fun _ h e => (h.splits.any fun p => p.park = some w) && 0 < e.uid && p h e
     behind s (.fence 6 0) (fun _ e => !e.loc.isWindow) = true ∧
     behind s (.fence 8 0) (fun _ e => !e.loc.isWindow) = true ∧ behind s (.copies [] true 0) (fun _ e => !e.loc.isWindow) = true ∧
     behind toWindow (.fence 8 0) (fun _ e => e.loc.isWindow) = true) ∧
    readyWith base (.drain (long 0 0 0 0 0 0)) (fun k =>
      !(base.copies.any fun c => c.core = k.team.core && c.inClass 0)) = true ∧
    readyWith { base with copies := [{
        uid := 9, ctx := 0, grid := 0, team := 1, core := 0, unit := 0, shape := 3, srcScr := true, dstScr := false, src := 0,
        dst := 0, srcBase := (1, 0), dstBase := (0, 0), srcDesc := [], dstDesc := [], srcOrg := [], dstOrg := [], count := 0x200, conv := 0,
        stream := 0, bar := (1, 0), barAddr := 0, barCore := 0, tiles := [], sats := 0, satDone := false, stalled := false }] }
      (.drain (long 0 0 0 0 0 0)) (fun _ => true) = true := by decide +kernel

/-- Memory is canonical and its lines are whole, as the last part of `LoadResults` asks. -/
theorem witness_noteSites :
    SMap.wf base.storage.mem = true ∧ base.storage.tags = [] ∧ ∀ line, (base.viewLine none line).length = 128 := by
  refine ⟨by decide +kernel, rfl, fun line => ?_⟩
  have h : base.lineTag line = none := rfl
  simp [State.viewLine, h, SMap.getRun]

/-! ### Witnesses: gather, publication, spawn, copies -/

/-- `base` with the descriptor of a tensor of 2^32 - 1 binary64 elements at 0, at 0x3000. -/
def tensor : State := { base with storage := { base.storage with mem := SMap.setRun base.storage.mem 0x3010 (leBytes 8 0xFFFFFFFF) } }

/-- The hypotheses of `GatherAndInvalidationResults` for gath with participating lanes. -/
def gathHypotheses (s : State) (l : Long) : Bool :=
  readyWith s (.gath l) fun k =>
    let lanes := laneList k.mask
    let n := if l.f.getLsbD 0 then 2 else 1
    !lanes.isEmpty && holdsOk ((s.issued (.gath l) k).gatherDesc k) fun (dw, s1) =>
      let d := descOf dw
      !d.rsv && d.fmt ≠ 15 && d.dimsM1 ≠ 3 && (d.fmt ≠ 14 || n = 2) &&
      holdsOk (s1.probes k true .read 1 (fun _ => none) (lanes.flatMap (k.gatherReads d))) fun sites =>
        !sites.isEmpty && (s1.group? k.team.uid k.grp.gid).isSome

/-- A gather in every lane and in none; dinv at an aligned and at a misaligned address. -/
theorem witness_gatherAndInvalidation :
    gathHypotheses tensor (long 8 9 1 16 0 0 0 0 true) = true ∧
    readyWith tensor (.gath { long 8 9 0 16 0 0 0 0 true with g := ⟨0, false⟩ }) (fun k => (laneList k.mask).isEmpty) = true ∧
    readyWith base (.dinv (long 0 9 0 0 0 0)) (fun k => (k.grp.greg 9).toNat % 64 = 0) = true ∧
    readyWith (withGroup base fun h => h.setG 9 63) (.dinv (long 0 9 0 0 0 0)) (fun k => (k.grp.greg 9).toNat % 64 ≠ 0) = true ∧
    isReady (.dinvAll (long 0 0 1 0 0 0)) = true := by decide +kernel

def hostOnly : Loc → Option (BitVec 8)
  | .host _ => none
  | _ => some 0x18

/-- `base` after a publication at the host's counter g6, with and without a window write before it. -/
def published (before : Bool) : State :=
  after (exec (.pub (long 8 6 0 0 0 0)) (if before then after (exec (.gst (long 8 10 5 0 0 0)) base) else base))

/-- `base` with a FetchAdd of a PUBLISH command of stream 3 under way at 0x3000 in the host's memory. -/
def publishing : State :=
  { base with
    streams := base.streams.set 3 { base.stream 3 with running := true, wait := .publish 9 true },
    host := { base.host with fetchAdds :=
      [{ id := 9, va := 0, pa := 0x3000, covers := [], team := 0, grp := 0, result := 0, stream := some 3 }] } }

/-- A publication and its FetchAdd, with and without a window write before it; a PUBLISH command's. -/
theorem witness_publication :
    readyWith base (.pub (long 8 6 0 0 0 0)) (fun k => base.host.linkUp && !k.team.lostWrites &&
      holdsOk ((base.issued (.pub (long 8 6 0 0 0 0)) k).probes k true .write 8 hostOnly [(0, 8, k.grp.greg 6)])
        fun sites => sites.length = 1 && !(base.issued (.pub (long 8 6 0 0 0 0)) k).sitesWait k sites) = true ∧
    [(true, 1), (false, 0)].all (fun e => (published e.1).host.linkUp && SMap.wf (published e.1).host.mem &&
      holds (published e.1).host.fetchAdds.head? fun f =>
        ((published e.1).host.fetchAdds.find? fun a => a.id = f.id) = some f && f.stream = none && (published e.1).fabric.requests = [] &&
          ((published e.1).group? f.team f.grp).isSome &&
          (((published e.1).groups.flatMap fun h => h.queue).filter fun q => f.covers.contains q.uid).length = e.2) = true ∧
    holds (publishing.host.fetchAdds.find? fun a => a.id = 9) (fun f => f.stream = some 3 && f.covers = []) = true ∧
    publishing.host.linkUp = true ∧ (publishing.stream 3).wait = .publish 9 true ∧ publishing.draining 3 = false ∧
    3 < publishing.streams.length := by
  decide +kernel

/-- `base` with a grid that spawns and a weight of 5 in lane 0. -/
def spawning : State :=
  (withGroup base fun h => { h with weight := [(0, 5)] }).modGrid 0 fun g => { g with root := 0x3000, l1 := 0x2000000102 }

/-- Entries at 0, which may be fetched; items that are accepted in lane 0 alone, which keeps the larger half. -/
theorem witness_spawn :
    readyWith base (.spawn (long 0 0 0 0 0 0)) (fun k =>
      ((base.issued (.spawn (long 0 0 0 0 0 0)) k).entryProbes k ((laneList k.mask).map fun lane => k.srcA 2 lane)).isNone) =
      true ∧
    readyWith spawning (.spawn (long 3 0 0 0 0 0)) (fun k => spawning.spawnOpen k) = true ∧
    holds ((after (exec (.spawn (long 3 0 0 0 0 0)) spawning)).group? 1 0) (fun h =>
      h.pmask 3 = 1 && SMap.get h.weight 0 = 3) = true := by decide +kernel

/-- The hypotheses of `CopyIssue`, with `count` a flat copy's count. -/
def copyHypotheses (s : State) (row : (Long → Instr) × BitVec 2) (l : Long) (zero : Bool) : Bool :=
  let i := row.1 l
  let shape := row.2
  readyWith s i fun k =>
    let s0 := s.issued i k
    let va := k.grp.greg l.a.toNat
    let vd := k.grp.greg l.d.toNat
    let vb := (k.grp.greg l.b.toNat).toNat
    let ctl := (k.grp.greg l.c.toNat).toNat
    let srcScr := shape = 1 || (shape = 3 && l.m.getLsbD 0)
    let dstScr := shape = 0 || (shape = 3 && l.m.getLsbD 1)
    let n := if shape = 3 then vb % 2 ^ 40 else 1
    let place (scr : Bool) (a : DWord) : Option (Nat × Nat) := if scr then s0.scrPlace k.team (a.setWidth 32) n else some (0, 0)
    (s.copies.filter fun c => c.core = k.team.core).length < 64 && !s0.behindPoint k && !s0.blinded k.team.uid k.grp.gid && ctl % 8 = 0 &&
    (!(shape = 0 || shape = 2) || va.toNat % 64 = 0) && (!(shape = 1 || shape = 2) || vd.toNat % 64 = 0) &&
    (shape ≠ 0 || vd.toNat % 16 = 0) && (shape ≠ 1 || va.toNat % 16 = 0) &&
    (place srcScr va).isSome && holds (place dstScr vd) (fun dst => holds (s0.scrPlace k.team (BitVec.ofNat 32 ctl) 8) fun bar =>
      !dstScr || ((s.team? bar.1).map Team.core = (s.team? dst.1).map Team.core)) &&
    !convWordBad shape.toNat (ctl / 2 ^ 32 % 2 ^ 16) && (shape ≠ 3 || vb / 2 ^ 40 % 2 ^ 24 = 0) &&
    ((shape = 3 && n = 0) = zero) && s0.released k 7

/-- Each shape, a flat copy both ways, and one of 0 bytes. -/
theorem witness_copyIssue :
    copyHypotheses base (.cpyaB2t, 0) (long 5 9 0 0 5 0) false = true ∧
    copyHypotheses base (.cpyaT2b, 1) (long 9 5 1 0 5 0) false = true ∧
    copyHypotheses base (.cpyaB2b, 2) (long 9 9 2 0 5 0) false = true ∧
    copyHypotheses base (.cpyaFlat, 3) (long 9 5 3 9 5 1) false = true ∧
    copyHypotheses base (.cpyaFlat, 3) (long 5 9 3 9 5 2) false = true ∧
    copyHypotheses base (.cpyaFlat, 3) (long 5 9 3 0 5 2) true = true := by decide +kernel

def tile (a : TileState) : Tile := { st := a, slot := 0, lines := [], missing := [], waits := [], rest := [] }

/-- A flat copy of two tiles between node 0's 0x3000 and the scratchpad's 0, with the tiles' states given. -/
def flat (toScr : Bool) (a b : TileState) : Copy :=
  {
    uid := 900, ctx := 0, grid := 0, team := 1, core := 0, unit := 3, shape := 3, srcScr := !toScr, dstScr := toScr,
    src := if toScr then 0x3000 else 0, dst := if toScr then 0 else 0x3000, srcBase := if toScr then (0, 0) else (1, 0),
    dstBase := if toScr then (1, 0) else (0, 0), srcDesc := [], dstDesc := [], srcOrg := [], dstOrg := [], count := 5000, conv := 0,
    stream := 0, bar := (1, 0x8000), barAddr := 0x7F008000, barCore := 0, tiles := [tile a, tile b], sats := 0,
    satDone := false, stalled := false }
def copying (c : Copy) : State := { base with copies := [c] }

/-- The copy is in flight and its tile `j` exists. -/
def tileThere (s : State) (j : Nat) (p : Copy → Tile → Bool) : Bool :=
  holds (s.copy? 900) fun c => !c.stalled && holds c.tiles[j]? fun t => p c t

theorem witness_permitGrant :
    (let s := copying (flat true .done .idle)
     tileThere s 1 fun c t => c.dstScr && t.st = .idle && c.mayWrite 1 &&
       (List.range 1).all (fun m => (c.tiles[m]?).all fun d => d.st ≠ .idle || !c.mayWrite m) &&
       s.slotsUsed (s.landingCore c) (fun _ => true) = [] && s.slotsUsed (s.landingCore c) (fun d => d.unit = c.unit) = []) = true := by
  decide +kernel

/-- The hypotheses of `CopyTileResults` on a tile about to be written. -/
def tileHypotheses (c : Copy) (j : Nat) : Bool :=
  let s := copying c
  tileThere s j fun c t => t.st = (if c.dstScr then .granted else .idle) && (c.dstScr || c.mayWrite j) && (s.formTile c j).stop.isNone &&
    (let parts := c.splitParts (s.formTile c j).parts
     isOk (s.partPieces c (if parts.1 = [] then parts.2 else parts.1)) && isOk (s.partPieces c parts.2))

/-- A copy that converts to blocks and counts saturation at 0x3000, about to be credited. -/
def counting : Copy :=
  { flat false .done .sent with shape := 2, srcDesc := [0, 0, 0, 0, 0, 0, 0, 0x3000], conv := 0x200 }

/-- Tiles of each direction about to be written; one that waits for a peer; one with its last unit left; one about to be
credited to a word that is right, and to one that the SRAM has lost. -/
theorem witness_copyTiles :
    tileHypotheses (flat true .done .granted) 1 = true ∧ tileHypotheses (flat false .done .idle) 1 = true ∧
    tileHypotheses (flat false .idle .idle) 0 = true ∧
    (let s := copying ((flat false .done .sent).setTile 1 { tile .sent with waits := [7] })
     let u : State := { s with fabric := { s.fabric with requests :=
       [{ tag := 7, dev := some 5, job := 0, addr := 0, ask := .read 1, use := .read (0, 0) 0, deadline := 0, port := 0 }] } }
     tileThere u 1 fun _ t => t.st = .sent && u.fabric.requests.any fun r => t.waits.contains r.tag) = true ∧
    (let s := copying ((flat false .done .sent).setTile 1 { tile .sent with rest := [(0, 0x3000, [1#8])] })
     tileThere s 1 fun c t => t.st = .sent && t.rest ≠ [] && isOk (s.partPieces c (t.rest.map fun r => ⟨r.1, r.2.1, r.2.2⟩))) = true ∧
    [true, false].all (fun d => tileThere (copying (flat d .done .sent)) 1 fun c t => t.st = .sent && t.rest = [] && !c.satDue 1 &&
      (copying c).barBad c.bar.1 c.bar.2 = false) = true ∧
    (let s := (copying (flat true .done .sent)).befall (.scratchLost 1 0x8000)
     tileThere s 1 fun c t => t.st = .sent && t.rest = [] && !c.satDue 1 && s.barBad c.bar.1 c.bar.2) = true ∧
    tileThere (copying counting) 1 (fun c t => t.rest = [] && c.satDue 1 && isOk ((copying c).countPlace c.ctx c.sdesc.sat)) = true := by
  decide +kernel

/-! ### Witnesses: matrix -/

/-- `base` with a second group of the team, and either of the two about to issue. -/
def pair (g : Nat) : State := { base with groups := [baseGroup, { baseGroup with gid := 1, slot := 1 }], issuer := .split 1 g 0 }

/-- Group 1 about to join after group 0 has: `conv g8, 0, 2`. -/
def joining : State := { after (exec (.conv (long 8 0 1 0 0 0)) (pair 0)) with issuer := .split 1 1 0 }

/-- The hypotheses of `ConvocationForms`; `n` groups have joined before. -/
def convHypotheses (s : State) (l : Long) (n : Nat) : Bool :=
  readyWith s (.conv l) fun k =>
    let before := ((k.team.convs.find? fun c => c.tag = k.tag).map Conv.members).getD []
    !k.grp.inHandler && (k.team.convOf k.grp.gid).isNone && s.groups.all Group.tidy &&
    k.team.convs.all (fun c => c.uid < s.uid && (c.tag ≠ k.tag || (!c.formed && c.size = k.convSize && !c.broken))) &&
    decide (k.team.convs.map Conv.uid).Nodup && decide (before.map Member.gid).Nodup && before.length = n

/-- A convocation of one, with the last tag; the first and the last member of one of two. -/
theorem witness_convocationForms :
    convHypotheses base (long 8 0 0 0 15 0) 0 = true ∧ convHypotheses (pair 0) (long 8 0 1 0 0 0) 0 = true ∧
    convHypotheses joining (long 8 0 1 0 0 0) 1 = true := by decide +kernel

/-- A formed convocation of the groups listed, no instruction counted. -/
def formed (gids : List Nat) : Conv :=
  {
    uid := 700, tag := 0, size := gids.length, formed := true, broken := false,
    members := gids.map fun g => { newMember g 0 with num := g, batch := 1 }, done := 0, partials := [], openOps := [],
    openGlobal := false, closed := 1, batches := [], globals := [] }
def convened (s : State) (c : Conv) : State := s.modTeam 1 fun x => { x with convs := [c] }
def alone : State := convened base (formed [0])
def both (g : Nat) : State := convened (pair g) (formed [0, 1])

/-- How many members' parts the operation that the member's next matched instruction belongs to then has. -/
def joinedCount (c : Conv) (m : Member) : Nat := ((c.partials[m.issued - c.done]?.map fun o => o.parts.length).getD 0) + 1

theorem joined_count (c : Conv) (m : Member) (op : MatchedOp) (k : Here) (p : Part) :
    (Claims.joined c m op k p).parts.length = joinedCount c m := by
  unfold Claims.joined joinedCount
  cases c.partials[m.issued - c.done]? <;> simp [MOp.join]

/-- The hypotheses of `MatchedInstructionsIssue`; `agrees` the operation's agreement, `full` whether it is complete. -/
def matchedHypotheses (s : State) (row : (Long → Instr) × MatchedOp × (State → Here → Option (BitVec 8))) (l : Long)
    (full agrees : Bool) : Bool :=
  let i := row.1 l
  readyWith s i fun k => !k.grp.inHandler && holds k.member fun (c, m) =>
    !c.broken && m.cause.isNone && (row.2.2 s k).isNone && decide (c.members.length ≤ joinedCount c m) = full &&
      (Claims.joined c m row.2.1 k (Claims.matchedPart row.2.1 k (s.issued i k))).agree = agrees &&
      !(s.issued i k).blinded k.team.uid k.grp.gid && ((s.core k.team.core).engine.filter fun e => !e.started).length < 8

def mmaRow : (Long → Instr) × MatchedOp × (State → Here → Option (BitVec 8)) := (.mma, .mma, fun s => s.mmaCause false)

/-- Group 1 about to issue after group 0 has issued acc.zero of tile 0. -/
def half : State := { after (exec (.accZero (long 0 0 0 0 0 0)) (both 0)) with issuer := .split 1 1 0 }

def zeroRow : (Long → Instr) × MatchedOp × (State → Here → Option (BitVec 8)) := (.accZero, .accZero, fun s => s.accCause .accZero)

/-- `alone` with a packed operand of 2 of 4 codes of 8 bits in v8 to v12, all 0 at places 0 and 1, and its header in g6. -/
def packed : State := withGroup alone fun h =>
  { h.setG 6 0x2850000040000205 with v := (List.range 32).map fun l => (32 * 12 + l, 0x44444444) }

/-- Each instruction alone; the first member of two, the last one that agrees and one that does not. -/
theorem witness_matched_mma : matchedHypotheses alone mmaRow (long 0 40 0 5 7 5) true true = true := rfl
def spRow : (Long → Instr) × MatchedOp × (State → Here → Option (BitVec 8)) := (.mmaSp, .mmaSp, fun s => s.mmaCause true)

theorem witness_matched_mmaSp :
    matchedHypotheses packed spRow (long 0 8 0 5 7 5) true true = true := by decide +kernel

theorem witness_matched_acc :
    matchedHypotheses alone zeroRow (long 0 0 0 0 0 0) true true = true ∧
    matchedHypotheses alone (.accLd, .accLd, fun s => s.accCause .accLd) (long 0 9 1 20 1 0) true true = true ∧
    matchedHypotheses alone (.accSt, .accSt, fun s => s.accCause .accSt) (long 0 9 2 20 1 0) true true = true ∧
    matchedHypotheses alone (.accAdd, .accAdd, fun s => s.accCause .accAdd) (long 0 9 3 20 1 0) true true = true ∧
    matchedHypotheses (both 0) zeroRow (long 0 0 0 0 0 0) false true = true ∧
    matchedHypotheses half zeroRow (long 0 0 0 0 0 0) true true = true ∧
    matchedHypotheses half zeroRow (long 1 0 0 0 0 0) true false = true := by decide +kernel

/-- `alone` with its member's record changed, or the convocation's. -/
def member (f : Member → Member) : State := convened base { formed [0] with members := (formed [0]).members.map f }
def convWith (f : Conv → Conv) : State := convened base (f (formed [0]))

/-- The hypotheses that the parts of `BatchResults` share. -/
def batchReady (s : State) (i : Instr) (p : Here → Conv → Member → Bool) : Bool :=
  readyWith s i fun k => !k.grp.inHandler && k.sp.lanes = BitVec.allOnes 32 && holds k.member fun (c, m) =>
    m.cause.isNone && p k c m

/-- mcommit alone; conv.dis in a whole and in a broken convocation; mwait for the batch not yet committed, for the batch
2^15 back, for a completed one, and for one that is not complete; the batch before the one that fills. -/
theorem witness_batches :
    batchReady alone (.mcommit (short 8 0 0)) (fun _ c _ => !c.broken) = true ∧
    batchReady alone (.convDis (long 0 0 3 0 0 0)) (fun _ c _ => !c.broken) = true ∧
    batchReady (convWith fun c => { c with broken := true }) (.convDis (long 0 0 3 0 0 0)) (fun _ c _ => c.broken) = true ∧
    batchReady (member fun m => { m with batch := 0 }) (.mwait (short 0 0 0)) (fun _ _ m => m.batch = 0) = true ∧
    batchReady (member fun m => { m with batch := 0x8000 }) (.mwait (short 0 0 0)) (fun _ _ m => 2 ^ 15 ≤ (m.batch - 0).toNat) = true ∧
    batchReady alone (.mwait (short 0 0 0)) (fun _ c m => m.batch ≠ 0 && c.batchDone 0) = true ∧
    batchReady (convWith fun c => { c with batches := [⟨0, [5]⟩], openOps := [] }) (.mwait (short 0 0 0)) (fun _ c m =>
      m.batch ≠ 0 && (m.batch - 0).toNat < 2 ^ 15 && !c.batchDone 0) = true ∧
    ((formed [0]).closed - 0 - 1).toNat < 2 ^ 15 - 1 := by decide +kernel

/-- acc.zero a3 with a reserved bit of F set, in a region of two tiles that starts at an odd one. -/
theorem witness_stepRunsReserved :
    (let b := (encode (.accZero (long 3 0 4 0 0 1))).flatMap fun w => leBytes 4 w.toNat
     decodeBytes b = .undefinedEncoding 0x03 ∧
     (holds (alone.team? 1) fun x => holds (alone.group? 1 0) fun h => (namedBy b).any (regionOdd x h)) = true) := by
  decide +kernel

/-- prune of 1 to 4 of 4, and prune.t. -/
theorem witness_prune :
    ([Instr.prune (long 8 40 0 6 1 5), .prune (long 8 40 0 6 4 5), .pruneT (long 8 40 1 6 2 5)].all fun i =>
      readyWith base i fun k => k.sp.lanes = BitVec.allOnes 32) = true ∧
    [(1, 0), (4, 0), (2, 0)].all (fun e => pruneArgsOk 5 e.1 e.2) = true := by decide +kernel

/-- The state after a matched instruction alone, and what the engine's first operation finds there. -/
def engineOf (i : Instr) : State := after (exec i alone)
def starting (s : State) (p : EngineOp → Team → Conv → Bool) : Bool :=
  !((s.core 0).engine.any fun o => o.started) && holds ((s.core 0).engine.find? fun o => !o.started) fun o => holds (s.team? o.team) fun x => holds (s.conv? o.team o.conv) fun c =>
    !o.waiting && !c.broken && s.opReady x o.op && o.op.parts.head?.isSome && p o x c

/-- The same with a poisoned word at the image's first byte. -/
def spoilt : State := (engineOf (.mma (long 0 40 0 5 7 5))).modTeam 1 fun x => { x with badWords := [0] }

def imageThere (s : State) (bad : Bool) : Bool :=
  starting s fun o x _ => !o.struck && o.op.op = .mma && holds o.op.parts.head? fun p =>
    let n := imageBytes (bits o.op.fields.c.toNat 3 0)
    (s.scrPlace x (p.vb.setWidth 32) n).isSome && holds (o.op.place 0) fun e => s.locPoisoned (.scr e.1 e.2) n = bad

/-- Each kind of operation about to start; an image with a poisoned word; an operation struck by an error. -/
theorem witness_engineOperations :
    starting (engineOf (.accZero (long 0 0 0 0 0 0))) (fun o _ _ => !o.struck && o.op.op = .accZero) = true ∧
    starting ((engineOf (.accZero (long 0 0 0 0 0 0))).modCore 0 fun c => { c with
      engine := c.engine.map fun o => { o with struck := true } }) (fun o _ _ => o.struck) = true ∧
    imageThere (engineOf (.mma (long 0 40 0 5 7 5))) false = true ∧ imageThere spoilt true = true ∧
    starting (engineOf (.accLd (long 0 9 1 20 1 0))) (fun o x _ => !o.struck && o.op.op = .accLd &&
      isOk ((engineOf (.accLd (long 0 9 1 20 1 0))).accLoads x o (List.range o.op.rows))) = true ∧
    [Instr.accSt (long 0 9 2 20 1 0), .accAdd (long 0 9 3 20 1 0)].all (fun i => starting (engineOf i) fun o x _ => !o.struck &&
      (o.op.op = .accSt || o.op.op = .accAdd) && isOk ((engineOf i).accPlan x o.op) && isOk ((engineOf i).satPlace x o.op)) =
      true := by decide +kernel

/-- An operation that waits behind one which has started. -/
theorem witness_engineBusy :
    (let i := Instr.accZero (long 0 0 0 0 0 0)
     let s := after (exec (.matrixOpStart 0) (after (exec i (engineOf i))))
     ((s.core 0).engine.find? fun o => !o.started).isSome && ((s.core 0).engine.any fun o => o.started)) = true := by decide +kernel

/-- The operation that waits in `s` finds its convocation as it was, or `f` of it. -/
def finishing (s : State) (f : Conv → Conv) : Bool :=
  holds ((s.core 0).engine.head?) fun o =>
    let u := s.modConv o.team o.conv f
    (u.team? o.team).isSome && holds (u.conv? o.team o.conv) fun c => c.broken = (f (formed [0])).broken

/-- Each kind of operation complete, in a convocation that is whole and in one that is broken. -/
theorem witness_operationsApply :
    ([Instr.accZero (long 0 0 0 0 0 0), .mma (long 0 40 0 5 7 5), .accLd (long 0 9 1 20 1 0), .accSt (long 0 9 2 20 1 0)].all fun i =>
      finishing (engineOf i) id && finishing (engineOf i) fun c => { c with broken := true }) = true := by decide +kernel

/-- acc.zero started, about to be complete; a convocation that its one member has dismissed. -/
theorem witness_engineOperationsEnd :
    (let s := after (exec (.matrixOpStart 0) (engineOf (.accZero (long 0 0 0 0 0 0))))
     holds ((s.core 0).engine.head?) fun o => o.started && !s.keyBusy o.key && ((s.core 0).engine.length = 1)) = true ∧
    (let c := { formed [0] with members := (formed [0]).members.map fun m => { m with dis := true } }
     let s := convened base c
     holds (s.team? 1) fun x => (x.convs.find? fun c => c.tag = (0 : BitVec 4).toNat) = some c && x.conv? c.uid = some c &&
       c.mayEnd) = true := by decide +kernel

/-! ### Witnesses: control -/

/-- `base` with its split changed. -/
def splitWith (f : Split → Split) : State := withGroup base fun h => { h with splits := h.splits.map f }
def fork : MaskEntry := { fork := true, pending := 0, ppc := 0, arrived := 0, target := none }

/-- br back, misaligned; to the next instruction; without condition; with a condition that no lane meets; with one that lane 0
alone meets, with room under seven entries, for a good and a misaligned target, and without room under eight. -/
theorem witness_branch :
    readyWith base (.br (imm 0 0 0 2)) (fun k => (k.sp.pc + 2).toNat % 4 ≠ 0) = true ∧
    readyWith base (.br (imm 0 0 0 8)) (fun k => (k.sp.lanes &&& ~~~k.condLanes) = 0) = true ∧
    readyWith base (.br (imm 0 4 1 0xFFFFF000)) (fun k => (k.sp.lanes &&& ~~~k.condLanes) ≠ 0 && k.condLanes = 0) = true ∧
    (let s := withGroup (splitWith fun p => { p with stack := List.replicate 7 fork }) fun h => { h with p := SMap.set h.p 4 1 }
     [16, 18].all fun x => readyWith s (.br (imm 0 4 1 x)) fun k => k.condLanes = 1 &&
       Claims.hasRoom k [(k.sp.pc + 8, k.sp.lanes &&& ~~~k.condLanes)] && decide ((k.sp.pc + x.signExtend 64).toNat % 4 = 0) = (x == 16)) =
      true ∧
    (let s := withGroup (splitWith fun p => { p with stack := List.replicate 8 fork }) fun h => { h with p := SMap.set h.p 4 1 }
     readyWith s (.br (imm 0 4 1 16)) fun k => k.condLanes = 1 && !Claims.hasRoom k [(k.sp.pc + 8, k.sp.lanes &&& ~~~k.condLanes)]) =
      true := by decide +kernel

/-- The distinct addresses of brx and ret, before they are put in order. -/
def addresses (k : Here) : List DWord := ((laneList k.sp.lanes).map fun l => k.grp.lpair k.f.a.toNat l).eraseDups

theorem targets_of_ordered (k : Here) (h : (addresses k).Pairwise fun a b => a ≤ b) :
    k.targets.map Prod.fst = addresses k := by
  unfold Here.targets
  have : (addresses k).mergeSort (fun a b => decide (a ≤ b)) = addresses k :=
    List.mergeSort_of_pairwise (h.imp fun h => by simpa using h)
  simp only [addresses] at this ⊢
  simp [this, Function.comp_def]

/-- brx of all lanes to 0; of lane 0 to 0 and the others to 0x7F000000, with room and under a full stack, and to a misaligned
address; a target above the canonical ones; call to a misaligned and to an aligned target; trap. -/
theorem witness_callAndIndirect :
    readyWith base (.brx (short 0 4 0)) (fun k => addresses k = [0]) = true ∧
    (let two (n : Nat) : State := withGroup (splitWith fun p => { p with stack := List.replicate n fork }) fun h =>
       { h with v := h.v.filter fun e => e.1 ≠ 32 * 12 }
     readyWith (two 0) (.ret (short 0 12 0)) (fun k => addresses k = [0, 0x7F000000] && Claims.hasRoom k [(0x7F000000, 0xFFFFFFFE#32)]) ∧
     readyWith (two 8) (.ret (short 0 12 0)) (fun k => addresses k = [0, 0x7F000000] &&
       !Claims.hasRoom k [(0x7F000000, 0xFFFFFFFE#32)])) ∧
    (let odd := withGroup base fun h => { h with v := ((List.range 31).map fun l => (32 * 12 + 1 + l, (0x7F000002 : Word))) }
     readyWith odd (.ret (short 0 12 0)) fun k => addresses k = [0, 0x7F000002] && Claims.hasRoom k [(0x7F000002, 0xFFFFFFFE#32)]) = true ∧
    readyWith (withPair 0x0100000000000000) (.brx (short 0 20 0)) (fun k => (addresses k).all fun a => !canonical a) = true ∧
    readyWith base (.call (imm 8 0 0 2)) (fun k => (k.sp.pc + 2).toNat % 4 ≠ 0) = true ∧
    isReady (.call (imm 8 0 0 0xFFFFFFFC)) = true ∧ isReady (.trap (short 0 4 0)) = true := by decide +kernel

def pendingEntry (m : LaneMask) : MaskEntry := { fork := false, pending := m, ppc := 0x20, arrived := 0, target := none }

def hasEntry (p : MaskEntry → Bool) (l : List MaskEntry) : Bool :=
  match l with
  | e :: _ => p e
  | [] => false

/-- join with no entry, a FORK entry, pending lanes, and none pending; a misaligned target. -/
theorem witness_join :
    readyWith base (.join (imm 0 0 0 8)) (fun k => k.sp.stack = []) = true ∧
    readyWith (splitWith fun p => { p with stack := [fork] }) (.join (imm 0 0 0 8)) (fun k => hasEntry (fun e => e.fork) k.sp.stack) =
      true ∧
    readyWith (splitWith fun p => { p with stack := [pendingEntry 1] }) (.join (imm 0 0 0 8)) (fun k =>
      hasEntry (fun e => !e.fork && e.pending ≠ 0) k.sp.stack) = true ∧
    readyWith (splitWith fun p => { p with stack := [pendingEntry 0] }) (.join (imm 0 0 0 8)) (fun k =>
      hasEntry (fun e => !e.fork && e.pending = 0) k.sp.stack && k.sp.stack.length = 1) = true ∧
    readyWith base (.join (imm 0 0 0 3)) (fun k => (k.sp.pc + 3).toNat % 4 ≠ 0) = true := by decide +kernel

/-- Two splits of `base`'s group at one address. -/
def twoSplits : State := withGroup base fun h => { h with splits := [
  { id := 0, pc := 0x1000, lanes := 0xFFFF#32, stack := [], held := none, park := none },
  { id := 3, pc := 0x1000, lanes := 0xFFFF0000#32, stack := [], held := none, park := none }] }

theorem witness_mergeAndTimeout :
    (holds (twoSplits.group? 1 0) fun h => match h.splits with
      | [a, b] => a.id < b.id && a.pc = b.pc && a.park = none && b.park = none && a.stack = [] && b.stack = [] && a.held = none &&
          b.held = none
      | _ => false) = true ∧
    (holds ((splitWith fun p => { p with held := some 0 }).group? 1 0) fun h => holds (h.split? 0) fun q => q.held = some 0) =
      true := by decide +kernel

/-- `base` with weight 1 in lane 31, whose grid has its root word at 0x3000. -/
def weighted : State := { withGroup base fun h => { h with weight := SMap.set h.weight 31 1 } with
  grids := base.grids.map fun g => { g with root := 0x3000 } }

/-- exit of no lane, in handler mode, of all lanes with a weight to return; a split with entries and lanes left; done. -/
theorem witness_exitAndDone :
    readyWith base (.exit (short 0 4 1)) (fun k => k.condLanes = 0) = true ∧
    readyWith (withGroup base fun h => { h with saved := some [] }) (.exit (short 0 0 0)) (fun k => k.grp.inHandler) = true ∧
    readyWith weighted (.exit (short 0 0 0)) (fun k => !k.grp.inHandler && k.condLanes ≠ 0 && !(k.weighted k.condLanes).isEmpty &&
      isOk ((weighted.issued (.exit (short 0 0 0)) k).returnWeights k k.condLanes)) = true ∧
    readyWith base (.exit (short 0 0 0)) (fun k => (k.weighted k.condLanes).isEmpty) = true ∧
    (holds (base.group? 1 0) fun h => holds (h.split? 0) fun p => (p.lanes &&& ~~~1) ≠ 0 && (p.lanes &&& ~~~0xFFFFFFFF#32) = 0) = true ∧
    readyWith weighted (.done (short 0 0 0)) (fun k => !(k.weighted k.mask).isEmpty &&
      isOk ((weighted.issued (.done (short 0 0 0)) k).returnWeights k k.mask)) = true := by decide +kernel

/-! ### Witnesses: the fabric -/

/-- `base` with x in every lane's v2, the peer that coll names in B. -/
def withPeer (x : Nat) : State :=
  withGroup base fun h => { h with v := (List.range 32).foldl (fun v l => SMap.set v (32 * 2 + l) (BitVec.ofNat 32 x)) h.v }

/-- The hypotheses of `CollResults` for aligned lanes, of which those that name this device can be accessed. -/
def collHypotheses (s : State) (row : (Long → Instr) × BitVec 2) (l : Long) (p : Here → Bool) : Bool :=
  let i := row.1 l
  readyWith s i fun k =>
    let ty := atomTyOf (ctlType k.f.c)
    let n := atomSize ty
    let near := (laneList k.mask).filter fun lane => k.collPeer lane = s.fabric.deviceId.toNat
    ((laneList k.mask).all fun lane => (k.collAddr lane).toNat % n = 0) &&
    isOk ((s.issued i k).probes k true (if row.2 = 1 then .read else .write) n
      (fun loc => if row.2 = 2 then atomTarget (atomOpOf (ctlOp k.f.c)) ty loc else none)
      (near.map fun lane => (lane, n, k.collAddr lane))) && p k

/-- Every lane names another device, which the topology has or has not; every lane names this device. -/
def farLanes (there : Bool) (k : Here) : Bool := (laneList k.mask).all fun lane =>
  k.collPeer lane ≠ 0 && (base.fabric.topology.any fun e => e.1 = k.collPeer lane) = there
def nearLanes (k : Here) : Bool := (laneList k.mask).all fun lane => k.collPeer lane = 0

/-- Each form to peer 5 and to this device, without and with an acquire, a release, and no lane that takes part; a put to an unknown
peer; a reduction from a misaligned lane; lanes that name three regions of two devices. -/
theorem witness_coll :
    [5, 0].all (fun d =>
      let p := if d = 5 then farLanes true else nearLanes
      collHypotheses (withPeer d) (.collPut, 0) (long 8 4 0 2 0x30 0) p &&
      collHypotheses (withPeer d) (.collGet, 1) (long 8 4 1 2 0x30 0) p &&
      collHypotheses (withPeer d) (.collRed, 2) (long 8 4 2 2 0 0) (fun k => (acqScope k.f).isNone && p k) &&
      collHypotheses (withPeer d) (.collRed, 2) (long 8 4 2 2 0x40 8) (fun k => (acqScope k.f).isSome && p k) &&
      collHypotheses (withPeer d) (.collRed, 2) (long 8 4 2 2 0x80 8) (fun k => (relScope k.f).isSome && p k) &&
      collHypotheses (withPeer d) (.collPut, 0) { long 8 4 0 2 0x30 0 with g := ⟨4, false⟩ } fun k => (laneList k.mask).isEmpty) = true ∧
    collHypotheses (withPeer 6) (.collPut, 0) (long 8 4 0 2 0x30 0) (farLanes false) = true ∧
    readyWith (withPair 2) (.collRed (long 8 20 2 2 0 0)) (fun k => (laneList k.mask).any fun lane =>
      (k.collAddr lane).toNat % atomSize (atomTyOf (ctlType k.f.c)) ≠ 0) = true ∧
    ([0, 3, 7, 31] : List Nat).Pairwise (· < ·) := by
  decide +kernel

/-- The hypotheses of `CollectiveStarts`; `bad` that the descriptor is. -/
def gcollHypotheses (s : State) (row : (Long → Instr) × BitVec 2) (l : Long) (bad : Bool) : Bool :=
  let i := row.1 l
  readyWith s i fun k =>
    (s.colls.filter fun c => c.stage < 3).length < 16 && (s.issued i k).released k 8 &&
    !(s.issued i k).blinded k.team.uid k.grp.gid && holdsOk ((s.issued i k).commDesc k) fun (d, _) =>
      collDescBad {
        uid := 0, ctx := 0, grid := 0, gridId := 0, op := row.2, desc := d, seq := 0, map := [], deadline := 0, planning := [],
        plan := [], seen := [], inbox := [], kept := [], scaled := [], sent := [], finals := [], smax := [], sats := 0, stage := 0,
        failing := none, stalled := false } = bad

/-- An empty vector of one rank; `tensor`'s dword 2 with bit 31 set is COUNT 2^32 - 1; one with a reserved bit. -/
theorem witness_collectiveStarts :
    gcollHypotheses tensor (.gcollAr, 0) (long 0 9 0 0 0 0) false = true ∧
    gcollHypotheses base (.gcollRs, 1) (long 0 9 1 0 0 0) false = true ∧
    gcollHypotheses base (.gcollAg, 2) (long 0 9 2 0 0 0) false = true ∧
    gcollHypotheses { base with storage := { base.storage with mem := SMap.setRun base.storage.mem 0x3017 [0x80#8] } } (.gcollAr, 0)
      (long 0 9 0 0 0 0) true = true := by decide +kernel

/-- The hypotheses of `PeerRequestResults` on a request of device 5 in the job of context 0, at 0x3000. -/
def peerHypotheses (s : State) (later bad : Bool) (a : PeerAsk) : Bool :=
  let n := peerAskSize a
  (s.kept? 5 8).isNone && (s.ctxOf 0).isSome && s.pageExists 0x3000 && s.pageExists (0x3000 + (n - 1)) &&
    s.servedLater (.mem 0x3000 none .home) n = later && s.poisoned 0x3000 n = bad

def collPacket (ctl : BitVec 8) : CollPacket :=
  { source := 5, tag := 8, job := 0, ctl := ctl, base := 0x3000, parts := [⟨0, 0, 7⟩, ⟨31, 248, 9⟩] }

/-- `base` with line 96, at 0x3000, poisoned, or owned by the host; with a lane of a packet at an unmapped place. -/
def spoiltLine : State := { base with storage := { base.storage with poison := [(96, 0)] } }
def ownedLine : State := { base with storage := { base.storage with hostOwned := [96] } }
def unmapped : CollPacket := { collPacket 0x30 with base := 0x1000000000 }

def packetHypotheses (s : State) (ctl : BitVec 8) (w : Bool) (bad : Loc → Bool) (later poison : Bool) : Bool :=
  let n := atomSize (atomTyOf (ctlType ctl))
  holdsOk (s.packetPlaces (collPacket ctl) w bad) fun (_, l) => l.length = 2 && (l.any fun e => s.servedLater e.2 n) = later &&
    (l.any fun e => s.locPoisoned e.2 n) = poison

/-- A request answered before; one of a job that no context has, one at an address that does not exist; each kind at a place
that is free, owned by the host, and poisoned; a packet with a lane at an unmapped address; a page at a hole. -/
theorem witness_peerRequests :
    (({ base with fabric := { base.fabric with answered := [(5, 8, .data [])] } } : State).kept? 5 8).isSome = true ∧
    (base.ctxOf 1).isNone = true ∧ base.pageExists (2 ^ 44) = false ∧
    [PeerAsk.read 8, .write [1, 2], .atomic .add .n64 1 0].all (fun a => peerHypotheses base false false a &&
      peerHypotheses spoiltLine false true a && peerHypotheses ownedLine true false a) = true ∧
    (packetHypotheses base 0x30 true (fun _ => false) false false && packetHypotheses base 0x30 false (fun _ => false) false false &&
      packetHypotheses base 0 true (fun l => (atomTarget .add .n32 l).isSome) false false) = true ∧
    (packetHypotheses ownedLine 0x30 true (fun _ => false) true false && packetHypotheses ownedLine 0x30 false (fun _ => false) true false &&
      packetHypotheses ownedLine 0 true (fun l => (atomTarget .add .n32 l).isSome) true false) = true ∧
    (packetHypotheses spoiltLine 0x30 false (fun _ => false) false true &&
      packetHypotheses spoiltLine 0 true (fun l => (atomTarget .add .n32 l).isSome) false true) = true ∧
    (holds (base.ctxOf 0) fun c => unmapped.parts.all fun q =>
      match base.probe c.id (unmapped.base + BitVec.ofNat 64 q.offset) .read with
      | .cause _ | .replay _ => true
      | _ => false) = true ∧
    (let e : DWord := 0x00100FFFFFFFF000
     pteKey e = 0 ∧ pteLoc e = 1 ∧ pteHdev e = base.fabric.deviceId.toNat ∧
       base.pageExists (ptePfn e + (0 : DWord).toNat % 2 ^ pageShift (ptePS e)) = false) ∧
    (let e : DWord := 0xFFFFFFFF000
     pteKey e = 0 ∧ pteLoc e = 0 ∧ base.pageExists (ptePfn e + (0 : DWord).toNat % 2 ^ pageShift (ptePS e)) = false) := by
  decide +kernel

/-- One request of this device, by port 0 to peer 5, and the ports to it. -/
def sent (ask : OutAsk) (use : ReqUse) (deadline : Nat) : State :=
  { base with fabric := { base.fabric with
      topology := [(5, [0, 1])], ports := List.replicate 36 .up,
      requests := [{
        tag := 8, dev := some 5, job := 0, addr := 0x3000, ask := ask, use := use, deadline := deadline, port := 0 }] } }

def hasRequest (s : State) (p : Request → Bool) : Bool := holds (s.request? 8) fun q => q.dev.isSome && p q
def storing (deadline : Nat) : State := sent (.write [1]) (.store 1 0 0 9 false 0x3000 none) deadline

/-- A window store that went over the host link, which is up or down. -/
def overLink (up : Bool) : State :=
  { base with
    host := { base.host with linkUp := up },
    fabric := { base.fabric with requests := [{
      tag := 8, dev := none, job := 0, addr := 0x3000, ask := .write [1], use := .store 1 0 0 9 true 0xC0000000 none, deadline := 9,
      port := 0 }] } }

/-- A load, a store, an agent's read and its write, a get; one in time and one out of time; a store to a host window with the link up
and down; a port that goes down, one that slows down and one that comes up. -/
theorem witness_answersAndPorts :
    hasRequest (sent (.read 4) (.load 1 0 3 0 31 0x3000) 9) (fun q => !(storing 9).overdue q) = true ∧
    hasRequest (sent (.read 4) (.load 1 0 3 0 31 0x3000) 0) (fun q => (storing 0).overdue q) = true ∧
    hasRequest (storing 9) (fun q => !(storing 9).overdue q) = true ∧ hasRequest (storing 0) (fun q => (storing 0).overdue q) = true ∧
    [ReqUse.read (0, 3) 0x3000, .write (0, 3) 0x3000].all (fun u => hasRequest (sent (.read 4) u 9) fun _ => true) = true ∧
    hasRequest (sent (.coll 0 1 [⟨31, 0, 0⟩]) (.load 1 0 3 0 0 0x3000) 9) (fun _ => true) = true ∧
    (let s := storing 9
     s.fabric.ports.length = 36 && s.fabric.ports.getD 0 .down ≠ .down && s.colls = [] &&
       (after (exec (.portStateChange 0 .down) s)).portsTo 5 ≠ []) = true ∧
    (let s := after (exec (.portStateChange 35 .down) (storing 9))
     s.fabric.ports.length = 36 && s.fabric.ports.getD 35 .down ≠ .up && s.fabric.ports.getD 35 .down ≠ .slow) = true ∧
    [true, false].all (fun up => holds ((overLink up).request? 8) fun q => q.dev.isNone && (overLink up).host.linkUp = up) = true := by
  decide +kernel

/-- A collective between two ranks, this one 0, from 0x4000 to 0x5000, DONE at 0x6000: of four 64-bit integers, of two MXINT8
blocks with `dtype` 8. -/
def coll (op : BitVec 2) (dtype : Nat) : Coll :=
  {
    uid := 800, ctx := 0, grid := 0, gridId := 0, op := op,
    desc := [0x4000, 0x5000, if dtype = 8 then 64 else 4, BitVec.ofNat 64 (2 ^ 16 + dtype * 2 ^ 28), 0, 0x6000, 0, 77], seq := 0,
    map := [0, 5], deadline := 100, planning := [], plan := [], seen := [], inbox := [], kept := [], scaled := [], sent := [],
    finals := [], smax := [], sats := 0, stage := 0, failing := none, stalled := false }
def collecting (c : Coll) : State := { base with colls := [c] }
def chunk (n : Nat) (dtype : BitVec 4 := 6) (poison : Bool := false) (xw : BitVec 2 := 0) : Chunk :=
  {
    source := 5, tag := 0, job := 0, commId := 0, seq := 0, chunk := 0, dtype := dtype, fromRank := 1, stepNo := 2, xw := xw,
    poison := poison, payload := List.replicate n 0 }

/-- The chunk's collective is `c`, which `f` then describes. -/
def arriving (c : Coll) (p : Chunk) (f : Coll → Bool) : Bool :=
  ((collecting c).ctxOf p.job).isSome && holds ((collecting c).collOf p) f
def going (c : Coll) : Bool := c.failing = none && c.stage ≠ 3
/-- A collective that is over here. -/
def ended : Coll := { coll 0 6 with stage := 3 }

/-- A packet of a job that no context has; one before this rank's collective, held or not yet; one after it; for one that has
failed or is complete; a FORWARD for one that is complete, which fits; seen before, acted on or waiting; poisoned; of another type,
of the wrong length; one that fits. -/
theorem witness_chunks :
    (base.ctxOf 1).isNone = true ∧ (base.collOf (chunk 32)).isNone = true ∧ base.collPast (chunk 32) = false ∧
    (base.fabric.early = []) ∧ (base.ctxOf 0).isSome = true ∧
    (let s : State := { base with fabric := { base.fabric with early := [(0, chunk 32)] } }
     (s.collOf (chunk 32)).isNone && !s.collPast (chunk 32) && s.fabric.early.contains (0, chunk 32)) = true ∧
    ({ base with fabric := { base.fabric with comms := [⟨0, 0, 1, false⟩] } } : State).collPast (chunk 32) = true ∧
    arriving { coll 0 6 with failing := some 1 } (chunk 32) (fun c => c.failing ≠ none) = true ∧
    arriving ended (chunk 32) (fun c => c.stage = 3 && c.failing = none && c.seen = [] && c.fits 0 (chunk 32)) = true ∧
    arriving { coll 0 6 with seen := [(0, 2, 1)] } (chunk 32) (fun c => going c && c.seen.contains (0, 2, 1) && c.inbox = []) = true ∧
    arriving { coll 0 6 with seen := [(0, 2, 1)], inbox := [(1, chunk 32)] } (chunk 32) (fun c => going c &&
      c.inbox.any fun e => e.2 = chunk 32) = true ∧
    arriving (coll 0 6) (chunk 32 6 true) (fun c => going c && c.seen = []) = true ∧
    [(chunk 32 7, false), (chunk 31, false), (chunk 32, true)].all (fun e => arriving (coll 0 6) e.1 fun c =>
      going c && c.seen = [] && c.fits 1 e.1 = e.2) = true := by decide +kernel

/-- The hypotheses on a collective whose chunk 0 goes on. -/
def stepsFrom (c : Coll) (f : ChunkStep → Bool) (stage : Nat := 0) : Bool :=
  (collecting c).coll? 800 = some c && !c.stalled && c.failing = none && c.stage = stage && c.map ≠ [] && f (c.next 0) &&
    isOk ((collecting c).writeFinal c 0 (c.ofPayload 2 (List.replicate 32 0))) &&
    holdsOk ((collecting c).contribution c 0) fun e => isOk (e.2.writeFinal c 0 e.1)

def passing : ChunkStep → Bool
  | .pass _ _ => true
  | _ => false

/-- The rank at the end of a plan for two, and the other. -/
def root : PlanStep := ⟨0, none, [1]⟩
def leaf : PlanStep := ⟨0, some 1, []⟩

/-- Each step of a chunk; a FORWARD at the end of the plan and before it; a collective that is past its steps. -/
theorem witness_chunkSteps :
    stepsFrom (coll 0 6) (fun x => x = .none) = true ∧
    stepsFrom { coll 0 6 with plan := [leaf], inbox := [(0, chunk 32)] } (fun x => x = .pass (0, chunk 32) (some 1)) = true ∧
    stepsFrom { coll 0 6 with plan := [root], inbox := [(0, chunk 32)] } (fun x => x = .pass (0, chunk 32) none) = true ∧
    stepsFrom { ended with plan := [leaf], inbox := [(0, chunk 32)] } (fun x => x = .pass (0, chunk 32) (some 1)) 3 = true ∧
    stepsFrom { coll 0 6 with stage := 1, inbox := [(2, chunk 32)] } (fun x => !passing x) 1 = true ∧
    stepsFrom { coll 0 6 with inbox := [(2, chunk 32)] } (fun x => x = .write (2, chunk 32)) = true ∧
    stepsFrom { coll 2 6 with plan := [leaf] } (fun x => x = .share) = true ∧
    stepsFrom { coll 0 6 with plan := [leaf] } (fun x => x = .sum [] (some 1)) = true ∧
    stepsFrom { coll 0 6 with plan := [root], inbox := [(1, chunk 32)] } (fun x => x = .sum [(1, chunk 32)] none) = true ∧
    stepsFrom { coll 0 8 with plan := [leaf] } (fun x => x = .scalesUp [] (some 1) []) = true ∧
    stepsFrom { coll 0 8 with plan := [root], inbox := [(3, chunk 2 8)] } (fun x => x = .scalesUp [(3, chunk 2 8)] none [1]) = true ∧
    stepsFrom { coll 0 8 with plan := [leaf], scaled := [0], inbox := [(3, chunk 2 8)] } (fun x => x = .scalesDown (3, chunk 2 8) []) =
      true := by decide +kernel

/-- Data for a chunk not yet in the buffer; a plan's payload read back. -/
theorem witness_finalAndPlan :
    (holds ((coll 0 6).dstVa 0) fun va => (coll 0 6).finals = [] &&
      isOk ((collecting (coll 0 6)).putPlan 0 va ((coll 0 6).finalBytes [1, 2, 3, 4]).1)) = true ∧
    (let e : PlanStep := ⟨5, some 1023, [0, 2]⟩
     let p : Chunk := { chunk 0 with chunk := 5, payload := planPayload e }
     p.payload = planPayload e ∧ p.chunk.toNat = e.first ∧ ∀ r, r ∈ e.children ∨ e.parent = some r → r < 1024) := by
  refine ⟨by decide +kernel, rfl, by decide, ?_⟩
  simp only [List.mem_cons, List.not_mem_nil, or_false, Option.some.injEq]
  omega

/-- The hypotheses of `CollectiveSteps` on a collective that goes on. -/
def completing (c : Coll) (f : State → Bool) : Bool :=
  let s := collecting c
  s.coll? 800 = some c && !c.stalled && !s.keyBusy c.key && f s

/-- Everything of `coll 0 6` written and sent. -/
def allDone : Coll := { coll 0 6 with finals := [0], sent := [0] }
def keptChunk : KeptChunk := ⟨5, 1, { chunk 32 with fromRank := 0 }, some 9⟩
def doneAt (c : Coll) (s : State) : Bool := holdsOk (s.putPlan c.ctx (c.dword 5) (leBytes 8 0)) fun ps => ps.all fun p => !s.isRemote p.loc

/-- The same with every port down, so that no rank can be reached. -/
def isolated (c : Coll) : State := { collecting c with fabric := { base.fabric with ports := List.replicate 36 .down } }

/-- Deterministic and not; with every other rank within reach, and with none. -/
theorem witness_plans :
    (let det : Coll := { coll 0 6 with desc := (coll 0 6).desc.set 3 (BitVec.ofNat 64 (2 ^ 37 + 2 ^ 16 + 6 * 2 ^ 28)) }
     det.det = true ∧ (coll 0 6).det = false ∧ (coll 0 6).stage = 0 ∧ (coll 0 6).failing = none) ∧
    [(collecting (coll 0 6), true), (isolated (coll 0 6), false)].all (fun e => e.1.coll? 800 = some (coll 0 6) &&
      (e.1.cutFrom (coll 0 6) (coll 0 6).map).isNone = e.2) = true ∧
    (planStepOf false 3 0 5 0).parent = some 1 ∧ (planStepOf true 3 2 0 0).parent = some 0 := by decide +kernel

/-- A plan packet of this rank and of none; a credit; before and at the deadline; a rank out of reach; a step to take, none to take;
complete, with and without a saturation count and kept chunks; failed. -/
theorem witness_collectiveSteps :
    ((collecting { coll 0 6 with planning := [chunk 2] }).colls.find? fun c => c.planning.contains (chunk 2)).isSome = true ∧
    ((collecting (coll 0 6)).colls.find? fun c => c.planning.contains (chunk 2)).isNone = true ∧
    arriving (coll 0 6) (chunk 0) (fun c => (collecting (coll 0 6)).coll? c.uid = some c) = true ∧
    completing (coll 0 6) (fun s => going (coll 0 6) && 2 ≤ (coll 0 6).ranks && !(coll 0 6).whole && s.devclk.toNat < (coll 0 6).deadline &&
      (coll 0 6).next 0 = .none && (coll 0 6).chunks = 1 && (coll 0 6).stage = 0 && (s.cutFrom (coll 0 6) (coll 0 6).map).isNone) = true ∧
    ((isolated (coll 0 6)).cutFrom (coll 0 6) (coll 0 6).map).isSome = true ∧ (coll 0 6).whole = false ∧
    (coll 0 6).deadline ≤ ({ collecting (coll 0 6) with devclk := 100 } : State).devclk.toNat ∧
    completing { coll 0 6 with plan := [leaf] } (fun _ => ({ coll 0 6 with plan := [leaf] } : Coll).next 0 ≠ .none) = true ∧
    [allDone, { allDone with kept := [keptChunk] }].all (fun c => completing c fun s => going c && c.whole && c.next 0 = .none &&
      c.dword 6 = 0 && doneAt c s) = true ∧
    (let c := { allDone with desc := allDone.desc.set 6 0x7000 }
     completing c fun s => c.whole && c.next 0 = .none && doneAt c s && isOk (s.countPlace c.ctx (c.dword 6))) = true ∧
    (let c := { coll 0 6 with failing := some 4 }
     completing c fun s => c.stage < 2 && doneAt c s) = true := by decide +kernel

/-! ### Witnesses: streams and placement -/

def cmd (c1 c2 c3 : DWord) (sub : BitVec 3) (wait : Bool) : Command :=
  { arg1 := 0, rsv := 0, sub := sub, irq := false, wait := wait, c1 := c1, c2 := c2, c3 := c3 }

/-- Stream 63 of `streamState`'s kind, with nothing launched: it may execute commands. -/
def idleGrids : State :=
  { base with
    issuer := .stream 63, grids := [],
    streams := base.streams.set 63 { base.stream 63 with running := true, ctx := 0, pc := 0x1000, wait := .none } }

/-- The same with x in the dword at 0x3000. -/
def withDword (x : Nat) : State := { idleGrids with storage := { idleGrids.storage with mem := SMap.setRun idleGrids.storage.mem 0x3000 (leBytes 8 x) } }

def mayCommand (s : State) (c : Command) : Bool :=
  s.issuer = .stream 63 && (s.stream 63).running && (s.stream 63).wait = .none && c.arg1 = 0 && c.rsv = 0 && s.streamQuiet 63

def reads (s : State) (x : Nat) : Bool := holdsOk (s.cpDword 63 0x3000 0xFFFFFFFF) fun e => e.1 = BitVec.ofNat 64 x

/-- A command that runs with an earlier launch still going on, and one whose context drains. -/
def busyStream : State := { idleGrids with grids := base.grids.map fun g => { g with stream := 63 } }
def drainingStream : State := { idleGrids with ctxs := idleGrids.ctxs.map fun c => { c with phase := .draining } }

def ready63 (s : State) (c : Command) : Bool :=
  s.issuer = .stream 63 && (s.stream 63).running && (s.stream 63).wait = .none && c.arg1 = 0 && c.rsv = 0

/-- A reserved field that is not zero; each command where it may run: LOOP at 0 and at 1, BRANCH always, taken and not taken,
WAITPH met, not met, and at a poll, SIGNAL of both kinds; with reserved fields and misaligned addresses; while an earlier launch goes
on; in a context that drains; a dword at a place that is free. -/
theorem witness_commands :
    (ready63 idleGrids (cmd 0 0 0 0 false) && { cmd 0 0 0 0 false with arg1 := 1 }.arg1 ≠ 0) = true ∧
    [cmd 0 0 0 0 true, cmd 5 0 0 0 true, cmd 0x3000 0x3020 0 0 true, cmd 0x3000 7 0x3FE0 1 true].all (mayCommand idleGrids) = true ∧
    [cmd 0 1 1 0 true, cmd 0x3004 0 0 0 true, cmd 0x3000 0x3010 0 0 true, cmd 0x3000 0 0x3010 0 true].all (ready63 idleGrids) = true ∧
    (reads (withDword 0) 0 && reads (withDword 1) 1 &&
      isOk ((withDword 1).cpPut 63 0x3000 (.write (leBytes 8 0)) 0xFFFFFFFF) &&
      [OutAsk.write (leBytes 8 7), .atomic .add .n64 7 0].all fun a => isOk ((idleGrids.protectStream 63).cpPut 63 0x3000 a 0xFFFFFFFF)) =
      true ∧
    (ready63 busyStream (cmd 0 0 0 0 true) && !busyStream.streamQuiet 63 && !busyStream.draining 63) = true ∧
    (ready63 drainingStream (cmd 0x3000 0 0 1 false) && drainingStream.draining 63 && reads drainingStream 0) = true ∧
    mayCommand (withDword 1) (cmd 0x3000 0 0 2 true) = true ∧ (withDword 1).draining 63 = false ∧
    (idleGrids.probe 0 0x3000 .read = .ok (.mem 0x3000 none .full) ∧ idleGrids.probe 0 0x3000 .write = .ok (.mem 0x3000 none .full) ∧
      idleGrids.locHeld (.mem 0x3000 none .full) 8 = false ∧ idleGrids.locPoisoned (.mem 0x3000 none .full) 8 = false) ∧
    Claims.comparison 0 0 0 ∧ ¬Claims.comparison 1 0 0 ∧ Claims.comparison 2 0 1 ∧ ¬Claims.comparison 3 0 1 ∧
    63 < idleGrids.streams.length := by
  refine ⟨?_, ?_, ?_, ?_, ?_, ?_, ?_, ?_, ?_, rfl, fun h => h rfl, ?_, fun h => ?_, ?_⟩
  all_goals first | decide +kernel | (show (0 : Nat) < 1; decide) | exact absurd (show (1 : Nat) ≤ 0 from h) (by decide)

theorem witness_waitphPoll :
    (let s := withDword 1
     let s := { s with streams := s.streams.set 63 { s.stream 63 with wait := .phase 0x3000 0 0 2 true } }
     (s.stream 63).running && (s.stream 63).wait = .phase 0x3000 0 0 2 true && reads s 1) = true := by decide +kernel

/-- A launch record at 0x3000: one team of one group at 0x1000, with its root word at `root` and word 6 given; the dword of
LAUNCHI at 0x3040 holds 2^32 - 1. -/
def recordAt (root w6 : Nat) : State :=
  let m := SMap.setRun idleGrids.storage.mem 0x3000 (leBytes 8 0x0001F00100000001 ++ leBytes 8 0x102 ++ leBytes 8 0x1000 ++
    leBytes 8 0 ++ leBytes 8 0 ++ leBytes 8 root ++ leBytes 8 w6 ++ leBytes 8 0 ++ leBytes 8 0xFFFFFFFF)
  { idleGrids with storage := { idleGrids.storage with mem := m } }

def launchHypotheses (s : State) (p : List DWord → Bool) : Bool :=
  mayCommand s (cmd 0x3000 0 0 0 true) && match s.cpRead 63 0x3000 64 with
  | .bytes b => p (dwordsOf b)
  | _ => false

/-- A record with a reserved dword; one without and one with a root word; LAUNCHI's dword; PUBLISH at a host counter, with the link down too; HCOPY; a
host copy of 4 KiB to the device, one that is wrong. -/
theorem witness_launchAndCopy :
    launchHypotheses (recordAt 0 1) (fun d => launchErr d 1 = some 2) = true ∧
    launchHypotheses (recordAt 0 0) (fun d => launchErr d 1 = none && d.getD 5 0 = 0) = true ∧
    launchHypotheses (recordAt 0x4000 0) (fun d => launchErr d 1 = none && d.getD 5 0 = 0x4000 &&
      isOk ((recordAt 0x4000 0).cpPut 63 0x4000 (.atomic .add .n64 (BitVec.ofNat 64 (2 ^ 63 - 32 * 2 ^ 57)) 0) 1)) = true ∧
    isOk (((recordAt 0 0).rekeySpans 0 [(0x3000, 64)]).cpDword 63 0x3040 1) = true ∧
    (mayCommand idleGrids (cmd 0x40000000 0 0 0 true) && idleGrids.probe 0 0x40000000 .write = .ok (.host 0) &&
      idleGrids.host.linkUp && !(idleGrids.stream 63).lostWrites) = true ∧
    (let s := { idleGrids with host := { idleGrids.host with linkUp := false } }
     mayCommand s (cmd 0x40000000 0 0 0 true) && s.probe 0 0x40000000 .write = .ok (.host 0) && !s.host.linkUp) = true ∧
    mayCommand idleGrids (cmd 0x40000000 0x3000 0xFFFFFFFFFF 0 true) = true ∧ bits (0xFFFFFFFFFF : DWord).toNat 63 40 = 0 := by
  decide +kernel

def hostCopy (src dst n : Nat) : HostCopy :=
  {
    ctx := 0, pc := 0x1000, toHost := false, src := BitVec.ofNat 64 src, dst := BitVec.ofNat 64 dst, count := n, irq := true,
    gen := 0, stalled := false }

def hostCopying (c : HostCopy) : State := { base with streams := base.streams.set 0 { base.stream 0 with copies := [c] } }

def bytesOfGot (g : Got) : Option (List Byte) :=
  match g with
  | .bytes b => some b
  | _ => none

theorem witness_hcopyComplete :
    (let c := hostCopy 0x40000000 0x3000 64
     let s := hostCopying c
     ((s.stream 0).copies.zipIdx.find? fun e => !e.1.stalled) = some (c, 0) && !s.hostCopyWrong c && s.host.linkUp &&
       holds (bytesOfGot (s.readSpan c.ctx (streamKey 0) c.src c.count)) fun b => isOk (s.putPlan c.ctx c.dst b)) = true ∧
    (let c := hostCopy 0x3000 0x3000 64
     (hostCopying c).hostCopyWrong c) = true := by decide +kernel

/-- A grid of one team, not placed. -/
def unplaced : State := { base with grids := [{ probeGrid with next := 0 }], teams := [], groups := [] }

theorem waiting_of_ordered (s : State) (l : List Grid)
    (h : (s.grids.filter fun g => g.next < g.teams && s.ctxs.any fun c => c.id = g.ctx && c.phase = .active) = l)
    (o : l.Pairwise fun a b => b.launch.prio ≤ a.launch.prio) : s.waitingGrids = l := by
  unfold State.waitingGrids
  rw [h]
  exact List.mergeSort_of_pairwise (o.imp fun h => by simpa using h)

/-- The last core takes the grid's team. -/
theorem witness_placement :
    unplaced.reap.waitingGrids = [{ probeGrid with next := 0 }] ∧
    unplaced.reap.placeable { probeGrid with next := 0 } 383 = true ∧
    (unplaced.grid? 0).map Grid.spawnUnits = some 0 := by
  refine ⟨waiting_of_ordered _ _ (by decide +kernel) (List.pairwise_singleton _ _), by decide +kernel, by decide +kernel⟩

/-- `base`'s grid with spawn groups, and 32 items of one entry in core 0's collector. -/
def gathered : State :=
  { base with
    grids := base.grids.map fun g => { g with root := 0x3000, l1 := g.l1 ||| BitVec.ofNat 64 (1 * 2 ^ 37) },
    cores := [{ base.core 0 with forming := [{
      grid := 0, entry := 0x1000, items := (List.range 32).map fun i => ⟨0x1000, BitVec.ofNat 32 i, 7, 1, 1, 0, 0, 0⟩ }] }] }

/-- The same with a spawn team. -/
def collected : State := { gathered with teams := base.teams ++ [{ probeTeam with uid := 2, spawn := true, partword := 0 }] }

def startHypotheses (s : State) : Bool :=
  let s1 := s.reap
  holds ((s1.core 0).forming.find? fun f => f.entry = 0x1000 && s1.startable 0 f) fun f =>
    holds (s1.grid? f.grid) fun g => g.root ≠ 0

/-- A spawned group may start, with and without its team there; a grid with a team left, and one that is done. -/
theorem witness_spawnedAndComplete :
    startHypotheses collected = true ∧ startHypotheses gathered = true ∧
    (holds (base.reap.grid? 0) fun g => !base.reap.gridDone g) = true ∧
    (let s := ({ base with teams := [], groups := [] } : State).reap
     holds (s.grid? 0) fun g => s.gridDone g) = true := by decide +kernel

/-! ### Witnesses: exceptions and management -/

/-- `base` with a cause raised by split 0 and the group's g63 given. -/
def trapped (g63 : DWord) : State := (after (exec (.undefinedEncoding 0x02) (withGroup base fun h => h.setG 63 g63)))

def entryHypotheses (s : State) (p : Group → Bool) : Bool :=
  holds (s.team? 1) fun x => x.halted && !x.handler && s.teamQuiet 1 && s.mgmt.faults.all (fun f => f.seq ≠ noSeq) &&
    holds (originOf (s.groups.filter fun h => h.team = 1)) fun (h, r) => p h && r.code = 0x02 && h.recordedSplit.isSome && !h.isOver

/-- `base` with its handler at an end, and late causes held. -/
def resuming (late : List LateCause) : State :=
  let s := trapped 0x2000
  ({ s with groups := s.groups.map fun h => { h with saved := some h.splits, splits := [], raised := none, late := late } } : State).modTeam
    1 fun x => { x with handler := true }

/-- A group about to raise, and one that has raised before; a halted team without and with a handler; a group that is halted for
more than 24 cycles, one with 48 instructions issued since, one that raised; a stall on two pages. -/
theorem witness_exceptions :
    (holds base.issuing fun e => mayIssue e.1 e.2.1 e.2.2 && !windowWaits e.2.1 e.2.2 && !e.2.1.inHandler && e.2.1.raised = none) =
      true ∧
    (holds ((trapped 0).group? 1 0) fun h => !h.inHandler && h.raised.isSome && h.raisers = [0]) = true ∧
    (holds (({ base.modTeam 1 fun x => { x with halted := true, haltAge := 385 } with issuer := .split 1 0 0 } : State).issuing) fun e =>
      e.1.halted && !e.1.handler && 24 * 16 < e.1.haltAge) = true ∧
    (holds ((withGroup base fun h => { h with skid := 48 }).group? 1 0) fun h => 48 ≤ (h.skid &&& 0x7F).toNat) = true ∧
    (holds ((base.modTeam 1 fun x => { x with halted := true }).team? 1) fun x => x.halted && !x.handler) = true ∧
    (holds (base.team? 1) fun x => ((base.stall x 0 0 [(0x1000, 0x12), (0x2000, 0x12)] 0 0x01).mgmt.faults.length = 2 : Bool) &&
      (base.group? x.uid 0).isSome) = true ∧
    entryHypotheses (trapped 0) (fun h => h.greg 63 = 0) = true ∧
    entryHypotheses (trapped 0x2000) (fun h => h.greg 63 ≠ 0) = true := by decide +kernel

/-- A team whose handlers have ended, without and with causes held; a timer that is due and one that is not. -/
theorem witness_resumeAndTimer :
    (let s := resuming []
     holds (s.team? 1) fun x => x.handler && !x.timerHeld && s.groups.all fun h => h.late = [] && (!h.inHandler || h.splits = [])) =
      true ∧
    (let s := resuming [plainCause 0x21 0, plainCause 0x17 0]
     holds (s.team? 1) fun x => x.handler && !x.timerHeld && s.groups.length = 1 && s.groups.all fun h => h.team = 1 && h.late ≠ [] &&
       h.splits = []) = true ∧
    (holds (({ base.modTeam 1 fun x => { x with timer := 1 } with ctxs := base.ctxs.map fun c => { c with ctxclk := 1 } } : State).team? 1)
      fun x => ({ base with ctxs := base.ctxs.map fun c => { c with ctxclk := 1 } } : State).timerDue x) = true ∧
    (holds (base.team? 1) fun x => !base.timerDue x) = true := by decide +kernel

/-- A fault record outstanding, and none of that number. -/
theorem witness_fqans :
    (let s := base.modMgmt fun m => { m with faults := [⟨1, 0, 0, []⟩] }
     (s.mgmt.faults.find? fun f => f.seq = (1 : BitVec 63).toNat).isSome &&
       (s.mgmt.faults.find? fun f => f.seq = (2 : BitVec 63).toNat).isNone) = true := by decide +kernel

/-- `base` with command `op` for context 0 running, and what it read from MARG0; one for context 15. -/
def managed (op : Nat) (a : DWord) : State := base.modMgmt fun m => { m with
  ready := true, busy := true, mcmd := mcmdWord op ⟨0, 0⟩, arg0 := a }
def managedAt (m : MCmd) (op : Nat) (a : DWord) : State := (managed op a).modMgmt fun x => { x with mcmd := mcmdWord op m }

def runsOn (s : State) (op : Nat) (m : MCmd := ⟨0, 0⟩) : Bool := s.commandRuns op m && s.mgmt.ready

/-- `managed` with context 0 in another phase, and with nothing of it left. -/
def phased (p : Phase) (op : Nat) (a : DWord) : State :=
  { managed op a with ctxs := base.ctxs.map fun c => { c with phase := p, deadline := 5 } }
def bare (s : State) : State := { s with grids := [], teams := [], groups := [] }

/-- Every command running; context 15 to be made, at a good and a bad place; context 0 in use, unused, active and saved; keys with
the link up; an empty save area, one whose first line the host owns, and one out of place. -/
theorem witness_contextCommands :
    (List.range 16).all (fun op => runsOn (managed op 0x10000) op) = true ∧
    runsOn (managedAt ⟨0, 15⟩ 1 0x10000) 1 ⟨0, 15⟩ = true ∧ (base.ctx? 15).isNone = true ∧
    ((0x10000 : DWord).toNat % 4096 = 0 ∧ base.inBand (0x10000 : DWord).toNat = true) ∧ (4 : DWord).toNat % 64 ≠ 0 ∧
    (holds ((managed 2 0).ctx? 0) fun c => c.id = 0 && c.phase = .active && (managed 2 0).reap.inUse 0 && (managed 2 0).reap.ctx? 0 = some c) =
      true ∧
    (holds (base.ctx? 0) fun c => !(bare (managed 2 0)).reap.inUse 0 && (bare (managed 2 0)).reap.ctx? 0 = some c) = true ∧
    (runsOn (managedAt ⟨3, 0⟩ 3 0) 3 ⟨3, 0⟩ && bits (3 : Word).toNat 1 0 ≠ 0 && base.host.linkUp) = true ∧
    (holds ((phased .saved 6 0x10000).ctx? 0) fun c => c.phase = .saved && !(phased .saved 6 0x10000).areaHeld 0x10000 &&
      ((phased .saved 6 0x10000).restoreFrom c 0x10000).isSome) = true ∧
    ({ phased .saved 6 0x10000 with storage := { base.storage with hostOwned := [512] } } : State).areaHeld 0x10000 = true := by
  decide +kernel

/-- A context that drains, before and at its deadline, with work left and with none. -/
theorem witness_drain :
    (holds ((phased .draining 0 0).ctx? 0) fun c => c.phase = .draining && (phased .draining 0 0).devclk.toNat < c.deadline &&
      (phased .draining 0 0).reap.ctx? 0 = some c && !(phased .draining 0 0).reap.drained 0) = true ∧
    (holds (({ phased .draining 0 0 with devclk := 5 } : State).ctx? 0) fun c => c.deadline ≤ 5) = true ∧
    (let s := bare (phased .draining 0 0)
     holds (s.ctx? 0) fun c => s.reap.ctx? 0 = some c && s.reap.drained 0 &&
       !s.reap.hostOwns c.saveArea.toNat (s.reap.saveRecords c).length) = true := by decide +kernel

/-! ### Witnesses: storage and the platform -/

def stored12 (op : Nat) (f : Storage → Storage) : State := { managed op 0 with storage := f base.storage }

/-- RETAIN, UNRETAIN, RESHAPE and LOSE in each of their cases that does not rest on node 1 being fitted. -/
theorem witness_storageCommands :
    [8, 9].all (fun op => runsOn (stored12 op fun st => { st with reshaping := true }) op) = true ∧ base.storage.reshaping = false ∧
    (let s := managedAt ⟨15, 0⟩ 9 0
     let t : State := { s with storage := { s.storage with retained := [(15, .held, 0)] } }
     runsOn t 9 ⟨15, 0⟩ && t.storage.retained.any fun r => r.1 = 15 && r.2.1 = .held) = true ∧
    (base.lostStacks = [] ∧ base.storage.retained = []) ∧
    (let s := stored12 10 fun st => { st with stackStates := st.stackStates.set 11 .lost }
     s.lostStacks = [11] ∧ s.storage.castled = none ∧ s.storage.retained = []) ∧
    (let s := stored12 10 fun st => { st with stackStates := (st.stackStates.set 11 .lost).set 0 .lost }
     runsOn s 10 = true ∧ s.lostStacks = [0, 11]) ∧
    (runsOn (managedAt ⟨11, 0⟩ 11 0) 11 ⟨11, 0⟩ && runsOn (managedAt ⟨12, 0⟩ 11 0) 11 ⟨12, 0⟩) = true := by decide +kernel

/-- Where node 1 is fitted: RETAIN's area at the lowest address of node 1; the loss of the last package. -/
theorem witness_capacityTier (h : capacityFitted = true) :
    capacityFitted = true ∧ inCapacity capacityBase = true ∧ inCapacity (capacityBase + 10742188 * 4096 - 1) = true ∧
      capacityBase % 4096 = 0 ∧ base.storage.packages.getD 7 true = false ∧ base.storage.retained = [] := by
  exact ⟨h, by decide +kernel⟩

theorem witness_retentionAndReshape :
    ((stored12 0 fun st => { st with retained := [(15, .entering, 0)] }).storage.retained.find? fun r => r.1 = (15 : BitVec 4).toNat) =
      some (15, .entering, 0) ∧
    (let s := stored12 0 fun st => { st with retained := [(15, .entering, 0)], hostOwned := [3] }
     ∃ l ∈ s.storage.hostOwned, lineIn (15 * 2 ^ 36) s.bandBytes l = true ∨ lineIn 0 s.bandBytes l = true) ∧
    (let s := stored12 0 fun st => { st with reshaping := true, castled := some 11 }
     s.storage.reshaping = true ∧ s.storage.castled = some 11 ∧ 11 < s.storage.stackStates.length) ∧
    (let s := stored12 0 fun st => { st with cwds := (List.range 64).map fun i => (11, i, 0) }
     s.stackLive 11 = true ∧ s.cwdCount 11 = 64 ∧ s.cwdCount 0 = 0) ∧
    (let s : State := { (stored12 0 fun st => { st with silent := [(11, 0)] }) with devclk := 2 ^ 40 }
     s.stackLive 11 = true ∧ ∃ e ∈ s.storage.silent, e.1 = 11 ∧ e.2 ≤ s.devclk.toNat) ∧
    base.storage.silent = [] ∧
    (stored12 0 fun st => { st with stackStates := st.stackStates.set 11 .lost }).stackLive 11 = false ∧
    (stored12 0 fun st => { st with packages := st.packages.set 7 true }).storage.packages.getD 7 true = true := by decide +kernel

/-- A dirty line; an entry of a journal that holds a parity delta for the last row. -/
def journalled : State :=
  stored12 0 fun st => { st with dirty := [3], journal := [⟨11, true, false, 249999999, 1, List.replicate 128 0xFF, none⟩] }

theorem witness_scrubAndJournal :
    journalled.storage.dirty.contains 3 = true ∧ journalled.storage.dirty.contains 4 = false ∧
    (holds (journalled.journalOf 11)[0]? fun e => journalled.stackLive 11 && SMap.wf journalled.storage.media && e.bytes.length = 128 &&
      decide (e.half < 2)) = true ∧
    journalled.stackLive 11 = true ∧ journalled.storage.retained = [] ∧ journalled.halfGone 11 249999999 1 = false ∧
    (stored12 0 fun st => { st with stackStates := st.stackStates.set 10 .lost }).halfGone 11 249999999 1 = true ∧
    journalled.cwdCount 11 < 63 ∧ (stored12 0 fun st => { st with cwds := (List.range 63).map fun i => (11, i, 0) }).cwdCount 11 = 63 ∧
    (base.mgmt.errWaiting = [] ∧ base.unread < 256 ∧ SMap.wf base.host.mem = true ∧ base.host.linkUp = true) := by decide +kernel

/-- Registers and streams: the first and the last value that PCAP and TMOUT take as they are; stream 63 stopped, and running;
commands that do not run, or not from READY 0; TOPO with and without contexts; recovery; k at 8, 15 and 16; one die's streams. -/
theorem witness_platform :
    base.boot ≠ .step1 ∧ base.host.linkUp = true ∧ (base.stream 63).running = false ∧ (base.ctxs.any fun c => c.id = bits (0 : DWord).toNat 3 0 && c.phase = .active) = true ∧
    base.streams.length = 64 ∧ (idleGrids.stream 63).running = true ∧
    base.commandRuns 15 ⟨0, 0⟩ = false ∧
    (let s := (managed 15 0).modMgmt fun m => { m with ready := false }
     s.commandRuns 15 ⟨0, 0⟩ && !s.mgmt.ready && !s.mgmt.recovery) = true ∧
    ((managed 0 0).mgmt.busy = true ∧ (managed 0 0).mgmt.mcmd = (0 : DWord) &&& 0xFFFFFFFF00000FFF) ∧
    (runsOn (managed 12 0) 12 && base.ctxs ≠ [] && base.host.linkUp) = true ∧
    runsOn { bare (managed 12 0) with ctxs := [] } 12 = true ∧ base.mgmt.rmctl.getLsbD 63 = false ∧
    (bits base.mgmt.arg1.toNat 31 0 = 0 ∧ base.mgmt.recovery = false) ∧
    [Boot.recovery true, .step3, .step4, .step5, .step2 false].all (fun b => ({ base with boot := b } : State).host.linkUp) = true ∧
    base.mgmt.clkMoved = none ∧ base.mgmt.clk = 16 ∧
    (base.modMgmt fun m => { m with clk := 8 }).mgmt.clk ≤ 8 ∧
    (base.stream 63).die = 0 ∧ (∀ x ∈ base.teams, x.ctx ∈ base.ctxs.map Ctx.id) := by decide +kernel

/-- The clauses on images: some image that verifies, where there is one. -/
theorem witness_images (img : List Byte) (h : Config.imageVerifies img = true) :
    ∃ b, b = img ∧ Config.imageVerifies b = true := ⟨img, rfl, h⟩

def linked (f : HostSide → HostSide) : State := { base with host := f base.host }

/-- The host's accesses with the link down and up, at memory and at a hole; atomics that write and that do not, on a
system-atomic page and on another; lines; one request to the host, in time and out of time. -/
theorem witness_hostLink :
    (linked fun h => { h with linkUp := false }).host.linkUp = false ∧
    (base.host.linkUp && base.spanExists 0x3000 8 && !base.locHeld (.mem 0x3000 none .home) 8 && !base.poisoned 0x3000 8 &&
      !base.spanExists (2 ^ 44) 8 && base.host.atomic.isNone && !base.systemAtomic 0x3000) = true ∧
    hostAtomicNew .fetchAdd 8 (2 ^ 64 - 1) 1 0 = some 0 ∧ hostAtomicNew .cas 4 0 1 2 = none ∧
    (let s := base.modMgmt fun m => { m with sar := m.sar.set 7 0x8000000000000000 }
     s.systemAtomic 0x3000 && s.systemAtomic 0x1FFFFF && !s.systemAtomic 0x200000 && s.spanExists (128 * 3) 128 &&
       !s.locHeld (.mem (128 * 3) none .home) 128) = true ∧
    (stored12 0 fun st => { st with hostOwned := [3] }).storage.hostOwned = [3] ∧
    (let s := { base with fabric := { base.fabric with requests := [{
        tag := 8, dev := none, job := 0, addr := 0, ask := .read 4, use := .read (0, 3) 0, deadline := 0, port := 0 }] } }
     s.fabric.requests.length = 1 ∧ s.devclk.toNat = 0) := by decide +kernel
end Sys2Proof.Tests
end

section
/-!
Control flow, commands and placement: the lemmas of the family on execution and the statements that they settle.
-/
namespace Sys2Proof.Machine

/-! ### What storage and the records of errors leave alone -/

/-- `t` is `s` but for storage, the host's side of the link and the registers of management. -/
structure StorageOnly (s t : State) : Prop where
  rest : { t with storage := s.storage, host := s.host, mgmt := s.mgmt } = s

namespace StorageOnly

variable {a b c : State}

theorem refl (s : State) : StorageOnly s s := ⟨rfl⟩

theorem trans (h : StorageOnly a b) (g : StorageOnly b c) : StorageOnly a c :=
  ⟨calc { c with storage := a.storage, host := a.host, mgmt := a.mgmt }
      _ = { ({ c with storage := b.storage, host := b.host, mgmt := b.mgmt } : State) with
            storage := a.storage, host := a.host, mgmt := a.mgmt } := rfl
      _ = { b with storage := a.storage, host := a.host, mgmt := a.mgmt } := by rw [g.rest]
      _ = a := h.rest⟩

/-- A change of those parts beforehand, or afterwards. -/
theorem of_set {st : Storage} {ho : HostSide} {mg : Mgmt} (h : StorageOnly { a with storage := st, host := ho, mgmt := mg } b) :
    StorageOnly a b :=
  ⟨(congrArg (fun x : State => { x with storage := a.storage, host := a.host, mgmt := a.mgmt }) h.rest :)⟩

theorem set {st : Storage} {ho : HostSide} {mg : Mgmt} (h : StorageOnly a b) :
    StorageOnly a { b with storage := st, host := ho, mgmt := mg } := ⟨h.rest⟩

theorem foldl {α : Type} {f : State → α → State} (hf : ∀ s x, StorageOnly s (f s x)) (l : List α) (s : State) :
    StorageOnly s (l.foldl f s) := by
  induction l generalizing s with
  | nil => exact refl s
  | cons x l ih => exact (hf s x).trans (ih _)

theorem groups (h : StorageOnly a b) : b.groups = a.groups :=
  (congrArg State.groups h.rest :)
theorem teams (h : StorageOnly a b) : b.teams = a.teams :=
  (congrArg State.teams h.rest :)
theorem grids (h : StorageOnly a b) : b.grids = a.grids :=
  (congrArg State.grids h.rest :)
theorem streams (h : StorageOnly a b) : b.streams = a.streams :=
  (congrArg State.streams h.rest :)
theorem ctxs (h : StorageOnly a b) : b.ctxs = a.ctxs :=
  (congrArg State.ctxs h.rest :)
theorem cores (h : StorageOnly a b) : b.cores = a.cores :=
  (congrArg State.cores h.rest :)

end StorageOnly

theorem storageOnly_raiseMsix (s : State) (v : Nat) : StorageOnly s (s.raiseMsix v) := by
  unfold State.raiseMsix
  split <;> exact ⟨rfl⟩

theorem storageOnly_interrupt (s : State) (b : BitVec 6) : StorageOnly s (s.interrupt b) :=
  .trans (b := s.raiseIrq b) ⟨rfl⟩ (storageOnly_raiseMsix _ _)

theorem storageOnly_hostWrite (s : State) (pa : Nat) (b : List Byte) : StorageOnly s (s.hostWrite pa b) := ⟨rfl⟩

theorem storageOnly_flushErrors (l : List Record) (s : State) : StorageOnly s (State.flushErrors l s) := by
  induction l generalizing s with
  | nil => exact ⟨rfl⟩
  | cons r l ih =>
    unfold State.flushErrors
    split
    · refine .trans ?_ (ih _)
      refine .trans ?_ (storageOnly_interrupt _ 1)
      exact (storageOnly_hostWrite s _ r.bytes).set
    · exact ⟨rfl⟩

theorem storageOnly_report (s : State) (sev src unit ctx detail : Nat) (addr : DWord) :
    StorageOnly s (s.report sev src unit ctx detail addr) := by
  unfold State.report
  split
  · exact ⟨rfl⟩
  · exact .of_set (storageOnly_flushErrors _ _)

theorem storageOnly_poisonLine (s : State) (src unit detail line : Nat) :
    StorageOnly s (s.poisonLine src unit detail line) := by
  unfold State.poisonLine
  split
  · exact ⟨rfl⟩
  · exact .of_set (storageOnly_report _ _ _ _ _ _ _)

theorem storageOnly_writeBackLine (s : State) (line : Nat) : StorageOnly s (s.writeBackLine line) := by
  unfold State.writeBackLine
  dsimp only
  split
  · exact ⟨rfl⟩
  split
  · exact .of_set (storageOnly_poisonLine _ _ _ _ _)
  · exact ⟨rfl⟩

theorem storageOnly_writeBackQueue (l m : List Nat) (s : State) : StorageOnly s (s.writeBackQueue l m) := by
  induction m generalizing s with
  | nil => exact .refl s
  | cons x m ih =>
    unfold State.writeBackQueue
    split
    · exact ih s
    dsimp only
    split
    · exact .trans (b := s.writeStripe _) ⟨rfl⟩ (ih _)
    · exact (storageOnly_writeBackLine s x).trans (ih _)

theorem storageOnly_writeBackLines (s : State) (l : List Nat) : StorageOnly s (s.writeBackLines l) :=
  storageOnly_writeBackQueue l l s

theorem storageOnly_retag (s : State) (key : KeyTag) (line : Nat) : StorageOnly s (s.retag key line) := by
  unfold State.retag
  split
  · exact .refl s
  dsimp only
  split
  · exact (storageOnly_writeBackLine s line).set
  · exact ⟨rfl⟩

theorem storageOnly_rekeyMem (s : State) (key : KeyTag) (pa n : Nat) : StorageOnly s (s.rekeyMem key pa n) := by
  unfold State.rekeyMem
  split
  · exact .refl s
  · refine .foldl (fun s x => ?_) _ _
    split
    · exact storageOnly_retag s key x
    · exact .refl s

theorem storageOnly_spillSlice (s : State) (line : Nat) : StorageOnly s (s.spillSlice line) := by
  unfold State.spillSlice
  split
  · exact .refl s
  dsimp only
  split
  · exact .refl s
  · exact storageOnly_writeBackLine s _

theorem storageOnly_writeMem (s : State) (key : KeyTag) (pol : Caching) (pa : Nat) (bytes : List Byte) :
    StorageOnly s (s.writeMem key pol pa bytes) := by
  unfold State.writeMem
  split
  · exact .refl s
  dsimp only
  have keyed := StorageOnly.foldl (fun s l => storageOnly_retag s key l) (linesOf pa bytes.length) s
  split
  · exact keyed.set.trans (storageOnly_writeBackLines _ _)
  · exact keyed.set.trans (.foldl storageOnly_spillSlice _ _)

theorem storageOnly_rekeyWalks (s : State) (ctx : Nat) (l : List DWord) : StorageOnly s (s.rekeyWalks ctx l) := by
  unfold State.rekeyWalks
  split
  · exact .refl s
  · refine .foldl (fun s va => ?_) _ _
    unfold State.rekeyWalk
    split
    · exact .foldl (fun s a => storageOnly_rekeyMem s none a 8) _ _
    · exact .refl s

/-! ### A lookup in a table of which one entry has changed -/

section
variable {α β : Type} [DecidableEq β] (key : α → β) (l : List α) {b : β} (f : α → α)

theorem find?_mapKey_same (hf : ∀ x, key x = b → key (f x) = b) :
    (l.map fun x => if key x = b then f x else x).find? (fun x => key x = b) = (l.find? fun x => key x = b).map f := by
  induction l with
  | nil => rfl
  | cons x l ih =>
    by_cases hx : key x = b
    · simp [hx, hf x hx]
    · simpa [hx] using ih

theorem find?_mapKey_ne (hf : ∀ x, key x = b → key (f x) = b) {b' : β} (hb : b' ≠ b) :
    (l.map fun x => if key x = b then f x else x).find? (fun x => key x = b') = l.find? fun x => key x = b' := by
  induction l with
  | nil => rfl
  | cons x l ih =>
    by_cases hx : key x = b
    · simpa [hx, hf x hx, hb.symm] using ih
    · by_cases hx' : key x = b'
      · simp [hx', hb]
      · simpa [hx, hx'] using ih

end

/-! ### The splits of a group -/

theorem split?_modSplit_same {h : Group} {p : Nat} {q : Split} (f : Split → Split) (hf : ∀ q, q.id = p → (f q).id = p)
    (e : h.split? p = some q) : (h.modSplit p f).split? p = some (f q) :=
  (find?_mapKey_same Split.id h.splits f hf).trans (congrArg (Option.map f) e)

theorem split?_modSplit_ne (h : Group) {p j : Nat} (f : Split → Split) (hf : ∀ q, q.id = p → (f q).id = p) (hj : j ≠ p) :
    (h.modSplit p f).split? j = h.split? j := find?_mapKey_ne Split.id h.splits f hf hj

@[simp] theorem split?_closeWindows (h : Group) (p j : Nat) : (h.closeWindows p).split? j = h.split? j := rfl

theorem split?_dropSplit_same (h : Group) (p : Nat) : (h.dropSplit p).split? p = none := by
  simp [Group.split?, Group.dropSplit, List.find?_eq_none]

theorem split?_dropSplit_ne (h : Group) {p j : Nat} (hj : j ≠ p) : (h.dropSplit p).split? j = h.split? j := by
  unfold Group.split? Group.dropSplit
  rw [List.find?_filter]
  congr 1
  funext q
  by_cases hq : q.id = j
  · simp [hq, hj]
  · simp [hq]

/-- RESUME of R76 is of the same split. -/
theorem resume_id (p : Split) (l : List MaskEntry) {q : Split} (e : p.resume l = some q) : q.id = p.id := by
  induction l with
  | nil => cases e
  | cons x l ih =>
    unfold Split.resume at e
    split at e
    · exact ih e
    split at e
    · cases e; rfl
    split at e
    · cases e; rfl
    · exact ih e

/-- JOIN of R75 is of the same split. -/
theorem join_id (p : Split) (t : DWord) : (p.join t).1.id = p.id := by
  unfold Split.join
  split
  · rfl
  split
  · rfl
  split <;> rfl

/-! ### The issuing group once its instruction has issued -/

theorem modGroup_self (s : State) (t g : Nat) : (s.modGroup t g fun h => h) = s := by
  simp [State.modGroup]

/-- A lookup in a state whose group has changed, its number kept, finds the changed group. -/
theorem group?_modGroup_same {s : State} {t g : Nat} {h : Group} (f : Group → Group)
    (hf : (f h).team = h.team ∧ (f h).gid = h.gid) (e : s.group? t g = some h) :
    (s.modGroup t g f).group? t g = some (f h) := by
  obtain ⟨ht, hg⟩ := group?_key e
  obtain ⟨-, before, after, hl, hb⟩ := List.find?_eq_some_iff_append.mp e
  have unchanged : before.map (fun h => if h.team = t && h.gid = g then f h else h) = before :=
    (List.map_congr_left fun x hx => if_neg fun hc => by simpa [hc] using hb x hx).trans (List.map_id _)
  refine List.find?_eq_some_iff_append.mpr ⟨by simp [hf.1, hf.2, ht, hg], before, 
    after.map fun h => if h.team = t && h.gid = g then f h else h, ?_, hb⟩
  rw [State.modGroup, hl, List.map_append, unchanged, List.map_cons, if_pos (by simp [ht, hg])]

theorem group?_issued {s : State} {i : Instr} {k : Here} (e : s.ready i = some k) :
    (s.issued i k).group? k.team.uid k.grp.gid = some (k.issued i) :=
  group?_modGroup_same _ ⟨rfl, rfl⟩ (ready_group e).1

end Sys2Proof.Machine
end

section
namespace Sys2Proof.Machine

/-! ### join, merging and the release of held splits (R75, R77, R78, R233) -/

theorem badTarget_iff (t : DWord) : badTarget t = true ↔ t.toNat % 4 ≠ 0 ∨ canonical t = false := by
  simp [badTarget]

theorem not_badTarget_iff (t : DWord) : ¬badTarget t = true ↔ t.toNat % 4 = 0 ∧ canonical t = true := by
  simp [badTarget]

/-- R75, R233: what join makes of its split, and the release test that follows at once where no merge comes first. -/
theorem exec_join {l : Imm} {s : State} {k : Here} (e : s.ready (.join l) = some k) :
    exec (.join l) s = .next (if badTarget (k.target l.imm) then s.raise k.team.uid k.grp.gid (some k.sp.id) 0x07 k.sp.pc
      else (s.issued (.join l) k).modGroup k.team.uid k.grp.gid fun h =>
        let j := k.sp.join (k.target l.imm)
        let h1 := (h.closeWindows k.sp.id).modSplit k.sp.id fun _ =>
          if j.2 then { j.1 with held := some s.cycle } else j.1
        if h1.mergeDue then h1 else h1.releaseHeld) := by
  change execJoin l s = _
  unfold execJoin
  rw [issue_ready _ e]
  dsimp only
  by_cases hb : badTarget (k.target l.imm) = true
  · simp only [hb, if_true]
  · simp only [hb, join_id]
    rfl

/-- R75: JOIN on an entry that is gathered last: its lanes rejoin at the target. -/
theorem join_gathered (p : Split) (t : DWord) {e : MaskEntry} (hs : p.stack = [e]) (hf : e.fork = false) (hp : e.pending = 0) :
    p.join t = ({ p with stack := [], lanes := p.lanes ||| e.arrived, pc := e.target.getD t }, false) := by
  simp [Split.join, hs, hf, hp, joinCascade]

theorem join_results (l : Imm) (s : State) (k : Here) :
    let i := Instr.join l
    let t := k.target l.imm
    let j := k.sp.join t
    s.ready i = some k →
    (t.toNat % 4 ≠ 0 ∨ canonical t = false → exec i s = .next (s.raise k.team.uid k.grp.gid (some k.sp.id) 0x07 k.sp.pc)) ∧
    (t.toNat % 4 = 0 → canonical t = true → exec i s = .next ((s.issued i k).modGroup k.team.uid k.grp.gid fun h =>
      let h1 := (h.closeWindows k.sp.id).modSplit k.sp.id fun _ =>
        if j.2 then { j.1 with held := some s.cycle } else j.1
      if h1.mergeDue then h1 else h1.releaseHeld)) ∧
    (k.sp.stack = [] → j = ({ k.sp with pc := t }, true)) ∧
    ∀ e rest, k.sp.stack = e :: rest →
      (e.fork = true → j = ({ k.sp with stack := rest, pc := t }, true)) ∧
      (e.fork = false → e.pending ≠ 0 → j = ({ k.sp with
        stack := { e with pending := 0, arrived := e.arrived ||| k.sp.lanes, target := some (e.target.getD t) } :: rest,
        lanes := e.pending, pc := e.ppc }, false)) ∧
      (e.fork = false → e.pending = 0 → rest = [] →
        j = ({ k.sp with stack := [], lanes := k.sp.lanes ||| e.arrived, pc := e.target.getD t }, false)) := by
  intro i t j hr
  refine ⟨fun bad => ?_, fun aligned canon => ?_, fun hs => ?_, fun e rest hs => ⟨fun hf => ?_, fun hf hp => ?_, ?_⟩⟩
  · rw [exec_join hr, if_pos ((badTarget_iff t).mpr bad)]
  · rw [exec_join hr, if_neg ((not_badTarget_iff t).mpr ⟨aligned, canon⟩)]
  · simp [j, Split.join, hs]
  · simp [j, Split.join, hs, hf]
  · have hp' : ¬e.pending = 0#32 := hp
    simp [j, Split.join, hs, hf, hp']
  · rintro hf hp rfl
    exact join_gathered k.sp t hs hf hp

/-- R78: the splits that merge at one address, in the order of their SPLITIDs. -/
theorem mergeAll_pair {h : Group} {a b : Split} (hs : h.splits = [a, b]) (hab : a.id < b.id) (hpc : a.pc = b.pc)
    (pa : a.park = none) (pb : b.park = none) (sa : a.stack = []) (sb : b.stack = []) : h.mergeAll = h.absorb a [b] := by
  have sorted : [a, b].mergeSort (fun x y => decide (x.id ≤ y.id)) = [a, b] :=
    List.mergeSort_of_pairwise (by simp [hab.le])
  have addresses : ([a, b].map Split.pc).eraseDups = [b.pc] := by simp [List.eraseDups_cons, hpc]
  unfold Group.mergeAll
  rw [hs, addresses]
  simp [Group.mergeAt, hs, hpc, pa, pb, sorted, sa, sb]

/-- R77: with no split held there is nothing to release. -/
theorem releaseHeld_of_none_held {h : Group} (hn : ∀ p ∈ h.splits, p.held = none) : h.releaseHeld = h := by
  have due : h.releaseDue = false := by
    simp only [Group.releaseDue, Bool.and_eq_false_iff, List.any_eq_false]
    exact .inl fun p hp => by simp [hn p hp]
  simp [Group.releaseHeld, due]

theorem splitMerge_results (t g : Nat) (s : State) (h : Group) (a b : Split) (hg : s.group? t g = some h)
    (hs : h.splits = [a, b]) (hab : a.id < b.id) (hpc : a.pc = b.pc) (pa : a.park = none) (pb : b.park = none)
    (sa : a.stack = []) (sb : b.stack = []) (ha : a.held = none) :
    ∃ s' h', exec (.splitMerge t g) s = .next s' ∧ { s' with groups := s.groups } = s ∧ s'.group? t g = some h' ∧
      h'.splits = [{ a with lanes := a.lanes ||| b.lanes }] ∧
      { h' with splits := [], results := [], raised := none, raisers := [], struck := none } =
        { h with splits := [], results := [], raised := none, raisers := [], struck := none } := by
  have merged : (h.absorb a [b]).splits = [{ a with lanes := a.lanes ||| b.lanes }] := by
    simp [Group.absorb, Group.closeWindows, hs, hab.ne, ha]
  have free : h.mergeAll.releaseHeld = h.absorb a [b] := by
    rw [mergeAll_pair hs hab hpc pa pb sa sb]
    exact releaseHeld_of_none_held (by simp [merged, ha])
  refine ⟨_, _, rfl, rfl, group?_modGroup_same _ ?_ hg, ?_, ?_⟩
  · rw [free]; exact ⟨rfl, rfl⟩
  · rw [free]; exact merged
  · rw [free]; rfl

theorem holdTimeout_results (t g p c : Nat) (s : State) (h : Group) (q : Split) (hg : s.group? t g = some h)
    (hq : h.split? p = some q) (hc : q.held = some c) :
    ∃ s' h', exec (.holdTimeout t g p) s = .next s' ∧ { s' with groups := s.groups } = s ∧ s'.group? t g = some h' ∧
      h'.split? p = some (if 1024 ≤ s.cycle - c then { q with held := none } else q) ∧
      { h' with splits := h.splits } = h := by
  refine ⟨_, _, rfl, rfl, group?_modGroup_same _ ⟨rfl, rfl⟩ hg, ?_, rfl⟩
  rw [split?_modSplit_same _ _ hq]
  · simp only [hc]
  · intro x hx
    split
    · split <;> exact hx
    · exact hx

/-- Settles O48: join by the top entry of its mask stack, the merge of two free splits, the release of a split held too long. -/
theorem joinAndMergeResults : Obligations.JoinAndMergeResults :=
  ⟨join_results,
    fun t g s h a b hg hs hab hpc pa pb sa sb ha _ => splitMerge_results t g s h a b hg hs hab hpc pa pb sa sb ha,
    holdTimeout_results⟩

end Sys2Proof.Machine
end

section
namespace Sys2Proof.Machine

/-! ### The accesses that an instruction's addresses lead to (R360, R375) -/

/-- A leaf entry places an address in memory, at a peer or at the host (R108), never in a scratchpad. -/
theorem placeOf_ne_scr {s : State} {c : Ctx} {va e : DWord} {l : Loc} (h : s.placeOf c va e = .ok l) (t off : Nat) :
    l ≠ .scr t off := by
  rintro rfl
  unfold State.placeOf at h
  dsimp only at h
  split_ifs at h <;> cases h

/-- An address of the global space leads to no scratchpad. -/
theorem probe_ne_scr {s : State} {ctx : Nat} {va : DWord} {kind : AccessKind} {l : Loc} (e : s.probe ctx va kind = .ok l)
    (t off : Nat) : l ≠ .scr t off := by
  unfold State.probe at e
  split at e
  · cases e
  split at e
  · cases e
  split at e
  · cases e
  · cases e
  · cases e
  · cases e
  · cases e
  · split at e
    · cases e
    · exact placeOf_ne_scr e t off

/-- A site that one access's address leads to. -/
structure Site.Leads (s : State) (ctx : Nat) (kind : AccessKind) (align : Nat) (bad : Loc → Option (BitVec 8))
    (x : Nat × Nat × DWord) (e : Site) : Prop where
  lane : e.lane = x.1
  size : e.n = x.2.1
  va : e.va = x.2.2
  aligned : x.2.2.toNat % align = 0
  place : s.probe ctx x.2.2 kind = .ok e.loc
  allowed : bad e.loc = none

/-- Nothing stands in the way of the accesses probed so far. -/
def Probes.clear (a : Probes) : Prop := a.held = false ∧ a.cause = none ∧ a.replay = [] ∧ a.poison = none

theorem probeGlobal_clear {s : State} {ctx : Nat} {kind : AccessKind} {align : Nat} {bad : Loc → Option (BitVec 8)}
    {a : Probes} {x : Nat × Nat × DWord} (hc : (s.probeGlobal ctx kind align bad a x.1 x.2.1 x.2.2).clear) :
    a.clear ∧ ∃ e, Site.Leads s ctx kind align bad x e ∧
      (s.probeGlobal ctx kind align bad a x.1 x.2.1 x.2.2).sites = a.sites ++ [e] := by
  obtain ⟨lane, n, va⟩ := x
  revert hc
  unfold State.probeGlobal
  split
  · simp [Probes.clear, Probes.addCause]
  rename_i aligned
  split
  · simp [Probes.clear, Probes.addCause]
  · simp [Probes.clear]
  · simp [Probes.clear]
  · simp [Probes.clear]
  rename_i loc place
  split
  · simp [Probes.clear, Probes.addCause]
  · rename_i allowed
    exact fun hc => ⟨hc, _, ⟨rfl, rfl, rfl, by simpa using aligned, place, allowed⟩, rfl⟩

theorem foldl_probeGlobal_clear {s : State} {ctx : Nat} {kind : AccessKind} {align : Nat} {bad : Loc → Option (BitVec 8)}
    (l : List (Nat × Nat × DWord)) (a : Probes)
    (hc : (l.foldl (fun a e => s.probeGlobal ctx kind align bad a e.1 e.2.1 e.2.2) a).clear) :
    a.clear ∧ ∃ sites, List.Forall₂ (Site.Leads s ctx kind align bad) l sites ∧
      (l.foldl (fun a e => s.probeGlobal ctx kind align bad a e.1 e.2.1 e.2.2) a).sites = a.sites ++ sites := by
  induction l generalizing a with
  | nil => exact ⟨hc, [], .nil, by simp⟩
  | cons x l ih =>
    obtain ⟨hx, sites, hl, hs⟩ := ih _ hc
    obtain ⟨ha, e, he, hsx⟩ := probeGlobal_clear hx
    exact ⟨ha, e :: sites, .cons he hl, by rw [List.foldl_cons, hs, hsx]; simp⟩

/-- The sites of global accesses that nothing stands in the way of: one for each, where its address leads. -/
theorem probes_global {s : State} {k : Here} {kind : AccessKind} {align : Nat} {bad : Loc → Option (BitVec 8)}
    {l : List (Nat × Nat × DWord)} {sites : List Site} (e : s.probes k true kind align bad l = .ok sites) :
    List.Forall₂ (Site.Leads s k.team.ctx kind align bad) l sites := by
  unfold State.probes at e
  simp only [if_true] at e
  have fold := foldl_probeGlobal_clear (s := s) (ctx := k.team.ctx) (kind := kind) (align := align) (bad := bad) l ⟨[], none, [], none, false⟩
  generalize l.foldl _ _ = a at e fold
  split at e
  · cases e
  rename_i held
  split at e <;> cases e
  rename_i cause replay poison
  obtain ⟨-, sites, hl, hs⟩ := fold ⟨by simpa using held, cause, replay, poison⟩
  rw [hs]
  simpa using hl

/-! ### Atomics outside the scratchpads leave every group as it is -/

theorem dropLines_groups (s : State) (core : Nat) (l : Loc) (n : Nat) : (s.dropLines core l n).groups = s.groups := by
  unfold State.dropLines
  split
  · split
    · exact modCore_groups _ _ _
    · rfl
  · rfl

theorem rekey_groups (s : State) (l : Loc) (n : Nat) : (s.rekey l n).groups = s.groups := by
  cases l with
  | mem pa key _ => exact (storageOnly_rekeyMem s key pa n).groups
  | _ => rfl

theorem writeLoc_groups (s : State) (core : Nat) {l : Loc} (hl : ∀ t off, l ≠ .scr t off) (b : List Byte) :
    (s.writeLoc core l b).groups = s.groups := by
  cases l with
  | mem pa key pol => exact (storageOnly_writeMem _ key pol pa b).groups.trans (dropLines_groups s core _ _)
  | scr t off => exact absurd rfl (hl t off)
  | _ => rfl

theorem atomicAt_groups (s : State) (core : Nat) {l : Loc} (hl : ∀ t off, l ≠ .scr t off) (op : AtomOp) (ty : AtomTy)
    (b sv : DWord) : (s.atomicAt core l op ty b sv).2.groups = s.groups := by
  unfold State.atomicAt
  dsimp only
  split
  · exact (writeLoc_groups _ core hl _).trans (rekey_groups s l _)
  · exact (dropLines_groups _ core l _).trans (rekey_groups s l _)

theorem noteTlb_groups (s : State) (ctx : Nat) (vas : List DWord) : (s.noteTlb ctx vas).groups = s.groups := rfl

theorem noteSites_groups (s : State) (k : Here) (glob : Bool) (l : List Site) : (s.noteSites k glob l).groups = s.groups := by
  unfold State.noteSites
  split
  · exact (storageOnly_rekeyWalks _ _ _).groups.trans (noteTlb_groups _ _ _)
  · rfl

theorem takeAnswers_groups (s : State) (key : Nat × Nat) : (s.takeAnswers key).groups = s.groups := by
  unfold State.takeAnswers
  split <;> rfl

/-- The adds of weights leave of the group all but the lines that its writes have touched. -/
theorem addWeights_groups (s : State) (k : Here) {l : Loc} (hl : ∀ t off, l ≠ .scr t off) (lanes : List Nat) :
    (s.addWeights k l lanes).groups = (s.modGroup k.team.uid k.grp.gid fun h => h.touch l 8).groups := by
  unfold State.addWeights
  generalize s.modGroup k.team.uid k.grp.gid _ = t
  induction lanes generalizing t with
  | nil => rfl
  | cons i lanes ih => exact (ih _).trans (atomicAt_groups t _ hl _ _ _ _)

theorem touch_rest (h : Group) (l : Loc) (n : Nat) : { h.touch l n with touched := h.touched } = h := by
  cases l <;> rfl

/-! ### exit and done (R96, R234, R293) -/

/-- What the return of weights leaves of the group whose lanes they are: their weights are zero, and lines touched. -/
theorem returnWeights_group {s s2 : State} {k : Here} {m : LaneMask} {h : Group} (e : s.returnWeights k m = .ok s2)
    (hg : s.group? k.team.uid k.grp.gid = some h) :
    ∃ h2, s2.group? k.team.uid k.grp.gid = some h2 ∧
      { h2 with touched := h.touched } = h.clearWeights (k.weighted m) := by
  have cleared (t : State) (h1 : Group) (h1g : t.group? k.team.uid k.grp.gid = some h1)
      (rest : { h1 with touched := h.touched } = h) :
      ∃ h2, (t.modGroup k.team.uid k.grp.gid fun h => h.clearWeights (k.weighted m)).group? k.team.uid k.grp.gid = some h2 ∧
        { h2 with touched := h.touched } = h.clearWeights (k.weighted m) :=
    ⟨_, group?_modGroup_same _ ⟨rfl, rfl⟩ h1g, by rw [← rest]; rfl⟩
  unfold State.returnWeights at e
  dsimp only at e
  split at e
  · rename_i none
    cases e
    exact ⟨h, hg, by rw [none]; rfl⟩
  rename_i some
  split at e
  · cases e
  · cases e
  rename_i sites probed
  have leads := probes_global probed
  split at e
  · exact absurd (List.map_eq_nil_iff.mp (List.forall₂_nil_right_iff.mp leads)) some
  rename_i site rest
  obtain ⟨lead, -⟩ := List.forall₂_cons_right_iff.mp leads |>.choose_spec.choose_spec
  have outside := probe_ne_scr lead.place
  split at e
  · cases e
  split at e
  · cases e
  split at e
  · split at e <;> cases e
    exact cleared _ h (by rw [State.group?, takeAnswers_groups]; exact hg) rfl
  · cases e
    refine cleared _ (h.touch site.loc 8) ?_ (touch_rest h _ _)
    rw [State.group?, addWeights_groups _ _ outside]
    exact group?_modGroup_same _ (by cases site.loc <;> exact ⟨rfl, rfl⟩)
      (by rw [State.group?, noteSites_groups]; exact hg)

theorem returnWeights_of_none_weighted {s : State} {k : Here} {m : LaneMask} (h : k.weighted m = []) :
    s.returnWeights k m = .ok s := by
  simp [State.returnWeights, h]

/-- Lanes whose weights have been cleared hold none; the others hold what they held. -/
theorem get_clearWeights (l : List Nat) (h : Group) (hw : SMap.wf h.weight = true) (lane : Nat) :
    SMap.get (h.clearWeights l).weight lane = if lane ∈ l then 0 else SMap.get h.weight lane := by
  unfold Group.clearWeights
  dsimp only
  generalize h.weight = w at hw
  induction l generalizing w with
  | nil => simp
  | cons i l ih =>
    rw [List.foldl_cons, ih _ (SMap.wf_set w i 0 hw), SMap.get_set w i lane 0 hw]
    by_cases hi : lane = i <;> simp [hi]

/-- The weights of a group once those of a mask's lanes have been returned. -/
theorem get_weight_returned (k : Here) (m : LaneMask) (lane : Nat) :
    (if lane ∈ k.weighted m then 0 else SMap.get k.grp.weight lane) =
      if m.getLsbD lane then 0 else SMap.get k.grp.weight lane := by
  have mem : lane ∈ k.weighted m ↔ m.getLsbD lane = true ∧ SMap.get k.grp.weight lane ≠ 0 := by
    simp [Here.weighted, laneList_mem]
  by_cases hm : m.getLsbD lane = true <;> by_cases hw : SMap.get k.grp.weight lane = 0 <;> simp [mem, hm, hw]

/-- R234, R369: a ready exit that selects no lane, or that a handler issues, returns no weight. -/
theorem exec_exit_of_no_return {l : Short} {s : State} {k : Here} (e : s.ready (.exit l) = some k)
    (h : k.grp.inHandler = true ∨ k.condLanes = 0) : exec (.exit l) s =
      .next ((s.issued (.exit l) k).modGroup k.team.uid k.grp.gid fun h => h.endLanes k.sp k.condLanes) := by
  change execExit l s = _
  rw [execExit, issue_ready _ e]
  dsimp only
  rw [if_pos (by simpa using h)]

/-- R96, R234, R385: any other ends its lanes once their weights have returned; a convocation loses its member. -/
theorem exec_exit_of_return {l : Short} {s s2 : State} {k : Here} (e : s.ready (.exit l) = some k)
    (outside : k.grp.inHandler = false) (selects : k.condLanes ≠ 0)
    (returned : (s.issued (.exit l) k).returnWeights k k.condLanes = .ok s2) : exec (.exit l) s =
      .next (((s2.leaveConv k.team.uid k.grp.gid).modGroup k.team.uid k.grp.gid fun h =>
        h.endLanes k.sp k.condLanes).noteEnd k.team.uid) := by
  change execExit l s = _
  rw [execExit, issue_ready _ e]
  dsimp only
  rw [if_neg (by simpa [outside] using selects), returned]

theorem endLanes_none (h : Group) (p : Split) : h.endLanes p 0 = h := by simp [Group.endLanes]

/-- R76: the split whose lanes end goes on with the others, with lanes of its mask stack, or ends. -/
theorem split?_endLanes_same {h : Group} {p : Split} {m : LaneMask} (e : h.split? p.id = some p) (hm : m ≠ 0) :
    (h.endLanes p m).split? p.id =
      if p.lanes &&& ~~~m ≠ 0 then some { p with lanes := p.lanes &&& ~~~m } else p.resume p.stack := by
  unfold Group.endLanes
  rw [if_neg hm]
  dsimp only
  split
  · exact split?_modSplit_same _ (fun _ hq => hq) e
  split
  · rename_i q resumed
    have hid := resume_id p p.stack resumed
    rw [resumed]
    exact split?_modSplit_same (fun _ => q) (fun _ _ => hid) e
  · rename_i ended
    rw [ended]
    exact split?_dropSplit_same _ _

/-- The end of a split's lanes leaves the group's other splits as they are. -/
theorem split?_endLanes_ne (h : Group) (p : Split) (m : LaneMask) {j : Nat} (hj : j ≠ p.id) :
    (h.endLanes p m).split? j = h.split? j := by
  unfold Group.endLanes
  split
  · rfl
  dsimp only
  split
  · exact split?_modSplit_ne _ _ (fun _ hq => hq) hj
  split
  · rename_i q resumed
    exact split?_modSplit_ne _ _ (fun _ _ => resume_id p p.stack resumed) hj
  · exact split?_dropSplit_ne _ hj

/-- R293: done returns the weights of the participating lanes and leaves the group as it is otherwise. -/
theorem done_results {l : Short} {s s2 : State} {k : Here} (e : s.ready (.done l) = some k) (tidy : k.grp.tidy = true)
    (returned : (s.issued (.done l) k).returnWeights k k.mask = .ok s2) :
    exec (.done l) s = .next s2 ∧ ∀ h, s2.group? k.team.uid k.grp.gid = some h →
      h.splits = (k.issued (.done l)).splits ∧ h.v = k.grp.v ∧ h.g = k.grp.g ∧ h.p = k.grp.p ∧
      ∀ lane, lane < 32 → SMap.get h.weight lane = if k.mask.getLsbD lane then 0 else SMap.get k.grp.weight lane := by
  constructor
  · change execDone l s = _
    rw [execDone, issue_ready _ e]
    simp only [returned]
  · intro h hh
    obtain ⟨h2, found, rest⟩ := returnWeights_group returned (group?_issued e)
    cases hh.symm.trans found
    have weights : SMap.wf k.grp.weight = true := by
      simp only [Group.tidy, Bool.and_eq_true] at tidy
      exact tidy.2
    refine ⟨(congrArg Group.splits rest :), (congrArg Group.v rest :), (congrArg Group.g rest :), (congrArg Group.p rest :),
      fun lane _ => ?_⟩
    rw [← get_weight_returned, ← get_clearWeights _ _ weights]
    exact (congrArg (fun h => SMap.get h.weight lane) rest :)

/-- Settles O49: exit returns the weights of its lanes and ends them; done returns weights and ends none. -/
theorem exitAndDoneResults : Obligations.ExitAndDoneResults := by
  refine ⟨?_, fun h p m here selects => ⟨fun stays => ?_, fun empty => ?_, fun j hj => split?_endLanes_ne h p m hj⟩,
    fun l s s2 k => done_results⟩
  · intro l s s2 k i m fin ready
    refine ⟨fun selectsNone => ?_, fun handler => exec_exit_of_no_return ready (.inl handler),
      exec_exit_of_return ready, returnWeights_of_none_weighted⟩
    have idle : (fun h : Group => h.endLanes k.sp k.condLanes) = fun h => h := by
      funext h; rw [show k.condLanes = 0 from selectsNone, endLanes_none]
    rw [exec_exit_of_no_return ready (.inr selectsNone), idle, modGroup_self]
  · rw [split?_endLanes_same here selects, if_pos stays]
  · rw [split?_endLanes_same here selects, if_neg (not_not.mpr empty)]

end Sys2Proof.Machine
end

section
namespace Sys2Proof.Machine

/-! ### Steps that run a command, a register write or an event (R81, R82, R435, R437) -/

/-- The state in which a step makes its move: the move is taken off the agenda and the free values are counted. -/
def State.turned (s : State) (rest : List Move) : State := { s with free := s.free + 1, agenda := rest }

theorem step_of_move {s : State} {m : Move} {rest : List Move} (h : s.agenda = m :: rest) :
    step s = Claims.after (s.turned rest).unlessStalled (runMove m (s.turned rest)) := by
  unfold step
  simp only [h]
  rfl

/-- A move that leaves no record waiting is not held back by a stalled source (R398). -/
theorem unlessStalled_of_waiting {s t : State} (h : t.mgmt.errWaiting = s.mgmt.errWaiting) : s.unlessStalled t = t := by
  simp [State.unlessStalled, h]

theorem after_unlessStalled_of_room {s : State} {rest : List Move} (h : s.unread ≤ 256)
    (r : Host.Outcome State Fault Refusal) : Claims.after (s.turned rest).unlessStalled r = r := by
  cases r with
  | next t => exact congrArg Host.Outcome.next (unlessStalled_of_room (s := s.turned rest) h t)
  | fault _ => rfl
  | refused _ => rfl

/-- R81, R82: the turn of a running stream runs the command in the 32 bytes that its processor reads. -/
theorem runMove_command {s : State} {n : Nat} {b : List Byte} (running : (s.stream n).running = true)
    (waiting : (s.stream n).wait = .none) (read : s.cpRead n (s.stream n).pc 32 = .bytes b) :
    runMove (.command n) s =
      exec (decodeCommand (BitVec.ofNat 64 (leNat (b.take 8))) (BitVec.ofNat 64 (leNat ((b.drop 8).take 8)))
        (BitVec.ofNat 64 (leNat ((b.drop 16).take 8))) (BitVec.ofNat 64 (leNat ((b.drop 24).take 8))))
        { s.rekeySpans (s.stream n).ctx [((s.stream n).pc, 32)] with issuer := .stream n } := by
  simp [runMove, State.fetchCommand, running, waiting, read]

/-- R435: a write of BAR 0 that is none of MCMD runs the row of its register. -/
theorem runMove_bar0_register {off : Nat} (s : State) (v : DWord) (inside : off < 2 ^ 16) (other : off ≠ 0x20) :
    runMove (.bar0 off v) s = exec (decodeBar0 (BitVec.ofNat 16 off) v) { s with issuer := .none } := by
  simp only [runMove, State.bar0Write, if_neg other, if_pos inside]

/-- R435: one beyond the registers does nothing. -/
theorem runMove_bar0_beyond {off : Nat} (s : State) (v : DWord) (beyond : 2 ^ 16 ≤ off) :
    runMove (.bar0 off v) s = .next s := by
  have other : off ≠ 0x20 := by omega
  simp only [runMove, State.bar0Write, if_neg other, if_neg (by omega : ¬off < 2 ^ 16)]

/-- R437: a write of MCMD starts a command where one can start. -/
theorem startCommand_eq (s : State) (v : DWord) :
    s.startCommand v = if s.mgmt.busy = true ∨ (s.mgmt.ready = false ∧ s.mgmt.recovery = false) ∨ s.host.linkUp = false then s
      else s.modMgmt fun m => { m with mcmd := v &&& 0xFFFFFFFF00000FFF, busy := true, arg0 := m.marg0, arg1 := m.marg1 } := by
  simp [State.startCommand, or_assoc]

theorem step_mcmd {s : State} {v : DWord} {rest : List Move} (h : s.agenda = .bar0 0x20 v :: rest) :
    step s = .next ((s.turned rest).startCommand v) := by
  rw [step_of_move h]
  refine congrArg Host.Outcome.next (unlessStalled_of_waiting ?_)
  unfold State.startCommand
  split <;> rfl

/-- Settles O4: by the kind of move that heads the agenda. -/
theorem stepRunsCommandsAndEvents : Obligations.StepRunsCommandsAndEvents := by
  intro s rest s1 around
  refine ⟨fun n b h running waiting read => ?_, fun off v h => ⟨fun inside other => ?_, ?_, fun beyond => ?_⟩, fun i h => ?_,
    after_unlessStalled_of_room⟩
  · rw [step_of_move h, runMove_command (s := s.turned rest) running waiting read]
    rfl
  · rw [step_of_move h, runMove_bar0_register _ _ inside other]
    rfl
  · rintro rfl
    rw [step_mcmd h, startCommand_eq]
    rfl
  · rw [step_of_move h, runMove_bar0_beyond _ _ beyond]
    exact congrArg Host.Outcome.next (unlessStalled_of_waiting rfl)
  · exact step_of_move h

end Sys2Proof.Machine
end

section
namespace Sys2Proof.Machine

/-! ### The life of a command (R81, R82, R387, R440) -/

/-- The state that a command's end leaves. -/
def CmdEnd.state (s : State) (c : Command) (n : Nat) : CmdEnd → State
  | .done t => t.advance n ((s.stream n).pc + 32) c.irq
  | .jump t target => t.advance n target c.irq
  | .stay t => t
  | .stop err => Claims.stops s n err

/-- The dwords that a command does not have hold zero, and no bit reserved in one that it has is set. -/
def ClearFields (c : Command) (used : Bool × Bool × Bool) (rsv : Bool) : Prop :=
  rsv = false ∧ (used.1 = false → c.c1 = 0) ∧ (used.2.1 = false → c.c2 = 0) ∧ (used.2.2 = false → c.c3 = 0)

/-- A reserved field of the header that is not zero stops the stream with error 2, whatever the command. -/
theorem issueCommand_of_header {s : State} {c : Command} {n : Nat} (issuer : s.issuer = .stream n)
    (running : (s.stream n).running = true) (waiting : (s.stream n).wait = .none) (h : c.arg1 ≠ 0 ∨ c.rsv ≠ 0)
    {used : Bool × Bool × Bool} {align : List (DWord × Nat)} {rsv waits : Bool} {effect : Nat → Stream → CmdEnd} :
    issueCommand c used align rsv waits s effect = .next (Claims.stops s n 2) := by
  have set : (decide (c.arg1 ≠ 0) || decide (c.rsv ≠ 0)) = true := by simpa using h
  unfold issueCommand
  simp only [issuer, running, waiting, set]
  rfl

section
variable {s : State} {c : Command} {n : Nat} {used : Bool × Bool × Bool} {align : List (DWord × Nat)} {rsv waits : Bool}
  {effect : Nat → Stream → CmdEnd}

/-- A command whose header may be acted on: its checks in their order, then its wait, then its effect. -/
theorem issueCommand_of_ready (r : Claims.CommandReady s c n) :
    issueCommand c used align rsv waits s effect = .next (
      if rsv || (!used.1 && c.c1 ≠ 0) || (!used.2.1 && c.c2 ≠ 0) || (!used.2.2 && c.c3 ≠ 0) then Claims.stops s n 2
      else if align.any fun a => a.1.toNat % a.2 ≠ 0 then Claims.stops s n 4
      else if (waits || c.wait) && !s.streamQuiet n then (if s.draining n then s.haltStream n else s)
      else (effect n (s.stream n)).state s c n) := by
  obtain ⟨issuer, running, waiting, arg1, rsv0⟩ := r
  unfold issueCommand
  simp only [issuer, running, waiting, arg1, rsv0]
  simp only [ne_eq, not_true_eq_false, decide_false, Bool.not_true, Bool.false_or, Bool.false_eq_true, if_false]
  split
  · rfl
  split
  · rfl
  split
  · rfl
  cases effect n (s.stream n) <;> rfl

theorem issueCommand_of_reserved (r : Claims.CommandReady s c n) (h : ¬ClearFields c used rsv) :
    issueCommand c used align rsv waits s effect = .next (Claims.stops s n 2) := by
  rw [issueCommand_of_ready r, if_pos]
  by_contra hc
  refine h ?_
  simpa [ClearFields, and_assoc] using hc

/-- With its reserved fields clear: the check of its addresses, its wait, its effect. -/
theorem issueCommand_of_clear (r : Claims.CommandReady s c n) (h : ClearFields c used rsv) :
    issueCommand c used align rsv waits s effect = .next (
      if align.any fun a => a.1.toNat % a.2 ≠ 0 then Claims.stops s n 4
      else if (waits || c.wait) && !s.streamQuiet n then (if s.draining n then s.haltStream n else s)
      else (effect n (s.stream n)).state s c n) := by
  rw [issueCommand_of_ready r, if_neg]
  simpa [ClearFields, and_assoc] using h

theorem issueCommand_of_misaligned (r : Claims.CommandReady s c n) (h : ClearFields c used rsv)
    (ha : ∃ a ∈ align, a.1.toNat % a.2 ≠ 0) :
    issueCommand c used align rsv waits s effect = .next (Claims.stops s n 4) := by
  rw [issueCommand_of_clear r h, if_pos (by simpa using ha)]

/-- A command that waits for earlier launches and copies is left as it is (R82), or its context drains (R388). -/
theorem issueCommand_of_waiting (r : Claims.CommandReady s c n) (h : ClearFields c used rsv)
    (ha : ∀ a ∈ align, a.1.toNat % a.2 = 0) (hw : (waits || c.wait) = true) (hq : s.streamQuiet n = false) :
    issueCommand c used align rsv waits s effect = .next (if s.draining n then s.haltStream n else s) := by
  rw [issueCommand_of_clear r h, if_neg (by simpa using ha), if_pos (by simp [hw, hq])]

theorem issueCommand_of_effect (r : Claims.CommandReady s c n) (h : ClearFields c used rsv)
    (ha : ∀ a ∈ align, a.1.toNat % a.2 = 0) (hw : Claims.waited s n (waits || c.wait)) :
    issueCommand c used align rsv waits s effect = .next ((effect n (s.stream n)).state s c n) := by
  have goes : ¬((waits || c.wait) && !s.streamQuiet n) = true := by
    simpa [Claims.waited] using hw
  rw [issueCommand_of_clear r h, if_neg (by simpa using ha), if_neg goes]

end

/-! ### What each command does (R83) -/

theorem exec_nopCommand (c : Command) (s : State) : exec (.nopCommand c) s = execNopCommand c s := rfl
theorem exec_loop (c : Command) (s : State) : exec (.loop c) s = execLoop c s := rfl
theorem exec_branch (c : Command) (s : State) : exec (.branch c) s = execBranch c s := rfl
theorem exec_waitph (c : Command) (s : State) : exec (.waitph c) s = execWaitph c s := rfl
theorem exec_signal (c : Command) (s : State) : exec (.signal c) s = execSignal c s := rfl
theorem exec_fenceCommand (c : Command) (s : State) : exec (.fenceCommand c) s = execFenceCommand c s := rfl
theorem exec_seed (c : Command) (s : State) : exec (.seed c) s = execSeed c s := rfl
theorem exec_stop (c : Command) (s : State) : exec (.stop c) s = execStop c s := rfl
theorem exec_launch (c : Command) (s : State) : exec (.launch c) s = execLaunch c s := rfl
theorem exec_launchi (c : Command) (s : State) : exec (.launchi c) s = execLaunchi c s := rfl
theorem exec_publish (c : Command) (s : State) : exec (.publish c) s = execPublish c s := rfl
theorem exec_hcopy (c : Command) (s : State) : exec (.hcopy c) s = execHcopy c s := rfl
theorem exec_reservedCommand (c : Command) (s : State) : exec (.reservedCommand c) s = execReservedCommand c s := rfl

theorem cmpHolds_iff (cmp : BitVec 3) (w v : DWord) : cmpHolds cmp w v = true ↔ Claims.comparison cmp w v := by
  unfold cmpHolds Claims.comparison
  generalize cmp.toNat = code
  match code with
  | 0 => exact decide_eq_true_iff
  | 1 => exact decide_eq_true_iff
  | 2 => exact decide_eq_true_iff
  | 3 => exact decide_eq_true_iff
  | _ + 4 => exact iff_of_true rfl trivial

/-- The addresses that BRANCH uses are aligned. -/
theorem branch_aligned {c : Command} (a3 : c.c3.toNat % 32 = 0) (a1 : c.sub ≠ 4 → c.c1.toNat % 8 = 0) :
    ∀ a ∈ (if c.sub = 4 then [] else [(c.c1, 8)]) ++ [(c.c3, 32)], a.1.toNat % a.2 = 0 := by
  by_cases always : c.sub = 4
  · rw [if_pos always]; simp [a3]
  · rw [if_neg always]; simp [a3, a1 always]

section
variable {s : State} {c : Command} {n : Nat} (r : Claims.CommandReady s c n)
include r

/-- LOOP: past a counter of 0, and otherwise to its target with the counter one lower. -/
theorem exec_loop_effect (h3 : c.c3 = 0) (a1 : c.c1.toNat % 8 = 0) (a2 : c.c2.toNat % 32 = 0) {w : DWord} {s0 : State}
    (hw : Claims.waited s n c.wait) (read : s.cpDword n c.c1 0xFFFFFFFF = .ok (w, s0)) :
    (w = 0 → exec (.loop c) s = .next (s0.advance n ((s.stream n).pc + 32) c.irq)) ∧
    ∀ s1, w ≠ 0 → s0.cpPut n c.c1 (.write (leBytes 8 (w - 1).toNat)) 0xFFFFFFFF = .ok s1 →
      exec (.loop c) s = .next (s1.advance n c.c2 c.irq) := by
  have run : execLoop c s = _ :=
    issueCommand_of_effect (used := (true, true, false)) (align := [(c.c1, 8), (c.c2, 32)]) (waits := false)
      r (by simp [ClearFields, h3]) (by simp [a1, a2]) hw
  refine ⟨fun zero => ?_, fun s1 more put => ?_⟩
  · rw [exec_loop, run]; simp only [read, if_pos zero]; rfl
  · rw [exec_loop, run]; simp only [read, if_neg more, put]; rfl

/-- BRANCH on the dword it reads. -/
theorem exec_branch_effect (a3 : c.c3.toNat % 32 = 0) (a1 : c.sub ≠ 4 → c.c1.toNat % 8 = 0)
    (hw : Claims.waited s n c.wait) :
    (c.sub = 4 → exec (.branch c) s = .next (s.advance n c.c3 c.irq)) ∧
    ∀ w s0, c.sub ≠ 4 → s.cpDword n c.c1 0xFFFFFFFF = .ok (w, s0) →
      (Claims.comparison c.sub w c.c2 → exec (.branch c) s = .next (s0.advance n c.c3 c.irq)) ∧
      (¬Claims.comparison c.sub w c.c2 → exec (.branch c) s = .next (s0.advance n ((s.stream n).pc + 32) c.irq)) := by
  have run : execBranch c s = _ :=
    issueCommand_of_effect (used := (true, true, true)) (waits := false) r (by simp [ClearFields]) (branch_aligned a3 a1) hw
  refine ⟨fun always => ?_, fun w s0 reads read => ⟨fun holds => ?_, fun fails => ?_⟩⟩
  · rw [exec_branch, run, if_pos always]; rfl
  · rw [exec_branch, run, if_neg reads]; simp only [read, if_pos ((cmpHolds_iff _ _ _).mpr holds)]; rfl
  · rw [exec_branch, run, if_neg reads]; simp only [read, if_neg (mt (cmpHolds_iff _ _ _).mp fails)]; rfl

/-- WAITPH goes on where the comparison holds; else the stream waits, unless its context drains. -/
theorem exec_waitph_effect (a1 : c.c1.toNat % 8 = 0) {w : DWord} {s0 : State} (hw : Claims.waited s n c.wait)
    (read : s.cpDword n c.c1 0xFFFFFFFF = .ok (w, s0)) :
    (Claims.comparison c.sub (w &&& c.c3) c.c2 → exec (.waitph c) s = .next (s0.advance n ((s.stream n).pc + 32) c.irq)) ∧
    (¬Claims.comparison c.sub (w &&& c.c3) c.c2 →
      (s0.draining n = true → exec (.waitph c) s = .next (s0.haltStream n)) ∧
      (s0.draining n = false → exec (.waitph c) s = .next
        ((s0.dropAnswers n).modStream n fun x => { x with wait := .phase c.c1 c.c2 c.c3 c.sub c.irq }))) := by
  have run : execWaitph c s = _ :=
    issueCommand_of_effect (used := (true, true, true)) (align := [(c.c1, 8)]) (waits := false)
      r (by simp [ClearFields]) (by simp [a1]) hw
  refine ⟨fun holds => ?_, fun fails => ⟨fun drains => ?_, fun stays => ?_⟩⟩
  · rw [exec_waitph, run]; simp only [read, if_pos ((cmpHolds_iff _ _ _).mpr holds)]; rfl
  · rw [exec_waitph, run]; simp only [read, if_neg (mt (cmpHolds_iff _ _ _).mp fails), drains]; rfl
  · rw [exec_waitph, run]; simp only [read, if_neg (mt (cmpHolds_iff _ _ _).mp fails), stays]; rfl

/-- SIGNAL's store or add, once what the stream wrote before is at the protected point. -/
theorem exec_signal_effect (h3 : c.c3 = 0) (a1 : c.c1.toNat % 8 = 0) {s1 : State} (hw : Claims.waited s n true)
    (put : (s.protectStream n).cpPut n c.c1
      (if c.sub = 0 then .write (leBytes 8 c.c2.toNat) else .atomic .add .n64 c.c2 0) 0xFFFFFFFF = .ok s1) :
    exec (.signal c) s = .next (s1.advance n ((s.stream n).pc + 32) c.irq) := by
  have run : execSignal c s = _ :=
    issueCommand_of_effect (used := (true, true, false)) (align := [(c.c1, 8)]) (waits := true)
      r (by simp [ClearFields, h3]) (by simp [a1]) hw
  rw [exec_signal, run]; simp only [put]; rfl

end

/-- WAITPH_POLL reads the dword again: the stream goes on, or waits on. -/
theorem exec_waitphPoll_effect {n : Nat} {s s0 : State} {va v m w : DWord} {cmp : BitVec 3} {irq : Bool}
    (running : (s.stream n).running = true) (waiting : (s.stream n).wait = .phase va v m cmp irq)
    (read : s.cpDword n va 0xFFFFFFFF = .ok (w, s0)) :
    (Claims.comparison cmp (w &&& m) v → exec (.waitphPoll n) s = .next (s0.advance n ((s.stream n).pc + 32) irq)) ∧
    (¬Claims.comparison cmp (w &&& m) v → exec (.waitphPoll n) s = .next (s0.dropAnswers n)) := by
  have run : exec (.waitphPoll n) s = .next (if cmpHolds cmp (w &&& m) v then
      s0.advance n ((s.stream n).pc + 32) irq else s0.dropAnswers n) := by
    change execWaitphPoll n s = _
    unfold execWaitphPoll
    simp only [running, waiting, read]
  exact ⟨fun holds => by rw [run, if_pos ((cmpHolds_iff _ _ _).mpr holds)],
    fun fails => by rw [run, if_neg (mt (cmpHolds_iff _ _ _).mp fails)]⟩

end Sys2Proof.Machine
end

section
namespace Sys2Proof.Machine

/-! ### Memory as a command processor reads and writes it (R83, R112) -/

/-- A dword on a page of this device's memory, read as memory holds it. -/
theorem cpDword_mem {s : State} {n pa : Nat} {va : DWord} {key : KeyTag} {pol : Caching} {grid : Word}
    (free : s.locHeld (.mem pa key pol) 8 = false) (good : s.locPoisoned (.mem pa key pol) 8 = false)
    (place : s.probe (s.stream n).ctx va .read = .ok (.mem pa key pol)) :
    s.cpDword n va grid =
      .ok (BitVec.ofNat 64 (leNat (s.peek (.mem pa key pol) 8)), s.rekeySpans (s.stream n).ctx [(va, 8)]) := by
  have owned : s.hostOwns pa 8 = false := by
    simp only [State.locHeld, Bool.or_eq_false_iff] at free
    exact free.2
  have read : s.cpRead n va 8 = .bytes (s.peek (.mem pa key pol) 8) := by
    simp [State.cpRead, place, State.readFor, owned, good]
  simp [State.cpDword, State.cpBytes, read]

section
variable {s : State} {n pa : Nat} {va : DWord} {key : KeyTag} {pol : Caching} {grid : Word}
  (free : s.locHeld (.mem pa key pol) 8 = false)
  (place : s.probe (s.stream n).ctx va .write = .ok (.mem pa key pol))
include free place

/-- A write there. -/
theorem cpPut_mem_write (b : List Byte) :
    s.cpPut n va (.write b) grid = .ok ((s.placeBytes (.mem pa key pol) b).touchStream n (.mem pa key pol)) := by
  simp [State.cpPut, place, free, State.hostDown]

/-- An add there. -/
theorem cpPut_mem_add (good : s.locPoisoned (.mem pa key pol) 8 = false) (v : DWord) :
    s.cpPut n va (.atomic .add .n64 v 0) grid =
      .ok ((s.placeBytes (.mem pa key pol) (leBytes 8 ((leNat (s.peek (.mem pa key pol) 8) + v.toNat) % 2 ^ 64))).touchStream
        n (.mem pa key pol)) := by
  simp [State.cpPut, place, free, State.hostDown, good, atomSize, atomNew, atomFloat, atomTarget]

end

/-! ### A stream that goes on, or stops where its context drains (R81, R82, R388) -/

/-- The taking of answers changes the fabric alone. -/
theorem takeAnswers_rest (s : State) (key : Nat × Nat) : { s.takeAnswers key with fabric := s.fabric } = s := by
  unfold State.takeAnswers
  split <;> rfl

theorem dropAnswers_rest (s : State) (n : Nat) : { s.dropAnswers n with fabric := s.fabric } = s :=
  calc { s.dropAnswers n with fabric := s.fabric }
      _ = { ({ s.dropAnswers n with fabric := (s.takeAnswers (streamKey n)).fabric } : State) with fabric := s.fabric } := rfl
      _ = { s.takeAnswers (streamKey n) with fabric := s.fabric } := by rw [State.dropAnswers, takeAnswers_rest]
      _ = s := takeAnswers_rest s _

@[simp] theorem dropAnswers_streams (s : State) (n : Nat) : (s.dropAnswers n).streams = s.streams :=
  (congrArg State.streams (dropAnswers_rest s n) :)
@[simp] theorem dropAnswers_ctxs (s : State) (n : Nat) : (s.dropAnswers n).ctxs = s.ctxs :=
  (congrArg State.ctxs (dropAnswers_rest s n) :)
@[simp] theorem dropAnswers_groups (s : State) (n : Nat) : (s.dropAnswers n).groups = s.groups :=
  (congrArg State.groups (dropAnswers_rest s n) :)
@[simp] theorem dropAnswers_storage (s : State) (n : Nat) : (s.dropAnswers n).storage = s.storage :=
  (congrArg State.storage (dropAnswers_rest s n) :)
@[simp] theorem dropAnswers_host (s : State) (n : Nat) : (s.dropAnswers n).host = s.host :=
  (congrArg State.host (dropAnswers_rest s n) :)

theorem stream_of_streams {s t : State} (h : t.streams = s.streams) (m : Nat) : t.stream m = s.stream m := by
  rw [State.stream, h, State.stream]

theorem stream_modStream_same {s : State} {n : Nat} (h : n < s.streams.length) (f : Stream → Stream) :
    (s.modStream n f).stream n = f (s.stream n) := by
  simp [State.stream, State.modStream, h]

theorem stream_modStream_ne (s : State) {n m : Nat} (h : m ≠ n) (f : Stream → Stream) :
    (s.modStream n f).stream m = s.stream m := by
  simp [State.stream, State.modStream, h.symm]

theorem ctx?_modCtx_same (s : State) (c : Nat) (f : Ctx → Ctx) (hf : ∀ x, x.id = c → (f x).id = c) :
    (s.modCtx c f).ctx? c = (s.ctx? c).map f := find?_mapKey_same Ctx.id s.ctxs f hf

/-- The stream at its next command, or at a target, with its interrupt raised. -/
def State.goesOn (s : State) (n : Nat) (pc : DWord) (irq : Bool) : State :=
  let s1 := (s.dropAnswers n).modStream n fun x => { x with pc := pc, wait := .none }
  if irq then s1.raiseMsix n else s1

section
variable {s : State} {n : Nat} {pc : DWord} {irq : Bool}

theorem goesOn_streams : (s.goesOn n pc irq).streams = (s.modStream n fun x => { x with pc := pc, wait := .none }).streams := by
  have moved : ((s.dropAnswers n).modStream n fun x => { x with pc := pc, wait := .none }).streams =
      (s.modStream n fun x => { x with pc := pc, wait := .none }).streams := by
    rw [State.modStream, State.modStream, dropAnswers_streams, stream_of_streams (dropAnswers_streams s n)]
  unfold State.goesOn
  split
  · rw [raiseMsix_streams, moved]
  · exact moved

@[simp] theorem goesOn_ctxs : (s.goesOn n pc irq).ctxs = s.ctxs := by
  unfold State.goesOn; split <;> simp
@[simp] theorem goesOn_ctx? (c : Nat) : (s.goesOn n pc irq).ctx? c = s.ctx? c := by
  rw [State.ctx?, goesOn_ctxs, State.ctx?]
@[simp] theorem goesOn_groups : (s.goesOn n pc irq).groups = s.groups := by
  unfold State.goesOn; split <;> simp
@[simp] theorem goesOn_storage : (s.goesOn n pc irq).storage = s.storage := by
  unfold State.goesOn; split <;> simp

theorem goesOn_msix : (s.goesOn n pc irq).host.msix = s.host.msix ++ (if irq && s.host.linkUp then [n] else []) := by
  unfold State.goesOn State.raiseMsix
  by_cases hi : irq = true <;> by_cases hl : s.host.linkUp = true <;> simp [hi, hl]

theorem goesOn_stream_same (h : n < s.streams.length) :
    (s.goesOn n pc irq).stream n = { s.stream n with pc := pc, wait := .none } := by
  rw [stream_of_streams goesOn_streams, stream_modStream_same h]

theorem goesOn_stream_ne {m : Nat} (h : m ≠ n) : (s.goesOn n pc irq).stream m = s.stream m := by
  rw [stream_of_streams goesOn_streams, stream_modStream_ne s h]

/-- R81, R388: a command that has completed lets its stream go on, or stop there where the context drains. -/
theorem advance_eq (h : n < s.streams.length) :
    s.advance n pc irq = if s.draining n then (s.goesOn n pc irq).haltStream n else s.goesOn n pc irq := by
  have same : (s.goesOn n pc irq).draining n = s.draining n := by
    rw [State.draining, goesOn_ctxs, goesOn_stream_same h, State.draining]
  rw [← same]
  rfl

/-- R388, R390: what the stop of a draining context's stream leaves. -/
theorem haltStream_streams : (s.haltStream n).streams = (s.modStream n fun x =>
    { x with running := false, wait := .none, err := 0, report := 0, info := (s.stream n).pc }).streams := by
  unfold State.haltStream State.stopStream
  simp [State.modStream, State.stream]

@[simp] theorem haltStream_groups : (s.haltStream n).groups = s.groups := by simp [State.haltStream, State.stopStream]
@[simp] theorem haltStream_storage : (s.haltStream n).storage = s.storage := by simp [State.haltStream, State.stopStream]

theorem haltStream_stopped : ((s.haltStream n).ctx? (s.stream n).ctx).map Ctx.stopped =
    (s.ctx? (s.stream n).ctx).map fun y => y.stopped ++ [(n, (s.stream n).pc)] := by
  have ctxs : (s.haltStream n).ctxs = (s.modCtx (s.stream n).ctx fun c =>
      { c with stopped := c.stopped ++ [(n, (s.stream n).pc)] }).ctxs := by
    simp [State.haltStream, State.stopStream, State.modCtx]
  rw [State.ctx?, ctxs, ← State.ctx?, ctx?_modCtx_same, Option.map_map]
  · rfl
  · exact fun _ hx => hx

end

theorem advance_results (s : State) (n : Nat) (pc : DWord) (irq : Bool) (h : n < s.streams.length) :
    let t := s.advance n pc irq
    (∀ m, m ≠ n → t.stream m = s.stream m) ∧ t.storage = s.storage ∧ t.groups = s.groups ∧
    (s.draining n = false → t.stream n = { s.stream n with pc := pc, wait := .none } ∧
      t.host.msix = s.host.msix ++ (if irq && s.host.linkUp then [n] else [])) ∧
    (s.draining n = true → t.stream n = { s.stream n with
        pc := pc, wait := .none, running := false, err := 0, report := 0, info := pc } ∧
      (t.ctx? (s.stream n).ctx).map Ctx.stopped = (s.ctx? (s.stream n).ctx).map fun y => y.stopped ++ [(n, pc)]) := by
  intro t
  have went := goesOn_stream_same (pc := pc) (irq := irq) h
  by_cases hd : s.draining n = true
  · have ht : t = (s.goesOn n pc irq).haltStream n := (advance_eq h).trans (if_pos hd)
    have long : n < (s.goesOn n pc irq).streams.length := by
      rw [goesOn_streams]
      simpa [State.modStream] using h
    have stopped := haltStream_stopped (s := s.goesOn n pc irq) (n := n)
    rw [went, goesOn_ctx?] at stopped
    rw [ht]
    refine ⟨fun m hm => ?_, by simp, by simp, fun hd' => absurd (hd.symm.trans hd') (by decide), fun _ => ⟨?_, stopped⟩⟩
    · rw [stream_of_streams haltStream_streams, stream_modStream_ne _ hm, goesOn_stream_ne hm]
    · rw [stream_of_streams haltStream_streams, stream_modStream_same long, went]
  · have ht : t = s.goesOn n pc irq := (advance_eq h).trans (if_neg hd)
    rw [ht]
    exact ⟨fun m hm => goesOn_stream_ne hm, goesOn_storage, goesOn_groups, fun _ => ⟨went, goesOn_msix⟩, fun hd' => absurd hd' hd⟩

/-! ### The commands of R83 by their checks -/

/-- Every command of R83 issues as a command does. -/
theorem exec_commandTable (c : Command) (s : State) : ∀ row ∈ Claims.commandTable, ∃ used align rsv waits effect,
    exec (row c) s = issueCommand c used align rsv waits s effect := by
  simp only [Claims.commandTable, List.forall_mem_cons, exec_nopCommand, exec_launch, exec_launchi, exec_loop, exec_branch,
    exec_waitph, exec_signal, exec_publish, exec_hcopy, exec_fenceCommand, exec_seed, exec_stop]
  exact ⟨⟨_, _, _, _, _, rfl⟩, ⟨_, _, _, _, _, rfl⟩, ⟨_, _, _, _, _, rfl⟩, ⟨_, _, _, _, _, rfl⟩, ⟨_, _, _, _, _, rfl⟩,
    ⟨_, _, _, _, _, rfl⟩, ⟨_, _, _, _, _, rfl⟩, ⟨_, _, _, _, _, rfl⟩, ⟨_, _, _, _, _, rfl⟩, ⟨_, _, _, _, _, rfl⟩,
    ⟨_, _, _, _, _, rfl⟩, ⟨_, _, _, _, _, rfl⟩, by simp⟩

/-- R387: a reserved OPC or SUB stops the stream with error 1. -/
theorem exec_reservedCommand_stops {c : Command} {s : State} {n : Nat} (issuer : s.issuer = .stream n)
    (running : (s.stream n).running = true) (waiting : (s.stream n).wait = .none) :
    exec (.reservedCommand c) s = .next (Claims.stops s n 1) := by
  rw [exec_reservedCommand, execReservedCommand]
  simp only [issuer, running, waiting]
  rfl

section
variable {s : State} {c : Command} {n : Nat} (r : Claims.CommandReady s c n)
include r

theorem noOperands_reserved (h : c.c1 ≠ 0 ∨ c.c2 ≠ 0 ∨ c.c3 ≠ 0) :
    ∀ i ∈ [Instr.nopCommand c, .fenceCommand c, .stop c], exec i s = .next (Claims.stops s n 2) := by
  have set : ¬ClearFields c (false, false, false) false := by
    rw [ClearFields]; tauto
  simp only [List.forall_mem_cons, exec_nopCommand, exec_fenceCommand, exec_stop]
  exact ⟨issueCommand_of_reserved r set, issueCommand_of_reserved r set, issueCommand_of_reserved r set, by simp⟩

theorem noOperands_results (h1 : c.c1 = 0) (h2 : c.c2 = 0) (h3 : c.c3 = 0) :
    let waits (i : Instr) (asks : Bool) : Prop := asks = true → s.streamQuiet n = false →
      exec i s = .next (if s.draining n then s.haltStream n else s)
    waits (.nopCommand c) c.wait ∧ waits (.stop c) c.wait ∧ waits (.fenceCommand c) true ∧
      (Claims.waited s n c.wait → exec (.nopCommand c) s = .next (s.advance n ((s.stream n).pc + 32) c.irq) ∧
        exec (.stop c) s = .next (Claims.stops s n 0)) ∧
      (Claims.waited s n true → exec (.fenceCommand c) s = .next (s.writeBackAll.advance n ((s.stream n).pc + 32) c.irq)) := by
  have clear : ClearFields c (false, false, false) false := ⟨rfl, fun _ => h1, fun _ => h2, fun _ => h3⟩
  simp only [exec_nopCommand, exec_fenceCommand, exec_stop]
  exact ⟨issueCommand_of_waiting (waits := false) r clear (by simp), issueCommand_of_waiting (waits := false) r clear (by simp),
    fun _ => issueCommand_of_waiting (waits := true) r clear (by simp) rfl,
    fun w => ⟨issueCommand_of_effect (waits := false) r clear (by simp) w,
      issueCommand_of_effect (waits := false) r clear (by simp) w⟩,
    fun w => issueCommand_of_effect (waits := true) r clear (by simp) w⟩

theorem seed_reserved (h : c.c2 ≠ 0 ∨ c.c3 ≠ 0) : exec (.seed c) s = .next (Claims.stops s n 2) := by
  have set : ¬ClearFields c (true, false, false) false := by
    rw [ClearFields]; tauto
  rw [exec_seed]
  exact issueCommand_of_reserved r set

theorem seed_results (h2 : c.c2 = 0) (h3 : c.c3 = 0) :
    (c.wait = true → s.streamQuiet n = false → exec (.seed c) s = .next (if s.draining n then s.haltStream n else s)) ∧
    (Claims.waited s n c.wait → exec (.seed c) s = .next
      ((s.modCtx (s.stream n).ctx fun y => { y with srseed := c.c1 }).advance n ((s.stream n).pc + 32) c.irq)) := by
  have clear : ClearFields c (true, false, false) false := ⟨rfl, nofun, fun _ => h2, fun _ => h3⟩
  rw [exec_seed]
  exact ⟨issueCommand_of_waiting (waits := false) r clear (by simp),
    fun w => issueCommand_of_effect (waits := false) r clear (by simp) w⟩

theorem loop_signal_reserved (h3 : c.c3 ≠ 0) :
    exec (.loop c) s = .next (Claims.stops s n 2) ∧ exec (.signal c) s = .next (Claims.stops s n 2) := by
  have set : ¬ClearFields c (true, true, false) false := by
    rw [ClearFields]; tauto
  rw [exec_loop, exec_signal]
  exact ⟨issueCommand_of_reserved r set, issueCommand_of_reserved r set⟩

theorem loop_misaligned (h3 : c.c3 = 0) (h : c.c1.toNat % 8 ≠ 0 ∨ c.c2.toNat % 32 ≠ 0) :
    exec (.loop c) s = .next (Claims.stops s n 4) := by
  rw [exec_loop]
  exact issueCommand_of_misaligned r ⟨rfl, nofun, nofun, fun _ => h3⟩ (by simpa using h)

theorem loop_waits (h3 : c.c3 = 0) (a1 : c.c1.toNat % 8 = 0) (a2 : c.c2.toNat % 32 = 0) (asks : c.wait = true)
    (busy : s.streamQuiet n = false) : exec (.loop c) s = .next (if s.draining n then s.haltStream n else s) := by
  rw [exec_loop]
  exact issueCommand_of_waiting r ⟨rfl, nofun, nofun, fun _ => h3⟩ (by simp [a1, a2]) (by simp [asks]) busy

theorem branch_misaligned (h : c.c3.toNat % 32 ≠ 0 ∨ (c.sub ≠ 4 ∧ c.c1.toNat % 8 ≠ 0)) :
    exec (.branch c) s = .next (Claims.stops s n 4) := by
  rw [exec_branch]
  refine issueCommand_of_misaligned r ⟨rfl, nofun, nofun, nofun⟩ ?_
  rcases h with h | ⟨reads, h⟩
  · exact ⟨(c.c3, 32), by simp, h⟩
  · exact ⟨(c.c1, 8), by rw [if_neg reads]; simp, h⟩

theorem branch_waits (a3 : c.c3.toNat % 32 = 0) (a1 : c.sub ≠ 4 → c.c1.toNat % 8 = 0) (asks : c.wait = true)
    (busy : s.streamQuiet n = false) : exec (.branch c) s = .next (if s.draining n then s.haltStream n else s) := by
  rw [exec_branch]
  exact issueCommand_of_waiting r ⟨rfl, nofun, nofun, nofun⟩ (branch_aligned a3 a1) (by simp [asks]) busy

theorem waitph_misaligned (h : c.c1.toNat % 8 ≠ 0) : exec (.waitph c) s = .next (Claims.stops s n 4) := by
  rw [exec_waitph]
  exact issueCommand_of_misaligned r ⟨rfl, nofun, nofun, nofun⟩ (by simpa using h)

theorem waitph_waits (a1 : c.c1.toNat % 8 = 0) (asks : c.wait = true) (busy : s.streamQuiet n = false) :
    exec (.waitph c) s = .next (if s.draining n then s.haltStream n else s) := by
  rw [exec_waitph]
  exact issueCommand_of_waiting r ⟨rfl, nofun, nofun, nofun⟩ (by simp [a1]) (by simp [asks]) busy

theorem signal_misaligned (h3 : c.c3 = 0) (h : c.c1.toNat % 8 ≠ 0) : exec (.signal c) s = .next (Claims.stops s n 4) := by
  rw [exec_signal]
  exact issueCommand_of_misaligned r ⟨rfl, nofun, nofun, fun _ => h3⟩ (by simpa using h)

theorem signal_waits (h3 : c.c3 = 0) (a1 : c.c1.toNat % 8 = 0) (busy : s.streamQuiet n = false) :
    exec (.signal c) s = .next (if s.draining n then s.haltStream n else s) := by
  rw [exec_signal]
  exact issueCommand_of_waiting r ⟨rfl, nofun, nofun, fun _ => h3⟩ (by simp [a1]) rfl busy

end

/-- Settles O56: every command by its checks, its wait and its effect. -/
theorem commandResults : Obligations.CommandResults := by
  refine ⟨fun row hrow c s n issuer running waiting header => ?_, fun c s n => exec_reservedCommand_stops,
    fun c s n r => ⟨noOperands_reserved r, noOperands_results r, seed_reserved r, seed_results r, loop_signal_reserved r,
      loop_misaligned r, fun h3 a1 a2 => ⟨loop_waits r h3 a1 a2, fun w s0 => exec_loop_effect r h3 a1 a2⟩,
      branch_misaligned r, fun a3 a1 => ⟨branch_waits r a3 a1, exec_branch_effect r a3 a1⟩,
      waitph_misaligned r, fun a1 => ⟨waitph_waits r a1, fun w s0 => exec_waitph_effect r a1⟩,
      signal_misaligned r, fun h3 a1 => ⟨fun _ => signal_waits r h3 a1, fun s1 => exec_signal_effect r h3 a1⟩⟩,
    fun n s s0 va v m w cmp irq => exec_waitphPoll_effect,
    fun s n pa va key pol grid free good => ⟨cpDword_mem free good,
      fun place => ⟨cpPut_mem_write free place, cpPut_mem_add free place good⟩⟩,
    advance_results⟩
  obtain ⟨used, align, rsv, waits, effect, issues⟩ := exec_commandTable c s row hrow
  rw [issues]
  exact issueCommand_of_header issuer running waiting header

end Sys2Proof.Machine
end

section
namespace Sys2Proof.Machine

/-! ### LAUNCH and LAUNCHI (R84, R85, R93) -/

/-- The grid that a launch record hands over: `d` its dwords, `at_` the state that it is read in, `put` that after the add to
its root word. -/
def launchedGrid (at_ put : State) (c : Command) (n : Nat) (x : Stream) (gid : Word) (d : List DWord) (teams : Nat) : Grid :=
  { uid := put.uid, ctx := x.ctx, stream := n, gen := x.gen, gridId := gid, addr := c.c1, l0 := d.getD 0 0, l1 := d.getD 1 0,
    centry := d.getD 2 0, pentry := d.getD 3 0, argp := d.getD 4 0, root := d.getD 5 0, teams := teams,
    seed := ((at_.ctx? x.ctx).map fun y => y.srseed).getD 0,
    w0 := BitVec.ofNat 64 (launchOf (d.getD 0 0) (d.getD 1 0) teams).w0, next := 0, restored := [] }

/-- The number that the next grid of a stream's context takes. -/
def State.nextGridId (s : State) (x : Stream) : Word := ((s.ctx? x.ctx).map fun y => y.gridCount).getD 0

/-- The number of teams that a launch's record or LAUNCHI's dword gives, and the state once they are read. -/
def State.ReadsTeams (s0 : State) (n : Nat) (gid : Word) (teamsVa : Option DWord) (d : List DWord) (teams : Nat)
    (s3 : State) : Prop :=
  match teamsVa with
  | none => teams = bits (d.getD 0 0).toNat 31 0 ∧ s3 = s0
  | some va => ∃ t, teams = bits t.toNat 31 0 ∧ s0.cpDword n va gid = .ok (t, s3)

/-- R93: the add to a launch's root word, where it has one. -/
def State.rootAdded (s : State) (n : Nat) (gid : Word) (d : List DWord) (teams : Nat) : Except State State :=
  let l := launchOf (d.getD 0 0) (d.getD 1 0) teams
  if d.getD 5 0 = 0 then .ok s
  else s.cpPut n (d.getD 5 0) (.atomic .add .n64 (BitVec.ofNat 64 (2 ^ 63 - l.lanes * l.w0)) 0) gid

/-- R85: the grid is handed over, unless it has no teams; either way its number is taken. -/
def State.handOver (s : State) (g : Grid) : State :=
  let s2 := s.modCtx g.ctx fun y => { y with gridCount := y.gridCount + 1 }
  if g.teams = 0 then s2 else { s2.fresh with grids := s2.grids ++ [g] }

section
variable {s s0 s3 : State} {c : Command} {teamsVa : Option DWord} {n : Nat} {x : Stream} {b : List Byte} {teams : Nat}
  (record : s.cpBytes n c.c1 64 (s.nextGridId x) = .ok (b, s0))
  (count : s0.ReadsTeams n (s.nextGridId x) teamsVa (dwordsOf b) teams s3)
include record count

/-- A launch whose record and count have been read: its error, or the add to its root word and the grid. -/
theorem launchBody_eq : launchBody s c teamsVa n x =
    match launchErr (dwordsOf b) teams with
    | some e => .stop e
    | none => match s3.rootAdded n (s.nextGridId x) (dwordsOf b) teams with
      | .error s1 => .stay s1
      | .ok s1 => .done (s1.handOver (launchedGrid s3 s1 c n x (s.nextGridId x) (dwordsOf b) teams)) := by
  unfold State.nextGridId at *
  cases teamsVa with
  | none =>
    obtain ⟨rfl, rfl⟩ := count
    simp only [launchBody, record]
    rfl
  | some va =>
    obtain ⟨t, rfl, read⟩ := count
    simp only [launchBody, record, read]
    rfl

end

/-- A command that reads, as its processor sees it. -/
theorem cpBytes_of_read {s : State} {n k : Nat} {va : DWord} {grid : Word} {b : List Byte} (h : s.cpRead n va k = .bytes b) :
    s.cpBytes n va k grid = .ok (b, s.rekeySpans (s.stream n).ctx [(va, k)]) := by
  simp [State.cpBytes, h]

/-- LAUNCH and LAUNCHI end in what their record says. -/
theorem exec_launches {s : State} {c : Command} {n : Nat} (ins : Bool) (r : Claims.CommandReady s c n)
    (hw : Claims.waited s n c.wait) (a1 : c.c1.toNat % 64 = 0) (h3 : c.c3 = 0)
    (h2 : if ins then c.c2.toNat % 8 = 0 else c.c2 = 0) :
    exec (if ins then .launchi c else .launch c) s =
      .next ((launchBody s c (if ins then some c.c2 else none) n (s.stream n)).state s c n) := by
  cases ins with
  | false =>
    exact (exec_launch c s).trans
      (issueCommand_of_effect (waits := false) r ⟨rfl, nofun, fun _ => h2, fun _ => h3⟩ (by simp [a1]) hw)
  | true =>
    exact (exec_launchi c s).trans
      (issueCommand_of_effect (waits := false) r ⟨rfl, nofun, nofun, fun _ => h3⟩ (by simpa [a1] using h2) hw)

section
variable {s s3 : State} {c : Command} {n : Nat} {b : List Byte} {teams : Nat} (ins : Bool) (r : Claims.CommandReady s c n)
  (hw : Claims.waited s n c.wait) (a1 : c.c1.toNat % 64 = 0) (h3 : c.c3 = 0)
  (h2 : if ins then c.c2.toNat % 8 = 0 else c.c2 = 0) (read : s.cpRead n c.c1 64 = .bytes b)
  (count : (s.rekeySpans (s.stream n).ctx [(c.c1, 64)]).ReadsTeams n (s.nextGridId (s.stream n))
    (if ins then some c.c2 else none) (dwordsOf b) teams s3)
include r hw a1 h3 h2 read count

/-- R387: a launch whose record is in error stops the stream. -/
theorem exec_launches_of_error {e : BitVec 8} (wrong : launchErr (dwordsOf b) teams = some e) :
    exec (if ins then .launchi c else .launch c) s = .next (Claims.stops s n e) := by
  rw [exec_launches ins r hw a1 h3 h2, launchBody_eq (cpBytes_of_read read) count]
  simp only [wrong]
  rfl

/-- R84, R85: any other hands its grid over. -/
theorem exec_launches_of_added {s1 : State} (right : launchErr (dwordsOf b) teams = none)
    (added : s3.rootAdded n (s.nextGridId (s.stream n)) (dwordsOf b) teams = .ok s1) :
    exec (if ins then .launchi c else .launch c) s = .next
      ((s1.handOver (launchedGrid s3 s1 c n (s.stream n) (s.nextGridId (s.stream n)) (dwordsOf b) teams)).advance n
        ((s.stream n).pc + 32) c.irq) := by
  rw [exec_launches ins r hw a1 h3 h2, launchBody_eq (cpBytes_of_read read) count]
  simp only [right, added]
  rfl

end

/-! ### PUBLISH and host copies (R83, R140, R345, R418, R440) -/

section
variable {s : State} {c : Command} {n : Nat} (r : Claims.CommandReady s c n)
include r

section
variable {pa : Nat} (a1 : c.c1.toNat % 8 = 0) (h2 : c.c2 = 0) (h3 : c.c3 = 0) (hw : Claims.waited s n true)
  (place : s.probe (s.stream n).ctx c.c1 .write = .ok (.host pa))
include a1 h2 h3 hw place

/-- PUBLISH at a place of host memory: error 5 where the link is down or a write was lost, else a FetchAdd to wait for. -/
theorem exec_publish_effect : exec (.publish c) s = .next (
    if !s.host.linkUp || (s.stream n).lostWrites then Claims.stops s n 5
    else ({ s.fresh with host := { s.host with fetchAdds := s.host.fetchAdds ++
      [{ id := s.uid, va := c.c1, pa := pa, covers := [], team := 0, grp := 0, result := 0, stream := some n }] } } : State
      ).modStream n fun x => { x with wait := .publish s.uid c.irq }) := by
  have run : execPublish c s = _ :=
    issueCommand_of_effect (align := [(c.c1, 8)]) (waits := true) r ⟨rfl, nofun, fun _ => h2, fun _ => h3⟩ (by simp [a1]) hw
  rw [exec_publish, run]
  simp only [place]
  split <;> rfl

theorem exec_publish_stops (h : s.host.linkUp = false ∨ (s.stream n).lostWrites = true) :
    exec (.publish c) s = .next (Claims.stops s n 5) := by
  rw [exec_publish_effect r a1 h2 h3 hw place, if_pos (by simpa using h)]

theorem exec_publish_sends (up : s.host.linkUp = true) (kept : (s.stream n).lostWrites = false) (hn : n < s.streams.length) :
    ∃ t, exec (.publish c) s = .next t ∧ (t.stream n) = { s.stream n with wait := .publish s.uid c.irq } ∧
      t.host.fetchAdds = s.host.fetchAdds ++
        [{ id := s.uid, va := c.c1, pa := pa, covers := [], team := 0, grp := 0, result := 0, stream := some n }] := by
  rw [exec_publish_effect r a1 h2 h3 hw place, if_neg (by simp [up, kept])]
  exact ⟨_, rfl, stream_modStream_same (s := { s.fresh with host := _ }) hn _, rfl⟩

end

/-- HCOPY's copy joins those in flight, and the stream goes on beside it. -/
theorem exec_hcopy_effect (hw : Claims.waited s n c.wait) (h3 : bits c.c3.toNat 63 40 = 0) :
    exec (.hcopy c) s = .next ((s.modStream n fun x => { x with copies := x.copies ++ [{
      ctx := (s.stream n).ctx, pc := (s.stream n).pc, toHost := decide (c.sub = 1), src := c.c1, dst := c.c2,
      count := bits c.c3.toNat 39 0, irq := c.irq, gen := (s.stream n).gen, stalled := false }] }).advance n
        ((s.stream n).pc + 32) false) := by
  rw [exec_hcopy]
  exact issueCommand_of_effect (waits := false) r ⟨by simp [h3], nofun, nofun, nofun⟩ (by simp) hw

end

section
variable {s : State} {n i : Nat} {c : HostCopy} (oldest : ((s.stream n).copies.zipIdx.find? fun e => !e.1.stalled) = some (c, i))
include oldest

theorem exec_hcopyComplete_fails (h : s.hostCopyWrong c = true ∨ s.host.linkUp = false) :
    exec (.hcopyComplete n) s = .next (s.failHostCopy n i c) := by
  change execHcopyComplete n s = _
  simp only [execHcopyComplete, oldest]
  rw [if_pos (by simpa using h)]

theorem exec_hcopyComplete_makes (right : s.hostCopyWrong c = false) (up : s.host.linkUp = true) {b : List Byte}
    {ps : List PutPiece} (read : s.readSpan c.ctx (streamKey n) c.src c.count = .bytes b)
    (plan : s.putPlan c.ctx c.dst b = .ok ps) :
    let s1 := ((s.rekeySpans c.ctx [(c.src, c.count)]).putAll (s.job c.ctx) (streamKey n) ps).2.dropHostCopy n i
    let s2 := if c.toHost then s1 else
      s1.writeBackLines (s1.storage.dirty.filter fun l => ps.any fun p => (linesOf p.loc.addr p.bytes.length).contains l)
    exec (.hcopyComplete n) s = .next (if c.irq then s2.raiseMsix n else s2) := by
  change execHcopyComplete n s = _
  simp only [execHcopyComplete, oldest]
  rw [if_neg (by simp [right, up])]
  simp only [read, plan]

end

/-- Settles O57: launches by their record, PUBLISH by the link, host copies by their pages. -/
theorem launchAndCopyCommands : Obligations.LaunchAndCopyCommands := by
  refine ⟨?_, fun c s n pa r a1 h2 h3 hw place hn => ⟨exec_publish_stops r a1 h2 h3 hw place,
      fun up kept => exec_publish_sends r a1 h2 h3 hw place up kept hn⟩,
    fun c s n => exec_hcopy_effect,
    fun n i s c b ps oldest => ⟨exec_hcopyComplete_fails oldest,
      fun right up read plan => exec_hcopyComplete_makes oldest right up read plan⟩⟩
  intro c s n ins b t x i gid d w teams l r hw a1 h3 read s0 s3 count
  have counted : s0.ReadsTeams n gid (if ins then some c.c2 else none) d teams s3 ∧
      (if ins then c.c2.toNat % 8 = 0 else c.c2 = 0) := by
    cases ins with
    | false => exact ⟨⟨rfl, count.2⟩, count.1⟩
    | true => exact ⟨⟨t, rfl, count.2⟩, count.1⟩
  obtain ⟨reads, h2⟩ := counted
  refine ⟨fun e wrong => exec_launches_of_error ins r hw a1 h3 h2 read reads wrong, fun s1 right put => ?_⟩
  refine exec_launches_of_added ins r hw a1 h3 h2 read reads right ?_
  rcases put with ⟨rootless, rfl⟩ | ⟨rooted, put⟩
  · exact if_pos rootless
  · exact (if_neg rooted).trans put

end Sys2Proof.Machine
end

section
namespace Sys2Proof.Machine

/-! ### Lanes, list entries and GROUPIDs -/

/-- The bits of a lane mask made from a list of lanes. -/
theorem getLsbD_laneMask (l : List Nat) (lane : Nat) :
    (laneMask l).getLsbD lane = (decide (lane < 32) && decide (lane ∈ l)) := by
  have fold (a : Nat) : (l.foldl (fun a i => a ||| 2 ^ i) a).testBit lane = (a.testBit lane || decide (lane ∈ l)) := by
    induction l generalizing a with
    | nil => simp
    | cons i l ih =>
      rw [List.foldl_cons, ih, Nat.testBit_or, Nat.testBit_two_pow]
      by_cases hi : lane = i
      · simp [hi]
      · simp [hi, Ne.symm hi]
  rw [laneMask, BitVec.getLsbD_ofNat, fold, Nat.zero_testBit, Bool.false_or]

/-- The bits of the mask of the lanes where a condition holds. -/
theorem getLsbD_maskOf (f : Nat → Bool) (lane : Nat) : (maskOf f).getLsbD lane = (decide (lane < 32) && f lane) := by
  rw [maskOf, getLsbD_laneMask]
  by_cases h : lane < 32 <;> simp [h]

/-- Writing the entries of a list to the keys from 0 leaves each under its place. -/
theorem get_startWeights (l : List DWord) (j : Nat) : SMap.get (startWeights l) j = l.getD j 0 := by
  have kept : ∀ l : List DWord, SMap.wf (startWeights l) = true := fun l => SMap.wf_foldSet _ _ _ _ rfl
  induction l using List.reverseRecOn with
  | nil => rfl
  | append_singleton l x ih =>
    have step : startWeights (l ++ [x]) = SMap.set (startWeights l) l.length x := by
      simp [startWeights, List.zipIdx_append]
    rw [step, SMap.get_set _ _ _ _ (kept l), ih]
    by_cases hj : j = l.length
    · simp [hj]
    · rw [if_neg hj]
      by_cases hlt : j < l.length
      · simp [List.getElem?_append_left hlt]
      · have beyond : l.length + 1 ≤ j := by omega
        simp [List.getElem?_eq_none (show l.length ≤ j by omega), List.getElem?_eq_none (l := l ++ [x]) (i := j) (by simpa using beyond)]

/-- Whether no live group of a team has a GROUPID. -/
def State.gidFree (s : State) (t i : Nat) : Bool := !(s.groups.any fun h => h.team = t && h.gid = i && !h.hasLeft)

/-- The lowest GROUPID that is free. -/
def State.lowestGid (s : State) (t : Nat) : Nat := ((List.range (s.groups.length + 1)).find? (s.gidFree t)).getD 0

theorem gidFree_eq_true {s : State} {t i : Nat} :
    s.gidFree t i = true ↔ ∀ y ∈ s.groups, y.team = t → y.gid = i → y.hasLeft = true := by
  simp [State.gidFree]

theorem gidFree_eq_false {s : State} {t i : Nat} :
    s.gidFree t i = false ↔ ∃ y ∈ s.groups, y.team = t ∧ y.gid = i ∧ y.hasLeft = false := by
  simp [State.gidFree, and_assoc]

/-- Of one more GROUPID than there are groups, one is free. -/
theorem exists_gidFree (s : State) (t : Nat) : ∃ i ∈ List.range (s.groups.length + 1), s.gidFree t i = true := by
  by_contra hc
  have taken : List.range (s.groups.length + 1) ⊆ s.groups.map Group.gid := fun i hi => by
    have some : s.gidFree t i = false := by simpa using fun free => hc ⟨i, hi, free⟩
    obtain ⟨y, hy, -, gid, -⟩ := gidFree_eq_false.mp some
    exact List.mem_map.mpr ⟨y, hy, gid⟩
  have := (List.nodup_range.subperm taken).length_le
  simp at this

/-- The GROUPID that a group starting in a spawn team takes is free, and every lower one is not. -/
theorem lowestGid_spec (s : State) (t : Nat) :
    s.gidFree t (s.lowestGid t) = true ∧ ∀ j < s.lowestGid t, s.gidFree t j = false := by
  obtain ⟨i, hi, free⟩ := exists_gidFree s t
  obtain ⟨m, hm⟩ := Option.isSome_iff_exists.mp (List.find?_isSome.mpr ⟨i, hi, free⟩)
  rw [State.lowestGid, hm, Option.getD_some]
  obtain ⟨hfree, -, hlow⟩ := List.find?_range_eq_some.mp hm
  exact ⟨hfree, fun j hj => by simpa using hlow j hj⟩

/-! ### What placing leaves alone -/

theorem modCore_rest (s : State) (c : Nat) (f : Core → Core) : { s.modCore c f with cores := s.cores } = s := by
  unfold State.modCore
  split <;> rfl

theorem emptyCaches_rest (s : State) (c : Nat) : { s.emptyCaches c with cores := s.cores } = s := by
  unfold State.emptyCaches
  split
  · exact modCore_rest s c _
  · rfl

/-- A placement's drops from a core's caches change cores and the fabric alone. -/
theorem placedOn_rest (s : State) (g : Grid) (core : Nat) :
    { s.placedOn g core with cores := s.cores, fabric := s.fabric } = s := by
  have dropped : { (s.emptyCaches core).dropDescReads core g.ctx fun _ => true with cores := s.cores, fabric := s.fabric } = s :=
    (congrArg (fun t : State => { t with fabric := s.fabric }) (emptyCaches_rest s core) :)
  unfold State.placedOn
  dsimp only
  split
  · rw [← modCore_rest ((s.emptyCaches core).dropDescReads core g.ctx fun _ => true) core] at dropped
    exact dropped
  · exact dropped

theorem placedOn_groups (s : State) (g : Grid) (core : Nat) : (s.placedOn g core).groups = s.groups :=
  (congrArg State.groups (placedOn_rest s g core) :)
theorem placedOn_teams (s : State) (g : Grid) (core : Nat) : (s.placedOn g core).teams = s.teams :=
  (congrArg State.teams (placedOn_rest s g core) :)
theorem placedOn_grids (s : State) (g : Grid) (core : Nat) : (s.placedOn g core).grids = s.grids :=
  (congrArg State.grids (placedOn_rest s g core) :)
theorem placedOn_uid (s : State) (g : Grid) (core : Nat) : (s.placedOn g core).uid = s.uid :=
  (congrArg State.uid (placedOn_rest s g core) :)

/-- The making of a spawn team changes the teams and the count of names alone. -/
theorem addSpawnTeam_rest (s : State) (g : Grid) (core : Nat) :
    { s.addSpawnTeam g core with teams := s.teams, uid := s.uid } = s := by
  unfold State.addSpawnTeam
  split <;> rfl

theorem addSpawnTeam_groups (s : State) (g : Grid) (core : Nat) : (s.addSpawnTeam g core).groups = s.groups :=
  (congrArg State.groups (addSpawnTeam_rest s g core) :)
theorem addSpawnTeam_grids (s : State) (g : Grid) (core : Nat) : (s.addSpawnTeam g core).grids = s.grids :=
  (congrArg State.grids (addSpawnTeam_rest s g core) :)

/-- R87: a grid without spawned groups has no spawn team. -/
theorem addSpawnTeam_of_no_units {s : State} {g : Grid} {core : Nat} (h : g.spawnUnits = 0) : s.addSpawnTeam g core = s := by
  simp [State.addSpawnTeam, h]

/-- Where the grid has spawned groups, its spawn team on the core is there afterwards. -/
theorem spawnTeam?_addSpawnTeam (s : State) {g : Grid} {core : Nat} (h : g.spawnUnits ≠ 0) :
    ∃ x, (s.addSpawnTeam g core).spawnTeam? g.uid core = some x := by
  unfold State.addSpawnTeam
  cases found : s.spawnTeam? g.uid core with
  | some x => exact ⟨x, by simpa using found⟩
  | none =>
    refine ⟨newTeam s.uid g core true 0xFFFFFFFF (BitVec.ofNat 32 g.spawnUnits), ?_⟩
    rw [if_neg (by simp [h])]
    unfold State.spawnTeam? at found ⊢
    rw [List.find?_append, found]
    simp [newTeam]

theorem spawnTeam?_spec {s : State} {u core : Nat} {x : Team} (h : s.spawnTeam? u core = some x) :
    x ∈ s.teams ∧ x.spawn = true ∧ x.grid = u ∧ x.core = core := by
  have := List.find?_some h
  simp only [Bool.and_eq_true, decide_eq_true_eq] at this
  exact ⟨List.mem_of_find?_eq_some h, this.1.1.1, this.1.2, this.2⟩

end Sys2Proof.Machine
end

section
namespace Sys2Proof.Machine

/-! ### Placement of a team (R67, R69, R86 to R88) -/

/-- TEAM_PLACEMENT places the next team or gang of the first waiting grid where that can be placed. -/
theorem exec_teamPlacement_places {core : Nat} {s : State} {g : Grid} {gs : List Grid}
    (waiting : s.reap.waitingGrids = g :: gs) (fits : s.reap.placeable g core = true) (hc : core < 384) :
    exec (.teamPlacement core) s = .next
      (let s2 := (g.window core).foldl (fun s c => s.placeTeam g.uid c) s.reap
       { s2 with reservations := s2.reservations.filter fun r => r.1 ≠ g.uid }) := by
  have somewhere : (List.range 384).any (s.reap.placeable g) = true :=
    List.any_eq_true.mpr ⟨core, List.mem_range.mpr hc, fits⟩
  change execTeamPlacement core s = _
  simp only [execTeamPlacement, waiting, State.distribute, somewhere, fits, if_true]

/-- A launched group as it is placed, but for its weights. -/
def Grid.startGroup (g : Grid) (t i slot : Nat) : Group :=
  let l := g.launch
  Group.start t i slot (if l.nprod = 0 then 0 else if i < l.nprod then 1 else 2) (if i < l.nprod then l.bprod else l.bcons)
    g.argp g.root (if i < l.nprod then g.pentry else g.centry) (BitVec.allOnes 32)

theorem startGroups_gids (g : Grid) (t : Nat) (taken is : List Nat) : (g.startGroups t taken is).map Group.gid = is := by
  induction is generalizing taken with
  | nil => rfl
  | cons i is ih => exact congrArg (i :: ·) (ih _)

theorem mem_startGroups {g : Grid} {t : Nat} {taken is : List Nat} {h : Group} (hm : h ∈ g.startGroups t taken is) :
    ∃ slot, { h with weight := [] } = g.startGroup t h.gid slot := by
  induction is generalizing taken with
  | nil => cases hm
  | cons i is ih =>
    rcases List.mem_cons.mp hm with rfl | hm
    · simp only [Grid.startGroup]
      exact ⟨_, rfl⟩
    · exact ih hm

/-- R69: the registers of a group that starts: its argument pointer, its root word, and zero. -/
theorem greg_start (t i slot : Nat) (role : BitVec 2) (budget : Nat) (argp root entry : DWord) (lanes : LaneMask) (r : Nat) :
    (Group.start t i slot role budget argp root entry lanes).greg r = if r = 1 then argp else if r = 2 then root else 0 := by
  have first : SMap.wf (SMap.set ([] : SMap 64) 1 argp) = true := SMap.wf_set _ _ _ rfl
  have held : SMap.get (Group.start t i slot role budget argp root entry lanes).g r =
      if r = 2 then root else if r = 1 then argp else 0 := by
    change SMap.get (SMap.set (SMap.set [] 1 argp) 2 root) r = _
    rw [SMap.get_set _ _ _ _ first, SMap.get_set _ _ _ _ rfl]
    rfl
  rw [Group.greg, held]
  split
  · subst r; rfl
  · split
    · subst r; rfl
    · rfl

/-- What a group of a team is as it is placed. -/
structure Group.Placed (h : Group) (g : Grid) (t : Nat) : Prop where
  team : h.team = t
  role : h.role = (if g.launch.nprod = 0 then 0 else if h.gid < g.launch.nprod then 1 else 2)
  budget : h.budget = (if h.gid < g.launch.nprod then g.launch.bprod else g.launch.bcons)
  splits : (h.splits.map fun p => (p.id, p.pc, p.lanes, p.stack)) =
    [(0, if h.gid < g.launch.nprod then g.pentry else g.centry, BitVec.allOnes 32, [])]
  greg : ∀ r, h.greg r = if r = 1 then g.argp else if r = 2 then g.root else 0
  lreg : ∀ r lane, h.lreg r lane = 0
  preds : ∀ r, r ≠ 7 → h.pmask r = 0 ∧ (r < 7 → h.qreg r = false)
  xreg : ∀ r lane, h.xreg r lane = 0

theorem placed_of_mem_startGroups {g : Grid} {t : Nat} {taken is : List Nat} {h : Group} (hm : h ∈ g.startGroups t taken is) :
    h.Placed g t := by
  obtain ⟨slot, hh⟩ := mem_startGroups hm
  have q : h.q = 0 := congrArg Group.q hh
  exact {
    team := (congrArg Group.team hh :)
    role := (congrArg Group.role hh :)
    budget := (congrArg Group.budget hh :)
    splits := (congrArg (fun h : Group => h.splits.map fun p => (p.id, p.pc, p.lanes, p.stack)) hh :)
    greg := fun r => (congrArg (fun h : Group => h.greg r) hh :).trans (greg_start _ _ _ _ _ _ _ _ _ r)
    lreg := fun r lane => (congrArg (fun h : Group => h.lreg r lane) hh :)
    preds := fun r hr => ⟨(congrArg (fun h : Group => h.pmask r) hh :).trans (if_neg hr), fun _ => by simp [Group.qreg, hr, q]⟩
    xreg := fun r lane => (congrArg (fun h : Group => h.xreg r lane) hh :) }

theorem grid?_modGrid_same (s : State) (u : Nat) (f : Grid → Grid) (hf : ∀ x, x.uid = u → (f x).uid = u) :
    (s.modGrid u f).grid? u = (s.grid? u).map f := find?_mapKey_same Grid.uid s.grids f hf

section
variable {s : State} {u core : Nat} {g : Grid} (found : s.grid? u = some g)
include found

theorem placeTeam_groups : (s.placeTeam u core).groups = s.groups ++ g.startGroups (s.addSpawnTeam g core).uid
    (((s.addSpawnTeam g core).placedOn g core).slotsTaken core) (List.range (g.launch.nprod + g.launch.ncons)) := by
  simp only [State.placeTeam, found]
  rw [← addSpawnTeam_groups s g core, ← placedOn_groups (s.addSpawnTeam g core) g core,
    ← placedOn_uid (s.addSpawnTeam g core) g core]
  rfl

theorem placeTeam_teams : (s.placeTeam u core).teams = (s.addSpawnTeam g core).teams ++
    [newTeam (s.addSpawnTeam g core).uid g core false (BitVec.ofNat 32 g.next) g.launch.partword] := by
  simp only [State.placeTeam, found]
  rw [← placedOn_teams (s.addSpawnTeam g core) g core, ← placedOn_uid (s.addSpawnTeam g core) g core]
  rfl

theorem placeTeam_grid? : (s.placeTeam u core).grid? u = some { g with next := g.next + 1 } := by
  have grids : (s.placeTeam u core).grids = (s.modGrid u fun g => { g with next := g.next + 1 }).grids := by
    simp only [State.placeTeam, found]
    rw [State.modGrid, State.modGrid, ← addSpawnTeam_grids s g core, ← placedOn_grids (s.addSpawnTeam g core) g core]
    rfl
  rw [State.grid?, grids, ← State.grid?, grid?_modGrid_same, found]
  · rfl
  · exact fun _ hx => hx

end

end Sys2Proof.Machine
end

section
namespace Sys2Proof.Machine

/-! ### Spawned groups (R87, R95, R292) -/

theorem startable_iff (s : State) (core : Nat) (f : Forming) : s.startable core f = true ↔
    ∃ g it, s.grid? f.grid = some g ∧ f.items.head? = some it ∧ (∃ c ∈ s.ctxs, c.id = g.ctx ∧ c.phase = .active) ∧
      (32 ≤ f.items.length ∨ 512 ≤ s.cycle - it.since) ∧ (s.slotsTaken core).length < 64 ∧
      s.itemsReady (f.items.take 32) = true ∧
      ((∃ x, s.spawnTeam? f.grid core = some x ∧ (s.groups.filter fun h => h.team = x.uid && !h.hasLeft).length < g.launch.spmax) ∨
        (s.spawnTeam? f.grid core = none ∧ s.unitsTaken core + g.spawnUnits ≤ 64 ∧ 0 < g.launch.spmax)) := by
  unfold State.startable
  cases hg : s.grid? f.grid with
  | none => simp
  | some g =>
    cases hi : f.items.head? with
    | none => simp
    | some it => cases hx : s.spawnTeam? f.grid core <;> simp [and_assoc]

/-- A grid whose forming group may start has register units for a spawn team. -/
theorem spawnUnits_of_startable {s : State} {core : Nat} {f : Forming} {g : Grid} (h : s.startable core f = true)
    (hg : s.grid? f.grid = some g) (root : g.root ≠ 0) : g.spawnUnits ≠ 0 := by
  obtain ⟨g', it, hg', -, -, -, -, -, room⟩ := (startable_iff s core f).mp h
  cases hg.symm.trans hg'
  have spmax : 0 < g.launch.spmax := by
    rcases room with ⟨x, -, h⟩ | ⟨-, -, h⟩ <;> omega
  have bspawn : 8 ≤ g.launch.bspawn := by
    change 8 ≤ 8 * (bits g.l1.toNat 36 32 + 1)
    omega
  have product : 1 ≤ g.launch.spmax * g.launch.bspawn := Nat.mul_pos spmax (by omega)
  rw [Grid.spawnUnits, if_neg root]
  omega

/-- The payload words of items, written to v0 and v1 of the lanes from 0. -/
def Group.takeItems (h : Group) (items : List Item) : Group :=
  items.zipIdx.foldl (fun (h : Group) e => (h.setLreg 0 e.2 e.1.w0).setLreg 1 e.2 e.1.w1) h

theorem takeItems_append (h : Group) (items : List Item) (it : Item) : h.takeItems (items ++ [it]) =
    ((h.takeItems items).setLreg 0 items.length it.w0).setLreg 1 items.length it.w1 := by
  simp [Group.takeItems, List.zipIdx_append]

theorem takeItems_rest (h : Group) (items : List Item) : { h.takeItems items with v := h.v } = h := by
  induction items using List.reverseRecOn with
  | nil => rfl
  | append_singleton items it ih => rw [takeItems_append]; exact ih

theorem takeItems_wf {h : Group} (hw : SMap.wf h.v = true) (items : List Item) : SMap.wf (h.takeItems items).v = true := by
  induction items using List.reverseRecOn with
  | nil => exact hw
  | append_singleton items it ih => rw [takeItems_append]; exact SMap.wf_set _ _ _ (SMap.wf_set _ _ _ ih)

theorem takeItems_lreg {h : Group} (hw : SMap.wf h.v = true) (items : List Item) (short : items.length ≤ 32) (lane : Nat)
    (it : Item) (e : items[lane]? = some it) :
    (h.takeItems items).lreg 0 lane = it.w0 ∧ (h.takeItems items).lreg 1 lane = it.w1 := by
  induction items using List.reverseRecOn with
  | nil => cases e
  | append_singleton items last ih =>
    rw [List.length_append, List.length_singleton] at short
    have hl : lane < 32 := by
      have := (List.getElem?_eq_some_iff.mp e).1
      simp at this
      omega
    have wf0 := takeItems_wf hw items
    have wf1 : SMap.wf ((h.takeItems items).setLreg 0 items.length last.w0).v = true := SMap.wf_set _ _ _ wf0
    rw [takeItems_append, lreg_setLreg _ _ _ _ _ _ wf1 (by omega) hl, lreg_setLreg _ _ _ _ _ _ wf1 (by omega) hl,
      lreg_setLreg _ _ _ _ _ _ wf0 (by omega) hl, lreg_setLreg _ _ _ _ _ _ wf0 (by omega) hl]
    by_cases hlast : lane = items.length
    · subst hlast
      simp at e
      simp [e]
    · have earlier : items[lane]? = some it := by
        rw [List.getElem?_append_left] at e
        · exact e
        · have := (List.getElem?_eq_some_iff.mp e).1
          simp at this
          omega
      simpa [hlast] using ih (by omega) earlier

/-- The group that starts from some items of a forming group. -/
def spawnedGroup (t gid slot : Nat) (f : Forming) (g : Grid) : Group :=
  { (Group.start t gid slot 3 g.launch.bspawn g.argp g.root f.entry
      (maskOf fun l => l < (f.items.take 32).length)).takeItems (f.items.take 32) with
    weight := startWeights ((f.items.take 32).map fun it => it.weight) }

section
variable {t gid slot : Nat} {f : Forming} {g : Grid}

/-- What a spawned group is as it starts, but for its lane registers and weights. -/
theorem spawnedGroup_rest : { spawnedGroup t gid slot f g with v := [], weight := [] } =
    Group.start t gid slot 3 g.launch.bspawn g.argp g.root f.entry (maskOf fun l => l < (f.items.take 32).length) :=
  (congrArg (fun h : Group => { h with weight := [] }) (takeItems_rest (Group.start t gid slot 3 g.launch.bspawn g.argp g.root f.entry
    (maskOf fun l => l < (f.items.take 32).length)) (f.items.take 32)) :)

/-- Each lane of a spawned group has its item: the payload, the weight, and the lane is active. -/
theorem spawnedGroup_lane {lane : Nat} {it : Item} (e : (f.items.take 32)[lane]? = some it) :
    let h := spawnedGroup t gid slot f g
    h.lreg 0 lane = it.w0 ∧ h.lreg 1 lane = it.w1 ∧ SMap.get h.weight lane = it.weight ∧
      (h.splits.all fun p => p.lanes.getLsbD lane) = true := by
  intro h
  have short : (f.items.take 32).length ≤ 32 := by simp
  have inside := (List.getElem?_eq_some_iff.mp e).1
  obtain ⟨w0, w1⟩ := takeItems_lreg (h := Group.start t gid slot 3 g.launch.bspawn g.argp g.root f.entry
    (maskOf fun l => l < (f.items.take 32).length)) rfl _ short lane it e
  have splits : h.splits = (Group.start t gid slot 3 g.launch.bspawn g.argp g.root f.entry
      (maskOf fun l => l < (f.items.take 32).length)).splits := (congrArg Group.splits spawnedGroup_rest :)
  refine ⟨w0, w1, ?_, ?_⟩
  · change SMap.get (startWeights _) lane = _
    rw [get_startWeights, List.getD_eq_getElem?_getD, List.getElem?_map, e]
    rfl
  · have below : lane < 32 := by omega
    have active : (maskOf fun l => l < (f.items.take 32).length).getLsbD lane = true := by
      rw [getLsbD_maskOf, decide_eq_true below, decide_eq_true inside]
      rfl
    rw [splits]
    exact (Bool.and_true _).trans active

end

/-! ### A core's record -/

theorem core_modCore_same (s : State) (c : Nat) (f : Core → Core) (hf : ∀ x, x.id = c → (f x).id = c) :
    (s.modCore c f).core c = f (s.core c) := by
  unfold State.modCore State.core
  split
  · rename_i held
    have found : (s.cores.find? fun x => decide (x.id = c)).isSome = true := List.find?_isSome.mpr (by simpa using held)
    obtain ⟨x, hx⟩ := Option.isSome_iff_exists.mp found
    rw [find?_mapKey_same Core.id s.cores f hf, hx]
    rfl
  · rename_i absent
    have none : (s.cores.find? fun x => decide (x.id = c)) = none := by simpa using absent
    have made : (f (Core.empty c)).id = c := hf _ rfl
    simp [List.find?_append, none, made]

/-- R114: the caches of a core that has been told to empty them hold nothing. -/
theorem core_emptyCaches (s : State) (c : Nat) :
    ((s.emptyCaches c).core c).l1 = [] ∧ ((s.emptyCaches c).core c).gather = [] := by
  unfold State.emptyCaches
  split
  · rw [core_modCore_same]
    · exact ⟨rfl, rfl⟩
    · exact fun _ hx => hx
  · rename_i absent
    have none : (s.cores.find? fun x => decide (x.id = c)) = none := by simpa using absent
    rw [State.core, none]
    exact ⟨rfl, rfl⟩

/-- The renumbering of a group changes no cache. -/
theorem core_renumber (s : State) (t g g' c : Nat) :
    ((s.renumber t g g').core c).l1 = (s.core c).l1 ∧ ((s.renumber t g g').core c).gather = (s.core c).gather := by
  unfold State.renumber State.core
  dsimp only
  rw [List.find?_map, Function.comp_def]
  dsimp only
  cases s.cores.find? (fun x : Core => decide (x.id = c)) <;> exact ⟨rfl, rfl⟩

end Sys2Proof.Machine
end

section
namespace Sys2Proof.Machine

/-! ### SPAWNED_GROUP_START (R95) -/

theorem emptyCaches_groups (s : State) (c : Nat) : (s.emptyCaches c).groups = s.groups :=
  (congrArg State.groups (emptyCaches_rest s c) :)
theorem emptyCaches_teams (s : State) (c : Nat) : (s.emptyCaches c).teams = s.teams :=
  (congrArg State.teams (emptyCaches_rest s c) :)

/-- A GROUPID of a team whose last bearer has left, under a number that no group bears. -/
theorem renumber_groups (s : State) (t g m : Nat) :
    (s.renumber t g m).groups = s.groups.map fun y => if y.team = t ∧ y.gid = g then { y with gid := m } else y :=
  List.map_congr_left fun y _ => by simp

theorem exec_spawnedGroupStart {core : Nat} {entry : DWord} {s : State} {f : Forming} {g : Grid}
    (first : ((s.reap.core core).forming.find? fun f => f.entry = entry && s.reap.startable core f) = some f)
    (found : s.reap.grid? f.grid = some g) :
    exec (.spawnedGroupStart core entry) s = .next (s.reap.startSpawned core f g) := by
  change execSpawnedGroupStart core entry s = _
  simp only [execSpawnedGroupStart, first, found]

section
variable {s : State} {core : Nat} {f : Forming} {g : Grid} {x : Team}

/-- R95: the state once a forming group has started: the group joins the others, after the one that bore its GROUPID gave that
up. -/
theorem startSpawned_eq (team : ((s.addSpawnTeam g core).emptyCaches core).spawnTeam? g.uid core = some x) :
    let s0 := (s.addSpawnTeam g core).emptyCaches core
    let gid := s0.lowestGid x.uid
    ∃ (left : Core → List Forming) (m : Nat), s.startSpawned core f g =
      (let s2 := (s0.modCore core fun c => { c with forming := left c }).fresh.renumber x.uid gid m
       { s2 with groups := s2.groups ++ [spawnedGroup x.uid gid (pickSlot (s0.slotsTaken core)) f g] }) := by
  simp only [State.startSpawned, team]
  exact ⟨_, _, rfl⟩

/-- R95, R292: the start of a forming group adds the group to the spawn team that the core has then, under the lowest GROUPID
that is free, and empties the core's caches. -/
theorem startSpawned_spec (units : g.spawnUnits ≠ 0) : ∃ x gid slot m, let t := s.startSpawned core f g
    (x ∈ t.teams ∧ x.spawn = true ∧ x.grid = g.uid ∧ x.core = core) ∧
      t.groups = (s.groups.map fun y => if y.team = x.uid ∧ y.gid = gid then { y with gid := m } else y) ++
        [spawnedGroup x.uid gid slot f g] ∧
      (s.gidFree x.uid gid = true ∧ ∀ j < gid, s.gidFree x.uid j = false) ∧
      (t.core core).l1 = [] ∧ (t.core core).gather = [] := by
  obtain ⟨x, team⟩ := spawnTeam?_addSpawnTeam s (core := core) units
  let s0 := (s.addSpawnTeam g core).emptyCaches core
  have groups : s0.groups = s.groups := (emptyCaches_groups _ _).trans (addSpawnTeam_groups s g core)
  have team0 : s0.spawnTeam? g.uid core = some x := by rwa [State.spawnTeam?, emptyCaches_teams]
  have free (i : Nat) : s0.gidFree x.uid i = s.gidFree x.uid i := by rw [State.gidFree, groups, State.gidFree]
  obtain ⟨member, spawn, grid, home⟩ := spawnTeam?_spec team0
  obtain ⟨left, m, ht⟩ := startSpawned_eq (f := f) team0
  refine ⟨x, s0.lowestGid x.uid, pickSlot (s0.slotsTaken core), m, ?_⟩
  rw [ht]
  let s1 := s0.modCore core fun c => { c with forming := left c }
  refine ⟨⟨?_, spawn, grid, home⟩, ?_, ?_, ?_⟩
  · change x ∈ s1.teams
    rwa [modCore_teams]
  · change (s1.fresh.renumber x.uid _ m).groups ++ _ = _
    rw [renumber_groups]
    change s1.groups.map _ ++ _ = _
    rw [modCore_groups, groups]
  · simpa only [free] using lowestGid_spec s0 x.uid
  · have same : s1.core core = { s0.core core with forming := left (s0.core core) } := core_modCore_same _ _ _ fun _ hx => hx
    obtain ⟨l1, gather⟩ := core_emptyCaches (s.addSpawnTeam g core) core
    obtain ⟨kept1, keptGather⟩ := core_renumber s1.fresh x.uid (s0.lowestGid x.uid) m core
    exact ⟨kept1.trans ((congrArg Core.l1 same).trans l1), keptGather.trans ((congrArg Core.gather same).trans gather)⟩

end

/-! ### The end of a grid (R85) -/

theorem gridComplete_waits {u : Nat} {s : State} {g : Grid} (found : s.reap.grid? u = some g)
    (busy : s.reap.gridDone g = false) : exec (.gridComplete u) s = .next s.reap := by
  change execGridComplete u s = _
  simp only [execGridComplete, found, busy]
  rfl

/-- Dropping teams leaves the grids and the streams, and of the teams those that it does not name. -/
theorem foldl_dropTeam (l : List Nat) (s : State) : let t := l.foldl State.dropTeam s
    t.grids = s.grids ∧ t.streams = s.streams ∧ t.teams = s.teams.filter fun x => x.uid ∉ l := by
  induction l generalizing s with
  | nil => simp
  | cons u l ih =>
    obtain ⟨grids, streams, teams⟩ := ih (s.dropTeam u)
    refine ⟨grids, streams, teams.trans ?_⟩
    simp [State.dropTeam, List.filter_filter, Bool.and_comm]

theorem gridComplete_ends {u : Nat} {s : State} {g : Grid} (found : s.reap.grid? u = some g)
    (done : s.reap.gridDone g = true) : ∃ t, exec (.gridComplete u) s = .next t ∧ t.grid? u = none ∧
      (∀ x ∈ t.teams, x.grid ≠ u) ∧ (∀ y, y ≠ u → t.grid? y = s.reap.grid? y) ∧ t.streams = s.reap.streams := by
  let uids := (s.reap.teams.filter fun x => x.grid = u).map fun x => x.uid
  let s1 := uids.foldl State.dropTeam s.reap
  let s2 : State := { s1 with grids := s1.grids.filter fun x => x.uid ≠ u, reservations := s1.reservations.filter fun r => r.1 ≠ u }
  obtain ⟨grids, streams, teams⟩ := foldl_dropTeam uids s.reap
  have flushed : StorageOnly s2 s2.writeBackAll := storageOnly_writeBackLines s2 s2.storage.dirty
  have left : s2.writeBackAll.grids = s.reap.grids.filter fun x => x.uid ≠ u :=
    (congrArg State.grids flushed.rest :).trans (congrArg (List.filter _) grids)
  refine ⟨s2.writeBackAll, ?_, ?_, ?_, ?_, (congrArg State.streams flushed.rest :).trans streams⟩
  · change execGridComplete u s = _
    simp only [execGridComplete, found, done]
    rfl
  · rw [State.grid?, left]
    simp
  · rw [(congrArg State.teams flushed.rest :).trans teams]
    intro x hx grid
    obtain ⟨member, other⟩ := List.mem_filter.mp hx
    exact of_decide_eq_true other (List.mem_map.mpr ⟨x, List.mem_filter.mpr ⟨member, decide_eq_true grid⟩, rfl⟩)
  · intro y hy
    rw [State.grid?, left, List.find?_filter, State.grid?]
    congr 1
    funext x
    by_cases hx : x.uid = y <;> simp [hx, hy]

/-- Settles O58: the lists that placement makes, the spawned group and what the end of a grid filters, from the model's rules. -/
theorem placementResults : Obligations.PlacementResults := by
  refine ⟨fun _ _ _ _ => exec_teamPlacement_places, ?_, ?_, startable_iff, ?_⟩
  · rintro s u core g found rfl
    refine ⟨_, placeTeam_groups found, placeTeam_teams found, fun none => ?_, placeTeam_grid? found, startGroups_gids _ _ _ _,
      fun h hm => ?_⟩
    · rw [addSpawnTeam_of_no_units none]
      exact ⟨rfl, rfl⟩
    · have placed := placed_of_mem_startGroups hm
      exact ⟨placed.team, placed.role, placed.budget, placed.splits, placed.greg, placed.lreg, placed.preds, placed.xreg⟩
  · intro core entry s f g s1 first found root
    have picked := List.find?_some first
    have can : s1.startable core f = true := (Bool.and_eq_true_iff.mp picked).2
    obtain ⟨x, gid, slot, m, ⟨member, spawn, grid, home⟩, groups, ⟨free, taken⟩, l1, gather⟩ :=
      startSpawned_spec (s := s1) (core := core) (f := f) (spawnUnits_of_startable can found root)
    let h := spawnedGroup x.uid gid slot f g
    have rest : { h with v := [], weight := [] } = _ := spawnedGroup_rest
    have team : h.team = x.uid := (congrArg Group.team rest :)
    have number : h.gid = gid := (congrArg Group.gid rest :)
    refine ⟨_, h, x, m, exec_spawnedGroupStart first found, member, ?_, ?_, ?_, spawn, grid, home,
      (congrArg Group.role rest :), team, (congrArg Group.budget rest :),
      (congrArg (fun h : Group => h.splits.map fun p => (p.id, p.pc, p.stack)) rest :), l1, gather,
      fun lane it e => spawnedGroup_lane e⟩
    · rw [team, number]
      exact groups
    · rw [team, number]
      exact gidFree_eq_true.mp free
    · rw [team, number]
      exact fun j hj => gidFree_eq_false.mp (taken j hj)
  · exact fun _ _ _ found => ⟨gridComplete_waits found, gridComplete_ends found⟩

end Sys2Proof.Machine
end

section
/-!
Memory: the lemmas of the family on storage, the host link, copies and requests of peers, and the statements that they settle.
-/
namespace Sys2Proof.Machine

/-! ### What a record changes (R396 to R398) -/

/-- `t` is `s` but for the registers of management, the host's memory and the vectors raised. -/
def RecordsOnly (s t : State) : Prop :=
  ∃ (m : Mgmt) (mem : SMap 8) (msix : List Nat), t = { s with mgmt := m, host := { s.host with mem := mem, msix := msix } }

namespace RecordsOnly

variable {a b c : State}

theorem refl (s : State) : RecordsOnly s s := ⟨_, _, _, rfl⟩

theorem trans (h : RecordsOnly a b) (g : RecordsOnly b c) : RecordsOnly a c := by
  obtain ⟨_, _, _, rfl⟩ := h
  obtain ⟨m, mem, msix, rfl⟩ := g
  exact ⟨m, mem, msix, rfl⟩

theorem setMgmt {m : Mgmt} (h : RecordsOnly a b) : RecordsOnly a { b with mgmt := m } := by
  obtain ⟨_, _, _, rfl⟩ := h
  exact ⟨_, _, _, rfl⟩

theorem storage (h : RecordsOnly a b) : b.storage = a.storage := by obtain ⟨_, _, _, rfl⟩ := h; rfl
theorem groups (h : RecordsOnly a b) : b.groups = a.groups := by obtain ⟨_, _, _, rfl⟩ := h; rfl
theorem teams (h : RecordsOnly a b) : b.teams = a.teams := by obtain ⟨_, _, _, rfl⟩ := h; rfl
theorem devclk (h : RecordsOnly a b) : b.devclk = a.devclk := by obtain ⟨_, _, _, rfl⟩ := h; rfl
theorem copies (h : RecordsOnly a b) : b.copies = a.copies := by obtain ⟨_, _, _, rfl⟩ := h; rfl
theorem linkUp (h : RecordsOnly a b) : b.host.linkUp = a.host.linkUp := by obtain ⟨_, _, _, rfl⟩ := h; rfl
theorem fetchAdds (h : RecordsOnly a b) : b.host.fetchAdds = a.host.fetchAdds := by obtain ⟨_, _, _, rfl⟩ := h; rfl
theorem plugs (h : RecordsOnly a b) : b.host.plugs = a.host.plugs := by obtain ⟨_, _, _, rfl⟩ := h; rfl

end RecordsOnly

theorem recordsOnly_raiseMsix (s : State) (v : Nat) : RecordsOnly s (s.raiseMsix v) := by
  unfold State.raiseMsix
  split
  · exact ⟨_, _, _, rfl⟩
  · exact .refl s

theorem recordsOnly_interrupt (s : State) (b : BitVec 6) : RecordsOnly s (s.interrupt b) :=
  .trans (b := s.raiseIrq b) ⟨_, _, _, rfl⟩ (recordsOnly_raiseMsix _ _)

theorem recordsOnly_hostWrite (s : State) (pa : Nat) (b : List Byte) : RecordsOnly s (s.hostWrite pa b) := ⟨_, _, _, rfl⟩

theorem recordsOnly_flushErrors (l : List Record) (s : State) : RecordsOnly s (State.flushErrors l s) := by
  induction l generalizing s with
  | nil => exact ⟨_, _, _, rfl⟩
  | cons r l ih =>
    unfold State.flushErrors
    split
    · refine .trans ?_ (ih _)
      refine .trans ?_ (recordsOnly_interrupt _ 1)
      exact (recordsOnly_hostWrite s _ r.bytes).setMgmt
    · exact ⟨_, _, _, rfl⟩

theorem recordsOnly_report (s : State) (sev src unit ctx detail : Nat) (addr : DWord) :
    RecordsOnly s (s.report sev src unit ctx detail addr) := by
  unfold State.report
  split
  · exact ⟨_, _, _, rfl⟩
  · exact (RecordsOnly.refl s).setMgmt.trans (recordsOnly_flushErrors _ _)

/-! ### What a write-back, or a loss that it meets, changes (R119 to R121, R405) -/

/-- `t` is `s` but for records, dirty lines, poison and what is on its way to the stacks. -/
def CleanedOnly (s t : State) : Prop :=
  ∃ (m : Mgmt) (mem : SMap 8) (msix : List Nat) (dirty : List Nat) (poison : List (Nat × BitVec 128))
    (bad : List (Nat × Nat)) (journal : List JournalEntry),
    t = { s with
      mgmt := m, host := { s.host with mem := mem, msix := msix }
      storage := { s.storage with dirty := dirty, poison := poison, badParity := bad, journal := journal } }

theorem RecordsOnly.cleaned {s t : State} (h : RecordsOnly s t) : CleanedOnly s t := by
  obtain ⟨_, _, _, rfl⟩ := h
  exact ⟨_, _, _, _, _, _, _, rfl⟩

namespace CleanedOnly

variable {a b c : State}

theorem refl (s : State) : CleanedOnly s s := ⟨_, _, _, _, _, _, _, rfl⟩

theorem trans (h : CleanedOnly a b) (g : CleanedOnly b c) : CleanedOnly a c := by
  obtain ⟨_, _, _, _, _, _, _, rfl⟩ := h
  obtain ⟨m, mem, msix, dirty, poison, bad, journal, rfl⟩ := g
  exact ⟨m, mem, msix, dirty, poison, bad, journal, rfl⟩

theorem foldl {α : Type} {f : State → α → State} (hf : ∀ s x, CleanedOnly s (f s x)) (l : List α) (s : State) :
    CleanedOnly s (l.foldl f s) := by
  induction l generalizing s with
  | nil => exact refl s
  | cons x l ih => exact (hf s x).trans (ih _)

theorem mem (h : CleanedOnly a b) : b.storage.mem = a.storage.mem := by obtain ⟨_, _, _, _, _, _, _, rfl⟩ := h; rfl
theorem media (h : CleanedOnly a b) : b.storage.media = a.storage.media := by obtain ⟨_, _, _, _, _, _, _, rfl⟩ := h; rfl
theorem tags (h : CleanedOnly a b) : b.storage.tags = a.storage.tags := by obtain ⟨_, _, _, _, _, _, _, rfl⟩ := h; rfl
theorem stackStates (h : CleanedOnly a b) : b.storage.stackStates = a.storage.stackStates := by
  obtain ⟨_, _, _, _, _, _, _, rfl⟩ := h; rfl
theorem groups (h : CleanedOnly a b) : b.groups = a.groups := by obtain ⟨_, _, _, _, _, _, _, rfl⟩ := h; rfl
theorem teams (h : CleanedOnly a b) : b.teams = a.teams := by obtain ⟨_, _, _, _, _, _, _, rfl⟩ := h; rfl
theorem linkUp (h : CleanedOnly a b) : b.host.linkUp = a.host.linkUp := by obtain ⟨_, _, _, _, _, _, _, rfl⟩ := h; rfl
theorem fetchAdds (h : CleanedOnly a b) : b.host.fetchAdds = a.host.fetchAdds := by obtain ⟨_, _, _, _, _, _, _, rfl⟩ := h; rfl

end CleanedOnly

/-- R405: what is poisoned after a line has been. -/
theorem poisonLine_storage (s : State) (src unit detail line : Nat) : (s.poisonLine src unit detail line).storage =
    { s.storage with poison := if (s.storage.poison.any fun p => p.1 = line) then
        s.storage.poison.map fun p => if p.1 = line then (line, 0) else p
      else s.storage.poison ++ [(line, 0)] } := by
  unfold State.poisonLine
  split
  · rfl
  · exact (recordsOnly_report _ _ _ _ _ _ _).storage

theorem cleanedOnly_poisonLine (s : State) (src unit detail line : Nat) : CleanedOnly s (s.poisonLine src unit detail line) := by
  unfold State.poisonLine
  split
  · exact ⟨_, _, _, _, _, _, _, rfl⟩
  · exact .trans (b := { s with storage := _ }) ⟨_, _, _, _, _, _, _, rfl⟩ (recordsOnly_report _ _ _ _ _ _ _).cleaned

theorem cleanedOnly_writeBackLine (s : State) (line : Nat) : CleanedOnly s (s.writeBackLine line) := by
  unfold State.writeBackLine
  dsimp only
  split
  · exact ⟨_, _, _, _, _, _, _, rfl⟩
  split
  · exact .trans (b := { s with storage := _ }) ⟨_, _, _, _, _, _, _, rfl⟩ (cleanedOnly_poisonLine _ _ _ _ _)
  · exact ⟨_, _, _, _, _, _, _, rfl⟩

theorem cleanedOnly_writeBackQueue (l m : List Nat) (s : State) : CleanedOnly s (s.writeBackQueue l m) := by
  induction m generalizing s with
  | nil => exact .refl s
  | cons x m ih =>
    unfold State.writeBackQueue
    split
    · exact ih s
    dsimp only
    split
    · exact .trans (b := s.writeStripe _) ⟨_, _, _, _, _, _, _, rfl⟩ (ih _)
    · exact (cleanedOnly_writeBackLine s x).trans (ih _)

/-! ### Which lines a write-back cleans (R119) -/

/-- A number is its band's first, its row's units in the band, and its place in the row. -/
theorem band_row_place (line band w : Nat) (even : band % 2 = 0) :
    line / band * band + line % band / 2 / w * w * 2 + (2 * (line % band / 2 % w) + line % 2) = line := by
  have inBand := Nat.div_add_mod' line band
  have parity : line % band % 2 = line % 2 := Nat.mod_mod_of_dvd line (Nat.dvd_of_mod_eq_zero even)
  have inRow := Nat.div_add_mod' (line % band / 2) w
  omega

/-- A line is one of its stripe row's. -/
theorem mem_rowLines_self (s : State) (line : Nat) : line ∈ s.rowLines line := by
  have pos : 0 < s.rowWidth line := by
    unfold State.rowWidth
    split <;> decide
  unfold State.rowLines
  dsimp only
  generalize s.rowWidth line = w at pos
  have below := Nat.mod_lt (line % 2 ^ 29 / 2) pos
  have half : (2 * (line % 2 ^ 29 / 2 % w) + line % 2) / 2 = line % 2 ^ 29 / 2 % w := by omega
  have place : 2 * (line % 2 ^ 29 / 2 % w) + line % 2 < 2 * w := by omega
  rw [List.mem_map]
  refine ⟨2 * (line % 2 ^ 29 / 2 % w) + line % 2, ?_, band_row_place line (2 ^ 29) w (Nat.pow_mod 2 29 2)⟩
  rw [List.mem_filter, half, Nat.div_add_mod']
  exact ⟨List.mem_range.mpr place, decide_eq_true rfl⟩

theorem writeBackLine_dirty (s : State) (line : Nat) :
    (s.writeBackLine line).storage.dirty = s.storage.dirty.filter fun l => l ≠ line := by
  unfold State.writeBackLine
  dsimp only
  split
  · rfl
  split
  · rw [poisonLine_storage]
  · rfl

/-- A queue of write-backs leaves none of its lines dirty, makes none dirty, and changes nothing of the others. -/
theorem mem_dirty_writeBackQueue (l m : List Nat) (s : State) (x : Nat) :
    (x ∈ (s.writeBackQueue l m).storage.dirty → x ∈ s.storage.dirty ∧ x ∉ m) ∧
      (x ∉ l → x ∉ m → x ∈ s.storage.dirty → x ∈ (s.writeBackQueue l m).storage.dirty) := by
  induction m generalizing s with
  | nil => exact ⟨fun h => ⟨h, List.not_mem_nil⟩, fun _ _ h => h⟩
  | cons y m ih =>
    unfold State.writeBackQueue
    by_cases clean : y ∈ s.storage.dirty
    · rw [if_neg (by simpa using clean)]
      dsimp only
      split
      · rename_i full
        have whole : ∀ z ∈ s.rowLines y, z ∈ l := by
          simp only [Bool.and_eq_true, List.all_eq_true, List.contains_iff_mem] at full
          exact fun z hz => (full.2 z hz).1.1
        have dirty (z : Nat) : z ∈ (s.writeStripe (s.rowLines y)).storage.dirty ↔ z ∈ s.storage.dirty ∧ z ∉ s.rowLines y := by
          simp [State.writeStripe]
        obtain ⟨only, kept⟩ := ih (s.writeStripe (s.rowLines y))
        refine ⟨fun h => ?_, fun hl hm h => kept hl (List.not_mem_of_not_mem_cons hm) ((dirty x).mpr ⟨h, mt (whole x) hl⟩)⟩
        obtain ⟨h1, h2⟩ := only h
        obtain ⟨was, out⟩ := (dirty x).mp h1
        exact ⟨was, List.not_mem_cons_of_ne_of_not_mem (by rintro rfl; exact out (mem_rowLines_self s x)) h2⟩
      · have dirty (z : Nat) : z ∈ (s.writeBackLine y).storage.dirty ↔ z ∈ s.storage.dirty ∧ z ≠ y := by
          simp [writeBackLine_dirty]
        obtain ⟨only, kept⟩ := ih (s.writeBackLine y)
        refine ⟨fun h => ?_, fun hl hm h =>
          kept hl (List.not_mem_of_not_mem_cons hm) ((dirty x).mpr ⟨h, List.ne_of_not_mem_cons hm⟩)⟩
        obtain ⟨h1, h2⟩ := only h
        obtain ⟨was, ne⟩ := (dirty x).mp h1
        exact ⟨was, List.not_mem_cons_of_ne_of_not_mem ne h2⟩
    · rw [if_pos (by simpa using clean)]
      obtain ⟨only, kept⟩ := ih s
      refine ⟨fun h => ?_, fun hl hm => kept hl (List.not_mem_of_not_mem_cons hm)⟩
      obtain ⟨was, out⟩ := only h
      exact ⟨was, List.not_mem_cons_of_ne_of_not_mem (fun e => clean (e ▸ was)) out⟩

end Sys2Proof.Machine
end

section
namespace Sys2Proof.Machine

/-! ### The commands of management (R436, R437) -/

section
variable {op : Nat} {m : MCmd} {s : State}

/-- A command that runs ends with its effect's state and result. -/
theorem mgmtCommand_runs {rom : Bool} (effect : State → State × BitVec 8) (runs : Claims.Runs s op m) :
    mgmtCommand op m rom s effect = .next ((effect s).1.endCommand (effect s).2) := by
  obtain ⟨running, ready⟩ := runs
  simp [mgmtCommand, running, ready]

/-- A command whose effect is known. -/
theorem mgmtCommand_ends {rom : Bool} {effect : State → State × BitVec 8} {t : State} {r : BitVec 8} (he : effect s = (t, r))
    (runs : Claims.Runs s op m) : mgmtCommand op m rom s effect = .next (t.endCommand r) := by
  rw [mgmtCommand_runs effect runs, he]

theorem onContext_absent {effect : Ctx → State × BitVec 8} (h : s.ctx? m.ctx.toNat = none) : onContext s m effect = (s, 1) := by
  simp only [onContext, h]

theorem onContext_present {effect : Ctx → State × BitVec 8} {c : Ctx} (h : s.ctx? m.ctx.toNat = some c) :
    onContext s m effect = effect c := by
  simp only [onContext, h]

end

theorem nodeAddr_eq_true {s : State} {pa : DWord} {align : Nat} (aligned : pa.toNat % align = 0)
    (here : s.inBand pa.toNat = true) : s.nodeAddr pa align = true := by
  simp [State.nodeAddr, aligned, here]

theorem nodeAddr_eq_false {s : State} {pa : DWord} {align : Nat} (bad : pa.toNat % align ≠ 0 ∨ s.inBand pa.toNat = false) :
    s.nodeAddr pa align = false := by
  unfold State.nodeAddr
  rcases bad with h | h
  · rw [decide_eq_false h, Bool.false_and]
  · rw [h, Bool.and_false]

/-- RESTORE waits only for lines of an aligned save area in the node. -/
theorem restore_ends {m : MCmd} {s t : State} {r : BitVec 8}
    (free : s.nodeAddr s.mgmt.arg0 64 = false ∨ s.areaHeld s.mgmt.arg0.toNat = false)
    (he : (onContext s m fun c =>
      if c.phase ≠ .saved then (s, 1)
      else if !s.nodeAddr s.mgmt.arg0 64 then (s, 2)
      else match s.restoreFrom c s.mgmt.arg0.toNat with
        | some s1 => (s1, 0)
        | none => (s, 1)) = (t, r)) (runs : Claims.Runs s 6 m) :
    exec (.restore m) s = .next (t.endCommand r) := by
  change execRestore m s = _
  have goes : ¬(s.commandRuns 0x06 m && s.nodeAddr s.mgmt.arg0 64 && s.areaHeld s.mgmt.arg0.toNat) = true := by
    rcases free with h | h <;> simp [h]
  rw [execRestore, if_neg goes]
  exact mgmtCommand_ends he runs

theorem restore_waits {m : MCmd} {s : State} (node : s.nodeAddr s.mgmt.arg0 64 = true)
    (held : s.areaHeld s.mgmt.arg0.toNat = true) (runs : Claims.Runs s 6 m) : exec (.restore m) s = .next s := by
  change execRestore m s = _
  rw [execRestore, if_pos (by simp [runs.1, node, held])]

/-! ### The end of a drain (R389, R390) -/

theorem storageOnly_writeBackAll (s : State) : StorageOnly s s.writeBackAll := storageOnly_writeBackLines s s.storage.dirty

theorem foldl_dropTeam_ctxs (l : List Nat) (s : State) : (l.foldl State.dropTeam s).ctxs = s.ctxs := by
  induction l generalizing s with
  | nil => rfl
  | cons u l ih => exact ih (s.dropTeam u)

theorem ctx?_modCtx_some {s : State} {c : Nat} {x : Ctx} (f : Ctx → Ctx) (hf : ∀ x, x.id = c → (f x).id = c)
    (h : s.ctx? c = some x) : (s.modCtx c f).ctx? c = some (f x) :=
  (ctx?_modCtx_same s c f hf).trans (congrArg _ h)

/-- A context whose phase is set has that phase, and nothing else of it changes. -/
theorem ctx?_setPhase {s : State} {c : Nat} {x : Ctx} (p : Phase) (h : s.ctx? c = some x) :
    (s.setPhase c p).ctx? c = some { x with phase := p } := by
  unfold State.setPhase
  split
  · rw [State.ctx?, interrupt_ctxs]
    exact ctx?_modCtx_some (fun x => { x with phase := p }) (fun _ h => h) h
  · rename_i same
    have kept : x.phase = p := by
      obtain ⟨named, member⟩ := List.find?_some h, List.mem_of_find?_eq_some h
      by_contra other
      exact same (List.any_eq_true.mpr ⟨x, member, by simp [of_decide_eq_true named, other]⟩)
    rw [h, ← kept]

theorem setPhase_teams (s : State) (c : Nat) (p : Phase) : (s.setPhase c p).teams = s.teams := by
  unfold State.setPhase
  split
  · exact interrupt_teams _ _
  · rfl

theorem setPhase_grids (s : State) (c : Nat) (p : Phase) : (s.setPhase c p).grids = s.grids := by
  unfold State.setPhase
  split
  · exact interrupt_grids _ _
  · rfl

theorem setPhase_streams (s : State) (c : Nat) (p : Phase) : (s.setPhase c p).streams = s.streams := by
  unfold State.setPhase
  split
  · exact interrupt_streams _ _
  · rfl

theorem dropGrids_streams (s : State) (which : Grid → Bool) : (s.dropGrids which).streams = s.streams := rfl
theorem dropGrids_teams (s : State) (which : Grid → Bool) : (s.dropGrids which).teams = s.teams := rfl
theorem dropGrids_grids (s : State) (which : Grid → Bool) :
    (s.dropGrids which).grids = s.grids.filter fun g => !(which g) := rfl

theorem contextDrainComplete_waits {ctx : BitVec 4} {s : State} {c : Ctx} (found : s.reap.ctx? ctx.toNat = some c)
    (busy : s.reap.drained c.id = false) : exec (.contextDrainComplete ctx) s = .next s.reap := by
  change execContextDrainComplete ctx s = _
  simp [execContextDrainComplete, found, busy]

theorem contextDrainComplete_ends {ctx : BitVec 4} {s : State} {c : Ctx} (found : s.reap.ctx? ctx.toNat = some c)
    (phase : c.phase = .draining) (done : s.reap.drained c.id = true)
    (free : s.reap.hostOwns c.saveArea.toNat (s.reap.saveRecords c).length = false) :
    ∃ t, exec (.contextDrainComplete ctx) s = .next t ∧ (∀ x ∈ t.teams, x.ctx ≠ c.id) ∧ (∀ g ∈ t.grids, g.ctx ≠ c.id) ∧
      (t.ctx? c.id).map Ctx.phase = some .saved ∧ (t.ctx? c.id).map Ctx.stopped = some [] ∧ t.streams = s.reap.streams := by
  let saved := (s.reap.gridsToSave c.id).map fun g => { gridId := g.gridId, stream := g.stream, gen := g.gen, seed := g.seed : SavedGrid }
  let s1 := (s.reap.writeMem none .home c.saveArea.toNat (s.reap.saveRecords c)).writeBackAll
  let uids := (s1.teams.filter fun x => x.ctx = c.id).map fun x => x.uid
  let s2 := uids.foldl State.dropTeam s1
  let s3 := (s2.dropGrids fun g => g.ctx = c.id).modCtx c.id fun c => { c with stopped := [], savedGrids := saved }
  have written : StorageOnly s.reap s1 := (storageOnly_writeMem _ _ _ _ _).trans (storageOnly_writeBackAll _)
  obtain ⟨grids, streams, teams⟩ := foldl_dropTeam uids s1
  have id : c.id = ctx.toNat := of_decide_eq_true (List.find?_some found :)
  have here : s2.ctx? c.id = some c := by
    rw [State.ctx?, foldl_dropTeam_ctxs, written.ctxs, id]
    exact found
  have changed : s3.ctx? c.id = some { c with stopped := [], savedGrids := saved } :=
    ctx?_modCtx_some (fun c => { c with stopped := [], savedGrids := saved }) (fun _ h => h) here
  have ended := ctx?_setPhase .saved changed
  refine ⟨s3.setPhase c.id .saved, ?_, ?_, ?_, ?_, ?_, ?_⟩
  · change execContextDrainComplete ctx s = _
    have goes : ¬(c.phase ≠ .draining || !s.reap.drained c.id ||
        s.reap.hostOwns c.saveArea.toNat (s.reap.saveRecords c).length) = true := by simp [phase, done, free]
    simp only [execContextDrainComplete, found]
    exact congrArg Host.Outcome.next (if_neg goes)
  · rw [setPhase_teams, modCtx_teams, dropGrids_teams, teams]
    intro x hx named
    obtain ⟨member, other⟩ := List.mem_filter.mp hx
    exact of_decide_eq_true other (List.mem_map.mpr ⟨x, List.mem_filter.mpr ⟨member, decide_eq_true named⟩, rfl⟩)
  · rw [setPhase_grids, modCtx_grids, dropGrids_grids]
    intro g hg
    obtain ⟨-, other⟩ := List.mem_filter.mp hg
    simpa using other
  · exact congrArg (Option.map Ctx.phase) ended
  · exact congrArg (Option.map Ctx.stopped) ended
  · rw [setPhase_streams, modCtx_streams, dropGrids_streams, streams, written.streams]

theorem preemptDeadline_eq {ctx : BitVec 4} {s : State} {c : Ctx} (found : s.ctx? ctx.toNat = some c) (phase : c.phase = .draining) :
    exec (.preemptDeadline ctx) s = .next (if c.deadline ≤ s.devclk.toNat then s.forceReset c.id else s) := by
  change execPreemptDeadline ctx s = _
  simp [execPreemptDeadline, found, phase]

/-- R436: the commands on a context that is absent. -/
theorem contextCommands_absent (m : MCmd) (s : State) (absent : s.ctx? m.ctx.toNat = none) :
    let area := s.mgmt.arg0
    let ends (op : Nat) (i : Instr) (t : State) (r : BitVec 8) : Prop := Claims.Runs s op m → exec i s = .next (t.endCommand r)
    ends 3 (.key m) s 1 ∧ ends 4 (.inval m) s 1 ∧ ends 5 (.preempt m) s 1 ∧ ends 7 (.freset m) s 1 ∧
      (area.toNat % 64 ≠ 0 ∨ s.inBand area.toNat = false ∨ s.areaHeld area.toNat = false → ends 6 (.restore m) s 1) ∧
      (area.toNat % 4096 ≠ 0 ∨ s.inBand area.toNat = false → ends 1 (.create m) s 2) ∧
      (area.toNat % 4096 = 0 → s.inBand area.toNat = true → ends 1 (.create m)
        (({ s with ctxs := s.ctxs ++ [newCtx m.ctx.toNat area (m.arg.setWidth 16)] } : State).interrupt 0x20) 0) := by
  refine ⟨fun runs => ?_, fun runs => ?_, fun runs => ?_, fun runs => ?_, fun free => ?_, fun bad runs => ?_,
    fun aligned here runs => ?_⟩
  · change execKey m s = _
    refine mgmtCommand_ends ?_ runs
    exact onContext_absent absent
  · change execInval m s = _
    refine mgmtCommand_ends ?_ runs
    exact onContext_absent absent
  · change execPreempt m s = _
    refine mgmtCommand_ends ?_ runs
    exact onContext_absent absent
  · change execFreset m s = _
    refine mgmtCommand_ends ?_ runs
    exact onContext_absent absent
  · refine restore_ends ?_ (onContext_absent absent)
    rcases free with h | h | h
    · exact .inl (nodeAddr_eq_false (.inl h))
    · exact .inl (nodeAddr_eq_false (.inr h))
    · exact .inr h
  · change execCreate m s = _
    refine mgmtCommand_ends ?_ runs
    simp [absent, nodeAddr_eq_false bad]
  · change execCreate m s = _
    refine mgmtCommand_ends ?_ runs
    simp [absent, nodeAddr_eq_true aligned here]

end Sys2Proof.Machine
end

section
namespace Sys2Proof.Machine

section
variable {m : MCmd} {s : State} {c : Ctx} {id : Nat}

theorem create_refused (found : s.ctx? m.ctx.toNat = some c) (runs : Claims.Runs s 1 m) :
    exec (.create m) s = .next (s.endCommand 1) := by
  change execCreate m s = _
  refine mgmtCommand_ends ?_ runs
  simp [found]

theorem destroy_refused (hid : c.id = id) (found : s.reap.ctx? m.ctx.toNat = some c) (used : s.reap.inUse id = true) (runs : Claims.Runs s 2 m) :
    exec (.destroy m) s = .next (s.reap.endCommand 1) := by
  subst hid
  change execDestroy m s = _
  refine mgmtCommand_ends ?_ runs
  simp only [found, used]
  rfl

theorem destroy_done (hid : c.id = id) (found : s.reap.ctx? m.ctx.toNat = some c) (unused : s.reap.inUse id = false) (runs : Claims.Runs s 2 m) :
    exec (.destroy m) s = .next (((s.reap.endWork id).dropCtx id).endCommand 0) := by
  subst hid
  change execDestroy m s = _
  refine mgmtCommand_ends ?_ runs
  simp only [found, unused]
  exact if_neg Bool.false_ne_true

theorem key_refused (found : s.ctx? m.ctx.toNat = some c) (bad : bits m.arg.toNat 1 0 = 0 ∨ s.host.linkUp = false)
    (runs : Claims.Runs s 3 m) : exec (.key m) s = .next (s.endCommand 1) := by
  change execKey m s = _
  refine mgmtCommand_ends ?_ runs
  exact (onContext_present found).trans (if_pos (by simpa using bad))

theorem key_done (hid : c.id = id) (found : s.ctx? m.ctx.toNat = some c) (named : bits m.arg.toNat 1 0 ≠ 0) (up : s.host.linkUp = true)
    (runs : Claims.Runs s 3 m) :
    exec (.key m) s = .next (((s.unkeyLines fun x y => x = id && y = bits m.arg.toNat 1 0).modCtx id fun c => { c with
        keys := (bits m.arg.toNat 1 0, s.hostRead s.mgmt.arg0.toNat 64) ::
          c.keys.filter fun e => e.1 ≠ bits m.arg.toNat 1 0 }).endCommand 0) := by
  subst hid
  change execKey m s = _
  refine mgmtCommand_ends ?_ runs
  exact (onContext_present found).trans (if_neg (by simp [named, up]))

theorem inval_done (hid : c.id = id) (found : s.ctx? m.ctx.toNat = some c) (runs : Claims.Runs s 4 m) :
    exec (.inval m) s = .next ((s.modCtx id fun c => { c with tlb := [] }).endCommand 0) := by
  subst hid
  change execInval m s = _
  refine mgmtCommand_ends ?_ runs
  exact onContext_present found

theorem preempt_inactive (found : s.ctx? m.ctx.toNat = some c) (phase : c.phase ≠ .active) (runs : Claims.Runs s 5 m) :
    exec (.preempt m) s = .next (s.endCommand 1) := by
  change execPreempt m s = _
  refine mgmtCommand_ends ?_ runs
  exact (onContext_present found).trans (if_pos phase)

theorem preempt_badArea (found : s.ctx? m.ctx.toNat = some c) (phase : c.phase = .active)
    (node : s.nodeAddr s.mgmt.arg0 64 = false) (runs : Claims.Runs s 5 m) :
    exec (.preempt m) s = .next (s.endCommand 2) := by
  change execPreempt m s = _
  refine mgmtCommand_ends ?_ runs
  rw [onContext_present found, if_neg (not_not.mpr phase), node]
  exact if_pos rfl

theorem preempt_drains (hid : c.id = id) (found : s.ctx? m.ctx.toNat = some c) (phase : c.phase = .active)
    (node : s.nodeAddr s.mgmt.arg0 64 = true) (runs : Claims.Runs s 5 m) :
    exec (.preempt m) s = .next ((((s.modCtx id fun c => { c with
        saveArea := s.mgmt.arg0, deadline := s.devclk.toNat + s.mgmt.arg1.toNat, stopped := [] }).setPhase id .draining).haltIdle
          id).endCommand 0) := by
  subst hid
  change execPreempt m s = _
  refine mgmtCommand_ends ?_ runs
  rw [onContext_present found, if_neg (not_not.mpr phase), node]
  exact if_neg Bool.false_ne_true

theorem freset_done (hid : c.id = id) (found : s.ctx? m.ctx.toNat = some c) (runs : Claims.Runs s 7 m) :
    exec (.freset m) s = .next ((s.forceReset id).endCommand 0) := by
  subst hid
  change execFreset m s = _
  refine mgmtCommand_ends ?_ runs
  exact onContext_present found

end

/-- R436: the commands on a context that exists. -/
theorem contextCommands_present (m : MCmd) (s : State) (c : Ctx) (found : s.ctx? m.ctx.toNat = some c) (hid : c.id = m.ctx.toNat) :
    let id := m.ctx.toNat
    let area := s.mgmt.arg0
    let ends (op : Nat) (i : Instr) (t : State) (r : BitVec 8) : Prop := Claims.Runs s op m → exec i s = .next (t.endCommand r)
    ends 1 (.create m) s 1 ∧
      (s.reap.ctx? id = some c → s.reap.inUse id = true → ends 2 (.destroy m) s.reap 1) ∧
      (s.reap.ctx? id = some c → s.reap.inUse id = false → ends 2 (.destroy m) ((s.reap.endWork id).dropCtx id) 0) ∧
      (bits m.arg.toNat 1 0 = 0 ∨ s.host.linkUp = false → ends 3 (.key m) s 1) ∧
      (bits m.arg.toNat 1 0 ≠ 0 → s.host.linkUp = true → ends 3 (.key m)
        ((s.unkeyLines fun x y => x = id && y = bits m.arg.toNat 1 0).modCtx id fun c => { c with
          keys := (bits m.arg.toNat 1 0, s.hostRead area.toNat 64) :: c.keys.filter fun e => e.1 ≠ bits m.arg.toNat 1 0 }) 0) ∧
      ends 4 (.inval m) (s.modCtx id fun c => { c with tlb := [] }) 0 ∧
      ends 7 (.freset m) (s.forceReset id) 0 ∧
      (c.phase = .active → area.toNat % 64 ≠ 0 ∨ s.inBand area.toNat = false → ends 5 (.preempt m) s 2) ∧
      (c.phase = .active → area.toNat % 64 = 0 → s.inBand area.toNat = true → ends 5 (.preempt m)
        (((s.modCtx id fun c => { c with
          saveArea := area, deadline := s.devclk.toNat + s.mgmt.arg1.toNat, stopped := [] }).setPhase id .draining).haltIdle id) 0) ∧
      (c.phase ≠ .active → ends 5 (.preempt m) s 1) ∧
      (area.toNat % 64 = 0 → s.inBand area.toNat = true → s.areaHeld area.toNat = true → Claims.Runs s 6 m →
        exec (.restore m) s = .next s) ∧
      (area.toNat % 64 = 0 → s.inBand area.toNat = true → s.areaHeld area.toNat = false →
        (c.phase ≠ .saved → ends 6 (.restore m) s 1) ∧
        ∀ s1, c.phase = .saved → s.restoreFrom c area.toNat = some s1 → ends 6 (.restore m) s1 0) ∧
      (area.toNat % 64 ≠ 0 ∨ s.inBand area.toNat = false → ends 6 (.restore m) s (if c.phase = .saved then 2 else 1)) := by
  intro id area ends
  have node {align : Nat} := nodeAddr_eq_true (s := s) (pa := area) (align := align)
  have noNode {align : Nat} := nodeAddr_eq_false (s := s) (pa := area) (align := align)
  refine ⟨create_refused found, destroy_refused hid, destroy_done hid, key_refused found, key_done hid found,
    inval_done hid found, freset_done hid found, fun active bad => preempt_badArea found active (noNode bad),
    fun active aligned here => preempt_drains hid found active (node aligned here), preempt_inactive found,
    fun aligned here held => restore_waits (node aligned here) held,
    fun aligned here free => ⟨fun unsaved => ?_, fun s1 saved restored => ?_⟩, fun bad => ?_⟩
  · refine restore_ends (.inr free) ?_
    rw [onContext_present found, if_pos unsaved]
  · refine restore_ends (.inr free) ?_
    rw [onContext_present found, if_neg (not_not.mpr saved), node aligned here, restored]
    rfl
  · refine restore_ends (.inl (noNode bad)) ?_
    rw [onContext_present found]
    by_cases saved : c.phase = .saved
    · rw [if_neg (not_not.mpr saved), noNode bad, if_pos saved]
      rfl
    · rw [if_pos saved, if_neg saved]

/-- Settles O60: a command that runs ends with its effect's state and result; CONTEXT_DRAIN_COMPLETE drops the context's teams
and grids, and PREEMPT_DEADLINE ends its work. -/
theorem contextCommandResults : Obligations.ContextCommandResults := by
  refine ⟨fun m s => ⟨contextCommands_absent m s, contextCommands_present m s⟩, fun ctx s c found phase =>
    ⟨fun late => ?_, fun time => ?_, fun left => ⟨contextDrainComplete_waits left, contextDrainComplete_ends left phase⟩⟩⟩
  · rw [preemptDeadline_eq found phase, if_pos late]
  · rw [preemptDeadline_eq found phase, if_neg (Nat.not_le.mpr time)]

end Sys2Proof.Machine
end

section
namespace Sys2Proof.Machine

/-! ### Requests of peers (R107, R108, R325, R413, R415) -/

theorem kept?_complete (s : State) (get : Option CollPacket) (src tag : Nat) (a : Response) :
    (s.complete get src tag a).kept? src tag = some a := by
  simp [State.complete, State.respond, State.keepResponse, State.kept?]

theorem kept?_refuse (s : State) (src tag : Nat) : (s.refuse src tag).kept? src tag = some .failure := kept?_complete _ _ _ _ _

theorem refuse_storage (s : State) (src tag : Nat) : (s.refuse src tag).storage = s.storage :=
  (recordsOnly_report _ _ _ _ _ _ _).storage

section
variable {r : PeerReq} {s : State}

theorem peerAccessRequest_kept {a : Response} (kept : s.kept? r.source.toNat r.tag = some a) :
    exec (.peerAccessRequest r) s = .next (s.respond none r.source.toNat r.tag a) := by
  change execPeerAccessRequest r s = _
  simp only [execPeerAccessRequest, kept]

/-- What a request not completed before does, which the context of its job serves. -/
def State.servePeer (s : State) (r : PeerReq) (c : Ctx) : State :=
  let src := r.source.toNat
  let n := peerAskSize r.ask
  let loc : Loc := .mem r.pa none .home
  match r.ask with
  | .read _ =>
    if s.poisoned r.pa n then (s.poisonServed c.id r.pa).complete none src r.tag .poisoned
    else (s.rekeyMem none r.pa n).complete none src r.tag (.data (s.peek loc n))
  | .write b => ((s.placeBytes loc b).protectPlaces [(loc, n)]).complete none src r.tag (.data [])
  | .atomic op ty b sv =>
    if s.poisoned r.pa n then (s.poisonServed c.id r.pa).complete none src r.tag .poisoned
    else
      let old := leNat (s.peek loc n)
      let s1 := match atomNew op ty old (b.toNat % 2 ^ (8 * n)) (sv.toNat % 2 ^ (8 * n)) with
        | some x => (s.placeBytes loc (leBytes n x)).protectPlaces [(loc, n)]
        | none => s.rekeyMem none r.pa n
      s1.complete none src r.tag (.data (leBytes n old))

theorem peerAccessRequest_absent (fresh : s.kept? r.source.toNat r.tag = none) (absent : s.ctxOf r.job = none) :
    exec (.peerAccessRequest r) s = .next (s.refuse r.source.toNat r.tag) := by
  change execPeerAccessRequest r s = _
  simp only [execPeerAccessRequest, fresh, absent]

theorem peerAccessRequest_eq {c : Ctx} (fresh : s.kept? r.source.toNat r.tag = none) (job : s.ctxOf r.job = some c) :
    exec (.peerAccessRequest r) s = .next (
      if !s.pageExists r.pa || !s.pageExists (r.pa + (peerAskSize r.ask - 1)) then s.refuse r.source.toNat r.tag
      else if s.servedLater (.mem r.pa none .home) (peerAskSize r.ask) then s else s.servePeer r c) := by
  change execPeerAccessRequest r s = _
  simp only [execPeerAccessRequest, fresh, job]
  rfl

theorem servePeer_poisoned (c : Ctx) (reads : ∀ b, r.ask ≠ .write b) (poison : s.poisoned r.pa (peerAskSize r.ask) = true) :
    s.servePeer r c = (s.poisonServed c.id r.pa).complete none r.source.toNat r.tag .poisoned := by
  unfold State.servePeer
  cases ask : r.ask with
  | read n => rw [ask] at poison; exact if_pos poison
  | write b => exact absurd ask (reads b)
  | atomic op ty b sv => rw [ask] at poison; exact if_pos poison

theorem servePeer_read (c : Ctx) {m : Nat} (ask : r.ask = .read m) (sound : s.poisoned r.pa (peerAskSize r.ask) = false) :
    s.servePeer r c = (s.rekeyMem none r.pa (peerAskSize r.ask)).complete none r.source.toNat r.tag
      (.data (s.peek (.mem r.pa none .home) (peerAskSize r.ask))) := by
  unfold State.servePeer
  rw [ask] at sound ⊢
  exact if_neg (Bool.eq_false_iff.mp sound)

theorem servePeer_write (c : Ctx) {b : List Byte} (ask : r.ask = .write b) :
    s.servePeer r c = ((s.placeBytes (.mem r.pa none .home) b).protectPlaces
      [(.mem r.pa none .home, peerAskSize r.ask)]).complete none r.source.toNat r.tag (.data []) := by
  unfold State.servePeer
  rw [ask]

theorem servePeer_atomic (c : Ctx) {op : AtomOp} {ty : AtomTy} {b sv : DWord} (ask : r.ask = .atomic op ty b sv)
    (sound : s.poisoned r.pa (peerAskSize r.ask) = false) :
    let n := peerAskSize r.ask
    let loc : Loc := .mem r.pa none .home
    s.servePeer r c = ((match atomNew op ty (leNat (s.peek loc n)) (b.toNat % 2 ^ (8 * n)) (sv.toNat % 2 ^ (8 * n)) with
      | some x => (s.placeBytes loc (leBytes n x)).protectPlaces [(loc, n)]
      | none => s.rekeyMem none r.pa n) : State).complete none r.source.toNat r.tag (.data (leBytes n (leNat (s.peek loc n)))) := by
  unfold State.servePeer
  rw [ask] at sound ⊢
  exact if_neg (Bool.eq_false_iff.mp sound)

end

theorem peerAccessRequest_results (r : PeerReq) (s : State) :
    let n := peerAskSize r.ask
    let src := r.source.toNat
    let loc : Loc := .mem r.pa none .home
    let done (s : State) : State := s.protectPlaces [(loc, n)]
    (∀ a, s.kept? src r.tag = some a → exec (.peerAccessRequest r) s = .next (s.respond none src r.tag a)) ∧
    (s.kept? src r.tag = none →
      (s.ctxOf r.job = none → exec (.peerAccessRequest r) s = .next (s.refuse src r.tag)) ∧
      ∀ c, s.ctxOf r.job = some c →
        (s.pageExists r.pa = false ∨ s.pageExists (r.pa + (n - 1)) = false →
          exec (.peerAccessRequest r) s = .next (s.refuse src r.tag)) ∧
        (s.pageExists r.pa = true → s.pageExists (r.pa + (n - 1)) = true →
          (s.servedLater loc n = true → exec (.peerAccessRequest r) s = .next s) ∧
          (s.servedLater loc n = false →
            ((∀ b, r.ask ≠ .write b) → s.poisoned r.pa n = true → exec (.peerAccessRequest r) s =
              .next ((s.poisonServed c.id r.pa).complete none src r.tag .poisoned)) ∧
            (∀ m, r.ask = .read m → s.poisoned r.pa n = false →
              exec (.peerAccessRequest r) s = .next ((s.rekeyMem none r.pa n).complete none src r.tag (.data (s.peek loc n)))) ∧
            (∀ b, r.ask = .write b →
              exec (.peerAccessRequest r) s = .next ((done (s.placeBytes loc b)).complete none src r.tag (.data []))) ∧
            ∀ op ty b sv, r.ask = .atomic op ty b sv → s.poisoned r.pa n = false →
              exec (.peerAccessRequest r) s = .next
                (((match atomNew op ty (leNat (s.peek loc n)) (b.toNat % 2 ^ (8 * n)) (sv.toNat % 2 ^ (8 * n)) with
                  | some x => done (s.placeBytes loc (leBytes n x))
                  | none => s.rekeyMem none r.pa n) : State).complete none src r.tag
                    (.data (leBytes n (leNat (s.peek loc n)))))))) := by
  intro n src loc done
  refine ⟨fun a => peerAccessRequest_kept, fun fresh => ⟨peerAccessRequest_absent fresh, fun c job => ?_⟩⟩
  rw [peerAccessRequest_eq fresh job]
  refine ⟨fun gone => ?_, fun first last => ?_⟩
  · rw [if_pos (by simpa using gone)]
  rw [if_neg (by simp [first, show s.pageExists (r.pa + (peerAskSize r.ask - 1)) = true from last])]
  refine ⟨fun later => by rw [if_pos later], fun now => ?_⟩
  rw [if_neg (Bool.eq_false_iff.mp now)]
  refine ⟨fun reads poison => by rw [servePeer_poisoned c reads poison], fun m ask sound => ?_, fun b ask => ?_,
    fun op ty b sv ask sound => ?_⟩
  · rw [servePeer_read c ask sound]
  · rw [servePeer_write c ask]
  · rw [servePeer_atomic c ask sound]

/-! ### coll packets of peers (R325, R327, R328, R415) -/

section
variable {p : CollPacket} {s : State}

/-- R415: a packet of a job that no context has, or with a lane that its job may not access, is refused. -/
theorem packetPlaces_absent {write : Bool} {bad : Loc → Bool} (absent : s.ctxOf p.job = none) :
    s.packetPlaces p write bad = .error .refused := by
  simp only [State.packetPlaces, absent]

theorem packetPlaces_refused {c : Ctx} {write : Bool} {bad : Loc → Bool} (job : s.ctxOf p.job = some c)
    (free : ∀ q ∈ p.parts, s.probe c.id (p.base + BitVec.ofNat 64 q.offset) (if write then .write else .read) ≠ .held)
    (bar : ∃ q ∈ p.parts, ∃ code, s.probe c.id (p.base + BitVec.ofNat 64 q.offset) (if write then .write else .read) = .cause code ∨
      s.probe c.id (p.base + BitVec.ofNat 64 q.offset) (if write then .write else .read) = .replay code) :
    s.packetPlaces p write bad = .error .refused := by
  obtain ⟨q, member, code, refused⟩ := bar
  simp only [State.packetPlaces, job, List.any_map]
  rw [if_neg (by simpa using free), if_pos (List.any_eq_true.mpr ⟨q, member, ?_⟩)]
  rcases refused with h | h <;> simp [h]

/-- A packet not completed before, by where its lanes lead. -/
theorem packet_refused {write reads get : Bool} {bad : Loc → Bool} (f : State → LanePart → Loc → List Byte × State)
    (fresh : s.kept? p.source.toNat p.tag = none) (places : s.packetPlaces p write bad = .error .refused) :
    s.packet p write reads get bad f = s.refuse p.source.toNat p.tag := by
  simp only [State.packet, fresh, places]

variable {write reads get : Bool} {bad : Loc → Bool} {f : State → LanePart → Loc → List Byte × State} {ctx : Nat}
  {l : List (LanePart × Loc)}

theorem packet_later (fresh : s.kept? p.source.toNat p.tag = none) (places : s.packetPlaces p write bad = .ok (ctx, l))
    (later : (l.any fun e => s.servedLater e.2 (atomSize (atomTyOf (ctlType p.ctl)))) = true) :
    s.packet p write reads get bad f = s := by
  simp only [State.packet, fresh, places, later, if_true]

theorem packet_poisoned {e : LanePart × Loc} (fresh : s.kept? p.source.toNat p.tag = none)
    (places : s.packetPlaces p write bad = .ok (ctx, l))
    (now : ¬(l.any fun e => s.servedLater e.2 (atomSize (atomTyOf (ctlType p.ctl)))) = true)
    (poison : (l.find? fun e => s.locPoisoned e.2 (atomSize (atomTyOf (ctlType p.ctl)))) = some e) :
    s.packet p write true get bad f = (s.poisonServed ctx e.2.addr).complete none p.source.toNat p.tag .poisoned := by
  simp only [State.packet, fresh, places, if_neg now, if_true, poison]

/-- A packet that is performed, lane by lane: `bytes` goes back and `t` is the state after. -/
theorem packet_performed {bytes : List Byte} {t : State} (fresh : s.kept? p.source.toNat p.tag = none)
    (places : s.packetPlaces p write bad = .ok (ctx, l))
    (now : ¬(l.any fun e => s.servedLater e.2 (atomSize (atomTyOf (ctlType p.ctl)))) = true)
    (sound : reads = true → (l.find? fun e => s.locPoisoned e.2 (atomSize (atomTyOf (ctlType p.ctl)))) = none)
    (performed : (l.foldl (fun a e =>
        let r := f a.2 e.1 e.2
        (a.1 ++ r.1, r.2)) ([], s.rekeySpans ctx (l.map fun e => (p.base + BitVec.ofNat 64 e.1.offset,
          atomSize (atomTyOf (ctlType p.ctl)))))) = (bytes, t)) :
    s.packet p write reads get bad f =
      (if write then t.protectPlaces (l.map fun e => (e.2, atomSize (atomTyOf (ctlType p.ctl)))) else t).complete
        (if get then some p else none) p.source.toNat p.tag (.data bytes) := by
  have clean : (if reads then l.find? fun e => s.locPoisoned e.2 (atomSize (atomTyOf (ctlType p.ctl))) else none) = none := by
    split
    · exact sound ‹_›
    · rfl
  simp only [State.packet, fresh, places, if_neg now, clean, performed]

end

/-- A fold that carries bytes and a state, where no step gives bytes back. -/
theorem foldl_pair_of_no_bytes {α : Type} (g : State → α → List Byte × State) (quiet : ∀ s x, (g s x).1 = [])
    (l : List α) (b : List Byte) (s : State) :
    (l.foldl (fun a e => (a.1 ++ (g a.2 e).1, (g a.2 e).2)) (b, s)) = (b, l.foldl (fun s e => (g s e).2) s) := by
  induction l generalizing b s with
  | nil => rfl
  | cons x l ih => rw [List.foldl_cons, quiet, List.append_nil]; exact ih _ _

/-- The same, where no step changes the state. -/
theorem foldl_pair_of_no_change {α : Type} (g : State → α → List Byte × State) (still : ∀ s x, (g s x).2 = s)
    (l : List α) (b : List Byte) (s : State) :
    (l.foldl (fun a e => (a.1 ++ (g a.2 e).1, (g a.2 e).2)) (b, s)) = (b ++ l.flatMap fun e => (g s e).1, s) := by
  induction l generalizing b with
  | nil => simp
  | cons x l ih =>
    rw [List.foldl_cons, still]
    simpa only [List.flatMap_cons, List.append_assoc] using ih (b ++ (g s x).1)

/-- R415: what refuses an instruction's packet. -/
theorem packet_refusals {i : Instr} {p : CollPacket} {s : State} {write reads get : Bool} {bad : Loc → Bool}
    {f : State → LanePart → Loc → List Byte × State} (runs : exec i s = .next (s.packet p write reads get bad f))
    (fresh : s.kept? p.source.toNat p.tag = none) :
    (s.ctxOf p.job = none → exec i s = .next (s.refuse p.source.toNat p.tag)) ∧
      ∀ c, s.ctxOf p.job = some c →
        let place (q : LanePart) := s.probe c.id (p.base + BitVec.ofNat 64 q.offset) (if write then .write else .read)
        (∀ q ∈ p.parts, place q ≠ .held) → (∃ q ∈ p.parts, ∃ code, place q = .cause code ∨ place q = .replay code) →
          exec i s = .next (s.refuse p.source.toNat p.tag) := by
  refine ⟨fun absent => ?_, fun c job => fun free bar => ?_⟩
  · rw [runs, packet_refused f fresh (packetPlaces_absent absent)]
  · rw [runs, packet_refused f fresh (packetPlaces_refused job free bar)]

theorem packets_refused (p : CollPacket) (s : State) (fresh : s.kept? p.source.toNat p.tag = none) :
    ∀ row ∈ [(Instr.put p, true), (.get p, false), (.remoteReduction p, true)],
      (s.ctxOf p.job = none → exec row.1 s = .next (s.refuse p.source.toNat p.tag)) ∧
      ∀ c, s.ctxOf p.job = some c →
        let place (q : LanePart) := s.probe c.id (p.base + BitVec.ofNat 64 q.offset) (if row.2 then .write else .read)
        (∀ q ∈ p.parts, place q ≠ .held) → (∃ q ∈ p.parts, ∃ code, place q = .cause code ∨ place q = .replay code) →
          exec row.1 s = .next (s.refuse p.source.toNat p.tag) := by
  intro row hrow
  simp only [List.mem_cons, List.not_mem_nil, or_false] at hrow
  rcases hrow with rfl | rfl | rfl
  · exact packet_refusals (i := .put p) rfl fresh
  · exact packet_refusals (i := .get p) rfl fresh
  · exact packet_refusals (i := .remoteReduction p) rfl fresh

section
variable {p : CollPacket} {s : State} {ctx : Nat} {l : List (LanePart × Loc)}

theorem put_results (fresh : s.kept? p.source.toNat p.tag = none) (places : s.packetPlaces p true (fun _ => false) = .ok (ctx, l)) :
    let n := atomSize (atomTyOf (ctlType p.ctl))
    ((l.any fun e => s.servedLater e.2 n) = true → exec (.put p) s = .next s) ∧
    (¬(l.any fun e => s.servedLater e.2 n) = true → exec (.put p) s = .next (((l.foldl
      (fun s e => s.placeBytes e.2 (leBytes n e.1.data.toNat))
      (s.rekeySpans ctx (l.map fun e => (p.base + BitVec.ofNat 64 e.1.offset, n)))).protectPlaces (l.map fun e => (e.2, n))).complete
        none p.source.toNat p.tag (.data []))) := by
  intro n
  refine ⟨fun later => congrArg Host.Outcome.next (packet_later fresh places later), fun now => ?_⟩
  refine congrArg Host.Outcome.next (packet_performed fresh places now (fun h => nomatch h) ?_)
  exact foldl_pair_of_no_bytes (fun s e => ([], s.placeBytes e.2 (leBytes n e.1.data.toNat))) (fun _ _ => rfl) l [] _

theorem get_results (fresh : s.kept? p.source.toNat p.tag = none) (places : s.packetPlaces p false (fun _ => false) = .ok (ctx, l)) :
    let n := atomSize (atomTyOf (ctlType p.ctl))
    let found : State := s.rekeySpans ctx (l.map fun e => (p.base + BitVec.ofNat 64 e.1.offset, n))
    ((l.any fun e => s.servedLater e.2 n) = true → exec (.get p) s = .next s) ∧
    (∀ e, ¬(l.any fun e => s.servedLater e.2 n) = true → (l.find? fun e => s.locPoisoned e.2 n) = some e →
      exec (.get p) s = .next ((s.poisonServed ctx e.2.addr).complete none p.source.toNat p.tag .poisoned)) ∧
    (¬(l.any fun e => s.servedLater e.2 n) = true → (l.find? fun e => s.locPoisoned e.2 n) = none → exec (.get p) s =
      .next (found.complete (some p) p.source.toNat p.tag (.data (l.flatMap fun e => leBytes 8 (leNat (found.peek e.2 n)))))) := by
  intro n found
  refine ⟨fun later => congrArg Host.Outcome.next (packet_later fresh places later),
    fun e now poison => congrArg Host.Outcome.next (packet_poisoned fresh places now poison), fun now sound => ?_⟩
  refine congrArg Host.Outcome.next (packet_performed fresh places now (fun _ => sound) ?_)
  exact foldl_pair_of_no_change (fun s e => (leBytes 8 (leNat (s.peek e.2 n)), s)) (fun _ _ => rfl) l [] _

/-- One lane of a REMOTE_REDUCTION. -/
def reduceLane (p : CollPacket) (s : State) (e : LanePart × Loc) : List Byte × State :=
  let ty := atomTyOf (ctlType p.ctl)
  let n := atomSize ty
  match atomNew (atomOpOf (ctlOp p.ctl)) ty (leNat (s.peek e.2 n)) (e.1.data.toNat % 2 ^ (8 * n)) 0 with
  | some x => ([], s.placeBytes e.2 (leBytes n x))
  | none => ([], s)

theorem reduceLane_fst (p : CollPacket) (s : State) (e : LanePart × Loc) : (reduceLane p s e).1 = [] := by
  unfold reduceLane
  dsimp only
  split <;> rfl

theorem reduceLane_snd (p : CollPacket) (s : State) (e : LanePart × Loc) :
    (reduceLane p s e).2 = match atomNew (atomOpOf (ctlOp p.ctl)) (atomTyOf (ctlType p.ctl))
        (leNat (s.peek e.2 (atomSize (atomTyOf (ctlType p.ctl)))))
        (e.1.data.toNat % 2 ^ (8 * atomSize (atomTyOf (ctlType p.ctl)))) 0 with
      | some x => s.placeBytes e.2 (leBytes (atomSize (atomTyOf (ctlType p.ctl))) x)
      | none => s := by
  unfold reduceLane
  dsimp only
  split <;> rfl

theorem remoteReduction_results (fresh : s.kept? p.source.toNat p.tag = none) (places : s.packetPlaces p true
      (fun l => (atomTarget (atomOpOf (ctlOp p.ctl)) (atomTyOf (ctlType p.ctl)) l).isSome) = .ok (ctx, l)) :
    let n := atomSize (atomTyOf (ctlType p.ctl))
    ((l.any fun e => s.servedLater e.2 n) = true → exec (.remoteReduction p) s = .next s) ∧
    (∀ e, ¬(l.any fun e => s.servedLater e.2 n) = true → (l.find? fun e => s.locPoisoned e.2 n) = some e →
      exec (.remoteReduction p) s = .next ((s.poisonServed ctx e.2.addr).complete none p.source.toNat p.tag .poisoned)) ∧
    (¬(l.any fun e => s.servedLater e.2 n) = true → (l.find? fun e => s.locPoisoned e.2 n) = none →
      exec (.remoteReduction p) s = .next (((l.foldl (fun s e => (reduceLane p s e).2)
        (s.rekeySpans ctx (l.map fun e => (p.base + BitVec.ofNat 64 e.1.offset, n)))).protectPlaces (l.map fun e => (e.2, n))).complete
          none p.source.toNat p.tag (.data []))) := by
  intro n
  refine ⟨fun later => congrArg Host.Outcome.next (packet_later fresh places later),
    fun e now poison => congrArg Host.Outcome.next (packet_poisoned fresh places now poison), fun now sound => ?_⟩
  refine congrArg Host.Outcome.next (packet_performed fresh places now (fun _ => sound) ?_)
  exact foldl_pair_of_no_bytes (reduceLane p) (reduceLane_fst p) l [] _

end

/-- R107, R360: a leaf entry of this device's memory whose page does not exist. -/
theorem placeOf_missing {s : State} {va e : DWord} (c : Ctx) (plain : pteKey e = 0)
    (own : pteLoc e = 0 ∨ (pteLoc e = 1 ∧ pteHdev e = s.fabric.deviceId.toNat))
    (missing : s.pageExists (ptePfn e + va.toNat % 2 ^ pageShift (ptePS e)) = false) : s.placeOf c va e = .cause 0x15 := by
  unfold State.placeOf
  rcases own with loc | ⟨loc, dev⟩
  · simp [plain, loc, missing]
  · simp [plain, loc, dev, missing]

/-- Settles O52: a request by whether it was completed before, by its job and pages, by what it has to wait for and by poison; a
packet's fold over its lanes gives back the bytes and the state. -/
theorem peerRequestResults : Obligations.PeerRequestResults := by
  refine ⟨peerAccessRequest_results, fun p s => ?_, fun s c va e plain own missing => placeOf_missing c plain own missing,
    fun s get src tag a => ⟨kept?_complete s get src tag a, rfl, kept?_refuse s src tag, refuse_storage s src tag⟩⟩
  intro ty op n src held done found fresh
  refine ⟨packets_refused p s fresh, fun ctx l places => put_results fresh places, fun ctx l places => get_results fresh places,
    fun ctx l places => ?_⟩
  have reduced := remoteReduction_results fresh places
  simp only [reduceLane_snd] at reduced
  exact reduced

end Sys2Proof.Machine
end

section
namespace Sys2Proof.Machine

/-! ### The storage commands (R123, R408 to R410, R436) -/

theorem retain_results (m : MCmd) (s : State) (runs : Claims.Runs s 8 m) :
    let b := bits m.arg.toNat 3 0
    let area := s.mgmt.arg0.toNat
    let st := s.storage
    (st.reshaping = true → exec (.retain m) s = .next (s.reportRefusal.endCommand 1)) ∧
    (st.reshaping = false → capacityFitted = true → (∀ r ∈ st.retained, r.1 ≠ b) → area % 4096 = 0 → inCapacity area = true →
      inCapacity (area + 10742188 * 4096 - 1) = true → exec (.retain m) s = .next
        (({ s with storage := { st with retained := st.retained ++ [(b, .entering, area)] } } : State).endCommand 0)) := by
  intro b area st
  change (_ → execRetain m s = _) ∧ (_ → _ → _ → _ → _ → _ → execRetain m s = _)
  refine ⟨fun reshaping => mgmtCommand_ends (if_pos reshaping) runs, fun idle fitted free aligned first last => ?_⟩
  refine mgmtCommand_ends ?_ runs
  have unknown : s.storage.retained.any (fun r => r.1 = b) = false :=
    List.any_eq_false.mpr fun r hr => by simpa using free r hr
  have room : ¬(!capacityFitted || s.storage.retained.any (fun r => r.1 = b)) = true := by simp [fitted, unknown]
  have placed : ¬(area % 4096 ≠ 0 || !inCapacity area || !inCapacity (area + 10742188 * 4096 - 1)) = true := by
    rw [decide_eq_false (not_not.mpr aligned), first, last]
    exact Bool.false_ne_true
  exact (if_neg (Bool.eq_false_iff.mp idle)).trans ((if_neg room).trans (if_neg placed))

theorem unretain_results (m : MCmd) (s : State) (runs : Claims.Runs s 9 m) :
    let b := bits m.arg.toNat 3 0
    let st := s.storage
    (st.reshaping = true → exec (.unretain m) s = .next (s.reportRefusal.endCommand 1)) ∧
    (st.reshaping = false → (∃ r ∈ st.retained, r.1 = b ∧ r.2.1 = .held) → exec (.unretain m) s = .next
      (({ s with storage := { st with retained := st.retained.map fun r =>
        if r.1 = b then (b, .leaving, r.2.2) else r } } : State).endCommand 0)) := by
  intro b st
  change (_ → execUnretain m s = _) ∧ (_ → _ → execUnretain m s = _)
  refine ⟨fun reshaping => mgmtCommand_ends (if_pos reshaping) runs, fun idle held => mgmtCommand_ends ?_ runs⟩
  have known : ¬(!(s.storage.retained.any fun r => r.1 = b && r.2.1 = .held)) = true := by simpa using held
  exact (if_neg (Bool.eq_false_iff.mp idle)).trans (if_neg known)

theorem reshape_results (m : MCmd) (s : State) (runs : Claims.Runs s 10 m) :
    let st := s.storage
    (st.retained ≠ [] ∨ 2 ≤ s.lostStacks.length → exec (.reshape m) s = .next (s.reportRefusal.endCommand 1)) ∧
    (st.retained = [] → s.lostStacks.length < 2 →
      (s.lostStacks = [] ∨ st.castled.isSome = true → exec (.reshape m) s = .next (s.endCommand 1)) ∧
      ∀ k, s.lostStacks = [k] → st.castled = none → exec (.reshape m) s = .next (({ s with storage := { st with
        reshaping := true, castled := some k, watermarks := List.replicate 16 15625000 } } : State).endCommand 0)) := by
  intro st
  change (_ → execReshape m s = _) ∧ (_ → _ → (_ → execReshape m s = _) ∧ ∀ _, _ → _ → execReshape m s = _)
  refine ⟨fun refused => mgmtCommand_ends (if_pos (by simpa using refused)) runs, fun free few => ?_⟩
  have allowed : ¬(s.storage.retained ≠ [] || 2 ≤ s.lostStacks.length) = true := by
    simpa [show s.storage.retained = [] from free] using few
  refine ⟨fun stop => mgmtCommand_ends ((if_neg allowed).trans ?_) runs,
    fun k lost once => mgmtCommand_ends ((if_neg allowed).trans ?_) runs⟩
  · split
    · rfl
    · rename_i lost
      exact if_pos (stop.resolve_left (by simp [lost]))
  · simp only [lost]
    exact if_neg (by simp [show s.storage.castled = none from once])

theorem lose_results (m : MCmd) (s : State) (runs : Claims.Runs s 11 m) :
    let b := bits m.arg.toNat 3 0
    (b < 12 → exec (.lose m) s = .next ((s.loseStack b).endCommand 0)) ∧
    (12 ≤ b → exec (.lose m) s = .next (s.endCommand 2)) := by
  intro b
  change (_ → execLose m s = _) ∧ (_ → execLose m s = _)
  exact ⟨fun fitted => mgmtCommand_ends (if_neg (Nat.not_le.mpr fitted)) runs, fun beyond => mgmtCommand_ends (if_pos beyond) runs⟩

/-! ### The end of a retention and of a reshape (R123, R124, R344, R409) -/

theorem bandOwned_iff (s : State) (b area : Nat) : s.bandOwned b area = true ↔
    ∃ l ∈ s.storage.hostOwned, lineIn (b * 2 ^ 36) s.bandBytes l = true ∨ lineIn area s.bandBytes l = true := by
  simp [State.bandOwned]

theorem retentionComplete_eq {band : BitVec 4} {s : State} {b area : Nat} {ph : RetPhase}
    (found : (s.storage.retained.find? fun r => r.1 = band.toNat) = some (b, ph, area)) :
    exec (.retentionComplete band) s = .next (if s.bandOwned b area then s
      else if ph = .entering then s.retainBand b area else if ph = .leaving then s.releaseBand b area else s) := by
  change execRetentionComplete band s = _
  rw [execRetentionComplete, found]
  cases ph with
  | entering => rfl
  | leaving => rfl
  | held => exact congrArg Host.Outcome.next (ite_self s).symm

/-- `t` is `s` but for what a reshape moves: media, and the journal, poisoned parity and watermarks beside it. -/
def MovedOnly (s t : State) : Prop :=
  ∃ (media : SMap 8) (journal : List JournalEntry) (bad : List (Nat × Nat)) (marks : List Nat), t = { s with storage := { s.storage with
    media := media, journal := journal, badParity := bad, watermarks := marks } }

namespace MovedOnly

theorem refl (s : State) : MovedOnly s s := ⟨_, _, _, _, rfl⟩

theorem trans {a b c : State} (h : MovedOnly a b) (g : MovedOnly b c) : MovedOnly a c := by
  obtain ⟨_, _, _, _, rfl⟩ := h
  obtain ⟨media, journal, bad, marks, rfl⟩ := g
  exact ⟨media, journal, bad, marks, rfl⟩

theorem foldl {α : Type} {f : State → α → State} (hf : ∀ s x, MovedOnly s (f s x)) (l : List α) (s : State) :
    MovedOnly s (l.foldl f s) := by
  induction l generalizing s with
  | nil => exact refl s
  | cons x l ih => exact (hf s x).trans (ih _)

end MovedOnly

theorem movedOnly_setMedia (s : State) (k row half : Nat) (b : List Byte) : MovedOnly s (s.setMedia k row half b) :=
  ⟨_, _, _, _, rfl⟩

theorem movedOnly_moveRow (s : State) (b r : Nat) : MovedOnly s (s.moveRow b r) := by
  have put (s : State) (k row half : Nat) (d : List Byte) : MovedOnly s (if s.stackLive k then s.setMedia k row half d else s) := by
    split
    · exact movedOnly_setMedia s k row half d
    · exact .refl s
  unfold State.moveRow
  dsimp only
  refine .trans ⟨_, _, _, _, rfl⟩ (.foldl (fun s half => ?_) _ _)
  exact (put s _ _ _ _).trans (.foldl (fun s e => put s _ _ _ _) _ _)

theorem movedOnly_reshapeRow (s : State) (b : Nat) : MovedOnly s (s.reshapeRow b) := by
  unfold State.reshapeRow
  split
  · exact .refl s
  split
  · exact movedOnly_moveRow s b _
  · exact .refl s

theorem reshapeComplete_ends (s : State) (k : Nat) (reshaping : s.storage.reshaping = true) (castled : s.storage.castled = some k) :
    ∃ t, exec .reshapeComplete s = .next t ∧ t.storage.reshaping = false ∧ t.storage.reshaped = true ∧
      t.storage.stackStates = s.storage.stackStates.set k .retired ∧ t.storage.mem = s.storage.mem ∧ t.teams = s.teams ∧
      t.host.plugs = s.host.plugs ++ (List.range 16).map fun b =>
        (true, b * 2 ^ 36 + bandSizeReshaped, bandSize - bandSizeReshaped) := by
  let s1 := (List.range 16).foldl
    (fun s b => (List.range (s.storage.watermarks.getD b 0)).foldl (fun s _ => s.reshapeRow b) s) s
  have moved : MovedOnly s s1 := .foldl (fun s b => .foldl (fun s _ => movedOnly_reshapeRow s b) _ _) _ _
  let gone := (List.range 16).map fun b => (true, b * 2 ^ 36 + bandSizeReshaped, bandSize - bandSizeReshaped)
  let s2 : State := { s1 with
    storage := { s1.storage with reshaping := false, reshaped := true, stackStates := s1.storage.stackStates.set k .retired }
    host := { s1.host with plugs := s1.host.plugs ++ gone } }
  have recorded : RecordsOnly s2 (s2.reportStack k 2) := recordsOnly_report _ _ _ _ _ _ _
  refine ⟨s2.reportStack k 2, ?_, ?_⟩
  · change execReshapeComplete s = _
    unfold execReshapeComplete
    rw [reshaping, castled]
  rw [recorded.storage, recorded.teams, recorded.plugs]
  clear_value s1
  obtain ⟨_, _, _, _, rfl⟩ := moved
  exact ⟨rfl, rfl, rfl, rfl, rfl, rfl⟩

/-! ### The loss of a stack or of a package (R403, R404, R407, R411) -/

theorem cleanedOnly_poisonUnlessDirty (s : State) (src unit detail line : Nat) :
    CleanedOnly s (if s.storage.dirty.contains line then s else s.poisonLine src unit detail line) := by
  split
  · exact .refl s
  · exact cleanedOnly_poisonLine s src unit detail line

/-- R404, R405: a live stack is LOST; what else its loss changes is what a write-back may change. -/
theorem cleanedOnly_loseStack {s : State} {k : Nat} (live : s.stackLive k = true) :
    CleanedOnly { s with storage := { s.storage with stackStates := s.storage.stackStates.set k .lost } } (s.loseStack k) := by
  unfold State.loseStack
  rw [if_neg (by simp [live])]
  extract_lets _ s1 s2 s3
  have first : CleanedOnly { s with storage := { s.storage with stackStates := s.storage.stackStates.set k .lost } } s1 :=
    .trans (b := { s with storage := _ }) ⟨_, _, _, _, _, _, _, rfl⟩ (recordsOnly_report _ _ _ _ _ _ _).cleaned
  have second : CleanedOnly s1 s2 := by
    refine .foldl (fun s e => ?_) _ _
    split
    · exact cleanedOnly_poisonUnlessDirty s _ _ _ _
    · exact .refl s
  have third : CleanedOnly s2 s3 := by
    refine .foldl (fun s p => ?_) _ _
    split
    · exact .refl s
    split
    split
    · exact .refl s
    split
    · exact cleanedOnly_poisonUnlessDirty s _ _ _ _
    · exact .refl s
  refine (first.trans second).trans (third.trans ?_)
  split
  · exact .refl s3
  · exact .foldl (fun s l => cleanedOnly_poisonLine s _ _ _ l) _ _

theorem loseStack_of_not_live {s : State} {k : Nat} (gone : s.stackLive k = false) : s.loseStack k = s := by
  unfold State.loseStack
  exact if_pos (by simp [gone])

theorem stackTimeout_eq (k : Nat) (s : State) : exec (.stackTimeout k) s =
    .next (if s.storage.silent.any fun e => e.1 = k && e.2 ≤ s.devclk.toNat then s.loseStack k else s) := rfl

theorem stackLost_eq (k : Nat) (why : LossReason) (s : State) : exec (.stackLost k why) s =
    .next (if why = .cwdRate && s.cwdCount k < 64 then s else s.loseStack k) := rfl

theorem stackLoss_results (k : Nat) (why : LossReason) (s : State) :
    let late := ∃ e ∈ s.storage.silent, e.1 = k ∧ e.2 ≤ s.devclk.toNat
    (¬late ∨ s.stackLive k = false → exec (.stackTimeout k) s = .next s) ∧
    (s.stackLive k = true → why = .cwdRate → s.cwdCount k < 64 → exec (.stackLost k why) s = .next s) ∧
    (s.stackLive k = true → ∃ t, (late → exec (.stackTimeout k) s = .next t) ∧
      (why ≠ .cwdRate ∨ 64 ≤ s.cwdCount k → exec (.stackLost k why) s = .next t) ∧
      t.storage.stackStates = s.storage.stackStates.set k .lost ∧ t.storage.mem = s.storage.mem ∧
      t.storage.media = s.storage.media ∧ t.groups = s.groups ∧ t.teams = s.teams) := by
  intro late
  have lateTest : (s.storage.silent.any fun e => e.1 = k && e.2 ≤ s.devclk.toNat) = true ↔ late := by simp [late]
  refine ⟨fun h => ?_, fun _ rate few => ?_, fun live => ⟨s.loseStack k, fun h => ?_, fun h => ?_, ?_⟩⟩
  · rw [stackTimeout_eq]
    rcases h with h | gone
    · rw [if_neg (mt lateTest.mp h)]
    · rw [loseStack_of_not_live gone, ite_self]
  · rw [stackLost_eq, if_pos (by simp [rate, few])]
  · rw [stackTimeout_eq, if_pos (lateTest.mpr h)]
  · rw [stackLost_eq, if_neg (by simpa [← imp_iff_not_or] using h)]
  · have lost := cleanedOnly_loseStack live
    exact ⟨lost.stackStates, lost.mem, lost.media, lost.groups, lost.teams⟩

theorem capacityPackageLost_results (p : Nat) (s : State) :
    (p < 8 → capacityFitted = true → s.storage.packages.getD p true = false → ∃ t, exec (.capacityPackageLost p) s = .next t ∧
      t.storage = { s.storage with packages := s.storage.packages.set p true } ∧ t.groups = s.groups ∧ t.teams = s.teams) ∧
    (8 ≤ p ∨ capacityFitted = false ∨ s.storage.packages.getD p true = true → exec (.capacityPackageLost p) s = .next s) := by
  change (_ → _ → _ → ∃ t, execCapacityPackageLost p s = _ ∧ _) ∧ (_ → execCapacityPackageLost p s = _)
  unfold execCapacityPackageLost
  refine ⟨fun fits fitted works => ?_, fun none => ?_⟩
  · rw [if_neg (by simp only [fitted, works, Nat.not_le.mpr fits]; decide)]
    have recorded := recordsOnly_report { s with storage := { s.storage with packages := s.storage.packages.set p true } } 2 5 p 0 1 s.openAddr
    exact ⟨_, rfl, recorded.storage, recorded.groups, recorded.teams⟩
  · rw [if_pos (by simpa [or_assoc] using none)]

/-- Settles O10: each storage command by its tests; a retention waits for what the host owns; a reshape moves rows, and a loss
poisons lines and writes records, and neither changes memory's bytes. -/
theorem storageCommandResults : Obligations.StorageCommandResults := by
  refine ⟨fun m s => ⟨retain_results m s, unretain_results m s, reshape_results m s, lose_results m s⟩,
    fun band s b area ph found => ⟨fun owned => ?_, fun free => ?_⟩,
    fun s k reshaping castled _ => reshapeComplete_ends s k reshaping castled, stackLoss_results, capacityPackageLost_results⟩
  · rw [retentionComplete_eq found, if_pos ((bandOwned_iff s b area).mpr owned)]
  · rw [retentionComplete_eq found, if_neg (mt (bandOwned_iff s b area).mp free)]

end Sys2Proof.Machine
end

section
namespace Sys2Proof.Machine

/-! ### A run of a sparse table, read where it was written -/

theorem getRun_setRun {w : Nat} (l : List (BitVec w)) (m : SMap w) (k : Nat) (h : SMap.wf m = true) :
    SMap.getRun (SMap.setRun m k l) k l.length = l := by
  unfold SMap.getRun
  refine List.ext_getElem (by simp) fun i _ hi => ?_
  rw [List.getElem_map, List.getElem_range, SMap.get_setRun l m k (k + i) h, if_pos ⟨by omega, by omega⟩,
    Nat.add_sub_cancel_left, List.getD_eq_getElem _ _ hi]

/-! ### Write-back and journals (R119, R120) -/

theorem writeBack_results (line : Nat) (s : State) :
    (s.storage.dirty.contains line = false → exec (.writeBack line) s = .next s) ∧
    (s.storage.dirty.contains line = true → ∃ t, exec (.writeBack line) s = .next t ∧ t.storage.dirty.contains line = false ∧
      (∀ l, l ∉ s.rowLines line → l ≠ line → (l ∈ t.storage.dirty ↔ l ∈ s.storage.dirty)) ∧
      (∀ l, l ∈ t.storage.dirty → l ∈ s.storage.dirty) ∧ t.storage.mem = s.storage.mem ∧
      t.storage.tags = s.storage.tags ∧ t.storage.media = s.storage.media ∧ t.groups = s.groups ∧ t.teams = s.teams) := by
  change (_ → execWriteBack line s = _) ∧ (_ → ∃ t, execWriteBack line s = _ ∧ _)
  unfold execWriteBack
  refine ⟨fun clean => by rw [clean]; rfl, fun dirty => ?_⟩
  rw [dirty]
  have member : line ∈ s.storage.dirty := List.contains_iff_mem.mp dirty
  by_cases alone : s.freeAt 21 line % 2 = 0
  · have cleaned := cleanedOnly_writeBackLine s line
    have left (l : Nat) : l ∈ (s.writeBackLine line).storage.dirty ↔ l ∈ s.storage.dirty ∧ l ≠ line := by
      simp [writeBackLine_dirty]
    refine ⟨s.writeBackLine line, congrArg Host.Outcome.next (if_pos alone), ?_, fun l _ ne => ?_, fun l hl => ((left l).mp hl).1,
      cleaned.mem, cleaned.tags, cleaned.media, cleaned.groups, cleaned.teams⟩
    · simp [left]
    · simp [left, ne]
  · let row := (s.rowLines line).filter fun l => s.storage.dirty.contains l
    have cleaned := cleanedOnly_writeBackQueue row row s
    have here : line ∈ row := List.mem_filter.mpr ⟨mem_rowLines_self s line, dirty⟩
    have left (l : Nat) := mem_dirty_writeBackQueue row row s l
    refine ⟨s.writeBackLines row, congrArg Host.Outcome.next (if_neg alone), ?_, fun l out _ => ⟨fun hl => ((left l).1 hl).1, ?_⟩,
      fun l hl => ((left l).1 hl).1, cleaned.mem, cleaned.tags, cleaned.media, cleaned.groups, cleaned.teams⟩
    · exact Bool.eq_false_iff.mpr fun still => ((left line).1 (List.contains_iff_mem.mp still)).2 here
    · have other : l ∉ row := fun hl => out (List.mem_filter.mp hl).1
      exact (left l).2 other other

theorem journalApply_results (stack idx : Nat) (s : State) (e : JournalEntry) (found : (s.journalOf stack)[idx]? = some e)
    (live : s.stackLive stack = true) (first : ∀ x ∈ (s.journalOf stack).take idx, ¬(x.row = e.row ∧ x.half = e.half))
    (wf : SMap.wf s.storage.media = true) (size : e.bytes.length = 128) :
    ∃ t, exec (.journalApply stack idx) s = .next t ∧ t.storage.journal = s.storage.journal.erase e ∧
      SMap.getRun t.storage.media (mediaKey e.stack e.row e.half) 128 = (if e.parity = true ∧ e.whole = false then
        xorBytes (SMap.getRun s.storage.media (mediaKey e.stack e.row e.half) 128) e.bytes else e.bytes) ∧
      t.storage.mem = s.storage.mem ∧ t.groups = s.groups ∧ t.teams = s.teams := by
  change ∃ t, execJournalApply stack idx s = _ ∧ _
  have none : ((s.journalOf stack).take idx).any (fun x => x.row = e.row && x.half = e.half) = false :=
    List.any_eq_false.mpr fun x hx => by simpa using first x hx
  have goes : ¬(!s.stackLive stack || ((s.journalOf stack).take idx).any fun x => x.row = e.row && x.half = e.half) = true := by
    rw [live, none]
    exact Bool.false_ne_true
  let b := if e.parity && !e.whole then xorBytes (SMap.getRun s.storage.media (mediaKey e.stack e.row e.half) 128) e.bytes else e.bytes
  have length : b.length = 128 := by
    simp only [b]
    split
    · simp [xorBytes, SMap.getRun, size]
    · exact size
  refine ⟨{ s.applyEntry e with storage := { (s.applyEntry e).storage with journal := (s.applyEntry e).storage.journal.erase e } },
    ?_, rfl, ?_, rfl, rfl, rfl⟩
  · simp only [execJournalApply, found]
    exact congrArg Host.Outcome.next (if_neg goes)
  · have read := getRun_setRun b s.storage.media (mediaKey e.stack e.row e.half) wf
    rw [length] at read
    refine read.trans ?_
    simp [b]

/-! ### Patrol scrub (R399 to R402, R404) -/

theorem patrolScrub_eq {k row : Nat} {s : State} (f : ScrubFinding) (stack : k < 12) (live : s.stackLive k = true)
    (fits : row < 250000000) (free : s.storage.retained = []) : exec (.patrolScrub k row f) s = .next (match f with
      | .clean => s
      | .corrected => match s.unstripe k row with
        | some pa => s.reportSector 1 k (row * 16) pa 8
        | none => s.report 0 1 k 0 (row * 16) s.openAddr
      | .lostHalf h =>
        if s.halfGone k row (h % 2) then s.poisonHalves k row (h % 2)
        else (s.report 1 1 k 0 (row * 16) (s.halfAddr k row (h % 2))).noteCwd k row) := by
  change execPatrolScrub k row f s = _
  have reads : ¬(!s.stackLive k || 250000000 ≤ row ||
      s.storage.retained.any (fun r => r.1 = row / 15625000 && r.2.1 ≠ .entering)) = true := by
    rw [live, decide_eq_false (Nat.not_le.mpr fits), free]
    exact Bool.false_ne_true
  refine congrArg Host.Outcome.next ((if_pos stack).trans ((if_neg reads).trans ?_))
  cases f <;> rfl

/-- A corrected error's record has the address of one of its row's sectors, where it has one. -/
theorem patrolScrub_corrected {k row : Nat} {s : State} (stack : k < 12) (live : s.stackLive k = true)
    (fits : row < 250000000) (free : s.storage.retained = []) :
    ∃ (t : State) (pa : DWord), exec (.patrolScrub k row .corrected) s = .next t ∧ t = s.report 0 1 k 0 (row * 16) pa ∧
      (∀ a, s.unstripe k row = some a → ∃ j < 8, pa = BitVec.ofNat 64 (a + 32 * j)) ∧
      t.storage = s.storage ∧ t.groups = s.groups ∧ t.teams = s.teams := by
  have recorded (pa : DWord) := recordsOnly_report s 0 1 k 0 (row * 16) pa
  rw [patrolScrub_eq .corrected stack live fits free]
  cases place : s.unstripe k row with
  | none => exact ⟨_, s.openAddr, rfl, rfl, (fun _ h => nomatch h), (recorded _).storage, (recorded _).groups, (recorded _).teams⟩
  | some a =>
    refine ⟨_, BitVec.ofNat 64 (a + s.freeAt 12 k % 8 * 32), rfl, rfl, fun b same => ?_, (recorded _).storage, (recorded _).groups,
      (recorded _).teams⟩
    cases same
    exact ⟨s.freeAt 12 k % 8, Nat.mod_lt _ (by decide), by rw [Nat.mul_comm]⟩

/-- A rebuild of a live stack (R404): below 64 rows it is noted, at 64 the stack is LOST. -/
theorem noteCwd_results {s : State} {k row : Nat} (live : s.stackLive k = true) :
    let s2 : State := { s with storage := { s.storage with cwds := s.storage.cwds ++ [(k, row, s.devclk.toNat)] } }
    let t := s.noteCwd k row
    t = (if 64 ≤ s2.cwdCount k then s2.loseStack k else s2) ∧ (s2.cwdCount k < 64 → t.storage = s2.storage) ∧
      (64 ≤ s2.cwdCount k → t.storage.stackStates = s.storage.stackStates.set k .lost) ∧
      t.storage.mem = s.storage.mem ∧ t.groups = s.groups ∧ t.teams = s.teams := by
  intro s2 t
  have lost : CleanedOnly _ (s2.loseStack k) := cleanedOnly_loseStack live
  have cases : t = if 64 ≤ s2.cwdCount k then s2.loseStack k else s2 := rfl
  by_cases many : 64 ≤ s2.cwdCount k
  · rw [cases, if_pos many]
    exact ⟨rfl, fun few => absurd many (Nat.not_le.mpr few), fun _ => lost.stackStates, lost.mem, lost.groups, lost.teams⟩
  · rw [cases, if_neg many]
    exact ⟨rfl, fun _ => rfl, fun h => absurd h many, rfl, rfl, rfl⟩

theorem patrolScrub_results (k row half : Nat) (s : State) (stack : k < 12) (live : s.stackLive k = true)
    (fits : row < 250000000) (free : s.storage.retained = []) (hhalf : half < 2) :
    exec (.patrolScrub k row .clean) s = .next s ∧
    (∃ (t : State) (pa : DWord), exec (.patrolScrub k row .corrected) s = .next t ∧
      t = s.report 0 1 k 0 (row * 16) pa ∧ (∀ a, s.unstripe k row = some a → ∃ j < 8, pa = BitVec.ofNat 64 (a + 32 * j)) ∧
      t.storage = s.storage ∧ t.groups = s.groups ∧ t.teams = s.teams) ∧
    (s.halfGone k row half = true → exec (.patrolScrub k row (.lostHalf half)) s = .next (s.poisonHalves k row half)) ∧
    (s.halfGone k row half = false → ∃ t, exec (.patrolScrub k row (.lostHalf half)) s = .next t ∧
      let s1 := s.report 1 1 k 0 (row * 16) (s.halfAddr k row half)
      let s2 : State := { s1 with storage := { s1.storage with cwds := s1.storage.cwds ++ [(k, row, s.devclk.toNat)] } }
      t = (if 64 ≤ s2.cwdCount k then s2.loseStack k else s2) ∧
      (s2.cwdCount k < 64 → t.storage = { s.storage with cwds := s.storage.cwds ++ [(k, row, s.devclk.toNat)] }) ∧
      (64 ≤ s2.cwdCount k → t.storage.stackStates = s.storage.stackStates.set k .lost) ∧
      t.storage.mem = s.storage.mem ∧ t.groups = s.groups ∧ t.teams = s.teams) := by
  have found := patrolScrub_eq (.lostHalf half) stack live fits free
  simp only [Nat.mod_eq_of_lt hhalf] at found
  refine ⟨patrolScrub_eq .clean stack live fits free, patrolScrub_corrected stack live fits free, fun gone => ?_, fun whole => ?_⟩
  · rw [found, if_pos gone]
  · rw [found, if_neg (Bool.eq_false_iff.mp whole)]
    refine ⟨_, rfl, ?_⟩
    intro s1
    have recorded : RecordsOnly s s1 := recordsOnly_report _ _ _ _ _ _ _
    have live1 : s1.stackLive k = true := by rwa [State.stackLive, recorded.storage]
    rw [← recorded.devclk, ← recorded.storage, ← recorded.groups, ← recorded.teams]
    exact noteCwd_results live1

/-! ### One record in the ring (R396) -/

/-- An interrupt leaves the host's memory and every register of management but IRQ. -/
theorem interrupt_parts (s : State) (b : BitVec 6) : (s.interrupt b).host.mem = s.host.mem ∧
    (s.interrupt b).mgmt = { s.mgmt with irq := s.mgmt.irq ||| b } := by
  unfold State.interrupt State.raiseMsix
  split <;> exact ⟨rfl, rfl⟩

theorem hostWrite_hostMem (s : State) (pa : Nat) (b : List Byte) :
    (s.hostWrite pa b).host.mem = SMap.setRun s.host.mem pa b := rfl

/-- A record that finds room in the ring, the link up. -/
theorem flushErrors_room {s : State} {r : Record} (l : List Record) (up : s.host.linkUp = true)
    (room : (s.mgmt.eqTail - s.mgmt.eqHead).toNat < 256) :
    let s1 := s.hostWrite (ringBase s.mgmt.eqbase + s.mgmt.eqTail.toNat % 256 * 32) r.bytes
    State.flushErrors (r :: l) s =
      State.flushErrors l (({ s1 with mgmt := { s1.mgmt with eqTail := s1.mgmt.eqTail + 1 } } : State).interrupt 1) := by
  intro s1
  rw [State.flushErrors, if_pos]
  rw [up, ringRoom, decide_eq_true room]
  rfl

theorem flushErrors_one {s : State} {r : Record} (up : s.host.linkUp = true) (room : (s.mgmt.eqTail - s.mgmt.eqHead).toNat < 256) :
    let slot := ringBase s.mgmt.eqbase + s.mgmt.eqTail.toNat % 256 * 32
    let t := State.flushErrors [r] s
    t.host.mem = SMap.setRun s.host.mem slot r.bytes ∧ t.mgmt.eqTail = s.mgmt.eqTail + 1 ∧ t.mgmt.errSeq = s.mgmt.errSeq := by
  intro slot t
  let s1 := s.hostWrite slot r.bytes
  let s2 : State := { s1 with mgmt := { s1.mgmt with eqTail := s1.mgmt.eqTail + 1 } }
  have flushed : t = State.flushErrors [] (s2.interrupt 1) := flushErrors_room [] up room
  obtain ⟨mem, mgmt⟩ := interrupt_parts s2 1
  rw [flushed]
  change (s2.interrupt 1).host.mem = _ ∧ (s2.interrupt 1).mgmt.eqTail = _ ∧ (s2.interrupt 1).mgmt.errSeq = _
  rw [mem, mgmt]
  exact ⟨hostWrite_hostMem s slot r.bytes, rfl, rfl⟩

theorem length_leBytes (n x : Nat) : (leBytes n x).length = n := by
  induction n generalizing x with
  | zero => rfl
  | succ n ih => rw [leBytes, List.length_cons, ih]

theorem length_bytes (r : Record) : r.bytes.length = 32 := by
  simp [Record.bytes, length_leBytes]

theorem report_written (sev src unit ctx detail : Nat) (addr : DWord) (s : State) (up : s.host.linkUp = true)
    (idle : s.mgmt.errWaiting = []) (room : s.unread < 256) (wf : SMap.wf s.host.mem = true) :
    let slot := ringBase s.mgmt.eqbase + 32 * (s.mgmt.eqTail.toNat % 256)
    let e0 := BitVec.ofNat 64 (sev * 2 ^ 60 + src * 2 ^ 52 + unit % 2 ^ 12 * 2 ^ 40 + ctx % 16 * 2 ^ 36 + detail % 2 ^ 36)
    let t := s.report sev src unit ctx detail addr
    t.hostRead slot 32 = leBytes 8 e0.toNat ++ leBytes 8 addr.toNat ++ leBytes 8 s.devclk.toNat ++ leBytes 8 (s.mgmt.errSeq % 2 ^ 64) ∧
      t.mgmt.eqTail = s.mgmt.eqTail + 1 ∧ t.mgmt.errSeq = s.mgmt.errSeq + 1 := by
  intro slot e0 t
  let r : Record := { seq := s.mgmt.errSeq, d0 := e0, d1 := addr, d2 := s.devclk, d3 := BitVec.ofNat 64 s.mgmt.errSeq }
  let s1 : State := { s with mgmt := { s.mgmt with errSeq := s.mgmt.errSeq + 1 } }
  have free : (s.mgmt.eqTail - s.mgmt.eqHead).toNat < 256 := by
    unfold State.unread at room
    omega
  have kept : ¬(sev ≤ 1 && 256 ≤ s.unread) = true := by
    rw [decide_eq_false (Nat.not_le.mpr room), Bool.and_false]
    exact Bool.false_ne_true
  have one : t = State.flushErrors [r] s1 := by
    unfold t State.report
    rw [if_neg kept, idle]
    rfl
  obtain ⟨mem, tail, seq⟩ := flushErrors_one (s := s1) (r := r) up free
  have place : slot = ringBase s1.mgmt.eqbase + s1.mgmt.eqTail.toNat % 256 * 32 := congrArg (_ + ·) (Nat.mul_comm _ _)
  have read := getRun_setRun r.bytes s1.host.mem slot wf
  rw [length_bytes] at read
  refine ⟨?_, by rw [one, tail], by rw [one, seq]⟩
  have number : r.d3.toNat = s.mgmt.errSeq % 2 ^ 64 := BitVec.toNat_ofNat _ _
  rw [State.hostRead, one, mem, ← place, read, Record.bytes, number]

/-- Settles O11: a write-back of a line, or of its row's dirty lines; an entry of a journal applied as it reads; a scrubbed row
by what it finds; the record of an event in its slot. -/
theorem scrubAndJournalResults : Obligations.ScrubAndJournalResults :=
  ⟨writeBack_results, fun stack idx s e found live first wf size _ => journalApply_results stack idx s e found live first wf size,
    fun k row half s stack live fits free hhalf => patrolScrub_results k row half s stack live fits free hhalf, report_written⟩

end Sys2Proof.Machine
end

section
namespace Sys2Proof.Machine

/-! ### Lines that are poisoned (R405) -/

/-- The lines that poison is listed of, once one more is poisoned. -/
theorem poisonLine_lines (s : State) (src unit detail line : Nat) : (s.poisonLine src unit detail line).storage.poison.map Prod.fst =
    if line ∈ s.storage.poison.map Prod.fst then s.storage.poison.map Prod.fst else s.storage.poison.map Prod.fst ++ [line] := by
  have listed : (s.storage.poison.any fun p => p.1 = line) = true ↔ line ∈ s.storage.poison.map Prod.fst := by simp
  rw [poisonLine_storage]
  by_cases h : line ∈ s.storage.poison.map Prod.fst
  · rw [if_pos (listed.mpr h), if_pos h, List.map_map]
    refine List.map_congr_left fun p _ => ?_
    change Prod.fst (if p.1 = line then (line, 0) else p) = p.1
    split
    · exact Eq.symm ‹_›
    · rfl
  · rw [if_neg (mt listed.mp h), if_neg h, List.map_append]
    rfl

theorem linePoisoned_of_listed {s : State} {l : Nat} (h : l ∈ s.storage.poison.map Prod.fst) : s.linePoisoned l = true := by
  rw [State.linePoisoned, Bool.or_eq_true]
  exact .inl (by simpa using h)

/-- Lines poisoned in turn are all poisoned, and so are those that were before. -/
theorem mem_poison_foldl (src unit detail : State → Nat → Nat) (l : List Nat) (s : State) {x : Nat}
    (hx : x ∈ l ∨ x ∈ s.storage.poison.map Prod.fst) :
    x ∈ (l.foldl (fun s l => s.poisonLine (src s l) (unit s l) (detail s l) l) s).storage.poison.map Prod.fst := by
  induction l generalizing s with
  | nil => exact hx.resolve_left List.not_mem_nil
  | cons y l ih =>
    refine ih _ ?_
    rw [poisonLine_lines]
    rcases hx with h | h
    · rcases List.mem_cons.mp h with rfl | h
      · right
        split
        · assumption
        · exact List.mem_append_right _ (List.mem_singleton.mpr rfl)
      · exact .inl h
    · right
      split
      · exact h
      · exact List.mem_append_left _ h

/-! ### The host's accesses through BAR 2 (R160, R342 to R344, R406, R419) -/

theorem bar2_linkDown {s : State} (down : s.host.linkUp = false) (pa : Nat) : (∀ n, exec (.hostBar2Read pa n) s = .next s) ∧
    (∀ b po, exec (.hostBar2Write pa b po) s = .next s) ∧ (∀ op w a b, exec (.hostAtomicop pa op w a b) s = .next s) ∧
    ∀ t b, exec (.hostLineOwnership pa t b) s = .next s := by
  have stop : (!s.host.linkUp) = true := by rw [down]; rfl
  refine ⟨fun n => congrArg Host.Outcome.next (if_pos stop), fun b po => congrArg Host.Outcome.next (if_pos stop),
    fun op w a b => congrArg Host.Outcome.next (if_pos ?_), fun t b => congrArg Host.Outcome.next (if_pos stop)⟩
  rw [stop, Bool.true_or]

theorem bar2Read_results (s : State) (pa n : Nat) (up : s.host.linkUp = true) :
    (s.spanExists pa n = false → exec (.hostBar2Read pa n) s = .next (s.unsupported pa)) ∧
    (s.spanExists pa n = true → s.locHeld (.mem pa none .home) n = false → s.poisoned pa n = false →
      let s1 := s.rekeyMem none pa n
      exec (.hostBar2Read pa n) s = .next
        { s1 with host := { s1.host with replies := s1.host.replies ++ [.data (s.viewMem none pa n)] } }) ∧
    (s.storage.tags = [] → s.rekeyMem none pa n = s) := by
  change (_ → execHostBar2Read pa n s = _) ∧ (_ → _ → _ → execHostBar2Read pa n s = _) ∧ _
  unfold execHostBar2Read
  rw [up]
  refine ⟨fun missing => ?_, fun exists_ free sound => ?_, fun plain => ?_⟩
  · rw [missing]; rfl
  · rw [exists_, free, sound]; rfl
  · unfold State.rekeyMem
    exact if_pos (by simp [plain])

theorem bar2Write_results (s : State) (pa : Nat) (b : List Byte) (up : s.host.linkUp = true)
    (there : s.spanExists pa b.length = true) (free : s.locHeld (.mem pa none .home) b.length = false) :
    exec (.hostBar2Write pa b false) s = .next (s.writeMem none .home pa b) ∧
    ∃ t, exec (.hostBar2Write pa b true) s = .next t ∧ (∀ l ∈ linesOf pa b.length, t.linePoisoned l = true) ∧
      t.storage.mem = s.storage.mem := by
  change execHostBar2Write pa b false s = _ ∧ ∃ t, execHostBar2Write pa b true s = _ ∧ _
  unfold execHostBar2Write
  rw [up, there, free]
  refine ⟨rfl, _, rfl, fun l hl => linePoisoned_of_listed ?_, ?_⟩
  · exact mem_poison_foldl (fun _ _ => 7) (fun _ _ => 0) (fun _ _ => 3) _ s (.inl hl)
  · exact (CleanedOnly.foldl (fun s l => cleanedOnly_poisonLine s 7 0 3 l) _ s).mem

theorem hostAtomic_results (s : State) (pa : Nat) (op : HostAtomic) (wide : Bool) (a b : DWord) :
    let n := if wide then 8 else 4
    let old := leNat (s.peek (.mem pa none .home) n)
    let s1 : State := { s with host := { s.host with replies := s.host.replies ++ [.old (BitVec.ofNat 64 old)] } }
    s.host.linkUp = true → s.host.atomic = none →
    (pa % n ≠ 0 ∨ s.spanExists pa n = false → exec (.hostAtomicop pa op wide a b) s = .next (s.unsupported pa)) ∧
    (pa % n = 0 → s.spanExists pa n = true → s.locHeld (.mem pa none .home) n = false → s.poisoned pa n = false →
      let s2 := s1.rekeyMem none pa n
      (hostAtomicNew op n old a.toNat b.toNat = none → exec (.hostAtomicop pa op wide a b) s = .next s2) ∧
      ∀ x, hostAtomicNew op n old a.toNat b.toNat = some x →
        (s.systemAtomic pa = true → exec (.hostAtomicop pa op wide a b) s = .next (s1.writeMem none .home pa (leBytes n x))) ∧
        (s.systemAtomic pa = false → exec (.hostAtomicop pa op wide a b) s = .next
          { s2 with host := { s2.host with atomic := some (pa, leBytes n x) } })) := by
  intro n old s1 up idle
  change (_ → execHostAtomicop pa op wide a b s = _) ∧ (_ → _ → _ → _ → (_ → execHostAtomicop pa op wide a b s = _) ∧
    ∀ x, _ → (_ → execHostAtomicop pa op wide a b s = _) ∧ (_ → execHostAtomicop pa op wide a b s = _))
  have ready : ¬(!s.host.linkUp || s.host.atomic.isSome) = true := by rw [up, idle]; exact Bool.false_ne_true
  unfold execHostAtomicop
  dsimp only
  rw [if_neg ready]
  refine ⟨fun bad => ?_, fun aligned there free sound => ?_⟩
  · rw [if_pos (by simpa using bad)]
  have good : ¬(pa % n ≠ 0 || !s.spanExists pa n) = true := by
    rw [decide_eq_false (not_not.mpr aligned), there]
    exact Bool.false_ne_true
  rw [if_neg good, if_neg (Bool.eq_false_iff.mp free), if_neg (Bool.eq_false_iff.mp sound)]
  refine ⟨fun same => ?_, fun x new => ⟨fun atomic => ?_, fun plain => ?_⟩⟩
  · rw [same]; rfl
  · rw [new]; exact congrArg Host.Outcome.next (if_pos atomic)
  · rw [new]; exact congrArg Host.Outcome.next (if_neg (Bool.eq_false_iff.mp plain))

theorem lineOwnership_results (s : State) (line : Nat) (data : List Byte) (up : s.host.linkUp = true) :
    (s.systemAtomic (128 * line) = true → s.spanExists (128 * line) 128 = true →
      s.locHeld (.mem (128 * line) none .home) 128 = false → exec (.hostLineOwnership line true data) s = .next
        { s with storage := { s.storage with hostOwned := s.storage.hostOwned ++ [line] } }) ∧
    (line ∈ s.storage.hostOwned →
      let s1 : State := { s with storage := { s.storage with hostOwned := s.storage.hostOwned.filter fun l => l ≠ line } }
      exec (.hostLineOwnership line false data) s = .next
        (if data.length = 128 then s1.writeMem none .home (128 * line) data else s1)) := by
  change (_ → _ → _ → execHostLineOwnership line true data s = _) ∧ (_ → execHostLineOwnership line false data s = _)
  unfold execHostLineOwnership
  dsimp only
  rw [up]
  refine ⟨fun atomic there free => ?_, fun owned => ?_⟩
  · rw [atomic, there, free]; rfl
  · rw [List.contains_iff_mem.mpr owned]; rfl

/-! ### The link down and up (R398, R418, R419) -/

theorem stopStream_recordsOnly (s : State) (n : Nat) (err report : BitVec 8) (info : DWord) :
    RecordsOnly (s.modStream n fun x => { x with running := false, wait := .none, err := err, report := report, info := info })
      (s.stopStream n err report info) :=
  .trans (b := (s.modStream n _).raiseIrq 4) ⟨_, _, _, rfl⟩ (recordsOnly_raiseMsix _ _)

/-- A publication that ends leaves storage, the teams and the link, and is a FetchAdd no more. -/
theorem endFetchAdd_parts (s : State) (f : FetchAdd) : (s.endFetchAdd f).storage = s.storage ∧ (s.endFetchAdd f).teams = s.teams ∧
    (s.endFetchAdd f).host.linkUp = s.host.linkUp ∧
    (s.endFetchAdd f).host.fetchAdds = s.host.fetchAdds.filter fun x => x.id ≠ f.id := by
  unfold State.endFetchAdd
  dsimp only
  split
  · exact ⟨rfl, rfl, rfl, rfl⟩
  rename_i n _
  split
  · split
    · have stopped := stopStream_recordsOnly ((s.dropFetchAdd f.id).dropAnswers n) n 5 0 ((s.dropFetchAdd f.id).stream n).pc
      have same := dropAnswers_rest (s.dropFetchAdd f.id) n
      rw [stopped.storage, stopped.teams, stopped.linkUp, stopped.fetchAdds]
      exact ⟨(congrArg State.storage same :), (congrArg State.teams same :), (congrArg (fun s => s.host.linkUp) same :),
        (congrArg (fun s => s.host.fetchAdds) same :)⟩
    · exact ⟨rfl, rfl, rfl, rfl⟩
  · exact ⟨rfl, rfl, rfl, rfl⟩

theorem failFetchAdd_parts (s : State) (f : FetchAdd) : (s.failFetchAdd f).storage = s.storage ∧ (s.failFetchAdd f).teams = s.teams ∧
    (s.failFetchAdd f).host.linkUp = s.host.linkUp ∧
    (s.failFetchAdd f).host.fetchAdds = s.host.fetchAdds.filter fun x => x.id ≠ f.id := by
  unfold State.failFetchAdd
  split
  · exact endFetchAdd_parts (s.countVersion f.pa).2 f
  · exact endFetchAdd_parts s f

theorem foldl_failFetchAdd (l : List FetchAdd) (s : State) : let t := l.foldl State.failFetchAdd s
    t.storage = s.storage ∧ t.teams = s.teams ∧ t.host.linkUp = s.host.linkUp ∧
      ∀ f ∈ t.host.fetchAdds, f ∈ s.host.fetchAdds ∧ f ∉ l := by
  induction l generalizing s with
  | nil => exact ⟨rfl, rfl, rfl, fun f hf => ⟨hf, List.not_mem_nil⟩⟩
  | cons x l ih =>
    obtain ⟨storage1, teams1, link1, adds1⟩ := failFetchAdd_parts s x
    obtain ⟨storage, teams, link, adds⟩ := ih (s.failFetchAdd x)
    refine ⟨storage.trans storage1, teams.trans teams1, link.trans link1, fun f hf => ?_⟩
    obtain ⟨member, later⟩ := adds f hf
    rw [adds1, List.mem_filter] at member
    exact ⟨member.1, List.not_mem_cons_of_ne_of_not_mem (by rintro rfl; simp at member) later⟩

theorem hostLinkDown_results (s : State) (up : s.host.linkUp = true) : ∃ t, exec .hostLinkDown s = .next t ∧ t.host.linkUp = false ∧
    t.storage.hostOwned = [] ∧ t.host.fetchAdds = [] ∧ t.teams = s.teams ∧ ∀ l ∈ s.storage.hostOwned, t.linePoisoned l = true := by
  let s0 : State := { s with host := { s.host with linkUp := false } }
  let s1 := s0.report 2 7 0 0 1 s.openAddr
  let s2 := s1.host.fetchAdds.foldl State.failFetchAdd s1
  let s3 := s2.storage.hostOwned.foldl (fun s l => s.poisonLine 3 (homeSlice (128 * l)) (s.freeAt 7 l) l) s2
  have recorded : RecordsOnly s0 s1 := recordsOnly_report _ _ _ _ _ _ _
  obtain ⟨storage, teams, link, adds⟩ := foldl_failFetchAdd s1.host.fetchAdds s1
  have poisoned : CleanedOnly s2 s3 := .foldl (fun s l => cleanedOnly_poisonLine s _ _ _ l) _ s2
  refine ⟨{ s3 with storage := { s3.storage with hostOwned := [] } }, ?_, ?_, rfl, ?_, ?_, fun l hl => ?_⟩
  · exact congrArg Host.Outcome.next (if_neg (by rw [up]; exact Bool.false_ne_true))
  · exact poisoned.linkUp.trans (link.trans recorded.linkUp)
  · exact poisoned.fetchAdds.trans (List.eq_nil_iff_forall_not_mem.mpr fun f hf => (adds f hf).2 (adds f hf).1)
  · exact poisoned.teams.trans (teams.trans recorded.teams)
  · have owned : l ∈ s2.storage.hostOwned := by
      rw [storage, recorded.storage]
      exact hl
    have listed : l ∈ s3.storage.poison.map Prod.fst :=
      mem_poison_foldl (fun _ _ => 3) (fun _ l => homeSlice (128 * l)) (fun s l => s.freeAt 7 l) _ s2 (.inl owned)
    exact linePoisoned_of_listed (s := { s3 with storage := { s3.storage with hostOwned := [] } }) listed

theorem completionTimeout_results (s : State) (q : Request) (one : s.fabric.requests = [q]) :
    (q.dev = none → q.deadline ≤ s.devclk.toNat → exec .hostCompletionTimeout s = .next
      ((s.report 5 7 0 0 2 (BitVec.ofNat 64 q.addr)).failRequest q (failCause q.use.va none 0 false) none)) ∧
    (q.dev.isSome = true ∨ s.devclk.toNat < q.deadline → exec .hostCompletionTimeout s = .next s) := by
  change (_ → _ → execHostCompletionTimeout s = _) ∧ (_ → execHostCompletionTimeout s = _)
  unfold execHostCompletionTimeout
  rw [one]
  refine ⟨fun host late => ?_, fun stays => ?_⟩
  · have overdue : q.hostOverdue s.devclk.toNat = true := by simp [Request.hostOverdue, host, late]
    rw [List.filter_cons_of_pos overdue]
    rfl
  · have due : ¬q.hostOverdue s.devclk.toNat = true := by
      rw [Request.hostOverdue, Bool.and_eq_true, Option.isNone_iff_eq_none, decide_eq_true_eq]
      rintro ⟨host, late⟩
      rcases stays with h | h
      · simp [host] at h
      · omega
    rw [List.filter_cons_of_neg due]
    rfl

/-- Settles O13: the host's accesses by what stands in their way; the link's fall ends its FetchAdds and poisons the lines that the
host owns. -/
theorem hostLinkResults : Obligations.HostLinkResults := by
  refine ⟨fun s pa down => bar2_linkDown down pa, bar2Read_results, bar2Write_results, hostAtomic_results, lineOwnership_results,
    fun s => ⟨fun up => ⟨?_, hostLinkDown_results s up⟩, fun down => ⟨?_, fun fitted => ?_, fun absent => ?_⟩,
      completionTimeout_results s⟩⟩
  · exact congrArg Host.Outcome.next (if_pos (by rw [up]; rfl))
  · exact congrArg Host.Outcome.next (if_pos (by rw [down]; rfl))
  · exact congrArg Host.Outcome.next (if_neg (by rw [down, fitted]; exact Bool.false_ne_true))
  · exact congrArg Host.Outcome.next (if_pos (by rw [down, absent]; rfl))

end Sys2Proof.Machine
end

section
namespace Sys2Proof.Machine

/-! ### Publications (R140, R291, R418) -/

/-- A part of the state that no step of a fold changes is as it was. -/
theorem foldl_keeps {α β : Type} (part : State → β) {f : State → α → State} (hf : ∀ s x, part (f s x) = part s) (l : List α)
    (s : State) : part (l.foldl f s) = part s := by
  induction l generalizing s with
  | nil => rfl
  | cons x l ih => exact (ih _).trans (hf s x)

theorem retag_fetchAdds (s : State) (key : KeyTag) (line : Nat) : (s.retag key line).host.fetchAdds = s.host.fetchAdds := by
  unfold State.retag
  split
  · rfl
  dsimp only
  split
  · exact (cleanedOnly_writeBackLine s line).fetchAdds
  · rfl

theorem rekeyMem_fetchAdds (s : State) (key : KeyTag) (pa n : Nat) : (s.rekeyMem key pa n).host.fetchAdds = s.host.fetchAdds := by
  unfold State.rekeyMem
  split
  · rfl
  refine foldl_keeps (fun s => s.host.fetchAdds) (fun s x => ?_) _ s
  split
  · exact retag_fetchAdds s key x
  · rfl

theorem rekeyWalks_fetchAdds (s : State) (ctx : Nat) (l : List DWord) : (s.rekeyWalks ctx l).host.fetchAdds = s.host.fetchAdds := by
  unfold State.rekeyWalks
  split
  · rfl
  refine foldl_keeps (fun s => s.host.fetchAdds) (fun s va => ?_) _ s
  unfold State.rekeyWalk
  split
  · exact foldl_keeps (fun s => s.host.fetchAdds) (fun s a => rekeyMem_fetchAdds s none a 8) _ s
  · rfl

theorem noteSites_fetchAdds (s : State) (k : Here) (glob : Bool) (l : List Site) :
    (s.noteSites k glob l).host.fetchAdds = s.host.fetchAdds := by
  unfold State.noteSites
  split
  · exact rekeyWalks_fetchAdds _ _ _
  · rfl

/-- The issue of an instruction leaves every group's store queue, and so the window writes that wait there. -/
theorem teamWindowWrites_issued (s : State) (i : Instr) (k : Here) (t : Nat) :
    (s.issued i k).teamWindowWrites t = s.teamWindowWrites t := by
  let f (h : Group) : Group := if h.team = k.team.uid && h.gid = k.grp.gid then
    h.retire k.sp.id i.length (k.team.halted && !k.team.handler) else h
  have team (h : Group) : (f h).team = h.team := by
    unfold f
    split <;> rfl
  have queue (h : Group) : (f h).queue = h.queue := by
    unfold f
    split <;> rfl
  have groups : (s.issued i k).groups = s.groups.map f := rfl
  have requests : (s.issued i k).fabric = s.fabric := rfl
  rw [State.teamWindowWrites, groups, requests, List.filter_map, List.flatMap_map]
  simp only [Function.comp_def, team, queue]
  rfl

theorem mem_teamWindowWrites (t : Nat) (s : State) (e : Nat) : e ∈ s.teamWindowWrites t ↔
    (∃ h ∈ s.groups, h.team = t ∧ ∃ q ∈ h.queue, q.uid = e ∧ q.loc.isWindow = true) ∨
    ∃ r ∈ s.fabric.requests, ∃ g p va pc, r.use = .store t g p e true va pc := by
  have asked (r : Request) : (match r.use with
      | .store t' _ _ e true _ _ => if t' = t then some e else none
      | _ => none) = some e ↔ ∃ g p va pc, r.use = .store t g p e true va pc := by
    cases r.use with
    | store t' g p e' w va pc =>
      cases w with
      | false => simp
      | true =>
        by_cases ht : t' = t
        · simp [ht]
        · simp [ht]
    | _ => simp
  rw [State.teamWindowWrites, List.mem_append, List.mem_filterMap]
  refine or_congr ?_ (exists_congr fun r => and_congr_right fun _ => asked r)
  simp only [List.mem_flatMap, List.mem_filter, List.mem_map, decide_eq_true_eq]
  constructor
  · rintro ⟨h, ⟨hh, ht⟩, q, ⟨hq, hw⟩, he⟩
    exact ⟨h, hh, ht, q, hq, he, hw⟩
  · rintro ⟨h, hh, ht, q, hq, he, hw⟩
    exact ⟨h, ⟨hh, ht⟩, q, ⟨hq, hw⟩, he⟩

theorem ready_pub {l : Long} {s : State} {k : Here} (e : s.ready (.pub l) = some k) : k.f = l := by
  obtain ⟨lp, fm, p, -, -, form, -⟩ := ready_spec e
  exact (Prod.mk.inj (Prod.mk.inj (Option.some.inj form)).2).1.symm

/-- The result that pub leaves, which waits for its FetchAdd. -/
def pubResult (s : State) (k : Here) : Result :=
  { uid := s.uid, owners := [k.sp.id], window := k.f.la.toNat, dests := [.g k.f.d.toNat], kind := .fixed [], pend := [],
    waits := [s.uid], raw := [], fail := none, acq := none, rel := none, handlerPc := k.handlerPc, done := false }

theorem group?_modGroup_ne (s : State) {t g a b : Nat} (f : Group → Group) (hf : ∀ h, (f h).team = h.team ∧ (f h).gid = h.gid)
    (other : (a, b) ≠ (t, g)) : (s.modGroup t g f).group? a b = s.group? a b := by
  rw [group?_modGroup s t g a b f hf]
  cases found : s.group? a b with
  | none => rfl
  | some h =>
    obtain ⟨team, gid⟩ := group?_key found
    rw [Option.map_some, if_neg]
    rw [team, gid, Bool.and_eq_true, decide_eq_true_eq, decide_eq_true_eq]
    exact fun same => other (Prod.ext same.1 same.2)

theorem pub_sends {l : Long} {s : State} {k : Here} {e : Site} (ready : s.ready (.pub l) = some k)
    (probed : (s.issued (.pub l) k).probes k true .write 8 (fun loc => match loc with
      | .host _ => none
      | _ => some 0x18) [(0, 8, k.grp.greg l.a.toNat)] = .ok [e])
    (free : (s.issued (.pub l) k).sitesWait k [e] = false) (up : s.host.linkUp = true) (sound : k.team.lostWrites = false) :
    let s0 := (s.issued (.pub l) k).noteSites k true [e]
    ∃ t h f r, exec (.pub l) s = .next t ∧ t.host.fetchAdds = s.host.fetchAdds ++ [f] ∧ f.pa = e.loc.addr ∧
      f.covers = s.teamWindowWrites k.team.uid ∧ f.stream = none ∧ f.id = s.uid ∧ f.team = k.team.uid ∧ f.grp = k.grp.gid ∧
      f.result = r.uid ∧ Claims.SameMemory s0 t ∧ Claims.SamePlatform s0 t k ∧
      t.group? k.team.uid k.grp.gid = some h ∧ h = { k.issued (.pub l) with results := (k.issued (.pub l)).results ++ [r] } ∧
      r.dests = [.g l.d.toNat] ∧ r.waits = [f.id] ∧ r.pend = [] ∧ r.owners = [k.sp.id] ∧ r.window = l.la.toNat := by
  have fields := ready_pub ready
  intro s0
  let f : FetchAdd :=
    { id := s.uid, va := k.grp.greg k.f.a.toNat, pa := e.loc.addr, covers := s.teamWindowWrites k.team.uid,
      team := k.team.uid, grp := k.grp.gid, result := s.uid, stream := none }
  let t := ({ s0.fresh with host := { s0.host with fetchAdds := s0.host.fetchAdds ++ [f] } } : State).addResult k s.uid
    [.g k.f.d.toNat] [] [s.uid] none
  have body : pubBody k (s.issued (.pub l) k) = .next t := by
    have goes : ¬(!(s.issued (.pub l) k).host.linkUp || k.team.lostWrites) = true := by
      rw [show (s.issued (.pub l) k).host.linkUp = true from up, sound]
      exact Bool.false_ne_true
    unfold pubBody
    dsimp only
    split
    · rename_i found
      cases found.symm.trans (fields ▸ probed)
    · rename_i found
      cases found.symm.trans (fields ▸ probed)
    · rename_i found
      cases found.symm.trans (fields ▸ probed)
      rw [if_neg (Bool.eq_false_iff.mp free), if_neg goes, teamWindowWrites_issued]
      rfl
  have mine : s0.group? k.team.uid k.grp.gid = some (k.issued (.pub l)) := by
    rw [State.group?, noteSites_groups]
    exact group?_issued ready
  have adds : s0.host.fetchAdds = s.host.fetchAdds := noteSites_fetchAdds _ _ _ _
  refine ⟨t, _, f, pubResult s k, ?_, ?_, rfl, rfl, rfl, rfl, rfl, rfl, rfl, ⟨rfl, rfl, rfl⟩,
    ⟨fun a b other => ?_, rfl, rfl, rfl, rfl, rfl⟩, ?_, rfl, ?_, rfl, rfl, rfl, ?_⟩
  · change issue (.pub l) s pubBody = _
    rw [issue_ready pubBody ready, body]
  · exact congrArg (· ++ [f]) adds
  · exact group?_modGroup_ne _ _ (fun _ => ⟨rfl, rfl⟩) other
  · exact group?_modGroup_same _ ⟨rfl, rfl⟩ mine
  · rw [← fields]; rfl
  · rw [← fields]; rfl

/-! ### FETCHADD_COMPLETE -/

theorem raiseMsix_hostParts (s : State) (v : Nat) : (s.raiseMsix v).host.mem = s.host.mem ∧
    (s.raiseMsix v).host.fetchAdds = s.host.fetchAdds := by
  unfold State.raiseMsix
  split <;> exact ⟨rfl, rfl⟩

theorem goesOn_parts (s : State) (n : Nat) (pc : DWord) (irq : Bool) : (s.goesOn n pc irq).host.mem = s.host.mem ∧
    (s.goesOn n pc irq).host.fetchAdds = s.host.fetchAdds ∧ (s.goesOn n pc irq).storage = s.storage ∧
    (s.goesOn n pc irq).teams = s.teams := by
  have teams := (congrArg State.teams (dropAnswers_rest s n) :)
  unfold State.goesOn
  dsimp only
  split
  · obtain ⟨mem, adds⟩ := raiseMsix_hostParts ((s.dropAnswers n).modStream n fun x => { x with pc := pc, wait := .none }) n
    rw [mem, adds, raiseMsix_storage, raiseMsix_teams]
    exact ⟨by simp, by simp, by simp, teams⟩
  · exact ⟨by simp, by simp, by simp, teams⟩

theorem haltStream_parts (s : State) (n : Nat) : (s.haltStream n).host.mem = s.host.mem ∧
    (s.haltStream n).host.fetchAdds = s.host.fetchAdds ∧ (s.haltStream n).teams = s.teams := by
  have teams := (congrArg State.teams (dropAnswers_rest s n) :)
  unfold State.haltStream State.stopStream
  dsimp only
  obtain ⟨mem, adds⟩ := raiseMsix_hostParts _ n
  rw [mem, adds, raiseMsix_teams]
  exact ⟨by simp, by simp, teams⟩

theorem advance_parts (s : State) (n : Nat) (pc : DWord) (irq : Bool) : (s.advance n pc irq).host.mem = s.host.mem ∧
    (s.advance n pc irq).host.fetchAdds = s.host.fetchAdds ∧ (s.advance n pc irq).storage = s.storage ∧
    (s.advance n pc irq).teams = s.teams := by
  obtain ⟨mem, adds, storage, teams⟩ := goesOn_parts s n pc irq
  have cases : s.advance n pc irq =
    if (s.goesOn n pc irq).draining n then (s.goesOn n pc irq).haltStream n else s.goesOn n pc irq := rfl
  rw [cases]
  split
  · obtain ⟨mem2, adds2, teams2⟩ := haltStream_parts (s.goesOn n pc irq) n
    exact ⟨mem2.trans mem, adds2.trans adds, by rw [haltStream_storage, storage], teams2.trans teams⟩
  · exact ⟨mem, adds, storage, teams⟩

/-- R140, R343, R418: when the writes that a FetchAdd covers have been sent. -/
theorem coveredSent_iff (s : State) (f : FetchAdd) : s.coveredSent f = true ↔
    (∀ h ∈ s.groups, ∀ q ∈ h.queue, q.uid ∉ f.covers) ∧
      ∀ r ∈ s.fabric.requests, ∀ t g p e va pc, r.use = .store t g p e true va pc → e ∉ f.covers := by
  have asked (r : Request) : (match r.use with
      | .store _ _ _ e true _ _ => f.covers.contains e
      | _ => false) = true ↔ ∃ t g p e va pc, r.use = .store t g p e true va pc ∧ e ∈ f.covers := by
    cases r.use with
    | store t g p e w va pc => cases w <;> simp
    | _ => simp
  rw [State.coveredSent, Bool.and_eq_true, Bool.not_eq_true', Bool.not_eq_true', List.any_eq_false, State.coveredAsked,
    List.any_eq_false]
  refine and_congr (forall₂_congr fun h _ => by simp) (forall₂_congr fun r _ => ?_)
  refine (not_congr (asked r)).trans ?_
  simp only [not_exists, not_and]

/-- A FetchAdd that may be made: the add at the host, then the answer to pub's result or to the stream. -/
theorem fetchaddComplete_eq {id : Nat} {s : State} {f : FetchAdd} (found : s.host.fetchAdds.find? (fun a => a.id = id) = some f)
    (up : s.host.linkUp = true) (sent : s.coveredSent f = true) :
    let v := (leNat (s.hostRead f.pa 8) + 1) % 2 ^ 64
    let s1 := (s.dropFetchAdd id).hostWrite f.pa (leBytes 8 v)
    exec (.fetchaddComplete id) s = .next (match f.stream with
      | none => s1.modResult f.team f.grp f.result fun r =>
          { r with waits := r.waits.filter (· ≠ id), kind := .fixed (r.dests.filterMap fun d => match d with
            | .g n => some (.g n (BitVec.ofNat 64 v))
            | _ => none) }
      | some n => match (s.stream n).wait with
        | .publish k irq => if k = id then s1.advance n ((s.stream n).pc + 32) irq else s1
        | _ => s1) := by
  intro v s1
  change execFetchaddComplete id s = _
  unfold execFetchaddComplete
  rw [found]
  exact congrArg Host.Outcome.next (if_neg (by rw [up, sent]; exact Bool.false_ne_true))

theorem fetchaddComplete_waits {id : Nat} {s : State} {f : FetchAdd} (found : s.host.fetchAdds.find? (fun a => a.id = id) = some f)
    (waits : ¬s.coveredSent f = true) : exec (.fetchaddComplete id) s = .next s := by
  change execFetchaddComplete id s = _
  unfold execFetchaddComplete
  rw [found]
  exact congrArg Host.Outcome.next (if_pos (by rw [Bool.eq_false_iff.mpr waits, Bool.not_false, Bool.or_true]))

/-- `t` is `s` with the FetchAdd `id` made: the counter at `pa` holds `v`. -/
structure Counted (id pa v : Nat) (s t : State) : Prop where
  mem : t.host.mem = SMap.setRun s.host.mem pa (leBytes 8 v)
  fetchAdds : t.host.fetchAdds = s.host.fetchAdds.filter fun a => a.id ≠ id
  storage : t.storage = s.storage
  teams : t.teams = s.teams

/-- What a FetchAdd that is made leaves of memory, and what it adds to the counter. -/
theorem Counted.results {id pa v : Nat} {s t : State} (h : Counted id pa v s t) (wf : SMap.wf s.host.mem = true) :
    t.hostRead pa 8 = leBytes 8 v ∧ (∀ a, a < pa ∨ pa + 8 ≤ a → SMap.get t.host.mem a = SMap.get s.host.mem a) ∧
      t.host.fetchAdds = s.host.fetchAdds.filter (fun a => a.id ≠ id) ∧ t.storage = s.storage ∧ t.teams = s.teams := by
  have read := getRun_setRun (leBytes 8 v) s.host.mem pa wf
  rw [length_leBytes] at read
  refine ⟨?_, fun a out => ?_, h.fetchAdds, h.storage, h.teams⟩
  · rw [State.hostRead, h.mem, read]
  · rw [h.mem, SMap.get_setRun _ _ _ _ wf, length_leBytes, if_neg (by omega)]

theorem counted_advance {id pa v : Nat} {s t : State} (h : Counted id pa v s t) (n : Nat) (pc : DWord) (irq : Bool) :
    Counted id pa v s (t.advance n pc irq) := by
  obtain ⟨mem, adds, storage, teams⟩ := advance_parts t n pc irq
  exact ⟨mem.trans h.mem, adds.trans h.fetchAdds, storage.trans h.storage, teams.trans h.teams⟩

theorem fetchaddComplete_sent {id : Nat} {s : State} {f : FetchAdd} (found : s.host.fetchAdds.find? (fun a => a.id = id) = some f)
    (up : s.host.linkUp = true) (sent : s.coveredSent f = true) :
    let v := (leNat (s.hostRead f.pa 8) + 1) % 2 ^ 64
    ∃ t, exec (.fetchaddComplete id) s = .next t ∧ Counted id f.pa v s t ∧
      (f.stream = none → t.streams = s.streams ∧
        (∀ h, s.group? f.team f.grp = some h → ∃ h', t.group? f.team f.grp = some h' ∧ { h' with results := h.results } = h ∧
          h'.results = h.results.map fun r => if r.uid = f.result then
            { r with waits := r.waits.filter (· ≠ id), kind := .fixed (r.dests.filterMap fun d => match d with
              | .g n => some (.g n (BitVec.ofNat 64 v))
              | _ => none) } else r)) ∧
      (∀ n irq, f.stream = some n → (s.stream n).wait = .publish id irq → n < s.streams.length → s.draining n = false →
        t.stream n = { s.stream n with pc := (s.stream n).pc + 32, wait := .none } ∧ t.groups = s.groups ∧
          t.host.msix = s.host.msix ++ if irq then [n] else []) := by
  intro v
  let s1 := (s.dropFetchAdd id).hostWrite f.pa (leBytes 8 v)
  have counted : Counted id f.pa v s s1 := ⟨rfl, rfl, rfl, rfl⟩
  rw [fetchaddComplete_eq found up sent]
  cases stream : f.stream with
  | none =>
    refine ⟨_, rfl, ⟨rfl, rfl, rfl, rfl⟩, fun _ => ⟨rfl, fun h hg => ⟨_, group?_modGroup_same _ ⟨rfl, rfl⟩ hg, rfl, rfl⟩⟩,
      fun n irq h => nomatch h⟩
  | some n =>
    refine ⟨_, rfl, ?_, (fun h => nomatch h), fun m irq same wait here active => ?_⟩
    · dsimp only
      split
      · split
        · exact counted_advance counted _ _ _
        · exact counted
      · exact counted
    · cases same
      dsimp only
      rw [wait]
      dsimp only
      rw [if_pos rfl, advance_eq (s := s1) here, if_neg (Bool.eq_false_iff.mp (show s1.draining n = false from active))]
      refine ⟨goesOn_stream_same (s := s1) here, goesOn_groups (s := s1), ?_⟩
      rw [goesOn_msix, show s1.host.linkUp = true from up, Bool.and_true]
      rfl

/-- Settles O36: pub's FetchAdd and the result that waits for it; what it covers; the add, with its answer to the result or to the
stream. -/
theorem publicationResults : Obligations.PublicationResults := by
  refine ⟨fun l s k e ready probed free up sound => pub_sends ready probed free up sound, mem_teamWindowWrites,
    fun id s f found up => ⟨fun waits => ?_, fun all wf => ?_⟩⟩
  · exact fetchaddComplete_waits found (mt (coveredSent_iff s f).mp waits)
  · obtain ⟨t, runs, counted, result, stream⟩ := fetchaddComplete_sent found up ((coveredSent_iff s f).mpr all)
    obtain ⟨read, others, adds, storage, teams⟩ := counted.results wf
    exact ⟨t, runs, read, others, adds, storage, teams, result, stream⟩

end Sys2Proof.Machine
end

section
/-!
Tiles of a copy (R131 to R133). The refutation turns on two copies in flight with one number: the model adds the saturations
of the tile it formed to both, and the statement's `fun c => { c with sats := c.sats + (s.formTile c j).sats … }` names by `c`
the copy being updated, so that it adds to each copy the saturations of that copy's own tile.
-/
namespace Sys2Proof.Machine

/-- A team whose scratchpad's first byte holds the E2M1 code of 1. -/
def oneElementTeam : Team :=
  {
    uid := 1, ctx := 0, grid := 0, spawn := false, teamId := 0, core := 0, partword := 0x80102, timer := 0, timerHeld := false,
    trapCause := 0, halted := false, haltAge := 0, handler := false, ended := false, scratch := [(0, 2)], acc := [], badWords := [],
    barWords := [], lostWrites := false, convs := [] }

/-- A flat copy of no bytes into scratchpad, its first tile with a landing slot. -/
def emptyCopy : Copy :=
  {
    uid := 9, ctx := 0, grid := 0, team := 1, core := 0, unit := 0, shape := 3, srcScr := true, dstScr := true, src := 0, dst := 0,
    srcBase := (1, 0), dstBase := (1, 0), srcDesc := [], dstDesc := [], srcOrg := [], dstOrg := [], count := 0, conv := 0,
    stream := 0, bar := (1, 0x8000), barAddr := 0, barCore := 0,
    tiles := [⟨.granted, 0, [], [], [], []⟩, ⟨.idle, 0, [], [], [], []⟩], sats := 0, satDone := false, stalled := false }

/-- A `.t2b` copy with the same number, which quantises 32 E2M1 elements with scale code 0: that of 1 saturates. -/
def saturatingCopy : Copy :=
  { emptyCopy with shape := 1, dstScr := false, dstDesc := [0, 0, 0, 0x900000000], conv := 0x200 }

def sharedNumber : State := { State.reset with teams := [oneElementTeam], copies := [emptyCopy, saturatingCopy] }

/-- The saturations that the copies in flight have counted after a step. -/
def satsAfter : Host.Outcome State Fault Refusal → List Nat
  | .next s => s.copies.map Copy.sats
  | _ => []

/-- The model counts the formed tile's saturations, of which there are none, for both copies. -/
theorem satsAfter_tileLanding : satsAfter (exec (.tileLanding 9 0) sharedNumber) = [0, 0] := by decide +kernel

/-- Refutes O39: a flat copy of no bytes lands its first tile while another copy in flight has the same number; the statement's
next state counts for the other copy a saturation of that copy's own first tile, and the model counts none. -/
theorem not_copyTileResults : ¬ Obligations.CopyTileResults := by
  unfold Obligations.CopyTileResults
  rintro ⟨-, -, tiles⟩
  obtain ⟨first, -⟩ := tiles 9 0 sharedNumber emptyCopy ⟨.granted, 0, [], [], [], []⟩ rfl rfl rfl
  obtain ⟨-, atOnce⟩ := first [] [] rfl (.inl rfl) rfl rfl rfl
  have same := (congrArg satsAfter (atOnce rfl)).symm.trans satsAfter_tileLanding
  exact absurd same (by decide +kernel)

end Sys2Proof.Machine
end

section
/-!
Consistency: the performing of stores and of the accesses of long-latency instructions, fences and drains: the lemmas of the family
and the statements that they settle.
-/
namespace Sys2Proof.Machine

/-! ### Runs of bytes and the lines that they touch -/

theorem getRun_add {w : Nat} (m : SMap w) (k a b : Nat) :
    SMap.getRun m k (a + b) = SMap.getRun m k a ++ SMap.getRun m (k + a) b := by
  simp [SMap.getRun, List.range_add, Nat.add_assoc]

@[simp] theorem length_getRun {w : Nat} (m : SMap w) (k n : Nat) : (SMap.getRun m k n).length = n := by
  simp [SMap.getRun]

theorem getRun_congr {w : Nat} {m m' : SMap w} {k n : Nat} (h : ∀ j, k ≤ j → j < k + n → SMap.get m' j = SMap.get m j) :
    SMap.getRun m' k n = SMap.getRun m k n :=
  List.map_congr_left fun i hi => h (k + i) (by omega) (by have := List.mem_range.mp hi; omega)

theorem getRun_drop_take {w : Nat} (m : SMap w) (k : Nat) {r n size : Nat} (h : r + n ≤ size) :
    ((SMap.getRun m k size).drop r).take n = SMap.getRun m (k + r) n := by
  obtain ⟨rest, rfl⟩ := Nat.exists_eq_add_of_le h
  rw [getRun_add, getRun_add, List.append_assoc, List.drop_left' (by simp), List.take_left' (by simp)]

theorem flatMap_getRun_lines (m : SMap 8) (first count : Nat) :
    ((List.range count).flatMap fun i => SMap.getRun m (128 * (first + i)) 128) = SMap.getRun m (128 * first) (128 * count) := by
  induction count with
  | zero => rfl
  | succ count ih =>
    rw [List.range_succ, List.flatMap_append, ih, Nat.mul_succ, getRun_add]
    simp [Nat.mul_add]

/-- The lines of a range of bytes are those in which one of the bytes lies. -/
theorem mem_linesOf {pa n line : Nat} : line ∈ linesOf pa n ↔ 0 < n ∧ pa / 128 ≤ line ∧ line ≤ (pa + n - 1) / 128 := by
  unfold linesOf
  split
  · simp; omega
  · simp only [List.mem_map, List.mem_range]
    constructor
    · rintro ⟨i, hi, rfl⟩
      omega
    · rintro ⟨pos, low, high⟩
      exact ⟨line - pa / 128, by omega, by omega⟩

/-! ### Device memory under a key (R112) -/

section
variable {s t : State}

theorem viewLine_of_tag {key : KeyTag} {line : Nat} (tag : s.lineTag line = key) :
    s.viewLine key line = SMap.getRun s.storage.mem (128 * line) 128 := if_pos tag

theorem lineTag_of_no_tags (untagged : s.storage.tags = []) (line : Nat) : s.lineTag line = none := by
  simp [State.lineTag, untagged]

/-- One byte is read from its line. -/
theorem viewMem_one (s : State) (key : KeyTag) (a : Nat) :
    s.viewMem key a 1 = ((s.viewLine key (a / 128)).drop (a % 128)).take 1 := by
  unfold State.viewMem
  split
  · rename_i plain
    obtain ⟨untagged, rfl⟩ : s.storage.tags = [] ∧ key = none := by simpa using plain
    rw [viewLine_of_tag (lineTag_of_no_tags untagged _), getRun_drop_take _ _ (by omega : a % 128 + 1 ≤ 128), Nat.div_add_mod]
  · rw [show (a + 1 + 127) / 128 - a / 128 = 1 by omega]
    simp

/-- Lines held under the key of an access are read as they stand. -/
theorem viewMem_of_tags {key : KeyTag} {pa n : Nat} (tags : ∀ line ∈ linesOf pa n, s.lineTag line = key) :
    s.viewMem key pa n = SMap.getRun s.storage.mem pa n := by
  unfold State.viewMem
  split
  · rfl
  rcases Nat.eq_zero_or_pos n with rfl | pos
  · simp [SMap.getRun]
  have lines : ((List.range ((pa + n + 127) / 128 - pa / 128)).flatMap fun i => s.viewLine key (pa / 128 + i)) =
      SMap.getRun s.storage.mem (128 * (pa / 128)) (128 * ((pa + n + 127) / 128 - pa / 128)) := by
    rw [← flatMap_getRun_lines]
    refine List.flatMap_congr fun i hi => viewLine_of_tag (tags _ (mem_linesOf.mpr ?_))
    have := List.mem_range.mp hi
    omega
  rw [lines, getRun_drop_take _ _ (by omega), Nat.div_add_mod]

/-- A line whose tag and stored bytes are as they were reads as it did, under every key. -/
theorem viewLine_of_same_line {line : Nat} (tag : t.lineTag line = s.lineTag line)
    (bytes : SMap.getRun t.storage.mem (128 * line) 128 = SMap.getRun s.storage.mem (128 * line) 128) (ctxs : t.ctxs = s.ctxs)
    (key : KeyTag) : t.viewLine key line = s.viewLine key line := by
  simp only [State.viewLine, State.openLine, State.sealLine, State.keyPair, State.ctx?, tag, bytes, ctxs]

/-- Memory, its tags and the contexts' keys are all that a read under a key looks at. -/
theorem viewLine_congr (mem : t.storage.mem = s.storage.mem) (tags : t.storage.tags = s.storage.tags) (ctxs : t.ctxs = s.ctxs)
    (key : KeyTag) (line : Nat) : t.viewLine key line = s.viewLine key line :=
  viewLine_of_same_line (by rw [State.lineTag, State.lineTag, tags]) (by rw [mem]) ctxs key

theorem viewMem_congr (mem : t.storage.mem = s.storage.mem) (tags : t.storage.tags = s.storage.tags) (ctxs : t.ctxs = s.ctxs)
    (key : KeyTag) (pa n : Nat) : t.viewMem key pa n = s.viewMem key pa n := by
  simp only [State.viewMem, viewLine_congr mem tags ctxs, mem, tags]

end

theorem CleanedOnly.ctxs {a b : State} (h : CleanedOnly a b) : b.ctxs = a.ctxs := by obtain ⟨_, _, _, _, _, _, _, rfl⟩ := h; rfl
theorem CleanedOnly.packages {a b : State} (h : CleanedOnly a b) : b.storage.packages = a.storage.packages := by
  obtain ⟨_, _, _, _, _, _, _, rfl⟩ := h; rfl
theorem CleanedOnly.fabric {a b : State} (h : CleanedOnly a b) : b.fabric = a.fabric := by
  obtain ⟨_, _, _, _, _, _, _, rfl⟩ := h; rfl
theorem CleanedOnly.uid {a b : State} (h : CleanedOnly a b) : b.uid = a.uid := by
  obtain ⟨_, _, _, _, _, _, _, rfl⟩ := h; rfl

theorem cleanedOnly_spillSlice (s : State) (line : Nat) : CleanedOnly s (s.spillSlice line) := by
  unfold State.spillSlice
  split
  · exact .refl s
  dsimp only
  split
  · exact .refl s
  · exact cleanedOnly_writeBackLine s _

/-- A line takes new bytes under a key. -/
def State.putLine (s : State) (key : KeyTag) (line : Nat) (bytes : List Byte) : State :=
  let tags := s.storage.tags.filter fun t => t.1 ≠ line
  { s with storage := { s.storage with
      mem := SMap.setRun s.storage.mem (128 * line) bytes,
      tags := match key with
        | none => tags
        | some k => (line, k.1, k.2) :: tags } }

theorem lineTag_putLine_same (s : State) (key : KeyTag) (line : Nat) (bytes : List Byte) :
    (s.putLine key line bytes).lineTag line = key := by
  cases key with
  | none => simp [State.lineTag, State.putLine, List.find?_eq_none]
  | some k => simp [State.lineTag, State.putLine]

theorem lineTag_putLine_ne (s : State) (key : KeyTag) {line l : Nat} (bytes : List Byte) (ne : l ≠ line) :
    (s.putLine key line bytes).lineTag l = s.lineTag l := by
  have found : (s.storage.tags.filter fun t => t.1 ≠ line).find? (fun t => t.1 = l) = s.storage.tags.find? fun t => t.1 = l := by
    rw [List.find?_filter]
    congr 1
    funext e
    by_cases he : e.1 = l
    · simp [he, ne]
    · simp [he]
  cases key with
  | none => exact congrArg (Option.map _) found
  | some k => simpa [State.lineTag, State.putLine, ne.symm] using congrArg (Option.map fun t => t.2) found

/-- The home slice makes a line hold its bytes under a key, after a write-back where it has to (R112). -/
theorem retag_eq (s : State) (key : KeyTag) {line : Nat} (tag : s.lineTag line ≠ key) :
    ∃ c, CleanedOnly s c ∧ s.retag key line = c.putLine key line (s.viewLine key line) := by
  obtain ⟨c, cleaned, retagged⟩ : ∃ c, CleanedOnly s c ∧ s.retag key line = c.putLine key line (c.viewLine key line) := by
    unfold State.retag
    rw [if_neg tag]
    dsimp only
    split
    · exact ⟨_, cleanedOnly_writeBackLine s line, rfl⟩
    · exact ⟨s, .refl s, rfl⟩
  exact ⟨c, cleaned, by rw [retagged, viewLine_congr cleaned.mem cleaned.tags cleaned.ctxs]⟩

/-- `t` holds the lines of `ls` under `key`, where all read under `key` as in `s`; the other lines are as they were. -/
structure HeldUnder (key : KeyTag) (ls : List Nat) (s t : State) : Prop where
  tags : ∀ l ∈ ls, t.lineTag l = key
  same : ∀ l, t.viewLine key l = s.viewLine key l
  others : ∀ l, l ∉ ls → t.lineTag l = s.lineTag l ∧ ∀ key', t.viewLine key' l = s.viewLine key' l
  wf : SMap.wf t.storage.mem = true
  ctxs : t.ctxs = s.ctxs

/-- A change of key of one line (R112). -/
theorem heldUnder_retag {s : State} {key : KeyTag} {line : Nat} (wf : SMap.wf s.storage.mem = true)
    (full : (s.viewLine key line).length = 128) : HeldUnder key [line] s (s.retag key line) := by
  by_cases tag : s.lineTag line = key
  · rw [show s.retag key line = s from if_pos tag]
    exact ⟨by simpa using tag, fun _ => rfl, fun _ _ => ⟨rfl, fun _ => rfl⟩, wf, rfl⟩
  obtain ⟨c, cleaned, retagged⟩ := retag_eq s key tag
  rw [retagged]
  have wf' : SMap.wf c.storage.mem = true := cleaned.mem ▸ wf
  have own := lineTag_putLine_same c key line (s.viewLine key line)
  have others (l : Nat) (ne : l ≠ line) : (c.putLine key line (s.viewLine key line)).lineTag l = s.lineTag l ∧
      ∀ key', (c.putLine key line (s.viewLine key line)).viewLine key' l = s.viewLine key' l := by
    have tagged := lineTag_putLine_ne c key (s.viewLine key line) ne
    refine ⟨tagged.trans (by simp only [State.lineTag, cleaned.tags]), fun key' => ?_⟩
    refine (viewLine_of_same_line tagged (getRun_congr fun j low high => ?_) rfl key').trans
      (viewLine_congr cleaned.mem cleaned.tags cleaned.ctxs key' l)
    exact (SMap.get_setRun _ _ _ _ wf').trans (if_neg (by omega))
  refine ⟨by simpa using own, fun l => ?_, fun l out => others l (by simpa using out), SMap.wf_setRun _ _ _ wf', cleaned.ctxs⟩
  by_cases ne : l = line
  · rw [ne, viewLine_of_tag own]
    have run := getRun_setRun (s.viewLine key line) c.storage.mem (128 * line) wf'
    rwa [full] at run
  · exact (others l ne).2 key

theorem HeldUnder.trans {key : KeyTag} {ls ms : List Nat} {a b c : State} (h : HeldUnder key ls a b) (g : HeldUnder key ms b c) :
    HeldUnder key (ls ++ ms) a c := by
  refine ⟨fun l hl => ?_, fun l => (g.same l).trans (h.same l), fun l out => ?_, g.wf, g.ctxs.trans h.ctxs⟩
  · by_cases hm : l ∈ ms
    · exact g.tags l hm
    · exact (g.others l hm).1.trans (h.tags l ((List.mem_append.mp hl).resolve_right hm))
  · obtain ⟨outL, outM⟩ := not_or.mp (mt List.mem_append.mpr out)
    exact ⟨(g.others l outM).1.trans (h.others l outL).1, fun key' => ((g.others l outM).2 key').trans ((h.others l outL).2 key')⟩

theorem heldUnder_foldl_retag (key : KeyTag) (ls : List Nat) {s : State} (wf : SMap.wf s.storage.mem = true)
    (full : ∀ l ∈ ls, (s.viewLine key l).length = 128) : HeldUnder key ls s (ls.foldl (fun s l => s.retag key l) s) := by
  induction ls generalizing s with
  | nil => exact ⟨by simp, fun _ => rfl, fun _ _ => ⟨rfl, fun _ => rfl⟩, wf, rfl⟩
  | cons l ls ih =>
    have first := heldUnder_retag wf (full l (by simp))
    exact first.trans (ih first.wf fun m hm => by rw [first.same]; exact full m (List.mem_cons_of_mem l hm))

/-! ### A write to device memory (R112, R143) -/

/-- What a write at the home slice does: its lines come to be held under its key, its bytes are set, and the rest is write-backs. -/
theorem writeMem_eq (s : State) (key : KeyTag) (pol : Caching) {pa : Nat} {b : List Byte} (some : b ≠ [])
    (kept : s.packageLost pa = false) :
    let s1 := (linesOf pa b.length).foldl (fun s l => s.retag key l) s
    let t := s.writeMem key pol pa b
    t.storage.mem = SMap.setRun s1.storage.mem pa b ∧ t.storage.tags = s1.storage.tags ∧ t.ctxs = s1.ctxs := by
  intro s1 t
  have cleaned : ∃ dirty poison, CleanedOnly { s1 with storage := { s1.storage with
      mem := SMap.setRun s1.storage.mem pa b, dirty := dirty, poison := poison } } t := by
    refine ⟨(linesOf pa b.length).foldl (fun d l => insertNat l d) s1.storage.dirty,
      (linesOf pa b.length).foldl (fun p l => healPoison l pa b.length p) s1.storage.poison, ?_⟩
    unfold t State.writeMem
    rw [if_neg (by simp [some, kept])]
    dsimp only
    split
    · exact cleanedOnly_writeBackQueue _ _ _
    · exact .foldl cleanedOnly_spillSlice _ _
  obtain ⟨_, _, h⟩ := cleaned
  exact ⟨h.mem, h.tags, h.ctxs⟩

/-- A write is what the key's readers then read there; the bytes beside it read as before under its key, and the lines that it does
not touch under any key. -/
theorem writeMem_results (s : State) (key : KeyTag) (pol : Caching) (pa : Nat) (b : List Byte) (kept : s.packageLost pa = false)
    (wf : SMap.wf s.storage.mem = true) (full : ∀ line ∈ linesOf pa b.length, (s.viewLine key line).length = 128) :
    let t := s.writeMem key pol pa b
    t.viewMem key pa b.length = b ∧
    (∀ a, a < pa ∨ pa + b.length ≤ a → t.viewMem key a 1 = s.viewMem key a 1) ∧
    ∀ a key', a / 128 ∉ linesOf pa b.length → t.viewMem key' a 1 = s.viewMem key' a 1 := by
  intro t
  by_cases none : b = []
  · rw [show t = s from if_pos (by simp [none]), none]
    exact ⟨viewMem_of_tags fun line hl => absurd (mem_linesOf.mp hl).1 (Nat.lt_irrefl 0), fun _ _ => rfl, fun _ _ _ => rfl⟩
  obtain ⟨mem, tags, ctxs⟩ := writeMem_eq s key pol none kept
  have held := heldUnder_foldl_retag key _ wf full
  generalize (linesOf pa b.length).foldl (fun s l => s.retag key l) s = s1 at mem tags ctxs held
  have tag (l : Nat) : t.lineTag l = s1.lineTag l := by simp only [State.lineTag, t, tags]
  have byte (a : Nat) (out : ¬(pa ≤ a ∧ a < pa + b.length)) : SMap.get t.storage.mem a = SMap.get s1.storage.mem a := by
    rw [mem, SMap.get_setRun _ _ _ _ held.wf, if_neg out]
  have far (l : Nat) (out : l ∉ linesOf pa b.length) (key' : KeyTag) : t.viewLine key' l = s.viewLine key' l := by
    refine (viewLine_of_same_line (tag l) (getRun_congr fun j low high => byte j fun inside => out ?_) ctxs key').trans
      ((held.others l out).2 key')
    exact mem_linesOf.mpr (by omega)
  refine ⟨?_, fun a out => ?_, fun a key' out => by rw [viewMem_one, viewMem_one, far _ out]⟩
  · rw [viewMem_of_tags fun l hl => (tag l).trans (held.tags l hl), mem]
    exact getRun_setRun b s1.storage.mem pa held.wf
  · by_cases near : a / 128 ∈ linesOf pa b.length
    · have one {x : State} (hx : x.lineTag (a / 128) = key) : x.viewMem key a 1 = SMap.getRun x.storage.mem a 1 :=
        viewMem_of_tags fun l hl => by
          obtain ⟨-, low, high⟩ := mem_linesOf.mp hl
          rwa [show l = a / 128 by omega]
      calc t.viewMem key a 1 = SMap.getRun t.storage.mem a 1 := one ((tag _).trans (held.tags _ near))
        _ = SMap.getRun s1.storage.mem a 1 := getRun_congr fun j low high => byte j (by omega)
        _ = s1.viewMem key a 1 := (one (held.tags _ near)).symm
        _ = s.viewMem key a 1 := by rw [viewMem_one, viewMem_one, held.same]
    · rw [viewMem_one, viewMem_one, far _ near]

end Sys2Proof.Machine
end

section
namespace Sys2Proof.Machine

/-! ### What the steps around an access leave alone -/

theorem group?_congr {s t : State} (h : t.groups = s.groups) (a b : Nat) : t.group? a b = s.group? a b := by
  simp only [State.group?, h]

theorem team?_congr {s t : State} (h : t.teams = s.teams) (a : Nat) : t.team? a = s.team? a := by
  simp only [State.team?, h]

theorem emptyCaches_storage (s : State) (c : Nat) : (s.emptyCaches c).storage = s.storage :=
  (congrArg State.storage (emptyCaches_rest s c) :)
theorem emptyCaches_host (s : State) (c : Nat) : (s.emptyCaches c).host = s.host :=
  (congrArg State.host (emptyCaches_rest s c) :)

theorem dropLines_rest (s : State) (core : Nat) (l : Loc) (n : Nat) : { s.dropLines core l n with cores := s.cores } = s := by
  unfold State.dropLines
  split
  · split
    · exact modCore_rest _ _ _
    · rfl
  · rfl

/-- R121: the protection of a group's lines is write-backs, and the group's list of lines. -/
theorem protect_eq (s : State) (t g : Nat) :
    ∃ (c : State) (f : Group → List Nat), CleanedOnly s c ∧ s.protect t g = c.modGroup t g fun h => { h with touched := f h } := by
  unfold State.protect
  split
  · exact ⟨s, Group.touched, .refl s, (modGroup_self s t g).symm⟩
  · exact ⟨_, fun _ => [], cleanedOnly_writeBackQueue _ _ s, rfl⟩

theorem protectFor_eq (s : State) (h : Group) (rel : Option Nat) :
    ∃ (c : State) (f : Group → List Nat), CleanedOnly s c ∧
      s.protectFor h rel = c.modGroup h.team h.gid fun y => { y with touched := f y } := by
  unfold State.protectFor
  split
  · exact protect_eq s h.team h.gid
  · exact ⟨s, Group.touched, .refl s, (modGroup_self s _ _).symm⟩

theorem protectFor_of_not_system (s : State) (h : Group) {rel : Option Nat} (other : rel ≠ some 11) : s.protectFor h rel = s :=
  if_neg other

/-- The marks of passed orderings (R157) are a change of the group's list of them. -/
theorem notePassed_eq (s : State) (h : Group) (l : List (Nat × Nat)) :
    ∃ f : Group → List (Nat × Nat), s.notePassed h l = s.modGroup h.team h.gid fun y => { y with passed := f y } := by
  unfold State.notePassed
  split
  · exact ⟨Group.passed, (modGroup_self s _ _).symm⟩
  · exact ⟨_, rfl⟩

theorem touch_key (h : Group) (l : Loc) (n : Nat) : (h.touch l n).team = h.team ∧ (h.touch l n).gid = h.gid := by
  cases l <;> exact ⟨rfl, rfl⟩

/-! ### STORE_PERFORMED (R143, R152, R155) -/

section
variable {s : State} {x : Team} {h : Group} {e : QEntry}

theorem exec_storePerformed {t g idx : Nat} (team : s.team? t = some x) (group : s.group? t g = some h)
    (entry : h.queue[idx]? = some e) (may : s.mayPerform x h e = true) :
    exec (.storePerformed t g idx) s = .next (s.performNow x h e) := by
  change execStorePerformed t g idx s = _
  simp [execStorePerformed, team, group, entry, may]

/-- The state in which an entry of a group's store queue has left it, and the lines that it writes are noted. -/
def State.unqueue (s : State) (x : Team) (g : Nat) (e : QEntry) : State :=
  (s.modGroup x.uid g fun h => { h with queue := h.queue.filter fun q => q.uid ≠ e.uid }).modGroup x.uid g fun h =>
    h.touch e.loc e.size

theorem group?_unqueue {g : Nat} (group : s.group? x.uid g = some h) :
    ∃ h', (s.unqueue x g e).group? x.uid g = some h' ∧ h'.queue = h.queue.filter fun q => q.uid ≠ e.uid := by
  have left := group?_modGroup_same (fun h : Group => { h with queue := h.queue.filter fun q => q.uid ≠ e.uid }) ⟨rfl, rfl⟩ group
  refine ⟨_, group?_modGroup_same _ (touch_key _ e.loc e.size) left, ?_⟩
  cases e.loc <;> rfl

theorem hostDown_of_here {l : Loc} (here : s.isRemote l = false) : s.hostDown l = false := by
  cases l with
  | host | window => exact here
  | _ => rfl

/-- A write at a place that no request reaches is made there. -/
theorem performEntry_write {g : Nat} {b : List Byte} (op : e.op = .write b) (here : s.isRemote e.loc = false) :
    s.performEntry x g e = (s.unqueue x g e).writeLoc x.core e.loc b := by
  unfold State.performEntry
  dsimp only
  split
  · rename_i place
    rw [place] at here
    cases here
  · rename_i place
    rw [place] at here
    cases here
  · rw [hostDown_of_here here, op]
    rfl

/-- A peer is asked. -/
theorem performEntry_peer {g d pa : Nat} (place : e.loc = .peer d pa ∨ e.loc = .remote d pa) :
    s.performEntry x g e = (s.modGroup x.uid g fun h => { h with queue := h.queue.filter fun q => q.uid ≠ e.uid }).sendRequest
      (some d) (s.job x.ctx) e.loc.requestBase e.ask (.store x.uid g e.split e.uid false e.va e.handlerPc) := by
  unfold State.performEntry
  rcases place with place | place <;> rw [place] <;> rfl

end

/-- A store to device memory is written in a state whose memory, tags and keys are those of `s`: what comes before it is the write-back
that its release asks for, its leaving the queue, and the drop of its lines from the core's caches. -/
theorem performNow_mem {s : State} {x : Team} {h : Group} {e : QEntry} {pa : Nat} {key : KeyTag} {pol : Caching} {b : List Byte}
    (team : h.team = x.uid) (group : s.group? x.uid h.gid = some h) (place : e.loc = .mem pa key pol) (op : e.op = .write b) :
    ∃ (w : State) (p : Group → List (Nat × Nat)),
      s.performNow x h e = (w.writeMem key pol pa b).modGroup x.uid h.gid (fun y => { y with passed := p y }) ∧
      w.storage.mem = s.storage.mem ∧ w.storage.tags = s.storage.tags ∧ w.storage.packages = s.storage.packages ∧ w.ctxs = s.ctxs ∧
      w.teams = s.teams ∧
      ∃ y, w.group? x.uid h.gid = some y ∧ y.queue = h.queue.filter fun q => q.uid ≠ e.uid := by
  obtain ⟨c, f, cleaned, protects⟩ := protectFor_eq s h e.rel
  obtain ⟨p, passes⟩ := notePassed_eq ((s.protectFor h e.rel).performEntry x h.gid e) h (passMarks (s.entryUnmet h e))
  rw [team] at protects passes
  let v := (c.modGroup x.uid h.gid fun y => { y with touched := f y }).unqueue x h.gid e
  have rest := dropLines_rest v x.core e.loc b.length
  have mine : (c.modGroup x.uid h.gid fun y => { y with touched := f y }).group? x.uid h.gid = some { h with touched := f h } :=
    group?_modGroup_same _ ⟨rfl, rfl⟩ ((group?_congr cleaned.groups _ _).trans group)
  obtain ⟨y, left, queue⟩ := group?_unqueue (e := e) mine
  refine ⟨v.dropLines x.core e.loc b.length, p, ?_, (congrArg (fun s : State => s.storage.mem) rest :).trans cleaned.mem,
    (congrArg (fun s : State => s.storage.tags) rest :).trans cleaned.tags,
    (congrArg (fun s : State => s.storage.packages) rest :).trans cleaned.packages,
    (congrArg State.ctxs rest :).trans cleaned.ctxs, (congrArg State.teams rest :).trans cleaned.teams, y,
    (group?_congr (congrArg State.groups rest :) _ _).trans left, queue⟩
  rw [State.performNow, passes, performEntry_write op (by rw [place]; rfl), protects, place]
  rfl

/-- Settles O29, by what a write at the home slice does under its key and under others (R112). -/
theorem storePerformedToMemory : Obligations.StorePerformedToMemory := by
  intro t g idx s x h e pa key pol b team group entry place op may kept wf full
  obtain rfl := team?_uid team
  obtain ⟨hteam, rfl⟩ := group?_key group
  obtain ⟨w, p, performed, mem, tags, packages, ctxs, teams, y, left, queue⟩ := performNow_mem hteam group place op
  have view := viewMem_congr mem tags ctxs
  have storage := storageOnly_writeMem w key pol pa b
  obtain ⟨written, beside, far⟩ := writeMem_results w key pol pa b (by rw [State.packageLost, packages]; exact kept) (mem ▸ wf)
    fun line hl => by rw [viewLine_congr mem tags ctxs]; exact full line hl
  refine ⟨_, (exec_storePerformed team group entry may).trans (congrArg Host.Outcome.next performed), fun h' found => ?_, written,
    fun a out => (beside a out).trans (view key a 1), fun a key' out => (far a key' out).trans (view key' a 1),
    storage.teams.trans teams⟩
  have noted := group?_modGroup_same (fun y : Group => { y with passed := p y }) ⟨rfl, rfl⟩
    ((group?_congr storage.groups _ _).trans left)
  cases noted.symm.trans found
  exact queue

end Sys2Proof.Machine
end

section
namespace Sys2Proof.Machine

/-! ### A write into a scratchpad (R161, R280) -/

/-- `t` has the groups of `s` but for what their splits are parked on: none comes or goes, and each keeps all else. -/
def SplitsOnly (s t : State) : Prop :=
  ∃ f : Group → Group, t.groups = s.groups.map f ∧ ∀ h, { f h with splits := h.splits, saved := h.saved } = h

namespace SplitsOnly

variable {a b c : State}

theorem of_groups (h : b.groups = a.groups) : SplitsOnly a b := ⟨id, h.trans (List.map_id _).symm, fun _ => rfl⟩

theorem trans (h : SplitsOnly a b) (g : SplitsOnly b c) : SplitsOnly a c := by
  obtain ⟨f, hf, keepsF⟩ := h
  obtain ⟨f', hf', keepsF'⟩ := g
  refine ⟨fun x => f' (f x), by rw [hf', hf, List.map_map]; rfl, fun x => ?_⟩
  have same := congrArg (fun y : Group => { y with splits := x.splits, saved := x.saved }) (keepsF' (f x))
  exact same.trans (keepsF x)

/-- A group is found with all but its splits as they were. -/
theorem group? (h : SplitsOnly a b) {t g : Nat} {x : Group} (found : a.group? t g = some x) :
    ∃ y, b.group? t g = some y ∧ { y with splits := x.splits, saved := x.saved } = x := by
  obtain ⟨f, hf, keeps⟩ := h
  refine ⟨f x, ?_, keeps x⟩
  have same (y : Group) : (decide ((f y).team = t) && decide ((f y).gid = g)) = (decide (y.team = t) && decide (y.gid = g)) := by
    rw [show (f y).team = y.team from (congrArg Group.team (keeps y) :), show (f y).gid = y.gid from (congrArg Group.gid (keeps y) :)]
  rw [State.group?, hf, List.find?_map]
  exact congrArg (Option.map f) ((congrArg (List.find? · a.groups) (funext same)).trans found)

end SplitsOnly

/-- `b` is `a` but for bytes `inside` of team `t`'s scratchpad, what splits are parked on, and the cores' caches. -/
structure ScratchOnly (t : Nat) (inside : Nat → Prop) (a b : State) : Prop where
  storage : b.storage = a.storage
  host : b.host = a.host
  splits : SplitsOnly a b
  others : ∀ w, w ≠ t → b.team? w = a.team? w
  bytes : ∀ y, a.team? t = some y → ∃ y', b.team? t = some y' ∧
    (SMap.wf y.scratch = true → SMap.wf y'.scratch = true ∧ ∀ j, ¬inside j → SMap.get y'.scratch j = SMap.get y.scratch j)

namespace ScratchOnly

variable {t : Nat} {p q : Nat → Prop} {a b c : State}

theorem of_teams (storage : b.storage = a.storage) (host : b.host = a.host) (splits : SplitsOnly a b) (teams : b.teams = a.teams) :
    ScratchOnly t p a b :=
  ⟨storage, host, splits, fun w _ => team?_congr teams w,
    fun y hy => ⟨y, (team?_congr teams t).trans hy, fun wf => ⟨wf, fun _ _ => rfl⟩⟩⟩

theorem refl (a : State) : ScratchOnly t p a a := of_teams rfl rfl (.of_groups rfl) rfl

theorem trans (h : ScratchOnly t p a b) (g : ScratchOnly t p b c) : ScratchOnly t p a c := by
  refine ⟨g.storage.trans h.storage, g.host.trans h.host, h.splits.trans g.splits, fun w ne => (g.others w ne).trans (h.others w ne),
    fun y hy => ?_⟩
  obtain ⟨y1, hy1, first⟩ := h.bytes y hy
  obtain ⟨y2, hy2, second⟩ := g.bytes y1 hy1
  refine ⟨y2, hy2, fun wf => ?_⟩
  obtain ⟨wf1, same1⟩ := first wf
  obtain ⟨wf2, same2⟩ := second wf1
  exact ⟨wf2, fun j out => (same2 j out).trans (same1 j out)⟩

theorem mono (h : ScratchOnly t p a b) (sub : ∀ j, p j → q j) : ScratchOnly t q a b := by
  refine ⟨h.storage, h.host, h.splits, h.others, fun y hy => ?_⟩
  obtain ⟨y', hy', same⟩ := h.bytes y hy
  exact ⟨y', hy', fun wf => ⟨(same wf).1, fun j out => (same wf).2 j (mt (sub j) out)⟩⟩

theorem foldl {α : Type} {f : State → α → State} (l : List α) (hf : ∀ s, ∀ x ∈ l, ScratchOnly t p s (f s x)) (s : State) :
    ScratchOnly t p s (l.foldl f s) := by
  induction l generalizing s with
  | nil => exact refl s
  | cons x l ih => exact (hf s x (by simp)).trans (ih (fun s y hy => hf s y (List.mem_cons_of_mem x hy)) _)

end ScratchOnly

section
variable {t off : Nat}

theorem team?_modTeam_same {s : State} {t : Nat} {y : Team} (f : Team → Team) (hf : ∀ x, x.uid = t → (f x).uid = t)
    (e : s.team? t = some y) : (s.modTeam t f).team? t = some (f y) :=
  (find?_mapKey_same Team.uid s.teams f hf).trans (congrArg (Option.map f) e)

theorem team?_modTeam_ne (s : State) {t w : Nat} (f : Team → Team) (hf : ∀ x, x.uid = t → (f x).uid = t) (ne : w ≠ t) :
    (s.modTeam t f).team? w = s.team? w := find?_mapKey_ne Team.uid s.teams f hf ne

theorem scratchOnly_setScratch (s : State) (t off : Nat) (b : List Byte) :
    ScratchOnly t (fun j => off ≤ j ∧ j < off + b.length) s (s.setScratch t off b) := by
  refine ⟨rfl, rfl, .of_groups rfl, fun w ne => team?_modTeam_ne s _ (fun _ h => h) ne, fun y hy => ?_⟩
  exact ⟨_, team?_modTeam_same _ (fun _ h => h) hy, fun wf => ⟨SMap.wf_setRun _ _ _ wf, fun j out =>
    (SMap.get_setRun _ _ _ _ wf).trans (if_neg out)⟩⟩

/-- The waking of splits changes what they are parked on, and caches. -/
theorem scratchOnly_wakeWaits (s : State) (which : Split → Bool) {inside : Nat → Prop} :
    ScratchOnly t inside s (s.wakeWaits which) := by
  unfold State.wakeWaits
  refine .of_teams ?_ ?_ ⟨fun h => h.unpark which, ?_, fun _ => rfl⟩ ?_
  · exact foldl_keeps State.storage emptyCaches_storage _ _
  · exact foldl_keeps State.host emptyCaches_host _ _
  · exact foldl_keeps State.groups emptyCaches_groups _ _
  · exact foldl_keeps State.teams emptyCaches_teams _ _

/-- The test of a barrier word sets no byte but the word's. -/
theorem scratchOnly_barWritten (s : State) (t off : Nat) (old w : DWord) :
    ScratchOnly t (fun j => off ≤ j ∧ j < off + 8) s (s.barWritten t off old w) := by
  unfold State.barWritten
  split
  · exact .refl s
  split
  · have set := scratchOnly_setScratch s t off (leBytes 8 (barFlip old w).toNat)
    rw [length_leBytes] at set
    exact set.trans (scratchOnly_wakeWaits _ _)
  split
  · exact scratchOnly_wakeWaits s _
  · exact .refl s

/-- A write into a scratchpad sets no bytes but its own and those of the barrier words that it meets. -/
theorem scratchOnly_writeScratch (s : State) (t off : Nat) (b : List Byte) :
    ScratchOnly t (fun j => (off ≤ j ∧ j < off + b.length) ∨ ∃ w ∈ s.barsIn t off b.length, w ≤ j ∧ j < w + 8) s
      (s.writeScratch t off b) := by
  refine ((scratchOnly_setScratch s t off b).mono fun j => .inl).trans (.foldl _ (fun u w hw => ?_) _)
  exact (scratchOnly_barWritten u t w _ _).mono fun j inside => .inr ⟨w, hw, inside⟩

/-- One that meets no barrier word leaves its bytes. -/
theorem writeScratch_of_no_bars {s : State} {b : List Byte} {y : Team} (none : s.barsIn t off b.length = [])
    (found : s.team? t = some y) (wf : SMap.wf y.scratch = true) :
    ∃ y', (s.writeScratch t off b).team? t = some y' ∧ SMap.getRun y'.scratch off b.length = b := by
  rw [show s.writeScratch t off b = s.setScratch t off b by rw [State.writeScratch, none]; rfl]
  exact ⟨_, team?_modTeam_same _ (fun _ h => h) found, getRun_setRun b y.scratch off wf⟩

end

/-! ### STORE_PERFORMED into a scratchpad and to a peer (R152, R323, R413) -/

section
variable {s : State} {x : Team} {h : Group} {e : QEntry} {t g idx : Nat}

/-- A request goes out with a new tag (R323, R413). -/
theorem sendRequest_asks (s : State) (dev : Option Nat) (job : Half) (addr : Nat) (ask : OutAsk) (use : ReqUse) :
    ∃ r, (s.sendRequest dev job addr ask use).fabric.requests = s.fabric.requests ++ [r] ∧
      (s.sendRequest dev job addr ask use).fabric.outbox = s.fabric.outbox ++ [.request r] ∧ r.tag = s.uid ∧
      r.dev = dev ∧ r.addr = addr ∧ r.ask = ask ∧ r.use = use ∧ r.job = job :=
  ⟨_, rfl, rfl, rfl, rfl, rfl, rfl, rfl, rfl⟩

/-- Without a release at system scope the entry is performed in `s` itself, and the group notes the orderings passed. -/
theorem exec_storePerformed_plain (team : s.team? t = some x) (group : s.group? t g = some h) (entry : h.queue[idx]? = some e)
    (may : s.mayPerform x h e = true) (plain : e.rel ≠ some 11) :
    ∃ p : Group → List (Nat × Nat), exec (.storePerformed t g idx) s =
      .next ((s.performEntry x g e).modGroup t g fun y => { y with passed := p y }) := by
  obtain ⟨rfl, rfl⟩ := group?_key group
  obtain ⟨p, passes⟩ := notePassed_eq (s.performEntry x h.gid e) h (passMarks (s.entryUnmet h e))
  exact ⟨p, by rw [exec_storePerformed team group entry may, State.performNow, protectFor_of_not_system s h plain, passes]⟩

theorem storePerformed_scratch {u off : Nat} {b : List Byte} (team : s.team? t = some x) (group : s.group? t g = some h)
    (entry : h.queue[idx]? = some e) (place : e.loc = .scr u off) (op : e.op = .write b) (may : s.mayPerform x h e = true)
    (plain : e.rel ≠ some 11) (tidy : ∀ y ∈ s.teams, Team.tidy y = true) :
    ∃ v, exec (.storePerformed t g idx) s = .next v ∧ v.storage = s.storage ∧
      (∀ y, s.team? u = some y → ∃ y', v.team? u = some y' ∧
        (∀ a, ¬(off ≤ a ∧ a < off + b.length) → (∀ w ∈ s.barsIn u off b.length, ¬(w ≤ a ∧ a < w + 8)) →
          SMap.get y'.scratch a = SMap.get y.scratch a) ∧
        (s.barsIn u off b.length = [] → SMap.getRun y'.scratch off b.length = b)) ∧
      ∀ w, w ≠ u → v.team? w = s.team? w := by
  obtain ⟨p, performs⟩ := exec_storePerformed_plain team group entry may plain
  rw [performEntry_write op (by rw [place]; rfl), place] at performs
  have only := scratchOnly_writeScratch (s.unqueue x g e) u off b
  refine ⟨_, performs, only.storage, fun y hy => ?_, only.others⟩
  have wf : SMap.wf y.scratch = true := (Bool.and_eq_true_iff.mp (tidy y (List.mem_of_find?_eq_some hy))).1
  obtain ⟨y', hy', same⟩ := only.bytes y hy
  refine ⟨y', hy', fun a out apart => (same wf).2 a ?_, fun none => ?_⟩
  · exact not_or.mpr ⟨out, fun ⟨w, hw, inside⟩ => apart w hw inside⟩
  · obtain ⟨z, hz, run⟩ := writeScratch_of_no_bars (s := s.unqueue x g e) none hy wf
    cases hz.symm.trans hy'
    exact run

theorem storePerformed_peer {d pa : Nat} (team : s.team? t = some x) (group : s.group? t g = some h)
    (entry : h.queue[idx]? = some e) (place : e.loc = .peer d pa ∨ e.loc = .remote d pa) (may : s.mayPerform x h e = true)
    (plain : e.rel ≠ some 11) :
    ∃ u r, exec (.storePerformed t g idx) s = .next u ∧ u.fabric.requests = s.fabric.requests ++ [r] ∧
      u.fabric.outbox = s.fabric.outbox ++ [.request r] ∧ r.dev = some d ∧ r.addr = e.loc.requestBase ∧ r.ask = e.ask ∧
      r.use = .store t g e.split e.uid false e.va e.handlerPc ∧ r.job = s.job x.ctx ∧ r.tag = s.uid ∧ Claims.SameMemory s u := by
  obtain ⟨p, performs⟩ := exec_storePerformed_plain team group entry may plain
  rw [performEntry_peer place, team?_uid team] at performs
  obtain ⟨r, requests, outbox, tag, fields⟩ := sendRequest_asks
    (s.modGroup t g fun h => { h with queue := h.queue.filter fun q => q.uid ≠ e.uid }) (some d) (s.job x.ctx) e.loc.requestBase e.ask
    (.store t g e.split e.uid false e.va e.handlerPc)
  obtain ⟨dev, addr, ask, use, job⟩ := fields
  exact ⟨_, r, performs, requests, outbox, dev, addr, ask, use, job, tag, ⟨rfl, rfl, rfl⟩⟩

end

/-- Settles O30, by the bytes that a write into a scratchpad can change, and the request that goes to a peer. -/
theorem storePerformedElsewhere : Obligations.StorePerformedElsewhere :=
  ⟨fun _ _ _ _ _ _ _ _ _ _ team group entry place op may plain tidy =>
      storePerformed_scratch team group entry place op may plain tidy,
    fun _ _ _ _ _ _ _ _ _ team group entry place may plain => storePerformed_peer team group entry place may plain⟩

end Sys2Proof.Machine
end

section
namespace Sys2Proof.Machine

/-! ### One access of a long-latency instruction is performed (R143, R145, R153, R276) -/

section
variable {s : State} {x : Team} {h : Group} {r : Result} {a : Pend}

/-- The operation that an access is performed as: a read that passes an acquire of file scope or wider uses no cache (R154). -/
def Group.opOf (h : Group) (r : Result) (a : Pend) : PendOp :=
  if (h.orderPoints r.uid).any fun m => m.2.any fun sc => 6 ≤ sc then .fresh else a.op

/-- Bytes come to a result. -/
def Pend.come (a : Pend) (b : List Byte) (q : Result) : Result := { q with raw := q.raw ++ [(a.idx, a.lane, b)] }

/-- The state after an access at its place, and what it gives its result. -/
def State.access (s : State) (x : Team) (h : Group) (r : Result) (a : Pend) : State × (Result → Result) :=
  let s1 := s.protectFor h r.rel
  if s.isRemote a.loc then
    (s1.sendRequest a.loc.dev (s.job x.ctx) a.loc.requestBase a.ask (.load h.team h.gid r.uid a.idx a.lane a.va),
      fun q => { q with waits := q.waits ++ [s1.uid] })
  else if a.op.reads && s.locPoisoned a.loc a.n then (s1, fun q => { q with fail := some (q.fail.getD (s.poisonAt a.va a.loc)) })
  else match a.op with
    | .atomic op ty b sv =>
      let p := (s1.modGroup h.team h.gid fun y => y.touch a.loc a.n).atomicAt x.core a.loc op ty b sv
      (p.2, a.come (leBytes a.n p.1))
    | .packet _ _ _ => (s1, id)
    | .read | .gather | .fresh =>
      let p := s1.serve x.core (h.queue.filter fun e => e.uid < r.uid) (h.opOf r a) a.loc a.n
      (p.2, a.come p.1)

/-- A result takes what an access gives it, and the access is no longer one to perform. -/
def Result.take (f : Result → Result) (n : Nat) (q : Result) : Result := f { q with pend := q.pend.filter fun b => b.idx ≠ n }

/-- An access is made at its place; its result takes what it gives, and the group notes the orderings that it passed. -/
theorem performPend_eq (s : State) (x : Team) (h : Group) (r : Result) (a : Pend) : ∃ p : Group → List (Nat × Nat),
    s.performPend x h r a = ((s.access x h r a).1.modResult h.team h.gid r.uid (Result.take (s.access x h r a).2 a.idx)).modGroup
      h.team h.gid fun y => { y with passed := p y } := by
  obtain ⟨p, passes⟩ := notePassed_eq ((s.access x h r a).1.modResult h.team h.gid r.uid (Result.take (s.access x h r a).2 a.idx)) h
    (passMarks (s.pendUnmet h r a))
  refine ⟨p, passes ▸ ?_⟩
  unfold State.performPend State.access Group.opOf
  dsimp only
  split
  · rfl
  split
  · rfl
  cases a.op <;> rfl

/-- The group after one of its results has changed. -/
theorem group?_modResult {w : State} {t g uid : Nat} {y : Group} (f : Result → Result) (found : w.group? t g = some y) :
    (w.modResult t g uid f).group? t g = some { y with results := y.results.map fun r => if r.uid = uid then f r else r } :=
  group?_modGroup_same _ ⟨rfl, rfl⟩ found

theorem access_keeps_pend (q : Result) : ((s.access x h r a).2 q).pend = q.pend := by
  unfold State.access
  dsimp only
  split
  · rfl
  split
  · rfl
  cases a.op <;> rfl

theorem access_remote (there : s.isRemote a.loc = true) : s.access x h r a =
    ((s.protectFor h r.rel).sendRequest a.loc.dev (s.job x.ctx) a.loc.requestBase a.ask
      (.load h.team h.gid r.uid a.idx a.lane a.va), fun q => { q with waits := q.waits ++ [(s.protectFor h r.rel).uid] }) :=
  if_pos there

theorem access_poisoned (here : s.isRemote a.loc = false) (reads : a.op.reads = true) (poison : s.locPoisoned a.loc a.n = true) :
    s.access x h r a = (s.protectFor h r.rel, fun q => { q with fail := some (q.fail.getD (s.poisonAt a.va a.loc)) }) := by
  simp [State.access, here, reads, poison]

theorem access_atomic {op : AtomOp} {ty : AtomTy} {b sv : DWord} (here : s.isRemote a.loc = false)
    (sound : s.locPoisoned a.loc a.n = false) (atomic : a.op = .atomic op ty b sv) : s.access x h r a =
      (let p := ((s.protectFor h r.rel).modGroup h.team h.gid fun y => y.touch a.loc a.n).atomicAt x.core a.loc op ty b sv
      (p.2, a.come (leBytes a.n p.1))) := by
  simp [State.access, here, sound, atomic]

theorem reads_of_isRead {op : PendOp} (read : op.isRead = true) : op.reads = true := by
  cases op with
  | read | gather | fresh | atomic => rfl
  | packet => cases read

theorem access_read (here : s.isRemote a.loc = false) (sound : s.locPoisoned a.loc a.n = false) (read : a.op.isRead = true) :
    s.access x h r a =
      (let p := (s.protectFor h r.rel).serve x.core (h.queue.filter fun e => e.uid < r.uid) (h.opOf r a) a.loc a.n
      (p.2, a.come p.1)) := by
  unfold State.access
  simp only [here, sound, Bool.and_false, Bool.false_eq_true, if_false]
  cases op : a.op with
  | read | gather | fresh => rfl
  | atomic | packet => rw [op] at read; cases read

end

/-! ### The bytes of a read (R113, R137, R145) -/

/-- A cache serves the bytes of the point of coherence, or those of a line that it holds. -/
theorem cachedView_from (s : State) (lines : List CacheLine) (key : KeyTag) (pa n : Nat) :
    s.cachedView lines key pa n = s.viewMem key pa n ∨
      ∃ c ∈ lines, c.line = pa / 128 ∧ c.key = key ∧ s.cachedView lines key pa n = (c.bytes.drop (pa % 128)).take n := by
  unfold State.cachedView
  dsimp only
  split
  · exact .inl rfl
  · rename_i c found
    obtain ⟨line, own⟩ : c.line = pa / 128 ∧ c.key = key := by simpa using List.find?_some found
    have held : c ∈ lines := List.mem_of_find?_eq_some found
    split
    · exact .inl rfl
    split
    · exact .inl rfl
    · exact .inr ⟨c, held, line, own, rfl⟩

/-- A read changes caches alone, once the line is held under its key, and its bytes are ones that it may deliver. -/
theorem serve_results (s : State) (core : Nat) (q : List QEntry) (op : PendOp) (l : Loc) (n : Nat) :
    { (s.serve core q op l n).2 with cores := (s.rekey l n).cores } = s.rekey l n ∧
      Claims.mayRead (s.rekey l n) core q op l n (s.serve core q op l n).1 := by
  unfold State.serve
  dsimp only
  split
  · rename_i pa key
    refine ⟨modCore_rest _ _ _, _, rfl, (cachedView_from _ _ key pa n).imp id fun ⟨c, held, line, own, bytes⟩ => ?_⟩
    exact ⟨pa, key, rfl, c, by simpa using held, line, own, bytes⟩
  · rename_i pa key
    refine ⟨modCore_rest _ _ _, _, rfl, (cachedView_from _ _ key pa n).imp id fun ⟨c, held, line, own, bytes⟩ => ?_⟩
    exact ⟨pa, key, rfl, c, by simpa using held, line, own, bytes⟩
  · exact ⟨rfl, _, rfl, .inl rfl⟩

theorem storageOnly_rekey (s : State) (l : Loc) (n : Nat) : StorageOnly s (s.rekey l n) := by
  cases l with
  | mem pa key _ => exact storageOnly_rekeyMem s key pa n
  | _ => exact .refl s

/-! ### The groups after an access -/

/-- An atomic changes of the groups only what splits are parked on. -/
theorem splitsOnly_atomicAt (s : State) (core : Nat) (l : Loc) (op : AtomOp) (ty : AtomTy) (b sv : DWord) :
    SplitsOnly s (s.atomicAt core l op ty b sv).2 := by
  by_cases scr : ∃ t off, l = .scr t off
  · obtain ⟨t, off, rfl⟩ := scr
    unfold State.atomicAt
    dsimp only
    split
    · exact (scratchOnly_writeScratch s t off _).splits
    · exact .of_groups rfl
  · exact .of_groups (atomicAt_groups s core (fun t off h => scr ⟨t, off, h⟩) op ty b sv)

section
variable {s : State} {x : Team} {h : Group} {r : Result} {a : Pend}

/-- What R121's protection leaves of the group. -/
theorem group?_protectFor (found : s.group? h.team h.gid = some h) (rel : Option Nat) :
    ∃ y, (s.protectFor h rel).group? h.team h.gid = some y ∧ { y with touched := h.touched } = h := by
  obtain ⟨c, f, cleaned, protects⟩ := protectFor_eq s h rel
  rw [protects]
  exact ⟨_, group?_modGroup_same _ ⟨rfl, rfl⟩ ((group?_congr cleaned.groups _ _).trans found), rfl⟩

theorem protectFor_teams (s : State) (h : Group) (rel : Option Nat) : (s.protectFor h rel).teams = s.teams := by
  obtain ⟨c, f, cleaned, protects⟩ := protectFor_eq s h rel
  rw [protects]
  exact cleaned.teams

theorem protectFor_fabric (s : State) (h : Group) (rel : Option Nat) : (s.protectFor h rel).fabric = s.fabric := by
  obtain ⟨c, f, cleaned, protects⟩ := protectFor_eq s h rel
  rw [protects]
  exact cleaned.fabric

/-- An access leaves its group's results to be changed; a read or a request changes of the group only the lines noted. -/
theorem access_group (found : s.group? h.team h.gid = some h) :
    ∃ y, (s.access x h r a).1.group? h.team h.gid = some y ∧ y.results = h.results ∧
      (a.op.isRead = true ∨ s.isRemote a.loc = true →
        (s.access x h r a).1.teams = s.teams ∧ { y with touched := h.touched } = h) := by
  obtain ⟨y, mine, rest⟩ := group?_protectFor found r.rel
  have results : y.results = h.results := (congrArg Group.results rest :)
  have teams := protectFor_teams s h r.rel
  unfold State.access
  dsimp only
  split
  · exact ⟨y, mine, results, fun _ => ⟨teams, rest⟩⟩
  split
  · exact ⟨y, mine, results, fun _ => ⟨teams, rest⟩⟩
  rename_i here _
  split
  · rename_i op ty b sv atomic
    have touched := group?_modGroup_same (fun y => y.touch a.loc a.n) (touch_key y a.loc a.n) mine
    obtain ⟨z, left, keeps⟩ := (splitsOnly_atomicAt _ x.core a.loc op ty b sv).group? touched
    refine ⟨z, left, ?_, fun other => ?_⟩
    · exact ((congrArg Group.results keeps :).trans (congrArg Group.results (touch_rest y a.loc a.n) :)).trans results
    · rcases other with read | there
      · rw [atomic] at read; cases read
      · exact absurd there here
  · exact ⟨y, mine, results, fun _ => ⟨teams, rest⟩⟩
  all_goals
    have served := (serve_results (s.protectFor h r.rel) x.core (h.queue.filter fun e => e.uid < r.uid) (h.opOf r a) a.loc a.n).1
    have rekeyed := storageOnly_rekey (s.protectFor h r.rel) a.loc a.n
    exact ⟨y, (group?_congr ((congrArg State.groups served :).trans rekeyed.groups) _ _).trans mine, results,
      fun _ => ⟨((congrArg State.teams served :).trans rekeyed.teams).trans teams, rest⟩⟩

end

end Sys2Proof.Machine
end

section
namespace Sys2Proof.Machine

/-! ### LONG_LATENCY_RESULT (R187, R189) -/

/-- The register writes of a result change its group's registers alone. -/
theorem applyWrite_rest (h : Group) (w : RegWrite) : { h.applyWrite w with v := h.v, g := h.g, p := h.p, q := h.q } = h := by
  cases w with
  | v r lane b => rfl
  | g r b =>
    change { h.setG r b with v := h.v, g := h.g, p := h.p, q := h.q } = h
    unfold Group.setG
    split <;> rfl
  | p r lane b =>
    change { h.setPmask r _ with v := h.v, g := h.g, p := h.p, q := h.q } = h
    unfold Group.setPmask
    split <;> rfl
  | q r b =>
    change { h.setQ r b with v := h.v, g := h.g, p := h.p, q := h.q } = h
    unfold Group.setQ
    split <;> rfl

theorem foldl_applyWrite_rest (l : List RegWrite) (h : Group) :
    { l.foldl Group.applyWrite h with v := h.v, g := h.g, p := h.p, q := h.q } = h := by
  induction l generalizing h with
  | nil => rfl
  | cons w l ih =>
    have rest := congrArg (fun y : Group => { y with v := h.v, g := h.g, p := h.p, q := h.q }) (ih (h.applyWrite w))
    exact rest.trans (applyWrite_rest h w)

/-- R114, R154: what the acquire of a result does to the caches of its core. -/
def State.acquiredFor (s : State) (core : Nat) (r : Result) : State :=
  if r.acq.any fun sc => 6 ≤ sc then s.emptyCaches core else s

theorem acquiredFor_rest (s : State) (core : Nat) (r : Result) : { s.acquiredFor core r with cores := s.cores } = s := by
  unfold State.acquiredFor
  split
  · exact emptyCaches_rest s core
  · rfl

/-- A result's group once the result has been written in the lanes that live. -/
def Group.written (h y : Group) (idx : Nat) (r : Result) : Group :=
  let w := (r.writes.filter fun w => w.alive h.everyLane).foldl Group.applyWrite y
  { w with results := (w.results.set idx r.written).filter Result.kept }

theorem written_rest (h y : Group) (idx : Nat) (r : Result) :
    { h.written y idx r with v := y.v, g := y.g, p := y.p, q := y.q, results := y.results } = y :=
  (congrArg (fun w : Group => { w with results := y.results })
    (foldl_applyWrite_rest (r.writes.filter fun w => w.alive h.everyLane) y) :)

theorem written_key (h y : Group) (idx : Nat) (r : Result) : (h.written y idx r).team = y.team ∧ (h.written y idx r).gid = y.gid :=
  ⟨(congrArg Group.team (written_rest h y idx r) :), (congrArg Group.gid (written_rest h y idx r) :)⟩

theorem written_results (h y : Group) (idx : Nat) (r : Result) :
    (h.written y idx r).results = (y.results.set idx r.written).filter Result.kept :=
  congrArg (fun l : List Result => (l.set idx r.written).filter Result.kept)
    (congrArg Group.results (foldl_applyWrite_rest (r.writes.filter fun w => w.alive h.everyLane) y) :)

/-- It is written, or the cause that it met is delivered (R406, R414). -/
theorem deliverResult_eq (s : State) (x : Team) (h : Group) (idx : Nat) (r : Result) : s.deliverResult x h idx r =
    match r.fail with
    | some c => ((s.acquiredFor x.core r).modGroup x.uid h.gid fun y => { y with results := y.results.eraseIdx idx }).lateFrom
        x.uid h.gid r.owners.head? r.handlerPc c
    | none => (s.acquiredFor x.core r).modGroup x.uid h.gid fun y => h.written y idx r := by
  unfold State.deliverResult State.acquiredFor
  cases r.acq with
  | none => rfl
  | some sc =>
    simp only [Option.any_some, decide_eq_true_eq]
    rfl

section
variable {s : State} {x : Team} {h : Group} {r : Result} {t g idx n : Nat}
  (team : s.team? t = some x) (group : s.group? t g = some h) (result : h.results[idx]? = some r)
include team group result

theorem longLatencyResult_idle (idle : r.done = true ∨ (r.pend = [] ∧ r.waits ≠ [])) :
    exec (.longLatencyResult t g ⟨idx, n⟩) s = .next s := by
  change execLongLatencyResult t g ⟨idx, n⟩ s = _
  rcases idle with done | ⟨all, waits⟩
  · simp [execLongLatencyResult, team, group, result, done]
  · simp [execLongLatencyResult, team, group, result, all, waits]

theorem longLatencyResult_access {a : Pend} (done : r.done = false) (found : (r.pend.find? fun a => a.idx = n) = some a) :
    exec (.longLatencyResult t g ⟨idx, n⟩) s = .next (if s.mayPerformPend x h r a then s.performPend x h r a else s) := by
  change execLongLatencyResult t g ⟨idx, n⟩ s = _
  have left : r.pend ≠ [] := List.ne_nil_of_mem (List.mem_of_find?_eq_some found)
  simp [execLongLatencyResult, team, group, result, done, left, found]

theorem longLatencyResult_delivers (done : r.done = false) (all : r.pend = []) (answered : r.waits = []) :
    exec (.longLatencyResult t g ⟨idx, n⟩) s = .next (s.deliverResult x h idx r) := by
  change execLongLatencyResult t g ⟨idx, n⟩ s = _
  simp [execLongLatencyResult, team, group, result, done, all, answered]

/-- A result without a cause is written: its group's registers and results change, and caches where it acquires. -/
theorem longLatencyResult_writes (done : r.done = false) (all : r.pend = []) (answered : r.waits = []) (sound : r.fail = none) :
    ∃ u h', exec (.longLatencyResult t g ⟨idx, n⟩) s = .next u ∧ u.group? t g = some h' ∧
      u.cores = (s.acquiredFor x.core r).cores ∧ h'.results = (h.results.set idx r.written).filter Result.kept ∧
      h'.splits = h.splits ∧ h'.queue = h.queue ∧
      (h'.v, h'.g, h'.p, h'.q) = (let h'' := (r.writes.filter fun w => w.alive h.everyLane).foldl Group.applyWrite h
        (h''.v, h''.g, h''.p, h''.q)) ∧
      Claims.SameMemory s u ∧ ∀ a b, (a, b) ≠ (t, g) → u.group? a b = s.group? a b := by
  obtain rfl := team?_uid team
  obtain ⟨hteam, rfl⟩ := group?_key group
  have delivers := longLatencyResult_delivers (n := n) team group result done all answered
  rw [deliverResult_eq, sound] at delivers
  have acquired := acquiredFor_rest s x.core r
  have groups := group?_congr (congrArg State.groups acquired :)
  have keeps := written_rest h h idx r
  refine ⟨_, _, delivers, group?_modGroup_same _ (written_key h h idx r) ((groups _ _).trans group), rfl, written_results h h idx r,
    (congrArg Group.splits keeps :), (congrArg Group.queue keeps :), rfl,
    ⟨(congrArg State.storage acquired :), ?_, (congrArg State.teams acquired :)⟩, fun a b other => ?_⟩
  · exact (congrArg (fun s : State => s.host.mem) acquired :)
  · exact (group?_modGroup_ne _ _ (fun y => written_key h y idx r) other).trans (groups a b)

end

/-- Settles O31: an access is made at its place and its result takes what it gives; a result with none left is delivered. -/
theorem longLatencyResultWrites : Obligations.LongLatencyResultWrites := by
  intro t g idx n s x h r i s1 acquired team group result wide
  have hx := team?_uid team
  obtain ⟨rfl, rfl⟩ := group?_key group
  refine ⟨longLatencyResult_idle team group result, fun done a found => ⟨fun held => ?_, fun may => ?_⟩,
    longLatencyResult_writes team group result, fun c done all answered fail => ?_, ⟨rfl, rfl, rfl⟩, fun _ => rfl⟩
  · rw [longLatencyResult_access team group result done found, held]
    rfl
  · have performs := longLatencyResult_access team group result done found
    obtain rfl : a.idx = n := by simpa using List.find?_some found
    obtain ⟨p, performed⟩ := performPend_eq s x h r a
    obtain ⟨y, mine, results, quiet⟩ := access_group (x := x) (r := r) (a := a) group
    rw [may, if_pos rfl, performed] at performs
    refine ⟨_, _, Result.take (s.access x h r a).2 a.idx, performs,
      group?_modGroup_same _ ⟨rfl, rfl⟩ (group?_modResult _ mine), fun plain => ?_, ?_, fun q => access_keeps_pend _,
      fun there => ?_, fun here reads poison q => ?_, fun here sound => ⟨fun op ty b sv atomic => ?_, fun read => ?_⟩⟩
    · obtain ⟨teams, rest⟩ := quiet plain
      exact ⟨teams, (congrArg (fun z : Group => { z with results := h.results, passed := h.passed }) rest :)⟩
    · exact congrArg (List.map _) results
    · rw [access_remote there]
      obtain ⟨q, requests, -, tag, fields⟩ := sendRequest_asks (s.protectFor h r.rel) a.loc.dev (s.job x.ctx) a.loc.requestBase a.ask
        (.load h.team h.gid r.uid a.idx a.lane a.va)
      obtain ⟨dev, addr, ask, use, job⟩ := fields
      exact ⟨q, requests.trans (by rw [protectFor_fabric]), dev, addr, ask, use, job, fun _ => by rw [tag]; rfl⟩
    · rw [access_poisoned here reads poison]
      rfl
    · have access := access_atomic (x := x) (h := h) (r := r) here (sound (by rw [atomic]; rfl)) atomic
      refine ⟨congrArg (·.1.storage) access, congrArg (·.1.host) access, congrArg (·.1.teams) access, fun z hz => ?_, fun q => ?_⟩
      · rw [access] at mine
        cases mine.symm.trans hz
        rfl
      · rw [access]
        rfl
    · have access := access_read (x := x) (h := h) (r := r) here (sound (reads_of_isRead read)) read
      obtain ⟨served, may⟩ := serve_results s1 x.core (h.queue.filter fun e => e.uid < r.uid) (h.opOf r a) a.loc a.n
      refine ⟨(congrArg (·.1.storage) access).trans (congrArg State.storage served :),
        (congrArg (·.1.host) access).trans (congrArg State.host served :), _, may, fun q => ?_⟩
      rw [access]
      rfl
  · have delivers := longLatencyResult_delivers (n := n) team group result done all answered
    rw [deliverResult_eq, fail, hx] at delivers
    exact delivers

end Sys2Proof.Machine
end

section
namespace Sys2Proof.Machine

/-! ### fence and drain at issue (R156, R167, R283, R284) -/

theorem ready_fields {s : State} {i : Instr} {k : Here} {lp : Bool} {f : Long} {fm : Form} (ready : s.ready i = some k)
    (form : i.form = some (lp, f, fm)) : k.f = f := by
  obtain ⟨_, _, _, -, -, own, -⟩ := ready_spec ready
  cases own.symm.trans form
  rfl

/-- The state in which the issuing split has been parked on what it waits for, under a new record number. -/
def State.parked (s : State) (k : Here) (w : Park) : State :=
  s.fresh.modGroup k.team.uid k.grp.gid fun h => h.modSplit k.sp.id fun p => { p with park := some w }

theorem issued_uid (s : State) (i : Instr) (k : Here) : (s.issued i k).uid = s.uid := rfl
theorem issued_copies (s : State) (i : Instr) (k : Here) : (s.issued i k).copies = s.copies := rfl

theorem onlyGroupFresh_parked {s : State} {i : Instr} {k : Here} (ready : s.ready i = some k) (w : Park) :
    OnlyGroupFresh s ((s.issued i k).parked k w) k ((k.issued i).modSplit k.sp.id fun p => { p with park := some w }) :=
  ⟨rfl, group?_modGroup_same (s := (s.issued i k).fresh) _ ⟨rfl, rfl⟩ (group?_issued ready), fun a b other =>
    calc ((s.issued i k).parked k w).group? a b
        = (s.issued i k).group? a b := group?_modGroup_ne (s.issued i k).fresh (fun h => h.modSplit k.sp.id _) (fun _ => ⟨rfl, rfl⟩) other
      _ = s.group? a b := group?_modGroup_ne s _ (fun _ => ⟨rfl, rfl⟩) other⟩

theorem exec_fence {f : Short} {s : State} {k : Here} (ready : s.ready (.fence f) = some k) : exec (.fence f) s =
    .next (if (s.issued (.fence f) k).completeAt (k.issued (.fence f)) s.uid (f.a.toNat % 16) then
      (s.issued (.fence f) k).endFence k.team k.grp.gid (f.a.toNat % 16)
    else (s.issued (.fence f) k).parked k (.fence (f.a.toNat % 16) s.uid)) := by
  change execFence f s = _
  have scope : bits k.f.a.toNat 3 0 = f.a.toNat % 16 := by rw [ready_fields ready rfl]; simp [bits, Short.toLong]
  rw [execFence, issue_ready _ ready]
  simp only [group?_issued ready, scope, issued_uid]
  by_cases complete : (s.issued (.fence f) k).completeAt (k.issued (.fence f)) s.uid (f.a.toNat % 16) = true
  · rw [if_pos complete, if_pos complete]
  · rw [if_neg complete, if_neg complete]
    rfl

theorem exec_drain {l : Long} {s : State} {k : Here} (ready : s.ready (.drain l) = some k) : exec (.drain l) s =
    .next (let us := (s.copies.filter fun c => c.core = k.team.core && c.inClass (l.f.toNat % 4)).map fun c => c.uid
      if us = [] then
        if l.f.toNat % 4 = 0 then s.issued (.drain l) k else (s.issued (.drain l) k).emptyCaches k.team.core
      else (s.issued (.drain l) k).parked k (.copies us (decide (l.f.toNat % 4 ≠ 0)) s.uid)) := by
  change execDrain l s = _
  have cls : bits k.f.f.toNat 1 0 = l.f.toNat % 4 := by rw [ready_fields ready rfl]; simp [bits]
  rw [execDrain, issue_ready _ ready]
  simp only [cls, issued_uid, issued_copies]
  by_cases none : (s.copies.filter fun c => c.core = k.team.core && c.inClass (l.f.toNat % 4)).map (fun c => c.uid) = []
  · rw [if_pos none, if_pos none]
  · rw [if_neg none, if_neg none]
    rfl

/-! ### The end of a fence (R114, R121, R156) -/

/-- It writes back lines that the group has touched, and empties caches. -/
theorem endFence_eq (s : State) (x : Team) (g sc : Nat) : ∃ (c : State) (f : Group → List Nat), CleanedOnly s c ∧
    { s.endFence x g sc with cores := c.cores } = c.modGroup x.uid g fun h => { h with touched := f h } := by
  obtain ⟨c, f, cleaned, protects⟩ : ∃ (c : State) (f : Group → List Nat), CleanedOnly s c ∧
      (if sc = 11 then s.protect x.uid g else s) = c.modGroup x.uid g fun h => { h with touched := f h } := by
    split
    · exact protect_eq s x.uid g
    · exact ⟨s, Group.touched, .refl s, (modGroup_self s _ _).symm⟩
  refine ⟨c, f, cleaned, ?_⟩
  unfold State.endFence
  dsimp only
  rw [protects]
  split
  · exact emptyCaches_rest (c.modGroup x.uid g _) x.core
  · rfl

theorem endFence_results {s : State} {x : Team} {g sc : Nat} {h : Group} (found : s.group? x.uid g = some h) :
    (s.endFence x g sc).storage.mem = s.storage.mem ∧ (s.endFence x g sc).teams = s.teams ∧
    (∀ a b, (a, b) ≠ (x.uid, g) → (s.endFence x g sc).group? a b = s.group? a b) ∧
    ∃ y, (s.endFence x g sc).group? x.uid g = some y ∧ { y with touched := h.touched } = h := by
  obtain ⟨c, f, cleaned, ends⟩ := endFence_eq s x g sc
  have groups (a b : Nat) := group?_congr (t := s.endFence x g sc) (congrArg State.groups ends :) a b
  refine ⟨(congrArg (fun t : State => t.storage.mem) ends :).trans cleaned.mem, (congrArg State.teams ends :).trans cleaned.teams,
    fun a b other => ?_, _, (groups _ _).trans (group?_modGroup_same _ ⟨rfl, rfl⟩ ?_), rfl⟩
  · exact ((groups a b).trans (group?_modGroup_ne c _ (fun _ => ⟨rfl, rfl⟩) other)).trans (group?_congr cleaned.groups a b)
  · exact (group?_congr cleaned.groups _ _).trans found

theorem fence_results (f : Short) (s : State) (k : Here) (ready : s.ready (.fence f) = some k) :
    ((s.issued (.fence f) k).completeAt (k.issued (.fence f)) s.uid (f.a.toNat % 16) = true →
      exec (.fence f) s = .next ((s.issued (.fence f) k).endFence k.team k.grp.gid (f.a.toNat % 16))) ∧
    ((s.issued (.fence f) k).completeAt (k.issued (.fence f)) s.uid (f.a.toNat % 16) = false →
      ∃ t h, exec (.fence f) s = .next t ∧ OnlyGroupFresh s t k h ∧
        h = (k.issued (.fence f)).modSplit k.sp.id fun p => { p with park := some (.fence (f.a.toNat % 16) s.uid) }) ∧
    ∃ t h, exec (.fence f) s = .next t ∧ t.storage.mem = s.storage.mem ∧ t.teams = s.teams ∧
      (∀ a b, (a, b) ≠ (k.team.uid, k.grp.gid) → t.group? a b = s.group? a b) ∧
      t.group? k.team.uid k.grp.gid = some h ∧ (h.v, h.g, h.p, h.q, h.x) = (k.grp.v, k.grp.g, k.grp.p, k.grp.q, k.grp.x) := by
  have parks := onlyGroupFresh_parked ready (.fence (f.a.toNat % 16) s.uid)
  rw [exec_fence ready]
  refine ⟨fun complete => by rw [if_pos complete], fun waits => ?_, ?_⟩
  · exact ⟨_, _, congrArg Host.Outcome.next (if_neg (Bool.eq_false_iff.mp waits)), parks, rfl⟩
  split
  · obtain ⟨mem, teams, others, y, mine, rest⟩ := endFence_results (sc := f.a.toNat % 16) (group?_issued ready)
    exact ⟨_, y, rfl, mem, teams, fun a b other => (others a b other).trans (group?_modGroup_ne s _ (fun _ => ⟨rfl, rfl⟩) other),
      mine, (congrArg (fun z : Group => (z.v, z.g, z.p, z.q, z.x)) rest :)⟩
  · exact ⟨_, _, rfl, rfl, rfl, parks.others, parks.mine, rfl⟩

theorem drain_results (l : Long) (s : State) (k : Here) (ready : s.ready (.drain l) = some k) :
    let us := (s.copies.filter fun c => c.core = k.team.core && c.inClass (l.f.toNat % 4)).map fun c => c.uid
    (us = [] → exec (.drain l) s = .next
      (if l.f.toNat % 4 = 0 then s.issued (.drain l) k else (s.issued (.drain l) k).emptyCaches k.team.core)) ∧
    (us ≠ [] → ∃ t h, exec (.drain l) s = .next t ∧ OnlyGroupFresh s t k h ∧ h = (k.issued (.drain l)).modSplit k.sp.id fun p =>
      { p with park := some (.copies us (decide (l.f.toNat % 4 ≠ 0)) s.uid) }) := by
  rw [exec_drain ready]
  exact ⟨fun none => congrArg Host.Outcome.next (if_pos none),
    fun some => ⟨_, _, congrArg Host.Outcome.next (if_neg some), onlyGroupFresh_parked ready _, rfl⟩⟩

/-! ### A parked fence when the clock counts (R283, R369) -/

/-- The splits of a group that are no longer parked, those set aside for a handler too. -/
theorem unpark_splits (h : Group) (which : Split → Bool) : (h.unpark which).splits ++ (h.unpark which).saved.getD [] =
    (h.splits ++ h.saved.getD []).map fun p => if which p then { p with park := none } else p := by
  rw [List.map_append]
  cases saved : h.saved <;> simp [Group.unpark, saved]

theorem endFences_results (s : State) (x : Team) (h : Group) (p : Split) (sc before : Nat) (groups : s.groups = [h])
    (team : s.team? h.team = some x) (only : h.splits ++ h.saved.getD [] = [p]) (park : p.park = some (.fence sc before)) :
    (s.completeAt h before sc = false → s.endFences = s) ∧
    (s.completeAt h before sc = true →
      (s.endFences.group? h.team h.gid).map (fun y => y.splits ++ y.saved.getD []) = some [{ p with park := none }]) := by
  have ended : s.fenceOver h p = s.completeAt h before sc := by rw [State.fenceOver, park]
  have parks : (s.groups.flatMap fun h => ((h.splits ++ h.saved.getD []).filter (s.fenceOver h)).map fun p => (h, p.park)) =
      if s.completeAt h before sc then [(h, some (.fence sc before))] else [] := by
    rw [groups, List.flatMap_singleton, only, List.filter_singleton, ended, ← park]
    cases s.completeAt h before sc <;> rfl
  refine ⟨fun waits => ?_, fun complete => ?_⟩
  · rw [State.endFences, parks, waits]
    rfl
  · have ends : s.endFences = (s.endFence x h.gid sc).modGroup x.uid h.gid fun h =>
        h.unpark fun p => p.park = some (.fence sc before) := by
      rw [State.endFences, parks, complete]
      simp [team]
    have hx := team?_uid team
    have found : s.group? x.uid h.gid = some h := by simp [State.group?, groups, hx]
    obtain ⟨-, -, -, y, mine, rest⟩ := endFence_results (sc := sc) found
    have same : y.splits ++ y.saved.getD [] = [p] :=
      (congrArg (fun z : Group => z.splits ++ z.saved.getD []) rest :).trans only
    rw [ends, ← hx, group?_modGroup_same _ ⟨rfl, rfl⟩ mine, Option.map_some, unpark_splits, same]
    simp [park]

/-! ### What a parked fence or drain holds up (R156, R157, R167, R173) -/

section
variable {s : State} {x : Team} {h : Group} {p : Split} {e : QEntry} {before : Nat}

/-- An entry of the store queue that is performed behind a parked fence or drain passes it: that takes a fence, and a scope of
this die. -/
theorem passes_of_mayPerform {sc : Option Nat} (mine : p ∈ h.splits ++ h.saved.getD []) (later : before < e.uid)
    (near : e.loc.isWindow = false) (point : p.fencePoint = some (before, sc)) (may : s.mayPerform x h e = true) :
    ∃ n, sc = some n ∧ s.mayPass h e.uid (before + 1) n = true := by
  have points : (before, sc) ∈ (h.splits ++ h.saved.getD []).filterMap Split.fencePoint := List.mem_filterMap.mpr ⟨p, mine, point⟩
  have listed : (before, sc) ∈ h.orderPoints e.uid :=
    List.mem_filter.mpr ⟨List.mem_append_left _ (List.mem_append_right _ points), by simpa using later⟩
  have unmet : (before + 1, sc) ∈ s.entryUnmet h e := by
    rw [State.entryUnmet, near]
    exact List.mem_append_left _ (List.mem_append_left _ (List.mem_map.mpr ⟨_, listed, rfl⟩))
  have all : s.mayPassAll h e.uid (s.entryUnmet h e) = true := (Bool.and_eq_true_iff.mp may).2
  have passes := List.all_eq_true.mp all _ unmet
  cases sc with
  | none => cases passes
  | some n => exact ⟨n, rfl, passes⟩

theorem waits_for_drain {us : List Nat} {b : Bool} (mine : p ∈ h.splits ++ h.saved.getD []) (later : before < e.uid)
    (near : e.loc.isWindow = false) (park : p.park = some (.copies us b before)) : s.mayPerform x h e = false :=
  Bool.eq_false_iff.mpr fun may => by
    obtain ⟨n, point, -⟩ := passes_of_mayPerform mine later near (by rw [Split.fencePoint, park]) may
    cases point

theorem passes_fence {sc : Nat} (mine : p ∈ h.splits ++ h.saved.getD []) (later : before < e.uid)
    (near : e.loc.isWindow = false) (park : p.park = some (.fence sc before)) (may : s.mayPerform x h e = true) :
    sc ≤ 7 ∧ s.unwatched h (before + 1) = true := by
  obtain ⟨n, point, pass⟩ := passes_of_mayPerform mine later near (by rw [Split.fencePoint, park]) may
  obtain rfl := Option.some.inj point
  simp only [State.mayPass, Bool.and_eq_true, decide_eq_true_eq] at pass
  exact ⟨pass.1.1, pass.2⟩

end

/-- Settles O34, by what fence and drain do at issue, the end of a parked fence, and the ordering points of later accesses. -/
theorem fenceAndDrainResults : Obligations.FenceAndDrainResults := by
  refine ⟨fence_results, fun s x h p sc before groups team only park => endFences_results s x h p sc before groups team ?_ park,
    drain_results, fun s x h p us b sc before e mine later => ⟨fun window => if_pos window, fun near =>
      ⟨waits_for_drain mine later near, fun park => ⟨fun wide => Bool.eq_false_iff.mpr fun may => ?_,
        fun may => (passes_fence mine later near park may).2⟩⟩⟩⟩
  · rcases only with ⟨splits, saved⟩ | ⟨splits, saved⟩ <;> rw [splits, saved] <;> rfl
  · exact absurd (passes_fence mine later near park may).1 (by omega)

end Sys2Proof.Machine
end

section
/-!
Encoding: the lemmas of the family on encoding and the statements that they settle.
-/
namespace Sys2Proof.Laws.RoundTrip

/-- Every instruction's words decode to it where it is well formed: one lemma for each constructor, in their order. -/
theorem statement (i : Instr) : Statement i :=
  Instr.casesOn (motive := Statement) i
    nop iadd isub imul imad imulhi imin imax iabs and or xor andn shl shr sar fsh popc clz ctz brev bfx bfi perm lea
    icmp sel mov icvt plop setx addx movi iaddi imuli iandi iori ixori icmpi setxi fadd fsub fmul ffma fdiv fsqrt fmin
    fmax fsgn fcmp frcp frsq fexp2 flog2 fsin fcos fclass fcvt f2i i2f frnd bmax bscale bquant bdequant bnf unpk lxch
    lpred lred lscan ld st lds sts stm atom atoms red reds gath spawn done collPut collGet collRed lsr gnop gadd gsub
    gmul gmad gmin gmax gand gor gxor gshl gshr gsar gpopc gclz gbfx gbfi gcmp gsel gmov gplop gsr gsw gmovi gaddi
    gandi gcmpi br brx call ret join exit trap gld gst gbarInit gbarArrive gbarExpect gbarExpa gbarWait gbarTry fence
    drain cpyaB2t cpyaT2b cpyaB2b cpyaFlat dinv dinvAll pub gcollAr gcollRs gcollAg conv convDis mma mmaSp prune
    pruneT accZero accLd accSt accAdd mcommit mwait splitMerge holdTimeout longLatencyResult nopCommand launch launchi
    loop branch waitph waitphPoll signal publish hcopy hcopyComplete fenceCommand seed stop teamPlacement
    spawnedGroupStart gridComplete permitGrant tileLanding copyCredit matrixOpStart matrixOpComplete convocationEnd
    timerTrap handlerEntry teamResume fqansRetry fqansFail contextDrainComplete preemptDeadline create destroy key
    inval preempt restore freset retain unretain retentionComplete reshape lose topo attest wreset update start
    irqClear eqptrHead fqptrHead pcapWrite tmoutWrite rmctlGo registerWrite powerStep dieThermalLimit dieThermalTrip
    stackLost stackTimeout patrolScrub journalApply writeBack capacityPackageLost portStateChange peerTimeout
    peerAccessRequest peerResponse put get getResponse remoteReduction forward addAndForward final scaleMax plan
    chunkCredit collectiveComplete collectiveTimeout hostBar2Read hostBar2Write hostAtomicop fetchaddComplete
    cpRestart cpWatchdog storePerformed undefinedEncoding reservedCommand hostLineOwnership reshapeComplete coldReset
    hostLinkDown hostLinkUp rootFirmwareFault hostCompletionTimeout

/-- Settles O1: the constructors that are fetched rebuild from their parts, and the others have no form. -/
theorem decodeEncodeRoundTrip : Obligations.DecodeEncodeRoundTrip := statement

end Sys2Proof.Laws.RoundTrip
end

section
namespace Sys2Proof.Machine

/-! ### A group-pipe instruction whose guard is false (R183, R228) -/

/-- The meaning of a group-pipe instruction is an issue; that of conv and the matched instructions asks first whether a handler
issues it (R369). -/
theorem exec_groupPipe {i : Instr} {f : Long} {fm : Form} (form : i.form = some (false, f, fm)) (s : State) :
    ∃ more body, exec i s = issueWith i s more body ∨
      Claims.plainIssue i = false ∧ exec i s = issueMatched i s more body := by
  cases i with
  | conv | convDis | mma | mmaSp | accZero | accLd | accSt | accAdd | mcommit => exact ⟨_, _, .inr ⟨rfl, rfl⟩⟩
  | gadd | gsub | gmul | gmad | gmin | gmax | gand | gor | gxor | gshl | gshr | gsar =>
    simp only [exec, execGadd, execGsub, execGmul, execGmad, execGmin, execGmax, issueGint, execGand, execGor, execGxor,
      issueGlogic, execGshl, execGshr, execGsar, issueGshift, issueGroup, issueRegs, issue]
    exact ⟨_, _, .inl rfl⟩
  | gpopc | gclz | gbfx | gbfi | gsel | gmov | gsr | gmovi | gaddi | gandi =>
    simp only [exec, execGpopc, execGclz, execGbfx, execGbfi, execGsel, execGmov, execGsr, execGmovi, execGaddi, execGandi,
      issueGroup, issueRegs, issue]
    exact ⟨_, _, .inl rfl⟩
  | gnop | gcmp | gplop | gcmpi =>
    simp only [exec, execGnop, execGcmp, execGplop, execGcmpi, issueRegs, issue]
    exact ⟨_, _, .inl rfl⟩
  | gsw | br | brx | call | ret | join | exit | trap | gld | gst | gbarInit | gbarArrive | gbarExpect | gbarExpa | gbarWait
  | gbarTry | fence | drain | cpyaB2t | cpyaT2b | cpyaB2b | cpyaFlat | dinv | dinvAll | pub | gcollAr | gcollRs | gcollAg =>
    simp only [exec, execGsw, execBr, execBrx, execCall, execRet, execJoin, execExit, execTrap, execGld, execGst, execGbarInit,
      execGbarArrive, execGbarExpect, execGbarExpa, execGbarWait, execGbarTry, execFence, execDrain, execCpyaB2t, execCpyaT2b,
      execCpyaB2b, execCpyaFlat, execDinv, execDinvAll, execPub, execGcollAr, execGcollRs, execGcollAg, issue]
    exact ⟨_, _, .inl rfl⟩
  | prune | pruneT | mwait =>
    simp only [exec, execPrune, execPruneT, execMwait]
    exact ⟨_, _, .inl rfl⟩
  | _ => cases form

/-- An issue whose guard is false and which no cause stops only retires. -/
theorem issueWith_falseGuard {i : Instr} {s : State} {x : Team} {h : Group} {p : Split} {f : Long} {fm : Form}
    (more : Here → Option (BitVec 8)) (body : Here → State → Body) (issuing : s.issuing = some (x, h, p))
    (form : i.form = some (false, f, fm)) (may : mayIssue x h p = true) (waits : windowWaits h p = false)
    (noCause : issueCause i h p false f fm = none) (guard : guardHolds h f.g = false) :
    issueWith i s more body = .next (s.modGroup x.uid h.gid fun h => h.retire p.id i.length (x.halted && !x.handler)) := by
  simp [issueWith, issuing, form, may, waits, noCause, guard, lowerCause]

/-- Outside a handler conv and the matched instructions issue as every other does. -/
theorem issueMatched_outsideHandler {i : Instr} {s : State} {x : Team} {h : Group} {p : Split}
    (more : Here → Option (BitVec 8)) (body : Here → State → Body) (issuing : s.issuing = some (x, h, p))
    (outside : h.inHandler = false) : issueMatched i s more body = issueWith i s more body := by
  simp [issueMatched, issuing, outside]

/-- Settles O6: the instruction issues, and its issue ends at the guard. -/
theorem falseGuardChangesNothing : Obligations.FalseGuardChangesNothing := by
  intro i s x h p f fm issuing form plain may waits noCause guard
  obtain ⟨more, body, run | ⟨matched, run⟩⟩ := exec_groupPipe form s
  · rw [run, issueWith_falseGuard more body issuing form may waits noCause guard]
  · have outside : h.inHandler = false := Bool.eq_false_iff.mpr fun inside => by
      rw [plain inside] at matched
      cases matched
    rw [run, issueMatched_outsideHandler more body issuing outside,
      issueWith_falseGuard more body issuing form may waits noCause guard]

end Sys2Proof.Machine
end

section
namespace Sys2Proof.Machine

/-! ### A step that gives the turn to a split (R174, R362, R364) -/

/-- Bytes that are an instruction are the one fetched. -/
theorem fetched_of_defined {x : Team} {h : Group} {b : List Byte} (defined : ∀ c, decodeBytes b ≠ .undefinedEncoding c) :
    fetched x h b = decodeBytes b := by
  unfold fetched
  split
  · rename_i c undefined
    exact absurd undefined (defined c)
  · rfl

/-- Of bytes that are none the cause is 0x02 where the region that they name is reserved (R362). -/
theorem fetched_of_undefined {x : Team} {h : Group} {b : List Byte} {c : BitVec 8} (undefined : decodeBytes b = .undefinedEncoding c) :
    fetched x h b = .undefinedEncoding (if (namedBy b).any (regionOdd x h) then 0x02 else c) := by
  simp only [fetched, undefined]

section
variable {s : State} {t g p : Nat} {x : Team} {h : Group} {sp : Split} {b0 : List Byte}
  (team : s.team? t = some x) (group : s.group? t g = some h) (split : h.split? p = some sp) (may : mayIssue x h sp = true)
  (first : s.fetchWord x.ctx (t + 1, g) sp.pc = .bytes b0)
include team group split may first

/-- R364: with L 0 the first word is the whole instruction. -/
theorem fetch_oneWord (short : (b0.getD 3 0).getLsbD 6 = false) :
    s.fetch t g p = .run (fetched x h b0) ((s.takeAnswers (t + 1, g)).rekeySpans x.ctx [(sp.pc, 4)]) := by
  unfold State.fetch
  simp only [team, group, split, may, first, short, Bool.not_true, Bool.false_eq_true, if_false]

/-- R364: with L 1 the second word is fetched too. -/
theorem fetch_twoWords {b1 : List Byte} (long : (b0.getD 3 0).getLsbD 6 = true)
    (second : s.fetchWord x.ctx (t + 1, g) (sp.pc + 4) = .bytes b1) :
    s.fetch t g p = .run (fetched x h (b0 ++ b1)) ((s.takeAnswers (t + 1, g)).rekeySpans x.ctx [(sp.pc, 8)]) := by
  unfold State.fetch
  simp only [team, group, split, may, first, long, second, Bool.not_true, Bool.false_eq_true, if_false, if_true]

end

theorem step_issue {s s' : State} {t g p : Nat} {rest : List Move} {i : Instr} (turn : s.agenda = .issue t g p :: rest)
    (fetch : (s.turned rest).fetch t g p = .run i s') :
    step s = Claims.after (s.turned rest).unlessStalled (exec i { s' with issuer := .split t g p }) := by
  simp only [step_of_move turn, runMove, runIssue, fetch]

/-- Where no line has a key a fetch finds every line under its own (R112). -/
theorem rekeySpans_of_keyless {s : State} {ctx : Nat} (h : s.keyless ctx = true) (l : List (DWord × Nat)) :
    s.rekeySpans ctx l = s := if_pos h

theorem takeAnswers_keyless (s : State) (key : Nat × Nat) (ctx : Nat) : (s.takeAnswers key).keyless ctx = s.keyless ctx :=
  (congrArg (State.keyless · ctx) (takeAnswers_rest s key) :)

/-- Settles O3: the words at the program counter are fetched, one or two by L, and the instruction they decode to runs. -/
theorem stepRunsDecodedInstruction : Obligations.StepRunsDecodedInstruction := by
  intro s t g p rest x h sp b0 turn team group split may s1 ran runs first
  have runs_of_fetch {n : Nat} {b : List Byte} (fetch : s1.fetch t g p =
      .run (fetched x h b) ((s1.takeAnswers (t + 1, g)).rekeySpans x.ctx [(sp.pc, n)])) : runs n b := by
    have stepped : step s = Claims.after s1.unlessStalled (ran n (fetched x h b)) := step_issue turn fetch
    exact ⟨fetched x h b, stepped, fun room => stepped.trans (after_unlessStalled_of_room room _), fetched_of_defined,
      fun c => fetched_of_undefined⟩
  refine ⟨fun short => runs_of_fetch (fetch_oneWord (s := s1) team group split may first short),
    fun b1 long second => runs_of_fetch (fetch_twoWords (s := s1) team group split may first long second), fun keyless n => ?_⟩
  exact rekeySpans_of_keyless ((takeAnswers_keyless s1 _ _).trans keyless) _

end Sys2Proof.Machine
end

section
namespace Sys2Proof.Machine

/-! ### What a ready instruction's encoding holds (R178, R362, R363) -/

/-- Neither 0x02 nor 0x03 stands against a ready instruction's encoding. -/
theorem ready_encoding {s : State} {i : Instr} {k : Here} (e : s.ready i = some k) : i.encodingCause = none := by
  obtain ⟨_, _, _, -, -, -, -, -, -, noCause, -⟩ := ready_spec e
  cases cause : i.encodingCause with
  | none => rfl
  | some c => simp [issueCause, cause] at noCause

theorem wellFormed_encoding {i : Instr} (h : i.wellFormed = true) : i.encodingCause = none := by
  simp only [Instr.wellFormed, Bool.and_eq_true, decide_eq_true_eq] at h
  exact h.2

/-- What an encoding that raises no cause says of its fields. -/
structure CleanFields (f : Long) (fm : Form) : Prop where
  value : fm.bad = false
  reserved : fm.rsv = false
  d : fm.d.rsv f.d false = false
  a : fm.a.rsv f.a f.ka = false
  c : fm.c.rsv f.c f.kc = false

theorem cleanFields_of_encoding {i : Instr} {lp : Bool} {f : Long} {fm : Form} (form : i.form = some (lp, f, fm))
    (clean : i.encodingCause = none) : CleanFields f fm := by
  simp only [Instr.encodingCause, form] at clean
  split at clean
  · cases clean
  · rename_i value
    split at clean
    · cases clean
    · rename_i reserved
      simp only [Bool.or_eq_true, not_or, Bool.not_eq_true] at value reserved
      obtain ⟨⟨⟨⟨⟨⟨-, bad⟩, -⟩, -⟩, -⟩, -⟩, -⟩ := value
      obtain ⟨⟨⟨⟨⟨⟨rsv, -⟩, -⟩, d⟩, a⟩, -⟩, c⟩ := reserved
      exact ⟨bad, rsv, d, a, c⟩

/-- A field that names a predicate holds its number (R179). -/
theorem pred_lt_of_clean {n : BitVec 8} {k : Bool} (h : Slot.pred.rsv n k = false) : n.toNat < 8 := by
  revert h
  unfold Slot.rsv
  revert n k
  decide

theorem qpred_lt_of_clean {n : BitVec 8} {k : Bool} (h : Slot.qpred.rsv n k = false) : n.toNat < 8 := pred_lt_of_clean h

theorem zero_of_clean {n : BitVec 8} {k : Bool} (h : Slot.zero.rsv n k = false) : n = 0 := by
  simp only [Slot.rsv, Bool.or_eq_false_iff, decide_eq_false_iff_not, ne_eq, not_not] at h
  exact h.1

theorem tidy_parts {h : Group} (tidy : h.tidy = true) : SMap.wf h.v = true ∧ SMap.wf h.g = true ∧ SMap.wf h.p = true ∧
    SMap.wf h.x = true ∧ SMap.wf h.weight = true := by
  simpa only [Group.tidy, Bool.and_eq_true, and_assoc] using tidy

/-! ### Predicates (R191, R214, R216) -/

theorem pmask_seven {h : Group} {lane : Nat} (inside : lane < 32) : (h.pmask 7).getLsbD lane = true := by
  simp only [Group.pmask, if_true, BitVec.getLsbD_allOnes, inside, decide_true]

theorem pmask_setPmask {h : Group} (n r : Nat) (m : LaneMask) (wf : SMap.wf h.p = true) :
    (h.setPmask n m).pmask r = if r = n ∧ n ≠ 7 then m else h.pmask r := by
  unfold Group.setPmask
  by_cases seven : n = 7
  · rw [if_pos seven, if_neg fun both => both.2 seven]
  · rw [if_neg seven]
    by_cases same : r = n
    · subst same
      simp [Group.pmask, seven, SMap.get_set _ _ _ _ wf]
    · simp [Group.pmask, same, SMap.get_set _ _ _ _ wf]

/-- A write of a lane predicate in the participating lanes: what each lane then reads. -/
theorem getLsbD_setPred {h : Group} (n : Nat) (m : LaneMask) (f : Nat → Bool) (wf : SMap.wf h.p = true) {lane : Nat} (inside : lane < 32) :
    ((h.setPred n m f).pmask n).getLsbD lane = (n = 7 || if m.getLsbD lane then f lane else (h.pmask n).getLsbD lane) := by
  unfold Group.setPred
  rw [pmask_setPmask _ _ _ wf]
  by_cases seven : n = 7
  · simp only [seven, ne_eq, not_true, and_false, if_false, pmask_seven inside, decide_true, Bool.true_or]
  · cases hm : m.getLsbD lane <;>
      simp only [seven, ne_eq, not_false_eq_true, and_self, if_true, BitVec.getLsbD_or, BitVec.getLsbD_and, BitVec.getLsbD_not,
        getLsbD_maskOf, inside, hm, decide_true, decide_false, Bool.not_true, Bool.not_false, Bool.and_true, Bool.and_false,
        Bool.false_and, Bool.true_and, Bool.or_false, Bool.false_or, Bool.false_eq_true, if_false]

theorem setPred_rest (h : Group) (n : Nat) (m : LaneMask) (f : Nat → Bool) : { h.setPred n m f with p := h.p } = h := by
  unfold Group.setPred Group.setPmask
  split <;> rfl

/-- An instruction that writes a lane predicate of its field D. -/
theorem writesPred_of_issueRegs {i : Instr} {lp : Bool} {f : Long} {fm : Form} {R : Here → Nat → Bool}
    (form : i.form = some (lp, f, fm))
    (run : ∀ s, exec i s = issueRegs i s fun k h => h.setPred f.d.toNat k.mask (R k)) : WritesPred i fun _ => R := by
  intro s k ready tidy
  generalize named : f.d.toNat = d at run
  obtain ⟨-, -, wf, -⟩ := tidy_parts tidy
  obtain ⟨t, next, only⟩ := issueRegs_ready (fun k h => h.setPred d k.mask (R k)) ready fun h => by
    simp [Group.setPred]
  refine ⟨t, _, (run s).trans next, only, ?_⟩
  rw [ready_fields ready form, named]
  refine ⟨setPred_rest (k.issued i) d k.mask (R k), fun r other => ?_, fun lane inside idle => ?_, fun lane takes => ?_⟩
  · exact (pmask_setPmask (h := k.issued i) d r _ wf).trans (if_neg fun both => other both.1)
  · rw [getLsbD_setPred d k.mask (R k) (h := k.issued i) wf inside, idle]
    by_cases seven : d = 7
    · simp only [seven, pmask_seven inside, decide_true, Bool.true_or]
    · simp only [seven, decide_false, Bool.false_or, Bool.false_eq_true, if_false]
      rfl
  · rw [getLsbD_setPred d k.mask (R k) (h := k.issued i) wf (BitVec.lt_of_getLsbD takes), if_pos takes]

theorem qreg_setQ (h : Group) {n r : Nat} (b : Bool) (hn : n < 8) (hr : r < 8) :
    (h.setQ n b).qreg r = if r = n then (n = 7 || b) else h.qreg r := by
  unfold Group.setQ Group.qreg
  by_cases seven : n = 7
  · subst seven
    by_cases same : r = 7 <;> simp [same]
  · by_cases same : r = n
    · subst same
      have inside : r < 7 := by omega
      cases b <;> simp [seven, inside]
    · have apart : ¬n = r := fun e => same e.symm
      have low : (decide (r = 7) || h.q.getLsbD r && decide (r < 7)) = (decide (r = 7) || h.q.getLsbD r) := by
        by_cases top : r = 7
        · simp [top]
        · simp [show r < 7 by omega]
      cases b <;> simp [seven, same, apart, low]

theorem setQ_rest (h : Group) (n : Nat) (b : Bool) : { h.setQ n b with q := h.q } = h := by
  unfold Group.setQ
  split <;> rfl

/-- An instruction that writes the group predicate of its field D. -/
theorem writesQ_of_issueRegs {i : Instr} {lp : Bool} {f : Long} {fm : Form} {R : Here → Bool}
    (form : i.form = some (lp, f, fm)) (names : fm.d = .qpred)
    (run : ∀ s, exec i s = issueRegs i s fun k h => h.setQ f.d.toNat (R k)) : WritesQ i fun _ => R := by
  intro s k ready tidy
  have inside : f.d.toNat < 8 := by
    have clean := (cleanFields_of_encoding form (ready_encoding ready)).d
    rw [names] at clean
    exact qpred_lt_of_clean clean
  generalize named : f.d.toNat = d at run inside
  obtain ⟨t, next, only⟩ := issueRegs_ready (fun k h => h.setQ d (R k)) ready fun h => by simp
  refine ⟨t, _, (run s).trans next, only, ?_⟩
  rw [ready_fields ready form, named]
  refine ⟨setQ_rest (k.issued i) d (R k), fun r small other => ?_, ?_⟩
  · exact (qreg_setQ _ _ inside small).trans (if_neg other)
  · exact (qreg_setQ _ _ inside inside).trans (if_pos rfl)

/-- The conditions of R214 as compares test them. -/
theorem condition_eq : Claims.condition = condHolds := by
  funext f w a b
  obtain ⟨⟨n, hn⟩⟩ := f
  unfold Claims.condition condHolds
  interval_cases n <;> simp [bne, beq_eq_decide]

/-- Settles O17: every instruction writes one predicate; predicate 7 reads true and keeps no write. -/
theorem predicateResults : Obligations.PredicateResults := by
  unfold Obligations.PredicateResults
  rw [condition_eq]
  exact ⟨⟨fun _ => writesPred_of_issueRegs rfl fun _ => rfl, fun _ => writesPred_of_issueRegs rfl fun _ => rfl,
      fun _ => writesPred_of_issueRegs rfl fun _ => rfl⟩,
    ⟨fun _ => writesQ_of_issueRegs rfl rfl fun _ => rfl, fun _ => writesQ_of_issueRegs rfl rfl fun _ => rfl,
      fun _ => writesQ_of_issueRegs rfl rfl fun _ => rfl⟩,
    fun _ => ⟨fun _ => pmask_seven, rfl, fun _ => rfl, fun _ _ => rfl, fun _ => rfl⟩⟩

end Sys2Proof.Machine
end

section
namespace Sys2Proof.Machine

/-! ### Lane registers (R180 to R182, R190) -/

/-- What an operand of `n` lane registers keeps of a value: all of it, or its low 32 bits. -/
def laneFit (n : Nat) (x : DWord) : DWord := if n = 2 then x else (x.setWidth 32).setWidth 64

theorem laneFit_two (x : DWord) : laneFit 2 x = x := rfl
theorem laneFit_one (x : DWord) : laneFit 1 x = (x.setWidth 32).setWidth 64 := rfl

theorem laneFit_low (n : Nat) (w : Word) (h : n ≠ 2) : laneFit n (w.setWidth 64) = w.setWidth 64 := by
  simp [laneFit, h]

/-- A source of `n` lane registers holds no more than they do. -/
theorem laneFit_src (k : Here) (n fld : Nat) (kb : Bool) (lane : Nat) : laneFit n (k.src n fld kb lane) = k.src n fld kb lane := by
  by_cases pair : n = 2
  · simp [laneFit, pair]
  · cases kb <;> simp [Here.src, pair, laneFit_low]

/-- A lane-register source is what the registers hold. -/
theorem src_lane (k : Here) (n fld lane : Nat) : k.src n fld false lane = k.grp.operand fld n lane := rfl

/-- A value written to `n` lane registers, as an integer. -/
theorem toNat_laneFit_ofInt {n : Nat} (h : n = 1 ∨ n = 2) (x : Int) :
    ((laneFit n (BitVec.ofInt 64 x)).toNat : Int) = x % 2 ^ (32 * n) := by
  rcases h with rfl | rfl
  · simp only [laneFit_one, BitVec.toNat_setWidth, BitVec.toNat_ofInt]
    omega
  · simp only [laneFit_two, BitVec.toNat_ofInt]
    omega

theorem intRegs_one_or_two (m : BitVec 4) : intRegs m = 1 ∨ intRegs m = 2 := by
  unfold intRegs
  split
  · exact .inr rfl
  · exact .inl rfl

/-- An instruction that writes `n` lane registers of D in the participating lanes. -/
theorem writesLanes_of_issueLanes {i : Instr} {n : Nat} {R : State → Here → Nat → DWord → Prop} (f : State → Here → Nat → DWord)
    (count : n = 1 ∨ n = 2) (run : ∀ s k, s.ready i = some k → exec i s = issueLanes i s n (f s))
    (value : ∀ s k lane, R s k lane (laneFit n (f s k lane))) : WritesLanes i n R := by
  intro s k ready tidy
  obtain ⟨wf, -⟩ := tidy_parts tidy
  obtain ⟨t, h, next, only, frame, wrote⟩ := issueLanes_ready n (f s) count ready wf
  refine ⟨t, h, (run s k ready).trans next, only, frame, fun lane takes => ?_⟩
  rw [wrote lane takes]
  exact value s k lane

/-- A ready instruction does the same whichever of two changes it makes that agree there. -/
theorem issueRegs_congr {i : Instr} {s : State} {k : Here} {f g : Here → Group → Group} (ready : s.ready i = some k) (same : f k = g k) :
    issueRegs i s f = issueRegs i s g := by
  rw [issueRegs, issueRegs, issue_ready _ ready, issue_ready _ ready, same]

/-! ### Immediate forms (R219) -/

theorem writesLanes_issueImm {c : Imm → Instr} {r : DWord → DWord → DWord} {v : Imm} (run : ∀ s, exec (c v) s = issueImm c v s r) :
    WritesLanes (c v) (if v.f.getLsbD 0 then 2 else 1) fun _ k lane d =>
      let x := r (k.grp.operand v.a.toNat (if v.f.getLsbD 0 then 2 else 1) lane) (v.imm.signExtend 64)
      d = if v.f.getLsbD 0 then x else (x.setWidth 32).setWidth 64 := by
  refine writesLanes_of_issueLanes (fun _ k lane => r (k.src (if v.f.getLsbD 0 then 2 else 1) v.a.toNat false lane) (v.imm.signExtend 64))
    ?_ (fun s _ _ => run s) fun s k lane => ?_
  · split
    · exact .inr rfl
    · exact .inl rfl
  · simp only [src_lane]
    split
    · rfl
    · rfl

theorem exec_immediateTable (v : Imm) (s : State) :
    ∀ row ∈ Claims.immediateTable, exec (row.1 v) s = issueImm row.1 v s row.2 := by
  intro row listed
  simp only [Claims.immediateTable, List.mem_cons, List.not_mem_nil, or_false] at listed
  rcases listed with rfl | rfl | rfl | rfl | rfl | rfl <;> rfl

/-! ### mov (R182, R217) -/

/-- Registers that one write in each of several lanes, from a register of the lane's own, leaves. -/
theorem foldl_setLane_indexed (ls : List Nat) (h : Group) (r : Nat → Nat) (n : Nat) (f : Nat → DWord) (count : n = 1 ∨ n = 2)
    (wf : SMap.wf h.v = true) (inside : ∀ l ∈ ls, l < 32) (r' l' : Nat) (lane : l' < 32) :
    (ls.foldl (fun h l => h.setLane (r l) n l (f l)) h).lreg r' l' =
      if l' ∈ ls ∧ r l' ≤ r' ∧ r' < r l' + n then (f l').extractLsb' (32 * (r' - r l')) 32 else h.lreg r' l' := by
  induction ls generalizing h with
  | nil => simp
  | cons l ls ih =>
    have here : l < 32 := inside l (List.mem_cons_self ..)
    rw [List.foldl_cons, ih _ (setLane_wf _ _ _ _ _ wf) fun x hx => inside x (List.mem_cons_of_mem _ hx),
      setLane_lreg _ _ _ _ _ _ _ count wf here lane]
    by_cases same : l' = l
    · subst same
      by_cases reach : r l' ≤ r' ∧ r' < r l' + n <;> simp [reach]
    · simp [same]

/-- Nothing of the group but its lane registers changes. -/
theorem foldl_setLane_rest (ls : List Nat) (h : Group) (r : Nat → Nat) (n : Nat) (f : Nat → DWord) (v : SMap 32) :
    { ls.foldl (fun h l => h.setLane (r l) n l (f l)) h with v := v } = { h with v := v } := by
  induction ls generalizing h with
  | nil => rfl
  | cons l ls ih => exact (ih _).trans (setLane_rest h (r l) n l (f l) v)

theorem foldl_setLane_key (ls : List Nat) (h : Group) (r : Nat → Nat) (n : Nat) (f : Nat → DWord) :
    (ls.foldl (fun h l => h.setLane (r l) n l (f l)) h).team = h.team ∧
      (ls.foldl (fun h l => h.setLane (r l) n l (f l)) h).gid = h.gid :=
  ⟨(congrArg Group.team (foldl_setLane_rest ls h r n f h.v) :), (congrArg Group.gid (foldl_setLane_rest ls h r n f h.v) :)⟩

/-- Registers that hold a value's words hold what an operand keeps of it. -/
theorem operand_of_lreg {h : Group} {r n lane : Nat} {x : DWord} (count : n = 1 ∨ n = 2)
    (regs : ∀ j, j < n → h.lreg (r + j) lane = x.extractLsb' (32 * j) 32) : h.operand r n lane = laneFit n x := by
  rcases count with rfl | rfl
  · have low : h.lreg r lane = x.setWidth 32 := (regs 0 (by omega)).trans (extract_low x)
    simp [Group.operand, laneFit_one, low]
  · have low := regs 0 (by omega)
    have high := regs 1 (by omega)
    simp only [Nat.add_zero, Nat.mul_zero, Nat.mul_one] at low high
    simp only [Group.operand, Group.lpair, if_true, low, high, laneFit_two]
    exact BitVec.extractLsb'_append_extractLsb' (w := 32) (len := 32)

theorem exec_mov (l : Long) (s : State) : exec (.mov l) s = execMov l s := rfl

/-- With F[0] = 0 mov writes D. -/
theorem mov_results {l : Long} (direct : l.f.getLsbD 0 = false) :
    WritesLanes (.mov l) (intRegs l.m) fun _ k lane d => d = k.srcA (intRegs l.m) lane := by
  refine writesLanes_of_issueLanes (fun _ k => k.srcA (intRegs l.m)) (intRegs_one_or_two l.m) (fun s k ready => ?_)
    fun s k lane => laneFit_src ..
  rw [exec_mov, execMov, issueLanes]
  refine issueRegs_congr ready (funext fun h => ?_)
  simp only [direct, ready_fields ready rfl, Bool.false_eq_true, if_false]

/-- With F[0] = 1 mov writes in each participating lane the register D plus the lane's index. -/
theorem mov_indexed_results {l : Long} {s : State} {k : Here} (indexed : l.f.getLsbD 0 = true) (ready : s.ready (.mov l) = some k)
    (tidy : k.grp.tidy = true) :
    let n := intRegs l.m
    let at' (lane : Nat) := l.d.toNat + k.index lane
    ∃ t h, exec (.mov l) s = .next t ∧ OnlyGroup s t k h ∧ { h with v := k.grp.v } = k.issued (.mov l) ∧
      (∀ lane, k.mask.getLsbD lane = true → h.operand (at' lane) n lane = k.src n l.a.toNat l.ka lane) ∧
      ∀ r lane, lane < 32 → ¬(k.mask.getLsbD lane = true ∧ at' lane ≤ r ∧ r < at' lane + n) → h.lreg r lane = k.grp.lreg r lane := by
  intro n at'
  obtain ⟨wf, -⟩ := tidy_parts tidy
  let wrote (k : Here) (h : Group) : Group := (laneList k.mask).foldl (fun h lane =>
    h.setLane (l.d.toNat + k.index lane) n lane (k.src n l.a.toNat l.ka lane)) h
  have run : exec (.mov l) s = issueRegs (.mov l) s wrote := by
    rw [exec_mov, execMov]
    refine issueRegs_congr ready (funext fun h => ?_)
    simp only [indexed, if_true]
    rfl
  obtain ⟨t, next, only⟩ := issueRegs_ready wrote ready fun h => foldl_setLane_key ..
  have regs := foldl_setLane_indexed (laneList k.mask) (k.issued (.mov l)) at' n (k.src n l.a.toNat l.ka) (intRegs_one_or_two l.m) wf
    fun lane => laneList_lt k.mask lane
  simp only [laneList_mem] at regs
  refine ⟨t, _, run.trans next, only, foldl_setLane_rest .., fun lane takes => ?_, fun r lane inside idle => ?_⟩
  · refine (operand_of_lreg (intRegs_one_or_two l.m) fun j hj => ?_).trans (laneFit_src ..)
    refine (regs (at' lane + j) lane (BitVec.lt_of_getLsbD takes)).trans ?_
    rw [if_pos ⟨takes, by omega, by omega⟩, Nat.add_sub_cancel_left]
  · exact (regs r lane inside).trans (if_neg idle)

/-! ### Encodings of sel and nop (R215, R221) -/

theorem bits_word0_op (p l : Bool) (op : BitVec 7) (g : Guard) (d a : BitVec 8) (f : BitVec 3) :
    bits (word0 p l op g d a f).toNat 29 23 = op.toNat := by
  have field := congrArg BitVec.toNat (word0_op p l op g d a f)
  rwa [BitVec.extractLsb'_toNat, Nat.shiftRight_eq_div_pow] at field

theorem laneLong_of_parts {i : Instr} {op : BitVec 7} {l : Long} (parts : i.parts = some (false, op, .long l)) :
    Claims.laneLong i op.toNat := by
  refine ⟨word0 false true op l.g l.d l.a l.f, word1 l, ?_, word0_pipe .., word0_long .., bits_word0_op ..⟩
  simp only [encode, parts]

theorem mem_of_wideTypes (m : BitVec 4) (h : wideTypes m = true) : m ∈ [(0 : BitVec 4), 1, 2, 3, 8, 9] := by
  revert m
  decide

theorem eq_zero_of_and_seven (f : BitVec 3) (h : f &&& 7 = 0) : f = 0 := by
  revert f
  decide

theorem sel_encoding {l : Long} (wf : (Instr.sel l).wellFormed = true) : wideTypes l.m = true ∧ l.c.toNat < 8 ∧ l.f = 0 := by
  obtain ⟨value, reserved, -, -, c⟩ := cleanFields_of_encoding rfl (wellFormed_encoding wf)
  simp only [laneForm, Bool.not_eq_false', Bool.or_eq_false_iff, decide_eq_false_iff_not, ne_eq, not_not] at value reserved c
  exact ⟨value, pred_lt_of_clean c, eq_zero_of_and_seven _ reserved.1⟩

theorem nop_encoding {i : Short} (wf : (Instr.nop i).wellFormed = true) : i.d = 0 ∧ i.a = 0 ∧ i.f = 0 := by
  obtain ⟨-, reserved, d, a, -⟩ := cleanFields_of_encoding rfl (wellFormed_encoding wf)
  simp only [plainForm, Bool.or_eq_false_iff, decide_eq_false_iff_not, ne_eq, not_not] at reserved
  exact ⟨zero_of_clean d, zero_of_clean a, reserved.1.1⟩

theorem takesTypes_sel : Claims.takesTypes Instr.sel [0, 1, 2, 3, 8, 9] :=
  ⟨by decide, fun _ wf => mem_of_wideTypes _ (sel_encoding wf).1⟩

/-! ### The moves of the lane pipe -/

/-- A group register as a lane-pipe source (R181). -/
theorem src_group (k : Here) (fld lane : Nat) :
    (∀ n other, k.src n fld true other = k.src n fld true lane) ∧
    (k.src 1 fld true lane).toNat = bits (k.grp.greg fld).toNat 31 0 ∧ k.src 2 fld true lane = k.grp.greg fld ∧
    k.grp.greg 0 = 0 ∧ ∀ v, k.grp.setG 0 v = k.grp := by
  refine ⟨fun n other => by simp only [Here.src, if_true], ?_, by simp [Here.src], by simp [Group.greg], fun v => by simp [Group.setG]⟩
  simp only [Here.src, bits, if_true, OfNat.one_ne_ofNat, if_false, BitVec.toNat_setWidth]
  omega

theorem exec_sel (l : Long) (s : State) : exec (.sel l) s = execSel l s := rfl
theorem exec_icvt (l : Long) (s : State) : exec (.icvt l) s = execIcvt l s := rfl
theorem exec_lsr (i : Short) (s : State) : exec (.lsr i) s = execLsr i s := rfl

theorem sel_results (l : Long) : WritesLanes (.sel l) (intRegs l.m) fun _ k lane d => d =
    if (k.grp.pmask l.c.toNat).getLsbD lane then k.srcA (intRegs l.m) lane else k.srcB (intRegs l.m) lane := by
  refine writesLanes_of_issueLanes (fun _ k lane =>
    if (k.grp.pmask l.c.toNat).getLsbD lane then k.srcA (intRegs l.m) lane else k.srcB (intRegs l.m) lane)
    (intRegs_one_or_two l.m) (fun s _ _ => (exec_sel l s).trans (by rw [execSel])) fun s k lane => ?_
  split
  · exact laneFit_src ..
  · exact laneFit_src ..

theorem icvt_results (l : Long) : WritesLanes (.icvt l) (intRegs (l.c.setWidth 4)) fun _ k lane d =>
    let dst : BitVec 4 := l.c.setWidth 4
    let x := elemVal l.m 0 (k.srcA (intRegs l.m) lane)
    (d.toNat : Int) = (if l.f.getLsbD 0 then min (max x (leastOf dst)) (greatestOf dst) else x) % 2 ^ operandBits dst :=
  writesLanes_of_issueLanes
    (fun _ k lane => icvtOp l.m (l.c.setWidth 4) (l.f.getLsbD 0) (k.srcA (intRegs l.m) lane))
    (intRegs_one_or_two _) (fun s _ _ => (exec_icvt l s).trans (by rw [execIcvt])) fun _ _ _ => toNat_laneFit_ofInt (intRegs_one_or_two _) _

theorem lsr_results (i : Short) : WritesLanes (.lsr i) (if sregWide i.a then 2 else 1) fun s k lane d =>
    d = if sregWide i.a then s.sreg k.team k.grp k.sp lane i.a.toNat
      else ((s.sreg k.team k.grp k.sp lane i.a.toNat).setWidth 32).setWidth 64 := by
  refine writesLanes_of_issueLanes (fun s k lane => s.sreg k.team k.grp k.sp lane i.a.toNat) ?_
    (fun s _ _ => (exec_lsr i s).trans (by rw [execLsr])) fun s k lane => ?_
  · split
    · exact .inr rfl
    · exact .inl rfl
  · split
    · exact laneFit_two _
    · exact laneFit_one _

/-- Settles O18: each move writes its lanes, and the encodings hold what their forms leave free. -/
theorem laneMoveResults : Obligations.LaneMoveResults :=
  ⟨⟨sel_results, icvt_results, fun row listed v => writesLanes_issueImm fun s => exec_immediateTable v s row listed,
      fun i s k ready => issueRegs_ready (fun _ h => h) ready fun _ => ⟨rfl, rfl⟩, lsr_results⟩,
    ⟨fun _ => mov_results, fun _ _ _ => mov_indexed_results⟩, src_group,
    ⟨takesTypes_sel, fun _ => ⟨laneLong_of_parts (op := 0x1A) rfl, fun wf => (sel_encoding wf).2, fun _ _ => pmask_seven⟩⟩,
    fun i => ⟨⟨_, rfl, word0_pipe .., word0_long .., bits_word0_op ..⟩, nop_encoding, by decide⟩⟩

end Sys2Proof.Machine
end

section
namespace Sys2Proof.Machine

/-! ### What leaves the fabric alone -/

theorem foldl_fabric {α : Type} {f : State → α → State} (hf : ∀ s x, (f s x).fabric = s.fabric) (l : List α) (s : State) :
    (l.foldl f s).fabric = s.fabric := foldl_keeps State.fabric hf l s

theorem StorageOnly.fabric {s t : State} (h : StorageOnly s t) : t.fabric = s.fabric := (congrArg State.fabric h.rest :)

@[simp] theorem report_fabric (s : State) (sev src unit ctx detail : Nat) (addr : DWord) :
    (s.report sev src unit ctx detail addr).fabric = s.fabric := (storageOnly_report ..).fabric

@[simp] theorem writeMem_fabric (s : State) (key : KeyTag) (pol : Caching) (pa : Nat) (b : List Byte) :
    (s.writeMem key pol pa b).fabric = s.fabric := (storageOnly_writeMem ..).fabric

@[simp] theorem writeBackAll_fabric (s : State) : s.writeBackAll.fabric = s.fabric := (storageOnly_writeBackAll s).fabric

@[simp] theorem emptyCaches_fabric (s : State) (c : Nat) : (s.emptyCaches c).fabric = s.fabric :=
  (congrArg State.fabric (emptyCaches_rest s c) :)

@[simp] theorem modResult_fabric (s : State) (t g uid : Nat) (f : Result → Result) : (s.modResult t g uid f).fabric = s.fabric := rfl

@[simp] theorem stopStream_fabric (s : State) (n : Nat) (err code : BitVec 8) (info : DWord) :
    (s.stopStream n err code info).fabric = s.fabric := by simp [State.stopStream]

@[simp] theorem setScratch_fabric (s : State) (t off : Nat) (b : List Byte) : (s.setScratch t off b).fabric = s.fabric := rfl

@[simp] theorem wakeWaits_fabric (s : State) (which : Split → Bool) : (s.wakeWaits which).fabric = s.fabric :=
  foldl_fabric emptyCaches_fabric _ _

@[simp] theorem wakeDrains_fabric (s : State) : s.wakeDrains.fabric = s.fabric := foldl_fabric emptyCaches_fabric _ _

@[simp] theorem barWritten_fabric (s : State) (t off : Nat) (old w : DWord) : (s.barWritten t off old w).fabric = s.fabric := by
  unfold State.barWritten
  split
  · rfl
  split
  · simp
  split
  · simp
  · rfl

@[simp] theorem writeScratch_fabric (s : State) (t off : Nat) (b : List Byte) : (s.writeScratch t off b).fabric = s.fabric :=
  foldl_fabric (fun _ _ => barWritten_fabric ..) _ _

@[simp] theorem placeBytes_fabric (s : State) (l : Loc) (b : List Byte) : (s.placeBytes l b).fabric = s.fabric := by
  cases l <;> simp [State.placeBytes]

@[simp] theorem settleUnits_fabric (s0 : State) (key : Nat) (s : State) (l : List PutPiece) :
    (s0.settleUnits key s l).fabric = s.fabric := by
  refine foldl_fabric (fun s p => ?_) _ _
  split
  · rfl
  · exact placeBytes_fabric ..

@[simp] theorem settleCopy_fabric (s : State) (c : Copy) : (s.settleCopy c).fabric = s.fabric := by
  refine foldl_fabric (fun s' t => ?_) _ _
  split
  · rfl
  · exact settleUnits_fabric ..

@[simp] theorem settleEngineOp_fabric (s : State) (o : EngineOp) : (s.settleEngineOp o).fabric = s.fabric := by
  unfold State.settleEngineOp
  split
  · rfl
  split
  · rfl
  split
  · rfl
  split
  · exact settleUnits_fabric ..
  split
  · rfl
  · exact foldl_fabric (fun _ _ => placeBytes_fabric ..) _ _

@[simp] theorem settleStore_fabric (s : State) (e : QEntry) : (s.settleStore e).fabric = s.fabric := by
  unfold State.settleStore
  split
  · rfl
  split
  · exact placeBytes_fabric ..
  · dsimp only
    split
    · rfl
    split
    · exact placeBytes_fabric ..
    · rfl
  · rfl

@[simp] theorem settlePend_fabric (uid : Nat) (s : State) (a : Pend) : (s.settlePend uid a).fabric = s.fabric := by
  unfold State.settlePend
  split
  · dsimp only
    split
    · rfl
    split
    · exact placeBytes_fabric ..
    · rfl
  all_goals rfl

theorem dropTeam_fabric (s : State) (t : Nat) : (s.dropTeam t).fabric = s.fabric := rfl

@[simp] theorem settleFetchAdd_fabric (s0 s : State) (f : FetchAdd) : (s0.settleFetchAdd s f).fabric = s.fabric := by
  unfold State.settleFetchAdd
  dsimp only
  split
  · rfl
  · rfl

@[simp] theorem retryJoiner_fabric (s : State) (j : Joiner) : (s.retryJoiner j).fabric = s.fabric := by
  cases j with
  | group t g a b =>
    unfold State.retryJoiner
    dsimp only
    split
    · rfl
    · rfl
  | engine core o a b => exact modCore_fabric ..
  | copy u a => rfl
  | coll u => rfl
  | stream n => rfl
  | hostCopy n pc => rfl

@[simp] theorem pruneFaults_fabric (s : State) : s.pruneFaults.fabric = s.fabric := by
  unfold State.pruneFaults
  dsimp only
  split
  · exact foldl_fabric retryJoiner_fabric _ _
  · rfl

@[simp] theorem haltTeam_fabric (s : State) (t : Nat) : (s.haltTeam t).fabric = s.fabric := by
  unfold State.haltTeam
  split
  · split
    · rfl
    · rfl
  · rfl

@[simp] theorem consumed_fabric (s : State) (t : Nat) (c : LateCause) : (s.consumed t c).fabric = s.fabric := by
  unfold State.consumed
  split
  · exact report_fabric ..
  · rfl

@[simp] theorem consumedBy_fabric (s : State) (ctx : Nat) (c : LateCause) : (s.consumedBy ctx c).fabric = s.fabric := by
  unfold State.consumedBy
  exact report_fabric ..

@[simp] theorem collConsumed_fabric (s : State) (c : Coll) (l : LateCause) : (s.collConsumed c l).fabric = s.fabric := by
  unfold State.collConsumed
  split
  · exact consumedBy_fabric ..
  · rfl

@[simp] theorem raiseLate_fabric (s : State) (t g : Nat) (split : Option Nat) (c : LateCause) :
    (s.raiseLate t g split c).fabric = s.fabric := by
  unfold State.raiseLate
  split
  · dsimp only
    split
    · simp
    · simp
  · rfl

theorem flushFaults_fabric (l : List Record) (s : State) : (State.flushFaults l s).fabric = s.fabric := by
  induction l generalizing s with
  | nil => rfl
  | cons r l ih =>
    unfold State.flushFaults
    split
    · simp only [ih, interrupt_fabric, hostWrite_fabric]
    · rfl

@[simp] theorem faultRecord_fabric (s : State) (ctx : Nat) (va : DWord) (kind why : Nat) (grid team : Word) (j : Joiner) :
    (s.faultRecord ctx va kind why grid team j).fabric = s.fabric := by
  unfold State.faultRecord
  dsimp only
  split
  · rfl
  split
  · rfl
  · exact flushFaults_fabric ..

@[simp] theorem stallColl_fabric (s : State) (c : Coll) (kind : Nat) (va : DWord) (why : BitVec 8) :
    (s.stallColl c kind va why).fabric = s.fabric := faultRecord_fabric ..

@[simp] theorem deliver_fabric (s : State) (t u g : Nat) (split : Option Nat) : (s.deliver t u g split).fabric = s.fabric := by
  unfold State.deliver
  split
  · exact raiseLate_fabric ..
  · rfl

@[simp] theorem wakeBatches_fabric (s : State) (t u : Nat) : (s.wakeBatches t u).fabric = s.fabric := by
  unfold State.wakeBatches
  split
  · refine (foldl_fabric (fun _ _ => deliver_fabric ..) _ _).trans ?_
    split
    · exact emptyCaches_fabric ..
    · rfl
  · rfl

@[simp] theorem breakConv_fabric (s : State) (t u : Nat) (c : Option LateCause) : (s.breakConv t u c).fabric = s.fabric :=
  wakeBatches_fabric ..

@[simp] theorem replan_fabric (s : State) (c : Coll) (which : Nat → Bool) : (s.replan c which).fabric = s.fabric := by
  unfold State.replan
  split
  · rfl
  · rfl

/-! ### What leaves the ports and what they reach alone (R412) -/

/-- The ports of `t`, and the devices that each reaches, are those of `s`. -/
abbrev SameWiring (s t : State) : Prop := t.fabric.ports = s.fabric.ports ∧ t.fabric.topology = s.fabric.topology

namespace SameWiring

variable {a b c : State}

theorem refl (s : State) : SameWiring s s := ⟨rfl, rfl⟩

theorem trans (h : SameWiring a b) (g : SameWiring b c) : SameWiring a c := ⟨g.1.trans h.1, g.2.trans h.2⟩

theorem of_fabric (h : b.fabric = a.fabric) : SameWiring a b := ⟨congrArg Fabric.ports h, congrArg Fabric.topology h⟩

theorem foldl {α : Type} {f : State → α → State} (hf : ∀ s x, SameWiring s (f s x)) (l : List α) (s : State) :
    SameWiring s (l.foldl f s) := by
  induction l generalizing s with
  | nil => exact refl s
  | cons x l ih => exact (hf s x).trans (ih _)

theorem portsTo (h : SameWiring a b) (d : Nat) : b.portsTo d = a.portsTo d := by
  unfold State.portsTo
  rw [h.1, h.2]

end SameWiring

theorem takeAnswers_wiring (s : State) (key : Nat × Nat) : SameWiring s (s.takeAnswers key) := by
  unfold State.takeAnswers
  split
  · exact ⟨rfl, rfl⟩
  · exact .refl s

theorem dropAnswers_wiring (s : State) (n : Nat) : SameWiring s (s.dropAnswers n) :=
  (takeAnswers_wiring ..).trans (takeAnswers_wiring ..)

theorem endTeams_wiring (s : State) (which : Team → Bool) (copies : Copy → Bool) : SameWiring s (s.endTeams which copies) := by
  have teams (l : List Nat) (s : State) : (l.foldl State.dropTeam s).fabric = s.fabric := foldl_fabric dropTeam_fabric l s
  have ops (l : List EngineOp) (s : State) : (l.foldl State.settleEngineOp s).fabric = s.fabric := foldl_fabric settleEngineOp_fabric l s
  have copies (l : List Copy) (s : State) : (l.foldl State.settleCopy s).fabric = s.fabric := foldl_fabric settleCopy_fabric l s
  have adds (s0 : State) (l : List FetchAdd) (s : State) : (l.foldl (State.settleFetchAdd s0) s).fabric = s.fabric :=
    foldl_fabric (settleFetchAdd_fabric s0) l s
  have stores (l : List QEntry) (s : State) : (l.foldl State.settleStore s).fabric = s.fabric := foldl_fabric settleStore_fabric l s
  have pends (l : List Result) (s : State) : (l.foldl (fun s r => r.pend.foldl (State.settlePend r.uid) s) s).fabric = s.fabric := by
    refine foldl_fabric (fun s r => ?_) l s
    exact foldl_fabric (f := State.settlePend r.uid) (settlePend_fabric r.uid) r.pend s
  simp only [SameWiring, State.endTeams, teams, ops, copies, adds, pends, stores, and_self]

theorem dropColls_wiring (s : State) (which : Coll → Bool) : SameWiring s (s.dropColls which) := ⟨rfl, rfl⟩

theorem killGrid_wiring (s : State) (u : Nat) (code : BitVec 8) (addr : DWord) : SameWiring s (s.killGrid u code addr) := by
  unfold State.killGrid
  split
  · exact .refl s
  next g _ =>
    let ended := (s.endTeams (fun x => x.grid = u) fun c => c.grid = u).dropColls fun c => c.grid = u
    have h : SameWiring s ended := (endTeams_wiring ..).trans (dropColls_wiring ..)
    refine h.trans ?_
    dsimp only
    split
    · exact .of_fabric (by simp [ended])
    · exact .of_fabric (by simp [ended])

theorem raise_wiring (s : State) (t g : Nat) (split : Option Nat) (code : BitVec 8) (pc : DWord) :
    SameWiring s (s.raise t g split code pc) := by
  unfold State.raise
  split
  · split
    · exact killGrid_wiring ..
    · exact .of_fabric (haltTeam_fabric ..)
  · exact .refl s

theorem lateFrom_wiring (s : State) (t g : Nat) (split : Option Nat) (pc : Option DWord) (c : LateCause) :
    SameWiring s (s.lateFrom t g split pc c) := by
  unfold State.lateFrom
  split
  · exact .trans (.of_fabric (consumed_fabric ..)) (killGrid_wiring ..)
  · exact .of_fabric (raiseLate_fabric ..)

/-! ### An engine's write that has failed (R380, R416, R441) -/

theorem faultBar_wiring (s : State) (t off : Nat) : SameWiring s (s.faultBar t off) :=
  .foldl (fun _ _ => raise_wiring ..) _ _

theorem endCopy_wiring (s : State) (u : Nat) : SameWiring s (s.endCopy u) :=
  (takeAnswers_wiring s (0, u)).trans (.of_fabric (wakeDrains_fabric _))

theorem reportCopy_wiring (s : State) (c : Copy) (va : DWord) : SameWiring s (s.reportCopy c va) :=
  .trans (.of_fabric (interrupt_fabric s 8)) (endCopy_wiring ..)

theorem copyWriteFails_wiring (s : State) (c : Copy) (l : LateCause) : SameWiring s (s.copyWriteFails c l) := by
  refine .trans (.of_fabric (consumedBy_fabric s c.ctx l)) (.trans ?_ (reportCopy_wiring ..))
  split
  · exact .refl _
  · exact faultBar_wiring ..

theorem failOp_wiring (s : State) (core : Nat) (o : EngineOp) (c : LateCause) : SameWiring s (s.failOp core o c) :=
  (takeAnswers_wiring s o.key).trans (.of_fabric ((breakConv_fabric ..).trans (modCore_fabric ..)))

theorem sendUnits_wiring (job : Half) (key : Nat × Nat) (l : List (List PutPiece)) (s : State) :
    SameWiring s (s.sendUnits job key l).2 := by
  induction l generalizing s with
  | nil => exact .refl s
  | cons u l ih =>
    cases u with
    | nil => exact ih s
    | cons p ps => exact .trans ⟨rfl, rfl⟩ (ih (s.sendRequest ..))

theorem putAll_wiring (s : State) (job : Half) (key : Nat × Nat) (l : List PutPiece) : SameWiring s (s.putAll job key l).2 :=
  .trans (.of_fabric (foldl_fabric (fun _ _ => placeBytes_fabric ..) _ _)) (sendUnits_wiring ..)

theorem putDone_wiring (s : State) (c : Coll) (tag : DWord) (stage : Nat) {ended : State → State}
    (h : ∀ s, SameWiring s (ended s)) : SameWiring s (s.putDone c tag stage ended) := by
  unfold State.putDone
  split
  · exact .refl s
  split
  · exact .of_fabric (stallColl_fabric ..)
  · exact .trans (.of_fabric (collConsumed_fabric ..)) (h _)
  · exact .refl s
  · next ps _ =>
    have sent : SameWiring s (s.writeBackAll.putAll (s.job c.ctx) c.key ps).2 :=
      .trans (.of_fabric (writeBackAll_fabric s)) (putAll_wiring ..)
    dsimp only
    split
    · exact sent.trans (h _)
    · exact sent

theorem endColl_wiring (s : State) (u : Nat) : SameWiring s (s.endColl u) := takeAnswers_wiring s (0, u)

theorem failStep_wiring (s : State) (u : Nat) : SameWiring s (s.failStep u) := by
  unfold State.failStep
  split
  · exact .refl s
  split
  · exact .refl s
  split
  · split
    · exact .refl s
    · exact endColl_wiring ..
  · exact putDone_wiring _ _ _ _ fun s => endColl_wiring s u

theorem failOne_wiring (s : State) (u reason : Nat) (mark : Bool) : SameWiring s (s.failOne u reason mark) := by
  unfold State.failOne
  split
  · exact .refl s
  split
  · exact .refl s
  next c _ _ =>
    refine (takeAnswers_wiring s c.key).trans ?_
    dsimp only
    split
    · refine .trans ?_ (failStep_wiring ..)
      exact .of_fabric (report_fabric ..)
    · refine .trans ?_ (endColl_wiring ..)
      exact .of_fabric (report_fabric ..)

theorem failCollAt_wiring (s : State) (u reason : Nat) (mark : Bool) : SameWiring s (s.failCollAt u reason mark) := by
  unfold State.failCollAt
  split
  · exact .refl s
  split
  · exact .refl s
  · exact (failOne_wiring s u reason mark).trans (.trans ⟨rfl, rfl⟩ (.foldl (fun s v => failOne_wiring s v 5 true) _ _))

theorem collWriteFails_wiring (s : State) (c : Coll) (l : LateCause) : SameWiring s (s.collWriteFails c l) := by
  refine .trans (.of_fabric (consumedBy_fabric s c.ctx l)) ?_
  unfold State.collWriteFails
  dsimp only
  split
  · split
    · exact endColl_wiring ..
    · exact failCollAt_wiring ..
  · exact failCollAt_wiring ..

theorem engineWriteFails_wiring (s : State) (uid : Nat) (c : LateCause) : SameWiring s (s.engineWriteFails uid c) := by
  unfold State.engineWriteFails
  split
  · exact copyWriteFails_wiring ..
  split
  · exact failOp_wiring ..
  split
  · exact collWriteFails_wiring ..
  · exact .refl s

/-! ### A request that fails, or that leaves again (R413, R414, R417) -/

theorem endFetchAdd_wiring (s : State) (f : FetchAdd) : SameWiring s (s.endFetchAdd f) := by
  unfold State.endFetchAdd
  dsimp only
  split
  · exact ⟨rfl, rfl⟩
  split
  · split
    · exact (dropAnswers_wiring (s.dropFetchAdd f.id) _).trans (.of_fabric (stopStream_fabric ..))
    · exact ⟨rfl, rfl⟩
  · exact ⟨rfl, rfl⟩

theorem loseWindowWrite_wiring (s : State) (t e : Nat) : SameWiring s (s.loseWindowWrite t e) := by
  refine (SameWiring.foldl endFetchAdd_wiring (s.host.fetchAdds.filter fun f => f.covers.contains e) s).trans ?_
  unfold State.loseWindowWrite
  dsimp only
  split
  · exact ⟨rfl, rfl⟩
  · exact ⟨rfl, rfl⟩

theorem failRequest_wiring (s : State) (q : Request) (c : LateCause) (r : Option Response) : SameWiring s (s.failRequest q c r) := by
  have dropped : SameWiring s (s.dropRequest q.tag) := ⟨rfl, rfl⟩
  refine dropped.trans ?_
  unfold State.failRequest
  dsimp only
  split
  · exact ⟨rfl, rfl⟩
  · refine .trans ?_ (lateFrom_wiring ..)
    split
    · exact loseWindowWrite_wiring ..
    · exact .refl _
  · exact ⟨rfl, rfl⟩
  · exact engineWriteFails_wiring ..

theorem expireRequest_wiring (s : State) (q : Request) : SameWiring s (s.expireRequest q) := by
  unfold State.expireRequest
  split
  · exact failRequest_wiring ..
  · exact .refl s

theorem resend_wiring (s : State) (port : Nat) (q : Request) : SameWiring s (s.resend port q) := by
  unfold State.resend
  split
  · exact .refl s
  split
  · exact .refl s
  split
  · exact expireRequest_wiring ..
  · exact ⟨rfl, rfl⟩

theorem resendChunks_wiring (s : State) (port : Nat) (c : Coll) : SameWiring s (s.resendChunks port c) := by
  refine .foldl (fun s e => ?_) _ _
  split
  · exact ⟨rfl, rfl⟩
  · exact .refl s

theorem portWorse_wiring (s : State) (port : Nat) (down : Bool) (u : Nat) : SameWiring s (s.portWorse port down u) := by
  unfold State.portWorse
  split
  · exact .refl s
  split
  · exact .refl s
  split
  · exact failCollAt_wiring ..
  · refine .trans ?_ (.of_fabric (replan_fabric ..))
    split
    · exact resendChunks_wiring ..
    · exact .refl s

end Sys2Proof.Machine
end

section
namespace Sys2Proof.Machine

/-! ### Answers to this device's requests (R187, R329, R406, R414, R415, R418) -/

section
variable {tag : Nat} {s : State} {q : Request}

/-- A request over the fabric, or over a host link that is up, is answered by what the response says. -/
theorem exec_peerResponse_of_reached (found : s.request? tag = some q) (reached : q.dev.isSome = true ∨ s.host.linkUp = true)
    (r : Response) : exec (.peerResponse tag r) s = .next (match r with
      | .data b => s.answerRequest q b
      | .failure => s.failRequest q (failCause q.use.va q.dev q.port true) (some .failure)
      | .poisoned => s.failRequest q (poisonedCause q.use.va q.dev q.port) (some .poisoned)) := by
  have open' : (q.dev.isNone && !s.host.linkUp) = false := by
    rcases reached with peer | up
    · simp [Option.isSome_iff_ne_none.mp peer]
    · simp [up]
  change execPeerResponse tag r s = _
  unfold execPeerResponse
  rw [found]
  cases r <;> simp only [open', Bool.false_eq_true, if_false]

/-- The answer to a request over a host link that is down waits (log 45). -/
theorem exec_peerResponse_of_linkDown (found : s.request? tag = some q) (host : q.dev = none) (down : s.host.linkUp = false)
    (r : Response) : exec (.peerResponse tag r) s = .next s := by
  change execPeerResponse tag r s = _
  unfold execPeerResponse
  rw [found]
  simp only [host, down, Option.isNone_none, Bool.not_false, Bool.and_self, if_true]

theorem exec_peerTimeout_of_request (found : s.request? tag = some q) : exec (.peerTimeout tag) s = .next (s.expireRequest q) := by
  change execPeerTimeout tag s = _
  unfold execPeerTimeout
  rw [found]

theorem exec_getResponse_of_packet (found : s.request? tag = some q) {ctl : BitVec 8} {form : BitVec 2} {parts : List LanePart}
    (ask : q.ask = .coll ctl form parts) (data : List DWord) :
    exec (.getResponse tag data) s = .next (s.answerRequest q (data.flatMap fun d => leBytes 8 d.toNat)) := by
  change execGetResponse tag data s = _
  unfold execGetResponse
  rw [found]
  simp only [ask]

theorem expireRequest_of_overdue (late : s.overdue q = true) :
    s.expireRequest q = s.failRequest q (failCause q.use.va q.dev q.port false) none := if_pos late

theorem expireRequest_of_due (due : s.overdue q = false) : s.expireRequest q = s := if_neg (by simp [due])

end

section
variable (s : State) {q : Request}

/-- What an answer to a load brings is for the result that waits for it. -/
theorem answerRequest_load {t g uid idx lane : Nat} {va : DWord} (use : q.use = .load t g uid idx lane va) (b : List Byte) :
    s.answerRequest q b = ((s.performAtHost q b).dropRequest q.tag).modResult t g uid fun x => { x with
      waits := x.waits.filter (· ≠ q.tag), raw := x.raw ++ q.brings idx lane b } := by
  simp only [State.answerRequest, use]

theorem answerRequest_store {t g e : Nat} {p : Nat} {w : Bool} {va : DWord} {pc : Option DWord} (use : q.use = .store t g p e w va pc)
    (b : List Byte) : s.answerRequest q b = (s.performAtHost q b).dropRequest q.tag := by
  simp only [State.answerRequest, use]

theorem answerRequest_write {key : Nat × Nat} {va : DWord} (use : q.use = .write key va) (b : List Byte) :
    s.answerRequest q b = (s.performAtHost q b).dropRequest q.tag := by
  simp only [State.answerRequest, use]

theorem answerRequest_read {key : Nat × Nat} {va : DWord} (use : q.use = .read key va) (b : List Byte) :
    s.answerRequest q b = ((s.performAtHost q b).dropRequest q.tag).keepAnswer key va q.port (some (.data b)) := by
  simp only [State.answerRequest, use]

theorem failRequest_load {t g uid idx lane : Nat} {va : DWord} (use : q.use = .load t g uid idx lane va) (c : LateCause)
    (r : Option Response) : s.failRequest q c r = (s.dropRequest q.tag).modResult t g uid fun x => { x with
      waits := x.waits.filter (· ≠ q.tag), fail := some (x.fail.getD c) } := by
  simp only [State.failRequest, use]

theorem failRequest_store {t g e : Nat} {p : Nat} {w : Bool} {va : DWord} {pc : Option DWord} (use : q.use = .store t g p e w va pc)
    (c : LateCause) (r : Option Response) : s.failRequest q c r =
      (if w then (s.dropRequest q.tag).loseWindowWrite t e else s.dropRequest q.tag).lateFrom t g (some p) pc c := by
  simp only [State.failRequest, use]

theorem failRequest_read {key : Nat × Nat} {va : DWord} (use : q.use = .read key va) (c : LateCause) (r : Option Response) :
    s.failRequest q c r = (s.dropRequest q.tag).keepAnswer key va q.port r := by
  simp only [State.failRequest, use]

theorem failRequest_write {key : Nat × Nat} {va : DWord} (use : q.use = .write key va) (c : LateCause) (r : Option Response) :
    s.failRequest q c r = (s.dropRequest q.tag).engineWriteFails key.2 c := by
  simp only [State.failRequest, use]

theorem brings_access (idx lane : Nat) (b : List Byte) (single : ∀ x y z, q.ask ≠ .coll x y z) :
    q.brings idx lane b = [(idx, lane, b)] := by
  unfold Request.brings
  split
  · next ask => exact absurd ask (single _ _ _)
  all_goals rfl

theorem brings_packet (idx lane : Nat) (b : List Byte) {ctl : BitVec 8} {form : BitVec 2} {parts : List LanePart}
    (ask : q.ask = .coll ctl form parts) :
    q.brings idx lane b = parts.zipIdx.map fun p => (idx + p.2, p.1.lane, (b.drop (8 * p.2)).take 8) := by
  simp only [Request.brings, ask]

/-! What the host performs for a request (R143, R418) -/

theorem performAtHost_of_peer (b : List Byte) (peer : q.dev ≠ none) : s.performAtHost q b = s := by
  unfold State.performAtHost
  split
  · next dev _ => exact absurd dev peer
  · next dev _ => exact absurd dev peer
  · next dev _ => exact absurd dev peer
  · rfl

theorem performAtHost_read (b : List Byte) {n : Nat} (ask : q.ask = .read n) : s.performAtHost q b = s := by
  unfold State.performAtHost
  rw [ask]
  cases q.dev <;> rfl

theorem performAtHost_packet (b : List Byte) {ctl : BitVec 8} {form : BitVec 2} {parts : List LanePart}
    (ask : q.ask = .coll ctl form parts) : s.performAtHost q b = s := by
  unfold State.performAtHost
  rw [ask]
  cases q.dev <;> rfl

theorem performAtHost_results (b : List Byte) :
    (q.dev ≠ none ∨ (∃ n, q.ask = .read n) → s.performAtHost q b = s) ∧
    (∀ d, q.dev = none → q.ask = .write d → s.performAtHost q b = s.hostWrite q.addr d) ∧
    (∀ parts, q.dev = none → q.ask = .masked parts →
      s.performAtHost q b = parts.foldl (fun s p => s.hostWrite (q.addr + p.1) p.2) s) ∧
    ∀ op ty x sv y, q.dev = none → q.ask = .atomic op ty x sv →
      atomNew op ty (leNat (b.take (atomSize ty))) (x.toNat % 2 ^ (8 * atomSize ty)) (sv.toNat % 2 ^ (8 * atomSize ty)) = y →
      s.performAtHost q b = match y with
        | some z => s.hostWrite q.addr (leBytes (atomSize ty) z)
        | none => s := by
  refine ⟨?_, fun d host ask => ?_, fun parts host ask => ?_, fun op ty x sv y host ask new => ?_⟩
  · rintro (peer | ⟨n, ask⟩)
    · exact performAtHost_of_peer s b peer
    · exact performAtHost_read s b ask
  · simp only [State.performAtHost, host, ask]
  · simp only [State.performAtHost, host, ask]
  · subst new
    simp only [State.performAtHost, host, ask] <;> rfl

end

/-! ### A port's new state (R412, R413) -/

/-- A port's new state, recorded and reported. -/
def State.portNoted (s : State) (port : Nat) (st : PortState) : State :=
  let peers := (s.fabric.topology.filter fun e => e.2.contains port).map fun e => e.1
  let peer := peers.getD (s.freeAt 11 port % peers.length) 0
  ({ s with fabric := { s.fabric with ports := s.fabric.ports.set port st } } : State).report 2 0x06 port 0
    (portCode st * 2 ^ 10 + peer) s.openAddr

/-- What follows of the loss of a port, or of some of its bandwidth. -/
def State.portLess (s : State) (port : Nat) (st : PortState) : State :=
  let sent := if st = .down then s.fabric.requests.foldl (fun s q => s.resend port q) s else s
  (sent.colls.map fun c => c.uid).foldl (fun s u => s.portWorse port (st = .down) u) sent

section
variable {port : Nat} {st : PortState} {s : State}

theorem exec_portStateChange (inside : port < 36) (other : s.fabric.ports.getD port .down ≠ st) :
    exec (.portStateChange port st) s = .next (if st ≠ .down ∧ portsFitted = false then s
      else if st = .up ∨ s.fabric.ports.getD port .down = .down then s.portNoted port st
      else (s.portNoted port st).portLess port st) := by
  change execPortStateChange port st s = _
  have inside' : ¬36 ≤ port := by omega
  have other' : ¬s.fabric.ports[port]?.getD .down = st := by simpa using other
  unfold execPortStateChange
  by_cases unfitted : st ≠ .down ∧ portsFitted = false
  · rw [if_pos unfitted, if_pos (by simp [unfitted])]
  · rw [if_neg unfitted, if_neg (by simpa [inside', other'] using unfitted)]
    by_cases noted : st = .up ∨ s.fabric.ports.getD port .down = .down
    · rw [if_pos noted]
      exact if_pos (by simpa using noted)
    · rw [if_neg noted]
      exact if_neg (by simpa using noted)

theorem portNoted_fabric (s : State) (port : Nat) (st : PortState) :
    (s.portNoted port st).fabric = { s.fabric with ports := s.fabric.ports.set port st } := report_fabric ..

theorem portNoted_storageOnly (s : State) (port : Nat) (st : PortState) :
    StorageOnly { s with fabric := { s.fabric with ports := s.fabric.ports.set port st } } (s.portNoted port st) := storageOnly_report ..

theorem portNoted_colls (s : State) (port : Nat) (st : PortState) : (s.portNoted port st).colls = s.colls :=
  (congrArg State.colls (portNoted_storageOnly s port st).rest :)

theorem portNoted_storage (s : State) (port : Nat) (st : PortState) : (s.portNoted port st).storage = s.storage :=
  (recordsOnly_report ..).storage

theorem portLess_wiring (s : State) (port : Nat) (st : PortState) : SameWiring s (s.portLess port st) := by
  refine .trans ?_ (.foldl (fun s u => portWorse_wiring s port (st = .down) u) _ _)
  split
  · exact .foldl (fun s q => resend_wiring s port q) _ _
  · exact .refl s

theorem portLess_slow (idle : s.colls = []) : s.portLess port .slow = s := by
  simp [State.portLess, idle]

/-- R413: a request whose peer another port still reaches leaves again by one of them. -/
theorem portLess_resends {q : Request} {d : Nat} (idle : s.colls = []) (one : s.fabric.requests = [q]) (peer : q.dev = some d)
    (by' : q.port = port) {p : Nat} {ps : List Nat} (reach : s.portsTo d = p :: ps) :
    s.portLess port .down = { s with fabric := { s.fabric with
      requests := [{ q with port := p }], outbox := s.fabric.outbox ++ [.request { q with port := p }] } } := by
  have resent : s.resend port q = { s with fabric := { s.fabric with
      requests := [{ q with port := p }], outbox := s.fabric.outbox ++ [.request { q with port := p }] } } := by
    simp only [State.resend, peer, by', reach, one, List.map_cons, List.map_nil, if_true, ne_eq, not_true_eq_false, if_false]
  simp only [State.portLess, one, List.foldl_cons, List.foldl_nil, resent, idle, List.map_nil, if_true]

end

theorem getD_set_same {α : Type} (l : List α) (i : Nat) (x d : α) (h : i < l.length) : (l.set i x).getD i d = x := by
  simp [h]

theorem getD_set_other {α : Type} (l : List α) {i j : Nat} (x d : α) (h : j ≠ i) : (l.set i x).getD j d = l.getD j d := by
  simp [List.getElem?_set_ne h.symm]

theorem portStateChange_results (port : Nat) (st : PortState) (s : State) (inside : port < 36) (count : s.fabric.ports.length = 36)
    (other : s.fabric.ports.getD port .down ≠ st) :
    (st ≠ .down → portsFitted = false → exec (.portStateChange port st) s = .next s) ∧
    (st = .down ∨ portsFitted = true →
      ∃ t, exec (.portStateChange port st) s = .next t ∧ t.fabric.ports.getD port .down = st ∧
        (∀ p, p ≠ port → t.fabric.ports.getD p .down = s.fabric.ports.getD p .down) ∧
        (st = .up ∨ (st = .slow ∧ s.colls = []) → t.fabric.requests = s.fabric.requests ∧ t.storage = s.storage ∧ t.groups = s.groups) ∧
        (st = .down → s.colls = [] → ∀ q d, s.fabric.requests = [q] → q.dev = some d → q.port = port →
          t.portsTo d ≠ [] → ∃ p ∈ t.portsTo d, t.fabric.requests = [{ q with port := p }] ∧
            .request { q with port := p } ∈ t.fabric.outbox)) := by
  rw [exec_portStateChange inside other]
  refine ⟨fun live absent => by rw [if_pos ⟨live, absent⟩], fun fits => ?_⟩
  have fitted : ¬(st ≠ .down ∧ portsFitted = false) := by
    rintro ⟨live, absent⟩
    rcases fits with rfl | here
    · exact live rfl
    · simp [here] at absent
  rw [if_neg fitted]
  let s1 := s.portNoted port st
  have ports : s1.fabric.ports = s.fabric.ports.set port st := congrArg Fabric.ports (portNoted_fabric s port st)
  have requests : s1.fabric.requests = s.fabric.requests := (congrArg Fabric.requests (portNoted_fabric s port st) :)
  have groups : s1.groups = s.groups := (portNoted_storageOnly s port st).groups
  have idle (none : s.colls = []) : s1.colls = [] := (portNoted_colls s port st).trans none
  have here : s1.fabric.ports.getD port .down = st := by rw [ports, getD_set_same _ _ _ _ (by omega)]
  have there (p : Nat) (away : p ≠ port) : s1.fabric.ports.getD p .down = s.fabric.ports.getD p .down := by
    rw [ports, getD_set_other _ _ _ away]
  by_cases noted : st = .up ∨ s.fabric.ports.getD port .down = .down
  · rw [if_pos noted]
    refine ⟨s1, rfl, here, there, fun _ => ⟨requests, portNoted_storage s port st, groups⟩, fun down => ?_⟩
    subst down
    exact absurd noted (by simpa using other)
  · rw [if_neg noted]
    have wiring := portLess_wiring s1 port st
    refine ⟨s1.portLess port st, rfl, wiring.1 ▸ here, fun p away => wiring.1 ▸ there p away, fun calm => ?_,
      fun down none q d one peer by' left => ?_⟩
    · rcases calm with rfl | ⟨rfl, none⟩
      · exact absurd (.inl rfl) noted
      · rw [portLess_slow (idle none)]
        exact ⟨requests, portNoted_storage s port .slow, groups⟩
    · subst down
      obtain ⟨p, ps, reach⟩ := List.exists_cons_of_ne_nil left
      have before : s1.portsTo d = p :: ps := (wiring.portsTo d).symm.trans reach
      refine ⟨p, reach ▸ List.mem_cons_self .., ?_⟩
      rw [portLess_resends (idle none) (requests.trans one) peer by' before]
      exact ⟨rfl, List.mem_append_right _ (List.mem_singleton_self _)⟩

/-- Settles O53: each answer by the use of its request, and a port's new state by the ports that it leaves. -/
theorem answersAndPorts : Obligations.AnswersAndPorts := by
  refine ⟨fun tag s q found reached => ?_, fun _ r _ _ found host down => exec_peerResponse_of_linkDown found host down r,
    fun s _ b => performAtHost_results s b, portStateChange_results⟩
  intro s1 performed c17 c16 fails
  have answer := exec_peerResponse_of_reached found reached
  have timeout := exec_peerTimeout_of_request found
  refine ⟨fun b t g uid idx lane va use single => ?_, fun b t g p e w va pc use => ?_, fun b key va use => ⟨?_, ?_, ?_⟩,
    fun t g uid idx lane va use => ⟨?_, ?_⟩, fun t g p e w va pc use => ⟨?_, ?_, fun late => ?_⟩, fun key va use => ⟨fun b => ?_, ?_⟩,
    fun ctl form parts data t g uid idx lane va ask use => ?_, fun due => ?_, fun late t g uid idx lane va use => ?_⟩
  · exact (answer (.data b)).trans (congrArg _ ((answerRequest_load s use b).trans (by rw [brings_access idx lane b single])))
  · exact (answer (.data b)).trans (congrArg _ (answerRequest_store s use b))
  · exact (answer (.data b)).trans (congrArg _ (answerRequest_read s use b))
  · exact (answer .failure).trans (congrArg _ (failRequest_read s use ..))
  · exact (answer .poisoned).trans (congrArg _ (failRequest_read s use ..))
  · exact (answer .failure).trans (congrArg _ (failRequest_load s use ..))
  · exact (answer .poisoned).trans (congrArg _ (failRequest_load s use ..))
  · exact (answer .failure).trans (congrArg _ (failRequest_store s use ..))
  · exact (answer .poisoned).trans (congrArg _ (failRequest_store s use ..))
  · exact timeout.trans (congrArg _ ((expireRequest_of_overdue late).trans (failRequest_store s use ..)))
  · exact (answer (.data b)).trans (congrArg _ (answerRequest_write s use b))
  · exact (answer .failure).trans (congrArg _ (failRequest_write s use ..))
  · refine (exec_getResponse_of_packet found ask data).trans (congrArg _ ((answerRequest_load s use _).trans ?_))
    rw [performAtHost_packet s _ ask, brings_packet idx lane _ ask]
  · exact timeout.trans (congrArg _ (expireRequest_of_due due))
  · exact timeout.trans (congrArg _ ((expireRequest_of_overdue late).trans (failRequest_load s use ..)))

end Sys2Proof.Machine
end

section
/-!
Lane and group integer instructions, special registers and control flow: the lemmas of the family and the statements that they
settle.
-/
namespace Sys2Proof.Machine

/-- Settles O2: the decoder runs on the words. -/
theorem decodeWordsOfTheManual : Obligations.DecodeWordsOfTheManual := by
  unfold Obligations.DecodeWordsOfTheManual
  decide

/-! ### Numbers put together from digits -/

theorem foldl_add_range (n : Nat) (v : Nat → Nat) :
    (List.range n).foldl (fun acc k => acc + v k) 0 = ∑ k ∈ Finset.range n, v k := by
  induction n with
  | zero => rfl
  | succ n ih =>
    rw [List.range_succ, List.foldl_append, ih, Finset.sum_range_succ]
    rfl

/-- The number whose digits to the base 2^w are the first `n` of `v`. -/
def joinDigits (w n : Nat) (v : Nat → Nat) : Nat := ∑ k ∈ Finset.range n, v k * 2 ^ (w * k)

theorem joinDigits_succ (w n : Nat) (v : Nat → Nat) :
    joinDigits w (n + 1) v = v 0 + 2 ^ w * joinDigits w n fun k => v (k + 1) := by
  simp only [joinDigits]
  rw [Finset.sum_range_succ', Finset.mul_sum, Nat.add_comm]
  refine congrArg₂ _ (by simp) (Finset.sum_congr rfl fun k _ => ?_)
  rw [Nat.mul_succ, pow_add]
  ring

theorem joinDigits_lt {w n : Nat} {v : Nat → Nat} (small : ∀ k, k < n → v k < 2 ^ w) : joinDigits w n v < 2 ^ (w * n) := by
  induction n generalizing v with
  | zero => simp [joinDigits]
  | succ n ih =>
    have low := small 0 (by omega)
    have high := ih (v := fun k => v (k + 1)) fun k hk => small (k + 1) (by omega)
    rw [joinDigits_succ, Nat.mul_succ, Nat.add_comm (w * n), pow_add]
    nlinarith

/-- Each digit is read back. -/
theorem joinDigits_digit {w n e : Nat} {v : Nat → Nat} (inside : e < n) (small : ∀ k, k < n → v k < 2 ^ w) :
    joinDigits w n v / 2 ^ (w * e) % 2 ^ w = v e := by
  induction e generalizing n v with
  | zero =>
    obtain ⟨n, rfl⟩ := Nat.exists_eq_succ_of_ne_zero (Nat.ne_of_gt inside)
    rw [joinDigits_succ, Nat.mul_zero, pow_zero, Nat.div_one, Nat.add_mul_mod_self_left, Nat.mod_eq_of_lt (small 0 inside)]
  | succ e ih =>
    obtain ⟨n, rfl⟩ := Nat.exists_eq_succ_of_ne_zero (show n ≠ 0 by omega)
    rw [joinDigits_succ, Nat.mul_succ, Nat.add_comm (w * e), pow_add, ← Nat.div_div_eq_div_mul,
      Nat.add_mul_div_left _ _ (Nat.two_pow_pos w), Nat.div_eq_of_lt (small 0 (by omega)), Nat.zero_add]
    exact ih (by omega) fun k hk => small (k + 1) (by omega)

/-! ### Elements of an operand (R184, R203, R204) -/

theorem elemBits_pos (m : BitVec 4) : 0 < elemBits m := by
  revert m
  decide

/-- An operand is its elements, side by side. -/
theorem elemBits_mul_count (m : BitVec 4) : elemBits m * (operandBits m / elemBits m) = 32 * intRegs m := by
  revert m
  decide

theorem elemNat_eq {w : Nat} (pos : 0 < w) (k : Nat) (x : DWord) : elemNat w k x = x.toNat / 2 ^ (w * k) % 2 ^ w := by
  rw [elemNat, bits, show w * k + w - 1 + 1 - w * k = w by omega]

theorem elemNat_lt {w : Nat} (pos : 0 < w) (k : Nat) (x : DWord) : elemNat w k x < 2 ^ w := by
  rw [elemNat_eq pos]
  exact Nat.mod_lt _ (Nat.two_pow_pos w)

theorem toNat_emod_lt (w : Nat) (x : Int) : (x % 2 ^ w).toNat < 2 ^ w := by
  have pos : (0 : Int) < 2 ^ w := by positivity
  have := Int.emod_lt_of_pos x pos
  zify
  omega

theorem packElems_eq (w n : Nat) (f : Nat → Int) :
    packElems w n f = BitVec.ofNat 64 (joinDigits w n fun k => (f k % 2 ^ w).toNat) := by
  rw [packElems, foldl_add_range, joinDigits]

theorem toNat_packElems {w n : Nat} (fits : w * n ≤ 64) (f : Nat → Int) :
    (packElems w n f).toNat = joinDigits w n fun k => (f k % 2 ^ w).toNat := by
  rw [packElems_eq, BitVec.toNat_ofNat]
  exact Nat.mod_eq_of_lt (lt_of_lt_of_le (joinDigits_lt fun _ _ => toNat_emod_lt w _) (Nat.pow_le_pow_right (by omega) fits))

/-- The elements of a packed operand are those it was packed from, modulo 2^w. -/
theorem elemNat_packElems {w n e : Nat} (pos : 0 < w) (fits : w * n ≤ 64) (inside : e < n) (f : Nat → Int) :
    (elemNat w e (packElems w n f) : Int) = f e % 2 ^ w := by
  rw [elemNat_eq pos, toNat_packElems fits, joinDigits_digit inside fun _ _ => toNat_emod_lt w _]
  exact Int.toNat_of_nonneg (Int.emod_nonneg _ (by positivity))

/-- Lane registers that a value fits into hold all of it. -/
theorem laneFit_of_lt {n : Nat} {x : DWord} (count : n = 1 ∨ n = 2) (small : x.toNat < 2 ^ (32 * n)) : laneFit n x = x := by
  rcases count with rfl | rfl
  · refine BitVec.eq_of_toNat_eq ?_
    simp only [laneFit_one, BitVec.toNat_setWidth]
    omega
  · exact laneFit_two x

theorem laneFit_packElems {r w n : Nat} (count : r = 1 ∨ r = 2) (all : w * n = 32 * r) (f : Nat → Int) :
    laneFit r (packElems w n f) = packElems w n f := by
  refine laneFit_of_lt count ?_
  rw [toNat_packElems (by omega), ← all]
  exact joinDigits_lt fun _ _ => toNat_emod_lt w _

/-- The elements of a result that an instruction packs and writes to D. -/
theorem elemNat_laneFit_packElems (m : BitVec 4) (f : Nat → Int) {e : Nat} (inside : e < operandBits m / elemBits m) :
    (elemNat (elemBits m) e (laneFit (intRegs m) (packElems (elemBits m) (operandBits m / elemBits m) f)) : Int) =
      f e % 2 ^ elemBits m := by
  have all := elemBits_mul_count m
  have count := intRegs_one_or_two m
  rw [laneFit_packElems count all]
  exact elemNat_packElems (elemBits_pos m) (by omega) inside f

/-! ### Lane integer arithmetic (R204, R206) -/

theorem exec_integerTable (l : Long) (s : State) :
    ∀ row ∈ Claims.integerTable, exec (row.1 l) s = issueInt row.1 l s (row.2 l).1 (row.2 l).2 := by
  intro row listed
  simp only [Claims.integerTable, List.mem_cons, List.not_mem_nil, or_false] at listed
  rcases listed with rfl | rfl | rfl | rfl | rfl | rfl | rfl | rfl <;> rfl

/-- Settles O14: every row packs its results element by element, and each element is read back. -/
theorem laneIntegerResults : Obligations.LaneIntegerResults := by
  intro row listed l
  exact writesLanes_of_issueLanes _ (intRegs_one_or_two l.m) (fun s _ _ => exec_integerTable l s row listed)
    fun _ _ _ _ inside => elemNat_laneFit_packElems l.m _ inside

/-! ### Logic, shifts and the funnel shift (R207 to R209) -/

theorem exec_logicTable (l : Long) (s : State) :
    ∀ row ∈ Claims.logicTable, exec (row.1 l) s = issueLogic row.1 l s row.2 := by
  intro row listed
  simp only [Claims.logicTable, List.mem_cons, List.not_mem_nil, or_false] at listed
  rcases listed with rfl | rfl | rfl | rfl <;> rfl

theorem getLsbD_laneFit {n j : Nat} (count : n = 1 ∨ n = 2) (x : DWord) (inside : j < 32 * n) :
    (laneFit n x).getLsbD j = x.getLsbD j := by
  rcases count with rfl | rfl
  · have wide : j < 64 := by omega
    simp only [laneFit_one, BitVec.getLsbD_setWidth, wide, show j < 32 by omega, decide_true, Bool.true_and]
  · rfl

/-- Lane registers hold all of a value that has no bit beyond them. -/
theorem laneFit_eq_iff {n : Nat} (count : n = 1 ∨ n = 2) {x : DWord} :
    laneFit n x = x ↔ ∀ j, 32 * n ≤ j → x.getLsbD j = false := by
  constructor
  · intro fits j outside
    rcases count with rfl | rfl
    · rw [← fits, laneFit_one]
      simp [show ¬j < 32 by omega]
    · exact BitVec.getLsbD_of_ge _ _ outside
  · intro none
    refine BitVec.eq_of_getLsbD_eq fun j wide => ?_
    by_cases inside : j < 32 * n
    · exact getLsbD_laneFit count x inside
    · rcases count with rfl | rfl
      · simp [laneFit_one, none j (by omega)]
      · rfl

/-- What an operation of R207 makes of sources of `n` lane registers fits them. -/
theorem laneFit_logicTable {n : Nat} (count : n = 1 ∨ n = 2) {a b : DWord} (fitsA : laneFit n a = a) (fitsB : laneFit n b = b) :
    ∀ row ∈ Claims.logicTable, laneFit n (row.2 a b) = row.2 a b := by
  intro row listed
  refine (laneFit_eq_iff count).mpr fun j outside => ?_
  have noA := (laneFit_eq_iff count).mp fitsA j outside
  have noB := (laneFit_eq_iff count).mp fitsB j outside
  simp only [Claims.logicTable, List.mem_cons, List.not_mem_nil, or_false] at listed
  rcases listed with rfl | rfl | rfl | rfl <;> simp [noA, noB]

theorem logic_results (l : Long) : ∀ row ∈ Claims.logicTable,
    WritesLanes (row.1 l) (intRegs l.m) fun _ k lane d => d = row.2 (k.srcA (intRegs l.m) lane) (k.srcB (intRegs l.m) lane) :=
  fun row listed => writesLanes_of_issueLanes _ (intRegs_one_or_two l.m) (fun s _ _ => exec_logicTable l s row listed)
    fun _ _ _ => laneFit_logicTable (intRegs_one_or_two l.m) (laneFit_src ..) (laneFit_src ..) row listed

/-- A left shift by the width or more leaves nothing of the element. -/
theorem shiftElem_left (w a n : Nat) : shiftElem .left w a n % 2 ^ w = (a * 2 ^ n : Int) % 2 ^ w := by
  simp only [shiftElem]
  split
  · rename_i wide
    obtain ⟨d, rfl⟩ := Nat.exists_eq_add_of_le wide
    rw [pow_add, mul_left_comm, Int.mul_emod_right, Int.zero_emod]
  · push_cast
    rfl

theorem shiftElem_right {w a : Nat} (small : a < 2 ^ w) (n : Nat) : shiftElem .right w a n = (a / 2 ^ n : Int) := by
  simp only [shiftElem]
  split
  · rename_i wide
    have none : a / 2 ^ n = 0 := Nat.div_eq_of_lt (lt_of_lt_of_le small (Nat.pow_le_pow_right (by omega) wide))
    exact_mod_cast none.symm
  · push_cast
    rfl

/-- A signed element lies below a power of two that its width reaches, on either side of zero. -/
theorem toSigned_bounds {w a n : Nat} (small : a < 2 ^ w) (wide : w ≤ n) :
    -(2 ^ n : Int) ≤ toSigned w a ∧ toSigned w a < 2 ^ n := by
  have more : (2 : Int) ^ w ≤ 2 ^ n := pow_le_pow_right₀ (by omega) wide
  have below : (a : Int) < 2 ^ w := by exact_mod_cast small
  unfold toSigned
  split <;> omega

/-- A value between -b and b, divided by b, keeps its sign alone. -/
theorem ediv_of_bounded {x b : Int} (low : -b ≤ x) (high : x < b) : x / b = if x < 0 then -1 else 0 := by
  split
  · rename_i neg
    rw [Int.ediv_eq_iff_of_pos (by omega)]
    omega
  · exact Int.ediv_eq_zero_of_lt (by omega) high

theorem shiftElem_arith {w a : Nat} (small : a < 2 ^ w) (n : Nat) : shiftElem .arith w a n = toSigned w a / 2 ^ n := by
  simp only [shiftElem]
  rcases Nat.le_total n w with short | wide
  · rw [Nat.min_eq_left short]
  · obtain ⟨low, high⟩ := toSigned_bounds small (le_refl w)
    obtain ⟨low', high'⟩ := toSigned_bounds small wide
    rw [Nat.min_eq_right wide, ediv_of_bounded low high, ediv_of_bounded low' high']

/-- The shift of a row of R208, with what it makes of an element. -/
theorem shiftTable_spec : ∀ row ∈ Claims.shiftTable, ∃ d : Shift, (∀ l s, exec (row.1 l) s = issueShift row.1 l s d) ∧
    ∀ w a n, a < 2 ^ w → shiftElem d w a n % 2 ^ w = row.2 w a n % 2 ^ w := by
  intro row listed
  simp only [Claims.shiftTable, List.mem_cons, List.not_mem_nil, or_false] at listed
  rcases listed with rfl | rfl | rfl
  · exact ⟨.left, fun _ _ => rfl, fun w a n _ => shiftElem_left w a n⟩
  · exact ⟨.right, fun _ _ => rfl, fun w a n small => by rw [shiftElem_right small]⟩
  · exact ⟨.arith, fun _ _ => rfl, fun w a n small => by rw [shiftElem_arith small]⟩

theorem shiftAmount_eq (l : Long) (b : DWord) (e : Nat) : shiftAmount l b e = Claims.amount l b e := by
  simp only [shiftAmount, Claims.amount, elemNat_eq (elemBits_pos l.m)]

theorem shift_results (l : Long) : ∀ row ∈ Claims.shiftTable,
    WritesLanes (row.1 l) (intRegs l.m) fun _ k lane d => ∀ e, e < operandBits l.m / elemBits l.m →
      (elemNat (elemBits l.m) e d : Int) = row.2 (elemBits l.m) (elemNat (elemBits l.m) e (k.srcA (intRegs l.m) lane))
        (Claims.amount l (k.srcB 1 lane) e) % 2 ^ elemBits l.m := by
  intro row listed
  obtain ⟨d, run, value⟩ := shiftTable_spec row listed
  refine writesLanes_of_issueLanes _ (intRegs_one_or_two l.m) (fun s _ _ => run l s) fun s k lane e inside => ?_
  refine (elemNat_laneFit_packElems l.m _ inside).trans ?_
  rw [value _ _ _ (elemNat_lt (elemBits_pos l.m) ..), shiftAmount_eq]

theorem exec_fsh (l : Long) (s : State) : exec (.fsh l) s = execFsh l s := rfl

theorem funnel_lt (f : BitVec 3) (a b amt : Nat) : funnel f a b amt < 2 ^ 32 := by
  simp only [funnel]
  split <;> exact Nat.mod_lt _ (by omega)

/-- A number below 2^(32n) that is written to `n` lane registers. -/
theorem toNat_laneFit_ofNat {n x : Nat} (count : n = 1 ∨ n = 2) (small : x < 2 ^ (32 * n)) :
    (laneFit n (BitVec.ofNat 64 x)).toNat = x := by
  have wide : x < 2 ^ 64 := lt_of_lt_of_le small (Nat.pow_le_pow_right (by omega) (by omega))
  have all : (BitVec.ofNat 64 x).toNat = x := by rw [BitVec.toNat_ofNat, Nat.mod_eq_of_lt wide]
  rw [laneFit_of_lt count (by rwa [all]), all]

theorem fsh_results (l : Long) : WritesLanes (.fsh l) 1 fun _ k lane d =>
    let cat := (k.srcB 1 lane).toNat * 2 ^ 32 + (k.srcA 1 lane).toNat
    let amt := if l.f.getLsbD 1 then l.c.toNat else (k.srcC 1 lane).toNat
    let n := if l.f.getLsbD 2 then min amt 32 else amt % 32
    d.toNat = if l.f.getLsbD 0 then cat * 2 ^ n / 2 ^ 32 % 2 ^ 32 else cat / 2 ^ n % 2 ^ 32 :=
  writesLanes_of_issueLanes _ (.inl rfl) (fun s _ _ => exec_fsh l s) fun _ _ _ => toNat_laneFit_ofNat (.inl rfl) (funnel_lt ..)

/-! ### Encodings of the logic and of lea (R207, R213) -/

/-- The types that R207 takes. -/
theorem mem_of_intTypes (m : BitVec 4) (h : m ≤ 9) : m ∈ [(0 : BitVec 4), 1, 2, 3, 4, 5, 6, 7, 8, 9] := by
  revert m
  decide

theorem operandBits_eq (m : BitVec 4) : operandBits m = if m = 2 ∨ m = 3 ∨ m = 9 then 64 else 32 := by
  revert m
  decide

theorem logic_encoding {c : Long → Instr} {l : Long} {d a b : Slot}
    (form : (c l).form = some (true, l, laneForm l (l.m ≤ 9) 7 d a b .zero)) (wf : (c l).wellFormed = true) : l.m ≤ 9 ∧ l.f = 0 := by
  obtain ⟨value, reserved, -, -, -⟩ := cleanFields_of_encoding form (wellFormed_encoding wf)
  simp only [laneForm, Bool.not_eq_false', Bool.or_eq_false_iff, decide_eq_false_iff_not, ne_eq, not_not, decide_eq_true_eq]
    at value reserved
  exact ⟨value, eq_zero_of_and_seven _ reserved.1⟩

/-- The encoding of one instruction of R207, from its form and its OP. -/
theorem logic_encoded {c : Long → Instr} {op : BitVec 7} {d a b : Long → Slot}
    (form : ∀ l, (c l).form = some (true, l, laneForm l (l.m ≤ 9) 7 (d l) (a l) (b l) .zero))
    (parts : ∀ l, (c l).parts = some (false, op, .long l))
    (takes : ∀ m ∈ [(0 : BitVec 4), 1, 2, 3, 4, 5, 6, 7, 8, 9], (c (Claims.plainLong m)).wellFormed = true) :
    Claims.takesTypes c [0, 1, 2, 3, 4, 5, 6, 7, 8, 9] ∧ ∀ l : Long, Claims.laneLong (c l) op.toNat ∧
      ((c l).wellFormed = true → l.f = 0) ∧ operandBits l.m = if l.m = 2 ∨ l.m = 3 ∨ l.m = 9 then 64 else 32 :=
  ⟨⟨takes, fun l wf => mem_of_intTypes _ (logic_encoding (form l) wf).1⟩,
    fun l => ⟨laneLong_of_parts (parts l), fun wf => (logic_encoding (form l) wf).2, operandBits_eq l.m⟩⟩

/-- Settles O15: bit by bit, element by element, and of 32 bits out of 64; the encodings by their form. -/
theorem laneLogicAndShiftResults : Obligations.LaneLogicAndShiftResults := by
  refine ⟨fun row listed l => logic_results l row listed, fun row listed l => shift_results l row listed, fsh_results,
    fun row listed => ?_⟩
  simp only [List.mem_cons, List.not_mem_nil, or_false] at listed
  rcases listed with rfl | rfl | rfl | rfl
  · exact logic_encoded (op := 0x09) (fun _ => rfl) (fun _ => rfl) (by decide)
  · exact logic_encoded (op := 0x0A) (fun _ => rfl) (fun _ => rfl) (by decide)
  · exact logic_encoded (op := 0x0B) (fun _ => rfl) (fun _ => rfl) (by decide)
  · exact logic_encoded (op := 0x0C) (fun _ => rfl) (fun _ => rfl) (by decide)

end Sys2Proof.Machine
end

section
namespace Sys2Proof.Machine

/-! ### Bit counts and bit reversal (R210) -/

/-- How far a test holds from 0 on, below `w`. -/
theorem length_takeWhile_range (w : Nat) (p : Nat → Bool) :
    let c := ((List.range w).takeWhile p).length
    c ≤ w ∧ (∀ j, j < c → p j = true) ∧ (c < w → p c = false) := by
  intro c
  have first : c = (List.range w).findIdx fun j => !p j := by
    have within := List.findIdx_le_length (xs := List.range w) (p := fun j => !p j)
    simp only [c, List.takeWhile_eq_take_findIdx_not, List.length_take]
    omega
  have within : c ≤ w := by simpa [first] using List.findIdx_le_length (xs := List.range w) (p := fun j => !p j)
  refine ⟨within, fun j before => ?_, fun stops => ?_⟩
  · have passed := List.not_of_lt_findIdx (xs := List.range w) (p := fun j => !p j) (i := j) (first ▸ before)
    simpa using passed
  · have found := List.findIdx_getElem (xs := List.range w) (p := fun j => !p j) (w := by simpa [← first] using stops)
    simpa [← first] using found

theorem isOnes_popCount (w : Nat) (a : DWord) : Claims.isOnes w a (popCount w a.toNat) := rfl

theorem isLeading_leadingZeros (w : Nat) (a : DWord) : Claims.isLeading w a (leadingZeros w a.toNat) := by
  obtain ⟨within, zeros, stop⟩ := length_takeWhile_range w fun j => !a.toNat.testBit (w - 1 - j)
  exact ⟨within, fun j before => (Bool.not_eq_true' _).mp (zeros j before), fun short => (Bool.not_eq_false' _).mp (stop short)⟩

theorem isTrailing_trailingZeros (w : Nat) (a : DWord) : Claims.isTrailing w a (trailingZeros w a.toNat) := by
  obtain ⟨within, zeros, stop⟩ := length_takeWhile_range w fun j => !a.toNat.testBit j
  exact ⟨within, fun j before => (Bool.not_eq_true' _).mp (zeros j before), fun short => (Bool.not_eq_false' _).mp (stop short)⟩

theorem popCount_le (w a : Nat) : popCount w a ≤ w := by
  simpa [popCount] using List.length_filter_le (fun j => a.testBit j) (List.range w)

theorem leadingZeros_le (w : Nat) (a : DWord) : leadingZeros w a.toNat ≤ w := (isLeading_leadingZeros w a).1

theorem operandBits_le (m : BitVec 4) : operandBits m ≤ 64 := by
  have count := intRegs_one_or_two m
  rw [operandBits]
  omega

/-- A count of bits of an operand, in the 32 bits that are written. -/
theorem toNat_laneFit_count {c : Nat} {m : BitVec 4} (within : c ≤ operandBits m) : (laneFit 1 (BitVec.ofNat 64 c)).toNat = c :=
  toNat_laneFit_ofNat (.inl rfl) (by have := operandBits_le m; omega)

/-- The reversed bits are the digits to the base 2, from the highest. -/
theorem bitReverse_eq (w a : Nat) : bitReverse w a = joinDigits 1 w fun k => (a.testBit (w - 1 - k)).toNat := by
  have summed : bitReverse w a = ∑ j ∈ Finset.range w, (a.testBit j).toNat * 2 ^ (w - 1 - j) := by
    rw [bitReverse, ← foldl_add_range]
    congr 1
    funext acc j
    cases a.testBit j <;> simp
  rw [summed, joinDigits, ← Finset.sum_range_reflect]
  refine Finset.sum_congr rfl fun j inside => ?_
  have below := Finset.mem_range.mp inside
  rw [show w - 1 - (w - 1 - j) = j by omega, Nat.one_mul]

theorem testBit_bitReverse {w j : Nat} (a : Nat) (inside : j < w) : (bitReverse w a).testBit j = a.testBit (w - 1 - j) := by
  have digit := joinDigits_digit (w := 1) inside fun k _ => (a.testBit (w - 1 - k)).toNat_lt
  rw [pow_one, Nat.one_mul] at digit
  rw [bitReverse_eq, Nat.testBit_eq_decide_div_mod_eq, digit]
  cases a.testBit (w - 1 - j) <;> rfl

theorem exec_popc (l : Long) (s : State) : exec (.popc l) s = issueCount .popc l s 1 popCount := rfl
theorem exec_clz (l : Long) (s : State) : exec (.clz l) s = issueCount .clz l s 1 leadingZeros := rfl
theorem exec_ctz (l : Long) (s : State) : exec (.ctz l) s = issueCount .ctz l s 1 trailingZeros := rfl
theorem exec_brev (l : Long) (s : State) : exec (.brev l) s = issueCount .brev l s (intRegs l.m) bitReverse := rfl

theorem popc_results (l : Long) :
    WritesLanes (.popc l) 1 fun _ k lane d => Claims.isOnes (operandBits l.m) (k.srcA (intRegs l.m) lane) d.toNat :=
  writesLanes_of_issueLanes _ (.inl rfl) (fun s _ _ => exec_popc l s) fun _ _ _ => by
    rw [toNat_laneFit_count (popCount_le ..)]
    exact isOnes_popCount _ _

theorem clz_results (l : Long) :
    WritesLanes (.clz l) 1 fun _ k lane d => Claims.isLeading (operandBits l.m) (k.srcA (intRegs l.m) lane) d.toNat :=
  writesLanes_of_issueLanes _ (.inl rfl) (fun s _ _ => exec_clz l s) fun _ _ _ => by
    rw [toNat_laneFit_count (leadingZeros_le ..)]
    exact isLeading_leadingZeros _ _

theorem ctz_results (l : Long) :
    WritesLanes (.ctz l) 1 fun _ k lane d => Claims.isTrailing (operandBits l.m) (k.srcA (intRegs l.m) lane) d.toNat :=
  writesLanes_of_issueLanes _ (.inl rfl) (fun s _ _ => exec_ctz l s) fun _ _ _ => by
    rw [toNat_laneFit_count (isTrailing_trailingZeros ..).1]
    exact isTrailing_trailingZeros _ _

theorem brev_results (l : Long) : WritesLanes (.brev l) (intRegs l.m) fun _ k lane d => ∀ j, j < operandBits l.m →
    d.getLsbD j = (k.srcA (intRegs l.m) lane).getLsbD (operandBits l.m - 1 - j) :=
  writesLanes_of_issueLanes _ (intRegs_one_or_two l.m) (fun s _ _ => exec_brev l s) fun _ k lane j inside => by
    have wide : j < 64 := lt_of_lt_of_le inside (operandBits_le l.m)
    rw [getLsbD_laneFit (intRegs_one_or_two l.m) _ inside, BitVec.getLsbD_ofNat, testBit_bitReverse _ inside, decide_eq_true wide,
      Bool.true_and]
    rfl

/-! ### Bit fields (R211) -/

theorem fieldLength_eq (w pos len : Nat) : fieldLength w pos len = Claims.fieldLen w pos len := by
  simp [fieldLength, Claims.fieldLen]

theorem fieldLength_le (w pos len : Nat) : fieldLength w pos len ≠ 0 → pos + fieldLength w pos len ≤ w := by
  unfold fieldLength
  split <;> omega

/-- A signed number of `l` bits in 64: the bits above repeat its highest. -/
theorem getLsbD_ofInt_toSigned {l f j : Nat} (pos : 0 < l) (fits : l ≤ 64) (small : f < 2 ^ l) (inside : j < 64) :
    (BitVec.ofInt 64 (toSigned l f)).getLsbD j = if j < l then f.testBit j else f.testBit (l - 1) := by
  unfold toSigned
  split
  · rename_i negative
    have sign : f.testBit (l - 1) = true :=
      Nat.testBit_of_two_pow_le_and_two_pow_add_one_gt negative (by rwa [Nat.sub_add_cancel pos])
    have whole : 2 ^ l * (2 ^ (64 - l) - 1) + 2 ^ l = 2 ^ 64 := by
      rw [← Nat.mul_succ, Nat.succ_eq_add_one, Nat.sub_add_cancel (Nat.two_pow_pos _), ← pow_add, Nat.add_sub_cancel' fits]
    have ones : BitVec.ofInt 64 ((f : Int) - 2 ^ l) = BitVec.ofNat 64 (2 ^ l * (2 ^ (64 - l) - 1) + f) := by
      have apart : ((f : Int) - 2 ^ l) = ((2 ^ l * (2 ^ (64 - l) - 1) + f : Nat) : Int) + 2 ^ 64 * (-1) := by
        zify at whole
        push_cast
        omega
      refine BitVec.eq_of_toNat_eq ?_
      rw [BitVec.toNat_ofInt, BitVec.toNat_ofNat, apart]
      omega
    rw [ones, BitVec.getLsbD_ofNat, Nat.testBit_two_pow_mul_add _ small, Nat.testBit_two_pow_sub_one, sign]
    by_cases low : j < l
    · simp [low, inside]
    · simp [low, inside, show j - l < 64 - l by omega]
  · rename_i positive
    have sign : f.testBit (l - 1) = false := Nat.testBit_lt_two_pow (by omega)
    rw [BitVec.ofInt_natCast, BitVec.getLsbD_ofNat, sign, decide_eq_true inside, Bool.true_and]
    by_cases low : j < l
    · rw [if_pos low]
    · rw [if_neg low]
      exact Nat.testBit_lt_two_pow (lt_of_lt_of_le small (Nat.pow_le_pow_right (by omega) (by omega)))

/-- What bfx writes, in as many bits as its operand has. -/
theorem isExtract_bfxOp {w : Nat} (fits : w ≤ 64) (a : DWord) (pos len : Nat) (signed : Bool) :
    Claims.isExtract w a pos len signed (BitVec.ofInt 64 (bfxOp w a.toNat pos len signed)) := by
  intro j inside
  have wide : j < 64 := by omega
  have reach := fieldLength_le w pos len
  simp only [bfxOp, ← fieldLength_eq]
  generalize fieldLength w pos len = l at reach
  by_cases empty : l = 0
  · simp [empty]
  · have cut (i : Nat) : (a.toNat / 2 ^ pos % 2 ^ l).testBit i = (decide (i < l) && a.getLsbD (pos + i)) := by
      rw [Nat.testBit_mod_two_pow, Nat.testBit_div_two_pow, Nat.add_comm i]
      rfl
    simp only [if_neg empty]
    cases signed with
    | true =>
      rw [if_pos rfl, getLsbD_ofInt_toSigned (by omega) (by omega) (Nat.mod_lt _ (Nat.two_pow_pos l)) wide, cut, cut]
      by_cases low : j < l
      · simp [low]
      · simp [low, show l - 1 < l by omega, show pos + (l - 1) = pos + l - 1 by omega]
    | false =>
      rw [if_neg Bool.false_ne_true, BitVec.ofInt_natCast, BitVec.getLsbD_ofNat, cut]
      by_cases low : j < l <;> simp [low, wide]

/-- What bfi writes: the field of A within the bits of its base. -/
theorem testBit_bfiOp (w base a pos len j : Nat) : (bfiOp w base a pos len).testBit j =
    if pos ≤ j ∧ j < pos + fieldLength w pos len then a.testBit (j - pos) else base.testBit j := by
  simp only [bfiOp]
  generalize fieldLength w pos len = l
  by_cases empty : l = 0
  · simp only [empty, if_true]
    rw [if_neg (by omega)]
  · have below : base % 2 ^ pos < 2 ^ pos := Nat.mod_lt _ (Nat.two_pow_pos pos)
    have cut : a % 2 ^ l < 2 ^ l := Nat.mod_lt _ (Nat.two_pow_pos l)
    have lower : 2 ^ pos * (a % 2 ^ l) + base % 2 ^ pos < 2 ^ (pos + l) := by
      have top := Nat.mul_le_mul_left (2 ^ pos) (Nat.succ_le_of_lt cut)
      rw [Nat.mul_succ, ← pow_add] at top
      omega
    rw [if_neg empty, show base % 2 ^ pos + a % 2 ^ l * 2 ^ pos + base / 2 ^ (pos + l) * 2 ^ (pos + l) =
        2 ^ (pos + l) * (base / 2 ^ (pos + l)) + (2 ^ pos * (a % 2 ^ l) + base % 2 ^ pos) by ring,
      Nat.testBit_two_pow_mul_add _ lower, Nat.testBit_two_pow_mul_add _ below, Nat.testBit_div_two_pow, Nat.testBit_mod_two_pow,
      Nat.testBit_mod_two_pow]
    by_cases under : j < pos
    · simp [under, show j < pos + l by omega, show ¬pos ≤ j by omega]
    · by_cases within : j < pos + l
      · simp [under, within, show pos ≤ j by omega, show j - pos < l by omega]
      · simp [within, show j - (pos + l) + (pos + l) = j by omega]

theorem isInsert_bfiOp {w : Nat} (fits : w ≤ 64) (base a : DWord) (pos len : Nat) :
    Claims.isInsert w base a pos len (BitVec.ofNat 64 (bfiOp w base.toNat a.toNat pos len)) := by
  intro j inside
  rw [BitVec.getLsbD_ofNat, testBit_bfiOp, ← fieldLength_eq, decide_eq_true (show j < 64 by omega), Bool.true_and]
  rfl

/-- The bits below the operand's width are those of the value written. -/
theorem isExtract_laneFit {n : Nat} (count : n = 1 ∨ n = 2) {a : DWord} {pos len : Nat} {signed : Bool} {d : DWord}
    (value : Claims.isExtract (32 * n) a pos len signed d) : Claims.isExtract (32 * n) a pos len signed (laneFit n d) :=
  fun j inside => (getLsbD_laneFit count d inside).trans (value j inside)

theorem isInsert_laneFit {n : Nat} (count : n = 1 ∨ n = 2) {base a : DWord} {pos len : Nat} {d : DWord}
    (value : Claims.isInsert (32 * n) base a pos len d) : Claims.isInsert (32 * n) base a pos len (laneFit n d) :=
  fun j inside => (getLsbD_laneFit count d inside).trans (value j inside)

/-- An instruction that writes lane registers of D, of a value that depends on what its fields hold. -/
theorem writesLanes_of_ready {i : Instr} {n : Nat} {R : State → Here → Nat → DWord → Prop} (f : State → Here → Nat → DWord)
    (count : n = 1 ∨ n = 2) (run : ∀ s, exec i s = issueLanes i s n (f s))
    (value : ∀ s k lane, s.ready i = some k → R s k lane (laneFit n (f s k lane))) : WritesLanes i n R := by
  intro s k ready tidy
  have written : WritesLanes i n fun s k lane d => s.ready i = some k → R s k lane d :=
    writesLanes_of_issueLanes f count (fun s _ _ => run s) value
  obtain ⟨t, h, next, only, frame, wrote⟩ := written s k ready tidy
  exact ⟨t, h, next, only, frame, fun lane takes => wrote lane takes ready⟩

theorem exec_bfx (l : Long) (s : State) : exec (.bfx l) s = execBfx l s := rfl
theorem exec_bfi (l : Long) (s : State) : exec (.bfi l) s = execBfi l s := rfl
theorem exec_lea (l : Long) (s : State) : exec (.lea l) s = execLea l s := rfl

theorem bfx_results (l : Long) : WritesLanes (.bfx l) (intRegs l.m) fun _ k lane d =>
    Claims.isExtract (operandBits l.m) (k.srcA (intRegs l.m) lane) (if l.f.getLsbD 1 then l.b.toNat else (k.srcB 1 lane).toNat)
      (if l.f.getLsbD 1 then l.c.toNat else (k.srcC 1 lane).toNat) (l.f.getLsbD 0) d := by
  refine writesLanes_of_ready (fun _ k lane => BitVec.ofInt 64 (bfxOp (operandBits l.m) (k.srcA (intRegs l.m) lane).toNat
    (k.fieldPos lane) (k.fieldLen lane) (l.f.getLsbD 0))) (intRegs_one_or_two l.m)
    (fun s => (exec_bfx l s).trans (by rw [execBfx])) fun s k lane ready => ?_
  have fields : k.f = l := ready_fields ready rfl
  simp only [Here.fieldPos, Here.fieldLen, fields]
  exact isExtract_laneFit (intRegs_one_or_two l.m) (isExtract_bfxOp (operandBits_le l.m) _ _ _ _)

theorem bfi_results (l : Long) : WritesLanes (.bfi l) (intRegs l.m) fun _ k lane d =>
    Claims.isInsert (operandBits l.m) (k.grp.operand l.d.toNat (intRegs l.m) lane) (k.srcA (intRegs l.m) lane)
      (if l.f.getLsbD 1 then l.b.toNat else (k.srcB 1 lane).toNat) (if l.f.getLsbD 1 then l.c.toNat else (k.srcC 1 lane).toNat)
      d := by
  refine writesLanes_of_ready (fun _ k lane => BitVec.ofNat 64 (bfiOp (operandBits l.m)
    (k.src (intRegs l.m) l.d.toNat false lane).toNat (k.srcA (intRegs l.m) lane).toNat (k.fieldPos lane) (k.fieldLen lane)))
    (intRegs_one_or_two l.m) (fun s => (exec_bfi l s).trans (by rw [execBfi])) fun s k lane ready => ?_
  have fields : k.f = l := ready_fields ready rfl
  simp only [Here.fieldPos, Here.fieldLen, fields]
  exact isInsert_laneFit (intRegs_one_or_two l.m) (isInsert_bfiOp (operandBits_le l.m) _ _ _ _)

/-! ### perm and lea (R212, R213) -/

theorem permByte_eq (a b : DWord) (z : Nat) : permByte a.toNat b.toNat z = Claims.permByteOf a b z := by
  simp only [permByte, Claims.permByteOf, bits, show 8 * (z % 8) + 7 + 1 - 8 * (z % 8) = 8 by omega, Nat.reducePow]

theorem permByteOf_lt (a b : DWord) (z : Nat) : Claims.permByteOf a b z < 2 ^ 8 := by
  simp only [Claims.permByteOf]
  split
  · omega
  · split <;> omega

theorem exec_perm (l : Long) (s : State) : exec (.perm l) s = issueLanes (.perm l) s 1 fun k lane =>
    BitVec.ofNat 64 (joinDigits 8 4 fun j =>
      Claims.permByteOf (k.srcA 1 lane) (k.srcB 1 lane) ((k.srcC 1 lane).toNat / 2 ^ (4 * j) % 16)) := by
  change execPerm l s = _
  simp only [execPerm, foldl_add_range, joinDigits, permByte_eq, bits,
    show ∀ j, 4 * j + 3 + 1 - 4 * j = 4 by omega]
  rfl

theorem perm_results (l : Long) : WritesLanes (.perm l) 1 fun _ k lane d => ∀ j, j < 4 → d.toNat / 2 ^ (8 * j) % 256 =
    Claims.permByteOf (k.srcA 1 lane) (k.srcB 1 lane) ((k.srcC 1 lane).toNat / 2 ^ (4 * j) % 16) :=
  writesLanes_of_issueLanes _ (.inl rfl) (fun s _ _ => exec_perm l s) fun _ _ _ j inside => by
    rw [toNat_laneFit_ofNat (.inl rfl) (joinDigits_lt (w := 8) (n := 4) fun _ _ => permByteOf_lt ..)]
    exact joinDigits_digit inside fun _ _ => permByteOf_lt ..

theorem lea_results (l : Long) : WritesLanes (.lea l) 2 fun _ k lane d =>
    d = k.srcA 2 lane + (if l.m = 0 then ((k.srcB 1 lane).setWidth 32).signExtend 64 else k.srcB 1 lane) *
      BitVec.ofNat 64 (2 ^ l.f.toNat) := by
  refine writesLanes_of_issueLanes (fun _ k lane => k.srcA 2 lane + ((if l.m = 0 then ((k.srcB 1 lane).setWidth 32).signExtend 64
    else ((k.srcB 1 lane).setWidth 32).setWidth 64) <<< l.f.toNat)) (.inr rfl) (fun s _ _ => (exec_lea l s).trans (by rw [execLea]))
    fun s k lane => ?_
  have low : ((k.srcB 1 lane).setWidth 32).setWidth 64 = k.srcB 1 lane :=
    (laneFit_one _).symm.trans (laneFit_src ..)
  have scale : BitVec.twoPow 64 l.f.toNat = BitVec.ofNat 64 (2 ^ l.f.toNat) :=
    BitVec.eq_of_toNat_eq ((BitVec.toNat_twoPow ..).trans (BitVec.toNat_ofNat ..).symm)
  simp only [laneFit_two, low, BitVec.shiftLeft_eq_mul_twoPow, scale]

theorem mem_of_leaTypes (m : BitVec 4) (h : m ≤ 1) : m ∈ [(0 : BitVec 4), 1] := by
  revert m
  decide

/-- A register field of an encoding that raises no cause is aligned to its operand (R179, R362). -/
theorem slots_of_encoding {i : Instr} {lp : Bool} {f : Long} {fm : Form} (form : i.form = some (lp, f, fm))
    (clean : i.encodingCause = none) : fm.d.bad f.d false = false ∧ fm.a.bad f.a f.ka = false := by
  simp only [Instr.encodingCause, form] at clean
  split at clean
  · cases clean
  · rename_i value
    simp only [Bool.or_eq_true, not_or, Bool.not_eq_true] at value
    obtain ⟨⟨⟨⟨-, d⟩, a⟩, -⟩, -⟩ := value
    exact ⟨d, a⟩

theorem lea_encoding {l : Long} (wf : (Instr.lea l).wellFormed = true) :
    l.m ≤ 1 ∧ l.d.toNat % 2 = 0 ∧ (l.ka = false → l.a.toNat % 2 = 0) := by
  obtain ⟨value, -, -, -, -⟩ := cleanFields_of_encoding rfl (wellFormed_encoding wf)
  obtain ⟨d, a⟩ := slots_of_encoding rfl (wellFormed_encoding wf)
  simp only [laneForm, Bool.not_eq_false', decide_eq_true_eq] at value
  simp only [laneForm, Slot.bad, decide_eq_false_iff_not, ne_eq, not_not] at d a
  refine ⟨value, d, fun lane => ?_⟩
  simpa [lane] using a

/-- Settles O16: counts, fields and bytes of the operands; the encoding of lea by its form. -/
theorem laneCountAndFieldResults : Obligations.LaneCountAndFieldResults :=
  ⟨fun l => ⟨popc_results l, clz_results l, ctz_results l, brev_results l⟩,
    fun l => ⟨bfx_results l, bfi_results l, perm_results l, lea_results l⟩,
    ⟨by decide, fun _ wf => mem_of_leaTypes _ (lea_encoding wf).1⟩,
    fun _ => ⟨laneLong_of_parts (op := 0x18) rfl, fun wf => (lea_encoding wf).2⟩⟩

end Sys2Proof.Machine
end

section
namespace Sys2Proof.Machine

/-! ### Group registers (R181, R223, R224) -/

/-- An instruction that writes gD. -/
theorem writesGroup_of_issueGroup {i : Instr} {R : State → Here → DWord → Prop} (f : State → Here → DWord)
    (run : ∀ s, exec i s = issueGroup i s (f s)) (value : ∀ s k, s.ready i = some k → R s k (f s k)) : WritesGroup i R := by
  intro s k ready tidy
  obtain ⟨-, wf, -⟩ := tidy_parts tidy
  obtain ⟨t, h, next, only, frame, wrote⟩ := issueGroup_ready (f s) ready wf
  refine ⟨t, h, (run s).trans next, only, frame, ?_⟩
  split
  · exact if_pos rfl
  · rename_i kept
    rw [wrote, if_neg kept]
    exact value s k ready

/-- A group source is as much of the register as its type reads. -/
theorem gsrc_eq (k : Here) (m : BitVec 4) (n : Nat) : k.gsrc m n = laneFit (intRegs m) (k.grp.greg n) := rfl

theorem groupResult_laneFit (m : BitVec 4) (x : DWord) : groupResult m (laneFit (intRegs m) x) = groupResult m x := by
  unfold groupResult laneFit
  split
  · rfl
  · simp

/-- A result of R223 needs no more of an integer than its type holds. -/
theorem groupResult_ofInt_congr {m : BitVec 4} {x y : Int} (same : x % 2 ^ (32 * intRegs m) = y % 2 ^ (32 * intRegs m)) :
    groupResult m (BitVec.ofInt 64 x) = groupResult m (BitVec.ofInt 64 y) := by
  have count := intRegs_one_or_two m
  have low : laneFit (intRegs m) (BitVec.ofInt 64 x) = laneFit (intRegs m) (BitVec.ofInt 64 y) := by
    refine BitVec.eq_of_toNat_eq (Int.ofNat_inj.mp ?_)
    exact (toNat_laneFit_ofInt count x).trans (same.trans (toNat_laneFit_ofInt count y).symm)
  rw [← groupResult_laneFit, low, groupResult_laneFit]

theorem elemBits_of_wide {m : BitVec 4} (wide : wideTypes m = true) : elemBits m = 32 * intRegs m := by
  revert m
  decide

/-- A type of 32 or 64 bits has one element. -/
theorem groupResult_packElems {m : BitVec 4} (wide : wideTypes m = true) (f : Nat → Int) :
    groupResult m (packElems (elemBits m) (operandBits m / elemBits m) f) = groupResult m (BitVec.ofInt 64 (f 0)) := by
  have width := elemBits_of_wide wide
  have one : operandBits m / elemBits m = 1 := by
    rw [operandBits, ← width, Nat.div_self (elemBits_pos m)]
  have packed : packElems (elemBits m) 1 f = BitVec.ofInt 64 (f 0 % 2 ^ (32 * intRegs m)) := by
    rw [packElems_eq, joinDigits, Finset.sum_range_one, Nat.mul_zero, pow_zero, Nat.mul_one, ← BitVec.ofInt_natCast,
      Int.toNat_of_nonneg (Int.emod_nonneg _ (by positivity)), width]
  rw [one, packed]
  exact groupResult_ofInt_congr (Int.emod_emod_of_dvd _ dvd_rfl)

/-- An instruction that is ready has a type that its form takes (R203, R362). -/
theorem wide_of_ready {s : State} {i : Instr} {k : Here} {l : Long} {fm : Form} (ready : s.ready i = some k)
    (form : i.form = some (false, l, fm)) (checked : fm.bad = !wideTypes l.m) : wideTypes l.m = true := by
  have value := (cleanFields_of_encoding form (ready_encoding ready)).value
  rwa [checked, Bool.not_eq_false'] at value

theorem groupIntegerTable_spec (l : Long) : ∀ row ∈ Claims.groupIntegerTable,
    (∃ fm, (row.1 l).form = some (false, l, fm) ∧ fm.bad = !wideTypes l.m) ∧
      ∀ s, exec (row.1 l) s = issueGint row.1 l s (row.2 l).1 (row.2 l).2 := by
  intro row listed
  simp only [Claims.groupIntegerTable, List.mem_cons, List.not_mem_nil, or_false] at listed
  rcases listed with rfl | rfl | rfl | rfl | rfl | rfl <;> exact ⟨⟨_, rfl, rfl⟩, fun _ => rfl⟩

theorem groupInteger_results (l : Long) : ∀ row ∈ Claims.groupIntegerTable, WritesGroup (row.1 l) fun _ k v =>
    let x := (row.2 l).2 (elemVal l.m 0 (k.gsrc l.m l.a.toNat)) (elemVal l.m 0 (k.gsrc l.m l.b.toNat))
      (elemVal l.m 0 (k.gsrc l.m l.c.toNat))
    v = groupResult l.m (BitVec.ofInt 64
      (if (row.2 l).1 && l.f.getLsbD 0 then min (max x (leastOf l.m)) (greatestOf l.m) else x)) := by
  intro row listed
  obtain ⟨⟨fm, form, checked⟩, run⟩ := groupIntegerTable_spec l row listed
  exact writesGroup_of_issueGroup _ run fun s k ready => groupResult_packElems (wide_of_ready ready form checked) _

theorem exec_groupLogicTable (l : Long) (s : State) :
    ∀ row ∈ Claims.groupLogicTable, exec (row.1 l) s = issueGlogic row.1 l s row.2 := by
  intro row listed
  simp only [Claims.groupLogicTable, List.mem_cons, List.not_mem_nil, or_false] at listed
  rcases listed with rfl | rfl | rfl <;> rfl

theorem groupShiftTable_spec (l : Long) : ∀ row ∈ Claims.groupShiftTable,
    (∃ fm, (row.1 l).form = some (false, l, fm) ∧ fm.bad = !wideTypes l.m) ∧
      ∃ d : Shift, (∀ s, exec (row.1 l) s = issueGshift row.1 l s d) ∧
        ∀ w a n, a < 2 ^ w → shiftElem d w a n % 2 ^ w = row.2 w a n % 2 ^ w := by
  intro row listed
  simp only [Claims.groupShiftTable, List.mem_cons, List.not_mem_nil, or_false] at listed
  rcases listed with rfl | rfl | rfl
  · exact ⟨⟨_, rfl, rfl⟩, .left, fun _ => rfl, fun w a n _ => shiftElem_left w a n⟩
  · exact ⟨⟨_, rfl, rfl⟩, .right, fun _ => rfl, fun w a n small => by rw [shiftElem_right small]⟩
  · exact ⟨⟨_, rfl, rfl⟩, .arith, fun _ => rfl, fun w a n small => by rw [shiftElem_arith small]⟩

/-- The one element of a source of 32 or 64 bits is all of it. -/
theorem elemNat_gsrc {m : BitVec 4} (wide : wideTypes m = true) (k : Here) (n : Nat) :
    elemNat (elemBits m) 0 (k.gsrc m n) = (k.gsrc m n).toNat := by
  rw [elemNat_eq (elemBits_pos m), Nat.mul_zero, pow_zero, Nat.div_one, elemBits_of_wide wide, gsrc_eq]
  refine Nat.mod_eq_of_lt ?_
  unfold laneFit
  rcases intRegs_one_or_two m with one | two
  · simp only [one, OfNat.one_ne_ofNat, if_false, BitVec.toNat_setWidth]
    omega
  · simp only [two, if_true]
    exact BitVec.isLt _

/-- The amount of a group shift: the immediate, or bits [31:0] of gB. -/
theorem shiftAmount_group {l : Long} (wide : wideTypes l.m = true) (x : DWord) :
    shiftAmount l ((x.setWidth 32).setWidth 64) 0 = if l.f.getLsbD 0 then l.c.toNat else x.toNat % 2 ^ 32 := by
  have width := elemBits_of_wide wide
  have count := intRegs_one_or_two l.m
  unfold shiftAmount
  rw [if_neg (show ¬elemBits l.m < 32 by omega)]
  refine congrArg _ ?_
  simp only [BitVec.toNat_setWidth]
  omega

theorem groupShift_results (l : Long) : ∀ row ∈ Claims.groupShiftTable, WritesGroup (row.1 l) fun _ k v =>
    v = groupResult l.m (BitVec.ofInt 64 (row.2 (operandBits l.m) (k.gsrc l.m l.a.toNat).toNat
      (if l.f.getLsbD 0 then l.c.toNat else (k.grp.greg l.b.toNat).toNat % 2 ^ 32))) := by
  intro row listed
  obtain ⟨⟨fm, form, checked⟩, d, run, value⟩ := groupShiftTable_spec l row listed
  refine writesGroup_of_issueGroup _ run fun s k ready => ?_
  have wide := wide_of_ready ready form checked
  have width : elemBits l.m = operandBits l.m := elemBits_of_wide wide
  have small := elemNat_lt (elemBits_pos l.m) 0 (k.gsrc l.m l.a.toNat)
  refine (groupResult_packElems wide _).trans (groupResult_ofInt_congr ?_)
  rw [shiftAmount_group wide]
  rw [elemNat_gsrc wide, width] at small ⊢
  exact value _ _ _ small

/-- A count of at most 64 is its own extension. -/
theorem toNat_groupResult_count (m : BitVec 4) {c : Nat} (few : c ≤ 64) : (groupResult m (BitVec.ofNat 64 c)).toNat = c := by
  have low : (BitVec.ofNat 64 c).setWidth 32 = BitVec.ofNat 32 c := BitVec.eq_of_toNat_eq (by
    simp only [BitVec.toNat_setWidth, BitVec.toNat_ofNat]
    omega)
  have positive : (BitVec.ofNat 32 c).msb = false := by
    rw [BitVec.msb_eq_false_iff_two_mul_lt, BitVec.toNat_ofNat]
    omega
  have same : groupResult m (BitVec.ofNat 64 c) = if intRegs m = 2 then BitVec.ofNat 64 c else (BitVec.ofNat 32 c).setWidth 64 := by
    rw [groupResult, low, BitVec.signExtend_eq_setWidth_of_msb_false positive, ite_self]
  rw [same]
  split
  · rw [BitVec.toNat_ofNat]
    omega
  · rw [BitVec.toNat_setWidth, BitVec.toNat_ofNat]
    omega

theorem exec_gpopc (l : Long) (s : State) : exec (.gpopc l) s = execGpopc l s := rfl
theorem exec_gclz (l : Long) (s : State) : exec (.gclz l) s = execGclz l s := rfl
theorem exec_gbfx (l : Long) (s : State) : exec (.gbfx l) s = execGbfx l s := rfl
theorem exec_gbfi (l : Long) (s : State) : exec (.gbfi l) s = execGbfi l s := rfl

theorem exec_gsel (l : Long) (s : State) : exec (.gsel l) s = execGsel l s := rfl
theorem exec_gmov (l : Long) (s : State) : exec (.gmov l) s = execGmov l s := rfl
theorem exec_gmovi (i : Imm) (s : State) : exec (.gmovi i) s = execGmovi i s := rfl
theorem exec_gaddi (i : Imm) (s : State) : exec (.gaddi i) s = execGaddi i s := rfl
theorem exec_gandi (i : Imm) (s : State) : exec (.gandi i) s = execGandi i s := rfl

theorem gpopc_results (l : Long) :
    WritesGroup (.gpopc l) fun _ k v => Claims.isOnes (operandBits l.m) (k.gsrc l.m l.a.toNat) v.toNat :=
  writesGroup_of_issueGroup _ (exec_gpopc l) fun _ _ _ => by
    rw [toNat_groupResult_count _ ((popCount_le ..).trans (operandBits_le l.m))]
    exact isOnes_popCount _ _

theorem gclz_results (l : Long) :
    WritesGroup (.gclz l) fun _ k v => Claims.isLeading (operandBits l.m) (k.gsrc l.m l.a.toNat) v.toNat :=
  writesGroup_of_issueGroup _ (exec_gclz l) fun _ _ _ => by
    rw [toNat_groupResult_count _ ((leadingZeros_le ..).trans (operandBits_le l.m))]
    exact isLeading_leadingZeros _ _

theorem gbfx_results (l : Long) : WritesGroup (.gbfx l) fun _ k v => ∃ d, v = groupResult l.m d ∧
    Claims.isExtract (operandBits l.m) (k.gsrc l.m l.a.toNat)
      (if l.f.getLsbD 1 then l.b.toNat else (k.grp.greg l.b.toNat).toNat % 2 ^ 32)
      (if l.f.getLsbD 1 then l.c.toNat else (k.grp.greg l.c.toNat).toNat % 2 ^ 32) (l.f.getLsbD 0) d :=
  writesGroup_of_issueGroup _ (exec_gbfx l) fun _ k ready => by
    have fields : k.f = l := ready_fields ready rfl
    simp only [Here.gfieldPos, Here.gfieldLen, fields]
    exact ⟨_, rfl, isExtract_bfxOp (operandBits_le l.m) _ _ _ _⟩

theorem gbfi_results (l : Long) : WritesGroup (.gbfi l) fun _ k v => ∃ d, v = groupResult l.m d ∧
    Claims.isInsert (operandBits l.m) (k.gsrc l.m l.d.toNat) (k.gsrc l.m l.a.toNat)
      (if l.f.getLsbD 1 then l.b.toNat else (k.grp.greg l.b.toNat).toNat % 2 ^ 32)
      (if l.f.getLsbD 1 then l.c.toNat else (k.grp.greg l.c.toNat).toNat % 2 ^ 32) d :=
  writesGroup_of_issueGroup _ (exec_gbfi l) fun _ k ready => by
    have fields : k.f = l := ready_fields ready rfl
    simp only [Here.gfieldPos, Here.gfieldLen, fields]
    exact ⟨_, rfl, isInsert_bfiOp (operandBits_le l.m) _ _ _ _⟩

/-- Settles O20: the rows by one element of 32 or 64 bits, the counts and fields as on the lane pipe, the rest as their meaning
is. -/
theorem groupAluResults : Obligations.GroupAluResults := by
  refine ⟨⟨fun row listed l => groupInteger_results l row listed, fun row listed l => ?_,
    fun row listed l => groupShift_results l row listed⟩,
    fun l => ⟨gpopc_results l, gclz_results l, gbfx_results l, gbfi_results l, ?_, ?_⟩, fun i => ⟨?_, ?_, ?_⟩⟩
  · exact writesGroup_of_issueGroup _ (fun s => exec_groupLogicTable l s row listed) fun _ _ _ => rfl
  · exact writesGroup_of_issueGroup _ (exec_gsel l) fun _ _ _ => rfl
  · exact writesGroup_of_issueGroup _ (exec_gmov l) fun _ _ _ => rfl
  · exact writesGroup_of_issueGroup _ (exec_gmovi i) fun _ _ _ => rfl
  · exact writesGroup_of_issueGroup _ (exec_gaddi i) fun _ _ _ => rfl
  · exact writesGroup_of_issueGroup _ (exec_gandi i) fun _ _ _ => rfl

end Sys2Proof.Machine
end

section
namespace Sys2Proof.Machine

/-! ### Index registers (R219, R220) -/

theorem xreg_setX (h : Group) (n l n' l' : Nat) (x : Half) (wf : SMap.wf h.x = true) (hl : l < 32) (hl' : l' < 32) :
    (h.setX n l x).xreg n' l' = if n' = n ∧ l' = l then x else h.xreg n' l' := by
  unfold Group.xreg Group.setX
  rw [SMap.get_set _ _ _ _ wf]
  by_cases same : n' = n ∧ l' = l
  · simp [same]
  · rw [if_neg same, if_neg (by omega)]

/-- Nothing of the group but its index registers changes. -/
theorem foldl_setX_rest (ls : List Nat) (h : Group) (n : Nat) (f : Nat → Half) (x : SMap 16) :
    { ls.foldl (fun h l => h.setX n l (f l)) h with x := x } = { h with x := x } := by
  induction ls generalizing h with
  | nil => rfl
  | cons l ls ih => exact ih (h.setX n l (f l))

/-- What index registers hold after one has been written in some lanes. -/
theorem foldl_setX_xreg (ls : List Nat) (h : Group) (n : Nat) (f : Nat → Half) (wf : SMap.wf h.x = true)
    (inside : ∀ l ∈ ls, l < 32) (r lane : Nat) (below : lane < 32) :
    (ls.foldl (fun h l => h.setX n l (f l)) h).xreg r lane = if r = n ∧ lane ∈ ls then f lane else h.xreg r lane := by
  induction ls generalizing h with
  | nil => simp
  | cons l ls ih =>
    rw [List.foldl_cons, ih _ (SMap.wf_set _ _ _ wf) fun x hx => inside x (List.mem_cons_of_mem _ hx),
      xreg_setX _ _ _ _ _ _ wf (inside l (List.mem_cons_self ..)) below]
    by_cases same : lane = l
    · subst same
      by_cases own : r = n <;> simp [own]
    · simp [same]

/-- An instruction that writes the index register of its field D. -/
theorem writesIndex_of_issueRegs {i : Instr} {lp : Bool} {f : Long} {fm : Form} {R : Here → Nat → Half}
    (form : i.form = some (lp, f, fm)) (run : ∀ s, exec i s = issueRegs i s fun k h => h.setIdx f.d.toNat k.mask (R k)) :
    WritesIndex i R := by
  intro s k ready tidy
  generalize named : f.d.toNat = d at run
  obtain ⟨-, -, -, wf, -⟩ := tidy_parts tidy
  have rest (h : Group) := foldl_setX_rest (laneList k.mask) h d (R k) h.x
  obtain ⟨t, next, only⟩ := issueRegs_ready (fun k h => h.setIdx d k.mask (R k)) ready fun h =>
    ⟨(congrArg Group.team (rest h) :), (congrArg Group.gid (rest h) :)⟩
  have reads := foldl_setX_xreg (laneList k.mask) (k.issued i) d (R k) wf fun lane => laneList_lt k.mask lane
  simp only [laneList_mem] at reads
  refine ⟨t, _, (run s).trans next, only, rest (k.issued i), fun r lane below => ?_⟩
  rw [ready_fields ready form, named]
  exact reads r lane below

theorem exec_setx (l : Long) (s : State) : exec (.setx l) s = execSetx l s := rfl
theorem exec_addx (l : Long) (s : State) : exec (.addx l) s = execAddx l s := rfl
theorem exec_setxi (i : Imm) (s : State) : exec (.setxi i) s = execSetxi i s := rfl

/-! ### Special registers (R225 to R227, R370) -/

theorem exec_gsr (i : Short) (s : State) : exec (.gsr i) s = execGsr i s := rfl

theorem low_bits_ne_zero_iff (v : DWord) : v.extractLsb' 0 2 ≠ 0 ↔ v.toNat % 4 ≠ 0 := by
  rw [Ne, ← BitVec.toNat_inj, BitVec.extractLsb'_toNat]
  rfl

/-- What gsw ends in, by the register it names and the value (R227, R373). -/
theorem exec_gsw {i : Short} {s : State} {k : Here} (ready : s.ready (.gsw i) = some k) :
    exec (.gsw i) s = .next (
      let v := k.grp.greg i.a.toNat
      if i.d = 13 then (s.issued (.gsw i) k).modTeam k.team.uid fun x => { x with timer := v }
      else if canonical v = false ∨ v.toNat % 4 ≠ 0 then s.raise k.team.uid k.grp.gid (some k.sp.id) 0x19 k.sp.pc
      else (s.issued (.gsw i) k).modGroup k.team.uid k.grp.gid fun h => { h with trapPc := v }) := by
  change execGsw i s = _
  unfold execGsw
  rw [issue_ready _ ready]
  have odd : (!canonical (k.grp.greg i.a.toNat) || decide ((k.grp.greg i.a.toNat).extractLsb' 0 2 ≠ 0)) = true ↔
      canonical (k.grp.greg i.a.toNat) = false ∨ (k.grp.greg i.a.toNat).toNat % 4 ≠ 0 := by
    rw [Bool.or_eq_true, Bool.not_eq_true', decide_eq_true_iff, low_bits_ne_zero_iff]
  by_cases timer : i.d = 13
  · simp only [timer, if_true]
  · by_cases bad : canonical (k.grp.greg i.a.toNat) = false ∨ (k.grp.greg i.a.toNat).toNat % 4 ≠ 0
    · simp only [if_neg timer, if_pos bad, if_pos (odd.mpr bad)]
    · simp only [if_neg timer, if_neg bad, if_neg (mt odd.mp bad)]

theorem gsw_results (i : Short) (s : State) (k : Here) (ready : s.ready (.gsw i) = some k) :
    let v := k.grp.greg i.a.toNat
    (i.d = 13 → ∃ t, exec (.gsw i) s = .next t ∧ t = (s.issued (.gsw i) k).modTeam k.team.uid fun x => { x with timer := v }) ∧
    (i.d = 17 → canonical v = true → v.toNat % 4 = 0 →
      ∃ t h, exec (.gsw i) s = .next t ∧ OnlyGroup s t k h ∧ h = { k.issued (.gsw i) with trapPc := v }) ∧
    (i.d = 17 → (canonical v = false ∨ v.toNat % 4 ≠ 0) →
      exec (.gsw i) s = .next (s.raise k.team.uid k.grp.gid (some k.sp.id) 0x19 k.sp.pc)) := by
  intro v
  have apart : i.d = 17 → i.d ≠ 13 := fun e => by
    rw [e]
    decide
  refine ⟨fun timer => ?_, fun trapPc canon aligned => ?_, fun trapPc bad => ?_⟩
  · exact ⟨_, (exec_gsw ready).trans (congrArg _ (if_pos timer)), rfl⟩
  · have fine : ¬(canonical v = false ∨ v.toNat % 4 ≠ 0) := by simp [canon, aligned]
    refine ⟨_, _, (exec_gsw ready).trans (congrArg _ ((if_neg (apart trapPc)).trans (if_neg fine))), ?_, rfl⟩
    rw [State.issued, modGroup_modGroup _ _ _ _ _ fun h => retire_key h _ _ _]
    exact onlyGroup_modGroup (fun h => { h.retire k.sp.id _ _ with trapPc := v }) (fun _ => ⟨rfl, rfl⟩) (ready_group ready).1
  · exact (exec_gsw ready).trans (congrArg _ ((if_neg (apart trapPc)).trans (if_pos bad)))

theorem gnop_encoding {i : Short} (wf : (Instr.gnop i).wellFormed = true) : i.d = 0 ∧ i.a = 0 ∧ i.f = 0 := by
  obtain ⟨-, reserved, d, a, -⟩ := cleanFields_of_encoding rfl (wellFormed_encoding wf)
  simp only [plainForm, Bool.or_eq_false_iff, decide_eq_false_iff_not, ne_eq, not_not] at reserved
  exact ⟨zero_of_clean d, zero_of_clean a, reserved.1.1⟩

theorem leaveTrap_results (h : Group) : (h.saved = none → h.leaveTrap = h) ∧ ∀ l, h.saved = some l → h.leaveTrap.saved = none ∧
    h.leaveTrap.splits = l.map fun p => if p.id = h.recorded then { p with pc := h.trapPc } else p := by
  refine ⟨fun outside => by simp only [Group.leaveTrap, outside], fun l aside => ?_⟩
  simp only [Group.leaveTrap, aside, and_self]

/-- Settles O19: index registers lane by lane; gsw by its register and its value; the recorded split at TRAPPC. -/
theorem indexAndSpecialRegisterResults : Obligations.IndexAndSpecialRegisterResults :=
  ⟨⟨fun l => writesIndex_of_issueRegs rfl (exec_setx l), fun l => writesIndex_of_issueRegs rfl (exec_addx l),
      fun i => writesIndex_of_issueRegs rfl (exec_setxi i)⟩,
    ⟨fun _ _ _ ready => issueRegs_ready (fun _ h => h) ready fun _ => ⟨rfl, rfl⟩,
      fun i => writesGroup_of_issueGroup _ (exec_gsr i) fun _ _ _ => rfl, gsw_results⟩,
    fun _ => ⟨⟨_, rfl, word0_pipe .., word0_long .., bits_word0_op ..⟩, gnop_encoding⟩, leaveTrap_results⟩

end Sys2Proof.Machine
end

section
namespace Sys2Proof.Machine

/-! ### What an instruction's body ends in, and the issuing split once it has issued -/

theorem issue_next {s t : State} {i : Instr} {k : Here} {body : Here → State → Body} (ready : s.ready i = some k)
    (ends : body k (s.issued i k) = .next t) : issue i s body = .next t := by
  rw [issue_ready _ ready, ends]

theorem issue_trap {s : State} {i : Instr} {k : Here} {body : Here → State → Body} {c : BitVec 8} (ready : s.ready i = some k)
    (ends : body k (s.issued i k) = .trap c) :
    issue i s body = .next (s.raise k.team.uid k.grp.gid (some k.sp.id) c k.sp.pc) := by
  rw [issue_ready _ ready, ends]

/-- The issuing split stands at the next instruction. -/
theorem split?_issued_self {s : State} {i : Instr} {k : Here} (ready : s.ready i = some k) :
    (k.issued i).split? k.sp.id = some { k.sp with pc := k.sp.pc + BitVec.ofNat 64 i.length } := by
  obtain ⟨_, _, p, issuing, own, -⟩ := ready_spec ready
  obtain ⟨-, -, -, found⟩ := issuing_spec issuing
  simp only [Here.issued, own]
  exact split?_modSplit_same (fun q => { q.justIssued with pc := q.pc + BitVec.ofNat 64 i.length }) (fun _ same => same) found

theorem split?_issued_ne {k : Here} (i : Instr) {j : Nat} (other : j ≠ k.sp.id) : (k.issued i).split? j = k.grp.split? j :=
  split?_modSplit_ne k.grp (fun q => { q.justIssued with pc := q.pc + BitVec.ofNat 64 i.length }) (fun _ same => same) other

/-- A state in which the issuing group, its issue made, has been replaced. -/
theorem onlyGroup_setGroup {s : State} {i : Instr} {k : Here} {h : Group} (ready : s.ready i = some k)
    (key : h.team = k.team.uid ∧ h.gid = k.grp.gid) :
    OnlyGroup s ((s.issued i k).modGroup k.team.uid k.grp.gid fun _ => h) k h := by
  obtain ⟨found, -, team⟩ := ready_group ready
  have whole : ((s.issued i k).modGroup k.team.uid k.grp.gid fun _ => h) =
      s.modGroup k.team.uid k.grp.gid fun x => { h with team := x.team, gid := x.gid } := by
    rw [State.issued, modGroup_modGroup _ _ _ _ _ fun h => retire_key h _ _ _]
    unfold State.modGroup
    congr 1
    refine List.map_congr_left fun x _ => ?_
    split
    · rename_i own
      simp only [Bool.and_eq_true, decide_eq_true_eq] at own
      change h = { h with team := x.team, gid := x.gid }
      rw [own.1, own.2, ← key.1, ← key.2]
    · rfl
  have only := onlyGroup_modGroup (fun x => { h with team := x.team, gid := x.gid }) (fun _ => ⟨rfl, rfl⟩) found
  rw [whole]
  rwa [show ({ h with team := k.grp.team, gid := k.grp.gid } : Group) = h by rw [team, ← key.1, ← key.2]] at only

/-! ### Division of a split (R74) -/

/-- The splits that a division makes: one at each further target while SPLITIDs are free. -/
def newSplits (ids : List Nat) (others : List (DWord × LaneMask)) : List Split :=
  List.zipWith (fun id t => { id := id, pc := t.1, lanes := t.2, stack := [], held := none, park := none }) ids others

theorem newSplits_ids (ids : List Nat) (others : List (DWord × LaneMask)) :
    (newSplits ids others).map Split.id = ids.take others.length := by
  induction ids generalizing others with
  | nil => simp [newSplits]
  | cons id ids ih =>
    cases others with
    | nil => rfl
    | cons t others => exact congrArg (id :: ·) (ih others)

theorem newSplits_eq_nil_iff (ids : List Nat) (others : List (DWord × LaneMask)) :
    newSplits ids others = [] ↔ ids = [] ∨ others = [] := List.zipWith_eq_nil_iff

/-- The split of a free SPLITID stands at the target of the same place. -/
theorem find?_newSplits {ids : List Nat} {others : List (DWord × LaneMask)} (distinct : ids.Nodup) {j id : Nat}
    {t : DWord × LaneMask} (free : ids[j]? = some id) (target : others[j]? = some t) :
    (newSplits ids others).find? (fun q => q.id = id) =
      some { id := id, pc := t.1, lanes := t.2, stack := [], held := none, park := none } := by
  induction ids generalizing others j with
  | nil => cases free
  | cons x ids ih =>
    obtain ⟨apart, distinct⟩ := List.nodup_cons.mp distinct
    cases others with
    | nil => cases target
    | cons y others =>
      cases j with
      | zero =>
        simp only [List.getElem?_cons_zero, Option.some.injEq] at free target
        subst free target
        simp [newSplits]
      | succ j =>
        simp only [List.getElem?_cons_succ] at free target
        have other : x ≠ id := fun same => apart (same ▸ List.mem_of_getElem? free)
        rw [newSplits, List.zipWith_cons_cons, List.find?_cons_of_neg (by simpa using other)]
        exact ih distinct free target

/-- A SPLITID that the division gives to none of its splits. -/
theorem find?_newSplits_none {ids : List Nat} {others : List (DWord × LaneMask)} {id : Nat}
    (unused : id ∉ ids.take others.length) : (newSplits ids others).find? (fun q => q.id = id) = none := by
  rw [← newSplits_ids, List.mem_map] at unused
  refine List.find?_eq_none.mpr fun q made => ?_
  simpa using fun same : q.id = id => unused ⟨q, made, same⟩

theorem freeIds_nodup (h : Group) : h.freeIds.Nodup := List.nodup_range.filter _

/-- A free SPLITID is no split's. -/
theorem split?_of_free {h : Group} {id : Nat} (free : id ∈ h.freeIds) : h.split? id = none := by
  have unused := (List.mem_filter.mp free).2
  refine List.find?_eq_none.mpr fun q here => ?_
  have other := List.any_eq_false.mp ((Bool.not_eq_true' _).mp unused) q here
  exact other

theorem freeIds_modSplit (h : Group) (p : Nat) (f : Split → Split) (keeps : ∀ q, (f q).id = q.id) :
    (h.modSplit p f).freeIds = h.freeIds := by
  unfold Group.freeIds Group.modSplit
  refine List.filter_congr fun id _ => ?_
  rw [List.any_map]
  congr 2
  funext q
  simp only [Function.comp_apply]
  split
  · rw [keeps]
  · rfl

theorem freeIds_issued (k : Here) (i : Instr) : (k.issued i).freeIds = k.grp.freeIds :=
  freeIds_modSplit k.grp k.sp.id _ fun _ => rfl

/-- The mask stack of a split that has divided: a PENDING entry of the targets left over, a FORK entry under it. -/
def dividedStack (ids : List Nat) (stack : List MaskEntry) (back : Option DWord) (others : List (DWord × LaneMask)) :
    List MaskEntry :=
  (match others.drop ids.length with
    | [] => []
    | t :: l => [{ fork := false, pending := targetLanes (t :: l), ppc := back.getD t.1, arrived := 0, target := none }]) ++
  (if (ids ≠ [] ∧ others ≠ []) ∧ stack ≠ [] then
    [{ fork := true, pending := 0, ppc := 0, arrived := 0, target := none }] else []) ++
  stack

/-- The group in which a split goes on at its first target, with these entries, and further splits have been made. -/
def Group.divided (h : Group) (p : Nat) (t1 : DWord × LaneMask) (stack : List MaskEntry) (made : List Split) : Group :=
  let h1 := (h.closeWindows p).modSplit p fun q => { q with lanes := t1.2, pc := t1.1, stack := stack }
  { h1 with
    splits := h1.splits ++ made,
    results := h1.results.map fun r =>
      if r.owners.contains p then { r with owners := r.owners ++ made.map (·.id) } else r }

@[simp] theorem Group.divided_team (h : Group) (p : Nat) (t1 : DWord × LaneMask) (stack : List MaskEntry) (made : List Split) :
    (h.divided p t1 stack made).team = h.team := rfl
@[simp] theorem Group.divided_gid (h : Group) (p : Nat) (t1 : DWord × LaneMask) (stack : List MaskEntry) (made : List Split) :
    (h.divided p t1 stack made).gid = h.gid := rfl

/-- The entries that a division leaves on the mask stack. -/
def dividedSize (ids : List Nat) (stack : List MaskEntry) (others : List (DWord × LaneMask)) : Nat :=
  stack.length + (if others.length ≤ ids.length then 0 else 1) + (if ids ≠ [] ∧ others ≠ [] ∧ stack ≠ [] then 1 else 0)

/-- DIVERGE of R74: none where the mask stack has no room. -/
theorem diverge_eq (h : Group) (p : Split) (back : Option DWord) (t1 : DWord × LaneMask) (others : List (DWord × LaneMask)) :
    h.diverge p back (t1 :: others) = if dividedSize h.freeIds p.stack others ≤ 8 then
      some (h.divided p.id t1 (dividedStack h.freeIds p.stack back others) (newSplits h.freeIds others)) else none := by
  have forks : (decide (newSplits h.freeIds others ≠ []) && decide (p.stack ≠ [])) = true ↔
      (h.freeIds ≠ [] ∧ others ≠ []) ∧ p.stack ≠ [] := by
    simp [newSplits_eq_nil_iff]
  rw [← ite_not]
  refine if_congr ?_ rfl (congrArg some ?_)
  · rw [dividedSize, Nat.not_le]
    change 8 < _ + (if _ then 0 else 1) +
      (if (decide (newSplits h.freeIds others ≠ []) && decide (p.stack ≠ [])) = true then 1 else 0) ↔ _
    simp only [forks, List.drop_eq_nil_iff, and_assoc]
  · change h.divided p.id t1 _ (newSplits h.freeIds others) = _
    congr 1
    have under : (if (decide (newSplits h.freeIds others ≠ []) && decide (p.stack ≠ [])) = true then
        ({ fork := true, pending := 0, ppc := 0, arrived := 0, target := none } : MaskEntry) :: p.stack else p.stack) =
        (if (h.freeIds ≠ [] ∧ others ≠ []) ∧ p.stack ≠ [] then
          [{ fork := true, pending := 0, ppc := 0, arrived := 0, target := none }] else []) ++ p.stack := by
      simp only [forks]
      split <;> rfl
    unfold dividedStack
    cases others.drop h.freeIds.length with
    | nil => exact under
    | cons t left => exact congrArg (_ :: ·) under

/-- The splits and results of a group in which a split that stands in it has divided. -/
theorem split?_divided_self {h : Group} {p : Nat} {q : Split} (t1 : DWord × LaneMask) (stack : List MaskEntry) (made : List Split)
    (here : h.split? p = some q) :
    (h.divided p t1 stack made).split? p = some { q with lanes := t1.2, pc := t1.1, stack := stack } := by
  have own := split?_modSplit_same (h := h.closeWindows p) (fun q => { q with lanes := t1.2, pc := t1.1, stack := stack })
    (fun _ same => same) here
  unfold Group.split? at own ⊢
  exact List.find?_append.trans (by rw [own]; rfl)

theorem split?_divided_ne (h : Group) {p j : Nat} (t1 : DWord × LaneMask) (stack : List MaskEntry) (made : List Split)
    (other : j ≠ p) :
    (h.divided p t1 stack made).split? j = (h.split? j).or (made.find? fun q => q.id = j) := by
  have apart := split?_modSplit_ne (h.closeWindows p) (fun q => { q with lanes := t1.2, pc := t1.1, stack := stack })
    (fun _ same => same) other
  rw [split?_closeWindows] at apart
  rw [← apart]
  exact List.find?_append

theorem divided_results (h : Group) (p : Nat) (t1 : DWord × LaneMask) (stack : List MaskEntry) (made : List Split) :
    (h.divided p t1 stack made).results = h.results.map fun r =>
      if r.owners.contains p then { r with window := 0, owners := r.owners ++ made.map Split.id } else r := by
  simp only [Group.divided, Group.closeWindows, group_modSplit_results, List.map_map]
  refine List.map_congr_left fun r _ => ?_
  simp only [Function.comp_apply]
  by_cases owned : r.owners.contains p = true
  · simp only [if_pos owned]
  · simp only [if_neg owned]

theorem hasRoom_iff (k : Here) (others : List (DWord × LaneMask)) :
    Claims.hasRoom k others = true ↔ dividedSize k.grp.freeIds k.sp.stack others ≤ 8 := decide_eq_true_iff

/-- The issuing group after its split has divided. -/
def Here.divided (k : Here) (i : Instr) (back : Option DWord) (t1 : DWord × LaneMask) (others : List (DWord × LaneMask)) : Group :=
  (k.issued i).divided k.sp.id t1 (dividedStack k.grp.freeIds k.sp.stack back others) (newSplits k.grp.freeIds others)

theorem divided_key {s : State} {i : Instr} {k : Here} (ready : s.ready i = some k) (back : Option DWord)
    (t1 : DWord × LaneMask) (others : List (DWord × LaneMask)) :
    (k.divided i back t1 others).team = k.team.uid ∧ (k.divided i back t1 others).gid = k.grp.gid :=
  ⟨(Group.divided_team ..).trans (ready_group ready).2.2, Group.divided_gid ..⟩

theorem divides_divided {s : State} {i : Instr} {k : Here} (ready : s.ready i = some k) (back : Option DWord)
    (t1 : DWord × LaneMask) (others : List (DWord × LaneMask)) :
    Claims.Divides k i back t1 others (k.divided i back t1 others) := by
  unfold Here.divided
  have present := split?_issued_self ready
  have stands {id : Nat} (free : id ∈ k.grp.freeIds) : id ≠ k.sp.id := by
    rintro rfl
    have none := split?_of_free ((freeIds_issued k i).symm ▸ free)
    rw [present] at none
    cases none
  refine ⟨rfl, (split?_divided_self t1 _ _ present :), fun j id t free target => ?_, fun id other unused => ?_, ?_⟩
  · have member := List.mem_of_getElem? free
    rw [split?_divided_ne _ _ _ _ (stands member), split?_issued_ne i (stands member), split?_of_free member, Option.none_or]
    exact find?_newSplits (freeIds_nodup k.grp) free target
  · rw [split?_divided_ne _ _ _ _ other, split?_issued_ne i other, find?_newSplits_none unused, Option.or_none]
  · rw [divided_results, newSplits_ids]

/-- R74, R228, R360: a division for which there is no room traps with 0x06, one with a bad target with 0x07. -/
theorem divide_eq {s : State} {i : Instr} {k : Here} (ready : s.ready i = some k) (back : Option DWord)
    (t1 : DWord × LaneMask) (others : List (DWord × LaneMask)) :
    (s.issued i k).divide k back (t1 :: others) =
      if Claims.hasRoom k others = true then
        if (t1 :: others).any (fun t => badTarget t.1) = true then .trap 0x07
        else .next ((s.issued i k).modGroup k.team.uid k.grp.gid fun _ => k.divided i back t1 others)
      else .trap 0x06 := by
  unfold State.divide
  rw [group?_issued ready, Option.bind_some, diverge_eq, freeIds_issued]
  by_cases room : dividedSize k.grp.freeIds k.sp.stack others ≤ 8
  · rw [if_pos room, if_pos ((hasRoom_iff k others).mpr room)]
    rfl
  · rw [if_neg room, if_neg (mt (hasRoom_iff k others).mp room)]

section
variable {s : State} {i : Instr} {k : Here} {body : Here → State → Body} {back : Option DWord} {t1 : DWord × LaneMask}
  {others : List (DWord × LaneMask)} (ready : s.ready i = some k)
  (divides : body k (s.issued i k) = (s.issued i k).divide k back (t1 :: others))
include ready divides

theorem issue_divide_noRoom (full : Claims.hasRoom k others = false) :
    issue i s body = .next (s.raise k.team.uid k.grp.gid (some k.sp.id) 0x06 k.sp.pc) :=
  issue_trap ready (by rw [divides, divide_eq ready, full, if_neg Bool.false_ne_true])

theorem issue_divide_bad (room : Claims.hasRoom k others = true) (bad : (t1 :: others).any (fun t => badTarget t.1) = true) :
    issue i s body = .next (s.raise k.team.uid k.grp.gid (some k.sp.id) 0x07 k.sp.pc) :=
  issue_trap ready (by rw [divides, divide_eq ready, if_pos room, if_pos bad])

theorem issue_divide (room : Claims.hasRoom k others = true) (good : (t1 :: others).any (fun t => badTarget t.1) = false) :
    ∃ s' h, issue i s body = .next s' ∧ OnlyGroup s s' k h ∧ Claims.Divides k i back t1 others h := by
  have result := divides_divided ready back t1 others
  have only := onlyGroup_setGroup ready (divided_key ready back t1 others)
  have outcome := (divide_eq ready back t1 others).trans ((if_pos room).trans (if_neg (by rw [good]; exact Bool.false_ne_true)))
  exact ⟨_, _, issue_next ready (divides.trans outcome), only, result⟩

end

/-! ### br (R229, R230) -/

theorem getLsbD_condLanes (k : Here) {lane : Nat} (inside : lane < 32) : k.condLanes.getLsbD lane =
    (k.sp.lanes.getLsbD lane && (!k.f.f.getLsbD 0 || ((k.grp.pmask (k.f.a.toNat % 8)).getLsbD lane != k.f.f.getLsbD 1))) := by
  unfold Here.condLanes
  cases conditional : k.f.f.getLsbD 0 with
  | false => simp
  | true => cases negated : k.f.f.getLsbD 1 <;> simp [inside]

/-- One side takes every lane, or both lead to the next instruction. -/
theorem br_oneWay {l : Imm} {s : State} {k : Here} (ready : s.ready (.br l) = some k)
    (oneWay : k.sp.lanes &&& ~~~k.condLanes = 0 ∨ k.condLanes = 0 ∨ k.target l.imm = k.sp.pc + 8) :
    (badTarget (k.target l.imm) = true → exec (.br l) s = .next (s.raise k.team.uid k.grp.gid (some k.sp.id) 0x07 k.sp.pc)) ∧
    (badTarget (k.target l.imm) = false → exec (.br l) s = .next ((s.issued (.br l) k).jump k
      (if k.sp.lanes &&& ~~~k.condLanes = 0 then k.target l.imm else k.sp.pc + 8))) := by
  have whole : ¬(decide (k.sp.lanes &&& ~~~k.condLanes ≠ 0) && decide (k.condLanes ≠ 0) &&
      decide (k.target l.imm ≠ k.sp.pc + 8)) = true := by
    simp only [Bool.and_eq_true, decide_eq_true_eq, and_assoc]
    tauto
  change (_ → execBr l s = _) ∧ (_ → execBr l s = _)
  unfold execBr
  refine ⟨fun bad => issue_trap ready ?_, fun good => issue_next ready ?_⟩
  · exact (if_neg whole).trans (if_pos bad)
  · exact (if_neg whole).trans (if_neg (by rw [good]; exact Bool.false_ne_true))

theorem br_results (l : Imm) (s : State) (k : Here) :
    let i := Instr.br l
    let t : DWord := k.sp.pc + l.imm.signExtend 64
    let f : DWord := k.sp.pc + 8
    let taken := k.condLanes
    let left := k.sp.lanes &&& ~~~taken
    let bad (a : DWord) : Prop := a.toNat % 4 ≠ 0 ∨ canonical a = false
    s.ready i = some k →
    (left = 0 ∨ taken = 0 ∨ t = f →
      (bad t → exec i s = .next (s.raise k.team.uid k.grp.gid (some k.sp.id) 0x07 k.sp.pc)) ∧
      (¬bad t → left = 0 ∨ t = f → exec i s = .next ((s.issued i k).jump k t)) ∧
      (¬bad t → left ≠ 0 → t ≠ f → exec i s = .next ((s.issued i k).jump k f))) ∧
    (left ≠ 0 → taken ≠ 0 → t ≠ f →
      (Claims.hasRoom k [(f, left)] = false → exec i s = .next (s.raise k.team.uid k.grp.gid (some k.sp.id) 0x06 k.sp.pc)) ∧
      (Claims.hasRoom k [(f, left)] = true → bad t ∨ bad f →
        exec i s = .next (s.raise k.team.uid k.grp.gid (some k.sp.id) 0x07 k.sp.pc)) ∧
      (Claims.hasRoom k [(f, left)] = true → ¬bad t → ¬bad f →
        ∃ s' h, exec i s = .next s' ∧ OnlyGroup s s' k h ∧ Claims.Divides k i none (t, taken) [(f, left)] h)) := by
  intro i t f taken left bad ready
  have bad_iff (a : DWord) : bad a ↔ badTarget a = true := (badTarget_iff a).symm
  have good_iff (a : DWord) : ¬bad a ↔ badTarget a = false := by rw [bad_iff, Bool.not_eq_true]
  refine ⟨fun oneWay => ?_, fun stays goes apart => ?_⟩
  · obtain ⟨traps, jumps⟩ := br_oneWay ready oneWay
    refine ⟨fun wrong => traps ((bad_iff t).mp wrong), fun fine leads => ?_, fun fine stays _ => ?_⟩
    · refine (jumps ((good_iff t).mp fine)).trans ?_
      rcases leads with all | next
      · rw [if_pos all]
        rfl
      · have same : k.target l.imm = k.sp.pc + 8 := next
        rw [same, ite_self]
        rw [← same]
        rfl
    · exact (jumps ((good_iff t).mp fine)).trans (by rw [if_neg stays])
  · have both : (decide (left ≠ 0) && decide (taken ≠ 0) && decide (t ≠ f)) = true := by
      rw [decide_eq_true stays, decide_eq_true goes, decide_eq_true apart]
      rfl
    change (_ → execBr l s = _) ∧ (_ → _ → execBr l s = _) ∧ (_ → _ → _ → ∃ s' h, execBr l s = .next s' ∧ _)
    unfold execBr
    refine ⟨fun full => issue_divide_noRoom ready (if_pos both) full,
      fun room wrong => issue_divide_bad ready (if_pos both) room ?_,
      fun room fineT fineF => issue_divide ready (if_pos both) room ?_⟩
    · rw [bad_iff, bad_iff] at wrong
      change (badTarget t || (badTarget f || false)) = true
      simpa using wrong
    · change (badTarget t || (badTarget f || false)) = false
      rw [(good_iff t).mp fineT, (good_iff f).mp fineF]
      rfl

/-- Settles O46: by the lanes that stay and go, and the room on the mask stack. -/
theorem branchResults : Obligations.BranchResults :=
  ⟨fun k _ inside => getLsbD_condLanes k inside, br_results⟩

end Sys2Proof.Machine
end

section
namespace Sys2Proof.Machine

/-! ### The targets of brx and ret (R232) -/

theorem nodup_eraseDups {α : Type} [DecidableEq α] (l : List α) : l.eraseDups.Nodup := by
  induction h : l.length using Nat.strong_induction_on generalizing l with
  | _ n ih =>
    cases l with
    | nil => exact List.nodup_nil
    | cons a l =>
      have shorter : (l.filter fun b => !b == a).length < n := by
        have := List.length_filter_le (fun b => !b == a) l
        simp only [List.length_cons] at h
        omega
      rw [List.eraseDups_cons, List.nodup_cons]
      exact ⟨by simp [List.mem_eraseDups], ih _ shorter _ rfl⟩

theorem targets_fst (k : Here) : k.targets.map Prod.fst =
    ((laneList k.sp.lanes).map fun lane => k.grp.lpair k.f.a.toNat lane).eraseDups.mergeSort fun a b => a ≤ b := by
  simp only [Here.targets, List.map_map]
  exact List.map_id _

/-- The targets rise. -/
theorem targets_ascending (k : Here) : (k.targets.map Prod.fst).Pairwise (· < ·) := by
  rw [targets_fst]
  have sorted := List.pairwise_mergeSort (le := fun a b : DWord => decide (a ≤ b))
    (fun a b c ab bc => decide_eq_true (BitVec.le_trans (of_decide_eq_true ab) (of_decide_eq_true bc)))
    (fun a b => by simpa using BitVec.le_total a b)
    ((laneList k.sp.lanes).map fun lane => k.grp.lpair k.f.a.toNat lane).eraseDups
  have distinct := (List.mergeSort_perm _ fun a b : DWord => decide (a ≤ b)).nodup_iff.mpr
    (nodup_eraseDups ((laneList k.sp.lanes).map fun lane => k.grp.lpair k.f.a.toNat lane))
  exact sorted.imp₂ (fun _ _ le ne => BitVec.lt_of_le_ne (of_decide_eq_true le) ne) distinct

/-- Each target with the active lanes whose pair holds it. -/
theorem targets_lanes (k : Here) {e : DWord × LaneMask} (listed : e ∈ k.targets) {lane : Nat} (inside : lane < 32) :
    e.2.getLsbD lane = (k.sp.lanes.getLsbD lane && decide (k.grp.lpair k.f.a.toNat lane = e.1)) := by
  simp only [Here.targets, List.mem_map] at listed
  obtain ⟨t, -, rfl⟩ := listed
  rw [getLsbD_maskOf, decide_eq_true inside, Bool.true_and]

/-- Every active lane's pair is a target. -/
theorem mem_targets (k : Here) {lane : Nat} (active : k.sp.lanes.getLsbD lane = true) :
    k.grp.lpair k.f.a.toNat lane ∈ k.targets.map Prod.fst := by
  rw [targets_fst, List.mem_mergeSort, List.mem_eraseDups]
  exact List.mem_map_of_mem ((laneList_mem _ _).mpr active)

/-! ### brx and ret (R232, R235) -/

/-- brx and ret are one effect under two names. -/
theorem exec_indirectTable (l : Short) (s : State) : ∀ c ∈ Claims.indirectTable, exec (c l) s = issue (c l) s indirect := by
  intro c listed
  simp only [Claims.indirectTable, List.mem_cons, List.not_mem_nil, or_false] at listed
  rcases listed with rfl | rfl <;> rfl

theorem indirect_one {k : Here} (s : State) {t : DWord × LaneMask} (only : k.targets = [t]) :
    indirect k s = if badTarget t.1 = true then .trap 0x07 else .next (s.jump k t.1) := by
  simp only [indirect, only]

theorem indirect_many {k : Here} (s : State) {t1 t2 : DWord × LaneMask} {ts : List (DWord × LaneMask)}
    (several : k.targets = t1 :: t2 :: ts) : indirect k s = s.divide k (some k.sp.pc) (t1 :: t2 :: ts) := by
  simp only [indirect, several]

theorem indirect_results (c : Short → Instr) (listed : c ∈ Claims.indirectTable) (l : Short) (s : State) (k : Here)
    (ready : s.ready (c l) = some k) :
    let bad := k.targets.any fun e => e.1.toNat % 4 ≠ 0 || !canonical e.1
    (∀ t, k.targets = [t] →
      (bad = true → exec (c l) s = .next (s.raise k.team.uid k.grp.gid (some k.sp.id) 0x07 k.sp.pc)) ∧
      (bad = false → exec (c l) s = .next ((s.issued (c l) k).jump k t.1))) ∧
    ∀ t1 t2 ts, k.targets = t1 :: t2 :: ts →
      (Claims.hasRoom k (t2 :: ts) = false → exec (c l) s = .next (s.raise k.team.uid k.grp.gid (some k.sp.id) 0x06 k.sp.pc)) ∧
      (Claims.hasRoom k (t2 :: ts) = true → bad = true →
        exec (c l) s = .next (s.raise k.team.uid k.grp.gid (some k.sp.id) 0x07 k.sp.pc)) ∧
      (Claims.hasRoom k (t2 :: ts) = true → bad = false →
        ∃ s' h, exec (c l) s = .next s' ∧ OnlyGroup s s' k h ∧ Claims.Divides k (c l) (some k.sp.pc) t1 (t2 :: ts) h) := by
  intro bad
  have named : bad = k.targets.any fun e => badTarget e.1 := rfl
  rw [named, exec_indirectTable l s c listed]
  refine ⟨fun t only => ?_, fun t1 t2 ts several => ?_⟩
  · have one : (k.targets.any fun e => badTarget e.1) = badTarget t.1 := by simp [only]
    rw [one]
    refine ⟨fun wrong => issue_trap ready ?_, fun fine => issue_next ready ?_⟩
    · rw [indirect_one _ only, if_pos wrong]
    · rw [indirect_one _ only, fine, if_neg Bool.false_ne_true]
  · rw [several]
    have divides := indirect_many (s.issued (c l) k) several
    exact ⟨issue_divide_noRoom ready divides, issue_divide_bad ready divides, issue_divide ready divides⟩

/-! ### call and trap (R231, R235) -/

/-- Writing lane registers changes nothing else of a group. -/
theorem setLanes_rest (h : Group) (r n : Nat) (m : LaneMask) (f : Nat → DWord) (v : SMap 32) :
    { h.setLanes r n m f with v := v } = { h with v := v } := foldl_setLane_rest (laneList m) h (fun _ => r) n f v

theorem setLanes_splits (h : Group) (r n : Nat) (m : LaneMask) (f : Nat → DWord) : (h.setLanes r n m f).splits = h.splits :=
  (congrArg Group.splits (setLanes_rest h r n m f h.v) :)

/-- Registers outside those written, and lanes outside the mask, keep what they hold. -/
theorem lreg_setLanes_of_idle {h : Group} {r n : Nat} {m : LaneMask} (f : Nat → DWord) (count : n = 1 ∨ n = 2)
    (wf : SMap.wf h.v = true) {r' lane : Nat} (inside : lane < 32) (idle : ¬(r ≤ r' ∧ r' < r + n ∧ m.getLsbD lane = true)) :
    (h.setLanes r n m f).lreg r' lane = h.lreg r' lane := by
  obtain ⟨-, -, regs⟩ := foldl_setLane (laneList m) h r n f count wf fun lane => laneList_lt m lane
  refine (regs r' lane inside).trans (if_neg ?_)
  rw [laneList_mem]
  exact fun ⟨active, low, high⟩ => idle ⟨low, high, active⟩

/-- A pair written in a lane of the mask. -/
theorem lpair_setLanes {h : Group} {r : Nat} {m : LaneMask} (f : Nat → DWord) (wf : SMap.wf h.v = true) {lane : Nat}
    (active : m.getLsbD lane = true) : (h.setLanes r 2 m f).lpair r lane = f lane :=
  operand_setLanes h r 2 m f (.inr rfl) wf lane active

/-- A split that goes on at an address. -/
def Group.goTo (h : Group) (p : Nat) (t : DWord) : Group := h.modSplit p fun q => { q with pc := t }

theorem goTo_key (h : Group) (p : Nat) (t : DWord) : (h.goTo p t).team = h.team ∧ (h.goTo p t).gid = h.gid := ⟨rfl, rfl⟩

theorem jump_eq (s : State) (k : Here) (t : DWord) :
    s.jump k t = s.modGroup k.team.uid k.grp.gid fun h => h.goTo k.sp.id t := rfl

/-- The group that has called: its split at the target, the address of the next instruction in D in its lanes. -/
def Here.called (k : Here) (t : DWord) (h : Group) : Group :=
  (h.goTo k.sp.id t).setLanes k.f.d.toNat 2 k.sp.lanes fun _ => k.sp.pc + 8

theorem exec_call {l : Imm} {s : State} {k : Here} (ready : s.ready (.call l) = some k) :
    exec (.call l) s = .next (if badTarget (k.target l.imm) = true then s.raise k.team.uid k.grp.gid (some k.sp.id) 0x07 k.sp.pc
      else s.modGroup k.team.uid k.grp.gid fun h =>
        k.called (k.target l.imm) (h.retire k.sp.id (Instr.call l).length (k.team.halted && !k.team.handler))) := by
  change execCall l s = _
  unfold execCall
  split
  · rename_i bad
    exact issue_trap ready (if_pos bad)
  · rename_i good
    refine (issue_next ready (if_neg good)).trans (congrArg _ ?_)
    rw [jump_eq, modGroup_modGroup _ _ _ _ _ fun h => goTo_key h _ _, State.issued,
      modGroup_modGroup _ _ _ _ _ fun h => retire_key h _ _ _]
    rfl

theorem call_results (l : Imm) (s : State) (k : Here) :
    let i := Instr.call l
    let t : DWord := k.sp.pc + l.imm.signExtend 64
    s.ready i = some k → k.grp.tidy = true →
    (t.toNat % 4 ≠ 0 ∨ canonical t = false → exec i s = .next (s.raise k.team.uid k.grp.gid (some k.sp.id) 0x07 k.sp.pc)) ∧
    (t.toNat % 4 = 0 → canonical t = true → ∃ s' h, exec i s = .next s' ∧ OnlyGroup s s' k h ∧
      { h with v := [], splits := [] } = { k.issued i with v := [], splits := [] } ∧
      h.split? k.sp.id = some { k.sp with pc := t } ∧ (∀ j, j ≠ k.sp.id → h.split? j = k.grp.split? j) ∧
      (∀ lane, k.sp.lanes.getLsbD lane = true → h.lpair k.f.d.toNat lane = k.sp.pc + 8) ∧
      ∀ r lane, lane < 32 → ¬(k.f.d.toNat ≤ r ∧ r < k.f.d.toNat + 2 ∧ k.sp.lanes.getLsbD lane = true) →
        h.lreg r lane = k.grp.lreg r lane) := by
  intro i t ready tidy
  refine ⟨fun bad => ?_, fun aligned canon => ?_⟩
  · exact (exec_call ready).trans (congrArg _ (if_pos ((badTarget_iff _).mpr bad)))
  · obtain ⟨wf, -⟩ := tidy_parts tidy
    have splits (j : Nat) : (k.called t (k.issued i)).split? j = ((k.issued i).goTo k.sp.id t).split? j :=
      congrArg (List.find? fun p : Split => p.id = j) (setLanes_splits ..)
    have only := onlyGroup_modGroup (fun h => k.called t (h.retire k.sp.id i.length (k.team.halted && !k.team.handler)))
      (fun h => setLanes_key ..) (ready_group ready).1
    refine ⟨_, _, (exec_call ready).trans (congrArg _ (if_neg ((not_badTarget_iff _).mpr ⟨aligned, canon⟩))), only, ?_, ?_,
      fun j other => ?_, fun lane active => ?_, fun r lane inside idle => ?_⟩
    · exact congrArg (fun h : Group => { h with splits := [] }) (setLanes_rest ((k.issued i).goTo k.sp.id t) _ _ _ _ [])
    · refine (splits k.sp.id).trans ?_
      exact (split?_modSplit_same (fun q => { q with pc := t }) (fun _ same => same) (split?_issued_self ready) :)
    · refine (splits j).trans ((split?_modSplit_ne (k.issued i) (fun q => { q with pc := t }) (fun _ same => same) other).trans ?_)
      exact split?_issued_ne i other
    · exact lpair_setLanes (h := (k.issued i).goTo k.sp.id t) _ wf active
    · exact lreg_setLanes_of_idle (h := (k.issued i).goTo k.sp.id t) _ (.inr rfl) wf inside idle

theorem exec_trap {l : Short} {s : State} {k : Here} (ready : s.ready (.trap l) = some k) :
    exec (.trap l) s = .next (s.raise k.team.uid k.grp.gid (some k.sp.id) 0x41 k.sp.pc) :=
  issue_trap (body := fun _ _ => .trap 0x41) ready rfl

/-- Settles O47: call by its target; brx and ret by how many targets there are, and the room on the mask stack. -/
theorem callAndIndirectResults : Obligations.CallAndIndirectResults :=
  ⟨call_results,
    fun k => ⟨targets_ascending k, fun _ listed _ inside => targets_lanes k listed inside, fun _ _ active => mem_targets k active⟩,
    indirect_results, fun _ _ _ ready => exec_trap ready⟩

end Sys2Proof.Machine
end

section
/-!
Floating point, blocks, lane exchange and unpk: the lemmas of the family and the statements that they settle.
-/
namespace Sys2Proof.Machine

/-! ### Outstanding results of register operations (R186, R187) -/

/-- After its issue a ready instruction gives out one name and changes its group. -/
theorem onlyGroupFresh_modGroup {s : State} {i : Instr} {k : Here} (ready : s.ready i = some k) (f : Group → Group)
    (key : ∀ h, (f h).team = h.team ∧ (f h).gid = h.gid) :
    OnlyGroupFresh s ((s.issued i k).fresh.modGroup k.team.uid k.grp.gid f) k (f (k.issued i)) := by
  refine ⟨rfl, group?_modGroup_same f (key _) (group?_issued ready), fun a b other => ?_⟩
  calc ((s.issued i k).fresh.modGroup k.team.uid k.grp.gid f).group? a b
      = (s.issued i k).group? a b := group?_modGroup_ne (s.issued i k).fresh f key other
    _ = s.group? a b := group?_modGroup_ne s _ (fun _ => ⟨rfl, rfl⟩) other

/-- The writes of a result that sets `n` lane registers from `r` in the lanes of a mask. -/
def lanesWrites (r n : Nat) (m : LaneMask) (f : Nat → DWord) : List RegWrite :=
  (laneList m).flatMap fun lane => laneWrites r n lane (f lane)

/-- The result that a long-latency register operation leaves. -/
def laneResult (s : State) (k : Here) (n : Nat) (f : Nat → DWord) : Result :=
  { uid := s.uid, owners := [k.sp.id], window := k.f.la.toNat, dests := k.dests n,
    kind := .fixed (lanesWrites k.f.d.toNat n k.mask f), pend := [], waits := [], raw := [], fail := none, acq := none, rel := none,
    handlerPc := k.handlerPc, done := false }

theorem foldl_laneWrites (g : Group) (r n lane : Nat) (x : DWord) :
    (laneWrites r n lane x).foldl Group.applyWrite g = g.setLane r n lane x := by
  unfold laneWrites Group.setLane
  split <;> rfl

/-- Made one after the other, the writes set the lane registers as an instruction that completes at once does. -/
theorem foldl_lanesWrites (g : Group) (r n : Nat) (m : LaneMask) (f : Nat → DWord) :
    (lanesWrites r n m f).foldl Group.applyWrite g = g.setLanes r n m f := by
  rw [lanesWrites, List.foldl_flatMap, setLanes_eq]
  simp only [foldl_laneWrites]

/-- An instruction that leaves outstanding what it writes to `n` lane registers of D. -/
theorem leavesResult_of_issueLong {i : Instr} {n : Nat} {R : State → Here → Nat → DWord → Prop} (f : Here → Nat → DWord)
    (count : n = 1 ∨ n = 2) (run : ∀ s, exec i s = issueLong i s n f)
    (value : ∀ s k lane, s.ready i = some k → R s k lane (laneFit n (f k lane))) : LeavesResult i n R := by
  intro s k ready
  refine ⟨_, _, laneResult s k n (f k), (run s).trans (issue_ready _ ready), onlyGroupFresh_modGroup ready _ fun _ => ⟨rfl, rfl⟩,
    rfl, rfl, rfl, rfl, rfl, rfl, rfl, rfl, _, rfl, fun g tidy => ?_⟩
  obtain ⟨wf, -⟩ := tidy_parts tidy
  obtain ⟨-, rest, regs⟩ := foldl_setLane (laneList k.mask) g k.f.d.toNat n (f k) count wf fun lane => laneList_lt k.mask lane
  rw [foldl_lanesWrites]
  refine ⟨rest g.v, fun q lane inside idle => ?_, fun lane takes => ?_⟩
  · refine (regs q lane inside).trans (if_neg ?_)
    rw [laneList_mem]
    exact fun ⟨takes, above, below⟩ => idle ⟨above, below, takes⟩
  · rw [operand_setLanes _ _ _ _ _ count wf _ takes]
    exact value s k lane ready

/-! ### Elements of a floating-point operand (R38, R184) -/

theorem fpRegs_one_or_two (m : BitVec 4) : fpRegs m = 1 ∨ fpRegs m = 2 := by
  unfold fpRegs
  split
  · exact .inr rfl
  · exact .inl rfl

theorem fpBits_pos (m : BitVec 4) : 0 < fpBits m := by
  revert m
  decide

/-- A floating-point operand is its elements, side by side. -/
theorem fpBits_mul_elems (m : BitVec 4) : fpBits m * fpElems m = 32 * fpRegs m := by
  revert m
  decide

theorem fpBits_mul_elems_le (m : BitVec 4) : fpBits m * fpElems m ≤ 64 := by
  have count := fpRegs_one_or_two m
  rw [fpBits_mul_elems]
  omega

theorem laneFit_fpMap (m : BitVec 4) (f : Nat → Nat → Nat → Nat) (a b c : DWord) :
    laneFit (fpRegs m) (fpMap m f a b c) = fpMap m f a b c :=
  laneFit_packElems (fpRegs_one_or_two m) (fpBits_mul_elems m) _

/-- The elements of what FMAP makes are those that the operation makes, modulo their width. -/
theorem elemNat_fpMap (m : BitVec 4) (f : Nat → Nat → Nat → Nat) (a b c : DWord) {e : Nat} (inside : e < fpElems m) :
    elemNat (fpBits m) e (fpMap m f a b c) =
      f (elemNat (fpBits m) e a) (elemNat (fpBits m) e b) (elemNat (fpBits m) e c) % 2 ^ fpBits m := by
  have packed := elemNat_packElems (fpBits_pos m) (fpBits_mul_elems_le m) inside
    fun k => (f (elemNat (fpBits m) k a) (elemNat (fpBits m) k b) (elemNat (fpBits m) k c) : Nat)
  exact_mod_cast packed

/-! ### Floating-point arithmetic (R242 to R244, R247, R253) -/

/-- FARITH rounds each element's exact value once. -/
theorem isFarith_farith {k : Here} {l : Long} (fields : k.f = l) (mode : Mode) (op : FVal → FVal → FVal → FVal) (lane : Nat) :
    Claims.isFarith l mode op k lane (laneFit (fpRegs l.m) (k.farith mode op lane)) := by
  subst fields
  intro e inside
  rw [Here.farith, laneFit_fpMap, elemNat_fpMap _ _ _ _ _ inside]
  rfl

theorem floatTable_spec : ∀ row ∈ Claims.floatTable, ∀ l : Long, (∃ fm, (row.1 l).form = some (true, l, fm)) ∧
    ∀ s, exec (row.1 l) s = issueFloat row.1 l s (row.2 l).1 (row.2 l).2 := by
  intro row listed l
  simp only [Claims.floatTable, List.mem_cons, List.not_mem_nil, or_false] at listed
  rcases listed with rfl | rfl | rfl | rfl | rfl | rfl | rfl <;> exact ⟨⟨_, rfl⟩, fun _ => rfl⟩

theorem longFloatTable_spec : ∀ row ∈ Claims.longFloatTable, ∀ l : Long, (∃ fm, (row.1 l).form = some (true, l, fm)) ∧
    ∀ s, exec (row.1 l) s = issueFloatLong row.1 l s (row.2 l).1 (row.2 l).2 := by
  intro row listed l
  simp only [Claims.longFloatTable, List.mem_cons, List.not_mem_nil, or_false] at listed
  rcases listed with rfl | rfl | rfl | rfl | rfl | rfl | rfl | rfl <;> exact ⟨⟨_, rfl⟩, fun _ => rfl⟩

/-- Settles O21: every row is FARITH of its exact operation, written at once or left outstanding. -/
theorem floatResults : Obligations.FloatResults := by
  refine ⟨fun row listed l => ?_, fun row listed l => ?_⟩
  · obtain ⟨⟨fm, form⟩, run⟩ := floatTable_spec row listed l
    exact writesLanes_of_ready (fun _ k => k.farith (row.2 l).1 (row.2 l).2) (fpRegs_one_or_two l.m) run
      fun _ _ _ ready => isFarith_farith (ready_fields ready form) _ _ _
  · obtain ⟨⟨fm, form⟩, run⟩ := longFloatTable_spec row listed l
    exact leavesResult_of_issueLong (fun k => k.farith (row.2 l).1 (row.2 l).2) (fpRegs_one_or_two l.m) run
      fun _ _ _ ready => isFarith_farith (ready_fields ready form) _ _ _

end Sys2Proof.Machine
end

section
namespace Sys2Proof.Machine

/-! ### Signs, comparisons and classes (R245, R246, R249) -/

/-- The highest bit of an element says that it is not below half of its range. -/
theorem testBit_top {w a : Nat} (pos : 0 < w) (small : a < 2 ^ w) : a.testBit (w - 1) = decide (2 ^ (w - 1) ≤ a) := by
  by_cases high : 2 ^ (w - 1) ≤ a
  · rw [decide_eq_true high]
    exact Nat.testBit_of_two_pow_le_and_two_pow_add_one_gt high (by rwa [Nat.sub_add_cancel pos])
  · rw [decide_eq_false high]
    exact Nat.testBit_lt_two_pow (by omega)

theorem signOp_lt (f : BitVec 3) {w : Nat} (pos : 0 < w) (a b : Nat) : signOp f w a b < 2 ^ w := by
  have low : a % 2 ^ (w - 1) < 2 ^ (w - 1) := Nat.mod_lt _ (Nat.two_pow_pos _)
  have whole : 2 ^ w = 2 ^ (w - 1) * 2 := by rw [← pow_succ, Nat.sub_add_cancel pos]
  have either (sign : Bool) : a % 2 ^ (w - 1) + (if sign then 2 ^ (w - 1) else 0) < 2 ^ w := by
    cases sign with
    | false => exact lt_of_lt_of_le low (by omega)
    | true => rw [if_pos rfl]; omega
  exact either _

/-- The two low bits of F, as a number. -/
theorem low_bits_eq_iff (f : BitVec 3) (c : BitVec 2) : f.extractLsb' 0 2 = c ↔ f.toNat % 4 = c.toNat := by
  revert f c
  decide

/-- What R245 makes of an element: its magnitude, with the sign that F picks. -/
theorem signOp_eq (f : BitVec 3) {w a b : Nat} (pos : 0 < w) (smallA : a < 2 ^ w) (smallB : b < 2 ^ w) :
    signOp f w a b =
      (let sa := decide (2 ^ (w - 1) ≤ a)
       let sb := decide (2 ^ (w - 1) ≤ b)
       let sign := match f.toNat % 4 with
        | 0 => sb
        | 1 => !sb
        | _ => sa != sb
       a % 2 ^ (w - 1) + if sign then 2 ^ (w - 1) else 0) := by
  simp only [signOp, testBit_top pos smallA, testBit_top pos smallB, low_bits_eq_iff]
  have below : f.toNat % 4 < 4 := Nat.mod_lt _ (by omega)
  generalize f.toNat % 4 = code at below
  interval_cases code <;> rfl

theorem exec_fsgn (l : Long) (s : State) : exec (.fsgn l) s = execFsgn l s := rfl
theorem exec_fcmp (l : Long) (s : State) : exec (.fcmp l) s = execFcmp l s := rfl
theorem exec_fclass (l : Long) (s : State) : exec (.fclass l) s = execFclass l s := rfl

theorem fsgn_results (l : Long) : WritesLanes (.fsgn l) (fpRegs l.m) fun _ k lane d => ∀ e, e < fpElems l.m →
    let w := fpBits l.m
    let a := elemNat w e (k.srcA (fpRegs l.m) lane)
    let sa := decide (2 ^ (w - 1) ≤ a)
    let sb := decide (2 ^ (w - 1) ≤ elemNat w e (k.srcB (fpRegs l.m) lane))
    let sign := match l.f.toNat % 4 with
      | 0 => sb
      | 1 => !sb
      | _ => sa != sb
    elemNat w e d = a % 2 ^ (w - 1) + if sign then 2 ^ (w - 1) else 0 := by
  refine writesLanes_of_issueLanes _ (fpRegs_one_or_two l.m) (fun s _ _ => exec_fsgn l s) fun s k lane e inside => ?_
  have pos := fpBits_pos l.m
  rw [laneFit_fpMap]
  exact ((elemNat_fpMap _ _ _ _ _ inside).trans (Nat.mod_eq_of_lt (signOp_lt l.f pos ..))).trans
    (signOp_eq l.f pos (elemNat_lt pos ..) (elemNat_lt pos ..))

theorem classMask_le (F : Fmt) (code : Nat) : classMask F code ≤ 512 := by
  unfold classMask
  cases F.value code with
  | nan => dsimp only; split <;> omega
  | inf neg => dsimp only; split <;> omega
  | fin neg m e => dsimp only; split_ifs <;> omega

/-- One lane register holds the masks of all the elements. -/
theorem laneFit_one_classMask (m : BitVec 4) (a : DWord) :
    let x := fpMap m (fun a _ _ => classMask (fmtOf m.toNat) a) a 0 0
    laneFit 1 x = x := by
  intro x
  rcases fpRegs_one_or_two m with one | two
  · rw [← one]
    exact laneFit_fpMap ..
  · have double : m = 0 := by simpa [fpRegs] using two
    subst double
    have few := classMask_le (fmtOf (0 : BitVec 4).toNat) (elemNat 64 0 a)
    have only : elemNat 64 0 x = classMask (fmtOf (0 : BitVec 4).toNat) (elemNat 64 0 a) % 2 ^ 64 :=
      elemNat_fpMap 0 (fun a _ _ => classMask (fmtOf (0 : BitVec 4).toNat) a) a 0 0 (e := 0) (by decide)
    rw [elemNat_eq (by omega), Nat.mul_zero, pow_zero, Nat.div_one, Nat.mod_eq_of_lt x.isLt] at only
    exact laneFit_of_lt (.inl rfl) (by omega)

theorem fclass_results (l : Long) : WritesLanes (.fclass l) 1 fun _ k lane d => ∀ e, e < fpElems l.m → elemNat (fpBits l.m) e d =
    classMask (fmtOf l.m.toNat) (elemNat (fpBits l.m) e (k.srcA (fpRegs l.m) lane)) % 2 ^ fpBits l.m := by
  refine writesLanes_of_issueLanes _ (.inl rfl) (fun s _ _ => exec_fclass l s) fun s k lane e inside => ?_
  rw [laneFit_one_classMask]
  exact elemNat_fpMap _ _ _ _ _ inside

/-- Settles O22: a sign and a class element by element, a comparison of the first elements. -/
theorem floatSignCompareClass : Obligations.FloatSignCompareClass :=
  fun l => ⟨fsgn_results l, writesPred_of_issueRegs rfl (exec_fcmp l), fclass_results l⟩

end Sys2Proof.Machine
end

section
namespace Sys2Proof.Machine

/-! ### Conversions (R240, R250 to R252) -/

/-- The registers written hold as much of a value as they are wide. -/
theorem setWidth_laneFit {n : Nat} (count : n = 1 ∨ n = 2) (x : DWord) : (laneFit n x).setWidth (32 * n) = x.setWidth (32 * n) := by
  refine BitVec.eq_of_getLsbD_eq fun j inside => ?_
  rw [BitVec.getLsbD_setWidth, BitVec.getLsbD_setWidth, getLsbD_laneFit count x inside]

theorem exec_fcvt (l : Long) (s : State) : exec (.fcvt l) s = execFcvt l s := rfl
theorem exec_f2i (l : Long) (s : State) : exec (.f2i l) s = execF2i l s := rfl
theorem exec_i2f (l : Long) (s : State) : exec (.i2f l) s = execI2f l s := rfl

/-- R251: a finite value rounds to an integer and saturates, an infinity saturates, a NaN gives zero. -/
theorem f2iOp_eq (F : Fmt) (dst : BitVec 4) (mode : Mode) (x : Nat) : f2iOp F dst mode x =
    match F.value x with
    | .nan => 0
    | .inf neg => if neg then leastOf dst else greatestOf dst
    | .fin neg m e =>
      let n := (roundUnits mode neg m e 0 : Int)
      min (max (if neg then -n else n) (leastOf dst)) (greatestOf dst) := by
  unfold f2iOp
  cases F.value x <;> rfl

theorem f2i_results (l : Long) : WritesLanes (.f2i l) (intRegs (l.c.extractLsb' 0 4)) fun _ k lane d =>
    let dst : BitVec 4 := l.c.extractLsb' 0 4
    let x := (fmtOf l.m.toNat).value (selElem l.m (l.c.extractLsb' 4 2).toNat (k.srcA (fpRegs l.m) lane))
    (d.toNat : Int) = (match x with
      | .nan => 0
      | .inf neg => if neg then leastOf dst else greatestOf dst
      | .fin neg m e =>
        let n := (roundUnits (Long.mode l) neg m e 0 : Int)
        min (max (if neg then -n else n) (leastOf dst)) (greatestOf dst)) % 2 ^ operandBits dst :=
  writesLanes_of_issueLanes _ (intRegs_one_or_two _) (fun s _ _ => exec_f2i l s) fun _ _ _ =>
    (toNat_laneFit_ofInt (intRegs_one_or_two _) _).trans (congrArg (· % _) (f2iOp_eq ..))

/-- Settles O23: a conversion to floating point replaces one element of D; one to an integer writes D whole. -/
theorem floatConversionResults : Obligations.FloatConversionResults := by
  intro l dst
  refine ⟨?_, f2i_results l, ?_⟩
  · exact writesLanes_of_issueLanes _ (fpRegs_one_or_two dst) (fun s _ _ => exec_fcvt l s) fun _ _ _ =>
      setWidth_laneFit (fpRegs_one_or_two dst) _
  · exact writesLanes_of_issueLanes _ (fpRegs_one_or_two dst) (fun s _ _ => exec_i2f l s) fun _ _ _ =>
      setWidth_laneFit (fpRegs_one_or_two dst) _

end Sys2Proof.Machine
end

section
namespace Sys2Proof.Machine

/-! ### Block instructions (R254 to R258) -/

/-- An instruction that writes the group register of its field D. -/
theorem writesGroup_of_issueRegs {i : Instr} {lp : Bool} {f : Long} {fm : Form} {R : State → Here → DWord → Prop}
    (x : State → Here → DWord) (form : i.form = some (lp, f, fm))
    (run : ∀ s, exec i s = issueRegs i s fun k h => h.setG f.d.toNat (x s k))
    (value : ∀ s k, s.ready i = some k → R s k (x s k)) : WritesGroup i R := by
  intro s k ready tidy
  have same : exec i s = issueGroup i s (x s) := by
    rw [run s, issueGroup]
    exact issueRegs_congr ready (funext fun h => by rw [ready_fields ready form])
  obtain ⟨-, wf, -⟩ := tidy_parts tidy
  obtain ⟨t, h, next, only, frame, wrote⟩ := issueGroup_ready (x s) ready wf
  refine ⟨t, h, same.trans next, only, frame, ?_⟩
  split
  · exact if_pos rfl
  · rename_i kept
    rw [wrote, if_neg kept]
    exact value s k ready

theorem exec_bmax (l : Long) (s : State) : exec (.bmax l) s = execBmax l s := rfl
theorem exec_bscale (l : Long) (s : State) : exec (.bscale l) s = execBscale l s := rfl
theorem exec_bdequant (l : Long) (s : State) : exec (.bdequant l) s = execBdequant l s := rfl
theorem exec_bnf (l : Long) (s : State) : exec (.bnf l) s = execBnf l s := rfl
theorem exec_bquant (l : Long) (s : State) : exec (.bquant l) s = execBquant l s := rfl

theorem blockVals_eq {k : Here} {l : Long} (fields : k.f = l) : k.blockVals =
    (laneList k.mask).map fun lane => (fmtOf l.m.toNat).value (k.srcA (fpRegs l.m) lane).toNat := by
  subst fields
  rfl

theorem bmax_results (l : Long) : WritesGroup (.bmax l) fun _ k v => v = BitVec.ofNat 64 ((fmtOf l.m.toNat).code (bmaxOf
    ((laneList k.mask).map fun lane => (fmtOf l.m.toNat).value (k.srcA (fpRegs l.m) lane).toNat))) :=
  writesGroup_of_issueRegs _ rfl (exec_bmax l) fun _ _ ready => by rw [blockVals_eq (ready_fields ready rfl)]

theorem bscale_results (l : Long) : WritesGroup (.bscale l) fun _ k v => v = BitVec.ofNat 64
    (bscaleOf (fmtOf (l.c.toNat % 16)) (if l.f.getLsbD 0 then 1 else 0)
      ((laneList k.mask).map fun lane => (fmtOf l.m.toNat).value (k.srcA (fpRegs l.m) lane).toNat)) :=
  writesGroup_of_issueRegs _ rfl (exec_bscale l) fun _ _ ready => by rw [blockVals_eq (ready_fields ready rfl)]

theorem bdequant_results (l : Long) : WritesLanes (.bdequant l) (if l.c.getLsbD 0 then 2 else 1) fun _ k lane d =>
    let D := if l.c.getLsbD 0 then f64 else f32
    d.setWidth (if l.c.getLsbD 0 then 64 else 32) = BitVec.ofNat _ (D.code (dequant (fmtOf l.m.toNat) D .ne
      ((k.srcB 1 lane).toNat % 256) (selElem l.m (l.c.extractLsb' 1 2).toNat (k.srcA 1 lane)))) := by
  refine writesLanes_of_issueLanes _ ?_ (fun s _ _ => exec_bdequant l s) fun s k lane => ?_
  · split
    · exact .inr rfl
    · exact .inl rfl
  · generalize l.c.getLsbD 0 = wide
    cases wide with
    | false => exact (setWidth_laneFit (.inl rfl) _).trans (BitVec.setWidth_ofNat_of_le (by omega) _)
    | true => exact (setWidth_laneFit (.inr rfl) _).trans (BitVec.setWidth_eq _)

theorem bnf_results (l : Long) : WritesQ (.bnf l) fun _ k => (laneList k.mask).any fun lane =>
    ((fmtOf l.m.toNat).value (selElem l.m (l.c.extractLsb' 0 2).toNat (k.srcA (fpRegs l.m) lane))).nonFinite ||
      (isMx l.m && (k.srcB 1 lane).toNat % 256 = 255) :=
  writesQ_of_issueRegs rfl rfl (exec_bnf l)

/-! ### bquant (R256) -/

/-- What a write of a lane predicate leaves of the group. -/
theorem predFrame_setPred (k : Here) (i : Instr) (d : Nat) (R : Nat → Bool) (wf : SMap.wf k.grp.p = true) :
    PredFrame k i d R ((k.issued i).setPred d k.mask R) := by
  have read (lane : Nat) (inside : lane < 32) := getLsbD_setPred (h := k.issued i) d k.mask R wf inside
  refine ⟨setPred_rest (k.issued i) d k.mask R, fun r other => ?_, fun lane inside idle => ?_, fun lane takes => ?_⟩
  · exact (pmask_setPmask (h := k.issued i) d r _ wf).trans (if_neg fun both => other both.1)
  · rw [read lane inside, idle]
    by_cases seven : d = 7
    · simp only [seven, pmask_seven inside, decide_true, Bool.true_or]
    · simp only [seven, decide_false, Bool.false_or, Bool.false_eq_true, if_false]
      rfl
  · rw [read lane (BitVec.lt_of_getLsbD takes), if_pos takes]

/-- A write of a lane predicate does not look at the lane registers. -/
theorem setPred_v (h : Group) (n : Nat) (m : LaneMask) (f : Nat → Bool) (v : SMap 32) :
    { h.setPred n m f with v := v } = ({ h with v := v } : Group).setPred n m f := by
  unfold Group.setPred Group.setPmask
  split <;> rfl

theorem setPred_key (h : Group) (n : Nat) (m : LaneMask) (f : Nat → Bool) :
    (h.setPred n m f).team = h.team ∧ (h.setPred n m f).gid = h.gid :=
  ⟨(congrArg Group.team (setPred_rest h n m f) :), (congrArg Group.gid (setPred_rest h n m f) :)⟩

/-- What one lane register holds in a lane of the mask that it was written in. -/
theorem lreg_setLanes_one (h : Group) (r : Nat) (m : LaneMask) (f : Nat → DWord) (wf : SMap.wf h.v = true) {lane : Nat}
    (takes : m.getLsbD lane = true) : (h.setLanes r 1 m f).lreg r lane = (f lane).setWidth 32 := by
  obtain ⟨-, -, regs⟩ := foldl_setLane (laneList m) h r 1 f (.inl rfl) wf fun l => laneList_lt m l
  have inLane := (regs r lane (BitVec.lt_of_getLsbD takes)).trans
    (if_pos ⟨(laneList_mem m lane).mpr takes, le_refl r, Nat.lt_succ_self r⟩)
  rw [Nat.sub_self, Nat.mul_zero, extract_low] at inLane
  exact inLane

/-- An instruction that writes a lane register and then a lane predicate keeps the frames of both writes. -/
theorem frames_setLanes_setPred (k : Here) (i : Instr) (r d : Nat) (f : Nat → DWord) (R : Nat → Bool) (tidy : k.grp.tidy = true) :
    let h := ((k.issued i).setLanes r 1 k.mask f).setPred d k.mask R
    { h with v := k.grp.v, p := k.grp.p } = k.issued i ∧ LaneFrame k i r 1 { h with p := k.grp.p } ∧
      PredFrame k i d R { h with v := k.grp.v } ∧ ∀ lane, k.mask.getLsbD lane = true → h.lreg r lane = (f lane).setWidth 32 := by
  intro h
  obtain ⟨wfV, -, wfP, -⟩ := tidy_parts tidy
  have lanes := laneFrame_setLanes k i r 1 f (.inl rfl) wfV
  have preds : (((k.issued i).setLanes r 1 k.mask f).p = k.grp.p) := (congrArg Group.p lanes.rest :)
  have undoP : { h with p := k.grp.p } = (k.issued i).setLanes r 1 k.mask f := by
    rw [← preds]
    exact setPred_rest _ d k.mask R
  have undoV : { h with v := k.grp.v } = (k.issued i).setPred d k.mask R := by
    rw [setPred_v, lanes.rest]
  refine ⟨?_, undoP ▸ lanes, undoV ▸ predFrame_setPred k i d R wfP, fun lane takes => ?_⟩
  · exact (congrArg (fun g : Group => { g with v := k.grp.v }) undoP).trans lanes.rest
  · refine Eq.trans ?_ (lreg_setLanes_one (k.issued i) r k.mask f wfV takes)
    exact (congrArg (fun g : Group => g.lreg r lane) undoP :)

theorem bquant_results (l : Long) (s : State) (k : Here) (ready : s.ready (.bquant l) = some k) (tidy : k.grp.tidy = true) :
    ∃ t h, exec (.bquant l) s = .next t ∧ OnlyGroup s t k h ∧ { h with v := k.grp.v, p := k.grp.p } = k.issued (.bquant l) ∧
      LaneFrame k (.bquant l) l.d.toNat 1 { h with p := k.grp.p } ∧
      PredFrame k (.bquant l) (l.c.extractLsb' 3 3).toNat (fun lane => (bquantLane s l k lane).2) { h with v := k.grp.v } ∧
      ∀ lane, k.mask.getLsbD lane = true → (h.lreg l.d.toNat lane) =
        (setElem l.m (l.c.extractLsb' 1 2).toNat ((k.grp.lreg l.d.toNat lane).setWidth 64) (bquantLane s l k lane).1).setWidth 32 := by
  obtain ⟨t, next, only⟩ := issueRegs_ready (fun k h =>
    (h.setLanes l.d.toNat 1 k.mask fun lane => setElem l.m (l.c.extractLsb' 1 2).toNat (k.src 1 l.d.toNat false lane)
      (bquantLane s l k lane).1).setPred (l.c.extractLsb' 3 3).toNat k.mask fun lane => (bquantLane s l k lane).2) ready fun h =>
    ⟨(setPred_key ..).1.trans (setLanes_key ..).1, (setPred_key ..).2.trans (setLanes_key ..).2⟩
  exact ⟨t, _, (exec_bquant l s).trans next, only, frames_setLanes_setPred k (.bquant l) _ _ _ _ tidy⟩

/-- Settles O24: a group register, an element, a predicate, and for bquant an element and a lane predicate. -/
theorem blockResults : Obligations.BlockResults :=
  fun l => ⟨bmax_results l, bscale_results l, bdequant_results l, bnf_results l, bquant_results l⟩

end Sys2Proof.Machine
end

section
namespace Sys2Proof.Machine

/-! ### Lane exchange (R259 to R262) -/

theorem exec_lxch (l : Long) (s : State) : exec (.lxch l) s = execLxch l s := rfl
theorem exec_lpred (l : Long) (s : State) : exec (.lpred l) s = execLpred l s := rfl
theorem exec_lred (l : Long) (s : State) : exec (.lred l) s = execLred l s := rfl
theorem exec_lscan (l : Long) (s : State) : exec (.lscan l) s = execLscan l s := rfl

theorem lxch_results (l : Long) : WritesLanes (.lxch l) (intRegs l.m) fun _ k lane d =>
    let j := exchangeLane (l.f.toNat % 4) (2 ^ (l.c.toNat % 8)) (if l.f.getLsbD 2 then l.b.toNat else (k.srcB 1 lane).toNat) lane
    d = k.srcA (intRegs l.m) (if k.mask.getLsbD j then j else lane) :=
  writesLanes_of_issueLanes _ (intRegs_one_or_two l.m) (fun s _ _ => exec_lxch l s) fun _ _ _ => laneFit_src ..

/-- The participating lanes in which lpred's predicate holds. -/
def Here.lanesHolding (k : Here) (l : Long) : LaneMask :=
  (if l.f.getLsbD 2 then ~~~(k.grp.pmask l.a.toNat) else k.grp.pmask l.a.toNat) &&& k.mask

/-- Whether it holds in one lane. -/
def Here.holdsIn (k : Here) (l : Long) (lane : Nat) : Bool := (k.grp.pmask l.a.toNat).getLsbD lane != l.f.getLsbD 2

theorem getLsbD_lanesHolding (k : Here) (l : Long) (lane : Nat) :
    (k.lanesHolding l).getLsbD lane = (k.mask.getLsbD lane && k.holdsIn l lane) := by
  unfold Here.lanesHolding Here.holdsIn
  cases takes : k.mask.getLsbD lane with
  | false => rw [BitVec.getLsbD_and, takes, Bool.and_false, Bool.false_and]
  | true =>
    have inside : lane < 32 := BitVec.lt_of_getLsbD takes
    cases l.f.getLsbD 2 <;> simp [takes, inside]

/-- Some participating lane holds it, or all do. -/
theorem lanesHolding_ne_zero_iff (k : Here) (l : Long) :
    k.lanesHolding l ≠ 0 ↔ (laneList k.mask).any (k.holdsIn l) = true := by
  have held := getLsbD_lanesHolding k l
  have nowhere (lane : Nat) : (0 : LaneMask).getLsbD lane = false := BitVec.getLsbD_zero
  rw [List.any_eq_true]
  constructor
  · intro nonzero
    by_contra fails
    refine nonzero (BitVec.eq_of_getLsbD_eq fun lane _ => ?_)
    rw [held, nowhere, ← Bool.not_eq_true, Bool.and_eq_true]
    exact fun both => fails ⟨lane, (laneList_mem ..).mpr both.1, both.2⟩
  · rintro ⟨lane, takes, holds⟩ zero
    have empty := held lane
    rw [zero, (laneList_mem ..).mp takes, holds, nowhere] at empty
    cases empty

theorem lanesHolding_eq_mask_iff (k : Here) (l : Long) :
    k.lanesHolding l = k.mask ↔ (laneList k.mask).all (k.holdsIn l) = true := by
  have held := getLsbD_lanesHolding k l
  rw [List.all_eq_true]
  constructor
  · intro all lane takes
    have here := held lane
    rwa [all, (laneList_mem ..).mp takes, Bool.true_and, eq_comm] at here
  · intro all
    refine BitVec.eq_of_getLsbD_eq fun lane _ => ?_
    rw [held]
    cases takes : k.mask.getLsbD lane with
    | false => rfl
    | true => exact all lane ((laneList_mem ..).mpr takes)

/-- R260: what lpred writes, by the two low bits of F. -/
theorem execLpred_eq (l : Long) (s : State) : execLpred l s = issueRegs (.lpred l) s fun k h =>
    if l.f.toNat % 4 = 0 then h.setQ l.d.toNat ((laneList k.mask).any (k.holdsIn l))
    else if l.f.toNat % 4 = 1 then h.setQ l.d.toNat ((laneList k.mask).all (k.holdsIn l))
    else h.setG l.d.toNat ((k.lanesHolding l).setWidth 64) := by
  refine congrArg (issueRegs (.lpred l) s) (funext fun k => funext fun h => ?_)
  have any : decide (k.lanesHolding l ≠ 0) = (laneList k.mask).any (k.holdsIn l) :=
    Bool.eq_iff_iff.mpr (decide_eq_true_iff.trans (lanesHolding_ne_zero_iff k l))
  have all : decide (k.lanesHolding l = k.mask) = (laneList k.mask).all (k.holdsIn l) :=
    Bool.eq_iff_iff.mpr (decide_eq_true_iff.trans (lanesHolding_eq_mask_iff k l))
  rw [← any, ← all]
  simp only [low_bits_eq_iff]
  rfl

/-- F[1:0] = 3 is reserved (R260). -/
theorem lpred_low_ne_three {l : Long} {s : State} {k : Here} (ready : s.ready (.lpred l) = some k) : l.f.toNat % 4 ≠ 3 := by
  have value := (cleanFields_of_encoding (i := .lpred l) rfl (ready_encoding ready)).value
  exact fun three => of_decide_eq_false value ((low_bits_eq_iff l.f 3).mpr three)

theorem lpred_writes_q (l : Long) (code : l.f.toNat % 4 ≠ 2) : WritesQ (.lpred l) fun _ k =>
    if l.f.toNat % 4 = 0 then (laneList k.mask).any (k.holdsIn l) else (laneList k.mask).all (k.holdsIn l) := by
  intro s k ready tidy
  have reserved := lpred_low_ne_three ready
  have names : (if l.f.extractLsb' 0 2 = 2 then Slot.group 1 else .qpred) = .qpred := if_neg ((low_bits_eq_iff l.f 2).not.mpr code)
  refine writesQ_of_issueRegs (R := fun k => if l.f.toNat % 4 = 0 then (laneList k.mask).any (k.holdsIn l)
    else (laneList k.mask).all (k.holdsIn l)) rfl names (fun s => ?_) s k ready tidy
  rw [exec_lpred, execLpred_eq]
  refine congrArg (issueRegs (.lpred l) s) (funext fun k => funext fun h => ?_)
  by_cases zero : l.f.toNat % 4 = 0
  · rw [if_pos zero, if_pos zero]
  · rw [if_neg zero, if_neg zero, if_pos (by omega)]

theorem lpred_writes_group (l : Long) (code : l.f.toNat % 4 = 2) : WritesGroup (.lpred l) fun _ k v => ∀ j, j < 64 →
    v.getLsbD j = (k.mask.getLsbD j && k.holdsIn l j) := by
  refine writesGroup_of_issueRegs (fun _ k => (k.lanesHolding l).setWidth 64) rfl (fun s => ?_) fun _ k _ j inside => ?_
  · rw [exec_lpred, execLpred_eq, code]
    rfl
  · rw [BitVec.getLsbD_setWidth, decide_eq_true inside, Bool.true_and, getLsbD_lanesHolding]

/-- Settles O25: lanes from lanes, a predicate or a register of the lanes that hold, and reductions over them. -/
theorem exchangeResults : Obligations.ExchangeResults := by
  refine fun l => ⟨lxch_results l, lpred_writes_q l, lpred_writes_group l, ?_, ?_⟩
  · exact writesGroup_of_issueRegs _ rfl (exec_lred l) fun _ _ _ => rfl
  · exact writesLanes_of_issueLanes _ (intRegs_one_or_two l.m) (fun s _ _ => exec_lscan l s) fun _ _ _ =>
      toNat_laneFit_ofInt (intRegs_one_or_two l.m) _

end Sys2Proof.Machine
end

section
namespace Sys2Proof.Machine

/-! ### Chunks (R263 to R265) -/

theorem chunkWidth_eq (hd : Nat) : chunkWidth hd = hd % 64 := by
  simp [chunkWidth, bits]

theorem chunkRows_eq (hd : Nat) : chunkRows hd = hd / 2 ^ 9 % 8 + 1 := by
  simp [chunkRows, bits]

/-- The header that R265 takes, field by field. -/
theorem chunkOk_eq (hd rows : Nat) : chunkOk hd rows =
    (decide (hd % 64 ≤ 32) && decide (hd / 2 ^ 12 % 16 = 0) && decide (hd / 2 ^ 6 % 4 = 0) && decide (hd / 2 ^ 9 % 8 + 1 = rows)) := by
  rw [chunkOk, chunkWidth_eq, chunkRows_eq]
  rfl

/-- The bytes of payload that unpk reads. -/
def payloadSize (hd rows : Nat) : Nat := if chunkOk hd rows then chunkBytes hd else 0

theorem payloadSize_eq (hd rows : Nat) : payloadSize hd rows =
    if decide (hd % 64 ≤ 32) && decide (hd / 2 ^ 12 % 16 = 0) && decide (hd / 2 ^ 6 % 4 = 0) && decide (hd / 2 ^ 9 % 8 + 1 = rows) then
      (hd % 64 * 32 * rows + 7) / 8 else 0 := by
  rw [payloadSize, ← chunkOk_eq]
  by_cases ok : chunkOk hd rows = true
  · have own : chunkRows hd = rows := by
      simp only [chunkOk, Bool.and_eq_true, decide_eq_true_eq] at ok
      exact ok.2
    rw [if_pos ok, if_pos ok, chunkBytes, own, chunkWidth_eq]
  · rw [if_neg ok, if_neg ok]

/-- What unpk leaves outstanding once it has read the header `hd` (R186, R265). -/
def unpkResult (s : State) (k : Here) (rows hd : Nat) (reads : List Pend) : Result :=
  { uid := s.uid, owners := [k.sp.id], window := k.f.la.toNat, dests := predReg (.q) k.f.c ++ k.dests rows,
    kind := .unpacked rows k.f.c.toNat k.f.d.toNat k.mask hd, pend := reads, waits := [], raw := [], fail := none, acq := none,
    rel := none, handlerPc := k.handlerPc, done := false }

/-- The decoded values and true, or only false, from the bytes that have come for the payload. -/
theorem writes_unpkResult (s : State) (k : Here) (rows hd : Nat) (reads : List Pend) (raw : List (Nat × Nat × List Byte)) :
    ({ unpkResult s k rows hd reads with raw := raw } : Result).writes =
      (let payload := leNat (((raw.filter fun e => e.2.1 = 0).mergeSort fun a b => a.1 ≤ b.1).flatMap fun e => e.2.2)
       let vals := chunkValues (hd.testBit 8) (hd / 2 ^ 32 % 2 ^ 32)
         ((List.range (32 * rows)).map fun j => payload / 2 ^ (hd % 64 * j) % 2 ^ (hd % 64))
       if chunkOk hd rows && decide (chk16 vals = hd / 2 ^ 16 % 2 ^ 16) then
         .q k.f.c.toNat true :: (laneList k.mask).flatMap fun lane => (List.range rows).map fun j =>
           .v (k.f.d.toNat + j) lane (BitVec.ofNat 32 (vals.getD (32 * j + lane) 0))
       else [.q k.f.c.toNat false]) := by
  simp only [Result.writes, unpkResult, unpkWrites, chunkFields, chunkWidth_eq, bits, Result.laneBytes]

theorem map_payloadReads (va : DWord) (t off n : Nat) :
    (payloadReads va t off n).map (fun p => (p.idx, p.lane, p.va, p.n, p.loc, p.op)) = (List.range ((n + 7) / 8)).map fun j =>
      (j, 0, va + BitVec.ofNat 64 (8 * j), min 8 (n - 8 * j), Loc.scr t (off + 8 * j), PendOp.fresh) := by
  rw [payloadReads, List.map_map]
  rfl

/-- UNPACK on a chunk that lies in the scratchpad, once what its header's read waits for has been performed. -/
theorem unpkBody_of_chunk {s s1 : State} {k : Here} {t off : Nat} {a : Word} (addr : (k.grp.greg k.f.a.toNat).setWidth 32 = a)
    (aligned : a.toNat % 8 = 0) (place : s.scrPlace k.team a 8 = some (t, off)) (free : s.accessWaits k (.scr t off) 8 = false)
    (performs : s.performUpTo k.team k.grp.gid (s.needsPerform (.scr t off) 8) (s.queueOf k) = some s1)
    (inside : (s1.scrPlace k.team a (8 + payloadSize (leNat (s1.readScratch k t off 8)) (k.f.f.toNat + 1))).isSome = true) :
    s.unpkBody k =
      (let hd := leNat (s1.readScratch k t off 8)
       let rows := k.f.f.toNat + 1
       let va : DWord := a.setWidth 64
       if s1.locPoisoned (.scr t off) 8 then .late s1 (s1.poisonAt va (.scr t off))
       else .next (s1.fresh.modGroup k.team.uid k.grp.gid fun h => { h with results := h.results ++
         [unpkResult s1 k rows hd (payloadReads (va + 8) t (off + 8) (payloadSize hd rows))] })) := by
  have wide : (a.setWidth 64).toNat = a.toNat := BitVec.toNat_setWidth_of_le (by omega)
  have back : (a.setWidth 64).setWidth 32 = a := BitVec.setWidth_setWidth_of_le _ (by omega)
  obtain ⟨last, found⟩ := Option.isSome_iff_exists.mp inside
  rw [payloadSize] at found
  simp only [State.unpkBody, addr, wide, back, aligned, place, free, performs, found, ne_eq, not_true, if_false, Bool.false_eq_true]
  rfl

theorem exec_unpk (l : Long) (s : State) : exec (.unpk l) s = issue (.unpk l) s fun k s1 => s1.unpkBody k := rfl

/-- Settles O32: the header read at issue decides the result, whose payload is read a dword at a time. -/
theorem unpkResults : Obligations.UnpkResults := by
  intro l s s1 k t off i a va rows ready aligned place free performs hd ok n inside h group
  obtain rfl : k.f = l := ready_fields ready rfl
  have okEq : chunkOk hd rows = ok := chunkOk_eq hd rows
  have nEq : payloadSize hd rows = n := payloadSize_eq hd rows
  have run := issue_ready (fun k s1 => s1.unpkBody k) ready
  rw [← exec_unpk] at run
  simp only [unpkBody_of_chunk rfl aligned place free performs (by rw [nEq]; exact inside)] at run
  refine ⟨fun poison => ?_, fun sound => ?_⟩
  · rw [poison] at run
    exact run
  · rw [sound, nEq] at run
    refine ⟨_, unpkResult s1 k rows hd (payloadReads (va + 8) t (off + 8) n), run, ⟨rfl, rfl, rfl⟩,
      group?_modGroup_same (s := s1.fresh) _ ⟨rfl, rfl⟩ group, rfl, rfl, rfl, rfl, rfl, rfl, rfl, map_payloadReads .., fun raw => ?_⟩
    rw [← okEq]
    exact writes_unpkResult s1 k rows hd _ raw

end Sys2Proof.Machine
end

section
/-!
Convocations, matched instructions, prune and engine operations: the lemmas of the family and the statements that they settle.
-/
namespace Sys2Proof.Machine

/-! ### The issue of conv and of matched instructions (R298 to R301, R384, R385) -/

/-- Outside a handler, a ready instruction that raises no cause of its own ends in what its body answers. -/
theorem issueMatched_ready {s : State} {i : Instr} {k : Here} {more : Here → Option (BitVec 8)} (body : Here → State → Body)
    (ready : s.ready i = some k) (outside : k.grp.inHandler = false) (clear : more k = none) :
    issueMatched i s more body = issue i s body := by
  obtain ⟨_, _, _, issuing, -⟩ := ready_spec ready
  rw [issueMatched_outsideHandler more body issuing outside, issueWith_ready more body ready clear]

section
variable {op : MatchedOp} {k : Here} {s : State} {part : Part} {upd : Member → Member} {after : State → State}
  {c : Conv} {m : Member} (member : k.member = some (c, m)) (nothing : m.cause = none)
include member

/-- A matched instruction that all 32 lanes issue raises no cause in a convocation that takes it (R384). -/
theorem matchedCause_of_full (full : k.sp.lanes = BitVec.allOnes 32) (may : c.broken = true → op = .dismiss) :
    matchedCause k [memberCause op k] = none := by
  have clear : memberCause op k = none := by
    unfold memberCause
    simp only [member, full]
    cases hb : c.broken with
    | false => simp
    | true => simp [may hb]
  simp [matchedCause, clear, lowerCause]

include nothing

/-- A broken convocation only counts its member's instruction (R385). -/
theorem matchedBody_broken (broken : c.broken = true) : matchedBody op k s part upd after = .next
    ((after (s.modConv k.team.uid c.uid fun c => c.modMember k.grp.gid fun m => { upd m with issued := m.issued + 1 })).endConv
      k.team.uid c.uid) := by
  simp [matchedBody, member, nothing, broken]

/-- In a whole one the member's part joins its operation (R299, R300). -/
theorem matchedBody_whole (whole : c.broken = false) : matchedBody op k s part upd after =
    let s1 := after (s.modConv k.team.uid c.uid fun c => c.modMember k.grp.gid fun m => { upd m with issued := m.issued + 1 })
    let j := m.issued - c.done
    let o := Claims.joined c m op k part
    if o.parts.length < c.members.length then
      if c.partials.length ≤ j && 4 ≤ c.partials.length then .wait
      else .next (s1.modConv k.team.uid c.uid fun c => { c with
        partials := if j < c.partials.length then c.partials.set j o else c.partials ++ [o] })
    else if !o.agree then .breaks (fun s => s.breakConv k.team.uid c.uid none) 0x31
    else if op.usesEngine && (s.blinded k.team.uid k.grp.gid ||
        8 ≤ ((s.core k.team.core).engine.filter fun e => !e.started).length) then .wait
    else .next (((s1.modConv k.team.uid c.uid fun c => { c with partials := c.partials.drop 1, done := c.done + 1 }).matched
      k.team c.uid o).endConv k.team.uid c.uid) := by
  simp only [matchedBody, member, nothing, whole]
  rfl

/-- A member's issue of a matched instruction, from the body that it ends in. -/
theorem matchedIssue_of_body {i : Instr} {body : Here → State → Body} (ready : s.ready i = some k) (run : exec i s = issue i s body)
    (asks : body k (s.issued i k) = matchedBody op k (s.issued i k) part upd after) (whole : c.broken = false) :
    Claims.MatchedIssue i op k s
      (after ((s.issued i k).modConv k.team.uid c.uid fun c => c.modMember k.grp.gid fun m => { upd m with issued := m.issued + 1 }))
      c m (Claims.joined c m op k part) := by
  rw [matchedBody_whole member nothing whole] at asks
  refine ⟨fun some_left space => ?_, fun all differ => ?_, fun all agree room => ?_⟩
  · have goes : ¬((decide (c.partials.length ≤ m.issued - c.done) && decide (4 ≤ c.partials.length)) = true) := by
      simp only [Bool.and_eq_true, decide_eq_true_eq]
      omega
    rw [run, issue_next ready (asks.trans ((if_pos some_left).trans (if_neg goes)))]
  · rw [run, issue_ready _ ready, asks]
    simp only [if_neg (Nat.not_lt.mpr all), differ, Bool.not_false, if_true]
  · have goes : ¬((op.usesEngine && ((s.issued i k).blinded k.team.uid k.grp.gid ||
        decide (8 ≤ (((s.issued i k).core k.team.core).engine.filter fun e => !e.started).length))) = true) := by
      intro waits
      obtain ⟨engine, busy⟩ := Bool.and_eq_true_iff.mp waits
      obtain ⟨seen, free⟩ := room engine
      rw [seen, Bool.false_or, decide_eq_true_eq] at busy
      exact absurd free (Nat.not_lt.mpr busy)
    have no : ¬((!(Claims.joined c m op k part).agree) = true) := by simp [agree]
    rw [run, issue_next ready (asks.trans ((if_neg (Nat.not_lt.mpr all)).trans ((if_neg no).trans (if_neg goes))))]

end

/-- A member's record once its latch has been kept or emptied, as H says (R306). -/
def Member.latched (k : Here) (a : Latch) (m : Member) : Member := { m with latch := if k.f.h = 1 then some a else none }

/-- The matched instructions of a long form: their causes, and their part and member's record (R306, R312, R319). -/
theorem matchedTable_spec : ∀ row ∈ Claims.matchedTable, ∀ (l : Long) (s : State), ∃ (body : Here → State → Body)
    (upd : Here → Member → Member), exec (row.1 l) s = issueMatched (row.1 l) s (row.2.2 s) body ∧
      (∀ k s1, body k s1 = matchedBody row.2.1 k s1 (Claims.matchedPart row.2.1 k s1) (upd k) id) ∧
      ∀ k m, ({ upd k m with issued := m.issued + 1 } : Member) = Claims.matchedMember row.2.1 k m := by
  intro row listed l s
  simp only [Claims.matchedTable, List.mem_cons, List.not_mem_nil, or_false] at listed
  rcases listed with rfl | rfl | rfl | rfl | rfl | rfl
  case inl => exact ⟨_, fun k => Member.latched k (k.operandA false), rfl, fun _ _ => rfl, fun _ _ => rfl⟩
  case inr.inl => exact ⟨_, fun k => Member.latched k (k.operandA true), rfl, fun _ _ => rfl, fun _ _ => rfl⟩
  all_goals exact ⟨_, fun _ => id, rfl, fun _ _ => rfl, fun _ _ => rfl⟩

/-- Settles O41: each row ends in the body that joins the member's part to its operation. -/
theorem matchedInstructionsIssue : Obligations.MatchedInstructionsIssue := by
  intro row listed l s k c m i op s0 ready outside member whole nothing clear
  obtain ⟨body, upd, run, asks, record⟩ := matchedTable_spec row listed l s
  have issues := matchedIssue_of_body member nothing ready (run.trans (issueMatched_ready body ready outside clear)) (asks k _) whole
  simp only [record] at issues
  exact issues

end Sys2Proof.Machine
end

section
namespace Sys2Proof.Machine

/-! ### Batches and dismissal (R301, R317, R318) -/

theorem exec_mcommit (l : Short) (s : State) : exec (.mcommit l) s = execMcommit l s := rfl
theorem exec_convDis (l : Long) (s : State) : exec (.convDis l) s = execConvDis l s := rfl
theorem exec_mwait (l : Short) (s : State) : exec (.mwait l) s = execMwait l s := rfl

section
variable {s : State} {k : Here} {c : Conv} {m : Member}

theorem mcommit_issues {l : Short} (ready : s.ready (.mcommit l) = some k) (outside : k.grp.inHandler = false)
    (full : k.sp.lanes = BitVec.allOnes 32) (member : k.member = some (c, m)) (whole : c.broken = false) (nothing : m.cause = none) :
    Claims.MatchedIssue (.mcommit l) .commit k s
      (((s.issued (.mcommit l) k).modConv k.team.uid c.uid fun c => c.modMember k.grp.gid fun m =>
        { m with issued := m.issued + 1, batch := m.batch + 1 }).modGroup
          k.team.uid k.grp.gid fun h => h.setG l.d.toNat (m.batch.setWidth 64)) c m
      (Claims.joined c m .commit k (k.part (s.issued (.mcommit l) k))) := by
  have clear := matchedCause_of_full (op := .commit) member full fun broken => by rw [whole] at broken; cases broken
  have issues := matchedIssue_of_body member nothing ready
    ((exec_mcommit l s).trans (issueMatched_ready _ ready outside clear)) rfl whole
  rw [member, show k.f.d = l.d by rw [ready_fields ready rfl]; rfl] at issues
  exact issues

theorem exec_convDis_ready {l : Long} (ready : s.ready (.convDis l) = some k) (outside : k.grp.inHandler = false)
    (full : k.sp.lanes = BitVec.allOnes 32) (member : k.member = some (c, m)) :
    exec (.convDis l) s = issue (.convDis l) s fun k s1 =>
      matchedBody .dismiss k s1 (k.part s1) (fun m => { m with dis := true }) fun s =>
      s.modGroup k.team.uid k.grp.gid fun h => h.modSplit k.sp.id fun p =>
        { p with park := (k.member.map fun (e : Conv × Member) => Park.dismiss e.1.uid) } :=
  (exec_convDis l s).trans (issueMatched_ready _ ready outside (matchedCause_of_full member full fun _ => rfl))

theorem convDis_issues {l : Long} (ready : s.ready (.convDis l) = some k) (outside : k.grp.inHandler = false)
    (full : k.sp.lanes = BitVec.allOnes 32) (member : k.member = some (c, m)) (nothing : m.cause = none) :
    let s1 := ((s.issued (.convDis l) k).modConv k.team.uid c.uid fun c => c.modMember k.grp.gid fun m =>
        { m with issued := m.issued + 1, dis := true }).modGroup
          k.team.uid k.grp.gid fun h => h.modSplit k.sp.id fun p => { p with park := some (.dismiss c.uid) }
    (c.broken = false →
      Claims.MatchedIssue (.convDis l) .dismiss k s s1 c m (Claims.joined c m .dismiss k (k.part (s.issued (.convDis l) k)))) ∧
    (c.broken = true → exec (.convDis l) s = .next (s1.endConv k.team.uid c.uid)) := by
  have run := exec_convDis_ready ready outside full member
  refine ⟨fun whole => ?_, fun broken => ?_⟩
  · have issues := matchedIssue_of_body member nothing ready run rfl whole
    rw [member] at issues
    exact issues
  · rw [run, issue_next ready (matchedBody_broken member nothing broken), member]
    rfl

/-- The causes of mwait: the batch is the member's next, which it has not committed. -/
theorem mwaitCause_eq (member : k.member = some (c, m)) (nothing : m.cause = none) :
    mwaitCause k = if m.batch = k.waitBatch then some 0x34 else none := by
  have gap : k.batchGap = some 0 ↔ m.batch = k.waitBatch := by
    simp only [Here.batchGap, member, Option.map_some, Option.some.injEq]
    exact sub_eq_zero
  simp only [mwaitCause, matchedCause, member, gap]
  by_cases next : m.batch = k.waitBatch
  · simp [next, nothing, lowerCause]
  · simp [next, lowerCause]

/-- An instruction that its operands or the state stop raises their cause. -/
theorem issueWith_trap {i : Instr} {more : Here → Option (BitVec 8)} {code : BitVec 8} (body : Here → State → Body)
    (ready : s.ready i = some k) (stops : more k = some code) :
    issueWith i s more body = .next (s.raise k.team.uid k.grp.gid (some k.sp.id) code k.sp.pc) := by
  obtain ⟨lp, fm, p, issuing, own, form, may, waits, guard, none, -, mask⟩ := ready_spec ready
  have here : k = ⟨k.team, k.grp, p.justIssued, k.f, if lp then guardLanes k.grp p k.f.g else p.lanes⟩ := by rw [← mask, ← own]
  have go : (lp || guardHolds k.grp k.f.g) = true := by simpa using guard
  rw [here] at stops
  simp only [issueWith, issuing, form, may, waits, none, go, stops, lowerCause, Bool.not_true, Bool.or_self, Bool.false_eq_true,
    if_false, if_true, own]
  rfl

theorem mwait_results (l : Short) (s : State) (k : Here) (c : Conv) (m : Member) :
    let i := Instr.mwait l
    let n : Half := (k.grp.greg l.a.toNat).setWidth 16
    s.ready i = some k → k.member = some (c, m) → m.cause = none →
    (m.batch = n → exec i s = .next (s.raise k.team.uid k.grp.gid (some k.sp.id) 0x34 k.sp.pc)) ∧
    (m.batch ≠ n → 2 ^ 15 ≤ (m.batch - n).toNat ∨ c.batchDone n = true →
      exec i s = .next (if c.globals.contains n then (s.issued i k).emptyCaches k.team.core else s.issued i k)) ∧
    (m.batch ≠ n → (m.batch - n).toNat < 2 ^ 15 → c.batchDone n = false →
      ∃ t h, exec i s = .next t ∧ OnlyGroupFresh s t k h ∧ h = (k.issued i).modSplit k.sp.id fun p =>
        { p with park := some (.batch c.uid n s.uid) }) := by
  intro i n ready member nothing
  have batch : k.waitBatch = n := by
    change (k.grp.greg k.f.a.toNat).setWidth 16 = n
    rw [ready_fields ready rfl]
    rfl
  have causes := mwaitCause_eq member nothing
  rw [batch] at causes
  have goes (other : m.batch ≠ n) : exec i s = _ :=
    (exec_mwait l s).trans (issueWith_ready mwaitCause _ ready (causes.trans (if_neg other)))
  refine ⟨fun next => ?_, fun other done => ?_, fun other recent running => ?_⟩
  · exact (exec_mwait l s).trans (issueWith_trap _ ready (causes.trans (if_pos next)))
  · have ends : (decide (2 ^ 15 ≤ (m.batch - n).toNat) || c.batchDone n) = true :=
      Bool.or_eq_true_iff.mpr (done.imp decide_eq_true id)
    rw [goes other]
    refine issue_next ready ?_
    simp only [member, nothing, batch, ends, if_true]
    rfl
  · have waits : ¬(decide (2 ^ 15 ≤ (m.batch - n).toNat) || c.batchDone n) = true := by
      rw [decide_eq_false (Nat.not_le.mpr recent), running]
      exact Bool.false_ne_true
    refine ⟨(s.issued i k).parked k (.batch c.uid n s.uid), _, ?_, onlyGroupFresh_parked ready _, rfl⟩
    rw [goes other]
    refine issue_next ready ?_
    simp only [member, nothing, batch, if_neg waits]
    rfl

end

/-- A batch that the convocation has closed is done where neither it nor an earlier one is open. -/
theorem batchDone_iff {c : Conv} {n : Half} (closed : (c.closed - n - 1).toNat < 2 ^ 15 - 1) :
    c.batchDone n = true ↔ ∀ b ∈ c.batches, 2 ^ 15 ≤ (n - b.n).toNat := by
  rw [Conv.batchDone, if_pos closed]
  simp

/-- Settles O42: mcommit and conv.dis as matched instructions, mwait by its batch. -/
theorem batchResults : Obligations.BatchResults :=
  ⟨⟨fun _ _ _ _ _ => mcommit_issues, fun _ _ _ _ _ => convDis_issues⟩, mwait_results, fun _ _ => batchDone_iff⟩

end Sys2Proof.Machine
end

section
namespace Sys2Proof.Machine

/-! ### MATRIX_OP_COMPLETE and CONVOCATION_END (R301, R316, R318, R385) -/

theorem matrixOpComplete_ends {core op : Nat} {s : State} {o : EngineOp}
    (found : ((s.core core).engine.find? fun o => o.uid = op) = some o) (started : o.started = true) (answered : s.keyBusy o.key = false)
    (first : (((s.core core).engine.takeWhile fun e => e.uid ≠ op).any fun e => e.team = o.team && e.conv = o.conv) = false) :
    exec (.matrixOpComplete core op) s = .next
      (((((s.finishOp o).takeAnswers o.key).modCore core fun c => { c with engine := c.engine.filter fun e => e.uid ≠ op }).modConv
        o.team o.conv fun c => { c with
          openOps := c.openOps.filter (· ≠ op),
          batches := (c.batches.map fun b => { b with ops := b.ops.filter (· ≠ op) }).filter fun b => b.ops ≠ [] }).wakeBatches
        o.team o.conv) := by
  change execMatrixOpComplete core op s = _
  simp only [execMatrixOpComplete, found, started, answered, first, Bool.not_true, Bool.or_self, Bool.false_eq_true, if_false]

theorem endConv_of_mayEnd {s : State} {t u : Nat} {c : Conv} (found : s.conv? t u = some c) (may : c.mayEnd = true) :
    let s1 := s.modTeam t fun x => { x with convs := x.convs.filter fun c => c.uid ≠ u }
    s.endConv t u = { s1 with groups := s1.groups.map fun h => if h.team = t then h.unpark (Split.onConv u) else h } := by
  simp only [State.endConv, found, may, if_true]

theorem convocationEnd_ends (team : Nat) (tag : BitVec 4) (s : State) (x : Team) (c : Conv) (resident : s.team? team = some x)
    (tagged : (x.convs.find? fun c => c.tag = tag.toNat) = some c) (own : x.conv? c.uid = some c) (may : c.mayEnd = true) :
    ∃ t, exec (.convocationEnd team tag) s = .next t ∧ { t with groups := s.groups, teams := s.teams } = s ∧
      (t.team? team).map Team.convs = some (x.convs.filter fun c' => c'.uid ≠ c.uid) ∧
      t.groups = s.groups.map fun h => if h.team = team then h.unpark (Split.onConv c.uid) else h := by
  have found : s.conv? team c.uid = some c := by rw [State.conv?, resident]; exact own
  have run : exec (.convocationEnd team tag) s = .next (s.endConv team c.uid) := by
    change execConvocationEnd team tag s = _
    simp only [execConvocationEnd, resident, Option.bind_some, tagged]
  rw [run, endConv_of_mayEnd found may]
  refine ⟨_, rfl, rfl, ?_, rfl⟩
  exact congrArg (Option.map Team.convs)
    (team?_modTeam_same (fun x => { x with convs := x.convs.filter fun c' => c'.uid ≠ c.uid }) (fun _ same => same) resident)

/-- Settles O45: the last step of an operation, and of a convocation. -/
theorem engineOperationsEnd : Obligations.EngineOperationsEnd :=
  ⟨fun _ _ _ _ => matrixOpComplete_ends, convocationEnd_ends⟩

end Sys2Proof.Machine
end

section
namespace Sys2Proof.Machine

/-! ### The members of a convocation (R298) -/

theorem find?_of_nodup_key {α β : Type} [DecidableEq β] (key : α → β) {l : List α} {x : α} (nodup : (l.map key).Nodup)
    (mem : x ∈ l) : l.find? (fun y => key y = key x) = some x := by
  obtain ⟨y, found⟩ := Option.isSome_iff_exists.mp (List.find?_isSome (p := fun y => decide (key y = key x)).mpr ⟨x, mem, by simp⟩)
  have same : key y = key x := by simpa using List.find?_some found
  rw [found, List.inj_on_of_nodup_map nodup (List.mem_of_find?_eq_some found) mem same]

theorem conv?_modConv_same {s : State} {t u : Nat} {c : Conv} (f : Conv → Conv) (keeps : ∀ c, c.uid = u → (f c).uid = u)
    (found : s.conv? t u = some c) : (s.modConv t u f).conv? t u = some (f c) := by
  obtain ⟨x, resident, own⟩ := Option.bind_eq_some_iff.mp found
  rw [State.conv?, State.modConv, team?_modTeam_same
    (fun x => { x with convs := x.convs.map fun c => if c.uid = u then f c else c }) (fun _ same => same) resident]
  exact (find?_mapKey_same Conv.uid x.convs f keeps).trans (congrArg (Option.map f) own)

/-- Members in the order of their GROUPIDs, each with its place as its number. -/
def numbered (l : List Member) : List Member := (l.mergeSort fun a b => a.gid ≤ b.gid).mapIdx fun i m => { m with num := i }

theorem numbered_gids (l : List Member) : (numbered l).map Member.gid = (l.mergeSort fun a b => a.gid ≤ b.gid).map Member.gid := by
  refine List.ext_getElem (by simp [numbered]) fun i _ _ => ?_
  simp [numbered]

theorem numbered_nums (l : List Member) : (numbered l).map Member.num = List.range (numbered l).length := by
  refine List.ext_getElem (by simp) fun i _ _ => ?_
  simp [numbered]

theorem numbered_perm (l : List Member) : ((numbered l).map Member.gid).Perm (l.map Member.gid) := by
  rw [numbered_gids]
  exact (List.mergeSort_perm l _).map _

theorem numbered_rising {l : List Member} (nodup : (l.map Member.gid).Nodup) : ((numbered l).map Member.gid).Pairwise (· < ·) := by
  have sorted : ((numbered l).map Member.gid).Pairwise (· ≤ ·) := by
    rw [numbered_gids, List.pairwise_map]
    have ordered := List.pairwise_mergeSort (le := fun a b : Member => decide (a.gid ≤ b.gid))
      (fun _ _ _ ab bc => by simp only [decide_eq_true_eq] at *; omega)
      (fun _ _ => by simp only [Bool.or_eq_true, decide_eq_true_eq]; omega) l
    exact ordered.imp of_decide_eq_true
  exact (sorted.and ((numbered_perm l).nodup_iff.mpr nodup)).imp fun ⟨le, ne⟩ => Nat.lt_of_le_of_ne le ne

/-! ### conv (R297, R298) -/

/-- What a member's group takes when its convocation forms: its number, and its waiting splits go on. -/
def Member.told (tag : Nat) (m : Member) (h : Group) : Group :=
  (h.setG m.dest (BitVec.ofNat 64 m.num)).unpark fun p => p.park = some (.convene tag)

theorem told_key (tag : Nat) (m : Member) (h : Group) : (m.told tag h).team = h.team ∧ (m.told tag h).gid = h.gid :=
  ⟨setG_team .., setG_gid ..⟩

theorem told_greg (tag : Nat) (m : Member) {h : Group} (wf : SMap.wf h.g = true) (r : Nat) :
    (m.told tag h).greg r = if r = m.dest ∧ m.dest ≠ 0 then BitVec.ofNat 64 m.num else h.greg r := greg_setG h m.dest r _ wf

theorem told_goes_on (tag : Nat) (m : Member) (h : Group) :
    (m.told tag h).splits.all (fun p => p.park ≠ some (.convene tag)) = true := by
  simp only [Member.told, Group.unpark, List.all_map, List.all_eq_true, Function.comp_apply]
  intro p _
  by_cases waits : p.park = some (.convene tag) <;> simp [waits]

/-- A state in which each of some members has been told. -/
def State.tellAll (s : State) (t tag : Nat) (l : List Member) : State := l.foldl (fun s m => s.modGroup t m.gid (m.told tag)) s

theorem tellAll_teams (s : State) (t tag : Nat) (l : List Member) : (s.tellAll t tag l).teams = s.teams :=
  foldl_keeps State.teams (f := fun s (m : Member) => s.modGroup t m.gid (m.told tag)) (fun _ _ => rfl) l s

theorem tellAll_rest (s : State) (t tag : Nat) (l : List Member) : { s.tellAll t tag l with groups := s.groups } = s := by
  induction l generalizing s with
  | nil => rfl
  | cons m l ih => exact (congrArg (fun x : State => { x with groups := s.groups }) (ih (s.modGroup t m.gid (m.told tag))) :)

theorem group?_tellAll_ne {s : State} {t tag g : Nat} {l : List Member} (other : g ∉ l.map Member.gid) :
    (s.tellAll t tag l).group? t g = s.group? t g := by
  induction l generalizing s with
  | nil => rfl
  | cons m l ih =>
    simp only [List.map_cons, List.mem_cons, not_or] at other
    exact (ih (s := s.modGroup t m.gid (m.told tag)) other.2).trans
      (group?_modGroup_ne s (m.told tag) (told_key tag m) fun same => other.1 (congrArg Prod.snd same))

/-- Of members with distinct GROUPIDs each is told once. -/
theorem group?_tellAll {s : State} {t tag : Nat} {l : List Member} (nodup : (l.map Member.gid).Nodup) {m : Member} (mem : m ∈ l)
    {h : Group} (found : s.group? t m.gid = some h) : (s.tellAll t tag l).group? t m.gid = some (m.told tag h) := by
  induction l generalizing s with
  | nil => cases mem
  | cons x l ih =>
    rw [List.map_cons, List.nodup_cons] at nodup
    change ((s.modGroup t x.gid (x.told tag)).tellAll t tag l).group? t m.gid = _
    rcases List.mem_cons.mp mem with rfl | later
    · rw [group?_tellAll_ne nodup.1]
      exact group?_modGroup_same _ (told_key tag m h) found
    · refine ih nodup.2 later ((group?_modGroup_ne s _ (told_key tag x) fun same => nodup.1 ?_).trans found)
      rw [← show m.gid = x.gid from congrArg Prod.snd same]
      exact List.mem_map_of_mem later

/-- A change of one group that keeps its group registers keeps every group's. -/
theorem group?_modGroup_greg {s : State} {a b : Nat} {h : Group} (t g : Nat) {f : Group → Group}
    (key : ∀ h, (f h).team = h.team ∧ (f h).gid = h.gid) (regs : ∀ h, (f h).g = h.g) (found : s.group? a b = some h) :
    ∃ h', (s.modGroup t g f).group? a b = some h' ∧ h'.g = h.g := by
  rw [group?_modGroup s t g a b f key, found]
  refine ⟨_, rfl, ?_⟩
  dsimp only
  split
  · exact regs h
  · rfl

/-- The issuing split waits until its convocation forms. -/
def State.convening (s : State) (k : Here) : State :=
  s.modGroup k.team.uid k.grp.gid fun h => h.modSplit k.sp.id fun p => { p with park := some (.convene k.tag) }

/-- With its last member `c`'s convocation forms. -/
def State.gathered (s : State) (k : Here) (c : Conv) : State :=
  if c.members.length < c.size then s.convening k
  else ((s.convening k).modConv k.team.uid c.uid fun c' => { c' with formed := true, members := numbered c.members }).tellAll
    k.team.uid k.tag (numbered c.members)

/-- The group has joined: the forming convocation `c` of its tag, made where there was none, ends with it. -/
structure Enrolled (s s1 : State) (k : Here) (before : List Member) (c : Conv) : Prop where
  rest : { s1 with teams := s.teams, uid := s.uid } = s
  listed : s1.conv? k.team.uid c.uid = some c
  tag : c.tag = k.tag
  size : c.size = k.convSize
  broken : c.broken = false
  formed : c.formed = false
  members : c.members = before ++ [newMember k.grp.gid k.f.d.toNat]

/-- A convocation that the issuing group joins. -/
def Conv.joinedBy (k : Here) (c : Conv) : Conv := { c with members := c.members ++ [newMember k.grp.gid k.f.d.toNat] }

/-- The forming convocation of a tag that was free. -/
def Here.firstConv (k : Here) (uid : Nat) : Conv :=
  { uid := uid, tag := k.tag, size := k.convSize, formed := false, broken := false, members := [newMember k.grp.gid k.f.d.toNat],
    done := 0, partials := [], openOps := [], openGlobal := false, closed := 0, batches := [], globals := [] }

section
variable {s : State} {k : Here} {c : Conv} (resident : s.team? k.team.uid = some k.team)
include resident

/-- A group joins a forming convocation of its tag. -/
theorem joinConv_old (found : (k.team.convs.find? fun c => c.tag = k.tag) = some c) (nodup : (k.team.convs.map Conv.uid).Nodup) :
    let s1 := s.modConv k.team.uid c.uid (Conv.joinedBy k)
    s1.conv? k.team.uid c.uid = some (c.joinedBy k) ∧ s.joinConv k = s1.gathered k (c.joinedBy k) := by
  have own : s.conv? k.team.uid c.uid = some c := by
    rw [State.conv?, resident]
    exact find?_of_nodup_key Conv.uid nodup (List.mem_of_find?_eq_some found)
  have listed := conv?_modConv_same (Conv.joinedBy k) (fun _ same => same) own
  refine ⟨listed, ?_⟩
  have after : ((s.modConv k.team.uid c.uid (Conv.joinedBy k)).convening k).conv? k.team.uid c.uid = some (c.joinedBy k) := listed
  simp only [State.joinConv, found]
  split
  · next none => cases none.symm.trans after
  · next d here =>
    cases here.symm.trans after
    rfl

/-- A group whose tag is free starts a convocation. -/
theorem joinConv_new (free : (k.team.convs.find? fun c => c.tag = k.tag) = none) (old : ∀ c ∈ k.team.convs, c.uid < s.uid) :
    let s1 := s.fresh.modTeam k.team.uid fun x => { x with convs := x.convs ++ [k.firstConv s.uid] }
    s1.conv? k.team.uid s.uid = some (k.firstConv s.uid) ∧ s.joinConv k = s1.gathered k (k.firstConv s.uid) := by
  have listed : (s.fresh.modTeam k.team.uid fun x => { x with convs := x.convs ++ [k.firstConv s.uid] }).conv? k.team.uid s.uid =
      some (k.firstConv s.uid) := by
    have none : k.team.convs.find? (fun c => c.uid = s.uid) = none :=
      List.find?_eq_none.mpr fun c mem => by simpa using Nat.ne_of_lt (old c mem)
    rw [State.conv?, team?_modTeam_same (s := s.fresh) (fun x => { x with convs := x.convs ++ [k.firstConv s.uid] })
      (fun _ same => same) resident]
    simp [Team.conv?, List.find?_append, none, Here.firstConv]
  refine ⟨listed, ?_⟩
  have after : ((s.fresh.modTeam k.team.uid fun x => { x with convs := x.convs ++ [k.firstConv s.uid] }).convening k).conv?
      k.team.uid s.uid = some (k.firstConv s.uid) := listed
  simp only [State.joinConv, free]
  split
  · next none => cases none.symm.trans after
  · next d here =>
    cases here.symm.trans after
    rfl

theorem joinConv_enrols (nodup : (k.team.convs.map Conv.uid).Nodup)
    (clear : ∀ c ∈ k.team.convs, c.uid < s.uid ∧ (c.tag = k.tag → c.formed = false ∧ c.size = k.convSize ∧ c.broken = false)) :
    ∃ s1 c, Enrolled s s1 k (((k.team.convs.find? fun c => c.tag = k.tag).map Conv.members).getD []) c ∧
      s.joinConv k = s1.gathered k c := by
  cases found : k.team.convs.find? fun c => c.tag = k.tag with
  | some c =>
    have tagged : c.tag = k.tag := by simpa using List.find?_some found
    obtain ⟨formed, size, broken⟩ := (clear c (List.mem_of_find?_eq_some found)).2 tagged
    obtain ⟨listed, ends⟩ := joinConv_old resident found nodup
    refine ⟨_, _, ?_, ends⟩
    exact ⟨rfl, listed, tagged, size, broken, formed, rfl⟩
  | none =>
    obtain ⟨listed, ends⟩ := joinConv_new resident found fun c mem => (clear c mem).1
    refine ⟨_, _, ?_, ends⟩
    exact ⟨rfl, listed, rfl, rfl, rfl, rfl, rfl⟩

end

section
variable {s s1 : State} {i : Instr} {k : Here} {before : List Member} {c : Conv} (ready : s.ready i = some k)
  (enrolled : Enrolled (s.issued i k) s1 k before c)
include enrolled

theorem Enrolled.groups : s1.groups = (s.issued i k).groups := (congrArg State.groups enrolled.rest :)

theorem Enrolled.convening_rest : { s1.convening k with groups := s.groups, teams := s.teams, uid := s.uid } = s :=
  (congrArg (fun x : State => { x with groups := s.groups }) enrolled.rest :)

/-- Every group keeps its group registers when one joins. -/
theorem Enrolled.group?_convening {a b : Nat} {h : Group} (found : s.group? a b = some h) :
    ∃ h', (s1.convening k).group? a b = some h' ∧ h'.g = h.g := by
  obtain ⟨h1, found1, same1⟩ := group?_modGroup_greg k.team.uid k.grp.gid
    (f := fun h => h.retire k.sp.id i.length (k.team.halted && !k.team.handler)) (fun _ => ⟨rfl, rfl⟩) (fun _ => rfl) found
  obtain ⟨h2, found2, same2⟩ := group?_modGroup_greg (s := s1) k.team.uid k.grp.gid
    (f := fun h => h.modSplit k.sp.id fun p => { p with park := some (.convene k.tag) }) (fun _ => ⟨rfl, rfl⟩) (fun _ => rfl)
    ((group?_congr enrolled.groups a b).trans found1)
  exact ⟨h2, found2, same2.trans same1⟩

include ready in
/-- The joining group waits. -/
theorem Enrolled.group?_convening_self : (s1.convening k).group? k.team.uid k.grp.gid =
    some ((k.issued i).modSplit k.sp.id fun p => { p with park := some (.convene k.tag) }) :=
  group?_modGroup_same _ ⟨rfl, rfl⟩ ((group?_congr enrolled.groups _ _).trans (group?_issued ready))

/-- The members' GROUPIDs are distinct where those that had joined were and the issuing group was none of them. -/
theorem Enrolled.gids_nodup (distinct : (before.map Member.gid).Nodup) (new : k.grp.gid ∉ before.map Member.gid) :
    (c.members.map Member.gid).Nodup := by
  rw [enrolled.members, List.map_append]
  exact distinct.append (List.nodup_singleton _) (List.disjoint_singleton.mpr new)

theorem Enrolled.gids_perm : (c.members.map Member.gid).Perm (k.grp.gid :: before.map Member.gid) := by
  rw [enrolled.members, List.map_append]
  exact List.perm_append_singleton _ _

end

/-- conv raises no cause for a group in no convocation whose tag is free or that of a forming one of the same size (R384). -/
theorem convCause_none {k : Here} (alone : k.team.convOf k.grp.gid = none)
    (clear : ∀ c ∈ k.team.convs, c.tag = k.tag → c.formed = false ∧ c.size = k.convSize) : convCause k = none := by
  have fits : (k.team.convs.any fun c => c.tag = k.tag && (c.formed || c.size ≠ k.convSize)) = false := by
    refine List.any_eq_false.mpr fun c mem => ?_
    by_cases tagged : c.tag = k.tag
    · obtain ⟨forming, size⟩ := clear c mem tagged
      simp [forming, size]
    · simp [tagged]
  rw [convCause, alone, fits]
  rfl

/-- A group in no convocation is a member of none that has its tag. -/
theorem gid_not_member {k : Here} (alone : k.team.convOf k.grp.gid = none) :
    k.grp.gid ∉ (((k.team.convs.find? fun c => c.tag = k.tag).map Conv.members).getD []).map Member.gid := by
  cases found : k.team.convs.find? fun c => c.tag = k.tag with
  | none => simp
  | some c =>
    simpa [List.mem_map] using List.find?_eq_none.mp alone c (List.mem_of_find?_eq_some found)

theorem exec_conv {l : Long} {s : State} {k : Here} (ready : s.ready (.conv l) = some k) (outside : k.grp.inHandler = false)
    (clear : convCause k = none) : exec (.conv l) s = .next ((s.issued (.conv l) k).joinConv k) :=
  (issueMatched_ready _ ready outside clear).trans (issue_next ready rfl)

/-- Settles O40: the group joins, and with the last one all are numbered and told. -/
theorem convocationForms : Obligations.ConvocationForms := by
  intro l s k i before ready outside alone tidy clear nodup distinct
  have run := exec_conv ready outside (convCause_none alone fun c mem tagged => by
    obtain ⟨forming, size, -⟩ := (clear c mem).2 tagged
    exact ⟨forming, size⟩)
  obtain ⟨s1, c, enrolled, ends⟩ := joinConv_enrols (s := s.issued i k) (ready_group ready).2.1 nodup clear
  have distinct := enrolled.gids_nodup distinct (gid_not_member alone)
  have count : c.members.length = before.length + 1 := by rw [enrolled.members]; simp [before]
  have dest : k.f.d = l.d := by rw [ready_fields ready rfl]
  by_cases few : c.members.length < c.size
  · rw [State.gathered, if_pos few] at ends
    refine ⟨_, c, run.trans (congrArg Host.Outcome.next ends), enrolled.convening_rest, enrolled.listed, enrolled.tag, enrolled.size,
      enrolled.broken, enrolled.gids_perm, ?_, fun _ => ⟨?_, enrolled.group?_convening_self ready⟩, fun formed => ?_⟩
    · rw [enrolled.formed, eq_comm, decide_eq_false_iff_not, ← enrolled.size, ← count]
      exact Nat.not_le.mpr few
    · rw [enrolled.members, dest]
    · rw [enrolled.formed] at formed
      cases formed
  · rw [State.gathered, if_neg few] at ends
    have told := distinct
    rw [← (numbered_perm c.members).nodup_iff] at told
    refine ⟨_, { c with formed := true, members := numbered c.members }, run.trans (congrArg Host.Outcome.next ends), ?_, ?_,
      enrolled.tag, enrolled.size, enrolled.broken, (numbered_perm c.members).trans enrolled.gids_perm, ?_, fun forming => ?_,
      fun _ => ⟨numbered_rising distinct, numbered_nums c.members, fun m mem h found => ?_⟩⟩
    · exact (congrArg (fun x : State => { x with groups := s.groups, teams := s.teams, uid := s.uid })
        (tellAll_rest _ k.team.uid k.tag (numbered c.members)) :).trans enrolled.convening_rest
    · rw [State.conv?, team?_congr (tellAll_teams _ k.team.uid k.tag (numbered c.members))]
      exact conv?_modConv_same (s := s1.convening k) (fun c' => { c' with formed := true, members := numbered c.members })
        (fun _ same => same) enrolled.listed
    · rw [eq_comm, decide_eq_true_eq, ← enrolled.size, ← count]
      exact Nat.not_lt.mp few
    · cases forming
    · obtain ⟨h1, found1, same⟩ := enrolled.group?_convening found
      have wf : SMap.wf h1.g = true := by rw [same]; exact (tidy_parts (tidy h (List.mem_of_find?_eq_some found))).2.1
      have regs (r : Nat) : h1.greg r = h.greg r := by simp only [Group.greg, same]
      refine ⟨m.told k.tag h1, group?_tellAll told mem found1, fun named => ?_, fun r other => ?_, told_goes_on k.tag m h1⟩
      · rw [told_greg k.tag m wf, if_pos ⟨rfl, named⟩]
      · rw [told_greg k.tag m wf, if_neg fun both => other both.1, regs]

end Sys2Proof.Machine
end

section
namespace Sys2Proof.Machine

/-! ### Accumulator regions (R305) -/

/-- Bits of an element's code in the accumulator: FP32, FP40 or binary64. -/
def accBits (kind : Nat) : Nat := if kind = 0 then 32 else if kind = 1 then 40 else 64

/-- A write of an element changes its own words alone. -/
theorem get_regionSet_of_not_key {a : SMap 32} (wf : SMap.wf a = true) {kind d r n key : Nat} (x : Nat)
    (other : key ∉ Claims.elemKeys kind d r n) : SMap.get (regionSet a kind d r n x) key = SMap.get a key := by
  unfold Claims.elemKeys at other
  unfold regionSet
  split at other
  · rw [if_pos ‹_›, SMap.get_set _ _ _ _ wf, if_neg (by simpa using other)]
  · simp only [List.mem_cons, List.not_mem_nil, or_false, not_or] at other
    rw [if_neg ‹_›, SMap.get_set _ _ _ _ (SMap.wf_set _ _ _ wf), if_neg other.2, SMap.get_set _ _ _ _ wf, if_neg other.1]

/-- An element read after a write of an element of the same region. -/
theorem regionGet_regionSet {a : SMap 32} (wf : SMap.wf a = true) (kind d r r' x : Nat) {n n' : Nat} (col : n < 32) (col' : n' < 32) :
    regionGet (regionSet a kind d r n x) kind d r' n' =
      if r' = r ∧ n' = n then x % 2 ^ accBits kind else regionGet a kind d r' n' := by
  by_cases single : kind = 0
  · subst single
    simp only [regionGet, regionSet, accBits, if_true, SMap.get_set _ _ _ _ wf]
    by_cases same : r' = r ∧ n' = n
    · obtain ⟨rfl, rfl⟩ := same
      simp
    · rw [if_neg same, if_neg (by unfold accKey; omega)]
  · have low : accKey (d + 2 * (r' / 32)) (r' % 32) n' = accKey (d + 2 * (r / 32)) (r % 32) n ↔ r' = r ∧ n' = n := by
      unfold accKey; omega
    have high : accKey (d + 2 * (r' / 32) + 1) (r' % 32) n' = accKey (d + 2 * (r / 32) + 1) (r % 32) n ↔ r' = r ∧ n' = n := by
      unfold accKey; omega
    have lowHigh : accKey (d + 2 * (r' / 32)) (r' % 32) n' ≠ accKey (d + 2 * (r / 32) + 1) (r % 32) n := by unfold accKey; omega
    have highLow : accKey (d + 2 * (r' / 32) + 1) (r' % 32) n' ≠ accKey (d + 2 * (r / 32)) (r % 32) n := by unfold accKey; omega
    simp only [regionGet, regionSet, if_neg single, SMap.get_set _ _ _ _ (SMap.wf_set _ _ _ wf), SMap.get_set _ _ _ _ wf,
      low, high, if_neg lowHigh, if_neg highLow]
    by_cases same : r' = r ∧ n' = n
    · simp only [if_pos same, BitVec.toNat_ofNat, accBits, if_neg single]
      by_cases extended : kind = 1
      · simp only [if_pos extended]; omega
      · simp only [if_neg extended]; omega
    · simp only [if_neg same]

/-- One element of a region takes the value that `v` gives it. -/
def setCell (kind d : Nat) (v : Nat → Nat → Nat) (a : SMap 32) (e : Nat × Nat) : SMap 32 := regionSet a kind d e.1 e.2 (v e.1 e.2)

/-- Elements written one after the other: each then holds its value, and no word but theirs has changed. -/
theorem foldl_setCell (kind d : Nat) (v : Nat → Nat → Nat) {l : List (Nat × Nat)} (cols : ∀ e ∈ l, e.2 < 32) {a : SMap 32}
    (wf : SMap.wf a = true) :
    (∀ r n, n < 32 → regionGet (l.foldl (setCell kind d v) a) kind d r n =
      if (r, n) ∈ l then v r n % 2 ^ accBits kind else regionGet a kind d r n) ∧
    ∀ key, (∀ e ∈ l, key ∉ Claims.elemKeys kind d e.1 e.2) → SMap.get (l.foldl (setCell kind d v) a) key = SMap.get a key := by
  induction l generalizing a with
  | nil => exact ⟨fun r n _ => by simp, fun _ _ => rfl⟩
  | cons e l ih =>
    have col : e.2 < 32 := cols e (List.mem_cons_self ..)
    obtain ⟨elements, words⟩ := ih (fun x mem => cols x (List.mem_cons_of_mem _ mem)) (a := setCell kind d v a e) (wf_regionSet wf)
    refine ⟨fun r n inside => (elements r n inside).trans ?_, fun key out =>
      (words key fun x mem => out x (List.mem_cons_of_mem _ mem)).trans (get_regionSet_of_not_key wf _ (out e (List.mem_cons_self ..)))⟩
    have step : regionGet (setCell kind d v a e) kind d r n = _ := regionGet_regionSet wf kind d e.1 r (v e.1 e.2) col inside
    by_cases here : (r, n) = e
    · subst here
      simp [step]
    · have apart : ¬(r = e.1 ∧ n = e.2) := fun same => here (Prod.ext same.1 same.2)
      simp only [step, if_neg apart, List.mem_cons, here, false_or]

/-- The elements of a region of `m` rows, row by row. -/
def regionCells (m : Nat) : List (Nat × Nat) := (List.range m).flatMap fun r => (List.range 32).map fun n => (r, n)

theorem mem_regionCells {m r n : Nat} : (r, n) ∈ regionCells m ↔ r < m ∧ n < 32 := by simp [regionCells]

theorem regionMap_eq (a : SMap 32) (kind d m : Nat) (f : Nat → Nat → Nat → Nat) :
    regionMap a kind d m f = (regionCells m).foldl (setCell kind d fun r n => f r n (regionGet a kind d r n)) a := by
  simp only [regionCells, List.foldl_flatMap, List.foldl_map, regionMap, setCell]

theorem regionIs_regionMap (a : SMap 32) (kind d m : Nat) (f : Nat → Nat → Nat → Nat) (wf : SMap.wf a = true) :
    Claims.RegionIs a (regionMap a kind d m f) kind d m f := by
  obtain ⟨elements, words⟩ := foldl_setCell kind d (fun r n => f r n (regionGet a kind d r n)) (l := regionCells m)
    (fun e mem => (mem_regionCells.mp mem).2) wf
  rw [regionMap_eq]
  refine ⟨fun r n row col => (elements r n col).trans (if_pos (mem_regionCells.mpr ⟨row, col⟩)),
    fun key out => words key fun e mem => ?_⟩
  obtain ⟨row, col⟩ := mem_regionCells.mp mem
  exact out e.1 e.2 row col

/-! ### MMA on a region (R313) -/

/-- MMA of R313 on element (r, n) of a region: its row is that of the member whose fragment holds it. -/
def mmaCell (kind : Nat) (mode : Mode) (fa fb : Nat) (frags : List Latch) (b : List Byte) (r n x : Nat) : Nat :=
  match frags[r / 16]? with
  | some g => mmaElem (accFmt kind) mode fa (g.row (r % 16)) (imageCol fb b n) (g.rowScale (r % 16)) (imageScale fb b n) x
  | none => x

theorem range_sixteen_mul (m : Nat) : List.range (16 * m) = (List.range m).flatMap fun i => (List.range 16).map fun r => 16 * i + r := by
  induction m with
  | zero => rfl
  | succ m ih => rw [Nat.mul_succ, List.range_add, ih, List.range_succ (n := m), List.flatMap_append, List.flatMap_singleton]

/-- The members' fragments, sixteen rows each, make up the region. -/
theorem mmaRegion_eq (a : SMap 32) (kind d : Nat) (mode : Mode) (fa fb : Nat) (frags : List Latch) (b : List Byte) :
    mmaRegion a kind d mode fa fb frags b = regionMap a kind d (16 * frags.length) (mmaCell kind mode fa fb frags b) := by
  have places : frags.zipIdx.map Prod.snd = List.range frags.length := by rw [List.zipIdx_map_snd, List.range_eq_range']
  unfold mmaRegion regionMap
  rw [range_sixteen_mul, List.foldl_flatMap, ← places, List.foldl_map]
  refine List.foldl_ext _ _ _ fun a fr mem => ?_
  have own : frags[fr.2]? = some fr.1 := by simpa using List.mem_zipIdx_iff_getElem?.mp mem
  rw [List.foldl_map]
  refine List.foldl_ext _ _ _ fun a r row => List.foldl_ext _ _ _ fun a n col => ?_
  rw [List.mem_range] at row col
  have member : (16 * fr.2 + r) / 16 = fr.2 := by omega
  have within : (16 * fr.2 + r) % 16 = r := by omega
  simp only [mmaCell, member, within, own]
  simp [List.getD_eq_getElem?_getD, col]

theorem regionIs_mmaRegion (a : SMap 32) (kind d : Nat) (mode : Mode) (fa fb : Nat) (frags : List Latch) (b : List Byte)
    (wf : SMap.wf a = true) : Claims.RegionIs a (mmaRegion a kind d mode fa fb frags b) kind d (16 * frags.length)
      (mmaCell kind mode fa fb frags b) := by
  rw [mmaRegion_eq]
  exact regionIs_regionMap a kind d _ _ wf

end Sys2Proof.Machine
end

section
namespace Sys2Proof.Machine

/-! ### What a write leaves of the accumulators -/

/-- The accumulator store of every team. -/
def State.accs (s : State) : List (Nat × SMap 32) := s.teams.map fun x => (x.uid, x.acc)

theorem acc_of_accs {s t : State} (same : t.accs = s.accs) (u : Nat) : (t.team? u).map Team.acc = (s.team? u).map Team.acc := by
  have found (w : State) : (w.team? u).map Team.acc = (w.accs.find? fun e => e.1 = u).map Prod.snd := by
    rw [State.accs, List.find?_map, Option.map_map]
    rfl
  rw [found, found, same]

theorem accs_of_teams {s t : State} (same : t.teams = s.teams) : t.accs = s.accs :=
  congrArg (List.map fun x : Team => (x.uid, x.acc)) same

theorem setScratch_accs (s : State) (t off : Nat) (b : List Byte) : (s.setScratch t off b).accs = s.accs := by
  unfold State.accs State.setScratch State.modTeam
  rw [List.map_map]
  refine List.map_congr_left fun x _ => ?_
  simp only [Function.comp_apply]
  split <;> rfl

theorem wakeWaits_accs (s : State) (which : Split → Bool) : (s.wakeWaits which).accs = s.accs :=
  accs_of_teams (foldl_keeps State.teams emptyCaches_teams _ _)

theorem barWritten_accs (s : State) (t off : Nat) (old w : DWord) : (s.barWritten t off old w).accs = s.accs := by
  unfold State.barWritten
  split
  · rfl
  split
  · rw [wakeWaits_accs, setScratch_accs]
  split
  · exact wakeWaits_accs s _
  · rfl

theorem writeScratch_accs (s : State) (t off : Nat) (b : List Byte) : (s.writeScratch t off b).accs = s.accs :=
  (foldl_keeps State.accs (fun _ _ => barWritten_accs ..) _ _).trans (setScratch_accs s t off b)

theorem placeBytes_accs (s : State) (l : Loc) (b : List Byte) : (s.placeBytes l b).accs = s.accs := by
  cases l with
  | mem pa key pol => exact accs_of_teams (storageOnly_writeMem s key pol pa b).teams
  | scr t off => exact writeScratch_accs s t off b
  | host pa => rfl
  | window pa => rfl
  | peer d pa => rfl
  | remote d va => rfl

theorem sendUnits_accs (job : Half) (key : Nat × Nat) (l : List (List PutPiece)) (s : State) :
    (s.sendUnits job key l).2.accs = s.accs := by
  induction l generalizing s with
  | nil => rfl
  | cons u l ih =>
    cases u with
    | nil => exact ih s
    | cons p ps => exact ih (s.sendRequest ..)

theorem putAll_accs (s : State) (job : Half) (key : Nat × Nat) (l : List PutPiece) : (s.putAll job key l).2.accs = s.accs :=
  (sendUnits_accs ..).trans
    (foldl_keeps State.accs (f := fun s (p : PutPiece) => s.placeBytes p.loc p.bytes) (fun _ _ => placeBytes_accs ..) _ _)

theorem addCount_accs (s : State) (job : Half) (key : Nat × Nat) (va : DWord) (l : Loc) (n : Nat) :
    (s.addCount job key va l n).2.accs = s.accs := by
  unfold State.addCount
  split
  · rfl
  · exact placeBytes_accs ..

theorem modCore_accs (s : State) (c : Nat) (f : Core → Core) : (s.modCore c f).accs = s.accs := by
  rw [State.modCore]
  split <;> rfl

/-! ### MATRIX_OP_START (R314 to R316, R320, R406) -/

theorem exec_matrixOpStart (core : Nat) (s : State) : exec (.matrixOpStart core) s = execMatrixOpStart core s := rfl

section
variable {core : Nat} {s : State} {o : EngineOp} {x : Team} {c : Conv} (first : ((s.core core).engine.find? fun o => !o.started) = some o)
include first

/-- The operations of an engine start one by one. -/
theorem matrixOpStart_busy (busy : (s.core core).engine.any (fun e => e.started) = true) : exec (.matrixOpStart core) s = .next s := by
  rw [exec_matrixOpStart]
  simp only [execMatrixOpStart, first, busy, if_true]

variable (idle : (s.core core).engine.any (fun e => e.started) = false) (resident : s.team? o.team = some x)
  (convened : s.conv? o.team o.conv = some c) (answered : o.waiting = false) (whole : c.broken = false) (may : s.opReady x o.op = true)
include idle resident convened answered whole may

theorem matrixOpStart_struck (struck : o.struck = true) :
    exec (.matrixOpStart core) s = .next (s.failOp core o (s.registerCause x)) := by
  rw [exec_matrixOpStart]
  simp only [execMatrixOpStart, first, idle, resident, convened, answered, whole, may, struck, Bool.not_true, Bool.false_eq_true, if_false,
    if_true]

theorem matrixOpStart_begins (sound : o.struck = false) : exec (.matrixOpStart core) s = .next (s.beginOp core x o) := by
  rw [exec_matrixOpStart]
  simp only [execMatrixOpStart, first, idle, resident, convened, answered, whole, may, sound, Bool.not_true, Bool.false_eq_true, if_false]

end

section
variable {core : Nat} {s : State} {o : EngineOp} {x : Team}

theorem beginOp_zero (zero : o.op.op = .accZero) : s.beginOp core x o = s.runOp core o id := by
  simp only [State.beginOp, zero]

/-- mma and mma.sp read their image, where it is sound. -/
theorem beginOp_mma {t off : Nat} (multiplies : o.op.op = .mma ∨ o.op.op = .mmaSp) (place : o.op.place 0 = some (t, off)) :
    s.beginOp core x o =
      if s.locPoisoned (.scr t off) (imageBytes (bits o.op.fields.c.toNat 3 0)) = true then
        s.failOp core o (s.poisonAt o.op.lead.vb (.scr t off))
      else s.runOp core o fun e => { e with image := s.peek (.scr t off) (imageBytes (bits o.op.fields.c.toNat 3 0)) } := by
  have reads : s.beginOp core x o = match s.readTile o.op.lead.vb t off (imageBytes (bits o.op.fields.c.toNat 3 0)) with
      | .bytes b => s.runOp core o fun o => { o with image := b }
      | g => s.opStops core x o g := by
    rcases multiplies with op | op
    · simp only [State.beginOp, op, place] <;> rfl
    · simp only [State.beginOp, op, place] <;> rfl
  rw [reads]
  by_cases poison : s.locPoisoned (.scr t off) (imageBytes (bits o.op.fields.c.toNat 3 0)) = true
  · simp only [State.readTile, if_pos poison]
    rfl
  · simp only [State.readTile, if_neg poison]

theorem beginOp_load {rows : List (List Nat)} (loads : o.op.op = .accLd) (read : s.accLoads x o (List.range o.op.rows) = .ok rows) :
    s.beginOp core x o = ((s.takeAnswers o.key).rekeySpans x.ctx (if accInScratch o.op.fields then [] else
      (List.range o.op.rows).map fun r => (o.op.rowVa r, accRowBytes (accMemFmt o.op.fields)))).runOp core o
        fun o => { o with rows := rows } := by
  simp only [State.beginOp, loads, read]

/-- The saturation count has been added to its word, where it has one. -/
def State.withCount (s : State) (job : Half) (key : Nat × Nat) (va : DWord) (sats : Nat) (sat : Option Loc) : State :=
  match sat with
  | some l => (s.addCount job key va l sats).2
  | none => s

/-- acc.st and acc.add make the writes of their rows, and add the saturation count where it has a word (R320). -/
theorem beginOp_writes {ps : List PutPiece} {sats : Nat} {sat : Option Loc} (writes : o.op.op = .accSt ∨ o.op.op = .accAdd)
    (plan : s.accPlan x o.op = .ok (ps, sats)) (count : s.satPlace x o.op = .ok sat) :
    s.beginOp core x o =
      ((s.runOp core o id).putAll (s.job x.ctx) o.key ps).2.withCount (s.job x.ctx) o.key o.op.lead.vb1 sats sat := by
  rcases writes with op | op
  · simp only [State.beginOp, op, plan, count]
    rfl
  · simp only [State.beginOp, op, plan, count]
    rfl

/-- Until it completes, an operation changes no accumulator. -/
theorem beginOp_writes_accs {ps : List PutPiece} {sats : Nat} {sat : Option Loc} (writes : o.op.op = .accSt ∨ o.op.op = .accAdd)
    (plan : s.accPlan x o.op = .ok (ps, sats)) (count : s.satPlace x o.op = .ok sat) : (s.beginOp core x o).accs = s.accs := by
  have put : ((s.runOp core o id).putAll (s.job x.ctx) o.key ps).2.accs = s.accs := (putAll_accs ..).trans (modCore_accs ..)
  rw [beginOp_writes writes plan count]
  cases sat with
  | none => exact put
  | some l => exact (addCount_accs ..).trans put

end

/-! ### An operation takes effect (R313, R320, R385) -/

section
variable {s : State} {o : EngineOp} {x : Team} {c : Conv}

theorem finishOp_broken (convened : s.conv? o.team o.conv = some c) (broken : c.broken = true) : s.finishOp o = s := by
  simp [State.finishOp, convened, broken]

/-- In a whole convocation the operation applies to the team's accumulator store and to nothing else. -/
theorem finishOp_whole (resident : s.team? o.team = some x) (convened : s.conv? o.team o.conv = some c) (whole : c.broken = false) :
    (s.finishOp o).team? o.team = some { x with acc := o.apply x.acc } ∧ { s.finishOp o with teams := s.teams } = s := by
  have applies : s.finishOp o = s.modTeam o.team fun x => { x with acc := o.apply x.acc } := by
    simp [State.finishOp, convened, whole]
  rw [applies]
  exact ⟨team?_modTeam_same (fun x => { x with acc := o.apply x.acc }) (fun _ same => same) resident, rfl⟩

theorem apply_zero (op : o.op.op = .accZero) (a : SMap 32) :
    o.apply a = regionMap a o.op.kind o.op.tile o.op.rows fun _ _ _ => 0 := by simp only [EngineOp.apply, op]

theorem apply_mma (op : o.op.op = .mma ∨ o.op.op = .mmaSp) (a : SMap 32) : o.apply a =
    mmaRegion a o.op.kind o.op.tile (modeOf (bits o.op.fields.f.toNat 1 0)) o.op.fields.m.toNat (bits o.op.fields.c.toNat 3 0)
      (o.op.parts.filterMap Part.frag) o.image := by
  rcases op with op | op
  · simp only [EngineOp.apply, op]
  · simp only [EngineOp.apply, op]

theorem apply_load (op : o.op.op = .accLd) (a : SMap 32) :
    o.apply a = regionMap a o.op.kind o.op.tile o.op.rows fun r n _ => (o.rows.getD r []).getD n 0 := by
  simp only [EngineOp.apply, op]

theorem apply_writes (op : o.op.op = .accSt ∨ o.op.op = .accAdd) (a : SMap 32) : o.apply a = a := by
  rcases op with op | op
  · simp only [EngineOp.apply, op]
  · simp only [EngineOp.apply, op]

end

/-- Settles O44: the start by its operation, the effect on the store, and the region that takes it. -/
theorem engineOperationResults : Obligations.EngineOperationResults := by
  refine ⟨?_, ?_, regionIs_regionMap, regionIs_mmaRegion⟩
  · intro core s o x c i m n begun first
    refine ⟨matrixOpStart_busy first, fun idle resident convened answered whole may => ?_⟩
    have begins := matrixOpStart_begins first idle resident convened answered whole may
    refine ⟨matrixOpStart_struck first idle resident convened answered whole may, fun sound zero => ?_,
      fun t off sound multiplies place => ⟨fun clean => ?_, fun poison => ?_⟩, fun rows sound loads read => ?_,
      fun ps sats sat sound writes plan count => ?_⟩
    · rw [begins sound, beginOp_zero zero]
      rfl
    · rw [begins sound, beginOp_mma multiplies place, if_neg (Bool.eq_false_iff.mp clean)]
      rfl
    · rw [begins sound, beginOp_mma multiplies place, if_pos poison]
    · rw [begins sound, beginOp_load loads read]
      rfl
    · have own : s.team? x.uid = some x := by rw [team?_uid resident]; exact resident
      refine ⟨s.beginOp core x o, begins sound, ?_, beginOp_writes writes plan count⟩
      rw [acc_of_accs (beginOp_writes_accs writes plan count), own]
      rfl
  · intro s o x c m becomes resident convened
    refine ⟨fun broken => ?_, fun whole => ?_⟩
    · have unchanged := finishOp_broken convened broken
      exact ⟨(team?_congr (congrArg State.teams unchanged) _).trans resident, by rw [unchanged]⟩
    · have effect : becomes (o.apply x.acc) := finishOp_whole resident convened whole
      exact ⟨fun op => apply_zero op x.acc ▸ effect, fun op => apply_mma op x.acc ▸ effect, fun op => apply_load op x.acc ▸ effect,
        fun op => apply_writes op x.acc ▸ effect⟩

end Sys2Proof.Machine
end

section
namespace Sys2Proof.Machine

/-! ### The order of magnitudes (R311) -/

/-- A sign as a factor. -/
def signOf (neg : Bool) : ℚ := if neg then -1 else 1

theorem signOf_not (neg : Bool) : signOf (!neg) = -signOf neg := by cases neg <;> simp [signOf]

theorem cast_signed (neg : Bool) (x : Int) : ((if neg then -x else x : Int) : ℚ) = signOf neg * x := by cases neg <;> simp [signOf]

/-- A finite value as a rational number. -/
def finValue (neg : Bool) (m : Nat) (e : Int) : ℚ := signOf neg * (m * 2 ^ e)

/-- Where a value stands among magnitudes: infinities beyond the finite values, a NaN above all. -/
def FVal.rank : FVal → ℤ ×ₗ ℚ
  | .nan => toLex (2, 0)
  | .inf neg => toLex (if neg then -1 else 1, 0)
  | .fin neg m e => toLex (0, finValue neg m e)

theorem shifted_up (m : Nat) {e k : Int} (le : k ≤ e) : ((m : ℚ) * 2 ^ (e - k).toNat) * 2 ^ k = m * 2 ^ e := by
  rw [mul_assoc, ← zpow_natCast, Int.toNat_of_nonneg (by omega), ← zpow_add₀ (by norm_num)]
  congr 2
  omega

/-- The exact sum of a value and another's negative, at the scale that it is taken at, is their difference. -/
theorem sumExact_eq (s : Bool) (m : Nat) (e : Int) (t : Bool) (n : Nat) (f : Int) :
    ((sumExact s m e (!t) n f).1 : ℚ) * 2 ^ (min e f) = finValue s m e - finValue t n f := by
  simp only [sumExact, Int.cast_add, cast_signed, signOf_not, finValue, ← shifted_up m (min_le_left e f),
    ← shifted_up n (min_le_right e f)]
  push_cast
  ring

theorem sumExact_neg_iff (s : Bool) (m : Nat) (e : Int) (t : Bool) (n : Nat) (f : Int) :
    (sumExact s m e (!t) n f).1 < 0 ↔ finValue s m e < finValue t n f := by
  have scale : (0 : ℚ) < 2 ^ (min e f) := zpow_pos (by norm_num) _
  rw [← sub_neg (a := finValue s m e), ← sumExact_eq, ← zero_mul (2 ^ (min e f) : ℚ), mul_lt_mul_iff_left₀ scale]
  exact Int.cast_lt_zero.symm

theorem lt_iff_rank {a b : FVal} (notNan : a.isNan = false) (notNan' : b.isNan = false) : a.lt b = true ↔ a.rank < b.rank := by
  cases a with
  | nan => cases notNan
  | inf s =>
    cases b with
    | nan => cases notNan'
    | inf t => cases s <;> cases t <;> simp [FVal.lt, FVal.rank, Prod.Lex.toLex_lt_toLex]
    | fin t n f => cases s <;> simp [FVal.lt, FVal.rank, Prod.Lex.toLex_lt_toLex]
  | fin s m e =>
    cases b with
    | nan => cases notNan'
    | inf t => cases t <;> simp [FVal.lt, FVal.rank, Prod.Lex.toLex_lt_toLex]
    | fin t n f => simp [FVal.lt, FVal.rank, Prod.Lex.toLex_lt_toLex, sumExact_neg_iff]

theorem rank_lt_nan {a : FVal} (notNan : a.isNan = false) : a.rank < FVal.nan.rank := by
  cases a with
  | nan => cases notNan
  | inf s => cases s <;> simp [FVal.rank, Prod.Lex.toLex_lt_toLex]
  | fin s m e => simp [FVal.rank, Prod.Lex.toLex_lt_toLex]

theorem eq_nan_of_isNan {a : FVal} (h : a.isNan = true) : a = .nan := by
  cases a with
  | nan => rfl
  | inf s => cases h
  | fin s m e => cases h

theorem rank_le_nan (a : FVal) : a.rank ≤ FVal.nan.rank := by
  cases h : a.isNan with
  | true => rw [eq_nan_of_isNan h]
  | false => exact (rank_lt_nan h).le

/-- The order of magnitudes is that of the ranks. -/
theorem magBelow_iff (a b : FVal) : magBelow a b = true ↔ a.rank < b.rank := by
  unfold magBelow
  cases ha : a.isNan with
  | true => simp [eq_nan_of_isNan ha, rank_le_nan]
  | false =>
    cases hb : b.isNan with
    | true => simp [eq_nan_of_isNan hb, rank_lt_nan ha]
    | false => simpa using lt_iff_rank ha hb

theorem magBelow_eq_false_iff (a b : FVal) : magBelow a b = false ↔ b.rank ≤ a.rank := by
  rw [← Bool.not_eq_true, magBelow_iff, not_lt]

/-! ### Positions by magnitude (R311) -/

/-- The order that byMag sorts positions by: the magnitude at `i` is greater, or equal at a lower place. -/
def magOrder (l : List FVal) (i j : Nat) : Bool :=
  !(magBelow (l.getD i .nan) (l.getD j .nan)) && (magBelow (l.getD j .nan) (l.getD i .nan) || decide (i ≤ j))

theorem magOrder_iff (l : List FVal) (i j : Nat) : magOrder l i j = true ↔
    (l.getD j .nan).rank < (l.getD i .nan).rank ∨ ((l.getD j .nan).rank = (l.getD i .nan).rank ∧ i ≤ j) := by
  simp only [magOrder, Bool.and_eq_true, Bool.not_eq_true', magBelow_eq_false_iff, Bool.or_eq_true, magBelow_iff, decide_eq_true_eq]
  constructor
  · rintro ⟨le, lt | first⟩
    · exact .inl lt
    · exact le.lt_or_eq.imp_right fun same => ⟨same, first⟩
  · rintro (lt | ⟨same, first⟩)
    · exact ⟨lt.le, .inl lt⟩
    · exact ⟨same.le, .inr first⟩

theorem magOrder_trans (l : List FVal) (a b c : Nat) (ab : magOrder l a b = true) (bc : magOrder l b c = true) :
    magOrder l a c = true := by
  rw [magOrder_iff] at *
  rcases ab with ab | ⟨ab, le⟩
  · exact .inl (lt_of_le_of_lt (bc.elim le_of_lt fun same => same.1.le) ab)
  · rcases bc with bc | ⟨bc, le'⟩
    · exact .inl (ab ▸ bc)
    · exact .inr ⟨bc.trans ab, le.trans le'⟩

theorem magOrder_total (l : List FVal) (a b : Nat) : (magOrder l a b || magOrder l b a) = true := by
  simp only [Bool.or_eq_true, magOrder_iff]
  rcases lt_trichotomy (l.getD a .nan).rank (l.getD b .nan).rank with lt | same | gt
  · exact .inr (.inl lt)
  · exact (Nat.le_total a b).imp (fun le => .inr ⟨same.symm, le⟩) fun le => .inr ⟨same, le⟩
  · exact .inl (.inl gt)

theorem byMag_perm (l : List FVal) : (byMag l).Perm (List.range l.length) := List.mergeSort_perm ..

theorem byMag_nodup (l : List FVal) : (byMag l).Nodup := (byMag_perm l).nodup_iff.mpr List.nodup_range

theorem byMag_sorted (l : List FVal) : (byMag l).Pairwise fun i j => magOrder l i j = true :=
  List.pairwise_mergeSort (magOrder_trans l) (magOrder_total l) _

theorem mem_byMag {l : List FVal} {p : Nat} : p ∈ byMag l ↔ p < l.length := by rw [(byMag_perm l).mem_iff, List.mem_range]

/-- The `n` positions of largest magnitude. -/
def largest (n : Nat) (l : List FVal) : List Nat := (byMag l).take n

theorem largest_nodup (n : Nat) (l : List FVal) : (largest n l).Nodup := (byMag_nodup l).sublist (List.take_sublist ..)

theorem length_largest {n : Nat} {l : List FVal} (few : n ≤ l.length) : (largest n l).length = n := by
  rw [largest, List.length_take, (byMag_perm l).length_eq, List.length_range, Nat.min_eq_left few]

theorem lt_of_mem_largest {n : Nat} {l : List FVal} {p : Nat} (mem : p ∈ largest n l) : p < l.length :=
  mem_byMag.mp (List.mem_of_mem_take mem)

/-- No position left out exceeds one of them, or equals it from a lower place. -/
theorem largest_spec {n : Nat} {l : List FVal} {p q : Nat} (kept : p ∈ largest n l) (inside : q < l.length) (left : q ∉ largest n l) :
    magBelow (l.getD p .nan) (l.getD q .nan) = false ∧ (magBelow (l.getD q .nan) (l.getD p .nan) = true ∨ p < q) := by
  have parts : q ∈ (byMag l).take n ++ (byMag l).drop n := by rw [List.take_append_drop]; exact mem_byMag.mpr inside
  have later := (List.mem_append.mp parts).resolve_left left
  have sorted := byMag_sorted l
  rw [← List.take_append_drop n (byMag l), List.pairwise_append] at sorted
  have ne : p ≠ q := fun same => left (same ▸ kept)
  rw [magBelow_eq_false_iff, magBelow_iff]
  rcases (magOrder_iff l p q).mp (sorted.2.2 p kept q later) with lt | ⟨same, le⟩
  · exact ⟨lt.le, .inl lt⟩
  · exact ⟨same.le, .inr (Nat.lt_of_le_of_ne le ne)⟩

/-! ### prune keeps the positions of largest magnitude (R311) -/

/-- The magnitudes of a group of `m` positions. -/
def groupMags (m : Nat) (mags : List FVal) (g : Nat) : List FVal := (mags.drop (g * m)).take m

/-- The positions that prune keeps in a group, in rising order. -/
def keptIn (m n : Nat) (mags : List FVal) (g : Nat) : List Nat :=
  ((largest n (groupMags m mags g)).mergeSort (· ≤ ·)).map fun p => g * m + p

theorem keepLane_eq (m n : Nat) (mags : List FVal) : keepLane m n mags = (List.range (mags.length / m)).flatMap (keptIn m n mags) := rfl

section
variable {m n g : Nat} {mags : List FVal}

theorem group_inside (inside : g < mags.length / m) : g * m + m ≤ mags.length := by
  calc g * m + m = (g + 1) * m := (Nat.succ_mul g m).symm
    _ ≤ mags.length / m * m := Nat.mul_le_mul_right m inside
    _ ≤ mags.length := Nat.div_mul_le_self ..

theorem length_groupMags (inside : g < mags.length / m) : (groupMags m mags g).length = m := by
  have := group_inside inside
  rw [groupMags, List.length_take, List.length_drop]
  omega

theorem groupMags_getD {p : Nat} (within : p < m) : (groupMags m mags g).getD p .nan = mags.getD (g * m + p) .nan := by
  simp [groupMags, List.getD_eq_getElem?_getD, within]

theorem mem_keptIn {x : Nat} : x ∈ keptIn m n mags g ↔ ∃ p ∈ largest n (groupMags m mags g), g * m + p = x := by
  simp [keptIn]

theorem keptIn_rising (m n g : Nat) (mags : List FVal) : (keptIn m n mags g).Pairwise (· < ·) := by
  have perm := List.mergeSort_perm (largest n (groupMags m mags g)) (· ≤ ·)
  have sorted : ((largest n (groupMags m mags g)).mergeSort (· ≤ ·)).Pairwise (· ≤ ·) := List.pairwise_mergeSort' _ _
  have distinct := perm.nodup_iff.mpr (largest_nodup n _)
  rw [keptIn, List.pairwise_map]
  exact (sorted.and distinct).imp fun ⟨le, ne⟩ => Nat.add_lt_add_left (Nat.lt_of_le_of_ne le ne) _

theorem lt_of_mem_keptIn {x : Nat} (inside : g < mags.length / m) (mem : x ∈ keptIn m n mags g) : x < g * m + m := by
  obtain ⟨p, kept, rfl⟩ := mem_keptIn.mp mem
  have := lt_of_mem_largest kept
  rw [length_groupMags inside] at this
  omega

theorem div_of_mem_keptIn {x : Nat} (inside : g < mags.length / m) (mem : x ∈ keptIn m n mags g) : x / m = g := by
  have below := lt_of_mem_keptIn inside mem
  obtain ⟨p, -, rfl⟩ := mem_keptIn.mp mem
  exact Nat.div_eq_of_lt_le (Nat.le_add_right ..) (by rw [Nat.succ_mul]; exact below)

theorem mem_keepLane_iff {x : Nat} (inside : g < mags.length / m) :
    x ∈ keepLane m n mags ∧ x / m = g ↔ x ∈ keptIn m n mags g := by
  rw [keepLane_eq, List.mem_flatMap]
  constructor
  · rintro ⟨⟨g', listed, mem⟩, own⟩
    rw [div_of_mem_keptIn (List.mem_range.mp listed) mem] at own
    exact own ▸ mem
  · exact fun mem => ⟨⟨g, List.mem_range.mpr inside, mem⟩, div_of_mem_keptIn inside mem⟩

theorem keepLane_rising (m n : Nat) (mags : List FVal) : (keepLane m n mags).Pairwise (· < ·) := by
  rw [keepLane_eq, List.pairwise_flatMap]
  refine ⟨fun g _ => keptIn_rising m n g mags, List.pairwise_lt_range.imp_of_mem fun {g g'} listed _ lt x mem y mem' => ?_⟩
  obtain ⟨p, -, rfl⟩ := mem_keptIn.mp mem'
  calc x < g * m + m := lt_of_mem_keptIn (List.mem_range.mp listed) mem
    _ = (g + 1) * m := (Nat.succ_mul g m).symm
    _ ≤ g' * m := Nat.mul_le_mul_right m lt
    _ ≤ g' * m + p := Nat.le_add_right ..

/-- In each group that prune takes `n` of, it keeps `n`. -/
theorem length_keepLane_group (few : n ≤ m) (inside : g < mags.length / m) :
    ((keepLane m n mags).filter fun p => p / m = g).length = n := by
  have distinct : ((keepLane m n mags).filter fun p => p / m = g).Nodup :=
    ((keepLane_rising m n mags).imp Nat.ne_of_lt).sublist List.filter_sublist
  have same := (List.perm_ext_iff_of_nodup distinct ((keptIn_rising m n g mags).imp Nat.ne_of_lt)).mpr fun x => by
    rw [List.mem_filter, decide_eq_true_eq, mem_keepLane_iff inside]
  rw [same.length_eq, keptIn, List.length_map, List.length_mergeSort, length_largest (by rwa [length_groupMags inside])]

theorem keepsLargest_keepLane (few : n ≤ m) (pos : 0 < m) : Claims.KeepsLargest m n mags (keepLane m n mags) := by
  refine ⟨keepLane_rising m n mags, fun x mem => ?_, fun g inside =>
    ⟨length_keepLane_group few inside, fun x mem own y own' left => ?_⟩⟩
  · rw [keepLane_eq, List.mem_flatMap] at mem
    obtain ⟨g, listed, mem⟩ := mem
    exact Nat.lt_of_lt_of_le (lt_of_mem_keptIn (List.mem_range.mp listed) mem) (group_inside (List.mem_range.mp listed))
  · obtain ⟨p, kept, rfl⟩ := mem_keptIn.mp ((mem_keepLane_iff inside).mp ⟨mem, own⟩)
    have place : g * m + y % m = y := by rw [← own', Nat.mul_comm, Nat.div_add_mod]
    have within : y % m < m := Nat.mod_lt y pos
    have out : y % m ∉ largest n (groupMags m mags g) := fun kept =>
      left ((mem_keepLane_iff inside).mpr (mem_keptIn.mpr ⟨y % m, kept, place⟩)).1
    have spec := largest_spec kept (by rwa [length_groupMags inside]) out
    have below := lt_of_mem_largest kept
    rw [length_groupMags inside] at below
    rw [groupMags_getD below, groupMags_getD within, place] at spec
    exact ⟨spec.1, spec.2.imp_right fun lt => by rw [← place]; exact Nat.add_lt_add_left lt _⟩

end

end Sys2Proof.Machine
end

section
namespace Sys2Proof.Machine

/-! ### The registers that prune writes (R306, R308, R311) -/

theorem length_wordsOf (n : Nat) (b : List Byte) : (wordsOf n b).length = n := by simp [wordsOf]

theorem length_keptBy (t : Bool) (m n : Nat) {mags : List (List FVal)} (lanes : mags.length = 32) : (keptBy t m n mags).length = 32 := by
  cases t <;> simp [keptBy, lanes]

/-- Each lane's packed registers are as many as R308 says. -/
theorem length_pruneFrag_lane (t : Bool) (fmt : BitVec 4) (n : Nat) (mc : BitVec 2) {regs : List (List Word)}
    (lanes : regs.length = 32) {lane : Nat} (inside : lane < 32) :
    ((pruneFrag t fmt n mc regs).1.getD lane []).length = packedRegs fmt n mc := by
  have kept (mags : List (List FVal)) (same : mags.length = 32) : lane < (keptBy t (groupOf mc) n mags).length := by
    rw [length_keptBy t _ n same]; exact inside
  have scale (x : Word) : (if isMx fmt then [x] else []).length = if isMx fmt then 1 else 0 := by split <;> rfl
  simp [pruneFrag, packedRegs, List.getD_eq_getElem?_getD, inside, length_wordsOf, packP, packQ, lanes, kept, scale, Nat.add_assoc]

theorem length_pruneFrag (t : Bool) (fmt : BitVec 4) (n : Nat) (mc : BitVec 2) (regs : List (List Word)) :
    (pruneFrag t fmt n mc regs).1.length = 32 := by simp [pruneFrag]

/-- The words of one lane, in consecutive registers. -/
def Group.setRow (h : Group) (r lane : Nat) (row : List (Word × Nat)) : Group := row.foldl (fun h w => h.setLreg (r + w.2) lane w.1) h

theorem setRow_rest (h : Group) (r lane : Nat) (row : List (Word × Nat)) (v : SMap 32) :
    { h.setRow r lane row with v := v } = { h with v := v } := by
  induction row generalizing h with
  | nil => rfl
  | cons w row ih => exact ih (h.setLreg (r + w.2) lane w.1)

theorem setRow_wf {h : Group} (wf : SMap.wf h.v = true) (r lane : Nat) (row : List (Word × Nat)) :
    SMap.wf (h.setRow r lane row).v = true := by
  induction row generalizing h with
  | nil => exact wf
  | cons w row ih => exact ih (h := h.setLreg (r + w.2) lane w.1) (SMap.wf_set _ _ _ wf)

theorem lreg_setRow {h : Group} (wf : SMap.wf h.v = true) (d i : Nat) (row : List Word) {lane l : Nat}
    (inside : lane < 32) (inside' : l < 32) (r : Nat) : (h.setRow d lane (row.zipIdx i)).lreg r l =
      if l = lane ∧ d + i ≤ r ∧ r < d + i + row.length then row.getD (r - (d + i)) 0 else h.lreg r l := by
  induction row generalizing h i with
  | nil =>
    rw [if_neg (by simp only [List.length_nil]; omega)]
    rfl
  | cons w row ih =>
    rw [List.zipIdx_cons]
    refine (ih (h := h.setLreg (d + i) lane w) (SMap.wf_set _ _ _ wf) (i + 1)).trans ?_
    rw [lreg_setLreg _ _ _ _ _ _ wf inside inside', List.length_cons]
    by_cases first : r = d + i ∧ l = lane
    · obtain ⟨rfl, rfl⟩ := first
      rw [if_neg (by omega), if_pos ⟨rfl, rfl⟩, if_pos (by omega), Nat.sub_self, List.getD_cons_zero]
    · rw [if_neg first]
      by_cases later : l = lane ∧ d + (i + 1) ≤ r ∧ r < d + (i + 1) + row.length
      · rw [if_pos later, if_pos (by omega), show r - (d + i) = r - (d + (i + 1)) + 1 by omega, List.getD_cons_succ]
      · rw [if_neg later, if_neg (by omega)]

/-- The words of lanes, each lane's in the same registers. -/
def Group.setRows (h : Group) (r : Nat) (rows : List (List Word × Nat)) : Group := rows.foldl (fun h l => h.setRow r l.2 l.1.zipIdx) h

theorem setRows_rest (h : Group) (r : Nat) (rows : List (List Word × Nat)) (v : SMap 32) :
    { h.setRows r rows with v := v } = { h with v := v } := by
  induction rows generalizing h with
  | nil => rfl
  | cons l rows ih => exact (ih (h.setRow r l.2 l.1.zipIdx)).trans (setRow_rest h r l.2 l.1.zipIdx v)

theorem lreg_setRows {h : Group} (wf : SMap.wf h.v = true) (d i : Nat) (rows : List (List Word)) (lanes : i + rows.length ≤ 32)
    (r : Nat) {l : Nat} (inside : l < 32) : (h.setRows d (rows.zipIdx i)).lreg r l =
      if i ≤ l ∧ l < i + rows.length ∧ d ≤ r ∧ r < d + (rows.getD (l - i) []).length then (rows.getD (l - i) []).getD (r - d) 0
      else h.lreg r l := by
  induction rows generalizing h i with
  | nil =>
    rw [if_neg (by simp only [List.length_nil]; omega)]
    rfl
  | cons row rows ih =>
    rw [List.length_cons] at lanes ⊢
    rw [List.zipIdx_cons]
    refine (ih (h := h.setRow d i row.zipIdx) (setRow_wf wf ..) (i + 1) (by omega)).trans ?_
    rw [lreg_setRow wf d 0 row (by omega) inside, Nat.add_zero]
    by_cases first : l = i
    · subst first
      rw [if_neg (by omega), Nat.sub_self, List.getD_cons_zero]
      simp
    · by_cases later : i < l
      · rw [show l - i = l - (i + 1) + 1 by omega, List.getD_cons_succ]
        simp only [first, false_and, if_false]
        congr 1
        simp only [eq_iff_iff]
        omega
      · rw [if_neg (by omega), if_neg (by omega), if_neg (by omega)]

theorem pruneGroup_eq (t : Bool) (k : Here) (h : Group) :
    let out := pruneFrag t k.f.m (bits k.f.c.toNat 4 0) (k.f.c.extractLsb' 5 2) (k.laneRegs k.f.a.toNat (denseRegs k.f.m))
    pruneGroup t k h = (h.setRows k.f.d.toNat out.1.zipIdx).setG k.f.b.toNat out.2 := rfl

theorem pruneGroup_key (t : Bool) (k : Here) (h : Group) : (pruneGroup t k h).team = h.team ∧ (pruneGroup t k h).gid = h.gid := by
  rw [pruneGroup_eq, setG_team, setG_gid]
  have rest := setRows_rest h k.f.d.toNat
    (pruneFrag t k.f.m (bits k.f.c.toNat 4 0) (k.f.c.extractLsb' 5 2) (k.laneRegs k.f.a.toNat (denseRegs k.f.m))).1.zipIdx h.v
  exact ⟨(congrArg Group.team rest :), (congrArg Group.gid rest :)⟩

theorem pruneGroup_rest (t : Bool) (k : Here) (h : Group) : { pruneGroup t k h with v := h.v, g := h.g } = h := by
  rw [pruneGroup_eq]
  have rest := setRows_rest h k.f.d.toNat
    (pruneFrag t k.f.m (bits k.f.c.toNat 4 0) (k.f.c.extractLsb' 5 2) (k.laneRegs k.f.a.toNat (denseRegs k.f.m))).1.zipIdx h.v
  unfold Group.setG
  split
  · exact (congrArg (fun x : Group => { x with g := h.g }) rest :)
  · exact (congrArg (fun x : Group => { x with g := h.g }) rest :)

section
variable (t : Bool) {k : Here} {h : Group} (tidy : h.tidy = true)
include tidy

theorem greg_pruneGroup (r : Nat) : (pruneGroup t k h).greg r = if r = k.f.b.toNat ∧ r ≠ 0 then
    (pruneFrag t k.f.m (bits k.f.c.toNat 4 0) (k.f.c.extractLsb' 5 2) (k.laneRegs k.f.a.toNat (denseRegs k.f.m))).2 else h.greg r := by
  have same : ((h.setRows k.f.d.toNat (pruneFrag t k.f.m (bits k.f.c.toNat 4 0) (k.f.c.extractLsb' 5 2)
      (k.laneRegs k.f.a.toNat (denseRegs k.f.m))).1.zipIdx).g) = h.g := (congrArg Group.g (setRows_rest h _ _ h.v) :)
  rw [pruneGroup_eq, greg_setG _ _ _ _ (by rw [same]; exact (tidy_parts tidy).2.1)]
  by_cases dest : r = k.f.b.toNat
  · subst dest
    simp only [true_and, Group.greg, same]
  · rw [if_neg fun both => dest both.1, if_neg fun both => dest both.1]
    simp only [Group.greg, same]

theorem lreg_pruneGroup (r : Nat) {lane : Nat} (inside : lane < 32) : (pruneGroup t k h).lreg r lane =
    if k.f.d.toNat ≤ r ∧ r < k.f.d.toNat + packedRegs k.f.m (bits k.f.c.toNat 4 0) (k.f.c.extractLsb' 5 2) then
      ((pruneFrag t k.f.m (bits k.f.c.toNat 4 0) (k.f.c.extractLsb' 5 2) (k.laneRegs k.f.a.toNat (denseRegs k.f.m))).1.getD lane []).getD
        (r - k.f.d.toNat) 0
    else h.lreg r lane := by
  have rows := lreg_setRows (tidy_parts tidy).1 k.f.d.toNat 0 (pruneFrag t k.f.m (bits k.f.c.toNat 4 0) (k.f.c.extractLsb' 5 2)
    (k.laneRegs k.f.a.toNat (denseRegs k.f.m))).1 (by rw [length_pruneFrag]) r inside
  rw [Nat.sub_zero, length_pruneFrag_lane t _ _ _ (by simp [Here.laneRegs]) inside, length_pruneFrag] at rows
  have same : (pruneGroup t k h).lreg r lane = (h.setRows k.f.d.toNat (pruneFrag t k.f.m (bits k.f.c.toNat 4 0) (k.f.c.extractLsb' 5 2)
    (k.laneRegs k.f.a.toNat (denseRegs k.f.m))).1.zipIdx).lreg r lane := by rw [pruneGroup_eq, Group.lreg, setG_v]; rfl
  rw [same, rows]
  simp [inside]

end

theorem exec_prune (t : Bool) (l : Long) (s : State) : exec (if t then .pruneT l else .prune l) s =
    issueWith (if t then .pruneT l else .prune l) s pruneCause fun k s1 => .next (s1.modGroup k.team.uid k.grp.gid (pruneGroup t k)) := by
  cases t <;> rfl

theorem pruneCause_none {k : Here} (full : k.sp.lanes = BitVec.allOnes 32)
    (named : pruneArgsOk k.f.m (bits k.f.c.toNat 4 0) (k.f.c.extractLsb' 5 2) = true) : pruneCause k = none := by
  simp [pruneCause, full, named, lowerCause]

theorem ready_prune {t : Bool} {l : Long} {s : State} {k : Here} (ready : s.ready (if t then .pruneT l else .prune l) = some k) :
    k.f = l := by
  cases t with
  | false => exact ready_fields ready rfl
  | true => exact ready_fields ready rfl

theorem prune_results (t : Bool) (l : Long) (s : State) (k : Here) :
    let i := if t then Instr.pruneT l else Instr.prune l
    let n := bits l.c.toNat 4 0
    let mc := l.c.extractLsb' 5 2
    s.ready i = some k → k.grp.tidy = true → k.sp.lanes = BitVec.allOnes 32 → pruneArgsOk l.m n mc = true →
    let out := pruneFrag t l.m n mc (k.laneRegs l.a.toNat (denseRegs l.m))
    ∃ s' h, exec i s = .next s' ∧ OnlyGroup s s' k h ∧ { h with v := k.grp.v, g := k.grp.g } = k.issued i ∧
      (∀ r, h.greg r = if r = l.b.toNat ∧ r ≠ 0 then out.2 else k.grp.greg r) ∧
      ∀ r lane, lane < 32 → h.lreg r lane =
        if l.d.toNat ≤ r ∧ r < l.d.toNat + packedRegs l.m n mc then (out.1.getD lane []).getD (r - l.d.toNat) 0
        else k.grp.lreg r lane := by
  intro i n mc ready tidy full named out
  obtain rfl : k.f = l := ready_prune ready
  have run := (exec_prune t k.f s).trans (issueWith_ready pruneCause _ ready (pruneCause_none full named))
  obtain ⟨s', ends, only⟩ := issueRegs_ready (pruneGroup t) ready (pruneGroup_key t k)
  exact ⟨s', _, run.trans ends, only, pruneGroup_rest t k (k.issued i), greg_pruneGroup t (h := k.issued i) tidy,
    fun r lane inside => lreg_pruneGroup t (h := k.issued i) tidy r inside⟩

/-- Settles O43: the registers that take what PRUNE gives, and the positions that it keeps. -/
theorem pruneResults : Obligations.PruneResults :=
  ⟨prune_results, fun _ _ _ pos few _ => keepsLargest_keepLane few pos⟩

end Sys2Proof.Machine
end

section
/-!
Collectives: the lemmas of the family on chunk packets, plans and completion, and the statements that they settle.
-/
namespace Sys2Proof.Machine

/-! ### CANON's tree and RSH (R339, R341) -/

/-- The lowest bit set in `x` is bit `j`. -/
def LowestBit (x j : Nat) : Prop := x % 2 ^ (j + 1) = 2 ^ j

theorem lowestBit_iff {x j : Nat} : LowestBit x j ↔ x % 2 ^ (j + 1) ≠ 0 ∧ x % 2 ^ j = 0 := by
  have pos : 0 < 2 ^ j := Nat.two_pow_pos j
  have low : x % 2 ^ j < 2 ^ j := Nat.mod_lt _ pos
  rw [LowestBit, Nat.mod_pow_succ]
  rcases Nat.mod_two_eq_zero_or_one (x / 2 ^ j) with bit | bit <;> rw [bit] <;> omega

theorem LowestBit.add_iff {r j : Nat} : LowestBit (r + 2 ^ j) j ↔ r % 2 ^ (j + 1) = 0 := by
  have small : 2 ^ j < 2 ^ (j + 1) := Nat.pow_lt_pow_right (by decide) (Nat.lt_succ_self j)
  constructor
  · intro lowest
    refine Nat.ModEq.add_right_cancel' (2 ^ j) (b := 0) ?_
    rw [Nat.ModEq, lowest, Nat.zero_add, Nat.mod_eq_of_lt small]
  · intro even
    rw [LowestBit, Nat.add_mod, even, Nat.zero_add, Nat.mod_mod, Nat.mod_eq_of_lt small]

theorem canonParent_eq_some {x r : Nat} : canonParent x = some r ↔ ∃ j < 10, LowestBit x j ∧ r + 2 ^ j = x := by
  unfold canonParent
  constructor
  · intro parent
    split at parent
    · cases parent
    obtain ⟨j, first, rfl⟩ := Option.map_eq_some_iff.mp parent
    obtain ⟨set, bound, unset⟩ := List.find?_range_eq_some.mp first
    have clear : x % 2 ^ j = 0 := by
      cases j with
      | zero => exact Nat.mod_one x
      | succ i => simpa using unset i (Nat.lt_succ_self i)
    have lowest : LowestBit x j := lowestBit_iff.mpr ⟨by simpa using set, clear⟩
    exact ⟨j, by simpa using bound, lowest, Nat.sub_add_cancel (lowest ▸ Nat.mod_le ..)⟩
  · rintro ⟨j, bound, lowest, rfl⟩
    obtain ⟨set, clear⟩ := lowestBit_iff.mp lowest
    rw [if_neg (by have := Nat.two_pow_pos j; omega), List.find?_range_eq_some.mpr ⟨by simpa using set, by simpa using bound,
      fun i less => ?_⟩]
    · simp
    · have divides : 2 ^ (i + 1) ∣ r + 2 ^ j := (Nat.pow_dvd_pow 2 less).trans (Nat.dvd_of_mod_eq_zero clear)
      simpa using Nat.mod_eq_zero_of_dvd divides

theorem mem_canonChildren {p r x : Nat} : x ∈ canonChildren p r ↔ x < p ∧ ∃ j < 10, LowestBit x j ∧ r + 2 ^ j = x := by
  simp only [canonChildren, List.mem_map, List.mem_filter, List.mem_range, Bool.and_eq_true, decide_eq_true_eq]
  constructor
  · rintro ⟨j, ⟨bound, even, inside⟩, rfl⟩
    exact ⟨inside, j, bound, LowestBit.add_iff.mpr even, rfl⟩
  · rintro ⟨inside, j, bound, lowest, rfl⟩
    exact ⟨j, ⟨bound, LowestBit.add_iff.mp lowest, inside⟩, rfl⟩

/-- R339: a rank adds exactly the sums of the ranks that send theirs to it. -/
theorem canonParent_iff_mem_canonChildren {p r x : Nat} (inside : x < p) : canonParent x = some r ↔ x ∈ canonChildren p r := by
  rw [canonParent_eq_some, mem_canonChildren, and_iff_right inside]

theorem rsh_nearest (v : Int) (d : Nat) :
    2 * |rsh v d * 2 ^ d - v| ≤ 2 ^ d ∧ (2 * |rsh v d * 2 ^ d - v| = 2 ^ d → rsh v d % 2 = 0) := by
  have pos : (0 : Int) < 2 ^ d := by positivity
  have low : 0 ≤ v - v / 2 ^ d * 2 ^ d := by linarith [Int.ediv_mul_le v pos.ne']
  have high : v - v / 2 ^ d * 2 ^ d < 2 ^ d := by linarith [Int.lt_ediv_add_one_mul_self v pos]
  have down : |v / 2 ^ d * 2 ^ d - v| = v - v / 2 ^ d * 2 ^ d := by rw [abs_sub_comm, abs_of_nonneg low]
  have up : |(v / 2 ^ d + 1) * 2 ^ d - v| = 2 ^ d - (v - v / 2 ^ d * 2 ^ d) := by
    rw [abs_of_nonneg (by linarith)]
    ring
  unfold rsh
  dsimp only
  split_ifs with less more even
  · rw [down]; omega
  · rw [up]; omega
  · rw [down]; omega
  · rw [up]; omega

end Sys2Proof.Machine
end

section
namespace Sys2Proof.Machine

/-! ### A chunk packet that arrives (R325, R327, R332, R413, R415 to R417) -/

theorem exec_chunk {row : (Chunk → Instr) × Nat} (listed : row ∈ Claims.chunkTable) (p : Chunk) (s : State) :
    exec (row.1 p) s = .next (s.arrive row.2 p) := by
  simp only [Claims.chunkTable, List.mem_cons, List.not_mem_nil, or_false] at listed
  rcases listed with rfl | rfl | rfl | rfl <;> rfl

section
variable {s : State} {kind : Nat} {p : Chunk}

theorem arrive_refused (stranger : s.ctxOf p.job = none) : s.arrive kind p = s.refuse p.source.toNat p.tag := by
  simp only [State.arrive, stranger]

section
variable {x : Ctx} (known : s.ctxOf p.job = some x)
include known

theorem arrive_accepted {c : Coll} (found : s.collOf p = some c) :
    s.arrive kind p = (s.respond none p.source.toNat p.tag (.data [])).acceptChunk c kind p := by
  have found' : (s.respond none p.source.toNat p.tag (.data [])).collOf p = some c := found
  simp only [State.arrive, known, found']

theorem arrive_past (absent : s.collOf p = none) (past : s.collPast p = true) : s.arrive kind p = s := by
  have absent' : (s.respond none p.source.toNat p.tag (.data [])).collOf p = none := absent
  have past' : (s.respond none p.source.toNat p.tag (.data [])).collPast p = true := past
  simp only [State.arrive, known, absent', past', if_true]

theorem arrive_early (absent : s.collOf p = none) (ahead : s.collPast p = false) : s.arrive kind p =
    let s1 := s.respond none p.source.toNat p.tag (.data [])
    if (kind, p) ∈ s.fabric.early then s1 else { s1 with fabric := { s1.fabric with early := s1.fabric.early ++ [(kind, p)] } } := by
  have absent' : (s.respond none p.source.toNat p.tag (.data [])).collOf p = none := absent
  have ahead' : (s.respond none p.source.toNat p.tag (.data [])).collPast p = false := ahead
  have same : (s.respond none p.source.toNat p.tag (.data [])).fabric.early = s.fabric.early := rfl
  simp only [State.arrive, known, absent', ahead', same, Bool.false_eq_true, if_false, List.contains_iff_mem]

end

section
variable {c : Coll}

theorem acceptChunk_over (ended : c.failing ≠ none ∨ (c.stage = 3 ∧ kind ≠ 0)) :
    s.acceptChunk c kind p = s.creditChunk c c.map p := by
  refine if_pos ?_
  simpa [← Option.isSome_iff_ne_none] using ended

theorem acceptChunk_going (sound : c.failing = none) (passes : c.stage = 3 → kind = 0) :
    let mark := (p.chunk.toNat, p.stepNo.toNat, p.fromRank.toNat)
    s.acceptChunk c kind p =
      if mark ∈ c.seen then (if ∃ e ∈ c.inbox, e.2 = p then s else s.creditChunk c c.map p)
      else if p.poison = true then s.failColl c.uid 2
      else if c.fits kind p = false then s.failColl c.uid 5
      else (s.modColl c.uid fun c => { c with
        inbox := c.inbox ++ [(kind, p)], seen := c.seen ++ [mark],
        deadline := s.devclk.toNat + s.collTimeout }).workChunk c.uid p.chunk.toNat 8 := by
  have going : ¬(c.failing.isSome || (c.stage = 3 && kind ≠ 0)) = true := by
    simpa [sound] using passes
  simp only [State.acceptChunk, if_neg going, List.contains_iff_mem, List.any_eq_true, decide_eq_true_eq, Bool.not_eq_true']

end

end

theorem chunkPacket_results {row : (Chunk → Instr) × Nat} (listed : row ∈ Claims.chunkTable) (p : Chunk) (s : State) :
    let src := p.source.toNat
    let s1 := s.respond none src p.tag (.data [])
    let mark := (p.chunk.toNat, p.stepNo.toNat, p.fromRank.toNat)
    (s.ctxOf p.job = none → exec (row.1 p) s = .next (s.refuse src p.tag)) ∧
    ∀ x, s.ctxOf p.job = some x →
      (s.collOf p = none → s.collPast p = true → exec (row.1 p) s = .next s) ∧
      (s.collOf p = none → s.collPast p = false → (row.2, p) ∉ s.fabric.early →
        exec (row.1 p) s = .next { s1 with fabric := { s1.fabric with early := s1.fabric.early ++ [(row.2, p)] } }) ∧
      (s.collOf p = none → s.collPast p = false → (row.2, p) ∈ s.fabric.early → exec (row.1 p) s = .next s1) ∧
      ∀ c, s.collOf p = some c →
        (c.failing ≠ none ∨ (c.stage = 3 ∧ row.2 ≠ 0) → exec (row.1 p) s = .next (s1.creditChunk c c.map p)) ∧
        (c.failing = none → (c.stage = 3 → row.2 = 0) →
          (mark ∈ c.seen → (∃ e ∈ c.inbox, e.2 = p) → exec (row.1 p) s = .next s1) ∧
          (mark ∈ c.seen → (∀ e ∈ c.inbox, e.2 ≠ p) → exec (row.1 p) s = .next (s1.creditChunk c c.map p)) ∧
          (mark ∉ c.seen → p.poison = true → exec (row.1 p) s = .next (s1.failColl c.uid 2)) ∧
          (mark ∉ c.seen → p.poison = false → c.fits row.2 p = false → exec (row.1 p) s = .next (s1.failColl c.uid 5)) ∧
          (mark ∉ c.seen → p.poison = false → c.fits row.2 p = true → exec (row.1 p) s = .next
            ((s1.modColl c.uid fun c => { c with
              inbox := c.inbox ++ [(row.2, p)], seen := c.seen ++ [mark],
              deadline := s.devclk.toNat + s.collTimeout }).workChunk c.uid p.chunk.toNat 8))) := by
  intro src s1 mark
  have run := exec_chunk listed p s
  refine ⟨fun stranger => run.trans (congrArg _ (arrive_refused stranger)), fun x known => ⟨fun absent past => ?_,
    fun absent ahead new => ?_, fun absent ahead old => ?_, fun c found => ⟨fun ended => ?_, fun sound passes => ?_⟩⟩⟩
  · exact run.trans (congrArg _ (arrive_past known absent past))
  · exact run.trans (congrArg _ ((arrive_early known absent ahead).trans (if_neg new)))
  · exact run.trans (congrArg _ ((arrive_early known absent ahead).trans (if_pos old)))
  · exact run.trans (congrArg _ ((arrive_accepted known found).trans (acceptChunk_over ended)))
  · rw [run, arrive_accepted known found, acceptChunk_going sound passes]
    refine ⟨fun seen waits => ?_, fun seen acted => ?_, fun new bad => ?_, fun new good misfit => ?_, fun new good fits => ?_⟩
    · rw [if_pos seen, if_pos waits]
    · rw [if_pos seen, if_neg fun ⟨e, mem, same⟩ => acted e mem same]
    · rw [if_neg new, if_pos bad]
    · rw [if_neg new, if_neg (by simp [good]), if_pos misfit]
    · rw [if_neg new, if_neg (by simp [good]), if_neg (by simp [fits])]
      rfl

end Sys2Proof.Machine
end
section
namespace Sys2Proof.Machine

/-! ### The steps of a chunk (R327, R335, R337 to R341) -/

theorem coll?_uid {s : State} {u : Nat} {c : Coll} (found : s.coll? u = some c) : c.uid = u := by
  simpa using List.find?_some found

@[simp] theorem modColl_id (s : State) (u : Nat) : s.modColl u id = s := by
  simp [State.modColl]

theorem canWork_iff {c : Coll} {k : Nat} : c.canWork k = true ↔ c.stalled = false ∧ c.failing = none ∧
    c.next k ≠ .none ∧ (c.stage = 0 ∨ ∃ e r, c.next k = .pass e r) := by
  unfold Coll.canWork
  cases c.next k <;> simp [and_assoc]

theorem collMap_of_read {s : State} {c : Coll} (read : c.map ≠ []) : s.collMap c = .ok (c.map, s) := if_pos read

section
variable {s : State} {u k : Nat} {c : Coll} (found : s.coll? u = some c)
include found

theorem workChunk_stops (cannot : ¬c.canWork k = true) (n : Nat) : s.workChunk u k (n + 1) = s := by
  rw [State.workChunk, found]
  exact if_pos (by simpa using cannot)

theorem workChunk_goes (can : c.canWork k = true) (read : c.map ≠ []) (n : Nat) :
    s.workChunk u k (n + 1) = (s.stepChunk c c.map k).workChunk u k n := by
  rw [State.workChunk, found]
  simp only [can, collMap_of_read read, Bool.not_true, Bool.false_eq_true, if_false]

end

/-- The sum of a chunk that this rank makes of its own contribution and of the sums that have come. -/
def Coll.totalOf (c : Coll) (k : Nat) (own : List Int) (l : List (Nat × Chunk)) : List Int :=
  l.foldl (fun a e => c.addData a (c.ofPayload e.1 e.2.payload)) (if c.mxSum then ownSum ((c.scales k).getD []) own else own)

/-- The largest scale codes of its own contribution and of those that have come. -/
def Coll.maxOf (c : Coll) (own : List Int) (l : List (Nat × Chunk)) : List Int :=
  l.foldl (fun a e => List.zipWith max a (c.ofPayload e.1 e.2.payload)) (scaleCodes own)

section
variable {s s1 s2 : State} {c : Coll} {map : List Nat} {k : Nat} {e : Nat × Chunk} {l : List (Nat × Chunk)} {own : List Int}
  {children : List Nat}

theorem stepChunk_pass_last (step : c.next k = .pass e none) : s.stepChunk c map k = s.consume c map e := by
  simp only [State.stepChunk, step, State.passOn, List.foldl_cons, List.foldl_nil, modColl_id]

theorem stepChunk_pass_on {r : Nat} (step : c.next k = .pass e (some r)) : s.stepChunk c map k =
    (s.sendPacket c map 0 r (s.packetOf c e.2.chunk.toNat e.2.stepNo.toNat e.2.xw e.2.payload)).consume c map e := by
  simp only [State.stepChunk, step, State.passOn, List.foldl_cons, List.foldl_nil, modColl_id]

theorem stepChunk_write (step : c.next k = .write e) (written : s.writeFinal c k (c.ofPayload e.1 e.2.payload) = .ok s1) :
    s.stepChunk c map k = s1.consume c map e := by
  simp only [State.stepChunk, step, written, List.foldl_cons, List.foldl_nil, modColl_id]

theorem stepChunk_scalesDown (step : c.next k = .scalesDown e children) : s.stepChunk c map k =
    ((s.consume c map e).modColl c.uid fun x => x.learn k (c.ofPayload e.1 e.2.payload)).sendAll c map k 3 1
      (c.ofPayload e.1 e.2.payload) children := by
  simp only [State.stepChunk, step, List.foldl_cons, List.foldl_nil]

section
variable (read : s.contribution c k = .ok (own, s1))
include read

theorem stepChunk_share (step : c.next k = .share) (written : s1.writeFinal c k own = .ok s2) : s.stepChunk c map k =
    (s2.sendAll c map k 2 3 own (c.others k)).modColl c.uid fun c => { c with sent := k :: c.sent } := by
  simp only [State.stepChunk, step, read, written]

theorem stepChunk_sum_sent {r : Nat} (step : c.next k = .sum l (some r)) : s.stepChunk c map k =
    ((l.foldl (fun s e => s.consume c map e) s1).modColl c.uid fun c => { c with sent := k :: c.sent }).sendAll c map k 1 2
      (c.totalOf k own l) [r] := by
  simp only [State.stepChunk, step, read, Coll.totalOf]

theorem stepChunk_sum_written (step : c.next k = .sum l none) (written : s1.writeFinal c k (c.totalOf k own l) = .ok s2) :
    s.stepChunk c map k =
      ((l.foldl (fun s e => s.consume c map e) s2).modColl c.uid fun c => { c with sent := k :: c.sent }).sendAll c map k 2 3
        (c.totalOf k own l) (c.others k) := by
  rw [Coll.totalOf] at written ⊢
  simp only [State.stepChunk, step, read, written]

theorem stepChunk_scalesUp_sent {r : Nat} (step : c.next k = .scalesUp l (some r) children) : s.stepChunk c map k =
    ((l.foldl (fun s e => s.consume c map e) s1).modColl c.uid fun c => { c with scaled := k :: c.scaled }).sendAll c map k 3 0
      (c.maxOf own l) [r] := by
  simp only [State.stepChunk, step, read, Coll.maxOf]

theorem stepChunk_scalesUp_root (step : c.next k = .scalesUp l none children) : s.stepChunk c map k =
    (((l.foldl (fun s e => s.consume c map e) s1).modColl c.uid fun c => { c with scaled := k :: c.scaled }).sendAll c map k 3 1
      (c.maxOf own l) children).modColl c.uid fun x => x.learn k (c.maxOf own l) := by
  simp only [State.stepChunk, step, read, Coll.maxOf]

end

theorem writeFinal_new {va : DWord} {ps : List PutPiece} {d : List Int} (new : c.finals.contains k = false)
    (place : c.dstVa k = some va) (planned : s.putPlan c.ctx va (c.finalBytes d).1 = .ok ps) : s.writeFinal c k d =
      .ok ((s.putAll (s.job c.ctx) c.key ps).2.modColl c.uid fun x => { x with
        finals := k :: x.finals, sats := x.sats + (c.finalBytes d).2 }) := by
  simp only [State.writeFinal, place, new, planned, Bool.false_eq_true, if_false]

end

/-- A step of a chunk that can go on, and what it leaves. -/
theorem workChunk_step {s t : State} {u k : Nat} {c : Coll} (found : s.coll? u = some c) (awake : c.stalled = false)
    (sound : c.failing = none) (read : c.map ≠ []) (acts : c.next k ≠ .none)
    (allowed : c.stage = 0 ∨ ∃ e r, c.next k = .pass e r) (step : s.stepChunk c c.map k = t) (n : Nat) :
    s.workChunk u k (n + 1) = t.workChunk u k n := by
  rw [workChunk_goes found (canWork_iff.mpr ⟨awake, sound, acts, allowed⟩) read, step]

/-- What each next step of a chunk does. -/
theorem chunkStep_results {u k n : Nat} {s : State} {c : Coll} (found : s.coll? u = some c) (awake : c.stalled = false)
    (sound : c.failing = none) (read : c.map ≠ []) :
    let ints (e : Nat × Chunk) : List Int := c.ofPayload e.1 e.2.payload
    let took (s : State) (l : List (Nat × Chunk)) : State := l.foldl (fun s e => s.consume c c.map e) s
    let goes (t : State) : Prop := s.workChunk u k (n + 1) = t.workChunk u k n
    let sends (t : State) : State := t.modColl u fun c => { c with sent := k :: c.sent }
    (c.next k = .none → s.workChunk u k (n + 1) = s) ∧
    (c.stage ≠ 0 → (∀ e r, c.next k ≠ .pass e r) → s.workChunk u k (n + 1) = s) ∧
    (∀ e, c.next k = .pass e none → goes (took s [e])) ∧
    (∀ e r, c.next k = .pass e (some r) → goes (took
      (s.sendPacket c c.map 0 r (s.packetOf c e.2.chunk.toNat e.2.stepNo.toNat e.2.xw e.2.payload)) [e])) ∧
    (c.stage = 0 →
      (∀ e s1, c.next k = .write e → s.writeFinal c k (ints e) = .ok s1 → goes (took s1 [e])) ∧
      (∀ own s1 s2, c.next k = .share → s.contribution c k = .ok (own, s1) → s1.writeFinal c k own = .ok s2 →
        goes (sends (s2.sendAll c c.map k 2 3 own (c.others k)))) ∧
      (∀ l st own s1, c.next k = .sum l st → s.contribution c k = .ok (own, s1) →
        (∀ r, st = some r → goes ((sends (took s1 l)).sendAll c c.map k 1 2 (c.totalOf k own l) [r])) ∧
        ∀ s2, st = none → s1.writeFinal c k (c.totalOf k own l) = .ok s2 →
          goes ((sends (took s2 l)).sendAll c c.map k 2 3 (c.totalOf k own l) (c.others k))) ∧
      (∀ l st children own s1, c.next k = .scalesUp l st children → s.contribution c k = .ok (own, s1) →
        let s2 := (took s1 l).modColl u fun c => { c with scaled := k :: c.scaled }
        (∀ r, st = some r → goes (s2.sendAll c c.map k 3 0 (c.maxOf own l) [r])) ∧
        (st = none → goes ((s2.sendAll c c.map k 3 1 (c.maxOf own l) children).modColl u fun x => x.learn k (c.maxOf own l)))) ∧
      ∀ e children, c.next k = .scalesDown e children →
        goes (((took s [e]).modColl u fun c => c.learn k (ints e)).sendAll c c.map k 3 1 (ints e) children)) := by
  obtain rfl := coll?_uid found
  intro ints took goes sends
  have passes {e : Nat × Chunk} {r : Option Nat} {t : State} (step : c.next k = .pass e r) (ends : s.stepChunk c c.map k = t) : goes t :=
    workChunk_step found awake sound read (step.trans_ne nofun) (.inr ⟨e, r, step⟩) ends n
  refine ⟨fun rest => workChunk_stops found (fun can => ?_) n, fun past other => workChunk_stops found (fun can => ?_) n,
    fun e step => passes step (stepChunk_pass_last step), fun e r step => passes step (stepChunk_pass_on step), fun stage => ?_⟩
  · obtain ⟨-, -, acts, -⟩ := canWork_iff.mp can
    exact acts rest
  · obtain ⟨-, -, -, stage | ⟨e, r, pass⟩⟩ := canWork_iff.mp can
    · exact past stage
    · exact other e r pass
  have acts {x : ChunkStep} {t : State} (step : c.next k = x) (real : x ≠ .none) (ends : s.stepChunk c c.map k = t) : goes t :=
    workChunk_step found awake sound read (step.trans_ne real) (.inl stage) ends n
  refine ⟨fun e s1 step written => acts step nofun (stepChunk_write step written),
    fun own s1 s2 step own' written => acts step nofun (stepChunk_share own' step written), fun l st own s1 step own' => ⟨?_, ?_⟩,
    fun l st children own s1 step own' => ⟨?_, ?_⟩, fun e children step => acts step nofun (stepChunk_scalesDown step)⟩
  · rintro r rfl
    exact acts step nofun (stepChunk_sum_sent own' step)
  · rintro s2 rfl written
    exact acts step nofun (stepChunk_sum_written own' step written)
  · rintro r rfl
    exact acts step nofun (stepChunk_scalesUp_sent own' step)
  · rintro rfl
    exact acts step nofun (stepChunk_scalesUp_root own' step)

/-! ### Two collectives of one number

What the statement says of packets, of the steps of a chunk, of CANON's tree and of RSH holds (`chunkPacket_results`,
`chunkStep_results`, `canonParent_iff_mem_canonChildren`, `rsh_nearest`). Its clause on FINAL's data turns on two collectives in
flight with one number: the model counts the saturations of the data as the chunk's own collective writes them (`writeFinal_new`),
and the statement's `fun c => { c with sats := c.sats + (c.finalBytes d).2 … }` names by `c` the collective being updated. -/

/-- An all-reduce of two ranks over one MXINT8 block, into the first bytes of the page at 1 GiB. -/
def blockSum : Coll :=
  {
    uid := 9, ctx := 0, grid := 0, gridId := 0, op := 0, desc := [0, 0x40000000, 32, 0x80010000, 0, 0, 0, 0], seq := 0, map := [0, 5],
    deadline := 0, planning := [], plan := [], seen := [], inbox := [], kept := [], scaled := [], sent := [], finals := [], smax := [],
    sats := 0, stage := 0, failing := none, stalled := false }

/-- One of 64-bit integers, which counts no saturation. -/
def integerSum : Coll := { blockSum with desc := [0, 0x40000000, 32, 0x60010000, 0, 0, 0, 0] }

/-- A context whose second GiB is the host's memory: a table that the walk meets at three levels. -/
def hostPage : Ctx :=
  {
    id := 0, root := 0x1000, job := 0, keys := [], srseed := 0, ctxclk := 0, gridCount := 0, phase := .active, saveArea := 0,
    deadline := 0, stopped := [], savedGrids := [], tlb := [] }

def twoSums : State :=
  { State.reset with
    ctxs := [hostPage], colls := [blockSum, integerSum], host := { State.reset.host with linkUp := true }
    storage := { State.reset.storage with
      mem := SMap.setRun [] 0x1000 (leBytes 8 0x1001 ++ leBytes 8 0x00200000000001C3) } }

/-- Sums under the largest scale code, of which the first saturates. -/
def saturatingBlock : List Int := 200 :: List.replicate 31 0 ++ [254]

/-- The saturations that the collectives in flight have counted after a write. -/
def satsWritten : Except State State → List Nat
  | .ok s => s.colls.map Coll.sats
  | .error _ => []

theorem satsWritten_writeFinal : satsWritten (twoSums.writeFinal blockSum 0 saturatingBlock) = [1, 1] := by decide +kernel

theorem putPlan_saturatingBlock : twoSums.putPlan 0 0x40000000 (blockSum.finalBytes saturatingBlock).1 =
    .ok [⟨0x40000000, .host 0, (blockSum.finalBytes saturatingBlock).1⟩] := by decide +kernel

/-- Refutes O54: the data of a chunk of one collective saturate while another collective in flight has the same number and counts no
saturation; the statement's next state counts for the other what the data would be under its own descriptor, and the model one. -/
theorem not_chunkPacketResults : ¬ Obligations.ChunkPacketResults := by
  unfold Obligations.ChunkPacketResults
  rintro ⟨-, -, final, -⟩
  have written := final blockSum 0 0x40000000 twoSums _ saturatingBlock rfl rfl putPlan_saturatingBlock
  exact absurd ((congrArg satsWritten written).symm.trans satsWritten_writeFinal) (by decide +kernel)

end Sys2Proof.Machine
end

section
namespace Sys2Proof.Machine

/-! ### The payload of a plan packet (R337) -/

theorem leNat_leBytes (n x : Nat) : leNat (leBytes n x) = x % 256 ^ n := by
  induction n generalizing x with
  | zero => simp [leBytes, leNat, Nat.mod_one]
  | succ n ih =>
    rw [leBytes, leNat, ih, BitVec.toNat_ofNat, Nat.pow_succ' (m := 256)]
    exact Nat.mod_mul.symm

theorem length_halves (l : List Nat) : (l.flatMap (leBytes 2)).length = 2 * l.length := by
  simp [List.length_flatMap, length_leBytes, Nat.mul_comm]

/-- Two-byte numbers read back in order. -/
theorem leNat_half {l : List Nat} (small : ∀ x ∈ l, x < 65536) {i : Nat} (inside : i < l.length) :
    leNat (((l.flatMap (leBytes 2)).drop (2 * i)).take 2) = l[i] := by
  induction l generalizing i with
  | nil => cases inside
  | cons x l ih =>
    have two : (leBytes 2 x).length = 2 := length_leBytes 2 x
    rw [List.flatMap_cons]
    cases i with
    | zero =>
      rw [Nat.mul_zero, List.drop_zero, List.take_append_of_le_length two.ge, List.take_of_length_le two.le, leNat_leBytes]
      exact Nat.mod_eq_of_lt (small x (List.mem_cons_self ..))
    | succ i =>
      rw [show 2 * (i + 1) = (leBytes 2 x).length + 2 * i by omega, List.drop_length_add_append, List.getElem_cons_succ]
      exact ih (fun y mem => small y (List.mem_cons_of_mem _ mem)) _

theorem planOf_halves {p : Chunk} {x : Nat} {l : List Nat} (payload : p.payload = (x :: l).flatMap (leBytes 2))
    (small : ∀ y ∈ x :: l, y < 65536) : planOf p = ⟨p.chunk.toNat, if x = 0 then none else some (x - 1), l⟩ := by
  have count : p.payload.length / 2 - 1 = l.length := by
    rw [payload, length_halves, Nat.mul_div_cancel_left _ (by decide)]
    rfl
  have head : leNat ((p.payload.drop (2 * 0)).take 2) = x := by
    rw [payload]
    exact leNat_half small (i := 0) (Nat.succ_pos _)
  have rest : (List.range l.length).map (fun i => leNat ((p.payload.drop (2 * (i + 1))).take 2)) = l := by
    refine List.ext_getElem (by simp) fun i _ inside => ?_
    rw [List.getElem_map, List.getElem_range, payload, leNat_half small (Nat.succ_lt_succ inside)]
    rfl
  simp only [planOf, count, rest, head]

theorem planOf_planPayload {p : Chunk} {e : PlanStep} (payload : p.payload = planPayload e) (chunk : p.chunk.toNat = e.first)
    (ranks : ∀ r, r ∈ e.children ∨ e.parent = some r → r < 1024) : planOf p = e := by
  obtain ⟨first, parent, children⟩ := e
  subst chunk
  have children' : ∀ r ∈ children, r < 65536 := fun r child => (ranks r (.inl child)).trans (by decide)
  cases parent with
  | none => exact planOf_halves (x := 0) payload (List.forall_mem_cons.mpr ⟨by decide, children'⟩)
  | some r =>
    have := ranks r (.inr rfl)
    exact planOf_halves (x := r + 1) payload (List.forall_mem_cons.mpr ⟨by omega, children'⟩)

end Sys2Proof.Machine
end

section
namespace Sys2Proof.Machine

/-! ### Plans that agree (R337 to R339) -/

theorem mod_of_lt_two_mul {a p : Nat} (less : a < 2 * p) : a % p = if a < p then a else a - p := by
  split
  · exact Nat.mod_eq_of_lt ‹_›
  · rw [Nat.mod_eq_sub_mod (by omega), Nat.mod_eq_of_lt (by omega)]

theorem turned_eq_iff {p s y r : Nat} (turn : s < p) (seat : y < p) (rank : r < p) : (y + s) % p = r ↔ y = (r + p - s) % p := by
  rw [mod_of_lt_two_mul (by omega), mod_of_lt_two_mul (by omega)]
  split <;> split <;> omega

theorem canonTree_agrees {p s r q : Nat} (turn : s < p) (hr : r < p) (hq : q < p) :
    (canonParent ((r + p - s) % p)).map (fun x => (x + s) % p) = some q ↔
      r ∈ (canonChildren p ((q + p - s) % p)).map fun x => (x + s) % p := by
  have seat : (r + p - s) % p < p := Nat.mod_lt _ (by omega)
  rw [Option.map_eq_some_iff, List.mem_map]
  constructor
  · rintro ⟨y, parent, place⟩
    have inside : y < p := by
      obtain ⟨j, -, -, sum⟩ := canonParent_eq_some.mp parent
      exact (Nat.le.intro sum).trans_lt seat
    refine ⟨_, (canonParent_iff_mem_canonChildren seat).mp ?_, (turned_eq_iff turn seat hr).mpr rfl⟩
    rwa [← (turned_eq_iff turn inside hq).mp place]
  · rintro ⟨y, child, place⟩
    have inside : y < p := (mem_canonChildren.mp child).1
    refine ⟨_, (canonParent_iff_mem_canonChildren seat).mpr ?_, (turned_eq_iff turn (Nat.mod_lt _ (by omega)) hq).mpr rfl⟩
    rwa [← (turned_eq_iff turn inside hr).mp place]

theorem chain_agrees {p s r q : Nat} (turn : s < p) (hr : r < p) (hq : q < p) :
    let v := (r + p - s) % p
    let w := (q + p - s) % p
    (if v + 1 < p then some ((v + 1 + s) % p) else none) = some q ↔ r ∈ (if 0 < w then [(w - 1 + s) % p] else []) := by
  intro v w
  have seatR : v < p := Nat.mod_lt _ (by omega)
  have seatQ : w < p := Nat.mod_lt _ (by omega)
  have next : v + 1 < p → ((v + 1 + s) % p = q ↔ v + 1 = w) := fun inside => turned_eq_iff turn inside hq
  have previous : (w - 1 + s) % p = r ↔ w - 1 = v := turned_eq_iff turn (by omega) hr
  simp only [Option.ite_none_right_eq_some, Option.some.injEq, List.mem_ite_nil_right, List.mem_singleton, eq_comm (a := r), previous]
  constructor
  · rintro ⟨inside, place⟩
    have := (next inside).mp place
    omega
  · rintro ⟨pos, place⟩
    exact ⟨by omega, (next (by omega)).mpr (by omega)⟩

theorem planStepOf_agrees (det : Bool) {p r q : Nat} (pick first : Nat) (hr : r < p) (hq : q < p) :
    (planStepOf det p r pick first).parent = some q ↔ r ∈ (planStepOf det p q pick first).children := by
  have turn : (if det then 0 else pick / 2 % p) < p := by
    split
    · omega
    · exact Nat.mod_lt _ (by omega)
  unfold planStepOf
  dsimp only
  split
  · exact canonTree_agrees turn hr hq
  · exact chain_agrees turn hr hq

end Sys2Proof.Machine
end

section
namespace Sys2Proof.Machine

/-! ### A collective goes on, and ends (R335, R336, R416) -/

theorem coll?_modColl_same {s : State} {u : Nat} {c : Coll} (f : Coll → Coll) (keeps : ∀ x, x.uid = u → (f x).uid = u)
    (found : s.coll? u = some c) : (s.modColl u f).coll? u = some (f c) :=
  (find?_mapKey_same Coll.uid s.colls f keeps).trans (congrArg (Option.map f) found)

theorem exec_chunkCredit {p : Chunk} {s : State} {c : Coll} (found : s.collOf p = some c) :
    exec (.chunkCredit p) s = .next (s.modColl c.uid fun c => { c with
      kept := c.kept.filter fun e => !(e.packet.chunk = p.chunk && e.packet.stepNo = p.stepNo && e.dev = p.source.toNat) }) := by
  change execChunkCredit p s = _
  rw [execChunkCredit, found]

theorem exec_collectiveTimeout {u : Nat} {s : State} {c : Coll} (found : s.coll? u = some c) (stage : c.stage = 0)
    (sound : c.failing = none) (others : 2 ≤ c.ranks) (unfinished : c.whole = false) :
    exec (.collectiveTimeout u) s = .next (if c.deadline ≤ s.devclk.toNat then s.failColl u 4 else s) := by
  change execCollectiveTimeout u s = _
  rw [execCollectiveTimeout, found]
  simp [stage, sound, others, unfinished]

section
variable {u : Nat} {s : State} {c : Coll} (found : s.coll? u = some c) (awake : c.stalled = false)
include found awake

theorem exec_collectiveComplete_failed (failed : c.failing ≠ none) : exec (.collectiveComplete u) s = .next (s.failStep u) := by
  change execCollectiveComplete u s = _
  rw [execCollectiveComplete, found]
  simp only [awake, Option.isSome_iff_ne_none.mpr failed, Bool.false_eq_true, if_false, if_true]

section
variable (sound : c.failing = none) (read : c.map ≠ []) (stage : c.stage = 0)
include sound read stage

theorem exec_collectiveComplete_cut {r : Nat} (unfinished : c.whole = false) (cut : s.cutFrom c c.map = some r) :
    exec (.collectiveComplete u) s = .next (s.cutOff c r) := by
  change execCollectiveComplete u s = _
  rw [execCollectiveComplete, found]
  simp [awake, sound, collMap_of_read read, stage, unfinished, cut]

section
variable (joined : c.whole = true ∨ s.cutFrom c c.map = none)
include joined

/-- With nobody cut off, the first chunk that can goes on; with none, a collective that is whole completes. -/
theorem exec_collectiveComplete_joined : exec (.collectiveComplete u) s =
    .next (((List.range c.chunks).find? c.canWork).elim (if c.whole then s.countColl u else s) fun k => s.workChunk u k 8) := by
  have nobody : (if (c.stage = 0 && !c.whole) = true then s.cutFrom c c.map else none) = none := by
    rcases joined with whole | reached
    · simp [whole]
    · simp [reached]
  change execCollectiveComplete u s = _
  rw [execCollectiveComplete, found]
  simp only [awake, sound, collMap_of_read read, nobody, Option.isSome_none, Bool.false_eq_true, if_false]
  cases (List.range c.chunks).find? c.canWork <;> simp [stage]

theorem exec_collectiveComplete_works {k : Nat} (inside : k < c.chunks) (acts : c.next k ≠ .none)
    (before : ∀ j, j < k → c.next j = .none) : exec (.collectiveComplete u) s = .next (s.workChunk u k 8) := by
  have first : (List.range c.chunks).find? c.canWork = some k := by
    refine List.find?_range_eq_some.mpr ⟨canWork_iff.mpr ⟨awake, sound, acts, .inl stage⟩, List.mem_range.mpr inside,
      fun j less => ?_⟩
    rw [Bool.not_eq_true', ← Bool.not_eq_true, canWork_iff]
    exact fun ⟨_, _, act, _⟩ => act (before j less)
  rw [exec_collectiveComplete_joined found awake sound read stage joined, first, Option.elim_some]

theorem exec_collectiveComplete_idle (idle : ∀ k, k < c.chunks → c.next k = .none) :
    exec (.collectiveComplete u) s = .next (if c.whole then s.countColl u else s) := by
  have first : (List.range c.chunks).find? c.canWork = none := by
    refine List.find?_eq_none.mpr fun k inside can => ?_
    obtain ⟨-, -, acts, -⟩ := canWork_iff.mp can
    exact acts (idle k (List.mem_range.mp inside))
  rw [exec_collectiveComplete_joined found awake sound read stage joined, first, Option.elim_none]

end
end
end

/-! ### The writes at the end (R336) -/

theorem putPlan_modColl (s : State) (u : Nat) (f : Coll → Coll) (ctx : Nat) (va : DWord) (b : List Byte) :
    (s.modColl u f).putPlan ctx va b = s.putPlan ctx va b := by
  have pages (n : Nat) (va : DWord) (b : List Byte) : (s.modColl u f).putPages ctx n va b = s.putPages ctx n va b := by
    induction n generalizing va b with
    | zero => rfl
    | succ n ih =>
      simp only [State.putPages, ih]
      rfl
  exact pages _ va b

theorem isRemote_writeBackAll (s : State) (l : Loc) : s.writeBackAll.isRemote l = s.isRemote l := by
  have up : s.writeBackAll.host.linkUp = s.host.linkUp := (cleanedOnly_writeBackQueue _ _ s).linkUp
  cases l <;> simp only [State.isRemote, up]

/-- Writes at places that this device reaches by itself wait for no answer. -/
theorem putAll_near {s : State} {ps : List PutPiece} (near : ∀ p ∈ ps, s.isRemote p.loc = false) (job : Half) (key : Nat × Nat) :
    (s.putAll job key ps).1 = [] := by
  have far : (ps.filter fun p => s.isRemote p.loc) = [] := List.filter_eq_nil_iff.mpr fun p mem => by simp [near p mem]
  rw [State.putAll, far]
  rfl

section
variable {u : Nat} {s : State} {c : Coll} (found : s.coll? u = some c) (free : s.keyBusy c.key = false)
  {ps : List PutPiece}
include free

theorem putDone_near {tag : DWord} (planned : s.putPlan c.ctx (c.dword 5) (leBytes 8 tag.toNat) = .ok ps)
    (near : ∀ p ∈ ps, s.isRemote p.loc = false) (stage : Nat) (ended : State → State) :
    s.putDone c tag stage ended = ended (s.writeBackAll.putAll (s.job c.ctx) c.key ps).2 := by
  have answered : (s.writeBackAll.putAll (s.job c.ctx) c.key ps).1 = [] :=
    putAll_near (fun p mem => (isRemote_writeBackAll s p.loc).trans (near p mem)) _ _
  simp only [State.putDone, free, planned, answered, Bool.false_eq_true, if_false, if_true]

include found

theorem failStep_near (awake : c.stalled = false) (stage : c.stage < 2)
    (planned : s.putPlan c.ctx (c.dword 5) (leBytes 8 (c.dword 7 ^^^ 0x8000000000000000).toNat) = .ok ps)
    (near : ∀ p ∈ ps, s.isRemote p.loc = false) :
    s.failStep u = (s.writeBackAll.putAll (s.job c.ctx) c.key ps).2.endColl u := by
  have early : ¬c.stage = 2 ∧ ¬c.stage = 3 := by omega
  simp only [State.failStep, found, awake, early.1, early.2, Bool.false_or, decide_false, Bool.false_eq_true, if_false]
  exact putDone_near free planned near _ _

theorem finishColl_near (awake : c.stalled = false) (stage : c.stage = 1)
    (planned : s.putPlan c.ctx (c.dword 5) (leBytes 8 (c.dword 7).toNat) = .ok ps)
    (near : ∀ p ∈ ps, s.isRemote p.loc = false) :
    s.finishColl u = (s.writeBackAll.putAll (s.job c.ctx) c.key ps).2.endColl u := by
  simp only [State.finishColl, found, awake, free, stage, planned, Bool.or_self, Bool.false_eq_true, if_false, if_true]
  exact putDone_near free planned near _ _

section
variable (stage : c.stage = 0) (planned : s.putPlan c.ctx (c.dword 5) (leBytes 8 (c.dword 7).toNat) = .ok ps)
include stage planned

theorem countColl_counted {l : Loc} (counts : c.dword 6 ≠ 0) (place : s.countPlace c.ctx (c.dword 6) = .ok l) : s.countColl u =
    ((s.addCount (s.job c.ctx) c.key (c.dword 6) l c.sats).2.modColl u fun c => { c with stage := 1 }).finishColl u := by
  simp only [State.countColl, found, free, stage, planned, counts, place, ne_eq, not_true_eq_false, Bool.false_eq_true, if_false]

theorem countColl_uncounted (uncounted : c.dword 6 = 0) : s.countColl u = (s.modColl u fun c => { c with stage := 1 }).finishColl u := by
  simp only [State.countColl, found, free, stage, planned, uncounted, ne_eq, not_true_eq_false, Bool.false_eq_true, if_false, if_true]

theorem countColl_near (awake : c.stalled = false) (uncounted : c.dword 6 = 0) (near : ∀ p ∈ ps, s.isRemote p.loc = false) :
    s.countColl u =
      ((s.modColl u fun c => { c with stage := 1 }).writeBackAll.putAll (s.job c.ctx) c.key ps).2.endColl u := by
  rw [countColl_uncounted found free stage planned uncounted]
  have counted := coll?_modColl_same (fun c => { c with stage := 1 }) (fun _ same => same) found
  exact finishColl_near counted free awake rfl ((putPlan_modColl ..).trans planned) near

end
end

theorem collectiveSteps_completion (u : Nat) (s : State) (c : Coll) (found : s.coll? u = some c) :
    let idle := ∀ k, k < c.chunks → c.next k = .none
    (c.stage = 0 → c.failing = none → 2 ≤ c.ranks → c.whole = false →
      (c.deadline ≤ s.devclk.toNat → exec (.collectiveTimeout u) s = .next (s.failColl u 4)) ∧
      (s.devclk.toNat < c.deadline → exec (.collectiveTimeout u) s = .next s)) ∧
    (c.map ≠ [] → c.stalled = false → c.failing = none → c.stage = 0 →
      (∀ r, c.whole = false → s.cutFrom c c.map = some r → exec (.collectiveComplete u) s = .next (s.cutOff c r)) ∧
      (c.whole = true ∨ s.cutFrom c c.map = none →
        (∀ k, k < c.chunks → c.next k ≠ .none → (∀ j, j < k → c.next j = .none) →
          exec (.collectiveComplete u) s = .next (s.workChunk u k 8)) ∧
        (idle → c.whole = false → exec (.collectiveComplete u) s = .next s) ∧
        ∀ ps, idle → c.whole = true → s.keyBusy c.key = false →
          s.putPlan c.ctx (c.dword 5) (leBytes 8 (c.dword 7).toNat) = .ok ps →
          (∀ l, c.dword 6 ≠ 0 → s.countPlace c.ctx (c.dword 6) = .ok l → exec (.collectiveComplete u) s = .next
            (((s.addCount (s.job c.ctx) c.key (c.dword 6) l c.sats).2.modColl u fun c => { c with stage := 1 }).finishColl u)) ∧
          (c.dword 6 = 0 → (∀ p ∈ ps, s.isRemote p.loc = false) → exec (.collectiveComplete u) s = .next
            (((s.modColl u fun c => { c with stage := 1 }).writeBackAll.putAll (s.job c.ctx) c.key ps).2.endColl u)))) ∧
    ∀ ps, c.stalled = false → c.failing ≠ none → c.stage < 2 → s.keyBusy c.key = false →
      s.putPlan c.ctx (c.dword 5) (leBytes 8 (c.dword 7 ^^^ 0x8000000000000000).toNat) = .ok ps →
      (∀ p ∈ ps, s.isRemote p.loc = false) →
      exec (.collectiveComplete u) s = .next ((s.writeBackAll.putAll (s.job c.ctx) c.key ps).2.endColl u) := by
  intro idle
  refine ⟨fun stage sound others unfinished => ⟨fun late => ?_, fun time => ?_⟩, fun read awake sound stage =>
    ⟨fun r unfinished cut => exec_collectiveComplete_cut found awake sound read stage unfinished cut, fun joined =>
      ⟨fun k inside acts before => exec_collectiveComplete_works found awake sound read stage joined inside acts before,
        fun rest unfinished => ?_, fun ps rest whole free planned => ⟨fun l counts place => ?_, fun uncounted near => ?_⟩⟩⟩,
    fun ps awake failed stage free planned near => ?_⟩
  · rw [exec_collectiveTimeout found stage sound others unfinished, if_pos late]
  · rw [exec_collectiveTimeout found stage sound others unfinished, if_neg (Nat.not_le.mpr time)]
  · rw [exec_collectiveComplete_idle found awake sound read stage joined rest, unfinished]
    rfl
  · rw [exec_collectiveComplete_idle found awake sound read stage joined rest, if_pos whole,
      countColl_counted found free stage planned counts place]
  · rw [exec_collectiveComplete_idle found awake sound read stage joined rest, if_pos whole,
      countColl_near found free stage planned awake uncounted near]
  · rw [exec_collectiveComplete_failed found awake failed, failStep_near found free awake stage planned near]

/-! ### Plans made anew, and ranks cut off (R338, R414, R416, R417) -/

theorem replan_open {s : State} {c : Coll} (free : c.det = false) (stage : c.stage = 0) (sound : c.failing = none) (which : Nat → Bool) :
    s.replan c which = s.modColl c.uid fun x => { x with
      planning := x.planning ++ s.planPackets c fun k => decide (k < c.chunks) && which k } :=
  if_neg (by simp [free, stage, sound])

theorem cutFrom_none {s : State} {c : Coll} {map : List Nat} : s.cutFrom c map = none ↔
    ∀ r, r < map.length → r ≠ c.rank → s.reachable (map.getD r 0) = true := by
  simp [State.cutFrom, List.find?_eq_none]

section
variable {s : State} {c : Coll} (found : s.coll? c.uid = some c) (sound : c.failing = none) (port : Nat) (down : Bool)
include found sound

theorem portWorse_cut {r : Nat} (cut : s.cutFrom c c.map = some r) :
    s.portWorse port down c.uid = s.failColl c.uid (if c.det && c.joins r then 3 else 1) := by
  simp only [State.portWorse, found, sound, cut, Option.isSome_none, Bool.false_eq_true, if_false, State.cutOff]

theorem portWorse_joined (joined : s.cutFrom c c.map = none) : s.portWorse port down c.uid =
    (if down then s.resendChunks port c else s).replan c fun k => if down then !c.finished k else !c.begun k := by
  simp only [State.portWorse, found, sound, joined, Option.isSome_none, Bool.false_eq_true, if_false]

end

/-- What every rank picks for some chunks is the same (R337). -/
theorem planAt_eq (s : State) (c : Coll) (first : Nat) : s.planAt c first = planStepOf c.det c.ranks c.rank
    (if c.det then 0 else Config.planPick s.pod (Nat.pair (Nat.pair c.commId.toNat c.seq.toNat) (Nat.pair c.ranks first))) first := rfl

/-- Settles O55: each move of a collective by what it finds, and the plans of the ranks by the turn that all of them make. -/
theorem collectiveSteps : Obligations.CollectiveSteps := by
  refine ⟨fun p s => ⟨fun absent => ?_, fun c found => ?_⟩, fun p e payload chunk ranks => planOf_planPayload payload chunk ranks,
    fun p s c found own => ?_, collectiveSteps_completion,
    fun det p r q pick first hr hq _ => planStepOf_agrees det pick first hr hq,
    fun s s' c c' first pod det ranks comm seq => ⟨_, planAt_eq s c first, ?_⟩,
    fun s c which => ⟨fun det => if_pos (by simp [det]), fun free stage sound => replan_open free stage sound which⟩,
    fun s c port down found sound => ⟨fun r cut => portWorse_cut found sound port down cut, cutFrom_none, fun joined => ?_⟩⟩
  · change execPlan p s = _
    rw [execPlan, absent]
  · change execPlan p s = _
    rw [execPlan, found]
  · exact ⟨_, exec_chunkCredit found, rfl, coll?_modColl_same _ (fun _ same => same) own⟩
  · rw [planAt_eq, ← pod, det, ranks, comm, seq]
  · rw [portWorse_joined found sound port down joined]
    exact ⟨fun isDown => by simp [isDown], fun isUp => by simp [isUp]⟩

end Sys2Proof.Machine
end

section
/-!
Causes at issue and exceptions: what an instruction that its encoding, budget or lookahead forbids does, how a team takes an
exception and how it returns from one.
-/
namespace Sys2Proof.Machine

/-! ### The causes of an instruction's encoding, budget and lookahead (R360, R362, R363, R366) -/

/-- An outcome is the issue of `i` with no causes beside those of its encoding, its budget and its lookahead. -/
def IssuesAlone (i : Instr) (s : State) (o : Host.Outcome State Fault Refusal) : Prop := ∃ body, o = issue i s body

theorem issuesAlone_issue (i : Instr) (s : State) (body : Here → State → Body) : IssuesAlone i s (issue i s body) := ⟨body, rfl⟩

theorem issuesAlone_regs (i : Instr) (s : State) (f : Here → Group → Group) : IssuesAlone i s (issueRegs i s f) :=
  issuesAlone_issue i s _

theorem issuesAlone_lanes (i : Instr) (s : State) (n : Nat) (f : Here → Nat → DWord) : IssuesAlone i s (issueLanes i s n f) :=
  issuesAlone_regs i s _

theorem issuesAlone_group (i : Instr) (s : State) (f : Here → DWord) : IssuesAlone i s (issueGroup i s f) :=
  issuesAlone_regs i s _

theorem issuesAlone_long (i : Instr) (s : State) (n : Nat) (f : Here → Nat → DWord) : IssuesAlone i s (issueLong i s n f) :=
  issuesAlone_issue i s _

/-- A meaning of the lane pipe is such an issue; the cases stand by their shapes. -/
theorem exec_issuesAlone_lanePipe {i : Instr} {f : Long} {fm : Form} (form : i.form = some (true, f, fm)) (s : State) :
    IssuesAlone i s (exec i s) := by
  cases i with
  | nop | icmp | mov | plop | setx | addx | icmpi | setxi | fcmp | bmax | bscale | bquant | bnf | lpred | lred =>
    simp only [exec, execNop, execIcmp, execMov, execPlop, execSetx, execAddx, execIcmpi, execSetxi, execFcmp, execBmax,
      execBscale, execBquant, execBnf, execLpred, execLred]
    exact issuesAlone_regs _ s _
  | iadd | isub | imul | imad | imulhi | imin | imax | iabs | and | or | xor | andn | shl | shr | sar | popc | clz | ctz
  | brev =>
    simp only [exec, execIadd, execIsub, execImul, execImad, execImulhi, execImin, execImax, execIabs, execAnd, execOr,
      execXor, execAndn, execShl, execShr, execSar, execPopc, execClz, execCtz, execBrev, issueInt, issueLogic,
      issueShift, issueCount]
    exact issuesAlone_lanes _ s _ _
  | movi | iaddi | imuli | iandi | iori | ixori | fadd | fsub | fmul | ffma | fmin | fmax | frnd =>
    simp only [exec, execMovi, execIaddi, execImuli, execIandi, execIori, execIxori, execFadd, execFsub, execFmul,
      execFfma, execFmin, execFmax, execFrnd, issueImm, issueFloat]
    exact issuesAlone_lanes _ s _ _
  | fsh | bfx | bfi | perm | lea | sel | icvt | fsgn | fclass | fcvt | f2i | i2f | bdequant | lxch | lscan | lsr =>
    simp only [exec, execFsh, execBfx, execBfi, execPerm, execLea, execSel, execIcvt, execFsgn, execFclass, execFcvt,
      execF2i, execI2f, execBdequant, execLxch, execLscan, execLsr]
    exact issuesAlone_lanes _ s _ _
  | fdiv | fsqrt | frcp | frsq | fexp2 | flog2 | fsin | fcos =>
    simp only [exec, execFdiv, execFsqrt, execFrcp, execFrsq, execFexp2, execFlog2, execFsin, execFcos, issueFloatLong]
    exact issuesAlone_long _ s _ _
  | unpk | ld | st | lds | sts | stm | atom | atoms | red | reds | gath | spawn | done | collPut | collGet | collRed =>
    simp only [exec, execUnpk, execLd, execSt, execLds, execSts, execStm, execAtom, execAtoms, execRed, execReds,
      execGath, execSpawn, execDone, execCollPut, execCollGet, execCollRed]
    exact issuesAlone_issue _ s _
  | _ => cases form

/-- A meaning of the group pipe is one, but for the matrix instructions. -/
theorem exec_issuesAlone_groupPipe {i : Instr} {f : Long} {fm : Form} (form : i.form = some (false, f, fm))
    (plain : Claims.plainIssue i = true) (s : State) : IssuesAlone i s (exec i s) := by
  cases i with
  | conv | convDis | mma | mmaSp | accZero | accLd | accSt | accAdd | mcommit | mwait | prune | pruneT => cases plain
  | gnop | gcmp | gplop | gcmpi =>
    simp only [exec, execGnop, execGcmp, execGplop, execGcmpi]
    exact issuesAlone_regs _ s _
  | gadd | gsub | gmul | gmad | gmin | gmax | gand | gor | gxor | gshl | gshr | gsar =>
    simp only [exec, execGadd, execGsub, execGmul, execGmad, execGmin, execGmax, execGand, execGor, execGxor, execGshl,
      execGshr, execGsar, issueGint, issueGlogic, issueGshift]
    exact issuesAlone_group _ s _
  | gpopc | gclz | gbfx | gbfi | gsel | gmov | gsr | gmovi | gaddi | gandi =>
    simp only [exec, execGpopc, execGclz, execGbfx, execGbfi, execGsel, execGmov, execGsr, execGmovi, execGaddi,
      execGandi]
    exact issuesAlone_group _ s _
  | gsw | br | brx | call | ret | join | exit | trap | gld | gst | gbarInit | gbarArrive | gbarExpect | gbarExpa
  | gbarWait | gbarTry | fence | drain | cpyaB2t | cpyaT2b | cpyaB2b | cpyaFlat | dinv | dinvAll | pub | gcollAr | gcollRs
  | gcollAg =>
    simp only [exec, execGsw, execBr, execBrx, execCall, execRet, execJoin, execExit, execTrap, execGld, execGst,
      execGbarInit, execGbarArrive, execGbarExpect, execGbarExpa, execGbarWait, execGbarTry, execFence, execDrain,
      execCpyaB2t, execCpyaT2b, execCpyaB2b, execCpyaFlat, execDinv, execDinvAll, execPub, execGcollAr, execGcollRs,
      execGcollAg]
    exact issuesAlone_issue _ s _
  | _ => cases form

theorem exec_issuesAlone {i : Instr} {lp : Bool} {f : Long} {fm : Form} (form : i.form = some (lp, f, fm))
    (plain : Claims.plainIssue i = true) (s : State) : IssuesAlone i s (exec i s) := by
  cases lp with
  | true => exact exec_issuesAlone_lanePipe form s
  | false => exact exec_issuesAlone_groupPipe form plain s

/-- An issue that a cause of the encoding, the budget or the lookahead stops raises it and does nothing else. -/
theorem issue_of_issueCause {i : Instr} {s : State} {x : Team} {h : Group} {p : Split} {lp : Bool} {f : Long} {fm : Form}
    {c : BitVec 8} (body : Here → State → Body) (issuing : s.issuing = some (x, h, p)) (form : i.form = some (lp, f, fm))
    (may : mayIssue x h p = true) (waits : windowWaits h p = false) (cause : issueCause i h p lp f fm = some c) :
    issue i s body = .next (s.raise x.uid h.gid (some p.id) c p.pc) := by
  simp [issue, issueWith, issuing, form, may, waits, cause, lowerCause]

/-- Settles O5: a plain instruction issues, and its issue ends at the cause. -/
theorem issueRaisesCause : Obligations.IssueRaisesCause := by
  intro i s x h p lp f fm c issuing form plain may waits cause
  obtain ⟨body, run⟩ := exec_issuesAlone form plain s
  rw [run, issue_of_issueCause body issuing form may waits cause]

end Sys2Proof.Machine
end

section
namespace Sys2Proof.Machine

/-! ### Lookups where all teams, or all groups of a team, have changed -/

theorem team?_map {s u : State} {f : Team → Team} (teams : u.teams = s.teams.map f) (keeps : ∀ x, (f x).uid = x.uid) (t : Nat) :
    u.team? t = (s.team? t).map f := by
  rw [State.team?, teams, List.find?_map]
  simp only [Function.comp_def, keeps]
  rfl

theorem group?_mapTeam {s u : State} {t : Nat} {f : Group → Group}
    (groups : u.groups = s.groups.map fun h => if h.team = t then f h else h)
    (keeps : ∀ h, (f h).team = h.team ∧ (f h).gid = h.gid) (a g : Nat) :
    u.group? a g = (s.group? a g).map fun h => if a = t then f h else h := by
  have sameKey (h : Group) : (if h.team = t then f h else h).team = h.team ∧ (if h.team = t then f h else h).gid = h.gid := by
    split
    · exact keeps h
    · exact ⟨rfl, rfl⟩
  rw [State.group?, groups, List.find?_map]
  simp only [Function.comp_def, sameKey]
  refine Option.map_congr fun h found => ?_
  rw [(group?_key found).1]

/-- What holds of every item once its turn has come, and is kept by the turns of the others, holds of all in the end. -/
theorem foldl_establishes {α : Type} {P : α → State → Prop} {f : State → α → State} (makes : ∀ s a, P a (f s a))
    (keeps : ∀ s a b, P b s → P b (f s a)) (l : List α) (s : State) : ∀ a ∈ l, P a (l.foldl f s) := by
  induction l using List.reverseRecOn with
  | nil => simp
  | append_singleton l b ih =>
    intro a mem
    rw [List.foldl_append]
    obtain before | last := List.mem_append.mp mem
    · exact keeps _ b a (ih a before)
    · rw [List.mem_singleton.mp last]
      exact makes _ b

/-! ### The halt broadcast, and a cause that a group raises (R361, R365) -/

@[simp] theorem haltTeam_storage (s : State) (t : Nat) : (s.haltTeam t).storage = s.storage := by
  unfold State.haltTeam
  split
  · split <;> rfl
  · rfl

theorem haltTeam_team {s : State} {t : Nat} {x : Team} (found : s.team? t = some x) :
    ∃ y, (s.haltTeam t).team? t = some y ∧ y.halted = true := by
  by_cases halted : x.halted = true
  · exact ⟨x, by simp only [State.haltTeam, found, halted, if_true], halted⟩
  · refine ⟨{ x with halted := true, haltAge := 0 }, ?_, rfl⟩
    simp only [State.haltTeam, found, halted]
    exact team?_modTeam_same (fun x => { x with halted := true, haltAge := 0 }) (fun _ same => same) found

theorem haltTeam_group (s : State) {t g : Nat} {h : Group} (found : s.group? t g = some h) :
    ∃ n, (s.haltTeam t).group? t g = some { h with skid := n } := by
  unfold State.haltTeam
  split
  · split
    · exact ⟨h.skid, found⟩
    · refine ⟨0, ?_⟩
      rw [group?_mapTeam (s := s) (t := t) (f := fun h => { h with skid := 0 }) rfl (fun _ => ⟨rfl, rfl⟩), found]
      simp
  · exact ⟨h.skid, found⟩

/-- The halt broadcast with a cause that a group notes: the team is halted, and the group has the cause beside what it had. -/
theorem haltTeam_note {s : State} {t g : Nat} {x : Team} {h : Group} (r : Raised) (team : s.team? t = some x)
    (group : s.group? t g = some h) :
    ∃ y n, ((s.haltTeam t).modGroup t g fun h => h.note r).team? t = some y ∧ y.halted = true ∧
      ((s.haltTeam t).modGroup t g fun h => h.note r).group? t g = some (({ h with skid := n } : Group).note r) := by
  obtain ⟨y, found, halted⟩ := haltTeam_team team
  obtain ⟨n, mine⟩ := haltTeam_group s group
  exact ⟨y, n, found, halted, group?_modGroup_same _ ⟨rfl, rfl⟩ mine⟩

section
variable {t g : Nat} {sp : Option Nat} {code : BitVec 8} {pc : DWord} {s : State} {x : Team} {h : Group}
  (team : s.team? t = some x) (group : s.group? t g = some h) (outside : h.inHandler = false)
include team group outside

theorem raise_outsideHandler : s.raise t g sp code pc = (s.haltTeam t).modGroup t g fun h => h.note ⟨code, sp, false⟩ := by
  simp only [State.raise, team, group, outside, Bool.false_eq_true, if_false]

theorem raise_storage : (s.raise t g sp code pc).storage = s.storage := by
  rw [raise_outsideHandler team group outside, modGroup_storage, haltTeam_storage]

theorem raise_halts : ((s.raise t g sp code pc).team? t).map Team.halted = some true := by
  obtain ⟨y, n, found, halted, -⟩ := haltTeam_note ⟨code, sp, false⟩ team group
  rw [raise_outsideHandler team group outside, found, Option.map_some, halted]

theorem raise_group : ∃ n, (s.raise t g sp code pc).group? t g = some (({ h with skid := n } : Group).note ⟨code, sp, false⟩) := by
  obtain ⟨-, n, -, -, mine⟩ := haltTeam_note ⟨code, sp, false⟩ team group
  exact ⟨n, raise_outsideHandler team group outside ▸ mine⟩

end

/-- R365: 24 cycles or 48 instructions after the halt broadcast nothing more issues, and nothing at all in a split that has raised. -/
theorem mayIssue_halted {x : Team} {h : Group} {p : Split} (halted : x.halted = true) (outside : x.handler = false)
    (past : 24 * 16 < x.haltAge ∨ 48 ≤ (h.skid &&& 0x7F).toNat ∨ p.id ∈ h.raisers) : mayIssue x h p = false := by
  have stops : (decide (x.haltAge ≤ 24 * 16) && decide ((h.skid &&& 0x7F) < 48) && !h.raisers.contains p.id) = false := by
    obtain late | many | raised := past
    · simp [late]
    · rw [decide_eq_false (p := (h.skid &&& 0x7F) < 48) (BitVec.not_lt.mpr (BitVec.le_def.mpr many))]
      simp
    · simp [raised]
  simp only [mayIssue, halted, outside, stops, Bool.false_eq_true, if_false, if_true, Bool.and_false]

theorem count_team? (s : State) (t : Nat) : s.count.team? t =
    (s.team? t).map fun x => if x.halted && !x.handler then { x with haltAge := x.haltAge + s.mgmt.clk.toNat } else x :=
  team?_map rfl (fun x => by split <;> rfl) t

/-! ### Replayable faults (R376 to R378) -/

theorem interrupt_faults (s : State) (b : BitVec 6) : (s.interrupt b).mgmt.faults = s.mgmt.faults := by
  unfold State.interrupt State.raiseMsix
  split <;> rfl

section
variable {β : Type} {part : State → β} (blind : ∀ (s : State) (host : HostSide) (mgmt : Mgmt),
  part { s with host := host, mgmt := mgmt } = part s)
include blind

theorem interrupt_keeps (s : State) (b : BitVec 6) : part (s.interrupt b) = part s := by
  unfold State.interrupt State.raiseMsix
  split
  · exact blind s _ _
  · exact blind s s.host _

theorem flushFaults_keeps (l : List Record) (s : State) : part (State.flushFaults l s) = part s := by
  induction l generalizing s with
  | nil => exact blind s s.host _
  | cons r l ih =>
    unfold State.flushFaults
    split
    · rw [ih, interrupt_keeps blind]
      exact (blind (s.hostWrite _ _) _ _).trans (blind s _ s.mgmt)
    · exact blind s s.host _

/-- What neither the host's side of the link nor the registers of management belong to changes as the cached translations do. -/
theorem faultRecord_keeps (s : State) (ctx : Nat) (va : DWord) (kind why : Nat) (grid team : Word) (j : Joiner) :
    part (s.faultRecord ctx va kind why grid team j) = part (s.forget ctx va) := by
  unfold State.faultRecord
  dsimp only
  split
  · exact blind _ s.host _
  split
  · exact blind _ s.host _
  · exact (flushFaults_keeps blind _ _).trans (blind _ s.host _)

end

theorem flushFaults_faults (l : List Record) (s : State) : (State.flushFaults l s).mgmt.faults = s.mgmt.faults := by
  induction l generalizing s with
  | nil => rfl
  | cons r l ih =>
    unfold State.flushFaults
    split
    · dsimp only
      rw [ih, interrupt_faults]
      rfl
    · rfl

@[simp] theorem faultRecord_storage (s : State) (ctx : Nat) (va : DWord) (kind why : Nat) (grid team : Word) (j : Joiner) :
    (s.faultRecord ctx va kind why grid team j).storage = s.storage :=
  faultRecord_keeps (part := State.storage) (fun _ _ _ => rfl) s ctx va kind why grid team j

@[simp] theorem faultRecord_groups (s : State) (ctx : Nat) (va : DWord) (kind why : Nat) (grid team : Word) (j : Joiner) :
    (s.faultRecord ctx va kind why grid team j).groups = s.groups :=
  faultRecord_keeps (part := State.groups) (fun _ _ _ => rfl) s ctx va kind why grid team j

/-- The accesses that wait for the host's answer on a page (R377). -/
def State.Awaits (s : State) (ctx : Nat) (va : DWord) (j : Joiner) : Prop :=
  ∃ f ∈ s.mgmt.faults, f.ctx = ctx ∧ f.vpn = bits va.toNat 56 12 ∧ j ∈ f.joined

/-- No translation of an address is cached (R378). -/
def State.Uncached (s : State) (ctx : Nat) (va : DWord) : Prop :=
  ∀ y, s.ctx? ctx = some y → ∀ l ∈ y.tlb, l.covers va = false

/-- The records after one more: the joiner is among a record's of the page, and no other record has lost one. -/
theorem faultRecord_faults (s : State) (ctx : Nat) (va : DWord) (kind why : Nat) (grid team : Word) (j : Joiner) :
    (s.faultRecord ctx va kind why grid team j).mgmt.faults =
        (s.mgmt.faults.map fun f => if f.ctx = ctx && f.vpn = bits va.toNat 56 12 && !(f.joined.contains j) then
          { f with joined := f.joined ++ [j] } else f) ∧
        (∃ f ∈ s.mgmt.faults, f.ctx = ctx ∧ f.vpn = bits va.toNat 56 12) ∨
      ∃ n, (s.faultRecord ctx va kind why grid team j).mgmt.faults =
        s.mgmt.faults ++ [{ seq := n, ctx := ctx, vpn := bits va.toNat 56 12, joined := [j] }] := by
  unfold State.faultRecord
  dsimp only
  split
  · rename_i found
    exact .inl ⟨rfl, by simpa [State.forget, State.modCtx] using found⟩
  split
  · exact .inr ⟨noSeq, rfl⟩
  · exact .inr ⟨s.mgmt.faultSeq, flushFaults_faults ..⟩

section
variable {s : State} {ctx : Nat} {va : DWord} (va' : DWord) (kind why : Nat) (grid team : Word) {j : Joiner}

theorem awaits_faultRecord : (s.faultRecord ctx va kind why grid team j).Awaits ctx va j := by
  obtain ⟨faults, f, mem, hctx, hvpn⟩ | ⟨n, faults⟩ := faultRecord_faults s ctx va kind why grid team j
  · refine ⟨_, faults ▸ List.mem_map_of_mem mem, ?_⟩
    by_cases joined : j ∈ f.joined <;> simp [hctx, hvpn, joined]
  · exact ⟨_, faults ▸ List.mem_append_right _ (List.mem_singleton_self _), rfl, rfl, List.mem_singleton_self _⟩

theorem awaits_faultRecord_of_awaits {ctx' : Nat} {j' : Joiner} (waits : s.Awaits ctx va j) :
    (s.faultRecord ctx' va' kind why grid team j').Awaits ctx va j := by
  obtain ⟨f, mem, hctx, hvpn, joined⟩ := waits
  obtain ⟨faults, -⟩ | ⟨n, faults⟩ := faultRecord_faults s ctx' va' kind why grid team j'
  · refine ⟨_, faults ▸ List.mem_map_of_mem mem, ?_⟩
    split
    · exact ⟨hctx, hvpn, List.mem_append_left _ joined⟩
    · exact ⟨hctx, hvpn, joined⟩
  · exact ⟨f, faults ▸ List.mem_append_left _ mem, hctx, hvpn, joined⟩

theorem faultRecord_ctx? (va : DWord) : (s.faultRecord ctx va kind why grid team j).ctx? ctx =
    (s.ctx? ctx).map fun c => { c with tlb := c.tlb.filter fun e => !e.covers va } := by
  have same : (s.faultRecord ctx va kind why grid team j).ctxs = (s.forget ctx va).ctxs :=
    faultRecord_keeps (part := State.ctxs) (fun _ _ _ => rfl) s ctx va kind why grid team j
  rw [State.ctx?, same]
  exact find?_mapKey_same Ctx.id s.ctxs _ fun _ same => same

theorem uncached_faultRecord : (s.faultRecord ctx va kind why grid team j).Uncached ctx va := by
  intro y found l mem
  rw [faultRecord_ctx?, Option.map_eq_some_iff] at found
  obtain ⟨c, -, rfl⟩ := found
  simpa using (List.mem_filter.mp mem).2

theorem uncached_faultRecord_of_uncached (uncached : s.Uncached ctx va) :
    (s.faultRecord ctx va' kind why grid team j).Uncached ctx va := by
  intro y found l mem
  rw [faultRecord_ctx?, Option.map_eq_some_iff] at found
  obtain ⟨c, before, rfl⟩ := found
  exact uncached c before l (List.mem_filter.mp mem).1

end

section
variable (s : State) (x : Team) (g p : Nat) (pages : List (DWord × BitVec 8)) (kind : Nat) (code : BitVec 8)

theorem stall_storage : (s.stall x g p pages kind code).storage = s.storage :=
  foldl_keeps State.storage (fun s _ => faultRecord_storage s ..) pages _

theorem stall_group {h : Group} (found : s.group? x.uid g = some h) :
    (s.stall x g p pages kind code).group? x.uid g = some { h with stalled := true } :=
  (group?_congr (foldl_keeps State.groups (fun s _ => faultRecord_groups s ..) pages _) x.uid g).trans
    (group?_modGroup_same (fun h => { h with stalled := true }) ⟨rfl, rfl⟩ found)

theorem stall_pages (e : DWord × BitVec 8) (mem : e ∈ pages) :
    (s.stall x g p pages kind code).Uncached x.ctx e.1 ∧
      (s.stall x g p pages kind code).Awaits x.ctx e.1 (.group x.uid g p code) := by
  refine foldl_establishes (P := fun e u => u.Uncached x.ctx e.1 ∧ u.Awaits x.ctx e.1 (.group x.uid g p code))
    (fun u e => ?_) (fun u e e' both => ?_) pages _ e mem
  · exact ⟨uncached_faultRecord _ _ _ _, awaits_faultRecord _ _ _ _⟩
  · exact ⟨uncached_faultRecord_of_uncached _ _ _ _ _ both.1, awaits_faultRecord_of_awaits _ _ _ _ _ both.2⟩

end

/-! ### HANDLER_ENTRY (R361, R366 to R368, R372) -/

theorem enterTrap_key (h : Group) (o : Nat) : (h.enterTrap o).team = h.team ∧ (h.enterTrap o).gid = h.gid := by
  unfold Group.enterTrap
  dsimp only
  split <;> exact ⟨rfl, rfl⟩

/-- Where every record has its number no access waits without one. -/
theorem pruneFaults_of_numbered {s : State} (numbered : ∀ f ∈ s.mgmt.faults, f.seq ≠ noSeq) : s.pruneFaults = s := by
  have all : (s.mgmt.faults.filter fun f => decide (f.seq ≠ noSeq) || decide (f.joined ≠ [])) = s.mgmt.faults :=
    List.filter_eq_self.mpr fun f mem => by simp [numbered f mem]
  have numberedAll : (s.mgmt.faults.filter fun f => f.seq ≠ noSeq) = s.mgmt.faults :=
    List.filter_eq_self.mpr fun f mem => by simp [numbered f mem]
  have noneWaits : (s.mgmt.faults.filter fun f => f.seq = noSeq) = [] :=
    List.filter_eq_nil_iff.mpr fun f mem => by simp [numbered f mem]
  simp only [State.pruneFaults, all, numberedAll, noneWaits, List.flatMap_nil, List.foldl_nil, ite_self]

/-- What HANDLER_ENTRY makes of a team with a handler in its origin group `o`: its groups enter their handlers, and their accesses
have left the fault records. -/
def State.handlersEntered (s : State) (t o : Nat) (code : BitVec 8) : State :=
  let s1 := s.modTeam t fun x => { x with trapCause := code, handler := true, timerHeld := x.timerHeld && code ≠ 0x40 }
  { s1 with
    groups := s1.groups.map fun y => if y.team = t then y.enterTrap o else y,
    mgmt := { s1.mgmt with
      faults := s1.mgmt.faults.map fun f => { f with joined := f.joined.filter fun j => !(j.ofTeam t) } } }

section
variable {t : Nat} {s : State} {x : Team} {h : Group} {r : Raised} (team : s.team? t = some x) (halted : x.halted = true)
  (outside : x.handler = false) (quiet : s.teamQuiet t = true)
  (origin : originOf (s.groups.filter fun h => h.team = t) = some (h, r))
include team halted outside quiet origin

theorem enterHandlers_noHandler (noHandler : h.greg 63 = 0) :
    s.enterHandlers t = s.killGrid x.grid r.code ((h.recordedSplit.map Split.pc).getD h.trapPc) := by
  simp only [State.enterHandlers, team, halted, outside, quiet, origin, noHandler, Bool.not_true, Bool.or_self, Bool.false_eq_true,
    if_false, if_true]

theorem enterHandlers_handler (numbered : ∀ f ∈ s.mgmt.faults, f.seq ≠ noSeq) (handler : h.greg 63 ≠ 0) :
    s.enterHandlers t = s.handlersEntered t h.gid r.code := by
  refine Eq.trans ?_ (pruneFaults_of_numbered (s := s.handlersEntered t h.gid r.code) fun f mem => ?_)
  · simp only [State.enterHandlers, team, halted, outside, quiet, origin, handler, Bool.not_true, Bool.or_self, Bool.false_eq_true,
      if_false, State.handlersEntered]
  · obtain ⟨f', mem', rfl⟩ := List.mem_map.mp mem
    exact numbered f' mem'

end

theorem handlersEntered_group? (s : State) (t o : Nat) (code : BitVec 8) (a g : Nat) :
    (s.handlersEntered t o code).group? a g = (s.group? a g).map fun h => if a = t then h.enterTrap o else h :=
  group?_mapTeam rfl (fun h => enterTrap_key h o) a g

theorem handlersEntered_team? {s : State} {t : Nat} {x : Team} (found : s.team? t = some x) (o : Nat) (code : BitVec 8) :
    (s.handlersEntered t o code).team? t =
      some { x with trapCause := code, handler := true, timerHeld := x.timerHeld && code ≠ 0x40 } :=
  team?_modTeam_same _ (fun _ same => same) found

/-- A group that halts records TRAPPC, and keeps its registers and no cause (R366). -/
theorem enterTrap_records {h : Group} {p : Split} (o : Nat) (recorded : h.recordedSplit = some p) :
    let e := h.enterTrap o
    e.trapPc = p.pc ∧ e.recorded = p.id ∧ e.v = h.v ∧ e.g = h.g ∧ e.p = h.p ∧ e.q = h.q ∧ e.x = h.x ∧ e.raised = none ∧
      e.raisers = [] := by
  simp only [Group.enterTrap, recorded, Option.map_some, Option.getD_some]
  split <;> exact ⟨rfl, rfl, rfl, rfl, rfl, rfl, rfl, rfl, rfl⟩

/-- With a handler its splits are set aside (R368), and restored by the resume with the recorded one at TRAPPC (R370, R371). -/
theorem enterTrap_setsAside {h : Group} {p : Split} (o : Nat) (recorded : h.recordedSplit = some p) (live : h.isOver = false)
    (handler : h.greg 63 ≠ 0) :
    let e := h.enterTrap o
    e.saved = some h.splits ∧
      e.splits = [{ id := 0, pc := h.greg 63, lanes := h.liveLanes, stack := [], held := none, park := none }] ∧
      ({ e with splits := [] } : Group).leaveTrap.splits = h.splits.map fun q => if q.id = p.id then { q with pc := p.pc } else q := by
  have enters : (h.isOver || decide (h.greg 63 = 0)) = false := by simpa [live] using handler
  simp only [Group.enterTrap, recorded, enters, Bool.false_eq_true, if_false, Option.map_some, Option.getD_some, true_and]
  rfl

/-! ### TEAM_RESUME (R361, R370, R371) -/

theorem leaveTrap_key (h : Group) : h.leaveTrap.team = h.team ∧ h.leaveTrap.gid = h.gid := by
  unfold Group.leaveTrap
  split <;> exact ⟨rfl, rfl⟩

/-- A team that has left handler mode, before what was held arises. -/
def State.resumed (s : State) (t : Nat) : State :=
  let s1 := s.modTeam t fun x => { x with trapCause := 0, halted := false, handler := false, timerHeld := false }
  { s1 with groups := s1.groups.map fun h => if h.team = t then h.leaveTrap.forgetCause else h }

theorem resumed_group? (s : State) (t a g : Nat) :
    (s.resumed t).group? a g = (s.group? a g).map fun h => if a = t then h.leaveTrap.forgetCause else h :=
  group?_mapTeam (f := fun h => h.leaveTrap.forgetCause) rfl leaveTrap_key a g

theorem resumed_team? {s : State} {t : Nat} {x : Team} (found : s.team? t = some x) :
    (s.resumed t).team? t = some { x with trapCause := 0, halted := false, handler := false, timerHeld := false } :=
  team?_modTeam_same _ (fun _ same => same) found

/-- A late cause held for a group arises. -/
def State.heldArises (t : Nat) (s : State) (e : Nat × LateCause) : State :=
  (s.haltTeam t).modGroup t e.1 fun h => h.note ⟨e.2.code, e.2.split, true⟩

/-- With every handler of the team ended and no timer cause held, the resume ends with the late causes that its groups held. -/
theorem resumeTeam_eq {s : State} {t : Nat} {x : Team} (team : s.team? t = some x) (inside : x.handler = true)
    (noTimer : x.timerHeld = false) (ended : ∀ h ∈ s.groups, h.team = t → h.inHandler = true → h.splits = []) :
    s.resumeTeam t = ((s.groups.filter fun h => h.team = t).flatMap fun h => h.late.map fun c => (h.gid, c)).foldl
      (State.heldArises t) (s.resumed t) := by
  have noneRuns : ((s.groups.filter fun h => h.team = t).any fun h => h.inHandler && decide (h.splits ≠ [])) = false := by
    refine List.any_eq_false.mpr fun h mem => ?_
    obtain ⟨mem, mine⟩ := List.mem_filter.mp mem
    simpa using ended h mem (by simpa using mine)
  simp only [State.resumeTeam, team, inside, noTimer, noneRuns, Bool.not_true, Bool.or_self, Bool.false_eq_true, if_false]
  rfl

/-- A cause is the one of lowest code among those noted; with none noted there is none. -/
def LowestOf (l : List LateCause) : Option Raised → Prop
  | none => l = []
  | some r => (∃ e ∈ l, r.code = e.code ∧ r.split = e.split) ∧ ∀ e ∈ l, r.code ≤ e.code

theorem lowestOf_keepCause {l : List LateCause} {o : Option Raised} (lowest : LowestOf l o) (c : LateCause) :
    LowestOf (l ++ [c]) (some (keepCause o ⟨c.code, c.split, true⟩)) := by
  cases o with
  | none =>
    cases (lowest : l = [])
    exact ⟨⟨c, by simp, rfl, rfl⟩, by simp [keepCause]⟩
  | some r =>
    obtain ⟨⟨e, mem, code, split⟩, least⟩ := lowest
    by_cases lower : r.code ≤ c.code
    · simp only [keepCause, lower, if_true]
      exact ⟨⟨e, by simp [mem], code, split⟩, by simpa [or_imp, forall_and] using ⟨least, lower⟩⟩
    · have below : c.code ≤ r.code := BitVec.le_of_lt (BitVec.not_le.mp lower)
      simp only [keepCause, lower, if_false]
      exact ⟨⟨c, by simp, rfl, rfl⟩, by
        simpa [or_imp, forall_and] using fun e mem => BitVec.le_trans below (least e mem)⟩

/-- Causes held for one group arise: the team halts, and the group notes the one of lowest code. -/
theorem heldArises_all {s : State} {t : Nat} {x : Team} {h : Group} (team : s.team? t = some x) (group : s.group? t h.gid = some h)
    (clear : h.raised = none) (l : List LateCause) :
    ∃ y h', ((l.map fun c => (h.gid, c)).foldl (State.heldArises t) s).team? t = some y ∧ (l ≠ [] → y.halted = true) ∧
      ((l.map fun c => (h.gid, c)).foldl (State.heldArises t) s).group? t h.gid = some h' ∧ LowestOf l h'.raised := by
  induction l using List.reverseRecOn with
  | nil => exact ⟨x, h, team, fun held => (held rfl).elim, group, by rw [clear]; rfl⟩
  | append_singleton l c ih =>
    obtain ⟨y, h', team, -, group, lowest⟩ := ih
    rw [List.map_append, List.foldl_append]
    obtain ⟨y', n, found, halted, mine⟩ := haltTeam_note ⟨c.code, c.split, true⟩ team group
    exact ⟨y', _, found, fun _ => halted, mine, lowestOf_keepCause lowest c⟩

theorem teamResume_quiet {s : State} {t : Nat} {x : Team} (team : s.team? t = some x) (inside : x.handler = true)
    (noTimer : x.timerHeld = false) (ended : ∀ h ∈ s.groups, h.team = t → h.late = [] ∧ (h.inHandler = true → h.splits = [])) :
    s.resumeTeam t = s.resumed t := by
  have nothing : ((s.groups.filter fun h => h.team = t).flatMap fun h => h.late.map fun c => (h.gid, c)) = [] := by
    refine List.flatMap_eq_nil_iff.mpr fun h mem => ?_
    obtain ⟨mem, mine⟩ := List.mem_filter.mp mem
    rw [(ended h mem (by simpa using mine)).1, List.map_nil]
  rw [resumeTeam_eq team inside noTimer fun h mem mine => (ended h mem mine).2, nothing, List.foldl_nil]

/-- A group alone in its team is found by its number. -/
theorem group?_of_alone {s : State} {t : Nat} {h : Group} (alone : (s.groups.filter fun h => h.team = t) = [h]) :
    s.group? t h.gid = some h := by
  have found : (s.groups.filter fun h => h.team = t).find? (fun y => y.gid = h.gid) = some h := by rw [alone]; simp
  rw [List.find?_filter] at found
  simpa [State.group?] using found

theorem exec_teamResume (t : Nat) (s : State) : exec (.teamResume t) s = .next (s.resumeTeam t) := rfl

theorem teamResume_held {s : State} {t : Nat} {x : Team} {h : Group} (team : s.team? t = some x) (inside : x.handler = true)
    (noTimer : x.timerHeld = false) (alone : (s.groups.filter fun h => h.team = t) = [h]) (held : h.late ≠ [])
    (ended : h.inHandler = true → h.splits = []) :
    ∃ s' h' r, exec (.teamResume t) s = .next s' ∧ (s'.team? t).map Team.halted = some true ∧ s'.group? t h.gid = some h' ∧
      h'.raised = some r ∧ (∃ e ∈ h.late, r.code = e.code ∧ r.split = e.split) ∧ ∀ e ∈ h.late, r.code ≤ e.code := by
  have endedAll : ∀ y ∈ s.groups, y.team = t → y.inHandler = true → y.splits = [] := fun y mem mine => by
    have : y ∈ s.groups.filter fun h => h.team = t := List.mem_filter.mpr ⟨mem, by simpa using mine⟩
    rw [alone, List.mem_singleton] at this
    rwa [this]
  have mine : (s.resumed t).group? t h.leaveTrap.forgetCause.gid = some h.leaveTrap.forgetCause := by
    rw [show h.leaveTrap.forgetCause.gid = h.gid from (leaveTrap_key h).2, resumed_group?, group?_of_alone alone]
    simp
  obtain ⟨y, h', found, halts, group, lowest⟩ := heldArises_all (resumed_team? team) mine rfl h.late
  rw [show h.leaveTrap.forgetCause.gid = h.gid from (leaveTrap_key h).2] at found group
  have resume := resumeTeam_eq team inside noTimer endedAll
  rw [alone, List.flatMap_singleton] at resume
  cases raised : h'.raised with
  | none =>
    rw [raised] at lowest
    exact (held lowest).elim
  | some r =>
    rw [raised] at lowest
    exact ⟨_, h', r, (exec_teamResume t s).trans (congrArg Host.Outcome.next resume),
      by rw [found, Option.map_some, halts held], group, raised, lowest⟩

/-! ### Words that are no instruction, timer traps and answers to fault records (R98, R362, R378) -/

theorem exec_undefinedEncoding_issuing {code : BitVec 8} {s : State} {x : Team} {h : Group} {p : Split}
    (issuing : s.issuing = some (x, h, p)) (may : mayIssue x h p = true) (waits : windowWaits h p = false) :
    exec (.undefinedEncoding code) s = .next (s.raise x.uid h.gid (some p.id) code p.pc) := by
  change execUndefinedEncoding code s = _
  simp only [execUndefinedEncoding, issuing, may, waits, Bool.not_true, Bool.or_self, Bool.false_eq_true, if_false]

theorem exec_timerTrap {t : Nat} {s : State} {x : Team} (team : s.team? t = some x) :
    exec (.timerTrap t) s = .next (if s.timerDue x then s.raiseTimer t else s) := by
  change execTimerTrap t s = _
  simp only [execTimerTrap, team]

theorem exec_handlerEntry (t : Nat) (s : State) : exec (.handlerEntry t) s = .next (s.enterHandlers t) := rfl

theorem fqans_results (seq : BitVec 63) (s : State) : let found := s.mgmt.faults.find? fun f => f.seq = seq.toNat
    (found = none → exec (.fqansRetry seq) s = .next s ∧ exec (.fqansFail seq) s = .next s) ∧
    ∀ f, found = some f →
      exec (.fqansRetry seq) s = .next ((f.joined.foldl State.retryJoiner (s.dropFault seq.toNat)).pruneFaults) ∧
      exec (.fqansFail seq) s = .next ((f.joined.foldl State.failJoiner (s.dropFault seq.toNat)).pruneFaults) := by
  intro found
  change (_ → execFqansRetry seq s = _ ∧ execFqansFail seq s = _) ∧ ∀ f, _ → execFqansRetry seq s = _ ∧ execFqansFail seq s = _
  refine ⟨fun absent => ?_, fun f present => ?_⟩
  · simp only [execFqansRetry, execFqansFail, show s.mgmt.faults.find? _ = _ from absent, and_self]
  · simp only [execFqansRetry, execFqansFail, show s.mgmt.faults.find? _ = _ from present, and_self]

/-- Settles O59: the raise, the skid bound, the stall, the entry and the resume by the lemmas on each. -/
theorem exceptionEntryAndReturn : Obligations.ExceptionEntryAndReturn := by
  refine ⟨fun code s x h p => exec_undefinedEncoding_issuing, fun t g sp code pc s x h team group outside clear => ?_,
    fun t g sp code pc s x h r team group outside raised => ?_, fun x h p => mayIssue_halted, fun s t x team halted outside => ?_,
    fun s x g p h pages kind code group => ?_, fun t s x h r team halted outside quiet numbered origin =>
      ⟨fun noHandler => ?_, fun handler => ?_⟩,
    fun h p o recorded => ?_, fun t s x team inside noTimer ended => ?_, fun t s x h => teamResume_held,
    fun t s x team => ⟨fun due => ?_, fun early => ?_⟩, fqans_results⟩
  · obtain ⟨n, mine⟩ := raise_group (sp := sp) (code := code) (pc := pc) team group outside
    refine ⟨raise_halts team group outside, raise_storage team group outside, _, mine, ?_, rfl, rfl, rfl⟩
    simp only [Group.note, clear, keepCause]
  · obtain ⟨n, mine⟩ := raise_group (sp := sp) (code := code) (pc := pc) team group outside
    refine ⟨_, mine, ?_, rfl⟩
    simp only [Group.note, raised, keepCause]
  · rw [count_team?, team, Option.map_some, halted, outside]
    rfl
  · have each := stall_pages s x g p pages kind code
    exact ⟨stall_group s x g p pages kind code group, stall_storage s x g p pages kind code,
      fun e mem => (each e mem).1, fun e mem => (each e mem).2⟩
  · exact congrArg Host.Outcome.next (enterHandlers_noHandler team halted outside quiet origin noHandler)
  · have enters := enterHandlers_handler team halted outside quiet origin numbered handler
    refine ⟨_, _, (exec_handlerEntry t s).trans (congrArg Host.Outcome.next enters), handlersEntered_team? team _ _,
      rfl, rfl, rfl, fun g => ?_, fun a g other => ?_⟩
    · simp [handlersEntered_group?]
    · simp [handlersEntered_group?, other]
  · obtain ⟨pc, id, v, g, q, r, x, raised, raisers⟩ := enterTrap_records o recorded
    exact ⟨pc, id, v, g, q, r, x, raised, raisers, enterTrap_setsAside o recorded⟩
  · have resumes := teamResume_quiet team inside noTimer ended
    refine ⟨_, _, (exec_teamResume t s).trans (congrArg Host.Outcome.next resumes), resumed_team? team,
      rfl, rfl, rfl, rfl, fun g => ?_, fun a g other => ?_⟩
    · simp [resumed_group?]
    · simp [resumed_group?, other]
  · rw [exec_timerTrap team, if_pos due]
  · rw [exec_timerTrap team, early]
    rfl

end Sys2Proof.Machine
end

section
namespace Sys2Proof.Machine

/-! ### Legality across the group-pipe instructions and `gath`, `spawn`, `coll`

What every step keeps (`Keeps`), one lemma per effect: these are the effects of 09_isa_memory.md and 11_fabric_host.md for
which the layer of shared operations has the parts only. -/

variable {base s : State}

/-- A chain goes on through whichever branch a condition takes. -/
theorem keeps_ite {c : Prop} [Decidable c] {a b : State} (ha : Keeps base a) (hb : Keeps base b) :
    Keeps base (if c then a else b) := by
  split
  · exact ha
  · exact hb

theorem keeps_ite_of {c : Prop} [Decidable c] {a b : State} (ha : c → Keeps base a) (hb : ¬c → Keeps base b) :
    Keeps base (if c then a else b) := by
  split
  · next hc => exact ha hc
  · next hc => exact hb hc

theorem body_ite {c : Prop} [Decidable c] {a b : Body} (ha : Body.Keeps base a) (hb : Body.Keeps base b) :
    Body.Keeps base (if c then a else b) := by
  split
  · exact ha
  · exact hb

theorem outKeeps_ite {c : Prop} [Decidable c] {a b : Host.Outcome State Fault Refusal} (ha : OutKeeps base a)
    (hb : OutKeeps base b) : OutKeeps base (if c then a else b) := by
  split
  · exact ha
  · exact hb

theorem body_gatherBody {k : Here} (h : Keeps base s) : Body.Keeps base (gatherBody k s) := by
  unfold gatherBody
  refine body_ite (bodyNext (keeps_addResult (keeps_fresh h))) ?_
  have read := keeps_gatherDesc (k := k) h
  split
  · next e => rw [e] at read; exact read
  · next e =>
    rw [e] at read
    refine body_ite trivial ?_
    split
    · next e => exact probes_error read e
    · exact bodyNext (keeps_addAccesses (keeps_noteSites read))

/-- R373: what an entry's translation ends a spawn with. -/
theorem body_entryProbes {k : Here} {l : List DWord} {b : Body} (h : Keeps base s) (e : s.entryProbes k l = some b) :
    Body.Keeps base b := by
  unfold State.entryProbes at e
  dsimp only at e
  split at e
  · cases e; trivial
  · split at e
    · cases e; trivial
    · obtain ⟨p, -, hp⟩ := List.exists_of_findSome?_eq_some e
      split at hp
      · cases hp; trivial
      · cases hp; exact bodyLate h
      · cases hp

theorem body_pubBody {k : Here} (h : Keeps base s) : Body.Keeps base (pubBody k s) := by
  unfold pubBody
  dsimp only
  split
  · next e => exact probes_error h e
  · trivial
  · exact body_ite trivial (body_ite (bodyLate h)
      (bodyNext (keeps_addResult (Keeps.mk' rfl (keeps_fresh (keeps_noteSites h))))))

theorem body_barPerform {fn : BarFn} {k : Here} {t off : Nat} (h : Keeps base s) :
    Body.Keeps base (barPerform fn k s t off) := by
  have named := keeps_nameBar (t := t) (off := off) h
  have returns {s1 : State} {x : DWord} (h1 : Keeps base s1) :
      Keeps base (s1.modGroup k.team.uid k.grp.gid fun h => h.setG k.f.d.toNat x) := keeps_modGroup h1 fun _ hg => tidy_setG hg
  unfold barPerform
  dsimp only
  split
  · trivial
  · cases fn with
    | init => exact bodyNext (keeps_setBar named)
    | wait => exact body_ite (bodyNext (keeps_Here_barAcquire named)) (bodyNext (keeps_modGroup named fun _ hg => hg))
    | arrive | expect | expa =>
      exact bodyNext (keeps_ite (keeps_modGroup (returns (keeps_setBar named)) fun _ hg => hg) (returns (keeps_setBar named)))
    | _ => exact body_ite (bodyNext (returns (keeps_Here_barAcquire named))) (bodyNext (returns named))

theorem body_barBody {fn : BarFn} {k : Here} (h : Keeps base s) : Body.Keeps base (barBody fn k s) := by
  unfold barBody
  refine body_ite trivial ?_
  split
  · trivial
  refine body_ite trivial (body_ite trivial (body_ite trivial ?_))
  split
  · trivial
  · next e =>
    have performed := keeps_performUpTo h e
    refine body_ite (bodyLate performed) (body_barPerform ?_)
    split
    · exact keeps_protectAt performed
    · exact performed

theorem body_cpyaBody {shape : BitVec 2} {k : Here} (h : Keeps base s) : Body.Keeps base (cpyaBody shape k s) := by
  unfold cpyaBody
  refine body_ite trivial (body_ite trivial ?_)
  split
  · exact body_ite trivial (body_ite trivial (body_ite (bodyNext h) (body_ite trivial
      (bodyNext (keeps_startCopy (keeps_nameBar (Keeps.mk' rfl (keeps_fresh h))))))))
  · trivial

theorem body_collBody {form : BitVec 2} {k : Here} (h : Keeps base s) : Body.Keeps base (collBody form k s) := by
  unfold collBody
  refine body_ite trivial ?_
  split
  · trivial
  · next e => exact body_ite trivial (probes_error h e)
  · exact body_ite trivial (bodyNext (keeps_ite (keeps_addAccesses (keeps_noteSites h)) (keeps_enqueue (keeps_noteSites h))))

theorem body_gcollBody {op : BitVec 2} {k : Here} (h : Keeps base s) : Body.Keeps base (gcollBody op k s) := by
  unfold gcollBody
  refine body_ite trivial ?_
  have read := keeps_commDesc (k := k) h
  split
  · next e => rw [e] at read; exact read
  · next e =>
    rw [e] at read
    exact body_ite trivial (bodyNext (keeps_ite (keeps_failColl (Keeps.mk' rfl (keeps_fresh read)))
      (keeps_takeEarly (Keeps.mk' rfl (keeps_fresh read)))))

theorem outKeeps_execSpawn {i : Long} (h : Keeps base s) : OutKeeps base (execSpawn i s) := by
  refine outKeeps_issue h fun k s1 h1 => ?_
  dsimp only
  split
  · next e => exact body_entryProbes h1 e
  · exact bodyNext (keeps_modGroup (keeps_offers h1) fun _ hg => tidy_setPred hg)

theorem outKeeps_execFence {i : Short} (h : Keeps base s) : OutKeeps base (execFence i s) := by
  refine outKeeps_issue h fun k s1 h1 => ?_
  dsimp only
  split
  · trivial
  · exact body_ite (bodyNext (keeps_endFence h1)) (bodyNext (keeps_modGroup (keeps_fresh h1) fun _ hg => hg))

theorem outKeeps_execDrain {i : Long} (h : Keeps base s) : OutKeeps base (execDrain i s) :=
  outKeeps_issue h fun _ _ h1 => body_ite (bodyNext (keeps_ite h1 (keeps_emptyCaches h1)))
    (bodyNext (keeps_modGroup (keeps_fresh h1) fun _ hg => hg))

theorem outKeeps_execDinv {i : Long} (h : Keeps base s) : OutKeeps base (execDinv i s) :=
  outKeeps_issue h fun _ _ h1 => body_ite trivial (bodyNext (keeps_dropDescs h1))
theorem outKeeps_execDinvAll {i : Long} (h : Keeps base s) : OutKeeps base (execDinvAll i s) :=
  outKeeps_issue h fun _ _ h1 => bodyNext (keeps_dropDescs h1)

end Sys2Proof.Machine
end

section
namespace Sys2Proof.Machine

/-! ### Legality across the stream commands (R82, R83) and what ends them -/

/-- A command's effect keeps a chain in the state that it leaves; a stream error leaves the state of the issue. -/
def CmdEnd.Keeps (base : State) : CmdEnd → Prop
  | .done t | .jump t _ | .stay t => Machine.Keeps base t
  | .stop _ => True

variable {base s : State}

theorem cmd_ite {c : Prop} [Decidable c] {a b : CmdEnd} (ha : CmdEnd.Keeps base a) (hb : CmdEnd.Keeps base b) :
    CmdEnd.Keeps base (if c then a else b) := by
  split
  · exact ha
  · exact hb

theorem cmdDone {t : State} (h : Keeps base t) : CmdEnd.Keeps base (.done t) := h
theorem cmdJump {t : State} {pc : DWord} (h : Keeps base t) : CmdEnd.Keeps base (.jump t pc) := h
theorem cmdStay {t : State} (h : Keeps base t) : CmdEnd.Keeps base (.stay t) := h

theorem keeps_endOk {r : Except State State} {t : State} (e : r = .ok t) (h : EndKeeps base r) : Keeps base t := by
  subst e; exact h
theorem keeps_endError {r : Except State State} {t : State} (e : r = .error t) (h : EndKeeps base r) : Keeps base t := by
  subst e; exact h

/-- R387: a stream stops with an error at the command that it executes. -/
theorem keeps_stops {n : Nat} {err : BitVec 8} {pc : DWord} (h : Keeps base s) :
    Keeps base ((s.dropAnswers n).stopStream n err 0 pc) := keeps_stopStream (keeps_dropAnswers h)

theorem outKeeps_issueCommand {c : Command} {used : Bool × Bool × Bool} {align : List (DWord × Nat)} {rsv waits : Bool}
    {effect : Nat → Stream → CmdEnd} (h : Keeps base s) (he : ∀ n x, CmdEnd.Keeps base (effect n x)) :
    OutKeeps base (issueCommand c used align rsv waits s effect) := by
  unfold issueCommand
  split
  · next n _ =>
    refine outKeeps_ite h (outKeeps_ite (keeps_stops h) (outKeeps_ite (keeps_stops h) (outKeeps_ite
      (keeps_ite (keeps_haltStream h) h) ?_)))
    have ends := he n (s.stream n)
    revert ends
    generalize effect n (s.stream n) = r
    intro ends
    cases r with
    | done t => exact keeps_advance ends
    | jump t pc => exact keeps_advance ends
    | stay t => exact ends
    | stop e => exact keeps_stops h
  · trivial

theorem cmd_launchBody {c : Command} {teamsVa : Option DWord} {n : Nat} {x : Stream} (h : Keeps base s) :
    CmdEnd.Keeps base (launchBody s c teamsVa n x) := by
  unfold launchBody
  dsimp only
  split
  · next e => exact cmdStay (keeps_readError e (keeps_cpBytes h))
  · next b s0 e =>
    have read := keeps_readOk e (keeps_cpBytes h)
    have counted {gid : Word} {d : DWord} : ReadKeeps base (match teamsVa with
        | none => (.ok (bits d.toNat 31 0, s0) : Except State (Nat × State))
        | some va => match s0.cpDword n va gid with
          | .ok (t, s1) => .ok (bits t.toNat 31 0, s1)
          | .error s1 => .error s1) := by
      split
      · exact read
      · split
        · next e => exact keeps_readOk e (keeps_cpDword read)
        · next e => exact keeps_readError e (keeps_cpDword read)
    split
    · next e => exact cmdStay (keeps_readError e counted)
    · next teams s1 e =>
      have taken := keeps_readOk e counted
      split
      · trivial
      · have put {va : DWord} {ask : OutAsk} {gid : Word} :
            EndKeeps base (if va = 0 then (.ok s1 : Except State State) else s1.cpPut n va ask gid) := by
          split
          · exact taken
          · exact keeps_cpPut taken
        split
        · next e => exact cmdStay (keeps_endError e put)
        · next e =>
          have noted := keeps_modCtx (c := x.ctx) (f := fun y => { y with gridCount := y.gridCount + 1 })
            (keeps_endOk e put) fun _ => rfl
          exact cmdDone (keeps_ite noted (Keeps.mk' rfl (keeps_fresh noted)))

theorem outKeeps_execNopCommand {c : Command} (h : Keeps base s) : OutKeeps base (execNopCommand c s) :=
  outKeeps_issueCommand h fun _ _ => cmdDone h
theorem outKeeps_execLaunch {c : Command} (h : Keeps base s) : OutKeeps base (execLaunch c s) :=
  outKeeps_issueCommand h fun _ _ => cmd_launchBody h
theorem outKeeps_execLaunchi {c : Command} (h : Keeps base s) : OutKeeps base (execLaunchi c s) :=
  outKeeps_issueCommand h fun _ _ => cmd_launchBody h

theorem outKeeps_execLoop {c : Command} (h : Keeps base s) : OutKeeps base (execLoop c s) := by
  refine outKeeps_issueCommand h fun n _ => ?_
  split
  · next e => exact cmdStay (keeps_readError e (keeps_cpDword h))
  · next e =>
    have read := keeps_readOk e (keeps_cpDword h)
    refine cmd_ite (cmdDone read) ?_
    split
    · next e => exact cmdJump (keeps_endOk e (keeps_cpPut read))
    · next e => exact cmdStay (keeps_endError e (keeps_cpPut read))

theorem outKeeps_execBranch {c : Command} (h : Keeps base s) : OutKeeps base (execBranch c s) := by
  refine outKeeps_issueCommand h fun n _ => cmd_ite (cmdJump h) ?_
  split
  · next e => exact cmdStay (keeps_readError e (keeps_cpDword h))
  · next e =>
    have read := keeps_readOk e (keeps_cpDword h)
    exact cmd_ite (cmdJump read) (cmdDone read)

theorem outKeeps_execWaitph {c : Command} (h : Keeps base s) : OutKeeps base (execWaitph c s) := by
  refine outKeeps_issueCommand h fun n _ => ?_
  split
  · next e => exact cmdStay (keeps_readError e (keeps_cpDword h))
  · next e =>
    have read := keeps_readOk e (keeps_cpDword h)
    exact cmd_ite (cmdDone read) (cmd_ite (cmdStay (keeps_haltStream read))
      (cmdStay (keeps_modStream (keeps_dropAnswers read))))

theorem outKeeps_execWaitphPoll {n : Nat} (h : Keeps base s) : OutKeeps base (execWaitphPoll n s) := by
  unfold execWaitphPoll
  dsimp only
  split
  · split
    · next e => exact keeps_readError e (keeps_cpDword h)
    · next e =>
      have read := keeps_readOk e (keeps_cpDword h)
      exact keeps_ite (keeps_advance read) (keeps_dropAnswers read)
  · exact h

theorem outKeeps_execSignal {c : Command} (h : Keeps base s) : OutKeeps base (execSignal c s) := by
  refine outKeeps_issueCommand h fun n _ => ?_
  generalize (ite (c.sub = 0) _ _ : OutAsk) = ask
  dsimp only
  split
  · next e => exact cmdDone (keeps_endOk e (keeps_cpPut (keeps_protectStream h)))
  · next e => exact cmdStay (keeps_endError e (keeps_cpPut (keeps_protectStream h)))

theorem outKeeps_execPublish {c : Command} (h : Keeps base s) : OutKeeps base (execPublish c s) := by
  refine outKeeps_issueCommand h fun n x => ?_
  dsimp only
  split
  · exact cmdStay (keeps_cpFails h)
  · exact cmdStay h
  · exact cmdStay (keeps_cpFails h)
  · exact cmd_ite trivial (cmdStay (keeps_modStream (Keeps.mk' rfl (keeps_fresh h))))
  · trivial

theorem outKeeps_execHcopy {c : Command} (h : Keeps base s) : OutKeeps base (execHcopy c s) :=
  outKeeps_issueCommand h fun _ _ => cmdStay (keeps_advance (keeps_modStream h))

theorem outKeeps_execHcopyComplete {n : Nat} (h : Keeps base s) : OutKeeps base (execHcopyComplete n s) := by
  unfold execHcopyComplete
  split
  · exact h
  · next c i _ =>
    refine outKeeps_ite (keeps_failHostCopy h) ?_
    split
    · split
      · next ps _ =>
        have put : Keeps base
            (((s.rekeySpans c.ctx [(c.src, c.count)]).putAll (s.job c.ctx) (streamKey n) ps).2.dropHostCopy n i) :=
          keeps_dropHostCopy (keeps_putAll (keeps_rekeySpans h))
        have written {lines : List Nat} := keeps_ite (c := c.toHost = true) put (keeps_writeBackLines (l := lines) put)
        exact outNext (keeps_ite (keeps_raiseMsix written) written)
      · exact keeps_hostCopyStops h
    · exact keeps_hostCopyStops h

theorem outKeeps_execFenceCommand {c : Command} (h : Keeps base s) : OutKeeps base (execFenceCommand c s) :=
  outKeeps_issueCommand h fun _ _ => cmdDone (keeps_writeBackAll h)
theorem outKeeps_execSeed {c : Command} (h : Keeps base s) : OutKeeps base (execSeed c s) :=
  outKeeps_issueCommand h fun _ _ => cmdDone (keeps_modCtx h fun _ => rfl)
theorem outKeeps_execStop {c : Command} (h : Keeps base s) : OutKeeps base (execStop c s) :=
  outKeeps_issueCommand h fun _ _ => trivial

theorem outKeeps_execReservedCommand {c : Command} (h : Keeps base s) : OutKeeps base (execReservedCommand c s) := by
  unfold execReservedCommand
  split
  · exact outKeeps_ite h (keeps_stops h)
  · trivial

theorem outKeeps_execUndefinedEncoding {cause : BitVec 8} (h : Keeps base s) : OutKeeps base (execUndefinedEncoding cause s) := by
  unfold execUndefinedEncoding
  split
  · exact outKeeps_ite h (keeps_raise h)
  · trivial

end Sys2Proof.Machine
end

section
namespace Sys2Proof.Machine

/-! ### Legality across placement, copies, traps and preemption -/

variable {base s : State}

theorem outKeeps_execTeamPlacement {core : Nat} (h : Keeps base s) : OutKeeps base (execTeamPlacement core s) :=
  outNext (keeps_distribute (keeps_reap h))

theorem outKeeps_execSpawnedGroupStart {core : Nat} {entry : DWord} (h : Keeps base s) :
    OutKeeps base (execSpawnedGroupStart core entry s) := by
  unfold execSpawnedGroupStart
  dsimp only
  split
  · exact outNext (keeps_takeRestored (keeps_reap h))
  · split
    · exact outNext (keeps_startSpawned (keeps_reap h))
    · exact outNext (keeps_reap h)

theorem outKeeps_execGridComplete {u : Nat} (h : Keeps base s) : OutKeeps base (execGridComplete u s) := by
  unfold execGridComplete
  dsimp only
  split
  · exact outNext (keeps_reap h)
  · exact outKeeps_ite (keeps_reap h) (outNext (keeps_writeBackAll
      (Keeps.mk' rfl (Keeps.foldl _ _ (keeps_reap h) fun _ _ hs => keeps_dropTeam hs))))

theorem outKeeps_execPermitGrant {u : Nat} (h : Keeps base s) : OutKeeps base (execPermitGrant u s) := by
  have started := keeps_startCopy (u := u) h
  unfold execPermitGrant
  dsimp only
  split
  · exact outNext started
  split
  · exact outNext started
  split
  · exact outNext started
  · exact outKeeps_ite (outNext started) (outNext (keeps_modCopy started))

theorem outKeeps_execTileLanding {u k : Nat} (h : Keeps base s) : OutKeeps base (execTileLanding u k s) := by
  unfold execTileLanding
  split
  · exact outNext h
  split
  · exact outNext h
  · exact outKeeps_ite (outNext h) (outKeeps_ite (outNext (keeps_writeTile h))
      (outKeeps_ite (outNext (keeps_sentTile h)) (outNext h)))

theorem outKeeps_execCopyCredit {u k : Nat} (h : Keeps base s) : OutKeeps base (execCopyCredit u k s) := by
  have started := keeps_startCopy (u := u) h
  unfold execCopyCredit
  dsimp only
  split
  · exact outNext started
  split
  · exact outNext started
  · exact outKeeps_ite (outNext started) (outKeeps_ite (outNext (keeps_writeTile started))
      (outKeeps_ite (outNext (keeps_sentTile started)) (outNext started)))

theorem outKeeps_execTimerTrap {t : Nat} (h : Keeps base s) : OutKeeps base (execTimerTrap t s) := by
  unfold execTimerTrap
  refine outNext ?_
  split
  · exact keeps_ite (keeps_raiseTimer h) h
  · exact h
theorem outKeeps_execHandlerEntry {t : Nat} (h : Keeps base s) : OutKeeps base (execHandlerEntry t s) :=
  outNext (keeps_enterHandlers h)
theorem outKeeps_execTeamResume {t : Nat} (h : Keeps base s) : OutKeeps base (execTeamResume t s) :=
  outNext (keeps_resumeTeam h)

theorem outKeeps_execFqansRetry {seq : BitVec 63} (h : Keeps base s) : OutKeeps base (execFqansRetry seq s) := by
  unfold execFqansRetry
  refine outNext ?_
  split
  · exact h
  · exact keeps_pruneFaults (Keeps.foldl _ _ (keeps_dropFault h) fun _ _ hs => keeps_retryJoiner hs)
theorem outKeeps_execFqansFail {seq : BitVec 63} (h : Keeps base s) : OutKeeps base (execFqansFail seq s) := by
  unfold execFqansFail
  refine outNext ?_
  split
  · exact h
  · exact keeps_pruneFaults (Keeps.foldl _ _ (keeps_dropFault h) fun _ _ hs => keeps_failJoiner hs)

theorem outKeeps_execContextDrainComplete {ctx : BitVec 4} (h : Keeps base s) :
    OutKeeps base (execContextDrainComplete ctx s) := by
  have reaped := keeps_reap h
  unfold execContextDrainComplete
  refine outNext ?_
  dsimp only
  split
  · exact reaped
  · exact keeps_ite reaped (keeps_setPhase (keeps_modCtx (keeps_dropGrids (Keeps.foldl _ _
      (keeps_writeBackAll (keeps_writeMem reaped)) fun _ _ hs => keeps_dropTeam hs)) fun _ => rfl))
theorem outKeeps_execPreemptDeadline {ctx : BitVec 4} (h : Keeps base s) : OutKeeps base (execPreemptDeadline ctx s) := by
  unfold execPreemptDeadline
  refine outNext ?_
  split
  · exact keeps_ite (keeps_forceReset h) h
  · exact h

/-! ### Legality across storage -/

theorem outKeeps_execRetentionComplete {band : BitVec 4} (h : Keeps base s) : OutKeeps base (execRetentionComplete band s) := by
  unfold execRetentionComplete
  refine outNext ?_
  split
  · exact keeps_ite h (keeps_retainBand h)
  · exact keeps_ite h (keeps_releaseBand h)
  · exact h
theorem outKeeps_execStackLost {k : Nat} {why : LossReason} (h : Keeps base s) : OutKeeps base (execStackLost k why s) :=
  outNext (keeps_ite h (keeps_loseStack h))
theorem outKeeps_execStackTimeout {k : Nat} (h : Keeps base s) : OutKeeps base (execStackTimeout k s) :=
  outNext (keeps_ite (keeps_loseStack h) h)

theorem outKeeps_execPatrolScrub {unit row : Nat} {f : ScrubFinding} (h : Keeps base s) :
    OutKeeps base (execPatrolScrub unit row f s) := by
  unfold execPatrolScrub
  refine outNext (keeps_ite (keeps_scrubRow h) (keeps_ite h ?_))
  cases f with
  | clean => exact h
  | corrected => exact keeps_correctLine h
  | lostHalf _ => exact keeps_loseCapacityLine h

theorem outKeeps_execJournalApply {stack idx : Nat} (h : Keeps base s) : OutKeeps base (execJournalApply stack idx s) := by
  unfold execJournalApply
  refine outNext ?_
  split
  · exact h
  · exact keeps_ite h (Keeps.mk' rfl (keeps_applyEntry h))
theorem outKeeps_execWriteBack {line : Nat} (h : Keeps base s) : OutKeeps base (execWriteBack line s) :=
  outNext (keeps_ite h (keeps_ite (keeps_writeBackLine h) (keeps_writeBackLines h)))
theorem outKeeps_execCapacityPackageLost {p : Nat} (h : Keeps base s) : OutKeeps base (execCapacityPackageLost p s) :=
  outNext (keeps_ite h (keeps_report (Keeps.mk' rfl h)))

theorem outKeeps_execReshapeComplete (h : Keeps base s) : OutKeeps base (execReshapeComplete s) := by
  unfold execReshapeComplete
  refine outNext ?_
  split
  · exact keeps_reportStack (Keeps.mk' rfl (Keeps.foldl _ _ h fun _ _ h1 =>
      Keeps.foldl _ _ h1 fun _ _ hs => keeps_reshapeRow hs))
  · exact h

/-! ### Legality across the fabric -/

theorem outKeeps_execPortStateChange {port : Nat} {st : PortState} (h : Keeps base s) :
    OutKeeps base (execPortStateChange port st s) := by
  unfold execPortStateChange
  refine outKeeps_ite h ?_
  have ported : Keeps base { s with fabric := { s.fabric with ports := s.fabric.ports.set port st } } := Keeps.mk' rfl h
  have reported {detail : Nat} := keeps_report (sev := 2) (src := 0x06) (unit := port) (ctx := 0) (detail := detail)
    (addr := s.openAddr) ported
  have resent {detail : Nat} {l : List Request} := Keeps.foldl l (fun s q => s.resend port q) (reported (detail := detail))
    fun _ _ hs => keeps_resend hs
  exact outKeeps_ite reported (outNext (Keeps.foldl _ _ (keeps_ite resent reported) fun _ _ hs => keeps_portWorse hs))

theorem outKeeps_execPeerTimeout {tag : Nat} (h : Keeps base s) : OutKeeps base (execPeerTimeout tag s) := by
  unfold execPeerTimeout
  refine outNext ?_
  split
  · exact keeps_expireRequest h
  · split
    · exact keeps_ite (keeps_modColl h) (keeps_failColl h)
    · exact h

theorem outKeeps_execPeerAccessRequest {r : PeerReq} (h : Keeps base s) : OutKeeps base (execPeerAccessRequest r s) := by
  have poisons {c : Nat} {a : Response} := keeps_complete (get := none) (source := r.source.toNat) (tag := r.tag) (r := a)
    (keeps_poisonServed (ctx := c) (pa := r.pa) h)
  unfold execPeerAccessRequest
  refine outNext ?_
  dsimp only
  split
  · exact keeps_respond h
  split
  · exact keeps_refuse h
  refine keeps_ite (keeps_refuse h) (keeps_ite h ?_)
  split
  · exact keeps_ite poisons (keeps_complete (keeps_rekeyMem h))
  · exact keeps_complete (keeps_protectPlaces (keeps_placeBytes h))
  · refine keeps_ite poisons (keeps_complete ?_)
    split
    · exact keeps_protectPlaces (keeps_placeBytes h)
    · exact keeps_rekeyMem h

theorem outKeeps_execPeerResponse {tag : Nat} {r : Response} (h : Keeps base s) : OutKeeps base (execPeerResponse tag r s) := by
  unfold execPeerResponse
  refine outNext ?_
  split
  · exact keeps_chunkAnswered h
  · refine keeps_ite h ?_
    cases r with
    | data b => exact keeps_answerRequest h
    | failure => exact keeps_failRequest h
    | poisoned => exact keeps_failRequest h

theorem outKeeps_execPut {p : CollPacket} (h : Keeps base s) : OutKeeps base (execPut p s) :=
  outNext (keeps_packet (fun _ _ _ hs => keeps_placeBytes hs) h)
theorem outKeeps_execGet {p : CollPacket} (h : Keeps base s) : OutKeeps base (execGet p s) :=
  outNext (keeps_packet (fun _ _ _ hs => hs) h)
theorem outKeeps_execRemoteReduction {p : CollPacket} (h : Keeps base s) : OutKeeps base (execRemoteReduction p s) := by
  refine outNext (keeps_packet (fun s q l hs => ?_) h)
  split
  · exact keeps_placeBytes hs
  · exact hs

theorem outKeeps_execGetResponse {tag : Nat} {data : List DWord} (h : Keeps base s) :
    OutKeeps base (execGetResponse tag data s) := by
  unfold execGetResponse
  refine outNext ?_
  split
  · split
    · exact keeps_answerRequest h
    · exact h
  · exact h

theorem outKeeps_execForward {p : Chunk} (h : Keeps base s) : OutKeeps base (execForward p s) := outNext (keeps_arrive h)
theorem outKeeps_execAddAndForward {p : Chunk} (h : Keeps base s) : OutKeeps base (execAddAndForward p s) :=
  outNext (keeps_arrive h)
theorem outKeeps_execFinal {p : Chunk} (h : Keeps base s) : OutKeeps base (execFinal p s) := outNext (keeps_arrive h)
theorem outKeeps_execScaleMax {p : Chunk} (h : Keeps base s) : OutKeeps base (execScaleMax p s) := outNext (keeps_arrive h)

theorem outKeeps_execPlan {p : Chunk} (h : Keeps base s) : OutKeeps base (execPlan p s) := by
  unfold execPlan
  refine outNext ?_
  split
  · exact h
  · exact keeps_modColl h
theorem outKeeps_execChunkCredit {p : Chunk} (h : Keeps base s) : OutKeeps base (execChunkCredit p s) := by
  unfold execChunkCredit
  refine outNext ?_
  split
  · exact h
  · exact keeps_modColl h

theorem outKeeps_execCollectiveComplete {u : Nat} (h : Keeps base s) : OutKeeps base (execCollectiveComplete u s) := by
  unfold execCollectiveComplete
  refine outNext ?_
  split
  · exact h
  refine keeps_ite h (keeps_ite (keeps_failStep h) ?_)
  split
  · next e => exact keeps_readError e (keeps_collMap h)
  · next e =>
    have read := keeps_readOk e (keeps_collMap h)
    split
    · exact keeps_cutOff read
    · exact keeps_workChunk read
    · exact keeps_ite (keeps_countColl read) read

theorem outKeeps_execCollectiveTimeout {u : Nat} (h : Keeps base s) : OutKeeps base (execCollectiveTimeout u s) := by
  unfold execCollectiveTimeout
  refine outNext ?_
  split
  · exact keeps_ite (keeps_failColl h) h
  · exact h

/-! ### Legality across the host link -/

theorem outKeeps_execHostBar2Read {pa size : Nat} (h : Keeps base s) : OutKeeps base (execHostBar2Read pa size s) :=
  outNext (keeps_ite h (keeps_ite (keeps_unsupported h) (keeps_ite h (keeps_ite (keeps_reply (keeps_poisonServed h))
    (keeps_reply (keeps_rekeyMem h))))))
theorem outKeeps_execHostBar2Write {pa : Nat} {data : List Byte} {poisoned : Bool} (h : Keeps base s) :
    OutKeeps base (execHostBar2Write pa data poisoned s) :=
  outNext (keeps_ite h (keeps_ite (keeps_report h) (keeps_ite h (keeps_ite
    (Keeps.foldl _ _ h fun _ _ hs => keeps_poisonLine hs) (keeps_writeMem h)))))

theorem outKeeps_execHostAtomicop {pa : Nat} {op : HostAtomic} {wide : Bool} {operand newValue : DWord} (h : Keeps base s) :
    OutKeeps base (execHostAtomicop pa op wide operand newValue s) := by
  unfold execHostAtomicop
  refine outNext (keeps_ite h (keeps_ite (keeps_unsupported h) (keeps_ite h (keeps_ite (keeps_reply (keeps_poisonServed h)) ?_))))
  dsimp only
  split
  · exact keeps_rekeyMem (keeps_reply h)
  · exact keeps_ite (keeps_writeMem (keeps_reply h)) (Keeps.mk' rfl (keeps_rekeyMem (keeps_reply h)))

theorem outKeeps_execHostLineOwnership {line : Nat} {take : Bool} {data : List Byte} (h : Keeps base s) :
    OutKeeps base (execHostLineOwnership line take data s) := by
  have owns {l : List Nat} : Keeps base { s with storage := { s.storage with hostOwned := l } } := Keeps.mk' rfl h
  exact outNext (keeps_ite h (keeps_ite (keeps_ite owns h) (keeps_ite h (keeps_ite (keeps_writeMem owns) owns))))

theorem outKeeps_execFetchaddComplete {id : Nat} (h : Keeps base s) : OutKeeps base (execFetchaddComplete id s) := by
  unfold execFetchaddComplete
  refine outNext ?_
  split
  · exact h
  · next f _ =>
    have counted : Keeps base ((s.dropFetchAdd id).countVersion f.pa).2 := keeps_countVersion (keeps_dropFetchAdd h)
    refine keeps_ite h ?_
    split
    next v s1 e =>
    rw [e] at counted
    split
    · exact keeps_modResult counted
    · split
      · exact keeps_ite (keeps_advance counted) counted
      · exact counted

theorem outKeeps_execHostLinkDown (h : Keeps base s) : OutKeeps base (execHostLinkDown s) :=
  outNext (keeps_ite h (Keeps.mk' rfl (Keeps.foldl _ _ (Keeps.foldl _ _ (keeps_report (Keeps.mk' rfl h))
    fun _ _ hs => keeps_failFetchAdd hs) fun _ _ hs => keeps_poisonLine hs)))
theorem outKeeps_execHostLinkUp (h : Keeps base s) : OutKeeps base (execHostLinkUp s) :=
  outNext (keeps_ite h (keeps_flushRecords (Keeps.mk' rfl h)))
theorem outKeeps_execHostCompletionTimeout (h : Keeps base s) : OutKeeps base (execHostCompletionTimeout s) :=
  outNext (Keeps.foldl _ _ h fun _ _ hs => keeps_failRequest (keeps_report hs))

end Sys2Proof.Machine
end

section
namespace Sys2Proof.Machine

/-! ### The registers with a range (R428, R435) -/

/-- R428: every ordering code has a ceiling of at least 600 W. -/
theorem powerCeiling_ge (code : Fin 3) : 600 ≤ powerCeiling code := by
  revert code
  decide

/-- A value cut to a range lies in it, and a value of the range stays. -/
theorem clamp_mem {lo hi : Half} (x : Half) (h : lo ≤ hi) :
    lo ≤ (if x < lo then lo else if hi < x then hi else x) ∧ (if x < lo then lo else if hi < x then hi else x) ≤ hi := by
  split
  · exact ⟨BitVec.le_refl _, h⟩
  · next above =>
    split
    · exact ⟨h, BitVec.le_refl _⟩
    · next below => exact ⟨BitVec.not_lt.mp above, BitVec.not_lt.mp below⟩

/-- A field of TMOUT as a write leaves it (R435). -/
def orOne (x : Nat) : Nat := if x = 0 then 1 else x

/-- TMOUT as a write leaves it (R435). -/
def tmoutOf (v : DWord) : DWord :=
  BitVec.ofNat 64 (orOne (bits v.toNat 47 32) * 2 ^ 32 + orOne (bits v.toNat 31 16) * 2 ^ 16 + orOne (bits v.toNat 15 0))

theorem orOne_pos (x : Nat) : 1 ≤ orOne x := by
  unfold orOne
  split <;> omega

theorem orOne_bits_lt (x lo : Nat) : orOne (bits x (lo + 15) lo) < 2 ^ 16 := by
  have := Nat.mod_lt (x / 2 ^ lo) (show 0 < 2 ^ (lo + 15 + 1 - lo) by positivity)
  rw [show lo + 15 + 1 - lo = 16 by omega] at this
  unfold orOne bits
  split
  · norm_num
  · rwa [show lo + 15 + 1 - lo = 16 by omega]

/-- Three fields of sixteen bits side by side: each is read back, and nothing stands above them. -/
theorem bits_three_fields {a b c : Nat} (ha : a < 2 ^ 16) (hb : b < 2 ^ 16) (hc : c < 2 ^ 16) :
    let x := (BitVec.ofNat 64 (a * 2 ^ 32 + b * 2 ^ 16 + c)).toNat
    bits x 47 32 = a ∧ bits x 31 16 = b ∧ bits x 15 0 = c ∧ bits x 63 48 = 0 := by
  have small : a * 2 ^ 32 + b * 2 ^ 16 + c < 2 ^ 64 := by omega
  simp only [BitVec.toNat_ofNat, Nat.mod_eq_of_lt small, bits]
  omega

/-- R435: each field of TMOUT holds what was written, or 1 for 0; the bits above them hold 0. -/
theorem bits_tmoutOf (v : DWord) : bits (tmoutOf v).toNat 47 32 = orOne (bits v.toNat 47 32) ∧
    bits (tmoutOf v).toNat 31 16 = orOne (bits v.toNat 31 16) ∧ bits (tmoutOf v).toNat 15 0 = orOne (bits v.toNat 15 0) ∧
    bits (tmoutOf v).toNat 63 48 = 0 :=
  bits_three_fields (orOne_bits_lt _ 32) (orOne_bits_lt _ 16) (orOne_bits_lt _ 0)

theorem timeoutsLegal_of_tmoutOf {m : Mgmt} {v : DWord} (e : m.tmout = tmoutOf v) : m.timeoutsLegal := by
  obtain ⟨host, stack, peer, -⟩ := bits_tmoutOf v
  unfold Mgmt.timeoutsLegal
  simp only [e, host, stack, peer]
  exact ⟨orOne_pos _, orOne_pos _, orOne_pos _⟩

/-! ### Legality across the registers and the management commands (R434 to R439) -/

variable {base s : State}

theorem outKeeps_execIrqClear {v : DWord} (h : Keeps base s) : OutKeeps base (execIrqClear v s) :=
  outKeeps_bar0 h fun hs => keeps_modMgmt hs (Mgmt.Legal.of rfl rfl rfl rfl)
theorem outKeeps_execEqptrHead {v : DWord} (h : Keeps base s) : OutKeeps base (execEqptrHead v s) :=
  outKeeps_bar0 h fun hs => keeps_flushRecords (keeps_modMgmt hs (Mgmt.Legal.of rfl rfl rfl rfl))
theorem outKeeps_execFqptrHead {v : DWord} (h : Keeps base s) : OutKeeps base (execFqptrHead v s) :=
  outKeeps_bar0 h fun hs => keeps_flushRecords (keeps_modMgmt hs (Mgmt.Legal.of rfl rfl rfl rfl))

theorem outKeeps_execPcapWrite {v : DWord} (h : Keeps base s) : OutKeeps base (execPcapWrite v s) :=
  outKeeps_bar0 h fun hs => keeps_modMgmt hs fun l =>
    { cap := clamp_mem _ (powerCeiling_ge _), clock := l.clock, timeouts := l.timeouts, sars := l.sars }
theorem execTmoutWrite_eq (v : DWord) (s : State) :
    execTmoutWrite v s = s.bar0 fun s => s.modMgmt fun m => { m with tmout := tmoutOf v } := by
  unfold execTmoutWrite tmoutOf orOne
  with_reducible rfl

theorem outKeeps_execTmoutWrite {v : DWord} (h : Keeps base s) : OutKeeps base (execTmoutWrite v s) := by
  rw [execTmoutWrite_eq]
  exact outKeeps_bar0 h fun hs => keeps_modMgmt hs fun l =>
    ⟨⟨l.cap.1, l.cap.2⟩, ⟨l.clock.1, l.clock.2⟩, timeoutsLegal_of_tmoutOf (v := v) rfl, l.sars⟩

theorem outKeeps_execRmctlGo {v : DWord} (h : Keeps base s) : OutKeeps base (execRmctlGo v s) := by
  refine outKeeps_bar0 h fun hs => ?_
  have written : Keeps base (s.modMgmt fun m => { m with rmctl := v &&& 0x80000000FFFFFFFF }) :=
    keeps_modMgmt hs (Mgmt.Legal.of rfl rfl rfl rfl)
  dsimp only
  split
  · refine keeps_ite (keeps_modMgmt (written.trans ⟨fun l => ?_, rfl⟩) (Mgmt.Legal.of rfl rfl rfl rfl)) written
    exact { l with }
  · exact written

theorem outKeeps_execRegisterWrite {off : BitVec 16} {v : DWord} (h : Keeps base s) :
    OutKeeps base (execRegisterWrite off v s) := by
  refine outKeeps_bar0 h fun hs => ?_
  have plain {f : Mgmt → Mgmt} (pcap : (f s.mgmt).pcap = s.mgmt.pcap) (clk : (f s.mgmt).clk = s.mgmt.clk)
      (tmout : (f s.mgmt).tmout = s.mgmt.tmout) (sar : (f s.mgmt).sar.length = s.mgmt.sar.length) : Keeps base (s.modMgmt f) :=
    keeps_modMgmt hs (Mgmt.Legal.of pcap clk tmout sar)
  split
  · exact keeps_ite (keeps_endCommand hs) hs
  · exact plain rfl rfl rfl rfl
  · exact plain rfl rfl rfl rfl
  · exact plain rfl rfl rfl rfl
  · exact plain rfl rfl rfl rfl
  · exact plain rfl rfl rfl rfl
  · exact plain rfl rfl rfl rfl
  · exact keeps_ite (plain rfl rfl rfl List.length_set) hs

theorem outKeeps_execStart {n : BitVec 6} {v : DWord} (h : Keeps base s) : OutKeeps base (execStart n v s) :=
  outKeeps_bar0 h fun hs => keeps_ite hs (keeps_modStream hs)

/-- A chain goes on through whichever branch a command takes, whatever its result. -/
theorem keeps_ite_fst {α : Type} {c : Prop} [Decidable c] {a b : State × α} (ha : Keeps base a.1) (hb : Keeps base b.1) :
    Keeps base (if c then a else b).1 := by
  split
  · exact ha
  · exact hb

theorem outKeeps_execInval {m : MCmd} (h : Keeps base s) : OutKeeps base (execInval m s) :=
  outKeeps_mgmtCommand h fun _ h1 => keeps_onContext h1 fun _ => keeps_modCtx h1 fun _ => rfl

theorem outKeeps_execPreempt {m : MCmd} (h : Keeps base s) : OutKeeps base (execPreempt m s) := by
  unfold execPreempt
  refine outKeeps_mgmtCommand h fun s1 h1 => keeps_onContext h1 fun c => keeps_ite_fst h1 (keeps_ite_fst h1 ?_)
  dsimp only
  exact keeps_haltIdle (keeps_setPhase (keeps_modCtx h1 fun _ => rfl))

theorem outKeeps_execRestore {m : MCmd} (h : Keeps base s) : OutKeeps base (execRestore m s) := by
  refine outKeeps_ite h (outKeeps_mgmtCommand h fun s1 h1 => keeps_onContext h1 fun c => keeps_ite_fst h1 (keeps_ite_fst h1 ?_))
  split
  · next e => exact keeps_restoreFrom h1 e
  · exact h1

theorem outKeeps_execFreset {m : MCmd} (h : Keeps base s) : OutKeeps base (execFreset m s) := by
  unfold execFreset
  refine outKeeps_mgmtCommand h fun s1 h1 => keeps_onContext h1 fun c => ?_
  dsimp only
  exact keeps_forceReset h1

theorem outKeeps_execRetain {m : MCmd} (h : Keeps base s) : OutKeeps base (execRetain m s) :=
  outKeeps_mgmtCommand h fun _ h1 => keeps_ite_fst (keeps_reportRefusal h1)
    (keeps_ite_fst h1 (keeps_ite_fst h1 (Keeps.mk' rfl h1)))
theorem outKeeps_execUnretain {m : MCmd} (h : Keeps base s) : OutKeeps base (execUnretain m s) :=
  outKeeps_mgmtCommand h fun _ h1 => keeps_ite_fst (keeps_reportRefusal h1) (keeps_ite_fst h1 (Keeps.mk' rfl h1))

theorem outKeeps_execReshape {m : MCmd} (h : Keeps base s) : OutKeeps base (execReshape m s) := by
  refine outKeeps_mgmtCommand h fun s1 h1 => keeps_ite_fst (keeps_reportRefusal h1) ?_
  split
  · exact h1
  · exact keeps_ite_fst h1 (Keeps.mk' rfl h1)

theorem outKeeps_execLose {m : MCmd} (h : Keeps base s) : OutKeeps base (execLose m s) :=
  outKeeps_mgmtCommand h fun _ h1 => keeps_ite_fst h1 (keeps_loseStack h1)
theorem outKeeps_execAttest {m : MCmd} (h : Keeps base s) : OutKeeps base (execAttest m s) :=
  outKeeps_mgmtCommand h fun _ h1 => keeps_ite_fst h1 (keeps_hostWrite h1)
theorem outKeeps_execUpdate {m : MCmd} (h : Keeps base s) : OutKeeps base (execUpdate m s) :=
  outKeeps_mgmtCommand h fun _ h1 => keeps_ite_fst h1 (keeps_ite_fst (Keeps.mk' rfl h1) (keeps_reportFirmware h1))

/-- R428: one step of k stays in its range where it is made. -/
theorem clock_step {k : BitVec 5} {up : Bool} (range : 8 ≤ k ∧ k ≤ 16) (room : up = true → k < 16) (above : up = false → 8 < k) :
    8 ≤ (if up = true then k + 1 else k - 1) ∧ (if up = true then k + 1 else k - 1) ≤ 16 := by
  cases up with
  | true => have := room rfl; simp only [if_true]; bv_omega
  | false => have := above rfl; simp only [Bool.false_eq_true, if_false]; bv_omega

theorem outKeeps_execPowerStep {up : Bool} (h : Keeps base s) : OutKeeps base (execPowerStep up s) := by
  unfold execPowerStep
  refine outNext (keeps_ite_of (fun _ => h) fun steps => ?_)
  simp only [Bool.or_eq_true, Bool.and_eq_true, Bool.not_eq_true', decide_eq_true_eq, not_or, not_and] at steps
  obtain ⟨⟨-, room⟩, above⟩ := steps
  exact keeps_modMgmt h fun l => ⟨l.cap, clock_step l.clock (fun hu => BitVec.not_le.mp (room hu)) fun hu =>
    BitVec.not_le.mp (above hu), l.timeouts, l.sars⟩

theorem outKeeps_execDieThermalLimit {die : BitVec 2} (h : Keeps base s) : OutKeeps base (execDieThermalLimit die s) :=
  outNext (keeps_modMgmt h fun l => ⟨l.cap, by simp only [Mgmt.clockLegal]; decide, l.timeouts, l.sars⟩)
theorem outKeeps_execCpRestart {die : BitVec 2} {why : BitVec 4} (h : Keeps base s) : OutKeeps base (execCpRestart die why s) :=
  outNext (keeps_restartCp h)
theorem outKeeps_execCpWatchdog {die : BitVec 2} (h : Keeps base s) : OutKeeps base (execCpWatchdog die s) :=
  outNext (keeps_restartCp h)

end Sys2Proof.Machine
end

section
namespace Sys2Proof.Machine

/-! ### No instruction, command or event but those of the firmware touches what R432 guards -/

/-- What every row keeps but those in which the root firmware acts (R432): a legal machine stays legal, and DEVICEID, roots, JOBs
and keys stay as they are. -/
theorem outKeeps_exec {base s : State} (i : Instr) (h : Keeps base s) (program : Claims.firmwareStep i = false) :
    OutKeeps base (exec i s) :=
  match i with
  | .nop _ => outKeeps_execNop h
  | .iadd _ => outKeeps_execIadd h
  | .isub _ => outKeeps_execIsub h
  | .imul _ => outKeeps_execImul h
  | .imad _ => outKeeps_execImad h
  | .imulhi _ => outKeeps_execImulhi h
  | .imin _ => outKeeps_execImin h
  | .imax _ => outKeeps_execImax h
  | .iabs _ => outKeeps_execIabs h
  | .and _ => outKeeps_execAnd h
  | .or _ => outKeeps_execOr h
  | .xor _ => outKeeps_execXor h
  | .andn _ => outKeeps_execAndn h
  | .shl _ => outKeeps_execShl h
  | .shr _ => outKeeps_execShr h
  | .sar _ => outKeeps_execSar h
  | .fsh _ => outKeeps_execFsh h
  | .popc _ => outKeeps_execPopc h
  | .clz _ => outKeeps_execClz h
  | .ctz _ => outKeeps_execCtz h
  | .brev _ => outKeeps_execBrev h
  | .bfx _ => outKeeps_execBfx h
  | .bfi _ => outKeeps_execBfi h
  | .perm _ => outKeeps_execPerm h
  | .lea _ => outKeeps_execLea h
  | .icmp _ => outKeeps_execIcmp h
  | .sel _ => outKeeps_execSel h
  | .mov _ => outKeeps_execMov h
  | .icvt _ => outKeeps_execIcvt h
  | .plop _ => outKeeps_execPlop h
  | .setx _ => outKeeps_execSetx h
  | .addx _ => outKeeps_execAddx h
  | .movi _ => outKeeps_execMovi h
  | .iaddi _ => outKeeps_execIaddi h
  | .imuli _ => outKeeps_execImuli h
  | .iandi _ => outKeeps_execIandi h
  | .iori _ => outKeeps_execIori h
  | .ixori _ => outKeeps_execIxori h
  | .icmpi _ => outKeeps_execIcmpi h
  | .setxi _ => outKeeps_execSetxi h
  | .fadd _ => outKeeps_execFadd h
  | .fsub _ => outKeeps_execFsub h
  | .fmul _ => outKeeps_execFmul h
  | .ffma _ => outKeeps_execFfma h
  | .fdiv _ => outKeeps_execFdiv h
  | .fsqrt _ => outKeeps_execFsqrt h
  | .fmin _ => outKeeps_execFmin h
  | .fmax _ => outKeeps_execFmax h
  | .fsgn _ => outKeeps_execFsgn h
  | .fcmp _ => outKeeps_execFcmp h
  | .frcp _ => outKeeps_execFrcp h
  | .frsq _ => outKeeps_execFrsq h
  | .fexp2 _ => outKeeps_execFexp2 h
  | .flog2 _ => outKeeps_execFlog2 h
  | .fsin _ => outKeeps_execFsin h
  | .fcos _ => outKeeps_execFcos h
  | .fclass _ => outKeeps_execFclass h
  | .fcvt _ => outKeeps_execFcvt h
  | .f2i _ => outKeeps_execF2i h
  | .i2f _ => outKeeps_execI2f h
  | .frnd _ => outKeeps_execFrnd h
  | .bmax _ => outKeeps_execBmax h
  | .bscale _ => outKeeps_execBscale h
  | .bquant _ => outKeeps_execBquant h
  | .bdequant _ => outKeeps_execBdequant h
  | .bnf _ => outKeeps_execBnf h
  | .unpk _ => outKeeps_execUnpk h
  | .lxch _ => outKeeps_execLxch h
  | .lpred _ => outKeeps_execLpred h
  | .lred _ => outKeeps_execLred h
  | .lscan _ => outKeeps_execLscan h
  | .ld _ => outKeeps_execLd h
  | .st _ => outKeeps_execSt h
  | .lds _ => outKeeps_execLds h
  | .sts _ => outKeeps_execSts h
  | .stm _ => outKeeps_execStm h
  | .atom _ => outKeeps_execAtom h
  | .atoms _ => outKeeps_execAtoms h
  | .red _ => outKeeps_execRed h
  | .reds _ => outKeeps_execReds h
  | .gath _ => outKeeps_issue h fun _ _ h1 => body_gatherBody h1
  | .spawn _ => outKeeps_execSpawn h
  | .done _ => outKeeps_execDone h
  | .collPut _ => outKeeps_issue h fun _ _ h1 => body_collBody h1
  | .collGet _ => outKeeps_issue h fun _ _ h1 => body_collBody h1
  | .collRed _ => outKeeps_issue h fun _ _ h1 => body_collBody h1
  | .lsr _ => outKeeps_execLsr h
  | .gnop _ => outKeeps_execGnop h
  | .gadd _ => outKeeps_execGadd h
  | .gsub _ => outKeeps_execGsub h
  | .gmul _ => outKeeps_execGmul h
  | .gmad _ => outKeeps_execGmad h
  | .gmin _ => outKeeps_execGmin h
  | .gmax _ => outKeeps_execGmax h
  | .gand _ => outKeeps_execGand h
  | .gor _ => outKeeps_execGor h
  | .gxor _ => outKeeps_execGxor h
  | .gshl _ => outKeeps_execGshl h
  | .gshr _ => outKeeps_execGshr h
  | .gsar _ => outKeeps_execGsar h
  | .gpopc _ => outKeeps_execGpopc h
  | .gclz _ => outKeeps_execGclz h
  | .gbfx _ => outKeeps_execGbfx h
  | .gbfi _ => outKeeps_execGbfi h
  | .gcmp _ => outKeeps_execGcmp h
  | .gsel _ => outKeeps_execGsel h
  | .gmov _ => outKeeps_execGmov h
  | .gplop _ => outKeeps_execGplop h
  | .gsr _ => outKeeps_execGsr h
  | .gsw _ => outKeeps_execGsw h
  | .gmovi _ => outKeeps_execGmovi h
  | .gaddi _ => outKeeps_execGaddi h
  | .gandi _ => outKeeps_execGandi h
  | .gcmpi _ => outKeeps_execGcmpi h
  | .br _ => outKeeps_execBr h
  | .brx _ => outKeeps_execBrx h
  | .call _ => outKeeps_execCall h
  | .ret _ => outKeeps_execRet h
  | .join _ => outKeeps_execJoin h
  | .exit _ => outKeeps_execExit h
  | .trap _ => outKeeps_execTrap h
  | .gld _ => outKeeps_execGld h
  | .gst _ => outKeeps_execGst h
  | .gbarInit _ => outKeeps_issue h fun _ _ h1 => body_barBody h1
  | .gbarArrive _ => outKeeps_issue h fun _ _ h1 => body_barBody h1
  | .gbarExpect _ => outKeeps_issue h fun _ _ h1 => body_barBody h1
  | .gbarExpa _ => outKeeps_issue h fun _ _ h1 => body_barBody h1
  | .gbarWait _ => outKeeps_issue h fun _ _ h1 => body_barBody h1
  | .gbarTry _ => outKeeps_issue h fun _ _ h1 => body_barBody h1
  | .fence _ => outKeeps_execFence h
  | .drain _ => outKeeps_execDrain h
  | .cpyaB2t _ => outKeeps_issue h fun _ _ h1 => body_cpyaBody h1
  | .cpyaT2b _ => outKeeps_issue h fun _ _ h1 => body_cpyaBody h1
  | .cpyaB2b _ => outKeeps_issue h fun _ _ h1 => body_cpyaBody h1
  | .cpyaFlat _ => outKeeps_issue h fun _ _ h1 => body_cpyaBody h1
  | .dinv _ => outKeeps_execDinv h
  | .dinvAll _ => outKeeps_execDinvAll h
  | .pub _ => outKeeps_issue h fun _ _ h1 => body_pubBody h1
  | .gcollAr _ => outKeeps_issue h fun _ _ h1 => body_gcollBody h1
  | .gcollRs _ => outKeeps_issue h fun _ _ h1 => body_gcollBody h1
  | .gcollAg _ => outKeeps_issue h fun _ _ h1 => body_gcollBody h1
  | .conv _ => outKeeps_execConv h
  | .convDis _ => outKeeps_execConvDis h
  | .mma _ => outKeeps_execMma h
  | .mmaSp _ => outKeeps_execMmaSp h
  | .prune _ => outKeeps_execPrune h
  | .pruneT _ => outKeeps_execPruneT h
  | .accZero _ => outKeeps_execAccZero h
  | .accLd _ => outKeeps_execAccLd h
  | .accSt _ => outKeeps_execAccSt h
  | .accAdd _ => outKeeps_execAccAdd h
  | .mcommit _ => outKeeps_execMcommit h
  | .mwait _ => outKeeps_execMwait h
  | .splitMerge _ _ => outKeeps_execSplitMerge h
  | .holdTimeout _ _ _ => outKeeps_execHoldTimeout h
  | .longLatencyResult _ _ _ => outKeeps_execLongLatencyResult h
  | .nopCommand _ => outKeeps_execNopCommand h
  | .launch _ => outKeeps_execLaunch h
  | .launchi _ => outKeeps_execLaunchi h
  | .loop _ => outKeeps_execLoop h
  | .branch _ => outKeeps_execBranch h
  | .waitph _ => outKeeps_execWaitph h
  | .waitphPoll _ => outKeeps_execWaitphPoll h
  | .signal _ => outKeeps_execSignal h
  | .publish _ => outKeeps_execPublish h
  | .hcopy _ => outKeeps_execHcopy h
  | .hcopyComplete _ => outKeeps_execHcopyComplete h
  | .fenceCommand _ => outKeeps_execFenceCommand h
  | .seed _ => outKeeps_execSeed h
  | .stop _ => outKeeps_execStop h
  | .teamPlacement _ => outKeeps_execTeamPlacement h
  | .spawnedGroupStart _ _ => outKeeps_execSpawnedGroupStart h
  | .gridComplete _ => outKeeps_execGridComplete h
  | .permitGrant _ => outKeeps_execPermitGrant h
  | .tileLanding _ _ => outKeeps_execTileLanding h
  | .copyCredit _ _ => outKeeps_execCopyCredit h
  | .matrixOpStart _ => outKeeps_execMatrixOpStart h
  | .matrixOpComplete _ _ => outKeeps_execMatrixOpComplete h
  | .convocationEnd _ _ => outKeeps_execConvocationEnd h
  | .timerTrap _ => outKeeps_execTimerTrap h
  | .handlerEntry _ => outKeeps_execHandlerEntry h
  | .teamResume _ => outKeeps_execTeamResume h
  | .fqansRetry _ => outKeeps_execFqansRetry h
  | .fqansFail _ => outKeeps_execFqansFail h
  | .contextDrainComplete _ => outKeeps_execContextDrainComplete h
  | .preemptDeadline _ => outKeeps_execPreemptDeadline h
  | .inval _ => outKeeps_execInval h
  | .preempt _ => outKeeps_execPreempt h
  | .restore _ => outKeeps_execRestore h
  | .freset _ => outKeeps_execFreset h
  | .retain _ => outKeeps_execRetain h
  | .unretain _ => outKeeps_execUnretain h
  | .retentionComplete _ => outKeeps_execRetentionComplete h
  | .reshape _ => outKeeps_execReshape h
  | .lose _ => outKeeps_execLose h
  | .attest _ => outKeeps_execAttest h
  | .update _ => outKeeps_execUpdate h
  | .start _ _ => outKeeps_execStart h
  | .irqClear _ => outKeeps_execIrqClear h
  | .eqptrHead _ => outKeeps_execEqptrHead h
  | .fqptrHead _ => outKeeps_execFqptrHead h
  | .pcapWrite _ => outKeeps_execPcapWrite h
  | .tmoutWrite _ => outKeeps_execTmoutWrite h
  | .rmctlGo _ => outKeeps_execRmctlGo h
  | .registerWrite _ _ => outKeeps_execRegisterWrite h
  | .powerStep _ => outKeeps_execPowerStep h
  | .dieThermalLimit die => outKeeps_execDieThermalLimit (die := die) h
  | .stackLost _ _ => outKeeps_execStackLost h
  | .stackTimeout _ => outKeeps_execStackTimeout h
  | .patrolScrub _ _ _ => outKeeps_execPatrolScrub h
  | .journalApply _ _ => outKeeps_execJournalApply h
  | .writeBack _ => outKeeps_execWriteBack h
  | .capacityPackageLost _ => outKeeps_execCapacityPackageLost h
  | .portStateChange _ _ => outKeeps_execPortStateChange h
  | .peerTimeout _ => outKeeps_execPeerTimeout h
  | .peerAccessRequest _ => outKeeps_execPeerAccessRequest h
  | .peerResponse _ _ => outKeeps_execPeerResponse h
  | .put _ => outKeeps_execPut h
  | .get _ => outKeeps_execGet h
  | .getResponse _ _ => outKeeps_execGetResponse h
  | .remoteReduction _ => outKeeps_execRemoteReduction h
  | .forward _ => outKeeps_execForward h
  | .addAndForward _ => outKeeps_execAddAndForward h
  | .final _ => outKeeps_execFinal h
  | .scaleMax _ => outKeeps_execScaleMax h
  | .plan _ => outKeeps_execPlan h
  | .chunkCredit _ => outKeeps_execChunkCredit h
  | .collectiveComplete _ => outKeeps_execCollectiveComplete h
  | .collectiveTimeout _ => outKeeps_execCollectiveTimeout h
  | .hostBar2Read _ _ => outKeeps_execHostBar2Read h
  | .hostBar2Write _ _ _ => outKeeps_execHostBar2Write h
  | .hostAtomicop _ _ _ _ _ => outKeeps_execHostAtomicop h
  | .fetchaddComplete _ => outKeeps_execFetchaddComplete h
  | .cpRestart _ _ => outKeeps_execCpRestart h
  | .cpWatchdog _ => outKeeps_execCpWatchdog h
  | .storePerformed _ _ _ => outKeeps_execStorePerformed h
  | .undefinedEncoding _ => outKeeps_execUndefinedEncoding h
  | .reservedCommand c => outKeeps_execReservedCommand (c := c) h
  | .hostLineOwnership _ _ _ => outKeeps_execHostLineOwnership h
  | .reshapeComplete => outKeeps_execReshapeComplete h
  | .hostLinkDown => outKeeps_execHostLinkDown h
  | .hostLinkUp => outKeeps_execHostLinkUp h
  | .hostCompletionTimeout => outKeeps_execHostCompletionTimeout h
  | .create _ | .destroy _ | .key _ | .topo _ | .wreset _ | .coldReset | .dieThermalTrip _ | .rootFirmwareFault =>
    nomatch program

/-- Settles O9: the rows keep what is guarded, one by one. -/
theorem onlyFirmwareWritesGuardedState : Obligations.OnlyFirmwareWritesGuardedState := by
  intro i s t program _ runs
  have kept := outKeeps_exec i (Keeps.refl s) program
  rw [runs] at kept
  exact kept.guarded

end Sys2Proof.Machine
end

section
namespace Sys2Proof.Machine

/-! ### What the root firmware writes is legal too (R430, R434, R436) -/

/-- An outcome that is a next state is legal. -/
def OutLegal : Host.Outcome State Fault Refusal → Prop
  | .next t => t.Legal
  | .fault _ | .refused _ => True

theorem outLegal_of_keeps {s : State} {r : Host.Outcome State Fault Refusal} (l : s.Legal) (h : OutKeeps s r) : OutLegal r := by
  cases r with
  | next t => exact h.legal l
  | fault _ => trivial
  | refused _ => trivial

/-- What a chain of operations makes of a legal machine is legal. -/
theorem Keeps.legalOf {s t : State} (l : s.Legal) (h : Keeps s s → Keeps s t) : t.Legal := (h (Keeps.refl s)).legal l

theorem legal_foldl {α : Type} (l : List α) (f : State → α → State) {s : State} (h : s.Legal)
    (hf : ∀ s a, s.Legal → (f s a).Legal) : (l.foldl f s).Legal := by
  induction l generalizing s with
  | nil => exact h
  | cons a l ih => exact ih (hf s a h)

theorem outLegal_mgmtCommand {s : State} {op : Nat} {m : MCmd} {rom : Bool} {f : State → State × BitVec 8} (l : s.Legal)
    (hf : (f s).1.Legal) : OutLegal (mgmtCommand op m rom s f) := by
  have ends {s1 : State} {r : BitVec 8} (l1 : s1.Legal) : (s1.endCommand r).Legal := Keeps.legalOf l1 keeps_endCommand
  unfold mgmtCommand
  show (ite _ _ _ : State).Legal
  split
  · exact l
  · split
    · exact ends l
    · exact ends hf

/-! Contexts -/

theorem contextsLegal_filter {l : List Ctx} {f : Ctx → Bool} (h : contextsLegal (l.map Ctx.guarded)) :
    contextsLegal ((l.filter f).map Ctx.guarded) := by
  have sub : ((l.filter f).map Ctx.guarded).Sublist (l.map Ctx.guarded) := List.filter_sublist.map _
  exact ⟨h.1.sublist sub, fun c hc => h.2 c (sub.subset hc)⟩

/-- A context of a number not in use, with an aligned root (R434, R436). -/
theorem contextsLegal_append {l : List Ctx} {c : Ctx} (h : contextsLegal (l.map Ctx.guarded)) (unused : ∀ x ∈ l, x.id ≠ c.id)
    (number : c.id < 16) (aligned : c.root.toNat % 4096 = 0) : contextsLegal ((l ++ [c]).map Ctx.guarded) := by
  rw [List.map_append]
  refine ⟨List.pairwise_append.mpr ⟨h.1, List.pairwise_singleton _ _, fun a ha b hb => ?_⟩, fun a ha => ?_⟩
  · obtain ⟨x, hx, rfl⟩ := List.mem_map.mp ha
    obtain rfl := List.mem_singleton.mp hb
    exact unused x hx
  · rcases List.mem_append.mp ha with old | new
    · exact h.2 a old
    · obtain rfl := List.mem_singleton.mp new
      exact ⟨number, aligned⟩

/-- A change of contexts that leaves their numbers and roots. -/
theorem contextsLegal_map {l : List Ctx} {f : Ctx → Ctx} (h : contextsLegal (l.map Ctx.guarded)) (number : ∀ c, (f c).id = c.id)
    (root : ∀ c, (f c).root = c.root) : contextsLegal ((l.map f).map Ctx.guarded) := by
  obtain ⟨apart, each⟩ := h
  rw [List.pairwise_map] at apart
  refine ⟨?_, fun g hg => ?_⟩
  · rw [List.map_map, List.pairwise_map]
    simpa [Ctx.guarded, number] using apart
  · obtain ⟨c, hc, rfl⟩ := List.mem_map.mp hg
    obtain ⟨b, hb, rfl⟩ := List.mem_map.mp hc
    simpa [Ctx.guarded, number, root] using each b.guarded (List.mem_map_of_mem hb)

theorem State.Legal.withCtxs {s : State} {l : List Ctx} (h : s.Legal) (hl : contextsLegal (l.map Ctx.guarded)) :
    ({ s with ctxs := l } : State).Legal := { h with ctxs := hl }

theorem legal_dropCtx {s : State} {c : Nat} (h : s.Legal) : (s.dropCtx c).Legal := by
  have unkeyed : (s.unkeyLines fun x _ => x = c).Legal := Keeps.legalOf h keeps_unkeyLines
  refine Keeps.legalOf ?_ keeps_interrupt
  exact { unkeyed with
    ctxs := contextsLegal_filter unkeyed.ctxs
    mgmt := Mgmt.Legal.of (m := (s.unkeyLines fun x _ => x = c).mgmt) rfl rfl rfl rfl unkeyed.mgmt }

/-! The rows -/

theorem outLegal_execCreate {s : State} {m : MCmd} (l : s.Legal) : OutLegal (execCreate m s) := by
  refine outLegal_mgmtCommand l ?_
  dsimp only
  split
  · exact l
  · next unused =>
    split
    · exact l
    · next placed =>
      have aligned : s.mgmt.arg0.toNat % 4096 = 0 := by
        simp only [State.nodeAddr, Bool.not_eq_true', Bool.not_eq_false, Bool.and_eq_true, decide_eq_true_eq] at placed
        exact placed.1
      have other : ∀ x ∈ s.ctxs, x.id ≠ m.ctx.toNat := by
        simpa [State.ctx?] using unused
      exact Keeps.legalOf (l.withCtxs (contextsLegal_append l.ctxs other m.ctx.isLt aligned)) keeps_interrupt

theorem outLegal_execDestroy {s : State} {m : MCmd} (l : s.Legal) : OutLegal (execDestroy m s) := by
  have reaped : s.reap.Legal := Keeps.legalOf l keeps_reap
  refine outLegal_mgmtCommand l ?_
  dsimp only
  split
  · exact reaped
  · split
    · exact reaped
    · dsimp only
      exact legal_dropCtx (Keeps.legalOf reaped keeps_endWork)

theorem outLegal_execKey {s : State} {m : MCmd} (l : s.Legal) : OutLegal (execKey m s) := by
  refine outLegal_mgmtCommand l ?_
  unfold onContext
  split
  · exact l
  · next c _ =>
    dsimp only
    split
    · exact l
    · have unkeyed : (s.unkeyLines fun x y => x = c.id && y = bits m.arg.toNat 1 0).Legal := Keeps.legalOf l keeps_unkeyLines
      refine unkeyed.withCtxs (contextsLegal_map unkeyed.ctxs (fun x => ?_) fun x => ?_)
      · split <;> rfl
      · split <;> rfl

theorem outLegal_execTopo {s : State} {m : MCmd} (l : s.Legal) : OutLegal (execTopo m s) := by
  refine outLegal_mgmtCommand l ?_
  dsimp only
  split
  · exact l
  · exact { l with }

theorem legal_warmReset {s : State} (l : s.Legal) : s.warmReset.Legal := by
  have contexts : ((s.ctxs.map fun c => c.id).foldl (fun s c => (s.forceReset c).dropCtx c) s).Legal :=
    legal_foldl _ _ l fun _ _ h => legal_dropCtx (Keeps.legalOf h keeps_forceReset)
  have written := Keeps.legalOf contexts keeps_writeBackAll
  exact { written with mgmt := Mgmt.Legal.of (m := State.mgmt (State.writeBackAll _)) rfl rfl rfl rfl written.mgmt }

theorem outLegal_execWreset {s : State} {m : MCmd} (l : s.Legal) : OutLegal (execWreset m s) :=
  outLegal_mgmtCommand l (legal_warmReset l)

theorem outLegal_execRootFirmwareFault {s : State} (l : s.Legal) : OutLegal (execRootFirmwareFault s) := by
  have reset : ∀ c, ((s.reportFirmware 0 c).warmReset).Legal := fun c => legal_warmReset (Keeps.legalOf l keeps_reportFirmware)
  have restarted : ∀ c b, ({ (s.reportFirmware 0 c).warmReset with boot := b } : State).Legal := fun c b => { reset c with }
  unfold execRootFirmwareFault
  show (ite _ _ _ : State).Legal
  split
  · exact l
  · split
    · exact Keeps.legalOf (restarted _ _) keeps_endCommand
    · exact restarted _ _

/-! ### The machine after cold reset -/

theorem mgmtReset_legal : Mgmt.reset.Legal where
  cap := ⟨powerCeiling_ge _, BitVec.le_refl _⟩
  clock := by simp only [Mgmt.clockLegal, Mgmt.reset]; decide
  timeouts := by simp only [Mgmt.timeoutsLegal, Mgmt.reset]; decide
  sars := rfl

theorem reset_legal : State.reset.Legal where
  memory := rfl
  teams := List.forall_mem_nil _
  groups := List.forall_mem_nil _
  mgmt := mgmtReset_legal
  streams := rfl
  ctxs := ⟨List.Pairwise.nil, List.forall_mem_nil _⟩

theorem State.Legal.hostMem {s : State} (l : s.Legal) : SMap.wf s.host.mem = true := by
  have m := l.memory
  simp only [Memory.wf, Bool.and_eq_true] at m
  exact m.2

/-- Where the device's memory has been cleared, the host's alone is left to be canonical. -/
theorem memory_wf_of_cleared {s : State} (mem : s.storage.mem = []) (media : s.storage.media = [])
    (host : SMap.wf s.host.mem = true) : Memory.wf s = true := by
  simp only [Memory.wf, mem, media, host]
  rfl

/-- R430: a cold reset keeps the host's memory, which is as canonical as it was. -/
theorem legal_coldReset {s : State} (l : s.Legal) : s.coldReset.Legal :=
  { reset_legal with memory := memory_wf_of_cleared rfl rfl l.hostMem }

/-- Every row leaves a legal machine. -/
theorem outLegal_exec {s : State} (i : Instr) (l : s.Legal) : OutLegal (exec i s) := by
  by_cases program : Claims.firmwareStep i = false
  · exact outLegal_of_keeps l (outKeeps_exec i (Keeps.refl s) program)
  · cases i with
    | create m => exact outLegal_execCreate l
    | destroy m => exact outLegal_execDestroy l
    | key m => exact outLegal_execKey l
    | topo m => exact outLegal_execTopo l
    | wreset m => exact outLegal_execWreset l
    | coldReset | dieThermalTrip _ => exact legal_coldReset l
    | rootFirmwareFault => exact outLegal_execRootFirmwareFault l
    | _ => exact absurd rfl program

/-! ### The step (R31, R174, R431) -/

/-- What a fetch ends with keeps a chain: what it hands to execution, and what happened instead. -/
def Fetched.Keeps (base : State) : Fetched → Prop
  | .run _ t | .instead t => Machine.Keeps base t

theorem keeps_fetch {base s : State} {t g p : Nat} (h : Keeps base s) : Fetched.Keeps base (s.fetch t g p) := by
  unfold State.fetch
  split
  · split
    · exact h
    · split
      · exact h
      · split
        · split
          · split
            · exact keeps_rekeySpans (keeps_takeAnswers h)
            · exact keeps_fetchFails h
          · exact keeps_rekeySpans (keeps_takeAnswers h)
        · exact keeps_fetchFails h
  · exact h

theorem keeps_fetchCommand {base s : State} {n : Nat} (h : Keeps base s) : Fetched.Keeps base (s.fetchCommand n) := by
  unfold State.fetchCommand
  dsimp only
  split
  · exact h
  · split
    · exact keeps_rekeySpans h
    · exact keeps_cpFails h

theorem keeps_bar0Write {base s : State} {off : Nat} {v : DWord} (h : Keeps base s) : Keeps base (s.bar0Write off v).2 := by
  unfold State.bar0Write
  split
  · exact keeps_startCommand h
  · split <;> exact h

/-- What is fetched runs in a legal machine. -/
theorem outLegal_issued {s : State} (i : Instr) (who : Issuer) (l : s.Legal) : OutLegal (exec i { s with issuer := who }) :=
  outLegal_exec i { l with }

theorem outLegal_runIssue {s : State} {t g p : Nat} (l : s.Legal) : OutLegal (runIssue t g p s) := by
  have fetched := keeps_fetch (t := t) (g := g) (p := p) (Keeps.refl s)
  unfold runIssue
  split
  · next e => rw [e] at fetched; exact outLegal_issued _ _ (fetched.legal l)
  · next e => rw [e] at fetched; exact fetched.legal l

theorem outLegal_runMove {s : State} (m : Move) (l : s.Legal) : OutLegal (runMove m s) := by
  cases m with
  | choose => exact Keeps.legalOf l keeps_issueCycle
  | attempt t g p =>
    have issued := outLegal_runIssue (t := t) (g := g) (p := p) l
    unfold runMove
    dsimp only
    split
    · next e =>
      rw [e] at issued
      show (ite _ _ _ : State).Legal
      split
      · exact issued
      · exact l
    · exact issued
  | issue t g p => exact outLegal_runIssue l
  | command n =>
    have fetched := keeps_fetchCommand (n := n) (Keeps.refl s)
    unfold runMove
    dsimp only
    split
    · next e => rw [e] at fetched; exact outLegal_issued _ _ (fetched.legal l)
    · next e => rw [e] at fetched; exact fetched.legal l
  | bar0 off v =>
    have written := keeps_bar0Write (off := off) (v := v) (Keeps.refl s)
    unfold runMove
    dsimp only
    split
    · next e => rw [e] at written; exact outLegal_issued _ _ (written.legal l)
    · next e => rw [e] at written; exact written.legal l
  | event i => exact outLegal_issued i .none l
  | hardware e => exact Keeps.legalOf l keeps_befall

theorem legal_unlessStalled {s t : State} (l : s.Legal) (h : t.Legal) : (s.unlessStalled t).Legal := by
  unfold State.unlessStalled
  split
  · exact l
  · exact h

/-- R431: bring-up clears the memory and DEVICEID, and leaves every register in its range. -/
theorem legal_bringUp {s : State} (l : s.Legal) : s.bringUp.Legal := by
  have same {m : Mgmt} (pcap : m.pcap = s.mgmt.pcap) (clk : m.clk = s.mgmt.clk) (tmout : m.tmout = s.mgmt.tmout)
      (sar : m.sar.length = s.mgmt.sar.length) : m.Legal := Mgmt.Legal.of pcap clk tmout sar l.mgmt
  unfold State.bringUp
  dsimp only
  split
  · exact { l with }
  · split
    · exact { l with }
    · exact { l with mgmt := same rfl rfl rfl rfl }
  · split
    · exact { l with }
    · exact { l with memory := memory_wf_of_cleared rfl rfl l.hostMem }
  · exact { l with }
  · exact { l with mgmt := same rfl rfl rfl rfl }
  · exact { l with }
  · exact { l with }

/-- Settles O8: a step makes one move of the agenda, the next step of bring-up or one count of the clock, and each leaves a legal
machine. -/
theorem everyStepKeepsLegal : Obligations.EveryStepKeepsLegal := by
  intro s t l e
  have counted : ({ s with free := s.free + 1 } : State).Legal := { l with }
  unfold step at e
  dsimp only at e
  split at e
  · next m rest _ =>
    have taken : ({ s with free := s.free + 1, agenda := rest } : State).Legal := { l with }
    have moved := outLegal_runMove m taken
    split at e
    · next r =>
      rw [r] at moved
      cases e
      exact legal_unlessStalled taken moved
    · next other => exact absurd e (other t)
  · split at e
    · cases e; exact Keeps.legalOf counted keeps_tick
    · cases e; exact Keeps.legalOf counted keeps_tick
    · cases e; exact legal_bringUp counted

end Sys2Proof.Machine
end

section
namespace Sys2Proof.Machine

/-! ### What the registers read after a cold reset (R435) -/

/-- IDENT reads the value of one of the three ordering codes. -/
theorem identReg_mem : identReg ∈ [0x4A12000000000001#64, 0x4A12010000000001, 0x4A12020000000001] := by
  have each : ∀ code : Fin 3, BitVec.ofNat 64 (0x4A12 * 2 ^ 48 + code.val * 2 ^ 40 + 1) ∈
      [0x4A12000000000001#64, 0x4A12010000000001, 0x4A12020000000001] := by decide
  exact each Config.orderingCode

theorem reset_barRead_zero : ∀ off ∈ [0x0008, 0x0018, 0x0020, 0x0028, 0x0030, 0x0038, 0x0040, 0x0048, 0x0050, 0x0058, 0x0068,
    0x0070, 0x0090, 0x0800, 0x0808], State.reset.barRead off = 0 := by
  simp only [List.forall_mem_cons]
  refine ⟨rfl, rfl, rfl, rfl, rfl, rfl, rfl, rfl, rfl, rfl, rfl, rfl, rfl, rfl, rfl, ?_⟩
  exact List.forall_mem_nil _

theorem reset_sar : ∀ i < 8, State.reset.barRead (0x0100 + 8 * i) = 0 := by decide

theorem reset_streams : ∀ n < 64, State.reset.barRead (0x1008 + 32 * n) = 0 ∧ State.reset.barRead (0x1010 + 32 * n) = 0 ∧
    (State.reset.stream n).running = false := by decide

/-- Settles O7: by the values of Reset, register by register. -/
theorem resetLegal : Obligations.ResetLegal :=
  ⟨reset_legal, rfl, rfl, rfl, rfl, rfl, rfl, rfl, identReg_mem, reset_barRead_zero, rfl, rfl, rfl, reset_sar, reset_streams, rfl,
    fun _ => rfl⟩

end Sys2Proof.Machine
end

section
/-!
Registers, commands, power and resets. The refutation turns on RESTORE while READY is 0: the model has the command run on until the
host has given back the lines of the save area that it owns (R344, R391), whether commands are accepted or not; the statement has
every command but ATTEST end with result 1 there (R420, R437).
-/
namespace Sys2Proof.Machine

/-- Recovery after a warm reset (R420, R430): a RESTORE from a save area at 0 runs, and the host still owns the line in which the
area begins. -/
def restoreInRecovery : State :=
  { State.reset with
    boot := .recovery true
    host := { State.reset.host with linkUp := true }
    storage := { Storage.reset with hostOwned := [0] }
    mgmt := { Mgmt.reset with recovery := true, busy := true, mcmd := mcmdWord 0x06 ⟨0, 0⟩ } }

/-- The command waits for the line. -/
theorem exec_restoreInRecovery : exec (.restore ⟨0, 0⟩) restoreInRecovery = .next restoreInRecovery := by
  have waits : (restoreInRecovery.commandRuns 0x06 ⟨0, 0⟩ && restoreInRecovery.nodeAddr restoreInRecovery.mgmt.arg0 64 &&
      restoreInRecovery.areaHeld restoreInRecovery.mgmt.arg0.toNat) = true := by decide
  change execRestore _ _ = _
  rw [execRestore, if_pos waits]

/-- R437: a command that has ended is busy no more. -/
theorem endCommand_busy (s : State) (r : BitVec 8) : (s.endCommand r).mgmt.busy = false :=
  congrArg Mgmt.busy (raiseMsix_mgmt _ _)

theorem restore_mem_mgmtTable : (Instr.restore, 0x06) ∈ Claims.mgmtTable :=
  .tail _ (.tail _ (.tail _ (.tail _ (.tail _ (.head _)))))

/-- Refutes O12: a RESTORE that runs in recovery, of a save area of which the host owns a line, stays busy until the line has come
back, where the statement has it end with result 1. -/
theorem not_platformResults : ¬ Obligations.PlatformResults := by
  unfold Obligations.PlatformResults
  rintro ⟨-, rows, -⟩
  obtain ⟨-, refused⟩ := rows _ restore_mem_mgmtTable ⟨0, 0⟩ restoreInRecovery
  have ends := refused rfl rfl (by decide)
  have same : restoreInRecovery = restoreInRecovery.endCommand 1 :=
    Host.Outcome.next.inj (exec_restoreInRecovery.symm.trans ends)
  have busy : restoreInRecovery.mgmt.busy = false := (congrArg (fun s => s.mgmt.busy) same).trans (endCommand_busy _ 1)
  exact Bool.noConfusion busy

end Sys2Proof.Machine
end
